-- ==== Sys2Proof/Word.lean ====
section
/-! DEFINITION. The word types of the LH-9800 and their plainest arithmetic (R4, R61). -/

namespace Sys2Proof

/-- One byte of memory or of an image. -/
abbrev Byte := BitVec 8
/-- An instruction, extension, header or constant word (R93, R100). -/
abbrev W32 := BitVec 32
/-- The data of a token, a live-value register or a register of BAR 0 (R61, R131). -/
abbrev W64 := BitVec 64

/-- Bits [hi:lo] of a number, both ends included (R4). -/
def bitsOf (n hi lo : Nat) : Nat := (n / 2 ^ lo) % 2 ^ (hi + 1 - lo)

/-- The signed value of the low `w` bits of `n`. -/
def signedOf (n w : Nat) : Int :=
  let m := n % 2 ^ w
  if m < 2 ^ (w - 1) then (m : Int) else (m : Int) - (2 ^ w : Nat)

/-- An integer reduced modulo `2 ^ w`. -/
def wrapTo (x : Int) (w : Nat) : Nat := (x % ((2 ^ w : Nat) : Int)).toNat

/-- A predicate token: bit 0, every other bit zero (R141). -/
def predTok (b : Bool) : W64 := if b then 1 else 0

/-- The value `n` as token data. -/
def tokNat (n : Nat) : W64 := BitVec.ofNat 64 n

/-- The least multiple of `m` not below `n`. -/
def roundUp (n m : Nat) : Nat := (n + m - 1) / m * m

/-- The least number of units of `m` that hold `n`. -/
def ceilDiv (n m : Nat) : Nat := (n + m - 1) / m

end Sys2Proof
end

