-- ==== Sys2Proof/Syntax.lean ====
section
/-! DEFINITION. The instructions and events of spec/opcode_table.json as one inductive, with the field types of their encodings (R98 to R115, R276, R316, R363). -/

namespace Sys2Proof

/-- The pr field of an instruction that may be predicated (R104): 00, 10, 11. -/
inductive Pred where
  | always | pt | pf
  deriving DecidableEq, Repr

/-- The input a target names (R102): 01 L, 10 R, 11 P. -/
inductive Field where
  | L | R | P
  deriving DecidableEq, Repr

/-- XI types (R107). -/
inductive IntTy where
  | i8 | i16 | i32 | i64 | n8 | n16 | n32 | n64
  deriving DecidableEq, Repr

/-- The signed XI types, the only ones of ABS and NEG (R108). -/
inductive SIntTy where
  | i8 | i16 | i32 | i64
  deriving DecidableEq, Repr

/-- XB types (R107). -/
inductive BitTy where
  | b32 | b64
  deriving DecidableEq, Repr

/-- The index types of LEA (R160). -/
inductive IxTy where
  | i32 | n32 | i64
  deriving DecidableEq, Repr

/-- XC conditions (R107). -/
inductive Cond where
  | eq | ne | lt | le | gt | ge
  deriving DecidableEq, Repr

/-- XC widths (R107). -/
inductive CWidth where
  | w8 | w16 | w32 | w64
  deriving DecidableEq, Repr

/-- SRD selectors 0x00 to 0x0C (R143). -/
inductive SReg where
  | tid | wgid | gid | role | lane | width | round | wgsz | ggsz | core | die | launch | tenant
  deriving DecidableEq, Repr

/-- XSHUF modes (R198). -/
inductive ShufMode where
  | idx | up | down | xor
  deriving DecidableEq, Repr

/-- RVOTE modes (R203). -/
inductive Vote where
  | all | any | cnt
  deriving DecidableEq, Repr

/-- Types of the integer reductions (R108). -/
inductive RTy where
  | i32 | n32 | i64 | n64
  deriving DecidableEq, Repr

/-- Rounding modes (R65). -/
inductive Rnd where
  | rne | rtz | rup | rdn
  deriving DecidableEq, Repr

/-- XF L modifiers (R107). -/
inductive LMod where
  | none | negl | absl | nabsl
  deriving DecidableEq, Repr

/-- Formats of FADD to FCMP (R109). -/
inductive FFmt where
  | f32 | f16 | bf16 | f16x2 | bf16x2
  deriving DecidableEq, Repr

/-- Scalar floating formats (R63). -/
inductive SFmt where
  | f32 | f16 | bf16
  deriving DecidableEq, Repr

/-- FCMP conditions (R186). -/
inductive FCond where
  | eq | ne | lt | le | gt | ge | un | ord
  deriving DecidableEq, Repr

/-- CVT formats, codes 0 to 10 (R110). -/
inductive NumTy where
  | i8 | i16 | i32 | i64 | n8 | n16 | n32 | n64 | f32 | f16 | bf16
  deriving DecidableEq, Repr

/-- Logarithmic formats (R72, R73). -/
inductive LogFmt where
  | l6 | l8
  deriving DecidableEq, Repr

/-- Block lengths (R74). -/
inductive BlkLen where
  | k16 | k32 | k64
  deriving DecidableEq, Repr

/-- Memory sizes 1, 2, 4, 8 (R107). -/
inductive Size where
  | s1 | s2 | s4 | s8
  deriving DecidableEq, Repr

/-- Scopes (R107). -/
inductive Scope where
  | th | wg | gg | die | dev | sys
  deriving DecidableEq, Repr

/-- Types of AADD, AMIN, AMAX (R113). -/
inductive AIntTy where
  | i32 | i64 | n32 | n64
  deriving DecidableEq, Repr

/-- Types of AFADD (R113). -/
inductive AFltTy where
  | f32 | f16x2 | bf16x2
  deriving DecidableEq, Repr

/-- FENCE kinds (R270). -/
inductive FenceKind where
  | acq | rel | ar
  deriving DecidableEq, Repr

/-- MLD source codes (R281). -/
inductive LdSrc where
  | raw | f32 | f16 | bf16
  deriving DecidableEq, Repr

/-- MRED operations (R276). -/
inductive MRedOp where
  | fadd | fmax | fmin
  deriving DecidableEq, Repr

/-- TLBINV granules (R358). -/
inductive Gran where
  | g64k | g2m | g512m | g32g
  deriving DecidableEq, Repr

/-- The protected stores that a soft error can hit (R138, R216, R296). -/
inductive SoftUnit where
  | hbmData | sidecar | coreScratch | dieScratch | window | lineBuffer | operandBuffer | accumulator | lvs
  /-- the descriptor of a row of the LVS (R138) -/
  | lvsRow
  deriving DecidableEq, Repr

/-- Engine classes (R98), codes 0x0 to 0x8. -/
inductive Cls where
  | alu | fpu | mem | mtx | cvt | flow | sync | eng | sys
  deriving DecidableEq, Repr

/-- A 9-bit target (R102): none, or an input of a later instruction. -/
inductive Target where
  | none
  | to (f : Field) (i : BitVec 7)
  deriving DecidableEq, Repr

/-- The I field (R101): an immediate from -192 to 255 or a constant word. -/
inductive IField where
  | imm (v : Int)
  | const (k : Nat)
  deriving DecidableEq, Repr

/-- The reduction layout (R108): operation and type. -/
inductive Red where
  | add (t : RTy) | min (t : RTy) | max (t : RTy)
  | and (t : BitTy) | or (t : BitTy) | xor (t : BitTy)
  | fadd | fmax
  deriving DecidableEq, Repr

/-- The data of ACASV (R269): opP for 4 or 8 bytes (pr 01), a register pair for 16 bytes. -/
inductive VData where
  | op4 | op8
  | pair (p : Pred) (base : BitVec 6)
  deriving DecidableEq, Repr

/-- Format and block length of a reservation (R227, R276). -/
inductive RecFmt where
  | bf16 | fp16
  | l6 (len : BlkLen) | l8 (len : BlkLen)
  deriving DecidableEq, Repr

/-- The form of MST (R276): memory with a format, or a record. -/
inductive StFmt where
  | f32 | f16 | bf16
  | ob16 (rec : BitVec 6) | obbf (rec : BitVec 6)
  deriving DecidableEq, Repr

/-- What the far side of a UALink port answers to a read, an atomic or a write of this device
(R253, R262, R426): supplied by the outside. `none` also stands for a reply of a local unit. (log 54, DEDUCED) -/
inductive PeerReply where
  | none
  | data (v : W64)
  | refused (sub : Nat)
  /-- data that carries a poison mark (R326, R437) -/
  | poisoned
  deriving DecidableEq, Repr

/-- The atomic operations a UALink port accepts (R434). -/
inductive PeerAtomic where
  | add | smin | smax | umin | umax | and | or | xor | xchg | cas | fadd32 | unsupported
  deriving DecidableEq, Repr

/-- What an incoming UALink request asks for (R378, R434). -/
inductive PeerAccess where
  | read (n : Nat)
  | write (data : List Byte) (poisoned : Bool)
  | atomic (op : PeerAtomic) (n : Nat) (a b : W64)
  /-- a visibility probe: answered once the writes accepted from its source are visible (R240) -/
  | probe
  deriving DecidableEq, Repr

/-- An incoming UALink request (R377, R378, R434). -/
structure PeerRequest where
  source : Nat
  window : Nat
  key : Nat
  off : Nat
  acc : PeerAccess
  deriving DecidableEq, Repr

/-- The rows of spec/opcode_table.json: 181 instructions and 89 events. (log 54, DEDUCED) -/
inductive Instr where
  -- class ALU (R108)
  | add (p : Pred) (ty : IntTy) (sat : Bool) (t1 t0 : Target)
  | sub (p : Pred) (ty : IntTy) (sat : Bool) (t1 t0 : Target)
  | mul (p : Pred) (ty : IntTy) (sat : Bool) (t1 t0 : Target)
  | mulh (p : Pred) (ty : IntTy) (t1 t0 : Target)
  | div (p : Pred) (ty : IntTy) (sat : Bool) (t1 t0 : Target)
  | rem (p : Pred) (ty : IntTy) (t1 t0 : Target)
  | min (p : Pred) (ty : IntTy) (t1 t0 : Target)
  | max (p : Pred) (ty : IntTy) (t1 t0 : Target)
  | abs (p : Pred) (ty : SIntTy) (sat : Bool) (t1 t0 : Target)
  | neg (p : Pred) (ty : SIntTy) (sat : Bool) (t1 t0 : Target)
  | and (p : Pred) (ty : BitTy) (t1 t0 : Target)
  | or (p : Pred) (ty : BitTy) (t1 t0 : Target)
  | xor (p : Pred) (ty : BitTy) (t1 t0 : Target)
  | andn (p : Pred) (ty : BitTy) (t1 t0 : Target)
  | shl (p : Pred) (ty : IntTy) (sat : Bool) (t1 t0 : Target)
  | shr (p : Pred) (ty : IntTy) (t1 t0 : Target)
  | rot (p : Pred) (ty : BitTy) (t1 t0 : Target)
  | bfx (p : Pred) (ty : IntTy) (t1 t0 : Target)
  | bfi (ty : BitTy) (t1 t0 : Target)
  | popc (p : Pred) (ty : BitTy) (t1 t0 : Target)
  | clz (p : Pred) (ty : BitTy) (t1 t0 : Target)
  | ctz (p : Pred) (ty : BitTy) (t1 t0 : Target)
  | brev (p : Pred) (ty : BitTy) (t1 t0 : Target)
  | lea (p : Pred) (sh : BitVec 3) (ix : IxTy) (t1 t0 : Target)
  | sel (ty : BitTy) (t1 t0 : Target)
  | cmpSigned (p : Pred) (c : Cond) (w : CWidth) (t1 t0 : Target)
  | cmpUnsigned (p : Pred) (c : Cond) (w : CWidth) (t1 t0 : Target)
  | pand (p : Pred) (t1 t0 : Target)
  | por (p : Pred) (t1 t0 : Target)
  | pxor (p : Pred) (t1 t0 : Target)
  | pnot (p : Pred) (t1 t0 : Target)
  | mov (p : Pred) (t1 t0 : Target)
  | movi (p : Pred) (ty : IntTy) (imm : Int) (t0 : Target)
  | const (p : Pred) (ty : BitTy) (k : Nat) (t0 : Target)
  | addi (p : Pred) (ty : IntTy) (sat : Bool) (i : IField) (t0 : Target)
  | andi (p : Pred) (ty : BitTy) (i : IField) (t0 : Target)
  | ori (p : Pred) (ty : BitTy) (i : IField) (t0 : Target)
  | xori (p : Pred) (ty : BitTy) (i : IField) (t0 : Target)
  | shli (p : Pred) (ty : IntTy) (sat : Bool) (i : IField) (t0 : Target)
  | shri (p : Pred) (ty : IntTy) (i : IField) (t0 : Target)
  | cmpiSigned (p : Pred) (c : Cond) (w : CWidth) (i : IField) (t0 : Target)
  | cmpiUnsigned (p : Pred) (c : Cond) (w : CWidth) (i : IField) (t0 : Target)
  | lvr (p : Pred) (v : BitVec 6) (t0 : Target)
  | lvw (p : Pred) (v : BitVec 6)
  | srd (p : Pred) (r : SReg) (t1 t0 : Target)
  | xshuf (p : Pred) (m : ShufMode) (t1 t0 : Target)
  | xbcast (p : Pred) (t1 t0 : Target)
  | rred (p : Pred) (op : Red) (t1 t0 : Target)
  | rscanInclusive (p : Pred) (op : Red) (t1 t0 : Target)
  | rscanExclusive (p : Pred) (op : Red) (t1 t0 : Target)
  | rvote (p : Pred) (m : Vote) (t1 t0 : Target)
  -- class FPU (R109)
  | fadd (p : Pred) (f : FFmt) (r : Rnd) (lm : LMod) (ng : Bool) (t1 t0 : Target)
  | fsub (p : Pred) (f : FFmt) (r : Rnd) (lm : LMod) (ng : Bool) (t1 t0 : Target)
  | fmul (p : Pred) (f : FFmt) (r : Rnd) (lm : LMod) (ng : Bool) (t1 t0 : Target)
  | ffma (f : FFmt) (r : Rnd) (lm : LMod) (ng : Bool) (t1 t0 : Target)
  | fmin (p : Pred) (f : FFmt) (r : Rnd) (lm : LMod) (ng : Bool) (t1 t0 : Target)
  | fmax (p : Pred) (f : FFmt) (r : Rnd) (lm : LMod) (ng : Bool) (t1 t0 : Target)
  | fcmp (p : Pred) (f : FFmt) (c : FCond) (t1 t0 : Target)
  | fdiv (p : Pred) (f : SFmt) (r : Rnd) (lm : LMod) (ng : Bool) (t1 t0 : Target)
  | fsqrt (p : Pred) (f : SFmt) (r : Rnd) (lm : LMod) (t1 t0 : Target)
  | frcp (p : Pred) (f : SFmt) (r : Rnd) (lm : LMod) (t1 t0 : Target)
  | frsq (p : Pred) (f : SFmt) (r : Rnd) (lm : LMod) (t1 t0 : Target)
  | fexp2 (p : Pred) (f : SFmt) (r : Rnd) (lm : LMod) (t1 t0 : Target)
  | flog2 (p : Pred) (f : SFmt) (r : Rnd) (lm : LMod) (t1 t0 : Target)
  | fsinp (p : Pred) (f : SFmt) (r : Rnd) (lm : LMod) (t1 t0 : Target)
  | fcosp (p : Pred) (f : SFmt) (r : Rnd) (lm : LMod) (t1 t0 : Target)
  | frnd (p : Pred) (f : SFmt) (r : Rnd) (lm : LMod) (t1 t0 : Target)
  | fclass (p : Pred) (f : SFmt) (t1 t0 : Target)
  -- class CVT (R110)
  | cvt (p : Pred) (src dst : NumTy) (r : Rnd) (sat : Bool) (t1 t0 : Target)
  | cvtbToLog (p : Pred) (src : SFmt) (lf : LogFmt) (len : BlkLen) (t1 t0 : Target)
  | cvtbToF32 (p : Pred) (r : Rnd) (lf : LogFmt) (len : BlkLen) (t1 t0 : Target)
  | cvtp (p : Pred) (r : Rnd) (bf : Bool) (t1 t0 : Target)
  -- class FLOW (R111)
  | br (p : Pred) (b : BitVec 18)
  | bri (p : Pred)
  | call (p : Pred) (b : BitVec 18)
  | ret (p : Pred)
  | exit (p : Pred)
  | switch (p : Pred) (n : BitVec 5) (k : Nat)
  | nullLsid (p : Pred) (l : BitVec 5)
  | nullRegister (p : Pred) (v : BitVec 6)
  | yield (p : Pred) (b : BitVec 18)
  | xpath (p : Pred) (b : BitVec 18)
  | nop (p : Pred)
  -- class MEM (R112)
  | ld (p : Pred) (z : Size) (sx ua : Bool) (l : BitVec 5) (off : BitVec 4) (t0 : Target)
  | lda (p : Pred) (z : Size) (sc : Scope) (l : BitVec 5) (off : BitVec 4) (t0 : Target)
  | st (p : Pred) (z : Size) (ua : Bool) (l : BitVec 5) (off : BitVec 4)
  | stl (p : Pred) (z : Size) (sc : Scope) (l : BitVec 5) (off : BitVec 4)
  | ldv (p : Pred) (z : Size) (w : Bool) (l : BitVec 5) (off : BitVec 11) (t1 t0 : Target)
  | prf (p : Pred)
  | sput (p : Pred) (q : BitVec 4) (l : BitVec 5)
  | sget (p : Pred) (q : BitVec 4) (t1 t0 : Target)
  | smark (p : Pred) (q : BitVec 4) (l : BitVec 5)
  | rld (p : Pred) (z : Size) (sys : Bool) (l : BitVec 5) (off : BitVec 4) (t0 : Target)
  | rst (p : Pred) (z : Size) (sys : Bool) (l : BitVec 5) (off : BitVec 4)
  | isect (p : Pred) (wide : Bool) (t1 t0 : Target)
  | union (p : Pred) (wide : Bool) (t1 t0 : Target)
  | compact (p : Pred) (wide : Bool) (t1 t0 : Target)
  | expand (p : Pred) (wide : Bool) (t1 t0 : Target)
  -- class SYNC (R113)
  | aadd (p : Pred) (ty : AIntTy) (sc : Scope) (l : BitVec 5) (off : BitVec 4) (t0 : Target)
  | afadd (p : Pred) (ty : AFltTy) (sc : Scope) (l : BitVec 5) (off : BitVec 4) (t0 : Target)
  | amin (p : Pred) (ty : AIntTy) (sc : Scope) (l : BitVec 5) (off : BitVec 4) (t0 : Target)
  | amax (p : Pred) (ty : AIntTy) (sc : Scope) (l : BitVec 5) (off : BitVec 4) (t0 : Target)
  | aand (p : Pred) (ty : BitTy) (sc : Scope) (l : BitVec 5) (off : BitVec 4) (t0 : Target)
  | aor (p : Pred) (ty : BitTy) (sc : Scope) (l : BitVec 5) (off : BitVec 4) (t0 : Target)
  | axor (p : Pred) (ty : BitTy) (sc : Scope) (l : BitVec 5) (off : BitVec 4) (t0 : Target)
  | axchg (p : Pred) (ty : BitTy) (sc : Scope) (l : BitVec 5) (off : BitVec 4) (t0 : Target)
  | acas (ty : BitTy) (sc : Scope) (l : BitVec 5) (off : BitVec 4) (t0 : Target)
  | acasw (sc : Scope) (l : BitVec 5) (base : BitVec 6) (off : BitVec 5) (t1 t0 : Target)
  | acasv (d : VData) (sc : Scope) (l : BitVec 5) (off : BitVec 5) (t1 t0 : Target)
  | aaddNr (p : Pred) (ty : AIntTy) (sc : Scope) (l : BitVec 5) (off : BitVec 4)
  | afaddNr (p : Pred) (ty : AFltTy) (sc : Scope) (l : BitVec 5) (off : BitVec 4)
  | aminNr (p : Pred) (ty : AIntTy) (sc : Scope) (l : BitVec 5) (off : BitVec 4)
  | amaxNr (p : Pred) (ty : AIntTy) (sc : Scope) (l : BitVec 5) (off : BitVec 4)
  | aandNr (p : Pred) (ty : BitTy) (sc : Scope) (l : BitVec 5) (off : BitVec 4)
  | aorNr (p : Pred) (ty : BitTy) (sc : Scope) (l : BitVec 5) (off : BitVec 4)
  | axorNr (p : Pred) (ty : BitTy) (sc : Scope) (l : BitVec 5) (off : BitVec 4)
  | axchgNr (p : Pred) (ty : BitTy) (sc : Scope) (l : BitVec 5) (off : BitVec 4)
  | acasNr (ty : BitTy) (sc : Scope) (l : BitVec 5) (off : BitVec 4)
  | acaswNr (sc : Scope) (l : BitVec 5) (base : BitVec 6) (off : BitVec 5)
  | acasvNr (d : VData) (sc : Scope) (l : BitVec 5) (off : BitVec 5)
  | fence (p : Pred) (k : FenceKind) (sc : Scope) (l : BitVec 5)
  | binit (p : Pred) (q : BitVec 4) (l : BitVec 5)
  | barv (p : Pred) (masked : Bool) (q : BitVec 4) (l : BitVec 5)
  | bwait (p : Pred) (q : BitVec 4) (t1 t0 : Target)
  | bexp (p : Pred) (q : BitVec 4) (l : BitVec 5)
  | qpush (p : Pred) (q : BitVec 4) (l : BitVec 5)
  | qpop (p : Pred) (q : BitVec 4) (t1 t0 : Target)
  | qtry (p : Pred) (q : BitVec 4) (t1 t0 : Target)
  | qgrant (p : Pred) (q : BitVec 4) (l : BitVec 5)
  | tlwait (p : Pred) (t1 t0 : Target)
  | tlrd (p : Pred) (t1 t0 : Target)
  | wsadd (p : Pred)
  | wsval (p : Pred) (l : BitVec 5) (t0 : Target)
  | wsclr (p : Pred)
  -- class MTX (R276)
  | mres (p : Pred) (rec : BitVec 6) (gran : BitVec 8) (f : RecFmt) (k : BitVec 6)
  | mrel (p : Pred) (rec : Option (BitVec 6)) (tile : Option (BitVec 2))
  | mld (p : Pred) (src : LdSrc) (l : BitVec 5) (rec : BitVec 6) (wait : Option (BitVec 3))
  | mldKv (p : Pred) (l : BitVec 5) (rec : BitVec 6) (wait : Option (BitVec 3))
  | mzero (p : Pred) (tile : BitVec 2)
  | mma (p : Pred) (a b : BitVec 6) (tile : BitVec 2) (col n : BitVec 5)
  | mmag (p : Pred) (a b : BitVec 6) (tile : BitVec 2) (col n : BitVec 5) (rg2 : Bool)
  | mscale (p : Pred) (exp2 : Bool) (tile : BitVec 2) (col n : BitVec 5)
  | mred (p : Pred) (op : MRedOp) (tile : BitVec 2) (col n : BitVec 5) (t1 t0 : Target)
  | mst (p : Pred) (f : StFmt) (l : BitVec 5) (wait : Option (BitVec 3)) (tile : BitVec 2) (col n : BitVec 5)
  | msort (p : Pred) (asc mag : Bool) (ixt : Option (BitVec 2)) (tile : BitVec 2) (col n : BitVec 5)
  | mtopk (p : Pred) (k : BitVec 5) (mag : Bool) (ixt : Option (BitVec 2)) (tile : BitVec 2) (col n : BitVec 5) (t1 t0 : Target)
  | ascore (p : Pred) (causal : Bool) (q k : BitVec 6) (tile : BitVec 2) (col : BitVec 2)
  | amass (p : Pred) (exp2 : Bool) (l : BitVec 5) (k : BitVec 6) (wait : Option (BitVec 3)) (tile : BitVec 2) (col : BitVec 2)
  -- class ENG (R316, R363)
  | cpy (p : Pred) (sc : Scope) (l : BitVec 5) (wait : Option (BitVec 3)) (e : BitVec 2) (k : BitVec 6)
  | cpySend (p : Pred) (sc : Scope) (l : BitVec 5) (wait : Option (BitVec 3)) (e : BitVec 2) (cv : BitVec 6)
  | cpyRecv (p : Pred) (sc : Scope) (l : BitVec 5) (wait : Option (BitVec 3)) (e : BitVec 2) (cv : BitVec 6)
  | cpyt (p : Pred) (sc : Scope) (l : BitVec 5) (wait : Option (BitVec 3)) (e : BitVec 2)
  | coll (p : Pred) (sc : Scope) (l : BitVec 5) (wait : Option (BitVec 3))
  | tsend (p : Pred) (sc : Scope) (l : BitVec 5)
  | launch (p : Pred) (sc : Scope) (l : BitVec 5) (lq : BitVec 6)
  | splev (p : Pred) (sc : Scope) (l : BitVec 5) (wait : Option (BitVec 3))
  | splcmp (p : Pred) (sc : Scope) (l : BitVec 5) (wait : Option (BitVec 3))
  | spldcy (p : Pred) (sc : Scope) (l : BitVec 5) (wait : Option (BitVec 3))
  | rmaprd (p : Pred) (sc : Scope) (l : BitVec 5) (wait : Option (BitVec 3))
  | rmapwr (p : Pred) (sc : Scope) (l : BitVec 5) (wait : Option (BitVec 3))
  -- class SYS (R115)
  | trap (p : Pred) (c : BitVec 5)
  | brk (p : Pred) (c : BitVec 5)
  | assert (p : Pred) (c : BitVec 5)
  | clkrd (p : Pred) (t1 t0 : Target)
  | pmrd (p : Pred) (n : BitVec 4) (t1 t0 : Target)
  | kset (p : Pred) (a : BitVec 5) (l : BitVec 5)
  | pmcfg (p : Pred) (n : BitVec 4)
  | evqpop (p : Pred) (t1 t0 : Target)
  | evqput (p : Pred)
  | taskrel (p : Pred) (t1 t0 : Target)
  | cfgput (p : Pred) (t1 t0 : Target)
  | cfgcrcCheck (p : Pred) (t1 t0 : Target)
  | cfgcrcDiscard (p : Pred) (t1 t0 : Target)
  | cfgcrcAct (p : Pred) (t1 t0 : Target)
  | sigchk (p : Pred) (t1 t0 : Target)
  | miold (p : Pred) (wide : Bool) (t0 : Target)
  | miost (p : Pred) (wide : Bool)
  | tlbinv (p : Pred) (g : Gran) (t1 t0 : Target)
  | freeze (p : Pred)
  | drain (p : Pred)
  | halt (p : Pred)
  -- events (spec/95_what_each_step_holds.md); the numbers name which instance the step concerns
  | schedulingDecision (core : Nat)
  | configurationLoad (core : Nat)
  | switchToken (core inst idx lane : Nat)
  | threadAdmission (core inst lane : Nat)
  | tokenAccept (core elem t : Nat)
  | sinkOutput (core slot n : Nat)
  | phaseTwoPerform (core slot : Nat)
  | roundSeal (core round : Nat)
  | sealExecute (core : Nat)
  | mmagExecute (gang : Nat)
  | rarePassStart (core : Nat)
  | launchEnd (seq : Nat)
  | homeWrite (msg : Nat)
  | coalescerAgeExpiry (core tile line : Nat)
  | ownershipRequest (msg : Nat)
  | ownershipGrant (msg : Nat)
  | ownerRecall (msg : Nat)
  | lineWriteBack (msg : Nat)
  | memoryReply (req : Nat) (peer : PeerReply)
  | completionReturn (msg : Nat)
  | nrAcknowledge (msg : Nat)
  | requestTimeout (req : Nat)
  | windowFill (core wg port line : Nat)
  | leaseExpiry (core wg port line : Nat)
  | visibilityProbeAnswer (core slot port : Nat)
  | pageWalk (die n : Nat)
  | pagerToken (die n : Nat)
  | pagerFillComplete (die n : Nat)
  | pagerReplyRetry (die n : Nat)
  | pagerReplyFail (die n : Nat)
  | tlbinvComplete (n : Nat)
  | softError (u : SoftUnit) (addr : Nat) (corrected : Bool)
  | engineCommandStart (ctx : Nat)
  | engineCommandComplete (ctx : Nat)
  | collectiveMatch (group seq : Nat)
  | splcmpSwitch (die : Nat)
  | spillwayRetire (die pool : Nat)
  | launchDispatch (q : Nat)
  | gangPlacement (die : Nat)
  | taskToken (die : Nat)
  | dikewatchFire (gang : Nat)
  | clockStamp (die j stamp : Nat)
  | ualinkRequest (port : Nat) (r : PeerRequest)
  | ualinkLinkLoss (port : Nat)
  | hostWrite (off : Nat) (data : List Byte)
  | hostRead (off n : Nat)
  | xqTailWrite (v : Nat)
  | xferDescriptorStart
  | xferDescriptorComplete
  | xqRestart
  | lqPush (q : Nat) (va : Nat)
  | hostTaskToken (task : Nat)
  | parkResume (core slot : Nat)
  | parkKill (core slot : Nat)
  | parkResumeSkip (core slot : Nat)
  | freezeSquash (core : Nat)
  | squashSave (gang : Nat)
  | freezeDrain (core : Nat)
  | drainComplete (gang : Nat)
  | gangThaw (core : Nat)
  | gangSquash (core : Nat)
  | gangKill (core : Nat)
  | dvFreeze (v : Nat)
  | dsFreeze (die v : Nat)
  | dieReset (die : Nat)
  | powerOn (ok : Bool) (m0 : List Byte) (sup cc : List W32)
  | bootScrubComplete
  | mtxResume (core ctx : Nat)
  | mtxAbandon (core ctx : Nat)
  | engResume (die ctx : Nat)
  | engAbandon (die ctx : Nat)
  | ccJobWrite (core v : Nat)
  | controlJobStart (core : Nat)
  | eventJobStart (core : Nat)
  | ccImageReplace (die v : Nat)
  | ccImageInstall (die : Nat)
  | zpCommit
  | circuitChangeComplete
  | clkepochInstall (die j v : Nat)
  | attestationGo
  | quoteComplete
  | powerMeasurement (watts : Nat)
  | thermalThreshold (die celsius : Nat)
  | hswDataWrite (off : Nat) (data : List Byte)
  | hswDataRead (off n : Nat)
  | registerWrite (off n v : Nat)
  | completionTimePassed (core slot : Nat)
  | timeProbeReply (die j clock : Nat)
  | ualinkLinkUp (port : Nat)
  deriving DecidableEq, Repr

end Sys2Proof
end

