-- ==== Sys2Proof/WellFormed.lean ====
section
/-! DEFINITION. Which terms of `Instr` the encodings allow (R101 to R116, R263, R264, R276): the
checks that a field's type does not already make. Events carry no encoding and are well formed. -/

namespace Sys2Proof

/-- Width of an XI type (R107). -/
def IntTy.width : IntTy → Nat
  | .i8 | .n8 => 8
  | .i16 | .n16 => 16
  | .i32 | .n32 => 32
  | .i64 | .n64 => 64

/-- Whether an XI type is signed (R61). -/
def IntTy.signed : IntTy → Bool
  | .i8 | .i16 | .i32 | .i64 => true
  | .n8 | .n16 | .n32 | .n64 => false

/-- Whether a conversion format is an integer type (R110). -/
def NumTy.isInt : NumTy → Bool
  | .f32 | .f16 | .bf16 => false
  | _ => true

/-- An immediate of the I field lies from -192 to 255 (R101). -/
def immOk (v : Int) : Bool := -192 ≤ v && v ≤ 255

/-- A value of the I field: an immediate in range, or a constant index 0 to 62 (R101). -/
def IField.wf : IField → Bool
  | .imm v => immOk v
  | .const k => k ≤ 62

/-- The I field of a shift at width `w`: an immediate 0 to w - 1, or a constant index (R108, R155). -/
def IField.shiftWf (w : Nat) : IField → Bool
  | .imm v => 0 ≤ v && v < (w : Int)
  | .const k => k ≤ 62

/-- An even register base (R113). -/
def baseWf (b : BitVec 6) : Bool := b.toNat % 2 == 0

/-- The data of ACASV: an even base in the 16-byte form (R113). -/
def VData.wf : VData → Bool
  | .op4 | .op8 => true
  | .pair _ b => baseWf b

/-- Scopes of ACASW and ACASV: not .sys (R264). -/
def Scope.versionWf : Scope → Bool
  | .sys => false
  | _ => true

/-- Columns of a row operand stay within 256 (R276): codes col0/8 and N/8 - 1. -/
def colsWf (col n : BitVec 5) : Bool := col.toNat + (n.toNat + 1) ≤ 32

/-- An index tile differs from the instruction's tile (R276). -/
def ixtWf (ixt : Option (BitVec 2)) (tile : BitVec 2) : Bool := ixt != some tile

/-- The instruction has an encoding (R100 to R116, R276, R316). -/
def Instr.wf : Instr → Bool
  | .movi _ _ i _ => immOk i
  | .const _ _ k _ => k ≤ 62
  | .addi _ _ _ i _ => i.wf
  | .andi _ _ i _ => i.wf
  | .ori _ _ i _ => i.wf
  | .xori _ _ i _ => i.wf
  | .shli _ ty _ i _ => i.shiftWf ty.width
  | .shri _ ty i _ => i.shiftWf ty.width
  | .cmpiSigned _ _ _ i _ => i.wf
  | .cmpiUnsigned _ _ _ i _ => i.wf
  | .cvt _ src dst _ sat _ _ => (src != dst) && (!sat || (src.isInt && dst.isInt))
  | .switch _ _ k => k ≤ 62
  | .acasw sc _ b _ _ _ => sc.versionWf && baseWf b
  | .acaswNr sc _ b _ => sc.versionWf && baseWf b
  | .acasv d sc _ _ _ _ => sc.versionWf && d.wf
  | .acasvNr d sc _ _ => sc.versionWf && d.wf
  | .mrel _ rec tile => rec.isSome || tile.isSome
  | .mma _ _ _ _ col n => colsWf col n
  | .mmag _ _ _ _ col n _ => colsWf col n
  | .mscale _ _ _ col n => colsWf col n
  | .mred _ _ _ col n _ _ => colsWf col n
  | .mst _ _ _ _ _ col n => colsWf col n
  | .msort _ _ _ ixt tile col n => colsWf col n && ixtWf ixt tile
  | .mtopk _ k _ ixt tile col n _ _ =>
      colsWf col n && ixtWf ixt tile && decide (k.toNat + 1 ≤ 8 * (n.toNat + 1))
  | _ => true

end Sys2Proof
end

