-- ==== Sys2Proof/Decode.lean ====
section
/-! DEFINITION. Instruction words: the decoder and the encoder of the nine engine classes (R98 to
R115, R276, R316, R363, R422), and the reason codes of R124. A word is cut into the fields of R100
first; a class's table then reads the fields. -/

namespace Sys2Proof

/-- The reason codes of R124. -/
inductive Reason where
  | imgmagic | imgver | imglen | imghdr | keyid | sigfail | sectn | decl | privimg | privreq
  | blkmagic | blkcount | blkconst | blkflags | blklen
  | clhdr | clclass | clwait
  | opcode | xop | pred | target | input | constix | field | lsid | lvwmask | branch | blockref
  | place | route | station | edgepool | footprint | width
  | tilecrc | crcset
  deriving DecidableEq, Repr, Inhabited

/-- The code of a reason (R124). -/
def Reason.code : Reason → Nat
  | .imgmagic => 0x01 | .imgver => 0x02 | .imglen => 0x03 | .imghdr => 0x04 | .keyid => 0x05
  | .sigfail => 0x06 | .sectn => 0x07 | .decl => 0x08 | .privimg => 0x09 | .privreq => 0x0A
  | .blkmagic => 0x10 | .blkcount => 0x11 | .blkconst => 0x12 | .blkflags => 0x13 | .blklen => 0x14
  | .clhdr => 0x20 | .clclass => 0x21 | .clwait => 0x22
  | .opcode => 0x30 | .xop => 0x31 | .pred => 0x32 | .target => 0x33 | .input => 0x34
  | .constix => 0x35 | .field => 0x36 | .lsid => 0x37 | .lvwmask => 0x38 | .branch => 0x39
  | .blockref => 0x3A
  | .place => 0x40 | .route => 0x41 | .station => 0x42 | .edgepool => 0x43 | .footprint => 0x44
  | .width => 0x45
  | .tilecrc => 0x50 | .crcset => 0x51

/-- The fields of one instruction word and its extension word (R100): opcode [31:25], pr [24:23],
xop [22:18], `hi` [17:9], `lo` [8:0]; `ext` is 0 where the format has no extension. -/
structure Fields where
  cls : Cls
  op : Nat
  pr : Nat
  xop : Nat
  hi : Nat
  lo : Nat
  ext : Nat
  deriving DecidableEq, Repr

/-- The fields of word `w` in a clause of class `c`, with extension `e`. -/
def fieldsOf (c : Cls) (w e : Nat) : Fields :=
  ⟨c, bitsOf w 31 25, bitsOf w 24 23, bitsOf w 22 18, bitsOf w 17 9, bitsOf w 8 0, e⟩

/-- The instruction word with these fields. -/
def Fields.word (f : Fields) : Nat :=
  f.op * 2 ^ 25 + f.pr * 2 ^ 23 + f.xop * 2 ^ 18 + f.hi * 2 ^ 9 + f.lo

/-- The field values fit their places. -/
def Fields.inRange (f : Fields) : Bool :=
  f.op < 128 && f.pr < 4 && f.xop < 32 && f.hi < 512 && f.lo < 512 && f.ext < 2 ^ 32

/-- Whether an opcode of a class has format X (R100, R114, R115, R268, R269). -/
def isX : Cls → Nat → Bool
  | .mtx, _ | .eng, _ => true
  | .mem, op => op == 0x04
  | .sync, op => op == 0x09 || op == 0x0A || op == 0x19 || op == 0x1A
  | .sys, op => op == 0x44 || op == 0x45 || op == 0x46
  | _, _ => false

/-- The class codes of R98. -/
def Cls.code : Cls → Nat
  | .alu => 0 | .fpu => 1 | .mem => 2 | .mtx => 3 | .cvt => 4 | .flow => 5 | .sync => 6
  | .eng => 7 | .sys => 8

/-- The class of a clause header's code (R98). -/
def clsOf : Nat → Except Reason Cls
  | 0 => .ok .alu | 1 => .ok .fpu | 2 => .ok .mem | 3 => .ok .mtx | 4 => .ok .cvt | 5 => .ok .flow
  | 6 => .ok .sync | 7 => .ok .eng | 8 => .ok .sys | _ => .error .clclass

/-- A check of the loader. -/
def need (c : Bool) (r : Reason) : Except Reason Unit := if c then .ok () else .error r

/-! Field codes (R65, R101, R104, R107 to R113, R276). -/

def Pred.code : Pred → Nat
  | .always => 0 | .pt => 2 | .pf => 3

def predOf : Nat → Except Reason Pred
  | 0 => .ok .always | 2 => .ok .pt | 3 => .ok .pf | _ => .error .pred

def IntTy.code : IntTy → Nat
  | .i8 => 0 | .i16 => 1 | .i32 => 2 | .i64 => 3 | .n8 => 4 | .n16 => 5 | .n32 => 6 | .n64 => 7

def intTyOf : Nat → Except Reason IntTy
  | 0 => .ok .i8 | 1 => .ok .i16 | 2 => .ok .i32 | 3 => .ok .i64 | 4 => .ok .n8 | 5 => .ok .n16 | 6 => .ok .n32 | 7 => .ok .n64 | _ => .error .xop

def SIntTy.code : SIntTy → Nat
  | .i8 => 0 | .i16 => 1 | .i32 => 2 | .i64 => 3

def sIntTyOf : Nat → Except Reason SIntTy
  | 0 => .ok .i8 | 1 => .ok .i16 | 2 => .ok .i32 | 3 => .ok .i64 | _ => .error .xop

def BitTy.code : BitTy → Nat
  | .b32 => 2 | .b64 => 3

def bitTyOf : Nat → Except Reason BitTy
  | 2 => .ok .b32 | 3 => .ok .b64 | _ => .error .xop

def IxTy.code : IxTy → Nat
  | .i32 => 0 | .n32 => 1 | .i64 => 2

def ixTyOf : Nat → Except Reason IxTy
  | 0 => .ok .i32 | 1 => .ok .n32 | 2 => .ok .i64 | _ => .error .xop

def Cond.code : Cond → Nat
  | .eq => 0 | .ne => 1 | .lt => 2 | .le => 3 | .gt => 4 | .ge => 5

def condOf : Nat → Except Reason Cond
  | 0 => .ok .eq | 1 => .ok .ne | 2 => .ok .lt | 3 => .ok .le | 4 => .ok .gt | 5 => .ok .ge | _ => .error .xop

def CWidth.code : CWidth → Nat
  | .w8 => 0 | .w16 => 1 | .w32 => 2 | .w64 => 3

def cWidthOf : Nat → Except Reason CWidth
  | 0 => .ok .w8 | 1 => .ok .w16 | 2 => .ok .w32 | 3 => .ok .w64 | _ => .error .xop

def SReg.code : SReg → Nat
  | .tid => 0 | .wgid => 1 | .gid => 2 | .role => 3 | .lane => 4 | .width => 5 | .round => 6 | .wgsz => 7 | .ggsz => 8 | .core => 9 | .die => 10 | .launch => 11 | .tenant => 12

def sRegOf : Nat → Except Reason SReg
  | 0 => .ok .tid | 1 => .ok .wgid | 2 => .ok .gid | 3 => .ok .role | 4 => .ok .lane | 5 => .ok .width | 6 => .ok .round | 7 => .ok .wgsz | 8 => .ok .ggsz | 9 => .ok .core | 10 => .ok .die | 11 => .ok .launch | 12 => .ok .tenant | _ => .error .xop

def ShufMode.code : ShufMode → Nat
  | .idx => 0 | .up => 1 | .down => 2 | .xor => 3

def shufModeOf : Nat → Except Reason ShufMode
  | 0 => .ok .idx | 1 => .ok .up | 2 => .ok .down | 3 => .ok .xor | _ => .error .xop

def Vote.code : Vote → Nat
  | .all => 0 | .any => 1 | .cnt => 2

def voteOf : Nat → Except Reason Vote
  | 0 => .ok .all | 1 => .ok .any | 2 => .ok .cnt | _ => .error .xop

def RTy.code : RTy → Nat
  | .i32 => 0 | .n32 => 1 | .i64 => 2 | .n64 => 3

def rTyOf : Nat → Except Reason RTy
  | 0 => .ok .i32 | 1 => .ok .n32 | 2 => .ok .i64 | 3 => .ok .n64 | _ => .error .xop

def Rnd.code : Rnd → Nat
  | .rne => 0 | .rtz => 1 | .rup => 2 | .rdn => 3

def rndOf : Nat → Except Reason Rnd
  | 0 => .ok .rne | 1 => .ok .rtz | 2 => .ok .rup | 3 => .ok .rdn | _ => .error .xop

def LMod.code : LMod → Nat
  | .none => 0 | .negl => 1 | .absl => 2 | .nabsl => 3

def lModOf : Nat → Except Reason LMod
  | 0 => .ok .none | 1 => .ok .negl | 2 => .ok .absl | 3 => .ok .nabsl | _ => .error .xop

def FCond.code : FCond → Nat
  | .eq => 0 | .ne => 1 | .lt => 2 | .le => 3 | .gt => 4 | .ge => 5 | .un => 6 | .ord => 7

def fCondOf : Nat → Except Reason FCond
  | 0 => .ok .eq | 1 => .ok .ne | 2 => .ok .lt | 3 => .ok .le | 4 => .ok .gt | 5 => .ok .ge | 6 => .ok .un | 7 => .ok .ord | _ => .error .xop

def NumTy.code : NumTy → Nat
  | .i8 => 0 | .i16 => 1 | .i32 => 2 | .i64 => 3 | .n8 => 4 | .n16 => 5 | .n32 => 6 | .n64 => 7 | .f32 => 8 | .f16 => 9 | .bf16 => 10

def numTyOf : Nat → Except Reason NumTy
  | 0 => .ok .i8 | 1 => .ok .i16 | 2 => .ok .i32 | 3 => .ok .i64 | 4 => .ok .n8 | 5 => .ok .n16 | 6 => .ok .n32 | 7 => .ok .n64 | 8 => .ok .f32 | 9 => .ok .f16 | 10 => .ok .bf16 | _ => .error .opcode

def SFmt.code : SFmt → Nat
  | .f32 => 0 | .f16 => 1 | .bf16 => 2

def sFmtOf : Nat → Except Reason SFmt
  | 0 => .ok .f32 | 1 => .ok .f16 | 2 => .ok .bf16 | _ => .error .xop

def LogFmt.code : LogFmt → Nat
  | .l6 => 0 | .l8 => 1

def logFmtOf : Nat → Except Reason LogFmt
  | 0 => .ok .l6 | 1 => .ok .l8 | _ => .error .xop

def BlkLen.code : BlkLen → Nat
  | .k16 => 0 | .k32 => 1 | .k64 => 2

def blkLenOf : Nat → Except Reason BlkLen
  | 0 => .ok .k16 | 1 => .ok .k32 | 2 => .ok .k64 | _ => .error .xop

def Size.code : Size → Nat
  | .s1 => 0 | .s2 => 1 | .s4 => 2 | .s8 => 3

def sizeOf : Nat → Except Reason Size
  | 0 => .ok .s1 | 1 => .ok .s2 | 2 => .ok .s4 | 3 => .ok .s8 | _ => .error .xop

def Scope.code : Scope → Nat
  | .th => 0 | .wg => 1 | .gg => 2 | .die => 3 | .dev => 4 | .sys => 5

def scopeOf : Nat → Except Reason Scope
  | 0 => .ok .th | 1 => .ok .wg | 2 => .ok .gg | 3 => .ok .die | 4 => .ok .dev | 5 => .ok .sys | _ => .error .xop

def AIntTy.code : AIntTy → Nat
  | .i32 => 0 | .i64 => 1 | .n32 => 2 | .n64 => 3

def aIntTyOf : Nat → Except Reason AIntTy
  | 0 => .ok .i32 | 1 => .ok .i64 | 2 => .ok .n32 | 3 => .ok .n64 | _ => .error .xop

def AFltTy.code : AFltTy → Nat
  | .f32 => 0 | .f16x2 => 1 | .bf16x2 => 2

def aFltTyOf : Nat → Except Reason AFltTy
  | 0 => .ok .f32 | 1 => .ok .f16x2 | 2 => .ok .bf16x2 | _ => .error .xop

def FenceKind.code : FenceKind → Nat
  | .acq => 0 | .rel => 1 | .ar => 2

def fenceKindOf : Nat → Except Reason FenceKind
  | 0 => .ok .acq | 1 => .ok .rel | 2 => .ok .ar | _ => .error .xop

def LdSrc.code : LdSrc → Nat
  | .raw => 0 | .f32 => 1 | .f16 => 2 | .bf16 => 3

def ldSrcOf : Nat → Except Reason LdSrc
  | 0 => .ok .raw | 1 => .ok .f32 | 2 => .ok .f16 | 3 => .ok .bf16 | _ => .error .xop

def MRedOp.code : MRedOp → Nat
  | .fadd => 0 | .fmax => 1 | .fmin => 2

def mRedOpOf : Nat → Except Reason MRedOp
  | 0 => .ok .fadd | 1 => .ok .fmax | 2 => .ok .fmin | _ => .error .xop

def Gran.code : Gran → Nat
  | .g64k => 0 | .g2m => 1 | .g512m => 2 | .g32g => 3

def granOf : Nat → Except Reason Gran
  | 0 => .ok .g64k | 1 => .ok .g2m | 2 => .ok .g512m | 3 => .ok .g32g | _ => .error .xop

def Field.code : Field → Nat
  | .L => 1 | .R => 2 | .P => 3

def fieldOf : Nat → Except Reason Field
  | 1 => .ok .L | 2 => .ok .R | 3 => .ok .P | _ => .error .target

/-- The number of a type of the bitwise atomics (R113): 0 .b32, 1 .b64. -/
def BitTy.acode : BitTy → Nat
  | .b32 => 0 | .b64 => 1

def aBitTyOf : Nat → Except Reason BitTy
  | 0 => .ok .b32 | 1 => .ok .b64 | _ => .error .xop

/-- A flag as a bit. -/
def bit (b : Bool) : Nat := if b then 1 else 0

/-- Bit `k` of a field as a flag. -/
def flag (n k : Nat) : Bool := n / 2 ^ k % 2 == 1

/-- Target bits (R102). -/
def Target.code : Target → Nat
  | .none => 0
  | .to f i => f.code * 128 + i.toNat

/-- A target: field 00 with a nonzero index is refused (R102). -/
def targetOf (n : Nat) : Except Reason Target :=
  if n = 0 then .ok .none
  else do
    let f ← fieldOf (n / 128)
    return .to f (BitVec.ofNat 7 (n % 128))

/-- The I field (R101). -/
def IField.code : IField → Nat
  | .imm v => wrapTo v 9
  | .const k => 256 + k

def ifieldOf (n : Nat) : Except Reason IField :=
  if n < 256 then .ok (.imm n)
  else if n < 319 then .ok (.const (n - 256))
  else if n < 320 then .error .constix
  else .ok (.imm ((n : Int) - 512))

/-- An immediate shift count outside the width is refused with XOP (R108, R155). -/
def shiftFieldOf (w n : Nat) : Except Reason IField := do
  let i ← ifieldOf n
  need (i.shiftWf w) .xop
  return i

/-- MOVI takes only immediates (R101). -/
def immOf (n : Nat) : Except Reason Int := do
  match ← ifieldOf n with
  | .imm v => .ok v
  | .const _ => .error .constix

/-- CONST and SWITCH take only constant indices (R101). -/
def constOf (n : Nat) : Except Reason Nat := do
  match ← ifieldOf n with
  | .imm _ => .error .constix
  | .const k => .ok k

/-! Layouts of the xop field (R107). -/

/-- XI: type [4:2], .sat [1], zero [0]. -/
def xiCode (ty : IntTy) (sat : Bool) : Nat := ty.code * 4 + bit sat * 2

def xiOf (x : Nat) : Except Reason (IntTy × Bool) := do
  need (x % 2 == 0) .xop
  let ty ← intTyOf (x / 4)
  return (ty, flag x 1)

/-- XI where .sat rejects. -/
def xinOf (x : Nat) : Except Reason IntTy := do
  need (x % 4 == 0) .xop
  intTyOf (x / 4)

/-- XI of ABS and NEG: .n types reject (R108). -/
def xisOf (x : Nat) : Except Reason (SIntTy × Bool) := do
  need (x % 2 == 0) .xop
  let ty ← sIntTyOf (x / 4)
  return (ty, flag x 1)

/-- XB. -/
def xbOf (x : Nat) : Except Reason BitTy := do
  need (x % 4 == 0) .xop
  bitTyOf (x / 4)

/-- XC. -/
def xcOf (x : Nat) : Except Reason (Cond × CWidth) := do
  let c ← condOf (x / 4)
  let w ← cWidthOf (x % 4)
  return (c, w)

/-- XF. -/
def xfCode (r : Rnd) (lm : LMod) (ng : Bool) : Nat := r.code * 8 + lm.code * 2 + bit ng

def xfOf (x : Nat) : Except Reason (Rnd × LMod × Bool) := do
  let r ← rndOf (x / 8)
  let lm ← lModOf (x / 2 % 4)
  return (r, lm, flag x 0)

/-- XF of a one-input operation: [0] zero. -/
def xf1Of (x : Nat) : Except Reason (Rnd × LMod) := do
  need (x % 2 == 0) .xop
  let r ← rndOf (x / 8)
  let lm ← lModOf (x / 2 % 4)
  return (r, lm)

/-- XQ. -/
def xqOf (x : Nat) : Except Reason (BitVec 4) := do
  need (x < 16) .xop
  return BitVec.ofNat 4 x

/-- The reduction layout (R108). -/
def Red.code : Red → Nat
  | .add t => t.code
  | .min t => 4 + t.code
  | .max t => 8 + t.code
  | .and t => 12 + t.acode * 2
  | .or t => 16 + t.acode * 2
  | .xor t => 20 + t.acode * 2
  | .fadd => 24
  | .fmax => 28

def redBitTyOf (x : Nat) : Except Reason BitTy := do
  need (x % 2 == 0) .xop
  aBitTyOf (x % 4 / 2)

def redOf (x : Nat) : Except Reason Red :=
  match x / 4 with
  | 0 => do return .add (← rTyOf (x % 4))
  | 1 => do return .min (← rTyOf (x % 4))
  | 2 => do return .max (← rTyOf (x % 4))
  | 3 => do return .and (← redBitTyOf x)
  | 4 => do return .or (← redBitTyOf x)
  | 5 => do return .xor (← redBitTyOf x)
  | 6 => do
    need (x % 4 == 0) .xop
    return .fadd
  | 7 => do
    need (x % 4 == 0) .xop
    return .fmax
  | _ => .error .xop

/-- Format M: LSID [17:13], offset [12:9]. -/
def mCode (l : BitVec 5) (off : BitVec 4) : Nat := l.toNat * 16 + off.toNat

def mLsid (hi : Nat) : BitVec 5 := BitVec.ofNat 5 (hi / 16)

def mOff (hi : Nat) : BitVec 4 := BitVec.ofNat 4 (hi % 16)

/-- Format M of an instruction without an offset (R251). -/
def mOnly (hi : Nat) : Except Reason (BitVec 5) := do
  need (hi % 16 == 0) .field
  return mLsid hi

/-- Format L: register [17:12], [11:9] zero. -/
def lReg (hi : Nat) : Except Reason (BitVec 6) := do
  need (hi % 8 == 0) .field
  return BitVec.ofNat 6 (hi / 8)

/-- A block number of BR, CALL, YIELD and XPATH: [17:0] (R111). -/
def blkOf (f : Fields) : BitVec 18 := BitVec.ofNat 18 (f.hi * 512 + f.lo)

/-- No target: a nonzero [8:0] is refused. -/
def noT0 (f : Fields) : Except Reason Unit := need (f.lo == 0) .target

/-- No targets. -/
def noT (f : Fields) : Except Reason Unit := need (f.hi == 0 && f.lo == 0) .target

/-- The three-operand forms: pr 01 (R104). -/
def pr01 (f : Fields) : Except Reason Unit := need (f.pr == 1) .pred

/-- A wait field: the bit at `k`, the slot below it (R276, R316). -/
def waitCode (wt : Option (BitVec 3)) (k : Nat) : Nat :=
  match wt with
  | none => 0
  | some v => 2 ^ k + v.toNat * 2 ^ (k - 3)

def waitOf (e k : Nat) : Option (BitVec 3) :=
  if flag e k then some (BitVec.ofNat 3 (e / 2 ^ (k - 3))) else none

/-- An index tile: present [23], tile [22:21] (R276). -/
def ixtCode (t : Option (BitVec 2)) : Nat :=
  match t with
  | none => 0
  | some v => 2 ^ 23 + v.toNat * 2 ^ 21

def ixtOf (e : Nat) : Option (BitVec 2) :=
  if flag e 23 then some (BitVec.ofNat 2 (e / 2 ^ 21)) else none

/-- Bits [hi:lo] of the extension as a vector. -/
def extBits (e lo w : Nat) : BitVec w := BitVec.ofNat w (e / 2 ^ lo)

/-- Bits [hi:lo] of the extension are zero, else FIELD (R100). -/
def extZero (e hi lo : Nat) : Except Reason Unit := need (bitsOf e hi lo == 0) .field

/-- Format and block length of MRES (R227, R276): [12:9] and [8:7]. -/
def RecFmt.code : RecFmt → Nat
  | .bf16 => 3
  | .fp16 => 4 + 3
  | .l6 b => 8 + b.code
  | .l8 b => 12 + b.code

def recFmtOf (e : Nat) : Except Reason RecFmt :=
  match bitsOf e 12 9, bitsOf e 8 7 with
  | 0, 3 => .ok .bf16
  | 1, 3 => .ok .fp16
  | 2, 0 => .ok (.l6 .k16) | 2, 1 => .ok (.l6 .k32) | 2, 2 => .ok (.l6 .k64)
  | 3, 0 => .ok (.l8 .k16) | 3, 1 => .ok (.l8 .k32) | 3, 2 => .ok (.l8 .k64)
  | _, _ => .error .field

/-- MST: [4] .ob and [3:2] format (R276). -/
def StFmt.code : StFmt → Nat
  | .f32 => 0 | .f16 => 4 | .bf16 => 8 | .ob16 _ => 20 | .obbf _ => 24

def StFmt.recNum : StFmt → Nat
  | .ob16 r | .obbf r => r.toNat
  | _ => 0

/-! ACASV data, the source of CVT and the format of MST. -/

/-- pr of ACASV (R113). -/
def VData.pr : VData → Nat
  | .op4 | .op8 => 1
  | .pair p _ => p.code

/-- Size code of ACASV (R113). -/
def VData.code : VData → Nat
  | .op4 => 0 | .op8 => 1 | .pair _ _ => 2

/-- Register base field of ACASV (R113). -/
def VData.base : VData → Nat
  | .op4 | .op8 => 0
  | .pair _ b => b.toNat

/-- ACASV of 4 or 8 bytes needs pr 01 and base zero; of 16 bytes a predicate and an even base. -/
def vdataOf (f : Fields) : Except Reason VData :=
  match f.xop / 8 with
  | 0 => do
    pr01 f
    extZero f.ext 26 21
    return .op4
  | 1 => do
    pr01 f
    extZero f.ext 26 21
    return .op8
  | 2 => do
    let p ← predOf f.pr
    need (baseWf (extBits f.ext 21 6)) .field
    return .pair p (extBits f.ext 21 6)
  | _ => .error .xop

/-- MST: .ob with .f32, and format 11, are refused (R276). -/
def stFmtOf (f : Fields) : Except Reason StFmt :=
  match f.xop / 4 with
  | 0 => .ok .f32
  | 1 => .ok .f16
  | 2 => .ok .bf16
  | 5 => .ok (.ob16 (extBits f.ext 21 6))
  | 6 => .ok (.obbf (extBits f.ext 21 6))
  | _ => .error .xop

/-- The opcode group of a format (R109). -/
def FFmt.base : FFmt → Nat
  | .f32 => 0x00 | .f16 => 0x20 | .bf16 => 0x40 | .f16x2 => 0x60 | .bf16x2 => 0x70

def SFmt.base : SFmt → Nat
  | .f32 => 0x00 | .f16 => 0x20 | .bf16 => 0x40

/-- The fields of an instruction; none for an event (R107 to R116). -/
def encodeFields : Instr → Option Fields
  | .add p ty sat t1 t0 => some ⟨.alu, 0x0, p.code, xiCode ty sat, t1.code, t0.code, 0⟩
  | .sub p ty sat t1 t0 => some ⟨.alu, 0x1, p.code, xiCode ty sat, t1.code, t0.code, 0⟩
  | .mul p ty sat t1 t0 => some ⟨.alu, 0x2, p.code, xiCode ty sat, t1.code, t0.code, 0⟩
  | .mulh p ty t1 t0 => some ⟨.alu, 0x3, p.code, ty.code * 4, t1.code, t0.code, 0⟩
  | .div p ty sat t1 t0 => some ⟨.alu, 0x4, p.code, xiCode ty sat, t1.code, t0.code, 0⟩
  | .rem p ty t1 t0 => some ⟨.alu, 0x5, p.code, ty.code * 4, t1.code, t0.code, 0⟩
  | .min p ty t1 t0 => some ⟨.alu, 0x6, p.code, ty.code * 4, t1.code, t0.code, 0⟩
  | .max p ty t1 t0 => some ⟨.alu, 0x7, p.code, ty.code * 4, t1.code, t0.code, 0⟩
  | .abs p ty sat t1 t0 => some ⟨.alu, 0x8, p.code, ty.code * 4 + bit sat * 2, t1.code, t0.code, 0⟩
  | .neg p ty sat t1 t0 => some ⟨.alu, 0x9, p.code, ty.code * 4 + bit sat * 2, t1.code, t0.code, 0⟩
  | .and p ty t1 t0 => some ⟨.alu, 0xa, p.code, ty.code * 4, t1.code, t0.code, 0⟩
  | .or p ty t1 t0 => some ⟨.alu, 0xb, p.code, ty.code * 4, t1.code, t0.code, 0⟩
  | .xor p ty t1 t0 => some ⟨.alu, 0xc, p.code, ty.code * 4, t1.code, t0.code, 0⟩
  | .andn p ty t1 t0 => some ⟨.alu, 0xd, p.code, ty.code * 4, t1.code, t0.code, 0⟩
  | .shl p ty sat t1 t0 => some ⟨.alu, 0xe, p.code, xiCode ty sat, t1.code, t0.code, 0⟩
  | .shr p ty t1 t0 => some ⟨.alu, 0xf, p.code, ty.code * 4, t1.code, t0.code, 0⟩
  | .rot p ty t1 t0 => some ⟨.alu, 0x10, p.code, ty.code * 4, t1.code, t0.code, 0⟩
  | .bfx p ty t1 t0 => some ⟨.alu, 0x11, p.code, ty.code * 4, t1.code, t0.code, 0⟩
  | .bfi ty t1 t0 => some ⟨.alu, 0x12, 1, ty.code * 4, t1.code, t0.code, 0⟩
  | .popc p ty t1 t0 => some ⟨.alu, 0x13, p.code, ty.code * 4, t1.code, t0.code, 0⟩
  | .clz p ty t1 t0 => some ⟨.alu, 0x14, p.code, ty.code * 4, t1.code, t0.code, 0⟩
  | .ctz p ty t1 t0 => some ⟨.alu, 0x15, p.code, ty.code * 4, t1.code, t0.code, 0⟩
  | .brev p ty t1 t0 => some ⟨.alu, 0x16, p.code, ty.code * 4, t1.code, t0.code, 0⟩
  | .lea p sh ix t1 t0 => some ⟨.alu, 0x17, p.code, sh.toNat * 4 + ix.code, t1.code, t0.code, 0⟩
  | .sel ty t1 t0 => some ⟨.alu, 0x18, 1, ty.code * 4, t1.code, t0.code, 0⟩
  | .cmpSigned p c w t1 t0 => some ⟨.alu, 0x19, p.code, c.code * 4 + w.code, t1.code, t0.code, 0⟩
  | .cmpUnsigned p c w t1 t0 => some ⟨.alu, 0x1a, p.code, c.code * 4 + w.code, t1.code, t0.code, 0⟩
  | .pand p t1 t0 => some ⟨.alu, 0x1b, p.code, 0, t1.code, t0.code, 0⟩
  | .por p t1 t0 => some ⟨.alu, 0x1c, p.code, 0, t1.code, t0.code, 0⟩
  | .pxor p t1 t0 => some ⟨.alu, 0x1d, p.code, 0, t1.code, t0.code, 0⟩
  | .pnot p t1 t0 => some ⟨.alu, 0x1e, p.code, 0, t1.code, t0.code, 0⟩
  | .mov p t1 t0 => some ⟨.alu, 0x1f, p.code, 0, t1.code, t0.code, 0⟩
  | .movi p ty imm t0 => some ⟨.alu, 0x20, p.code, ty.code * 4, wrapTo imm 9, t0.code, 0⟩
  | .const p ty k t0 => some ⟨.alu, 0x21, p.code, ty.code * 4, 256 + k, t0.code, 0⟩
  | .addi p ty sat i t0 => some ⟨.alu, 0x22, p.code, xiCode ty sat, i.code, t0.code, 0⟩
  | .andi p ty i t0 => some ⟨.alu, 0x23, p.code, ty.code * 4, i.code, t0.code, 0⟩
  | .ori p ty i t0 => some ⟨.alu, 0x24, p.code, ty.code * 4, i.code, t0.code, 0⟩
  | .xori p ty i t0 => some ⟨.alu, 0x25, p.code, ty.code * 4, i.code, t0.code, 0⟩
  | .shli p ty sat i t0 => some ⟨.alu, 0x26, p.code, xiCode ty sat, i.code, t0.code, 0⟩
  | .shri p ty i t0 => some ⟨.alu, 0x27, p.code, ty.code * 4, i.code, t0.code, 0⟩
  | .cmpiSigned p c w i t0 => some ⟨.alu, 0x28, p.code, c.code * 4 + w.code, i.code, t0.code, 0⟩
  | .cmpiUnsigned p c w i t0 => some ⟨.alu, 0x29, p.code, c.code * 4 + w.code, i.code, t0.code, 0⟩
  | .lvr p v t0 => some ⟨.alu, 0x30, p.code, 0, v.toNat * 8, t0.code, 0⟩
  | .lvw p v => some ⟨.alu, 0x31, p.code, 0, v.toNat * 8, 0, 0⟩
  | .srd p r t1 t0 => some ⟨.alu, 0x32, p.code, r.code, t1.code, t0.code, 0⟩
  | .xshuf p m t1 t0 => some ⟨.alu, 0x38, p.code, m.code * 8, t1.code, t0.code, 0⟩
  | .xbcast p t1 t0 => some ⟨.alu, 0x39, p.code, 0, t1.code, t0.code, 0⟩
  | .rred p op t1 t0 => some ⟨.alu, 0x3a, p.code, op.code, t1.code, t0.code, 0⟩
  | .rscanInclusive p op t1 t0 => some ⟨.alu, 0x3b, p.code, op.code, t1.code, t0.code, 0⟩
  | .rscanExclusive p op t1 t0 => some ⟨.alu, 0x3c, p.code, op.code, t1.code, t0.code, 0⟩
  | .rvote p m t1 t0 => some ⟨.alu, 0x3d, p.code, m.code * 8, t1.code, t0.code, 0⟩
  | .fadd p f r lm ng t1 t0 => some ⟨.fpu, f.base + 0, p.code, xfCode r lm ng, t1.code, t0.code, 0⟩
  | .fsub p f r lm ng t1 t0 => some ⟨.fpu, f.base + 1, p.code, xfCode r lm ng, t1.code, t0.code, 0⟩
  | .fmul p f r lm ng t1 t0 => some ⟨.fpu, f.base + 2, p.code, xfCode r lm ng, t1.code, t0.code, 0⟩
  | .ffma f r lm ng t1 t0 => some ⟨.fpu, f.base + 3, 1, xfCode r lm ng, t1.code, t0.code, 0⟩
  | .fmin p f r lm ng t1 t0 => some ⟨.fpu, f.base + 4, p.code, xfCode r lm ng, t1.code, t0.code, 0⟩
  | .fmax p f r lm ng t1 t0 => some ⟨.fpu, f.base + 5, p.code, xfCode r lm ng, t1.code, t0.code, 0⟩
  | .fcmp p f c t1 t0 => some ⟨.fpu, f.base + 6, p.code, c.code * 4, t1.code, t0.code, 0⟩
  | .fdiv p f r lm ng t1 t0 => some ⟨.fpu, f.base + 7, p.code, xfCode r lm ng, t1.code, t0.code, 0⟩
  | .fsqrt p f r lm t1 t0 => some ⟨.fpu, f.base + 8, p.code, r.code * 8 + lm.code * 2, t1.code, t0.code, 0⟩
  | .frcp p f r lm t1 t0 => some ⟨.fpu, f.base + 9, p.code, r.code * 8 + lm.code * 2, t1.code, t0.code, 0⟩
  | .frsq p f r lm t1 t0 => some ⟨.fpu, f.base + 10, p.code, r.code * 8 + lm.code * 2, t1.code, t0.code, 0⟩
  | .fexp2 p f r lm t1 t0 => some ⟨.fpu, f.base + 11, p.code, r.code * 8 + lm.code * 2, t1.code, t0.code, 0⟩
  | .flog2 p f r lm t1 t0 => some ⟨.fpu, f.base + 12, p.code, r.code * 8 + lm.code * 2, t1.code, t0.code, 0⟩
  | .fsinp p f r lm t1 t0 => some ⟨.fpu, f.base + 13, p.code, r.code * 8 + lm.code * 2, t1.code, t0.code, 0⟩
  | .fcosp p f r lm t1 t0 => some ⟨.fpu, f.base + 14, p.code, r.code * 8 + lm.code * 2, t1.code, t0.code, 0⟩
  | .frnd p f r lm t1 t0 => some ⟨.fpu, f.base + 15, p.code, r.code * 8 + lm.code * 2, t1.code, t0.code, 0⟩
  | .fclass p f t1 t0 => some ⟨.fpu, f.base + 16, p.code, 0, t1.code, t0.code, 0⟩
  | .cvt p src dst r sat t1 t0 => some ⟨.cvt, src.code * 11 + dst.code, p.code, r.code * 8 + bit sat * 4, t1.code, t0.code, 0⟩
  | .cvtbToLog p src lf len t1 t0 => some ⟨.cvt, 0x79, p.code, src.code * 8 + lf.code * 4 + len.code, t1.code, t0.code, 0⟩
  | .cvtbToF32 p r lf len t1 t0 => some ⟨.cvt, 0x7a, p.code, r.code * 8 + lf.code * 4 + len.code, t1.code, t0.code, 0⟩
  | .cvtp p r bf t1 t0 => some ⟨.cvt, 0x7b, p.code, r.code * 8 + bit bf * 4, t1.code, t0.code, 0⟩
  | .br p b => some ⟨.flow, 0x0, p.code, 0, b.toNat / 512, b.toNat % 512, 0⟩
  | .bri p => some ⟨.flow, 0x1, p.code, 0, 0, 0, 0⟩
  | .call p b => some ⟨.flow, 0x2, p.code, 0, b.toNat / 512, b.toNat % 512, 0⟩
  | .ret p => some ⟨.flow, 0x3, p.code, 0, 0, 0, 0⟩
  | .exit p => some ⟨.flow, 0x4, p.code, 0, 0, 0, 0⟩
  | .switch p n k => some ⟨.flow, 0x5, p.code, n.toNat, 256 + k, 0, 0⟩
  | .nullLsid p l => some ⟨.flow, 0x6, p.code, 0, l.toNat * 16, 0, 0⟩
  | .nullRegister p v => some ⟨.flow, 0x6, p.code, 1, v.toNat * 8, 0, 0⟩
  | .yield p b => some ⟨.flow, 0x7, p.code, 0, b.toNat / 512, b.toNat % 512, 0⟩
  | .xpath p b => some ⟨.flow, 0x8, p.code, 0, b.toNat / 512, b.toNat % 512, 0⟩
  | .nop p => some ⟨.flow, 0x9, p.code, 0, 0, 0, 0⟩
  | .ld p z sx ua l off t0 => some ⟨.mem, 0x0, p.code, z.code * 8 + bit sx * 4 + bit ua * 2, mCode l off, t0.code, 0⟩
  | .lda p z sc l off t0 => some ⟨.mem, 0x1, p.code, z.code * 8 + sc.code, mCode l off, t0.code, 0⟩
  | .st p z ua l off => some ⟨.mem, 0x2, p.code, z.code * 8 + bit ua * 2, mCode l off, 0, 0⟩
  | .stl p z sc l off => some ⟨.mem, 0x3, p.code, z.code * 8 + sc.code, mCode l off, 0, 0⟩
  | .ldv p z w l off t1 t0 => some ⟨.mem, 0x4, p.code, z.code * 8 + bit w * 4, t1.code, t0.code, l.toNat * 2 ^ 27 + off.toNat * 2 ^ 16⟩
  | .prf p => some ⟨.mem, 0x5, p.code, 0, 0, 0, 0⟩
  | .sput p q l => some ⟨.mem, 0x6, p.code, q.toNat, l.toNat * 16, 0, 0⟩
  | .sget p q t1 t0 => some ⟨.mem, 0x7, p.code, q.toNat, t1.code, t0.code, 0⟩
  | .smark p q l => some ⟨.mem, 0x8, p.code, q.toNat, l.toNat * 16, 0, 0⟩
  | .rld p z sys l off t0 => some ⟨.mem, 0x9, p.code, z.code * 8 + bit sys * 5, mCode l off, t0.code, 0⟩
  | .rst p z sys l off => some ⟨.mem, 0xa, p.code, z.code * 8 + bit sys * 5, mCode l off, 0, 0⟩
  | .isect p wide t1 t0 => some ⟨.mem, 0x10, p.code, bit wide, t1.code, t0.code, 0⟩
  | .union p wide t1 t0 => some ⟨.mem, 0x11, p.code, bit wide, t1.code, t0.code, 0⟩
  | .compact p wide t1 t0 => some ⟨.mem, 0x12, p.code, bit wide, t1.code, t0.code, 0⟩
  | .expand p wide t1 t0 => some ⟨.mem, 0x13, p.code, bit wide, t1.code, t0.code, 0⟩
  | .aadd p ty sc l off t0 => some ⟨.sync, 0x0, p.code, ty.code * 8 + sc.code, mCode l off, t0.code, 0⟩
  | .aaddNr p ty sc l off => some ⟨.sync, 0x10, p.code, ty.code * 8 + sc.code, mCode l off, 0, 0⟩
  | .afadd p ty sc l off t0 => some ⟨.sync, 0x1, p.code, ty.code * 8 + sc.code, mCode l off, t0.code, 0⟩
  | .afaddNr p ty sc l off => some ⟨.sync, 0x11, p.code, ty.code * 8 + sc.code, mCode l off, 0, 0⟩
  | .amin p ty sc l off t0 => some ⟨.sync, 0x2, p.code, ty.code * 8 + sc.code, mCode l off, t0.code, 0⟩
  | .aminNr p ty sc l off => some ⟨.sync, 0x12, p.code, ty.code * 8 + sc.code, mCode l off, 0, 0⟩
  | .amax p ty sc l off t0 => some ⟨.sync, 0x3, p.code, ty.code * 8 + sc.code, mCode l off, t0.code, 0⟩
  | .amaxNr p ty sc l off => some ⟨.sync, 0x13, p.code, ty.code * 8 + sc.code, mCode l off, 0, 0⟩
  | .aand p ty sc l off t0 => some ⟨.sync, 0x4, p.code, ty.acode * 8 + sc.code, mCode l off, t0.code, 0⟩
  | .aandNr p ty sc l off => some ⟨.sync, 0x14, p.code, ty.acode * 8 + sc.code, mCode l off, 0, 0⟩
  | .aor p ty sc l off t0 => some ⟨.sync, 0x5, p.code, ty.acode * 8 + sc.code, mCode l off, t0.code, 0⟩
  | .aorNr p ty sc l off => some ⟨.sync, 0x15, p.code, ty.acode * 8 + sc.code, mCode l off, 0, 0⟩
  | .axor p ty sc l off t0 => some ⟨.sync, 0x6, p.code, ty.acode * 8 + sc.code, mCode l off, t0.code, 0⟩
  | .axorNr p ty sc l off => some ⟨.sync, 0x16, p.code, ty.acode * 8 + sc.code, mCode l off, 0, 0⟩
  | .axchg p ty sc l off t0 => some ⟨.sync, 0x7, p.code, ty.acode * 8 + sc.code, mCode l off, t0.code, 0⟩
  | .axchgNr p ty sc l off => some ⟨.sync, 0x17, p.code, ty.acode * 8 + sc.code, mCode l off, 0, 0⟩
  | .acas ty sc l off t0 => some ⟨.sync, 0x8, 1, ty.acode * 8 + sc.code, mCode l off, t0.code, 0⟩
  | .acasw sc l b off t1 t0 => some ⟨.sync, 0x9, 1, sc.code, t1.code, t0.code, l.toNat * 2 ^ 27 + b.toNat * 2 ^ 21 + off.toNat * 2 ^ 16⟩
  | .acasv d sc l off t1 t0 => some ⟨.sync, 0xa, d.pr, d.code * 8 + sc.code, t1.code, t0.code, l.toNat * 2 ^ 27 + d.base * 2 ^ 21 + off.toNat * 2 ^ 16⟩
  | .acasNr ty sc l off => some ⟨.sync, 0x18, 1, ty.acode * 8 + sc.code, mCode l off, 0, 0⟩
  | .acaswNr sc l b off => some ⟨.sync, 0x19, 1, sc.code, 0, 0, l.toNat * 2 ^ 27 + b.toNat * 2 ^ 21 + off.toNat * 2 ^ 16⟩
  | .acasvNr d sc l off => some ⟨.sync, 0x1a, d.pr, d.code * 8 + sc.code, 0, 0, l.toNat * 2 ^ 27 + d.base * 2 ^ 21 + off.toNat * 2 ^ 16⟩
  | .fence p k sc l => some ⟨.sync, 0x20, p.code, k.code * 8 + sc.code, l.toNat * 16, 0, 0⟩
  | .binit p q l => some ⟨.sync, 0x21, p.code, q.toNat, l.toNat * 16, 0, 0⟩
  | .barv p masked q l => some ⟨.sync, 0x22, p.code, bit masked * 16 + q.toNat, l.toNat * 16, 0, 0⟩
  | .bwait p q t1 t0 => some ⟨.sync, 0x23, p.code, q.toNat, t1.code, t0.code, 0⟩
  | .bexp p q l => some ⟨.sync, 0x24, p.code, q.toNat, l.toNat * 16, 0, 0⟩
  | .qpush p q l => some ⟨.sync, 0x28, p.code, q.toNat, l.toNat * 16, 0, 0⟩
  | .qpop p q t1 t0 => some ⟨.sync, 0x29, p.code, q.toNat, t1.code, t0.code, 0⟩
  | .qtry p q t1 t0 => some ⟨.sync, 0x2a, p.code, q.toNat, t1.code, t0.code, 0⟩
  | .qgrant p q l => some ⟨.sync, 0x2b, p.code, q.toNat, l.toNat * 16, 0, 0⟩
  | .tlwait p t1 t0 => some ⟨.sync, 0x30, p.code, 0, t1.code, t0.code, 0⟩
  | .tlrd p t1 t0 => some ⟨.sync, 0x31, p.code, 0, t1.code, t0.code, 0⟩
  | .wsadd p => some ⟨.sync, 0x38, p.code, 0, 0, 0, 0⟩
  | .wsval p l t0 => some ⟨.sync, 0x39, p.code, 0, l.toNat * 16, t0.code, 0⟩
  | .wsclr p => some ⟨.sync, 0x3a, p.code, 0, 0, 0, 0⟩
  | .mres p rec gran fm k => some ⟨.mtx, 0x0, p.code, 0, 0, 0, rec.toNat * 2 ^ 21 + gran.toNat * 2 ^ 13 + fm.code * 2 ^ 7 + k.toNat * 2⟩
  | .mrel p rec tile => some ⟨.mtx, 0x1, p.code, (match rec with | none => 0 | some _ => 8) + (match tile with | none => 0 | some t => 4 + t.toNat), 0, 0, match rec with | none => 0 | some r => r.toNat * 2 ^ 21⟩
  | .mld p src l rec wait => some ⟨.mtx, 0x2, p.code, src.code * 8, 0, 0, l.toNat * 2 ^ 27 + rec.toNat * 2 ^ 21 + waitCode wait 20⟩
  | .mldKv p l rec wait => some ⟨.mtx, 0x2, p.code, 2, 0, 0, l.toNat * 2 ^ 27 + rec.toNat * 2 ^ 21 + waitCode wait 20⟩
  | .mzero p tile => some ⟨.mtx, 0x3, p.code, tile.toNat, 0, 0, 0⟩
  | .mma p a b tile col n => some ⟨.mtx, 0x4, p.code, col.toNat, 0, 0, a.toNat * 2 ^ 21 + b.toNat * 2 ^ 15 + tile.toNat * 2 ^ 13 + n.toNat * 2 ^ 8⟩
  | .mmag p a b tile col n rg2 => some ⟨.mtx, 0x5, p.code, col.toNat, 0, 0, a.toNat * 2 ^ 21 + b.toNat * 2 ^ 15 + tile.toNat * 2 ^ 13 + n.toNat * 2 ^ 8 + bit rg2 * 2 ^ 6⟩
  | .mscale p exp2 tile col n => some ⟨.mtx, 0x6, p.code, bit exp2 * 16, 0, 0, tile.toNat * 2 ^ 15 + n.toNat * 2 ^ 10 + col.toNat * 2 ^ 5⟩
  | .mred p op tile col n t1 t0 => some ⟨.mtx, 0x7, p.code, op.code * 8, t1.code, t0.code, tile.toNat * 2 ^ 15 + n.toNat * 2 ^ 10 + col.toNat * 2 ^ 5⟩
  | .mst p sf l wait tile col n => some ⟨.mtx, 0x8, p.code, sf.code, 0, 0, l.toNat * 2 ^ 27 + sf.recNum * 2 ^ 21 + waitCode wait 20 + tile.toNat * 2 ^ 15 + n.toNat * 2 ^ 10 + col.toNat * 2 ^ 5⟩
  | .msort p asc mag ixt tile col n => some ⟨.mtx, 0x9, p.code, bit asc * 16 + bit mag * 8, 0, 0, ixtCode ixt + tile.toNat * 2 ^ 15 + n.toNat * 2 ^ 10 + col.toNat * 2 ^ 5⟩
  | .mtopk p k mag ixt tile col n t1 t0 => some ⟨.mtx, 0xa, p.code, k.toNat, t1.code, t0.code, ixtCode ixt + tile.toNat * 2 ^ 15 + n.toNat * 2 ^ 10 + col.toNat * 2 ^ 5 + bit mag * 16⟩
  | .ascore p causal q k tile col => some ⟨.mtx, 0xb, p.code, bit causal * 16, 0, 0, q.toNat * 2 ^ 21 + k.toNat * 2 ^ 15 + tile.toNat * 2 ^ 13 + col.toNat * 2 ^ 11⟩
  | .amass p exp2 l k wait tile col => some ⟨.mtx, 0xc, p.code, bit exp2 * 16, 0, 0, l.toNat * 2 ^ 27 + k.toNat * 2 ^ 21 + waitCode wait 20 + tile.toNat * 2 ^ 15 + col.toNat * 2 ^ 13⟩
  | .cpy p sc l wait e k => some ⟨.eng, 0x0, p.code, sc.code, 0, 0, l.toNat * 2 ^ 27 + waitCode wait 26 + e.toNat * 2 ^ 21 + k.toNat * 2 ^ 9⟩
  | .cpySend p sc l wait e cv => some ⟨.eng, 0x0, p.code, 8 + sc.code, 0, 0, l.toNat * 2 ^ 27 + waitCode wait 26 + e.toNat * 2 ^ 21 + cv.toNat * 2 ^ 15⟩
  | .cpyRecv p sc l wait e cv => some ⟨.eng, 0x0, p.code, 16 + sc.code, 0, 0, l.toNat * 2 ^ 27 + waitCode wait 26 + e.toNat * 2 ^ 21 + cv.toNat * 2 ^ 15⟩
  | .cpyt p sc l wait e => some ⟨.eng, 0x1, p.code, sc.code, 0, 0, l.toNat * 2 ^ 27 + waitCode wait 26 + e.toNat * 2 ^ 21⟩
  | .coll p sc l wait => some ⟨.eng, 0x2, p.code, sc.code, 0, 0, l.toNat * 2 ^ 27 + waitCode wait 26⟩
  | .tsend p sc l => some ⟨.eng, 0x3, p.code, sc.code, 0, 0, l.toNat * 2 ^ 27⟩
  | .launch p sc l lq => some ⟨.eng, 0x4, p.code, sc.code, 0, 0, l.toNat * 2 ^ 27 + lq.toNat * 2 ^ 21⟩
  | .splev p sc l wait => some ⟨.eng, 0x5, p.code, sc.code, 0, 0, l.toNat * 2 ^ 27 + waitCode wait 26⟩
  | .splcmp p sc l wait => some ⟨.eng, 0x6, p.code, sc.code, 0, 0, l.toNat * 2 ^ 27 + waitCode wait 26⟩
  | .spldcy p sc l wait => some ⟨.eng, 0x7, p.code, sc.code, 0, 0, l.toNat * 2 ^ 27 + waitCode wait 26⟩
  | .rmaprd p sc l wait => some ⟨.eng, 0x8, p.code, sc.code, 0, 0, l.toNat * 2 ^ 27 + waitCode wait 26⟩
  | .rmapwr p sc l wait => some ⟨.eng, 0x9, p.code, sc.code, 0, 0, l.toNat * 2 ^ 27 + waitCode wait 26⟩
  | .trap p c => some ⟨.sys, 0x0, p.code, c.toNat, 0, 0, 0⟩
  | .brk p c => some ⟨.sys, 0x1, p.code, c.toNat, 0, 0, 0⟩
  | .assert p c => some ⟨.sys, 0x2, p.code, c.toNat, 0, 0, 0⟩
  | .clkrd p t1 t0 => some ⟨.sys, 0x3, p.code, 0, t1.code, t0.code, 0⟩
  | .pmrd p n t1 t0 => some ⟨.sys, 0x4, p.code, n.toNat, t1.code, t0.code, 0⟩
  | .kset p a l => some ⟨.sys, 0x5, p.code, a.toNat, l.toNat * 16, 0, 0⟩
  | .pmcfg p n => some ⟨.sys, 0x40, p.code, n.toNat, 0, 0, 0⟩
  | .evqpop p t1 t0 => some ⟨.sys, 0x41, p.code, 0, t1.code, t0.code, 0⟩
  | .evqput p => some ⟨.sys, 0x42, p.code, 0, 0, 0, 0⟩
  | .taskrel p t1 t0 => some ⟨.sys, 0x43, p.code, 0, t1.code, t0.code, 0⟩
  | .cfgput p t1 t0 => some ⟨.sys, 0x44, p.code, 0, t1.code, t0.code, 0⟩
  | .cfgcrcCheck p t1 t0 => some ⟨.sys, 0x45, p.code, 0, t1.code, t0.code, 0⟩
  | .cfgcrcDiscard p t1 t0 => some ⟨.sys, 0x45, p.code, 1, t1.code, t0.code, 0⟩
  | .cfgcrcAct p t1 t0 => some ⟨.sys, 0x45, p.code, 2, t1.code, t0.code, 0⟩
  | .sigchk p t1 t0 => some ⟨.sys, 0x46, p.code, 0, t1.code, t0.code, 0⟩
  | .miold p wide t0 => some ⟨.sys, 0x47, p.code, 16 + bit wide * 8, 0, t0.code, 0⟩
  | .miost p wide => some ⟨.sys, 0x48, p.code, 16 + bit wide * 8, 0, 0, 0⟩
  | .tlbinv p g t1 t0 => some ⟨.sys, 0x49, p.code, g.code, t1.code, t0.code, 0⟩
  | .freeze p => some ⟨.sys, 0x4a, p.code, 0, 0, 0, 0⟩
  | .drain p => some ⟨.sys, 0x4b, p.code, 0, 0, 0, 0⟩
  | .halt p => some ⟨.sys, 0x4c, p.code, 0, 0, 0, 0⟩
  | .schedulingDecision _ => none
  | .configurationLoad _ => none
  | .switchToken _ _ _ _ => none
  | .threadAdmission _ _ _ => none
  | .tokenAccept _ _ _ => none
  | .sinkOutput _ _ _ => none
  | .phaseTwoPerform _ _ => none
  | .roundSeal _ _ => none
  | .sealExecute _ => none
  | .mmagExecute _ => none
  | .rarePassStart _ => none
  | .launchEnd _ => none
  | .homeWrite _ => none
  | .coalescerAgeExpiry _ _ _ => none
  | .ownershipRequest _ => none
  | .ownershipGrant _ => none
  | .ownerRecall _ => none
  | .lineWriteBack _ => none
  | .memoryReply _ _ => none
  | .completionReturn _ => none
  | .nrAcknowledge _ => none
  | .requestTimeout _ => none
  | .windowFill _ _ _ _ => none
  | .leaseExpiry _ _ _ _ => none
  | .visibilityProbeAnswer _ _ _ => none
  | .pageWalk _ _ => none
  | .pagerToken _ _ => none
  | .pagerFillComplete _ _ => none
  | .pagerReplyRetry _ _ => none
  | .pagerReplyFail _ _ => none
  | .tlbinvComplete _ => none
  | .softError _ _ _ => none
  | .engineCommandStart _ => none
  | .engineCommandComplete _ => none
  | .collectiveMatch _ _ => none
  | .splcmpSwitch _ => none
  | .spillwayRetire _ _ => none
  | .launchDispatch _ => none
  | .gangPlacement _ => none
  | .taskToken _ => none
  | .dikewatchFire _ => none
  | .clockStamp _ _ _ => none
  | .ualinkRequest _ _ => none
  | .ualinkLinkLoss _ => none
  | .hostWrite _ _ => none
  | .hostRead _ _ => none
  | .xqTailWrite _ => none
  | .xferDescriptorStart => none
  | .xferDescriptorComplete => none
  | .xqRestart => none
  | .lqPush _ _ => none
  | .hostTaskToken _ => none
  | .parkResume _ _ => none
  | .parkKill _ _ => none
  | .parkResumeSkip _ _ => none
  | .freezeSquash _ => none
  | .squashSave _ => none
  | .freezeDrain _ => none
  | .drainComplete _ => none
  | .gangThaw _ => none
  | .gangSquash _ => none
  | .gangKill _ => none
  | .dvFreeze _ => none
  | .dsFreeze _ _ => none
  | .dieReset _ => none
  | .powerOn _ _ _ _ => none
  | .bootScrubComplete => none
  | .mtxResume _ _ => none
  | .mtxAbandon _ _ => none
  | .engResume _ _ => none
  | .engAbandon _ _ => none
  | .ccJobWrite _ _ => none
  | .controlJobStart _ => none
  | .eventJobStart _ => none
  | .ccImageReplace _ _ => none
  | .ccImageInstall _ => none
  | .zpCommit => none
  | .circuitChangeComplete => none
  | .clkepochInstall _ _ _ => none
  | .attestationGo => none
  | .quoteComplete => none
  | .powerMeasurement _ => none
  | .thermalThreshold _ _ => none
  | .hswDataWrite _ _ => none
  | .hswDataRead _ _ => none
  | .registerWrite _ _ _ => none
  | .completionTimePassed _ _ => none
  | .timeProbeReply _ _ _ => none
  | .ualinkLinkUp _ => none

/-- Class ALU (R108). -/
def decodeAlu (f : Fields) : Except Reason Instr :=
  match f.op with
  | 0x0 => do
    let x ← xiOf f.xop
    let p ← predOf f.pr
    let t0 ← targetOf f.lo
    let t1 ← targetOf f.hi
    return .add p x.1 x.2 t1 t0
  | 0x1 => do
    let x ← xiOf f.xop
    let p ← predOf f.pr
    let t0 ← targetOf f.lo
    let t1 ← targetOf f.hi
    return .sub p x.1 x.2 t1 t0
  | 0x2 => do
    let x ← xiOf f.xop
    let p ← predOf f.pr
    let t0 ← targetOf f.lo
    let t1 ← targetOf f.hi
    return .mul p x.1 x.2 t1 t0
  | 0x3 => do
    let ty ← xinOf f.xop
    let p ← predOf f.pr
    let t0 ← targetOf f.lo
    let t1 ← targetOf f.hi
    return .mulh p ty t1 t0
  | 0x4 => do
    let x ← xiOf f.xop
    let p ← predOf f.pr
    let t0 ← targetOf f.lo
    let t1 ← targetOf f.hi
    return .div p x.1 x.2 t1 t0
  | 0x5 => do
    let ty ← xinOf f.xop
    let p ← predOf f.pr
    let t0 ← targetOf f.lo
    let t1 ← targetOf f.hi
    return .rem p ty t1 t0
  | 0x6 => do
    let ty ← xinOf f.xop
    let p ← predOf f.pr
    let t0 ← targetOf f.lo
    let t1 ← targetOf f.hi
    return .min p ty t1 t0
  | 0x7 => do
    let ty ← xinOf f.xop
    let p ← predOf f.pr
    let t0 ← targetOf f.lo
    let t1 ← targetOf f.hi
    return .max p ty t1 t0
  | 0x8 => do
    let x ← xisOf f.xop
    let p ← predOf f.pr
    let t0 ← targetOf f.lo
    let t1 ← targetOf f.hi
    return .abs p x.1 x.2 t1 t0
  | 0x9 => do
    let x ← xisOf f.xop
    let p ← predOf f.pr
    let t0 ← targetOf f.lo
    let t1 ← targetOf f.hi
    return .neg p x.1 x.2 t1 t0
  | 0xa => do
    let ty ← xbOf f.xop
    let p ← predOf f.pr
    let t0 ← targetOf f.lo
    let t1 ← targetOf f.hi
    return .and p ty t1 t0
  | 0xb => do
    let ty ← xbOf f.xop
    let p ← predOf f.pr
    let t0 ← targetOf f.lo
    let t1 ← targetOf f.hi
    return .or p ty t1 t0
  | 0xc => do
    let ty ← xbOf f.xop
    let p ← predOf f.pr
    let t0 ← targetOf f.lo
    let t1 ← targetOf f.hi
    return .xor p ty t1 t0
  | 0xd => do
    let ty ← xbOf f.xop
    let p ← predOf f.pr
    let t0 ← targetOf f.lo
    let t1 ← targetOf f.hi
    return .andn p ty t1 t0
  | 0xe => do
    let x ← xiOf f.xop
    let p ← predOf f.pr
    let t0 ← targetOf f.lo
    let t1 ← targetOf f.hi
    return .shl p x.1 x.2 t1 t0
  | 0xf => do
    let ty ← xinOf f.xop
    let p ← predOf f.pr
    let t0 ← targetOf f.lo
    let t1 ← targetOf f.hi
    return .shr p ty t1 t0
  | 0x10 => do
    let ty ← xbOf f.xop
    let p ← predOf f.pr
    let t0 ← targetOf f.lo
    let t1 ← targetOf f.hi
    return .rot p ty t1 t0
  | 0x11 => do
    let ty ← xinOf f.xop
    let p ← predOf f.pr
    let t0 ← targetOf f.lo
    let t1 ← targetOf f.hi
    return .bfx p ty t1 t0
  | 0x12 => do
    let ty ← xbOf f.xop
    pr01 f
    let t0 ← targetOf f.lo
    let t1 ← targetOf f.hi
    return .bfi ty t1 t0
  | 0x13 => do
    let ty ← xbOf f.xop
    let p ← predOf f.pr
    let t0 ← targetOf f.lo
    let t1 ← targetOf f.hi
    return .popc p ty t1 t0
  | 0x14 => do
    let ty ← xbOf f.xop
    let p ← predOf f.pr
    let t0 ← targetOf f.lo
    let t1 ← targetOf f.hi
    return .clz p ty t1 t0
  | 0x15 => do
    let ty ← xbOf f.xop
    let p ← predOf f.pr
    let t0 ← targetOf f.lo
    let t1 ← targetOf f.hi
    return .ctz p ty t1 t0
  | 0x16 => do
    let ty ← xbOf f.xop
    let p ← predOf f.pr
    let t0 ← targetOf f.lo
    let t1 ← targetOf f.hi
    return .brev p ty t1 t0
  | 0x17 => do
    let ix ← ixTyOf (f.xop % 4)
    let p ← predOf f.pr
    let t0 ← targetOf f.lo
    let t1 ← targetOf f.hi
    return .lea p (BitVec.ofNat 3 (f.xop / 4)) ix t1 t0
  | 0x18 => do
    let ty ← xbOf f.xop
    pr01 f
    let t0 ← targetOf f.lo
    let t1 ← targetOf f.hi
    return .sel ty t1 t0
  | 0x19 => do
    let x ← xcOf f.xop
    let p ← predOf f.pr
    let t0 ← targetOf f.lo
    let t1 ← targetOf f.hi
    return .cmpSigned p x.1 x.2 t1 t0
  | 0x1a => do
    let x ← xcOf f.xop
    let p ← predOf f.pr
    let t0 ← targetOf f.lo
    let t1 ← targetOf f.hi
    return .cmpUnsigned p x.1 x.2 t1 t0
  | 0x1b => do
    need (f.xop == 0) .xop
    let p ← predOf f.pr
    let t0 ← targetOf f.lo
    let t1 ← targetOf f.hi
    return .pand p t1 t0
  | 0x1c => do
    need (f.xop == 0) .xop
    let p ← predOf f.pr
    let t0 ← targetOf f.lo
    let t1 ← targetOf f.hi
    return .por p t1 t0
  | 0x1d => do
    need (f.xop == 0) .xop
    let p ← predOf f.pr
    let t0 ← targetOf f.lo
    let t1 ← targetOf f.hi
    return .pxor p t1 t0
  | 0x1e => do
    need (f.xop == 0) .xop
    let p ← predOf f.pr
    let t0 ← targetOf f.lo
    let t1 ← targetOf f.hi
    return .pnot p t1 t0
  | 0x1f => do
    need (f.xop == 0) .xop
    let p ← predOf f.pr
    let t0 ← targetOf f.lo
    let t1 ← targetOf f.hi
    return .mov p t1 t0
  | 0x20 => do
    let ty ← xinOf f.xop
    let p ← predOf f.pr
    let v ← immOf f.hi
    let t0 ← targetOf f.lo
    return .movi p ty v t0
  | 0x21 => do
    let ty ← xbOf f.xop
    let p ← predOf f.pr
    let k ← constOf f.hi
    let t0 ← targetOf f.lo
    return .const p ty k t0
  | 0x22 => do
    let x ← xiOf f.xop
    let p ← predOf f.pr
    let i ← ifieldOf f.hi
    let t0 ← targetOf f.lo
    return .addi p x.1 x.2 i t0
  | 0x23 => do
    let ty ← xbOf f.xop
    let p ← predOf f.pr
    let i ← ifieldOf f.hi
    let t0 ← targetOf f.lo
    return .andi p ty i t0
  | 0x24 => do
    let ty ← xbOf f.xop
    let p ← predOf f.pr
    let i ← ifieldOf f.hi
    let t0 ← targetOf f.lo
    return .ori p ty i t0
  | 0x25 => do
    let ty ← xbOf f.xop
    let p ← predOf f.pr
    let i ← ifieldOf f.hi
    let t0 ← targetOf f.lo
    return .xori p ty i t0
  | 0x26 => do
    let x ← xiOf f.xop
    let p ← predOf f.pr
    let i ← shiftFieldOf x.1.width f.hi
    let t0 ← targetOf f.lo
    return .shli p x.1 x.2 i t0
  | 0x27 => do
    let ty ← xinOf f.xop
    let p ← predOf f.pr
    let i ← shiftFieldOf ty.width f.hi
    let t0 ← targetOf f.lo
    return .shri p ty i t0
  | 0x28 => do
    let x ← xcOf f.xop
    let p ← predOf f.pr
    let i ← ifieldOf f.hi
    let t0 ← targetOf f.lo
    return .cmpiSigned p x.1 x.2 i t0
  | 0x29 => do
    let x ← xcOf f.xop
    let p ← predOf f.pr
    let i ← ifieldOf f.hi
    let t0 ← targetOf f.lo
    return .cmpiUnsigned p x.1 x.2 i t0
  | 0x30 => do
    need (f.xop == 0) .xop
    let p ← predOf f.pr
    let v ← lReg f.hi
    let t0 ← targetOf f.lo
    return .lvr p v t0
  | 0x31 => do
    need (f.xop == 0) .xop
    let p ← predOf f.pr
    let v ← lReg f.hi
    noT0 f
    return .lvw p v
  | 0x32 => do
    let r ← sRegOf f.xop
    let p ← predOf f.pr
    let t0 ← targetOf f.lo
    let t1 ← targetOf f.hi
    return .srd p r t1 t0
  | 0x38 => do
    need (f.xop % 8 == 0) .xop
    let m ← shufModeOf (f.xop / 8)
    let p ← predOf f.pr
    let t0 ← targetOf f.lo
    let t1 ← targetOf f.hi
    return .xshuf p m t1 t0
  | 0x39 => do
    need (f.xop == 0) .xop
    let p ← predOf f.pr
    let t0 ← targetOf f.lo
    let t1 ← targetOf f.hi
    return .xbcast p t1 t0
  | 0x3a => do
    let op ← redOf f.xop
    let p ← predOf f.pr
    let t0 ← targetOf f.lo
    let t1 ← targetOf f.hi
    return .rred p op t1 t0
  | 0x3b => do
    let op ← redOf f.xop
    let p ← predOf f.pr
    let t0 ← targetOf f.lo
    let t1 ← targetOf f.hi
    return .rscanInclusive p op t1 t0
  | 0x3c => do
    let op ← redOf f.xop
    let p ← predOf f.pr
    let t0 ← targetOf f.lo
    let t1 ← targetOf f.hi
    return .rscanExclusive p op t1 t0
  | 0x3d => do
    need (f.xop % 8 == 0) .xop
    let m ← voteOf (f.xop / 8)
    let p ← predOf f.pr
    let t0 ← targetOf f.lo
    let t1 ← targetOf f.hi
    return .rvote p m t1 t0
  | _ => .error .opcode

/-- The format group of an FPU opcode and the operation within it (R109). -/
def fpuGroup (op : Nat) : Except Reason (FFmt × Nat) := do
  let g : FFmt × Nat :=
    if op < 0x20 then (.f32, op)
    else if op < 0x40 then (.f16, op - 0x20)
    else if op < 0x60 then (.bf16, op - 0x40)
    else if op < 0x70 then (.f16x2, op - 0x60)
    else (.bf16x2, op - 0x70)
  need (if op < 0x60 then g.2 < 0x11 else g.2 < 7) .opcode
  return g

/-- The scalar format of a group; the packed groups have no operation above FCMP (R109). -/
def FFmt.scalar : FFmt → Except Reason SFmt
  | .f32 => .ok .f32 | .f16 => .ok .f16 | .bf16 => .ok .bf16 | _ => .error .opcode

/-- Operations 0x00 to 0x06 of class FPU in format `fm` (R109). -/
def decodeFpuPacked (f : Fields) (fm : FFmt) (n : Nat) : Except Reason Instr :=
  match n with
  | 0x0 => do
    let x ← xfOf f.xop
    let p ← predOf f.pr
    let t0 ← targetOf f.lo
    let t1 ← targetOf f.hi
    return .fadd p fm x.1 x.2.1 x.2.2 t1 t0
  | 0x1 => do
    let x ← xfOf f.xop
    let p ← predOf f.pr
    let t0 ← targetOf f.lo
    let t1 ← targetOf f.hi
    return .fsub p fm x.1 x.2.1 x.2.2 t1 t0
  | 0x2 => do
    let x ← xfOf f.xop
    let p ← predOf f.pr
    let t0 ← targetOf f.lo
    let t1 ← targetOf f.hi
    return .fmul p fm x.1 x.2.1 x.2.2 t1 t0
  | 0x3 => do
    let x ← xfOf f.xop
    pr01 f
    let t0 ← targetOf f.lo
    let t1 ← targetOf f.hi
    return .ffma fm x.1 x.2.1 x.2.2 t1 t0
  | 0x4 => do
    let x ← xfOf f.xop
    let p ← predOf f.pr
    let t0 ← targetOf f.lo
    let t1 ← targetOf f.hi
    return .fmin p fm x.1 x.2.1 x.2.2 t1 t0
  | 0x5 => do
    let x ← xfOf f.xop
    let p ← predOf f.pr
    let t0 ← targetOf f.lo
    let t1 ← targetOf f.hi
    return .fmax p fm x.1 x.2.1 x.2.2 t1 t0
  | 0x6 => do
    need (f.xop % 4 == 0) .xop
    let c ← fCondOf (f.xop / 4)
    let p ← predOf f.pr
    let t0 ← targetOf f.lo
    let t1 ← targetOf f.hi
    return .fcmp p fm c t1 t0
  | _ => .error .opcode

/-- Operations 0x07 to 0x10 of class FPU in scalar format `fm` (R109). -/
def decodeFpuScalar (f : Fields) (fm : SFmt) (n : Nat) : Except Reason Instr :=
  match n with
  | 0x7 => do
    let x ← xfOf f.xop
    let p ← predOf f.pr
    let t0 ← targetOf f.lo
    let t1 ← targetOf f.hi
    return .fdiv p fm x.1 x.2.1 x.2.2 t1 t0
  | 0x8 => do
    let x ← xf1Of f.xop
    let p ← predOf f.pr
    let t0 ← targetOf f.lo
    let t1 ← targetOf f.hi
    return .fsqrt p fm x.1 x.2 t1 t0
  | 0x9 => do
    let x ← xf1Of f.xop
    let p ← predOf f.pr
    let t0 ← targetOf f.lo
    let t1 ← targetOf f.hi
    return .frcp p fm x.1 x.2 t1 t0
  | 0xa => do
    let x ← xf1Of f.xop
    let p ← predOf f.pr
    let t0 ← targetOf f.lo
    let t1 ← targetOf f.hi
    return .frsq p fm x.1 x.2 t1 t0
  | 0xb => do
    let x ← xf1Of f.xop
    let p ← predOf f.pr
    let t0 ← targetOf f.lo
    let t1 ← targetOf f.hi
    return .fexp2 p fm x.1 x.2 t1 t0
  | 0xc => do
    let x ← xf1Of f.xop
    let p ← predOf f.pr
    let t0 ← targetOf f.lo
    let t1 ← targetOf f.hi
    return .flog2 p fm x.1 x.2 t1 t0
  | 0xd => do
    let x ← xf1Of f.xop
    let p ← predOf f.pr
    let t0 ← targetOf f.lo
    let t1 ← targetOf f.hi
    return .fsinp p fm x.1 x.2 t1 t0
  | 0xe => do
    let x ← xf1Of f.xop
    let p ← predOf f.pr
    let t0 ← targetOf f.lo
    let t1 ← targetOf f.hi
    return .fcosp p fm x.1 x.2 t1 t0
  | 0xf => do
    let x ← xf1Of f.xop
    let p ← predOf f.pr
    let t0 ← targetOf f.lo
    let t1 ← targetOf f.hi
    return .frnd p fm x.1 x.2 t1 t0
  | 0x10 => do
    need (f.xop == 0) .xop
    let p ← predOf f.pr
    let t0 ← targetOf f.lo
    let t1 ← targetOf f.hi
    return .fclass p fm t1 t0
  | _ => .error .opcode

/-- Class FPU (R109). -/
def decodeFpu (f : Fields) : Except Reason Instr := do
  let g ← fpuGroup f.op
  if g.2 < 7 then decodeFpuPacked f g.1 g.2
  else decodeFpuScalar f (← g.1.scalar) g.2

/-- CVT: source × 11 + destination, the two different; .sat only between integer types (R110). -/
def decodeCvtPlain (f : Fields) : Except Reason Instr := do
  let src ← numTyOf (f.op / 11)
  let dst ← numTyOf (f.op % 11)
  need (src != dst) .opcode
  need (f.xop % 4 == 0) .xop
  let r ← rndOf (f.xop / 8)
  need (!flag f.xop 2 || (src.isInt && dst.isInt)) .xop
  let p ← predOf f.pr
  let t0 ← targetOf f.lo
  let t1 ← targetOf f.hi
  return .cvt p src dst r (flag f.xop 2) t1 t0

/-- Class CVT (R110). -/
def decodeCvt (f : Fields) : Except Reason Instr :=
  match f.op with
  | 0x79 => do
    let src ← sFmtOf (f.xop / 8)
    let lf ← logFmtOf (f.xop / 4 % 2)
    let len ← blkLenOf (f.xop % 4)
    let p ← predOf f.pr
    let t0 ← targetOf f.lo
    let t1 ← targetOf f.hi
    return .cvtbToLog p src lf len t1 t0
  | 0x7a => do
    let r ← rndOf (f.xop / 8)
    let lf ← logFmtOf (f.xop / 4 % 2)
    let len ← blkLenOf (f.xop % 4)
    let p ← predOf f.pr
    let t0 ← targetOf f.lo
    let t1 ← targetOf f.hi
    return .cvtbToF32 p r lf len t1 t0
  | 0x7b => do
    need (f.xop % 4 == 0) .xop
    let r ← rndOf (f.xop / 8)
    let p ← predOf f.pr
    let t0 ← targetOf f.lo
    let t1 ← targetOf f.hi
    return .cvtp p r (flag f.xop 2) t1 t0
  | _ => decodeCvtPlain f

/-- NULL: the LSID kind and the register kind (R177). -/
def decodeNull (f : Fields) : Except Reason Instr := do
  need (f.xop < 2) .xop
  let p ← predOf f.pr
  need (f.lo == 0) .field
  if f.xop == 0 then do
    let l ← mOnly f.hi
    return .nullLsid p l
  else do
    let v ← lReg f.hi
    return .nullRegister p v

/-- Class FLOW (R111). -/
def decodeFlow (f : Fields) : Except Reason Instr :=
  match f.op with
  | 0x0 => do
    need (f.xop == 0) .xop
    let p ← predOf f.pr
    return .br p (blkOf f)
  | 0x1 => do
    need (f.xop == 0) .xop
    let p ← predOf f.pr
    need (f.hi == 0 && f.lo == 0) .field
    return .bri p
  | 0x2 => do
    need (f.xop == 0) .xop
    let p ← predOf f.pr
    return .call p (blkOf f)
  | 0x3 => do
    need (f.xop == 0) .xop
    let p ← predOf f.pr
    need (f.hi == 0 && f.lo == 0) .field
    return .ret p
  | 0x4 => do
    need (f.xop == 0) .xop
    let p ← predOf f.pr
    need (f.hi == 0 && f.lo == 0) .field
    return .exit p
  | 0x5 => do
    let p ← predOf f.pr
    let k ← constOf f.hi
    need (f.lo == 0) .field
    return .switch p (BitVec.ofNat 5 f.xop) k
  | 0x7 => do
    need (f.xop == 0) .xop
    let p ← predOf f.pr
    return .yield p (blkOf f)
  | 0x8 => do
    need (f.xop == 0) .xop
    let p ← predOf f.pr
    return .xpath p (blkOf f)
  | 0x9 => do
    let p ← predOf f.pr
    need (f.xop == 0 && f.hi == 0 && f.lo == 0) .field
    return .nop p
  | 0x6 => decodeNull f
  | _ => .error .opcode

/-- Class MEM (R112). -/
def decodeMem (f : Fields) : Except Reason Instr :=
  match f.op with
  | 0x0 => do
    need (f.xop % 2 == 0) .xop
    let z ← sizeOf (f.xop / 8)
    let p ← predOf f.pr
    let t0 ← targetOf f.lo
    return .ld p z (flag f.xop 2) (flag f.xop 1) (mLsid f.hi) (mOff f.hi) t0
  | 0x1 => do
    let z ← sizeOf (f.xop / 8)
    let sc ← scopeOf (f.xop % 8)
    let p ← predOf f.pr
    let t0 ← targetOf f.lo
    return .lda p z sc (mLsid f.hi) (mOff f.hi) t0
  | 0x2 => do
    need (f.xop % 2 == 0 && f.xop / 4 % 2 == 0) .xop
    let z ← sizeOf (f.xop / 8)
    let p ← predOf f.pr
    noT0 f
    return .st p z (flag f.xop 1) (mLsid f.hi) (mOff f.hi)
  | 0x3 => do
    let z ← sizeOf (f.xop / 8)
    let sc ← scopeOf (f.xop % 8)
    let p ← predOf f.pr
    noT0 f
    return .stl p z sc (mLsid f.hi) (mOff f.hi)
  | 0x4 => do
    need (f.xop % 4 == 0) .xop
    let z ← sizeOf (f.xop / 8)
    let p ← predOf f.pr
    extZero f.ext 15 0
    let t0 ← targetOf f.lo
    let t1 ← targetOf f.hi
    return .ldv p z (flag f.xop 2) (extBits f.ext 27 5) (extBits f.ext 16 11) t1 t0
  | 0x5 => do
    need (f.xop == 0) .xop
    let p ← predOf f.pr
    noT f
    return .prf p
  | 0x6 => do
    let q ← xqOf f.xop
    let p ← predOf f.pr
    let l ← mOnly f.hi
    noT0 f
    return .sput p q l
  | 0x7 => do
    let q ← xqOf f.xop
    let p ← predOf f.pr
    let t0 ← targetOf f.lo
    let t1 ← targetOf f.hi
    return .sget p q t1 t0
  | 0x8 => do
    let q ← xqOf f.xop
    let p ← predOf f.pr
    let l ← mOnly f.hi
    noT0 f
    return .smark p q l
  | 0x9 => do
    let z ← sizeOf (f.xop / 8)
    need (f.xop % 8 == 0 || f.xop % 8 == 5) .xop
    let p ← predOf f.pr
    let t0 ← targetOf f.lo
    return .rld p z (f.xop % 8 == 5) (mLsid f.hi) (mOff f.hi) t0
  | 0xa => do
    let z ← sizeOf (f.xop / 8)
    need (f.xop % 8 == 0 || f.xop % 8 == 5) .xop
    let p ← predOf f.pr
    noT0 f
    return .rst p z (f.xop % 8 == 5) (mLsid f.hi) (mOff f.hi)
  | 0x10 => do
    need (f.xop < 2) .xop
    let p ← predOf f.pr
    let t0 ← targetOf f.lo
    let t1 ← targetOf f.hi
    return .isect p (flag f.xop 0) t1 t0
  | 0x11 => do
    need (f.xop < 2) .xop
    let p ← predOf f.pr
    let t0 ← targetOf f.lo
    let t1 ← targetOf f.hi
    return .union p (flag f.xop 0) t1 t0
  | 0x12 => do
    need (f.xop < 2) .xop
    let p ← predOf f.pr
    let t0 ← targetOf f.lo
    let t1 ← targetOf f.hi
    return .compact p (flag f.xop 0) t1 t0
  | 0x13 => do
    need (f.xop < 2) .xop
    let p ← predOf f.pr
    let t0 ← targetOf f.lo
    let t1 ← targetOf f.hi
    return .expand p (flag f.xop 0) t1 t0
  | _ => .error .opcode

/-- Class SYNC (R113). -/
def decodeSync (f : Fields) : Except Reason Instr :=
  match f.op with
  | 0x0 => do
    let ty ← aIntTyOf (f.xop / 8)
    let sc ← scopeOf (f.xop % 8)
    let p ← predOf f.pr
    let t0 ← targetOf f.lo
    return .aadd p ty sc (mLsid f.hi) (mOff f.hi) t0
  | 0x10 => do
    let ty ← aIntTyOf (f.xop / 8)
    let sc ← scopeOf (f.xop % 8)
    let p ← predOf f.pr
    noT0 f
    return .aaddNr p ty sc (mLsid f.hi) (mOff f.hi)
  | 0x1 => do
    let ty ← aFltTyOf (f.xop / 8)
    let sc ← scopeOf (f.xop % 8)
    let p ← predOf f.pr
    let t0 ← targetOf f.lo
    return .afadd p ty sc (mLsid f.hi) (mOff f.hi) t0
  | 0x11 => do
    let ty ← aFltTyOf (f.xop / 8)
    let sc ← scopeOf (f.xop % 8)
    let p ← predOf f.pr
    noT0 f
    return .afaddNr p ty sc (mLsid f.hi) (mOff f.hi)
  | 0x2 => do
    let ty ← aIntTyOf (f.xop / 8)
    let sc ← scopeOf (f.xop % 8)
    let p ← predOf f.pr
    let t0 ← targetOf f.lo
    return .amin p ty sc (mLsid f.hi) (mOff f.hi) t0
  | 0x12 => do
    let ty ← aIntTyOf (f.xop / 8)
    let sc ← scopeOf (f.xop % 8)
    let p ← predOf f.pr
    noT0 f
    return .aminNr p ty sc (mLsid f.hi) (mOff f.hi)
  | 0x3 => do
    let ty ← aIntTyOf (f.xop / 8)
    let sc ← scopeOf (f.xop % 8)
    let p ← predOf f.pr
    let t0 ← targetOf f.lo
    return .amax p ty sc (mLsid f.hi) (mOff f.hi) t0
  | 0x13 => do
    let ty ← aIntTyOf (f.xop / 8)
    let sc ← scopeOf (f.xop % 8)
    let p ← predOf f.pr
    noT0 f
    return .amaxNr p ty sc (mLsid f.hi) (mOff f.hi)
  | 0x4 => do
    let ty ← aBitTyOf (f.xop / 8)
    let sc ← scopeOf (f.xop % 8)
    let p ← predOf f.pr
    let t0 ← targetOf f.lo
    return .aand p ty sc (mLsid f.hi) (mOff f.hi) t0
  | 0x14 => do
    let ty ← aBitTyOf (f.xop / 8)
    let sc ← scopeOf (f.xop % 8)
    let p ← predOf f.pr
    noT0 f
    return .aandNr p ty sc (mLsid f.hi) (mOff f.hi)
  | 0x5 => do
    let ty ← aBitTyOf (f.xop / 8)
    let sc ← scopeOf (f.xop % 8)
    let p ← predOf f.pr
    let t0 ← targetOf f.lo
    return .aor p ty sc (mLsid f.hi) (mOff f.hi) t0
  | 0x15 => do
    let ty ← aBitTyOf (f.xop / 8)
    let sc ← scopeOf (f.xop % 8)
    let p ← predOf f.pr
    noT0 f
    return .aorNr p ty sc (mLsid f.hi) (mOff f.hi)
  | 0x6 => do
    let ty ← aBitTyOf (f.xop / 8)
    let sc ← scopeOf (f.xop % 8)
    let p ← predOf f.pr
    let t0 ← targetOf f.lo
    return .axor p ty sc (mLsid f.hi) (mOff f.hi) t0
  | 0x16 => do
    let ty ← aBitTyOf (f.xop / 8)
    let sc ← scopeOf (f.xop % 8)
    let p ← predOf f.pr
    noT0 f
    return .axorNr p ty sc (mLsid f.hi) (mOff f.hi)
  | 0x7 => do
    let ty ← aBitTyOf (f.xop / 8)
    let sc ← scopeOf (f.xop % 8)
    let p ← predOf f.pr
    let t0 ← targetOf f.lo
    return .axchg p ty sc (mLsid f.hi) (mOff f.hi) t0
  | 0x17 => do
    let ty ← aBitTyOf (f.xop / 8)
    let sc ← scopeOf (f.xop % 8)
    let p ← predOf f.pr
    noT0 f
    return .axchgNr p ty sc (mLsid f.hi) (mOff f.hi)
  | 0x8 => do
    let ty ← aBitTyOf (f.xop / 8)
    let sc ← scopeOf (f.xop % 8)
    pr01 f
    let t0 ← targetOf f.lo
    return .acas ty sc (mLsid f.hi) (mOff f.hi) t0
  | 0x9 => do
    need (f.xop < 8) .xop
    let sc ← scopeOf f.xop
    need sc.versionWf .xop
    pr01 f
    extZero f.ext 15 0
    need (baseWf (extBits f.ext 21 6)) .field
    let t0 ← targetOf f.lo
    let t1 ← targetOf f.hi
    return .acasw sc (extBits f.ext 27 5) (extBits f.ext 21 6) (extBits f.ext 16 5) t1 t0
  | 0xa => do
    let sc ← scopeOf (f.xop % 8)
    need sc.versionWf .xop
    let d ← vdataOf f
    extZero f.ext 15 0
    let t0 ← targetOf f.lo
    let t1 ← targetOf f.hi
    return .acasv d sc (extBits f.ext 27 5) (extBits f.ext 16 5) t1 t0
  | 0x18 => do
    let ty ← aBitTyOf (f.xop / 8)
    let sc ← scopeOf (f.xop % 8)
    pr01 f
    noT0 f
    return .acasNr ty sc (mLsid f.hi) (mOff f.hi)
  | 0x19 => do
    need (f.xop < 8) .xop
    let sc ← scopeOf f.xop
    need sc.versionWf .xop
    pr01 f
    extZero f.ext 15 0
    need (baseWf (extBits f.ext 21 6)) .field
    noT f
    return .acaswNr sc (extBits f.ext 27 5) (extBits f.ext 21 6) (extBits f.ext 16 5)
  | 0x1a => do
    let sc ← scopeOf (f.xop % 8)
    need sc.versionWf .xop
    let d ← vdataOf f
    extZero f.ext 15 0
    noT f
    return .acasvNr d sc (extBits f.ext 27 5) (extBits f.ext 16 5)
  | 0x20 => do
    let k ← fenceKindOf (f.xop / 8)
    let sc ← scopeOf (f.xop % 8)
    let p ← predOf f.pr
    let l ← mOnly f.hi
    noT0 f
    return .fence p k sc l
  | 0x21 => do
    let q ← xqOf f.xop
    let p ← predOf f.pr
    let l ← mOnly f.hi
    noT0 f
    return .binit p q l
  | 0x22 => do
    need (f.xop < 32) .xop
    let p ← predOf f.pr
    let l ← mOnly f.hi
    noT0 f
    return .barv p (flag f.xop 4) (BitVec.ofNat 4 f.xop) l
  | 0x23 => do
    let q ← xqOf f.xop
    let p ← predOf f.pr
    let t0 ← targetOf f.lo
    let t1 ← targetOf f.hi
    return .bwait p q t1 t0
  | 0x24 => do
    let q ← xqOf f.xop
    let p ← predOf f.pr
    let l ← mOnly f.hi
    noT0 f
    return .bexp p q l
  | 0x28 => do
    let q ← xqOf f.xop
    let p ← predOf f.pr
    let l ← mOnly f.hi
    noT0 f
    return .qpush p q l
  | 0x29 => do
    let q ← xqOf f.xop
    let p ← predOf f.pr
    let t0 ← targetOf f.lo
    let t1 ← targetOf f.hi
    return .qpop p q t1 t0
  | 0x2a => do
    let q ← xqOf f.xop
    let p ← predOf f.pr
    let t0 ← targetOf f.lo
    let t1 ← targetOf f.hi
    return .qtry p q t1 t0
  | 0x2b => do
    let q ← xqOf f.xop
    let p ← predOf f.pr
    let l ← mOnly f.hi
    noT0 f
    return .qgrant p q l
  | 0x30 => do
    need (f.xop == 0) .xop
    let p ← predOf f.pr
    let t0 ← targetOf f.lo
    let t1 ← targetOf f.hi
    return .tlwait p t1 t0
  | 0x31 => do
    need (f.xop == 0) .xop
    let p ← predOf f.pr
    let t0 ← targetOf f.lo
    let t1 ← targetOf f.hi
    return .tlrd p t1 t0
  | 0x38 => do
    need (f.xop == 0) .field
    let p ← predOf f.pr
    noT f
    return .wsadd p
  | 0x39 => do
    need (f.xop == 0) .xop
    let p ← predOf f.pr
    let l ← mOnly f.hi
    let t0 ← targetOf f.lo
    return .wsval p l t0
  | 0x3a => do
    need (f.xop == 0) .field
    let p ← predOf f.pr
    noT f
    return .wsclr p
  | _ => .error .opcode

/-- MLD: .kv with a nonzero source is refused (R276). -/
def decodeMld (f : Fields) : Except Reason Instr := do
  need (f.xop % 2 == 0 && f.xop / 4 % 2 == 0) .xop
  let src ← ldSrcOf (f.xop / 8)
  need (!flag f.xop 1 || f.xop / 8 == 0) .xop
  let p ← predOf f.pr
  extZero f.ext 16 0
  noT f
  if flag f.xop 1 then return .mldKv p (extBits f.ext 27 5) (extBits f.ext 21 6) (waitOf f.ext 20)
  else return .mld p src (extBits f.ext 27 5) (extBits f.ext 21 6) (waitOf f.ext 20)

/-- Class MTX (R276). -/
def decodeMtx (f : Fields) : Except Reason Instr :=
  match f.op with
  | 0x0 => do
    need (f.xop == 0) .xop
    let p ← predOf f.pr
    extZero f.ext 31 27
    extZero f.ext 0 0
    let fm ← recFmtOf f.ext
    noT f
    return .mres p (extBits f.ext 21 6) (extBits f.ext 13 8) fm (extBits f.ext 1 6)
  | 0x1 => do
    need (f.xop < 16 && f.xop / 4 % 4 != 0) .xop
    let p ← predOf f.pr
    extZero f.ext 31 27
    extZero f.ext 20 0
    need (flag f.xop 3 || f.ext == 0) .field
    noT f
    return .mrel p (if flag f.xop 3 then some (extBits f.ext 21 6) else none) (if flag f.xop 2 then some (BitVec.ofNat 2 f.xop) else none)
  | 0x3 => do
    need (f.xop < 4) .xop
    let p ← predOf f.pr
    extZero f.ext 31 0
    noT f
    return .mzero p (BitVec.ofNat 2 f.xop)
  | 0x4 => do
    need (f.xop < 32) .xop
    let p ← predOf f.pr
    extZero f.ext 31 27
    extZero f.ext 7 0
    need (colsWf (BitVec.ofNat 5 f.xop) (extBits f.ext 8 5)) .field
    noT f
    return .mma p (extBits f.ext 21 6) (extBits f.ext 15 6) (extBits f.ext 13 2) (BitVec.ofNat 5 f.xop) (extBits f.ext 8 5)
  | 0x5 => do
    need (f.xop < 32) .xop
    let p ← predOf f.pr
    extZero f.ext 31 27
    extZero f.ext 7 7
    extZero f.ext 5 0
    need (colsWf (BitVec.ofNat 5 f.xop) (extBits f.ext 8 5)) .field
    noT f
    return .mmag p (extBits f.ext 21 6) (extBits f.ext 15 6) (extBits f.ext 13 2) (BitVec.ofNat 5 f.xop) (extBits f.ext 8 5) (flag f.ext 6)
  | 0x6 => do
    need (f.xop % 16 == 0) .xop
    let p ← predOf f.pr
    extZero f.ext 31 17
    extZero f.ext 4 0
    need (colsWf (extBits f.ext 5 5) (extBits f.ext 10 5)) .field
    noT f
    return .mscale p (flag f.xop 4) (extBits f.ext 15 2) (extBits f.ext 5 5) (extBits f.ext 10 5)
  | 0x7 => do
    need (f.xop % 8 == 0) .xop
    let op ← mRedOpOf (f.xop / 8)
    let p ← predOf f.pr
    extZero f.ext 31 17
    extZero f.ext 4 0
    need (colsWf (extBits f.ext 5 5) (extBits f.ext 10 5)) .field
    let t0 ← targetOf f.lo
    let t1 ← targetOf f.hi
    return .mred p op (extBits f.ext 15 2) (extBits f.ext 5 5) (extBits f.ext 10 5) t1 t0
  | 0x8 => do
    need (f.xop % 4 == 0) .xop
    let sf ← stFmtOf f
    let p ← predOf f.pr
    extZero f.ext 4 0
    need (flag f.xop 4 || bitsOf f.ext 26 21 == 0) .field
    need (colsWf (extBits f.ext 5 5) (extBits f.ext 10 5)) .field
    noT f
    return .mst p sf (extBits f.ext 27 5) (waitOf f.ext 20) (extBits f.ext 15 2) (extBits f.ext 5 5) (extBits f.ext 10 5)
  | 0x9 => do
    need (f.xop % 8 == 0) .xop
    let p ← predOf f.pr
    extZero f.ext 31 24
    extZero f.ext 20 17
    extZero f.ext 4 0
    need (colsWf (extBits f.ext 5 5) (extBits f.ext 10 5)) .field
    need (ixtWf (ixtOf f.ext) (extBits f.ext 15 2)) .field
    noT f
    return .msort p (flag f.xop 4) (flag f.xop 3) (ixtOf f.ext) (extBits f.ext 15 2) (extBits f.ext 5 5) (extBits f.ext 10 5)
  | 0xa => do
    need (f.xop < 32) .xop
    let p ← predOf f.pr
    extZero f.ext 31 24
    extZero f.ext 20 17
    extZero f.ext 3 0
    need (colsWf (extBits f.ext 5 5) (extBits f.ext 10 5)) .field
    need (ixtWf (ixtOf f.ext) (extBits f.ext 15 2)) .field
    need (decide (f.xop + 1 ≤ 8 * ((extBits f.ext 10 5).toNat + 1))) .field
    let t0 ← targetOf f.lo
    let t1 ← targetOf f.hi
    return .mtopk p (BitVec.ofNat 5 f.xop) (flag f.ext 4) (ixtOf f.ext) (extBits f.ext 15 2) (extBits f.ext 5 5) (extBits f.ext 10 5) t1 t0
  | 0xb => do
    need (f.xop % 16 == 0) .xop
    let p ← predOf f.pr
    extZero f.ext 31 27
    extZero f.ext 10 0
    noT f
    return .ascore p (flag f.xop 4) (extBits f.ext 21 6) (extBits f.ext 15 6) (extBits f.ext 13 2) (extBits f.ext 11 2)
  | 0xc => do
    need (f.xop % 16 == 0) .xop
    let p ← predOf f.pr
    extZero f.ext 12 0
    noT f
    return .amass p (flag f.xop 4) (extBits f.ext 27 5) (extBits f.ext 21 6) (waitOf f.ext 20) (extBits f.ext 15 2) (extBits f.ext 13 2)
  | 0x2 => decodeMld f
  | _ => .error .opcode

/-- CPY: memory, .send and .recv; the culvert and the length index exclude each other (R316). -/
def decodeCpy (f : Fields) : Except Reason Instr := do
  let sc ← scopeOf (f.xop % 8)
  let p ← (do need (f.xop / 8 < 3) .xop; predOf f.pr)
  extZero f.ext 8 0
  match f.xop / 8 with
  | 0 => do
    extZero f.ext 20 15
    noT f
    return .cpy p sc (extBits f.ext 27 5) (waitOf f.ext 26) (extBits f.ext 21 2) (extBits f.ext 9 6)
  | 1 => do
    extZero f.ext 14 9
    noT f
    return .cpySend p sc (extBits f.ext 27 5) (waitOf f.ext 26) (extBits f.ext 21 2) (extBits f.ext 15 6)
  | _ => do
    extZero f.ext 14 9
    noT f
    return .cpyRecv p sc (extBits f.ext 27 5) (waitOf f.ext 26) (extBits f.ext 21 2) (extBits f.ext 15 6)

/-- Class ENG (R316, R363). -/
def decodeEng (f : Fields) : Except Reason Instr :=
  match f.op with
  | 0x1 => do
    need (f.xop < 8) .xop
    let sc ← scopeOf f.xop
    let p ← predOf f.pr
    extZero f.ext 20 0
    noT f
    return .cpyt p sc (extBits f.ext 27 5) (waitOf f.ext 26) (extBits f.ext 21 2)
  | 0x2 => do
    need (f.xop < 8) .xop
    let sc ← scopeOf f.xop
    let p ← predOf f.pr
    extZero f.ext 22 0
    noT f
    return .coll p sc (extBits f.ext 27 5) (waitOf f.ext 26)
  | 0x3 => do
    need (f.xop < 8) .xop
    let sc ← scopeOf f.xop
    let p ← predOf f.pr
    extZero f.ext 26 0
    noT f
    return .tsend p sc (extBits f.ext 27 5)
  | 0x4 => do
    need (f.xop < 8) .xop
    let sc ← scopeOf f.xop
    let p ← predOf f.pr
    extZero f.ext 20 0
    noT f
    return .launch p sc (extBits f.ext 27 5) (extBits f.ext 21 6)
  | 0x5 => do
    need (f.xop < 8) .xop
    let sc ← scopeOf f.xop
    let p ← predOf f.pr
    extZero f.ext 22 0
    noT f
    return .splev p sc (extBits f.ext 27 5) (waitOf f.ext 26)
  | 0x6 => do
    need (f.xop < 8) .xop
    let sc ← scopeOf f.xop
    let p ← predOf f.pr
    extZero f.ext 22 0
    noT f
    return .splcmp p sc (extBits f.ext 27 5) (waitOf f.ext 26)
  | 0x7 => do
    need (f.xop < 8) .xop
    let sc ← scopeOf f.xop
    let p ← predOf f.pr
    extZero f.ext 22 0
    noT f
    return .spldcy p sc (extBits f.ext 27 5) (waitOf f.ext 26)
  | 0x8 => do
    need (f.xop < 8) .xop
    let sc ← scopeOf f.xop
    let p ← predOf f.pr
    extZero f.ext 22 0
    noT f
    return .rmaprd p sc (extBits f.ext 27 5) (waitOf f.ext 26)
  | 0x9 => do
    need (f.xop < 8) .xop
    let sc ← scopeOf f.xop
    let p ← predOf f.pr
    extZero f.ext 22 0
    noT f
    return .rmapwr p sc (extBits f.ext 27 5) (waitOf f.ext 26)
  | 0x0 => decodeCpy f
  | _ => .error .opcode

/-- CFGCRC: [1:0] the action (R422). -/
def decodeCfgcrc (f : Fields) : Except Reason Instr := do
  need (f.xop < 3) .xop
  let p ← predOf f.pr
  extZero f.ext 31 0
  let t0 ← targetOf f.lo
  let t1 ← targetOf f.hi
  match f.xop with
  | 0 => return .cfgcrcCheck p t1 t0
  | 1 => return .cfgcrcDiscard p t1 t0
  | _ => return .cfgcrcAct p t1 t0

/-- Class SYS (R115). -/
def decodeSys (f : Fields) : Except Reason Instr :=
  match f.op with
  | 0x0 => do
    let p ← predOf f.pr
    noT f
    return .trap p (BitVec.ofNat 5 f.xop)
  | 0x1 => do
    let p ← predOf f.pr
    noT f
    return .brk p (BitVec.ofNat 5 f.xop)
  | 0x2 => do
    let p ← predOf f.pr
    noT f
    return .assert p (BitVec.ofNat 5 f.xop)
  | 0x3 => do
    need (f.xop == 0) .xop
    let p ← predOf f.pr
    let t0 ← targetOf f.lo
    let t1 ← targetOf f.hi
    return .clkrd p t1 t0
  | 0x4 => do
    let n ← xqOf f.xop
    let p ← predOf f.pr
    let t0 ← targetOf f.lo
    let t1 ← targetOf f.hi
    return .pmrd p n t1 t0
  | 0x5 => do
    let p ← predOf f.pr
    let l ← mOnly f.hi
    noT0 f
    return .kset p (BitVec.ofNat 5 f.xop) l
  | 0x40 => do
    let n ← xqOf f.xop
    let p ← predOf f.pr
    noT f
    return .pmcfg p n
  | 0x41 => do
    need (f.xop == 0) .xop
    let p ← predOf f.pr
    let t0 ← targetOf f.lo
    let t1 ← targetOf f.hi
    return .evqpop p t1 t0
  | 0x42 => do
    need (f.xop == 0) .xop
    let p ← predOf f.pr
    noT f
    return .evqput p
  | 0x43 => do
    need (f.xop == 0) .xop
    let p ← predOf f.pr
    let t0 ← targetOf f.lo
    let t1 ← targetOf f.hi
    return .taskrel p t1 t0
  | 0x44 => do
    need (f.xop == 0) .xop
    let p ← predOf f.pr
    extZero f.ext 31 0
    let t0 ← targetOf f.lo
    let t1 ← targetOf f.hi
    return .cfgput p t1 t0
  | 0x46 => do
    need (f.xop == 0) .xop
    let p ← predOf f.pr
    extZero f.ext 31 0
    let t0 ← targetOf f.lo
    let t1 ← targetOf f.hi
    return .sigchk p t1 t0
  | 0x47 => do
    need (f.xop == 16 || f.xop == 24) .xop
    let p ← predOf f.pr
    need (f.hi == 0) .field
    let t0 ← targetOf f.lo
    return .miold p (flag f.xop 3) t0
  | 0x48 => do
    need (f.xop == 16 || f.xop == 24) .xop
    let p ← predOf f.pr
    need (f.hi == 0) .field
    noT0 f
    return .miost p (flag f.xop 3)
  | 0x49 => do
    let g ← granOf f.xop
    let p ← predOf f.pr
    let t0 ← targetOf f.lo
    let t1 ← targetOf f.hi
    return .tlbinv p g t1 t0
  | 0x4a => do
    need (f.xop == 0) .xop
    let p ← predOf f.pr
    noT f
    return .freeze p
  | 0x4b => do
    need (f.xop == 0) .xop
    let p ← predOf f.pr
    noT f
    return .drain p
  | 0x4c => do
    need (f.xop == 0) .xop
    let p ← predOf f.pr
    noT f
    return .halt p
  | 0x45 => decodeCfgcrc f
  | _ => .error .opcode

/-- The instruction of these fields, or the reason its word is refused (R124). Within one word
the opcode is checked first, then xop, pr, the other fields and the targets. (log 3) -/
def decodeFields (f : Fields) : Except Reason Instr :=
  match f.cls with
  | .alu => decodeAlu f
  | .fpu => decodeFpu f
  | .mem => decodeMem f
  | .mtx => decodeMtx f
  | .cvt => decodeCvt f
  | .flow => decodeFlow f
  | .sync => decodeSync f
  | .eng => decodeEng f
  | .sys => decodeSys f

/-- An encoded instruction: its class, its word and the extension word of format X. -/
structure Code where
  cls : Cls
  word : W32
  ext : Option W32
  deriving DecidableEq, Repr

/-- The encoder: the words of an instruction, none for an event. -/
def encode (i : Instr) : Option Code :=
  match encodeFields i with
  | none => none
  | some f => some ⟨f.cls, BitVec.ofNat 32 f.word,
      if isX f.cls f.op then some (BitVec.ofNat 32 f.ext) else none⟩

/-- The decoder of one encoded instruction. Format X needs its extension word, and no other
format has one. (log 3, DEDUCED) -/
def decode (c : Code) : Except Reason Instr :=
  let op := bitsOf c.word.toNat 31 25
  match isX c.cls op, c.ext with
  | true, some e => decodeFields (fieldsOf c.cls c.word.toNat e.toNat)
  | false, none => decodeFields (fieldsOf c.cls c.word.toNat 0)
  | _, _ => .error .field

/-- Four bytes as a little-endian word (R4). -/
def wordLE (a b c d : Byte) : W32 := d ++ c ++ b ++ a

/-- The decoder over bytes: words in little-endian order (R4, R93), the extension after its word;
the instruction and the bytes that follow it. Fewer bytes than the words need is BLKLEN. -/
def decodeBytes (cls : Cls) : List Byte → Except Reason (Instr × List Byte)
  | a :: b :: c :: d :: rest =>
    let w := wordLE a b c d
    if isX cls (bitsOf w.toNat 31 25) then
      match rest with
      | a' :: b' :: c' :: d' :: rest' => do
        let i ← decode ⟨cls, w, some (wordLE a' b' c' d')⟩
        return (i, rest')
      | _ => .error .blklen
    else do
      let i ← decode ⟨cls, w, none⟩
      return (i, rest)
  | _ => .error .blklen

/-- The lowest `n` bytes of a number, the least significant first (R4). -/
def bytesLE : Nat → Nat → List Byte
  | _, 0 => []
  | v, n + 1 => BitVec.ofNat 8 v :: bytesLE (v / 256) n

/-- The classes in code order (R98). -/
def allClasses : List Cls := [.alu, .fpu, .mem, .mtx, .cvt, .flow, .sync, .eng, .sys]

/-- The first class, in code order, whose table accepts the words. (log 4) -/
def classOfWord (w : Nat) : Option (Cls × Instr) :=
  allClasses.findSome? fun c =>
    match decodeBytes c (bytesLE w 8) with
    | .ok (i, _) => some (c, i)
    | .error _ => none

/-- The instruction the decoder reads from an instruction of these bits, the first word lowest.
A word names its class only through its clause header (R98), which the table's bits leave out: the
first class in code order that accepts the word answers. (log 4, DESIGN CHOICE) -/
def decodeTableWord (_nbits w : Nat) : Option Instr :=
  match classOfWord w with
  | some (_, i) => some i
  | none => none

end Sys2Proof
end

