-- ==== Sys2Proof/Machine/IntAlu.lean ====
section
/-! DEFINITION. Integer, bit, address, compare and predicate results (R151 to R163, R165). Each
function takes operand tokens and gives the result token. -/

namespace Sys2Proof.Machine

/-- The integer the low bits of a token stand for under a type (R61, R151). -/
def valOf (ty : IntTy) (x : W64) : Int :=
  if ty.signed then signedOf x.toNat ty.width else ((x.toNat % 2 ^ ty.width : Nat) : Int)

/-- Lo of R62. -/
def tyLo (ty : IntTy) : Int := if ty.signed then -((2 ^ (ty.width - 1) : Nat) : Int) else 0

/-- Hi of R62. -/
def tyHi (ty : IntTy) : Int :=
  if ty.signed then ((2 ^ (ty.width - 1) : Nat) : Int) - 1 else ((2 ^ ty.width : Nat) : Int) - 1

/-- An integer of the type's range as token data: bits above the width copy the sign or are zero
(R61). An integer outside the range is reduced modulo 2^w first. -/
def extendTok (ty : IntTy) (y : Int) : W64 :=
  let n := wrapTo y ty.width
  if ty.signed then BitVec.ofInt 64 (signedOf n ty.width) else BitVec.ofNat 64 n

/-- Clamp of R151. -/
def clampTo (lo hi x : Int) : Int := if x < lo then lo else if hi < x then hi else x

/-- Step 3 of R151: saturate or wrap, then extend. -/
def xiResult (ty : IntTy) (sat : Bool) (x : Int) : W64 :=
  extendTok ty (if sat then clampTo (tyLo ty) (tyHi ty) x else x)

/-- Quotient toward zero; division by zero gives the bounds of R152. -/
def divExact (ty : IntTy) (a b : Int) : Int :=
  if b = 0 then (if a < 0 then tyLo ty else tyHi ty) else Int.tdiv a b

/-- Remainder with the sign of a; the dividend when b is 0 (R152). -/
def remExact (a b : Int) : Int := if b = 0 then a else Int.tmod a b

/-- SIntTy as an XI type. -/
def sIntTy : SIntTy → IntTy
  | .i8 => .i8 | .i16 => .i16 | .i32 => .i32 | .i64 => .i64

def aluAdd (ty : IntTy) (sat : Bool) (l r : W64) : W64 := xiResult ty sat (valOf ty l + valOf ty r)
def aluSub (ty : IntTy) (sat : Bool) (l r : W64) : W64 := xiResult ty sat (valOf ty l - valOf ty r)
def aluMul (ty : IntTy) (sat : Bool) (l r : W64) : W64 := xiResult ty sat (valOf ty l * valOf ty r)
def aluMulh (ty : IntTy) (l r : W64) : W64 :=
  xiResult ty false ((valOf ty l * valOf ty r) / ((2 ^ ty.width : Nat) : Int))
def aluDiv (ty : IntTy) (sat : Bool) (l r : W64) : W64 :=
  xiResult ty sat (divExact ty (valOf ty l) (valOf ty r))
def aluRem (ty : IntTy) (l r : W64) : W64 := xiResult ty false (remExact (valOf ty l) (valOf ty r))
def aluMin (ty : IntTy) (l r : W64) : W64 := xiResult ty false (min (valOf ty l) (valOf ty r))
def aluMax (ty : IntTy) (l r : W64) : W64 := xiResult ty false (max (valOf ty l) (valOf ty r))
def aluAbs (ty : SIntTy) (sat : Bool) (l : W64) : W64 := xiResult (sIntTy ty) sat ((valOf (sIntTy ty) l).natAbs : Int)
def aluNeg (ty : SIntTy) (sat : Bool) (l : W64) : W64 := xiResult (sIntTy ty) sat (-(valOf (sIntTy ty) l))

/-- Width of an XB type (R107). -/
def bitWidth : BitTy → Nat
  | .b32 => 32
  | .b64 => 64

/-- The low w bits of a token, zero above (R61). -/
def cutTok (ty : BitTy) (x : W64) : W64 :=
  match ty with
  | .b32 => x &&& 0xFFFFFFFF
  | .b64 => x

def aluAnd (ty : BitTy) (l r : W64) : W64 := cutTok ty (l &&& r)
def aluOr (ty : BitTy) (l r : W64) : W64 := cutTok ty (l ||| r)
def aluXor (ty : BitTy) (l r : W64) : W64 := cutTok ty (l ^^^ r)
def aluAndn (ty : BitTy) (l r : W64) : W64 := cutTok ty (l &&& ~~~r)

/-- a × 2^n by the count n, with the results R155 states for counts of the width or more. -/
def shlExact (ty : IntTy) (sat : Bool) (a : Int) (n : Nat) : Int :=
  if n < ty.width then a * ((2 ^ n : Nat) : Int)
  else if !sat || a = 0 then 0
  else if a < 0 then tyLo ty else tyHi ty

/-- Floor(a / 2^n) (R155). -/
def shrExact (ty : IntTy) (a : Int) (n : Nat) : Int :=
  if n < ty.width then a / ((2 ^ n : Nat) : Int) else if a < 0 then -1 else 0

/-- SHL and SHLI by count `n` (R155). -/
def aluShl (ty : IntTy) (sat : Bool) (l : W64) (n : Nat) : W64 :=
  xiResult ty sat (shlExact ty sat (valOf ty l) n)

/-- SHR and SHRI by count `n` (R155). -/
def aluShr (ty : IntTy) (l : W64) (n : Nat) : W64 := xiResult ty false (shrExact ty (valOf ty l) n)

/-- The shift count of the register forms: opR[w-1:0] read unsigned (R155). -/
def shiftCount (ty : IntTy) (r : W64) : Nat := r.toNat % 2 ^ ty.width

/-- ROT: left by opR mod w (R156). -/
def aluRot (ty : BitTy) (l r : W64) : W64 :=
  let w := (bitWidth ty)
  let n := r.toNat % w
  let a := l.toNat % 2 ^ w
  tokNat (a * 2 ^ n % 2 ^ w + a / 2 ^ (w - n))

/-- BFX (R157). -/
def aluBfx (ty : IntTy) (l r : W64) : W64 :=
  let p := bitsOf r.toNat 6 0
  let m := min (bitsOf r.toNat 14 8) ty.width
  if m = 0 then 0
  else
    let f := (valOf ty l / ((2 ^ p : Nat) : Int)) % ((2 ^ m : Nat) : Int)
    let y := if ty.signed && decide (((2 ^ (m - 1) : Nat) : Int) ≤ f) then f - ((2 ^ m : Nat) : Int) else f
    extendTok ty y

/-- BFI: source L into base R under control P (R158). -/
def aluBfi (ty : BitTy) (l r p : W64) : W64 :=
  let w := (bitWidth ty)
  let pos := bitsOf p.toNat 6 0
  let n := bitsOf p.toNat 14 8
  let m := if w ≤ pos then 0 else min n (w - pos)
  let base := r.toNat % 2 ^ w
  let low := base % 2 ^ pos
  let high := base / 2 ^ (pos + m) * 2 ^ (pos + m)
  if m = 0 then tokNat base else tokNat (high + l.toNat % 2 ^ m * 2 ^ pos + low)

/-- Number of set bits among the lowest `n` bits. -/
def popCount (x : Nat) : Nat → Nat
  | 0 => 0
  | n + 1 => (x / 2 ^ n % 2) + popCount x n

/-- Zero bits above the highest set bit of the lowest `n` bits. -/
def lzCount (x : Nat) : Nat → Nat
  | 0 => 0
  | n + 1 => if x / 2 ^ n % 2 = 1 then 0 else 1 + lzCount x n

/-- Zero bits below the lowest set bit, looking at `n` bits from bit `k`. -/
def tzCount (x : Nat) : Nat → Nat → Nat
  | 0, _ => 0
  | n + 1, k => if x / 2 ^ k % 2 = 1 then 0 else 1 + tzCount x n (k + 1)

/-- Bit j becomes bit w - 1 - j. -/
def revBits (x w : Nat) : Nat → Nat
  | 0 => 0
  | n + 1 => (x / 2 ^ n % 2) * 2 ^ (w - 1 - n) + revBits x w n

def aluPopc (ty : BitTy) (l : W64) : W64 := tokNat (popCount l.toNat (bitWidth ty))
def aluClz (ty : BitTy) (l : W64) : W64 := tokNat (lzCount l.toNat (bitWidth ty))
def aluCtz (ty : BitTy) (l : W64) : W64 := tokNat (tzCount l.toNat (bitWidth ty) 0)
def aluBrev (ty : BitTy) (l : W64) : W64 := tokNat (revBits l.toNat (bitWidth ty) (bitWidth ty))

/-- LEA (R160). -/
def aluLea (sh : Nat) (ix : IxTy) (l r : W64) : W64 :=
  let idx : W64 := match ix with
    | .i32 => BitVec.ofInt 64 (signedOf r.toNat 32)
    | .n32 => r &&& 0xFFFFFFFF
    | .i64 => r
  l + idx <<< sh

/-- SEL (R161). -/
def aluSel (ty : BitTy) (l r p : W64) : W64 := cutTok ty (if p.toNat % 2 = 1 then l else r)

/-- Bits of an XC width (R107). -/
def cwBits : CWidth → Nat
  | .w8 => 8 | .w16 => 16 | .w32 => 32 | .w64 => 64

/-- A condition on two integers (R162). -/
def condHolds (c : Cond) (a b : Int) : Bool :=
  match c with
  | .eq => a == b
  | .ne => a != b
  | .lt => decide (a < b)
  | .le => decide (a ≤ b)
  | .gt => decide (b < a)
  | .ge => decide (b ≤ a)

/-- The compare operand: the low bits of a number, signed or unsigned (R162). -/
def cmpVal (signed : Bool) (w : CWidth) (x : Nat) : Int :=
  if signed then signedOf x (cwBits w) else ((x % 2 ^ (cwBits w) : Nat) : Int)

/-- CMP (R162). -/
def aluCmp (signed : Bool) (c : Cond) (w : CWidth) (l r : W64) : W64 :=
  predTok (condHolds c (cmpVal signed w l.toNat) (cmpVal signed w r.toNat))

/-- CMPI against an immediate: taken at its value, reduced modulo 2^w when unsigned (R162). -/
def aluCmpImm (signed : Bool) (c : Cond) (w : CWidth) (l : W64) (i : Int) : W64 :=
  let b : Int := if signed then i else (wrapTo i (cwBits w) : Int)
  predTok (condHolds c (cmpVal signed w l.toNat) b)

/-- Bit 0 of a token as a predicate (R141). -/
def predOfTok (x : W64) : Bool := x.toNat % 2 == 1

def aluPand (l r : W64) : W64 := predTok (predOfTok l && predOfTok r)
def aluPor (l r : W64) : W64 := predTok (predOfTok l || predOfTok r)
def aluPxor (l r : W64) : W64 := predTok (predOfTok l != predOfTok r)
def aluPnot (l : W64) : W64 := predTok (!predOfTok l)

/-- An immediate of a bitwise form, sign-extended to 64 bits (R154). -/
def immTok (i : Int) : W64 := BitVec.ofInt 64 i

end Sys2Proof.Machine
end

