-- ==== Sys2Proof/Machine/Float.lean ====
section
/-! DEFINITION. IEEE binary formats (R63 to R71): exact values, one rounding, the exception kinds,
and the operations of R67, R68, R184 to R189 and R192 on bit patterns. -/

namespace Sys2Proof.Machine

/-- A binary format: exponent bits and fraction bits (R63). -/
structure Fmt where
  eb : Nat
  fb : Nat
  deriving DecidableEq, Repr

def Fmt.f32 : Fmt := ⟨8, 23⟩
def Fmt.f16 : Fmt := ⟨5, 10⟩
def Fmt.bf16 : Fmt := ⟨8, 7⟩

def Fmt.width (F : Fmt) : Nat := 1 + F.eb + F.fb
def Fmt.bias (F : Fmt) : Nat := 2 ^ (F.eb - 1) - 1
/-- Magnitude code of infinity. -/
def Fmt.infCode (F : Fmt) : Nat := (2 ^ F.eb - 1) * 2 ^ F.fb
/-- The canonical NaN (R63). -/
def Fmt.nan (F : Fmt) : Nat := F.infCode + 2 ^ (F.fb - 1)
/-- Exponent of the least normal number. -/
def Fmt.emin (F : Fmt) : Int := 1 - (F.bias : Int)

/-- The kinds of exception a firing counts (R69). -/
structure FFlags where
  invalid : Bool := false
  divZero : Bool := false
  overflow : Bool := false
  underflow : Bool := false
  inexact : Bool := false
  deriving DecidableEq, Repr

def FFlags.none : FFlags := {}
def FFlags.inv : FFlags := { invalid := true }

/-- Each kind at most once per firing (R69). -/
def FFlags.or (a b : FFlags) : FFlags :=
  ⟨a.invalid || b.invalid, a.divZero || b.divZero, a.overflow || b.overflow,
   a.underflow || b.underflow, a.inexact || b.inexact⟩

/-- A result: the format's bits and the exceptions raised. -/
structure FRes where
  bits : Nat
  fl : FFlags
  deriving DecidableEq, Repr

/-- The value a code stands for: a NaN, an infinity, or `(-1)^s * m * 2^e`, zero when `m` is 0. -/
inductive FVal where
  | nan (signalling : Bool)
  | inf (s : Bool)
  | fin (s : Bool) (m : Nat) (e : Int)
  deriving DecidableEq, Repr

/-- The value of the low bits of `n` in a format (R63, R64). -/
def Fmt.decode (F : Fmt) (n : Nat) : FVal :=
  let s := n / 2 ^ (F.eb + F.fb) % 2 == 1
  let x := n / 2 ^ F.fb % 2 ^ F.eb
  let f := n % 2 ^ F.fb
  if x = 2 ^ F.eb - 1 then
    if f = 0 then .inf s else .nan (f / 2 ^ (F.fb - 1) == 0)
  else if x = 0 then .fin s f (F.emin - F.fb)
  else .fin s (2 ^ F.fb + f) ((x : Int) - F.bias - F.fb)

def FVal.isNan : FVal → Bool
  | .nan _ => true
  | _ => false

def FVal.isSignalling : FVal → Bool
  | .nan g => g
  | _ => false

def FVal.isZero : FVal → Bool
  | .fin _ m _ => m == 0
  | _ => false

/-- The sign bit of a format. -/
def Fmt.signBit (F : Fmt) (s : Bool) : Nat := if s then 2 ^ (F.eb + F.fb) else 0

def Fmt.inf (F : Fmt) (s : Bool) : Nat := F.signBit s + F.infCode
def Fmt.zero (F : Fmt) (s : Bool) : Nat := F.signBit s

/-- Invalid exactly when a signalling NaN came in (R64). -/
def nanFlags (vs : List FVal) : FFlags := { invalid := vs.any FVal.isSignalling }

/-- A positive value cut at the exponent `q` and rounded: the integer of units `2^q` and whether it
is inexact. `sticky` says that the exact value lies strictly between `m` and `m + 1` units of `2^e`. -/
def roundAt (r : Rnd) (s : Bool) (m : Nat) (e : Int) (sticky : Bool) (q : Int) : Nat × Bool :=
  if q ≤ e then
    let n := m * 2 ^ (e - q).toNat
    (if sticky && ((r == .rup && !s) || (r == .rdn && s)) then n + 1 else n, sticky)
  else
    let d := (q - e).toNat
    let n := m / 2 ^ d
    let rem := m % 2 ^ d
    let inexact := rem != 0 || sticky
    let up : Bool := match r with
      | .rne => decide (2 * rem > 2 ^ d) || (2 * rem == 2 ^ d && (sticky || n % 2 == 1))
      | .rtz => false
      | .rup => inexact && !s
      | .rdn => inexact && s
    (if up then n + 1 else n, inexact)

/-- The exact value `(-1)^s * m * 2^e` (with `sticky`, strictly above it in magnitude by less than
one unit) rounded once to the format (R65), with overflow, underflow after rounding, and inexact
(R69). -/
def Fmt.round (F : Fmt) (r : Rnd) (s : Bool) (m : Nat) (e : Int) (sticky : Bool := false) : FRes :=
  if m = 0 then ⟨F.zero s, { inexact := sticky }⟩
  else
    let top : Int := e + m.log2
    let q := top - F.fb
    let qmin := F.emin - F.fb
    let a := roundAt r s m e sticky (max q qmin)
    let code := if q < qmin then a.1 else ((q - qmin).toNat) * 2 ^ F.fb + a.1
    if F.infCode ≤ code then
      let toInf := match r with
        | .rne => true
        | .rtz => false
        | .rup => !s
        | .rdn => s
      ⟨F.signBit s + (if toInf then F.infCode else F.infCode - 1),
       { overflow := true, inexact := true }⟩
    else
      let u := roundAt r s m e sticky q
      let tiny := decide (top < F.emin) &&
        !(top + 1 == F.emin && u.1 == 2 ^ (F.fb + 1))
      ⟨F.signBit s + code, { underflow := tiny && a.2, inexact := a.2 }⟩

/-- An exact signed number `v * 2^e`; a zero takes the sign `z`. -/
def Fmt.roundInt (F : Fmt) (r : Rnd) (v : Int) (e : Int) (z : Bool) : FRes :=
  if v = 0 then ⟨F.zero z, {}⟩ else F.round r (decide (v < 0)) v.natAbs e

def signedMant (s : Bool) (m : Nat) : Int := if s then -(m : Int) else m

/-- The sum of two exact numbers, at the smaller exponent. -/
def addExact (s1 : Bool) (m1 : Nat) (e1 : Int) (s2 : Bool) (m2 : Nat) (e2 : Int) : Int × Int :=
  let e := min e1 e2
  (signedMant s1 (m1 * 2 ^ (e1 - e).toNat) + signedMant s2 (m2 * 2 ^ (e2 - e).toNat), e)

/-- The sign of an exact zero sum (R184). -/
def zeroSumSign (r : Rnd) (z1 s1 z2 s2 : Bool) : Bool :=
  if z1 && z2 && s1 == s2 then s1 else r == .rdn

/-- The sum of two values, rounded once (R184). -/
def Fmt.addV (F : Fmt) (r : Rnd) (a b : FVal) : FRes :=
  match a, b with
  | .nan _, _ | _, .nan _ => ⟨F.nan, nanFlags [a, b]⟩
  | .inf s, .inf t => if s == t then ⟨F.inf s, {}⟩ else ⟨F.nan, .inv⟩
  | .inf s, .fin .. => ⟨F.inf s, {}⟩
  | .fin .., .inf t => ⟨F.inf t, {}⟩
  | .fin s m e, .fin t n g =>
    let x := addExact s m e t n g
    F.roundInt r x.1 x.2 (zeroSumSign r (m == 0) s (n == 0) t)

def FVal.neg : FVal → FVal
  | .nan g => .nan g
  | .inf s => .inf (!s)
  | .fin s m e => .fin (!s) m e

def Fmt.add (F : Fmt) (r : Rnd) (a b : Nat) : FRes := F.addV r (F.decode a) (F.decode b)
def Fmt.sub (F : Fmt) (r : Rnd) (a b : Nat) : FRes := F.addV r (F.decode a) (F.decode b).neg

/-- The product, rounded once (R184). -/
def Fmt.mul (F : Fmt) (r : Rnd) (a b : Nat) : FRes :=
  match F.decode a, F.decode b with
  | .fin s m e, .fin t n g => F.round r (s != t) (m * n) (e + g)
  | .inf s, .fin t n _ => if n = 0 then ⟨F.nan, .inv⟩ else ⟨F.inf (s != t), {}⟩
  | .fin s m _, .inf t => if m = 0 then ⟨F.nan, .inv⟩ else ⟨F.inf (s != t), {}⟩
  | .inf s, .inf t => ⟨F.inf (s != t), {}⟩
  | x, y => ⟨F.nan, nanFlags [x, y]⟩

/-- a * b + c with one rounding (R184). -/
def Fmt.fma (F : Fmt) (r : Rnd) (a b c : Nat) : FRes :=
  let va := F.decode a
  let vb := F.decode b
  let vc := F.decode c
  let zeroByInf := match va, vb with
    | .inf _, .fin _ n _ => n == 0
    | .fin _ m _, .inf _ => m == 0
    | _, _ => false
  if zeroByInf then ⟨F.nan, .inv⟩
  else if va.isNan || vb.isNan || vc.isNan then ⟨F.nan, nanFlags [va, vb, vc]⟩
  else
    let p : FVal := match va, vb with
      | .fin s m e, .fin t n g => .fin (s != t) (m * n) (e + g)
      | .inf s, .inf t => .inf (s != t)
      | .inf s, .fin t _ _ => .inf (s != t)
      | .fin s _ _, .inf t => .inf (s != t)
      | v, _ => v
    F.addV r p vc

/-- Order key of a non-NaN code: -0 below +0 (R67). -/
def Fmt.key (F : Fmt) (n : Nat) : Int :=
  let m := n % 2 ^ (F.eb + F.fb)
  if n / 2 ^ (F.eb + F.fb) % 2 = 1 then -(m : Int) - 1 else m

/-- minimumNumber (R67, R185). -/
def Fmt.minNum (F : Fmt) (a b : Nat) : FRes :=
  let va := F.decode a
  let vb := F.decode b
  let fl := nanFlags [va, vb]
  if va.isNan && vb.isNan then ⟨F.nan, fl⟩
  else if va.isNan then ⟨b % 2 ^ F.width, fl⟩
  else if vb.isNan then ⟨a % 2 ^ F.width, fl⟩
  else ⟨(if F.key a ≤ F.key b then a else b) % 2 ^ F.width, fl⟩

/-- maximumNumber (R67, R185). -/
def Fmt.maxNum (F : Fmt) (a b : Nat) : FRes :=
  let va := F.decode a
  let vb := F.decode b
  let fl := nanFlags [va, vb]
  if va.isNan && vb.isNan then ⟨F.nan, fl⟩
  else if va.isNan then ⟨b % 2 ^ F.width, fl⟩
  else if vb.isNan then ⟨a % 2 ^ F.width, fl⟩
  else ⟨(if F.key b ≤ F.key a then a else b) % 2 ^ F.width, fl⟩

/-- Comparison of two non-NaN values, -0 equal to +0. -/
def Fmt.lt (F : Fmt) (a b : Nat) : Bool :=
  let za := (F.decode a).isZero
  let zb := (F.decode b).isZero
  !(za && zb) && decide (F.key a < F.key b)

def Fmt.eqv (F : Fmt) (a b : Nat) : Bool :=
  ((F.decode a).isZero && (F.decode b).isZero) || F.key a == F.key b

/-- FCMP (R186): the predicate and whether invalid is counted. -/
def Fmt.cmp (F : Fmt) (c : FCond) (a b : Nat) : Bool × FFlags :=
  let va := F.decode a
  let vb := F.decode b
  let un := va.isNan || vb.isNan
  let res := match c with
    | .eq => !un && F.eqv a b
    | .ne => un || !F.eqv a b
    | .lt => !un && F.lt a b
    | .le => !un && (F.lt a b || F.eqv a b)
    | .gt => !un && F.lt b a
    | .ge => !un && (F.lt b a || F.eqv a b)
    | .un => un
    | .ord => !un
  (res, nanFlags [va, vb])

/-- Bits of quotient and root kept before the one rounding: well above any format's significand. -/
def guardBits : Nat := 64

/-- Division (R68). -/
def Fmt.div (F : Fmt) (r : Rnd) (a b : Nat) : FRes :=
  match F.decode a, F.decode b with
  | .fin s m e, .fin t n g =>
    let sg := s != t
    if n = 0 then
      if m = 0 then ⟨F.nan, .inv⟩ else ⟨F.inf sg, { divZero := true }⟩
    else if m = 0 then ⟨F.zero sg, {}⟩
    else
      let q := m * 2 ^ guardBits / n
      F.round r sg q (e - g - guardBits) (m * 2 ^ guardBits % n != 0)
  | .inf s, .fin t _ _ => ⟨F.inf (s != t), {}⟩
  | .fin s _ _, .inf t => ⟨F.zero (s != t), {}⟩
  | .inf _, .inf _ => ⟨F.nan, .inv⟩
  | x, y => ⟨F.nan, nanFlags [x, y]⟩

/-- The integer square root of `n`, found bit by bit from bit `k - 1` down. -/
def isqrtFrom (n : Nat) : Nat → Nat → Nat
  | 0, acc => acc
  | k + 1, acc =>
    let c := acc + 2 ^ k
    isqrtFrom n k (if c * c ≤ n then c else acc)

/-- The integer square root. -/
def isqrt (n : Nat) : Nat := isqrtFrom n (n.log2 / 2 + 1) 0

/-- Square root (R68). -/
def Fmt.sqrt (F : Fmt) (r : Rnd) (a : Nat) : FRes :=
  match F.decode a with
  | .nan g => ⟨F.nan, { invalid := g }⟩
  | .inf s => if s then ⟨F.nan, .inv⟩ else ⟨F.inf false, {}⟩
  | .fin s m e =>
    if m = 0 then ⟨F.zero s, {}⟩
    else if s then ⟨F.nan, .inv⟩
    else
      let m2 := if e % 2 = 0 then m else 2 * m
      let e2 := if e % 2 = 0 then e else e - 1
      let n := m2 * 2 ^ (2 * guardBits)
      let q := isqrt n
      F.round r false q (e2 / 2 - guardBits) (q * q != n)

/-- Reciprocal (R68). -/
def Fmt.rcp (F : Fmt) (r : Rnd) (a : Nat) : FRes :=
  match F.decode a with
  | .nan g => ⟨F.nan, { invalid := g }⟩
  | .inf s => ⟨F.zero s, {}⟩
  | .fin s m e =>
    if m = 0 then ⟨F.inf s, { divZero := true }⟩
    else
      let q := 2 ^ (2 * guardBits) / m
      F.round r s q (-e - 2 * (guardBits : Int)) (2 ^ (2 * guardBits) % m != 0)

/-- Reciprocal square root (R68). -/
def Fmt.rsq (F : Fmt) (r : Rnd) (a : Nat) : FRes :=
  match F.decode a with
  | .nan g => ⟨F.nan, { invalid := g }⟩
  | .inf s => if s then ⟨F.nan, .inv⟩ else ⟨F.zero false, {}⟩
  | .fin s m e =>
    if m = 0 then ⟨F.inf s, { divZero := true }⟩
    else if s then ⟨F.nan, .inv⟩
    else
      let m2 := if e % 2 = 0 then m else 2 * m
      let e2 := if e % 2 = 0 then e else e - 1
      let n := 2 ^ (4 * guardBits) / m2
      let q := isqrt n
      F.round r false q (-(e2 / 2) - 2 * (guardBits : Int)) (q * q * m2 != 2 ^ (4 * guardBits))

/-! Transcendental functions (R68): a fixed-point value of 512 fraction bits, cut down, then one
rounding. No result other than the exact cases named is a dyadic number, so the rounding is decided
far above the last of these bits. -/

def fixBits : Nat := 512

/-- ⌊ln 2 × 2^512⌋. -/
def ln2Fix : Nat :=
  0xb17217f7d1cf79abc9e3b39803f2f6af40f343267298b62d8a0d175b8baafa2be7b876206debac98559552fb4afa1b10ed2eae35c138214427573b291169b825

/-- ⌊π × 2^512⌋. -/
def piFix : Nat :=
  0x3243f6a8885a308d313198a2e03707344a4093822299f31d0082efa98ec4e6c89452821e638d01377be5466cf34e90c6cc0ac29b7c97c50dd3f84d5b5b5470917

/-- The terms `t^k / k!` from the given one on, summed. -/
def expTail (t : Nat) : Nat → Nat → Nat → Nat
  | 0, _, _ => 0
  | fuel + 1, k, term => term + expTail t fuel (k + 1) (term * t / 2 ^ fixBits / (k + 1))

/-- e^t for 0 ≤ t < 1 in fixed point. -/
def expFix (t : Nat) : Nat := expTail t 120 0 (2 ^ fixBits)

/-- Alternating terms of the sine (from k = 1) and cosine (from k = 0) series. -/
def trigTail (t2 : Nat) : Nat → Nat → Nat → Int
  | 0, _, _ => 0
  | fuel + 1, k, term =>
    (term : Int) - trigTail t2 fuel (k + 2) (term * t2 / 2 ^ fixBits / ((k + 1) * (k + 2)))

def sinFix (t : Nat) : Nat := (trigTail (t * t / 2 ^ fixBits) 80 1 t).toNat
def cosFix (t : Nat) : Nat := (trigTail (t * t / 2 ^ fixBits) 80 0 (2 ^ fixBits)).toNat

/-- The terms `z^k / k` over odd `k`. -/
def atanhTail (z2 : Nat) : Nat → Nat → Nat → Nat
  | 0, _, _ => 0
  | fuel + 1, k, p => p / k + atanhTail z2 fuel (k + 2) (p * z2 / 2 ^ fixBits)

/-- log2 of a number in [1, 2) given in fixed point. -/
def log2Fix (x : Nat) : Nat :=
  let z := (x - 2 ^ fixBits) * 2 ^ fixBits / (x + 2 ^ fixBits)
  2 * atanhTail (z * z / 2 ^ fixBits) 180 1 z * 2 ^ fixBits / ln2Fix

/-- 2^x (R68). The magnitude is cut to ±2^20 first: beyond it every format over- or underflows. (log 62, DEDUCED) -/
def Fmt.exp2 (F : Fmt) (r : Rnd) (a : Nat) : FRes :=
  match F.decode a with
  | .nan g => ⟨F.nan, { invalid := g }⟩
  | .inf s => if s then ⟨F.zero false, {}⟩ else ⟨F.inf false, {}⟩
  | .fin s m e =>
    if m = 0 then F.round r false 1 0
    else if (20 : Int) ≤ e + m.log2 then
      if s then F.round r false 1 (-(2 ^ 20 : Nat)) else F.round r false 1 (2 ^ 20 : Nat)
    else
      -- x = v / 2^k exactly
      let k := (max 0 (-e)).toNat
      let v : Int := signedMant s (m * 2 ^ (e + k).toNat)
      let n := v / (2 ^ k : Nat)
      let f := (v % (2 ^ k : Nat)).toNat
      if f = 0 then F.round r false 1 n
      else
        let t := f * ln2Fix / 2 ^ k
        F.round r false (max (expFix t) (2 ^ fixBits)) (n - fixBits) true

/-- log2 x (R68). (log 62, DEDUCED) -/
def Fmt.log2 (F : Fmt) (r : Rnd) (a : Nat) : FRes :=
  match F.decode a with
  | .nan g => ⟨F.nan, { invalid := g }⟩
  | .inf s => if s then ⟨F.nan, .inv⟩ else ⟨F.inf false, {}⟩
  | .fin s m e =>
    if m = 0 then ⟨F.inf true, { divZero := true }⟩
    else if s then ⟨F.nan, .inv⟩
    else
      let l := m.log2
      let n : Int := e + l
      if m = 2 ^ l then F.roundInt r n 0 false
      else
        let f : Int := n * (2 ^ fixBits : Nat) + log2Fix (m * 2 ^ fixBits / 2 ^ l)
        if 0 ≤ f then F.round r false f.toNat (-(fixBits : Int)) true
        else F.round r true (-f - 1).toNat (-(fixBits : Int)) true

/-- The fraction |x| mod 2 in units of 2^-k, exactly: the pair (numerator, k). -/
def mod2Of (m : Nat) (e : Int) : Nat × Nat :=
  let k := (max 0 (-e)).toNat
  (m * 2 ^ (e + k).toNat % 2 ^ (k + 1), k)

/-- sin(π u / 2^k) for 0 < u < 2^k, in fixed point. -/
def sinPiFix (u k : Nat) : Nat :=
  let w := min u (2 ^ k - u)
  sinFix (w * piFix / 2 ^ k)

/-- sin(πx) (R68). -/
def Fmt.sinPi (F : Fmt) (r : Rnd) (a : Nat) : FRes :=
  match F.decode a with
  | .nan g => ⟨F.nan, { invalid := g }⟩
  | .inf _ => ⟨F.nan, .inv⟩
  | .fin s m e =>
    if m = 0 then ⟨F.zero s, {}⟩
    else
      let p := mod2Of m e
      let k := p.2
      if p.1 % 2 ^ k = 0 then ⟨F.zero s, {}⟩
      else
        let neg := s != decide (2 ^ k < p.1)
        let u := p.1 % 2 ^ k
        if 2 * u = 2 ^ k then F.round r neg 1 0
        else F.round r neg (sinPiFix u k) (-(fixBits : Int)) true

/-- cos(πx) (R68). -/
def Fmt.cosPi (F : Fmt) (r : Rnd) (a : Nat) : FRes :=
  match F.decode a with
  | .nan g => ⟨F.nan, { invalid := g }⟩
  | .inf _ => ⟨F.nan, .inv⟩
  | .fin _ m e =>
    if m = 0 then F.round r false 1 0
    else
      let p := mod2Of m e
      let k := p.2
      let u := p.1
      if u = 0 then F.round r false 1 0
      else if u = 2 ^ k then F.round r true 1 0
      else if 2 * u = 2 ^ k || 2 * u = 3 * 2 ^ k then ⟨F.zero false, {}⟩
      else
        -- |cos(πy)| with y folded into (0, 1/2)
        let v := if u < 2 ^ k then u else 2 * 2 ^ k - u
        let neg := decide (2 ^ k < 2 * v)
        let w := if neg then 2 ^ k - v else v
        F.round r neg (min (cosFix (w * piFix / 2 ^ k)) (2 ^ fixBits - 1)) (-(fixBits : Int)) true

/-- FRND (R188): an integral value, with no event but invalid for a signalling NaN. -/
def Fmt.rint (F : Fmt) (r : Rnd) (a : Nat) : FRes :=
  match F.decode a with
  | .nan g => ⟨F.nan, { invalid := g }⟩
  | .inf s => ⟨F.inf s, {}⟩
  | .fin s m e =>
    if 0 ≤ e || m == 0 then ⟨a % 2 ^ F.width, {}⟩
    else
      let n := (roundAt r s m e false 0).1
      ⟨(F.round .rne s n 0).bits, {}⟩

/-- FCLASS (R189): the one-hot class mask. -/
def Fmt.classMask (F : Fmt) (a : Nat) : Nat :=
  match F.decode a with
  | .nan g => if g then 1 else 2
  | .inf s => if s then 4 else 2 ^ 9
  | .fin s m _ =>
    let sub := a / 2 ^ F.fb % 2 ^ F.eb == 0
    if m = 0 then (if s then 2 ^ 5 else 2 ^ 6)
    else if sub then (if s then 2 ^ 4 else 2 ^ 7)
    else if s then 2 ^ 3 else 2 ^ 8

/-- One format to another, rounded once (R71). -/
def Fmt.convert (F G : Fmt) (r : Rnd) (a : Nat) : FRes :=
  match F.decode a with
  | .nan g => ⟨G.nan, { invalid := g }⟩
  | .inf s => ⟨G.inf s, {}⟩
  | .fin s m e => if m = 0 then ⟨G.zero s, {}⟩ else G.round r s m e

/-- An integer to a format (R71). -/
def Fmt.ofInt (F : Fmt) (r : Rnd) (v : Int) : FRes := F.roundInt r v 0 false

/-- A format to an integer range [lo, hi] (R71). -/
def Fmt.toInt (F : Fmt) (r : Rnd) (lo hi : Int) (a : Nat) : Int × FFlags :=
  match F.decode a with
  | .nan _ => (0, .inv)
  | .inf s => (if s then lo else hi, .inv)
  | .fin s m e =>
    let x := roundAt r s m e false 0
    let v := signedMant s x.1
    if v < lo then (lo, .inv)
    else if hi < v then (hi, .inv)
    else (v, { inexact := x.2 })

/-- A code with its sign cleared, then inverted where asked (R66, R182). -/
def Fmt.modify (F : Fmt) (clear flip : Bool) (a : Nat) : Nat :=
  let m := a % 2 ^ (F.eb + F.fb)
  let s := if clear then false else a / 2 ^ (F.eb + F.fb) % 2 == 1
  F.signBit (s != flip) + m

end Sys2Proof.Machine
end

