-- ==== Sys2Proof/Machine/LogFmt.lean ====
section
/-! DEFINITION. The logarithmic formats L6 and L8 (R72 to R78, R81, R82) and the fixed-point mass
of R84. -/

namespace Sys2Proof.Machine

/-- P of R74: the steps of one octave, 4 for L6 and 8 for L8. -/
def logP : LogFmt → Nat
  | .l6 => 4
  | .l8 => 8

/-- Bits of a code (R72, R73). -/
def logWidth : LogFmt → Nat
  | .l6 => 6
  | .l8 => 8

/-- The mantissa tables of R75. -/
def logMant : LogFmt → Nat → Nat
  | .l6, i => [0x8000, 0x9838, 0xB505, 0xD745].getD i 0
  | .l8, i => [0x8000, 0x8B96, 0x9838, 0xA5FF, 0xB505, 0xC567, 0xD745, 0xEAC1].getD i 0

/-- The threshold constants of R82. -/
def logThresholds : LogFmt → List Nat
  | .l6 => [0x008B95C1, 0x00A5FED6, 0x00C5672A, 0x00EAC0C6]
  | .l8 => [0x0085AAC3, 0x0091C3D3, 0x009EF532, 0x00AD583E,
            0x00BD08A3, 0x00CE248C, 0x00E0CCDE, 0x00F5257D]

/-- Sign bit of a code. -/
def logSign (f : LogFmt) (c : Nat) : Bool := c / 2 ^ (logWidth f - 1) % 2 == 1

/-- The log field as a signed number (R72, R73). -/
def logQ (f : LogFmt) (c : Nat) : Int := signedOf c (logWidth f - 1)

/-- Whether the log field is the zero code. -/
def logIsZero (f : LogFmt) (c : Nat) : Bool := logQ f c == -((logP f * logP f : Nat) : Int)

/-- A code of sign `s` and log `q`. -/
def logCode (f : LogFmt) (s : Bool) (q : Int) : Nat :=
  (if s then 2 ^ (logWidth f - 1) else 0) + wrapTo q (logWidth f - 1)

/-- Zero with a sign (R72, R73). -/
def logZero (f : LogFmt) (s : Bool) : Nat := logCode f s (-((logP f * logP f : Nat) : Int))

/-- The decoded value of a code with block scale E, rounded once to a format (R75, R195). -/
def logDecode (f : LogFmt) (F : Fmt) (r : Rnd) (c : Nat) (e : Int) : FRes :=
  if logIsZero f c then ⟨F.zero (logSign f c), {}⟩
  else
    let q := logQ f c
    let n := q / (logP f : Nat)
    let i := (q - (logP f : Nat) * n).toNat
    F.round r (logSign f c) (logMant f i) (n + e - 15)

/-- FP32 to a log code with block scale E (R81): the code, and whether a NaN was flushed. -/
def logConvert (f : LogFmt) (x : Nat) (e : Int) : Nat × Bool :=
  let pp : Int := (logP f * logP f : Nat)
  match Fmt.f32.decode x with
  | .nan _ => (logZero f false, true)
  | .inf s => (logCode f s (pp - 1), false)
  | .fin s m ex =>
    if m = 0 then (logZero f s, false)
    else
      let l := m.log2
      let sig := if l ≤ 23 then m * 2 ^ (23 - l) else m / 2 ^ (l - 23)
      let ee : Int := ex + l
      let j := ((logThresholds f).filter (fun c => c < sig)).length
      let q := (logP f : Nat) * (ee - e) + j
      if q ≤ -pp then (logZero f s, false)
      else (logCode f s (min q (pp - 1)), false)

/-- The signed term of one pair of codes, in the unit of R77. -/
def logTerm (f : LogFmt) (a b : Nat) : Int :=
  if logIsZero f a || logIsZero f b then 0
  else
    let q := logQ f a + logQ f b
    let n := q / (logP f : Nat)
    let i := (q - (logP f : Nat) * n).toNat
    let sh := (n + (match f with | .l6 => 8 | .l8 => 16)).toNat
    signedMant (logSign f a != logSign f b) (logMant f i * 2 ^ sh)

/-- The exact sum of a block's terms (R77). -/
def logSum (f : LogFmt) (ps : List (Nat × Nat)) : Int :=
  ps.foldl (fun acc p => acc + logTerm f p.1 p.2) 0

/-- The block sum rounded to FP32, scaled by the two block scales; exactly zero gives +0 (R77, R78). -/
def logBlock (f : LogFmt) (s ea eb : Int) : FRes :=
  Fmt.f32.roundInt .rne s (ea + eb - (match f with | .l6 => 23 | .l8 => 31)) false

/-- FP32 to the Q12.20 mass (R84). -/
def massOf (x : Nat) : Nat :=
  match Fmt.f32.decode x with
  | .nan _ => 0
  | .inf s => if s then 0 else 0xFFFFFFFF
  | .fin s m e => if s then 0 else min (roundAt .rne false m e false (-20)).1 0xFFFFFFFF

/-- Addition of masses saturates (R84). -/
def massAdd (a b : Nat) : Nat := min (a + b) 0xFFFFFFFF

/-- The code at position p of packed codes (R76). -/
def logPick (f : LogFmt) (packed p : Nat) : Nat := packed / 2 ^ (logWidth f * p) % 2 ^ logWidth f

end Sys2Proof.Machine
end

