-- ==== Sys2Proof/Machine/FloatOps.lean ====
section
/-! DEFINITION. Results of classes FPU and CVT over operand tokens (R181 to R196). -/

namespace Sys2Proof.Machine

/-- What a firing computes: the result token, the exceptions of each half, and the NaN flushes of a
conversion to a log format (R69, R83). -/
structure FireRes where
  val : W64
  fls : List FFlags := []
  flush : Nat := 0
  deriving DecidableEq, Repr

/-- A result with no exception. -/
def FireRes.pure (v : W64) : FireRes := { val := v }

/-- The format of a scalar suffix (R63). -/
def sfmt : SFmt → Fmt
  | .f32 => .f32 | .f16 => .f16 | .bf16 => .bf16

/-- The element format of an FPU suffix, and whether it is packed (R70). -/
def ffmt : FFmt → Fmt × Bool
  | .f32 => (.f32, false) | .f16 => (.f16, false) | .bf16 => (.bf16, false)
  | .f16x2 => (.f16, true) | .bf16x2 => (.bf16, true)

/-- The L modifier: clear, then invert (R182). -/
def modL (F : Fmt) (lm : LMod) (a : Nat) : Nat :=
  match lm with
  | .none => F.modify false false a
  | .negl => F.modify false true a
  | .absl => F.modify true false a
  | .nabsl => F.modify true true a

/-- The negate bit on R, or on P of FFMA (R182). -/
def modN (F : Fmt) (ng : Bool) (a : Nat) : Nat := F.modify false ng a

/-- An operation on one value, or on the two halves independently (R70, R190). -/
def onHalves (f : FFmt) (g : Fmt → Nat → Nat → Nat → FRes) (l r p : W64) : FireRes :=
  let F := (ffmt f).1
  let w := F.width
  let part (k : Nat) : FRes :=
    g F (l.toNat / 2 ^ k % 2 ^ w) (r.toNat / 2 ^ k % 2 ^ w) (p.toNat / 2 ^ k % 2 ^ w)
  if (ffmt f).2 then
    { val := tokNat ((part 16).bits * 2 ^ 16 + (part 0).bits), fls := [(part 0).fl, (part 16).fl] }
  else { val := tokNat (part 0).bits, fls := [(part 0).fl] }

def fpuAdd (f : FFmt) (rm : Rnd) (lm : LMod) (ng : Bool) (l r : W64) : FireRes :=
  onHalves f (fun F a b _ => F.add rm (modL F lm a) (modN F ng b)) l r 0
def fpuSub (f : FFmt) (rm : Rnd) (lm : LMod) (ng : Bool) (l r : W64) : FireRes :=
  onHalves f (fun F a b _ => F.sub rm (modL F lm a) (modN F ng b)) l r 0
def fpuMul (f : FFmt) (rm : Rnd) (lm : LMod) (ng : Bool) (l r : W64) : FireRes :=
  onHalves f (fun F a b _ => F.mul rm (modL F lm a) (modN F ng b)) l r 0
def fpuFma (f : FFmt) (rm : Rnd) (lm : LMod) (ng : Bool) (l r p : W64) : FireRes :=
  onHalves f (fun F a b c => F.fma rm (modL F lm a) b (modN F ng c)) l r p
/-- FMIN and FMAX ignore the rounding mode (R185). -/
def fpuMin (f : FFmt) (lm : LMod) (ng : Bool) (l r : W64) : FireRes :=
  onHalves f (fun F a b _ => F.minNum (modL F lm a) (modN F ng b)) l r 0
def fpuMax (f : FFmt) (lm : LMod) (ng : Bool) (l r : W64) : FireRes :=
  onHalves f (fun F a b _ => F.maxNum (modL F lm a) (modN F ng b)) l r 0

/-- FCMP: bit 0, and bit 1 for the high half of a packed form (R70, R186). -/
def fpuCmp (f : FFmt) (c : FCond) (l r : W64) : FireRes :=
  let F := (ffmt f).1
  let w := F.width
  let part (k : Nat) := F.cmp c (l.toNat / 2 ^ k % 2 ^ w) (r.toNat / 2 ^ k % 2 ^ w)
  let b0 := part 0
  if (ffmt f).2 then
    let b1 := part 16
    { val := tokNat (bit b1.1 * 2 + bit b0.1), fls := [b0.2, b1.2] }
  else { val := predTok b0.1, fls := [b0.2] }

/-- A scalar operation on one value. -/
def onScalar (f : SFmt) (g : Fmt → Nat → Nat → FRes) (l r : W64) : FireRes :=
  let F := sfmt f
  let x := g F (l.toNat % 2 ^ F.width) (r.toNat % 2 ^ F.width)
  { val := tokNat x.bits, fls := [x.fl] }

def fpuDiv (f : SFmt) (rm : Rnd) (lm : LMod) (ng : Bool) (l r : W64) : FireRes :=
  onScalar f (fun F a b => F.div rm (modL F lm a) (modN F ng b)) l r
def fpuSqrt (f : SFmt) (rm : Rnd) (lm : LMod) (l : W64) : FireRes :=
  onScalar f (fun F a _ => F.sqrt rm (modL F lm a)) l 0
def fpuRcp (f : SFmt) (rm : Rnd) (lm : LMod) (l : W64) : FireRes :=
  onScalar f (fun F a _ => F.rcp rm (modL F lm a)) l 0
def fpuRsq (f : SFmt) (rm : Rnd) (lm : LMod) (l : W64) : FireRes :=
  onScalar f (fun F a _ => F.rsq rm (modL F lm a)) l 0
def fpuExp2 (f : SFmt) (rm : Rnd) (lm : LMod) (l : W64) : FireRes :=
  onScalar f (fun F a _ => F.exp2 rm (modL F lm a)) l 0
def fpuLog2 (f : SFmt) (rm : Rnd) (lm : LMod) (l : W64) : FireRes :=
  onScalar f (fun F a _ => F.log2 rm (modL F lm a)) l 0
def fpuSinPi (f : SFmt) (rm : Rnd) (lm : LMod) (l : W64) : FireRes :=
  onScalar f (fun F a _ => F.sinPi rm (modL F lm a)) l 0
def fpuCosPi (f : SFmt) (rm : Rnd) (lm : LMod) (l : W64) : FireRes :=
  onScalar f (fun F a _ => F.cosPi rm (modL F lm a)) l 0
def fpuRnd (f : SFmt) (rm : Rnd) (lm : LMod) (l : W64) : FireRes :=
  onScalar f (fun F a _ => F.rint rm (modL F lm a)) l 0
/-- FCLASS counts no event (R189). -/
def fpuClass (f : SFmt) (l : W64) : FireRes :=
  .pure (tokNat ((sfmt f).classMask (l.toNat % 2 ^ (sfmt f).width)))

/-! Class CVT. -/

/-- The integer type of a conversion code. -/
def numInt : NumTy → Option IntTy
  | .i8 => some .i8 | .i16 => some .i16 | .i32 => some .i32 | .i64 => some .i64
  | .n8 => some .n8 | .n16 => some .n16 | .n32 => some .n32 | .n64 => some .n64
  | .f32 | .f16 | .bf16 => none

/-- The floating format of a conversion code; binary32 for the integer types, where it is unused. -/
def numFmt : NumTy → Fmt
  | .f16 => .f16 | .bf16 => .bf16 | _ => .f32

/-- CVT (R192). -/
def cvtResult (src dst : NumTy) (rm : Rnd) (sat : Bool) (l : W64) : FireRes :=
  match numInt src, numInt dst with
  | some a, some b => .pure (xiResult b sat (valOf a l))
  | some a, none =>
    let x := (numFmt dst).ofInt rm (valOf a l)
    { val := tokNat x.bits, fls := [x.fl] }
  | none, some b =>
    let F := numFmt src
    let x := F.toInt rm (tyLo b) (tyHi b) (l.toNat % 2 ^ F.width)
    { val := extendTok b x.1, fls := [x.2] }
  | none, none =>
    let F := numFmt src
    let x := F.convert (numFmt dst) rm (l.toNat % 2 ^ F.width)
    { val := tokNat x.bits, fls := [x.fl] }

/-- Elements of a block (R74). -/
def blkLen : BlkLen → Nat
  | .k16 => 16 | .k32 => 32 | .k64 => 64

/-- The element index of a CVTB control operand (R193). -/
def cvtbIndex (len : BlkLen) (r : W64) : Nat := (bitsOf r.toNat 15 8 % blkLen len) % 8
/-- The block scale: whatever the operand carries, the part chooses none (R193, R194). -/
def cvtbScale (r : W64) : Int := signedOf r.toNat 8

/-- CVTB to a log format (R193): the source widened exactly, one code at its place. A NaN is flushed, and a signalling
one is an invalid operation besides (R64, R81). -/
def cvtbToLogResult (src : SFmt) (lf : LogFmt) (len : BlkLen) (l r : W64) : FireRes :=
  let F := sfmt src
  let v := l.toNat % 2 ^ F.width
  let x := match src with
    | .f32 => v
    | _ => (F.convert .f32 .rne v).bits
  let c := logConvert lf x (cvtbScale r)
  { val := tokNat (c.1 * 2 ^ (logWidth lf * cvtbIndex len r)), fls := [nanFlags [F.decode v]], flush := if c.2 then 1 else 0 }

/-- CVTB to FP32 (R195). -/
def cvtbToF32Result (rm : Rnd) (lf : LogFmt) (len : BlkLen) (l r : W64) : FireRes :=
  let x := logDecode lf .f32 rm (logPick lf l.toNat (cvtbIndex len r)) (cvtbScale r)
  { val := tokNat x.bits, fls := [x.fl] }

/-- CVTP (R196). -/
def cvtpResult (rm : Rnd) (bf : Bool) (l r : W64) : FireRes :=
  let G : Fmt := if bf then .bf16 else .f16
  let lo := Fmt.f32.convert G rm (l.toNat % 2 ^ 32)
  let hi := Fmt.f32.convert G rm (r.toNat % 2 ^ 32)
  { val := tokNat (hi.bits * 2 ^ 16 + lo.bits), fls := [lo.fl, hi.fl] }

end Sys2Proof.Machine
end

