-- ==== Sys2Proof/Config.lean ====
section
/-! DEFINITION. What a part fixes beside the spec's own numbers: the free values of the model. -/

namespace Sys2Proof

/-- The ECDSA signature that Exnisum issues for the quote over these bytes (R440): 96 bytes, made
under a device key fused per part, so a free value. (log 2, DESIGN CHOICE) -/
opaque Config.quoteSignature (part : Nat) (bytes : List Byte) : BitVec 768

/-- log2 of the bytes that a collective moves per element of a broadcast or a gather (R321): the spec
gives the two operations no element type. (log 41, DESIGN CHOICE) -/
opaque Config.collElemLog : BitVec 2

/-- Which of the places that the spec allows a supervisor takes for a slot range, a partition or a region
(R209, R210, R300, R319, R344): applied to a counter of the state. (log 43, DESIGN CHOICE) (log 1, DESIGN CHOICE) -/
opaque Config.placePick : Nat → Nat

/-- Bytes that the saved context of a squashed gang takes in its die's context region (R415): of its
workgroups, its threads, its partitions' bytes, its granules and its tiles. (log 44, DESIGN CHOICE) -/
opaque Config.contextBytes (wgs threads scratch granules tiles : Nat) : Nat

/-- A byte that a squash writes into the context region (R415), whose layout the spec does not give: by writing and
offset. (log 15, DEDUCED) -/
opaque Config.contextByte (writing off : Nat) : Byte

/-- Page of the context region in which the drain area begins (R416). (log 45, DESIGN CHOICE) -/
opaque Config.drainPage : Nat

/-- Readout lane mask of a tile that the core's own sequencer configured (R24, R416, R422), by core, row and
column. (log 46, DESIGN CHOICE) -/
opaque Config.readoutMask (core row col : Nat) : BitVec 8

/-- Slot index or pool entry in the drain words of a tile and lane (R416): the spec numbers neither.
(log 46, DESIGN CHOICE) -/
opaque Config.drainIndex (tile lane n : Nat) : BitVec 10

/-- Block in the KILLED entry of a killed gang, by the number of the gang (R406, R416). (log 47, DESIGN CHOICE) -/
opaque Config.killedBlock (gang : Nat) : BitVec 18

/-- Set of the core TLB, and of the die TLB, in which an entry stands (R353), by tenant, page base and log2 of the page
size. (log 73, DESIGN CHOICE) -/
opaque Config.coreTlbSet (tenant va lg : Nat) : BitVec 7
opaque Config.dieTlbSet (tenant va lg : Nat) : BitVec 10

/-- Reason code with which a replacement image is refused that cannot be read (R454): the reasons of R124
name none for it. (log 48, DESIGN CHOICE) -/
opaque Config.unreadableImage : Reason

/-- A byte of a host state window area whose layout the spec does not give (R425): by area, index, the records that
the area shows, and offset. (log 49, DESIGN CHOICE) -/
opaque Config.readback (area index : Nat) (cards : List Nat) (off : Nat) : Byte

/-- What an accepted write of the sluice area, whose layout the spec does not give, leaves in an entry (R425):
by writing, sluice and place. (log 49, DESIGN CHOICE) -/
opaque Config.sluiceWrite (writing sluice place : Nat) : BitVec 32

/-- Size in bytes, on a port or a circuit, of a request, a message or an answer that carries `payload` bytes (R436 gives
no format). (log 17, DESIGN CHOICE) -/
opaque Config.packetBytes (payload : Nat) : BitVec 10

end Sys2Proof
end

