-- ==== Sys2Proof/Machine/Store.lean ====
section
/-! DEFINITION. Plain-data stores: a sorted association list in canonical form (no entry equal to
the default), and byte memory, which reads zero where nothing is listed (R3, R213). -/

namespace Sys2Proof.Machine

/-- A sorted association list: keys strictly rising. -/
abbrev Map (α : Type) := List (Nat × α)

/-- The entry of a key. -/
def mget {α : Type} (m : Map α) (k : Nat) : Option α :=
  match m with
  | [] => none
  | (j, v) :: rest => if j = k then some v else mget rest k

/-- The entry of a key, or a default. -/
def mgetD {α : Type} (m : Map α) (k : Nat) (d : α) : α := (mget m k).getD d

/-- The entry of a key set. -/
def mput {α : Type} (m : Map α) (k : Nat) (v : α) : Map α :=
  match m with
  | [] => [(k, v)]
  | (j, w) :: rest =>
    if k < j then (k, v) :: (j, w) :: rest
    else if j = k then (k, v) :: rest
    else (j, w) :: mput rest k v

/-- The entry of a key removed. -/
def mdel {α : Type} (m : Map α) (k : Nat) : Map α := m.filter (fun e => e.1 != k)

/-- The entry set, or removed where it equals the default: the canonical form. -/
def mset {α : Type} [DecidableEq α] (m : Map α) (k : Nat) (v d : α) : Map α :=
  if v = d then mdel m k else mput m k v

/-- The least number that is no key. -/
def mfresh {α : Type} (m : Map α) : Nat := m.foldl (fun n e => max n (e.1 + 1)) 0

/-- Bytes by address, strictly rising, no zero byte listed. -/
abbrev Memory := List Host.Cell

/-- The canonical form, above a bound: addresses strictly rising and no entry of zero. -/
def Memory.above : Nat → Memory → Bool
  | _, [] => true
  | n, (a, b) :: rest => decide (n ≤ a) && b != 0 && Memory.above (a + 1) rest

/-- The canonical form of memory. -/
def Memory.wf (m : Memory) : Bool := Memory.above 0 m

/-- One byte read; an address that is not listed reads zero (R3, R213). (log 10, DEDUCED) -/
def readByte (m : Memory) (a : Nat) : Byte :=
  match m with
  | [] => 0
  | (j, b) :: rest => if j = a then b else readByte rest a

/-- A nonzero byte put in its place. -/
def putByte (m : Memory) (a : Nat) (b : Byte) : Memory :=
  match m with
  | [] => [(a, b)]
  | (j, c) :: rest =>
    if a < j then (a, b) :: (j, c) :: rest
    else if j = a then (a, b) :: rest
    else (j, c) :: putByte rest a b

/-- An address no longer listed. -/
def dropByte (m : Memory) (a : Nat) : Memory :=
  match m with
  | [] => []
  | (j, c) :: rest =>
    if a < j then (j, c) :: rest
    else if j = a then rest
    else (j, c) :: dropByte rest a

/-- One byte written: zero removes the entry, so the canonical form stays. -/
def writeByte (m : Memory) (a : Nat) (b : Byte) : Memory :=
  if b = 0 then dropByte m a else putByte m a b

/-- `n` bytes from `a` up. -/
def readBytes (m : Memory) (a : Nat) : Nat → List Byte
  | 0 => []
  | n + 1 => readByte m a :: readBytes m (a + 1) n

/-- Bytes written from `a` up. -/
def writeBytes (m : Memory) (a : Nat) : List Byte → Memory
  | [] => m
  | b :: rest => writeBytes (writeByte m a b) (a + 1) rest

/-- Every address in [a, a + n) reads zero afterwards. -/
def zeroRange (m : Memory) (a n : Nat) : Memory := m.filter (fun e => e.1 < a || a + n ≤ e.1)

/-- The listed bytes of [a, a + n), by offset. -/
def cutMemory (m : Memory) (a n : Nat) : Memory :=
  (m.filter (fun e => a ≤ e.1 && e.1 < a + n)).map (fun e => (e.1 - a, e.2))

/-- [a, a + n) takes the bytes listed by offset, and zero elsewhere. -/
def pasteMemory (m : Memory) (a n : Nat) (cut : Memory) : Memory :=
  cut.foldl (fun m e => if e.1 < n then writeByte m (a + e.1) e.2 else m) (zeroRange m a n)

/-- A little-endian number of bytes (R4). -/
def leNat : List Byte → Nat
  | [] => 0
  | b :: rest => b.toNat + 256 * leNat rest

/-- `n` bytes at `a` as a number. -/
def readLE (m : Memory) (a n : Nat) : Nat := leNat (readBytes m a n)

/-- The lowest `n` bytes of a number, least significant first (R4). -/
def toLE : Nat → Nat → List Byte
  | _, 0 => []
  | v, n + 1 => BitVec.ofNat 8 v :: toLE (v / 256) n

/-- A number written as `n` little-endian bytes. -/
def writeLE (m : Memory) (a n v : Nat) : Memory := writeBytes m a (toLE v n)

/-! Where each store lies in the one byte memory of the model (log 5). -/

/-- Die d's device memory starts at d × 2^37 and has 90 GiB (R207). (log 5, DESIGN CHOICE) -/
def dieBase (d : Nat) : Nat := d * 2 ^ 37
def devBytes : Nat := 0x1680000000
/-- Die d's scratchpad, 32 MiB (R207). (log 5, DESIGN CHOICE) -/
def dieScratchBase (d : Nat) : Nat := 0x1000000000000 + d * 2 ^ 25
/-- The core scratchpad of core c, 1 MiB (R210): above the physical addresses. -/
def scratchBase (c : Nat) : Nat := 2 ^ 52 + c * 2 ^ 20
/-- The operand buffer of core c, 1 MiB (R227). -/
def opBufBase (c : Nat) : Nat := 2 ^ 53 + c * 2 ^ 20
/-- Accumulator memory of core c, 512 KiB (R228). -/
def accBase (c : Nat) : Nat := 2 ^ 54 + c * 2 ^ 19

/-- The regions of R207, and the stores of a core. -/
inductive Region where
  | dev (die : Nat)
  | dieScratch (die : Nat)
  | scratch (core : Nat)
  | none
  deriving DecidableEq, Repr

/-- The region of an address of the model's memory. -/
def regionOf (a : Nat) : Region :=
  if a < 8 * 2 ^ 37 then
    if a % 2 ^ 37 < devBytes then .dev (a / 2 ^ 37) else .none
  else if 0x1000000000000 ≤ a && a < 0x1000000000000 + 8 * 2 ^ 25 then
    .dieScratch ((a - 0x1000000000000) / 2 ^ 25)
  else if 2 ^ 52 ≤ a && a < 2 ^ 52 + 128 * 2 ^ 20 then .scratch ((a - 2 ^ 52) / 2 ^ 20)
  else .none

end Sys2Proof.Machine
end

