-- ==== Sys2Proof/Machine/State.lean ====
section
/-! DEFINITION. The state of the LH-9800 as plain data, the machine after reset, and the reasons a
step can stop. Every map lists only the entries that differ from the reset value its reader names. -/

namespace Sys2Proof.Machine

/-- A fault of the machine as a whole. The spec stops no machine (R8): no meaning raises one. -/
inductive Fault where
  /-- Raised by nothing: the spec's faults park a thread, stop a command or halt a core. Safe. -/
  | none
  deriving DecidableEq, Repr

/-- A refusal by the model. -/
inductive Refusal where
  /-- An instruction without a meaning in this model, by mnemonic. Raised by the dispatch alone; safe. -/
  | notModelled (mnemonic : String)
  deriving DecidableEq, Repr

/-! ## Threads -/

/-- The failed condition of a held thread: conditions 2 to 6 of R36. -/
inductive HeldCond where
  | timeline (ctx v : Nat)
  | sluice (q : Nat)
  | barrier (b : Nat)
  | lsq
  /-- the first missing reservation of condition 6, by its resource key -/
  | reserve (res : Nat)
  deriving DecidableEq, Repr

/-- Thread states (R33); `empty` is a slot of no workgroup. -/
inductive ThState where
  | empty | waiting | admitted | commit | parked | rare | exited
  | held (c : HeldCond)
  deriving DecidableEq, Repr

/-- The branch a pass has delivered (R169, R403). -/
inductive Branch where
  | enter (b : Nat)
  | exit
  | call (b r : Nat)
  | ret (b : Nat)
  | yield (b : Nat)
  deriving DecidableEq, Repr

/-- One part of an access: a memory address and a byte count (R252). -/
structure Part where
  pa : Nat
  len : Nat
  deriving DecidableEq, Repr

/-- The entry of an outbound window table that a port has looked up: destination accelerator and window, and
the admission key it attaches (R262, R435). -/
structure Outbound where
  dest : Nat
  window : Nat
  key : Nat
  /-- the port's own accelerator id (R434) -/
  source : Nat
  deriving DecidableEq, Repr

/-- A committing operation in the sink: the instruction that delivered it, its operands, its
translated parts and the address a fault would name (R46). `null` is a NULL of LSID kind. -/
structure Op where
  idx : Nat := 0
  null : Bool := false
  l : W64 := 0
  r : W64 := 0
  p : W64 := 0
  va : Nat := 0
  parts : List Part := []
  /-- what its port looked up in phase one, of a remote access (R262) -/
  remote : Option Outbound := none
  /-- started in phase two and waiting for its completion -/
  started : Bool := false
  /-- parts, or messages, whose completion is still to come -/
  waiting : Nat := 0
  performed : Bool := false
  /-- a TLBINV has removed an entry the operation used: it translates again (R359) -/
  stale : Bool := false
  /-- the instruction that the commit image of a resumed pass names in place of the block's (R404) -/
  instr : Option Instr := none
  deriving DecidableEq, Repr

/-- A load that has issued: what a later store with a lower LSID can violate (R46). -/
structure LoadRec where
  lsid : Nat
  /-- each byte read: its address, and the LSID of the buffered store it came from -/
  bytes : List (Nat × Option Nat)
  /-- of an LDV: the stores with a lower LSID that had their address as it issued, by LSID (R46, R257) -/
  known : List Nat := []
  deriving DecidableEq, Repr

/-- An entry of a watch set: line address [56:7], version and valid bit (R371). -/
structure Watch where
  line : Nat
  ver : Nat
  valid : Bool := true
  deriving DecidableEq, Repr

/-- An output on its way through the sink port (R45, R122); `poison` marks a RET that read a poisoned
stack entry (R175). -/
inductive Out where
  | lvw (idx v : Nat) (x : Option W64)
  | op (lsid : Nat) (o : Op)
  | branch (idx : Nat) (b : Branch) (poison : Bool)
  deriving DecidableEq, Repr

/-- Who executes an instruction: a fabric station for a thread, a rare pass of a thread on its control
core, the control thread of a core, or a die supervisor (R22, R23, R55). -/
inductive Agent where
  | fab (core slot : Nat)
  | rare (core slot : Nat)
  | ctl (core : Nat)
  | sup (die : Nat)
  deriving DecidableEq, Repr

/-! ## Engine commands (R281 to R293, R314 to R321, R363 to R369) -/

/-- A change of one 4-byte word of a line that an engine makes at the home. -/
inductive WordOp where
  | set (v : Nat)
  /-- a saturating addition (R84) -/
  | addSat (n : Nat)
  | shr (k : Nat)
  | clearBit (b : Nat)
  deriving DecidableEq, Repr

/-- A piece of a command's work: each is one step of its engine. -/
inductive EOp where
  /-- at most one line is read at its home and appended to the buffer -/
  | read (va n : Nat)
  /-- as a read; its failure ends the command with status FAULT (R318, R364) -/
  | desc (va n : Nat)
  /-- as a read, with the version of the line in the same step (R365) -/
  | readVer (va n : Nat)
  /-- a write that is left out where it cannot be made (R364) -/
  | tail (va : Nat) (bytes : List Byte)
  /-- a range within one line translates for a write -/
  | check (va n : Nat)
  /-- bytes of one line leave as one write -/
  | write (va : Nat) (bytes : List Byte)
  /-- bytes of one range leave as one write per line, once every line of it can be reached (R283, R289) -/
  | row (va : Nat) (bytes : List Byte)
  /-- elements of a row of a record of the core (R289) -/
  | fill (rec row : Nat) (bytes : List Byte)
  /-- words of one line change in one step at its home: offsets within the line -/
  | line (va : Nat) (ops : List (Nat × WordOp))
  /-- every write so far has performed -/
  | drain
  /-- the release condition of the command's scope holds for the writes so far -/
  | release
  /-- the counts of the report go up (R364) -/
  | tally (ns : List Nat)
  /-- a decision that the command makes on what it has read -/
  | decide (k : Nat)
  deriving DecidableEq, Repr

/-- States of a reservation record (R227, R283). -/
inductive ObState where
  | free | reserved | loading | ready | stopped
  deriving DecidableEq, Repr

/-- A reservation record (R227). -/
structure ObRec where
  st : ObState := .free
  first : Nat := 0
  granules : Nat := 1
  fmt : Nat := 0
  blk : Nat := 0
  kv : Bool := false
  /-- outstanding MST.ob commands -/
  outSt : Nat := 0
  /-- base slot / 128 of the owning workgroup -/
  owner : Nat := 0
  scaleOff : Int := 0
  rowLen : Nat := 0
  progress : Nat := 0
  src : Nat := 0
  stride : Nat := 0
  scaleVa : Nat := 0
  /-- MLD commands of sealed rounds that name it and have not performed (R279); an MST.ob counts in
  `outSt` from its seal on -/
  pins : Nat := 0
  deriving DecidableEq, Repr

/-- A command of an engine context: the instruction, its operands, the number its timeline gave it,
and what it keeps while it runs (R281, R314, R363). -/
structure Cmd where
  instr : Instr
  l : W64 := 0
  r : W64 := 0
  no : Nat := 0
  /-- context that gave the number, where a restore has moved the command to another (R295) -/
  home : Option Nat := none
  agent : Agent
  tenant : Nat := 0
  seq : Nat := 0
  gang : Nat := 0
  /-- core and base slot of the issuing workgroup -/
  core : Nat := 0
  wg : Nat := 0
  /-- rows of the mask with the L tokens of their owners (R272, R289, R292) -/
  rows : List (Nat × W64) := []
  running : Bool := false
  stopped : Bool := false
  todo : List EOp := []
  /-- bytes read and not yet used -/
  buf : List Byte := []
  /-- what the command has determined -/
  vals : Map (List Nat) := []
  /-- counts of the report: the spillway's progress register while the command runs (R364) -/
  report : List Nat := [0, 0, 0, 0]
  /-- line writes on their way to their homes -/
  pending : Nat := 0
  /-- status it will complete with (R364) -/
  status : Nat := 0
  /-- latest completion time of its writes, in its die's clock -/
  horizon : Nat := 0
  far : Map Nat := []
  /-- the record that the command names as it stood when its workgroup retired and released it: the command goes on
  without it (R280) -/
  orphan : Option ObRec := none
  /-- a match has found that the descriptor of the COLL cannot be read (R321) -/
  unread : Bool := false
  deriving DecidableEq, Repr

/-- A pass in progress (R45 to R48). -/
structure Pass where
  img : Nat := 0
  blk : Nat := 0
  /-- instance slot, none in a rare pass or a program of a control core -/
  inst : Option Nat := none
  round : Nat := 0
  /-- number of the scheduling decision that formed the round (R143) -/
  roundNo : Nat := 0
  width : Nat := 1
  lane : Nat := 0
  frame : Nat := 0
  gen : Nat := 0
  /-- the constant pool as it stood when the round's admission began (R40) -/
  consts : List W32 := []
  /-- live values and poisoned groups as they stood at the thread's admission (R132) -/
  live : Option (Map W64 × List Nat) := none
  /-- instructions that have fired or were predicated off -/
  fired : List Nat := []
  /-- those of them that were predicated off -/
  offs : List Nat := []
  /-- operands by 4 × index + field (R139) -/
  opnd : Map W64 := []
  outs : List Out := []
  lvw : Map (Option W64) := []
  ops : Map Op := []
  branch : Option Branch := none
  loads : List LoadRec := []
  violated : Bool := false
  /-- insertions of the working watch set, in their order: LDV.w by LSID, then WSADD by index (R372) -/
  watchIns : Map Watch := []
  /-- a WSCLR of the pass has fired -/
  watchClr : Bool := false
  /-- bytes a part of a load has read, by 2 × index + part -/
  got : Map (List Byte) := []
  /-- stream elements taken or promised in this pass, per port (R306) -/
  streamTaken : Map Nat := []
  /-- send allowance and queue places reserved at admission, by resource key (R36) -/
  rsv : Map Nat := []
  /-- later-clause sluice reservations already taken, by clause -/
  clauseDone : List Nat := []
  /-- outcome of the watch checks of each WSVAL, by index (R373) -/
  valid : Map Bool := []
  /-- commands that MLD, MST and AMASS formed at the seal, by LSID (R275) -/
  cmds : Map Cmd := []
  /-- phase one is complete: the pass is at its seal or in phase two (R45, R47, R271) -/
  two : Bool := false
  /-- the pass has been part of an executed seal, or its round has none (R271) -/
  sealed : Bool := false
  deriving DecidableEq, Repr

/-- A park record (R402). -/
structure Park where
  code : Nat
  sub : Nat
  /-- LSID k of a partial commit -/
  partialAt : Option Nat
  blk : Nat
  idx : Option Nat
  phase : Nat
  seq : Nat
  addr : Nat
  clock : Nat
  deriving DecidableEq, Repr

/-- A wait slot (R131, R134). -/
structure WaitSlot where
  ctx : Nat := 0
  val : Nat := 0
  deriving DecidableEq, Repr

/-- A thread slot (R30, R131). -/
structure Thread where
  st : ThState := .empty
  /-- v0 to v63, zero where not listed -/
  regs : Map W64 := []
  /-- poison bits of the eight register groups (R138) -/
  poison : List Nat := []
  /-- the row descriptor as it reads, where a soft error has changed it; else it gives the forms of the values
  (R135, R138) -/
  desc : Option Nat := none
  wait : Map WaitSlot := []
  blk : Nat := 0
  sp : Nat := 256
  ordered : Bool := false
  skip : Option Nat := none
  age : Nat := 0
  /-- set by YIELD: the waiting bit is set after the next scheduling decision (R170) -/
  yieldPending : Bool := false
  horizon : Nat := 0
  /-- latest completion time from each other die, in its clock, while it may still be ahead (R381) -/
  far : Map Nat := []
  remote : List Nat := []
  spos : Map Nat := []
  /-- entries of the watch set by place; those past the last are invalid and zero (R371, R459) -/
  watch : List Watch := []
  watchOv : Bool := false
  /-- arrival records: barrier slot to phase (R387) -/
  arrivals : Map Nat := []
  /-- what the host has left in a skip index and in arrival records whose valid bit is clear (R459) -/
  skipRest : Nat := 0
  arrRest : Map Nat := []
  /-- unacknowledged non-returning reductions of this thread (R240) -/
  nrOut : Nat := 0
  /-- SRD round of the pass that last committed: a rare pass reads it (R143) -/
  lastRound : Nat := 0
  park : Option Park := none
  pass : Option Pass := none
  deriving DecidableEq, Repr

/-! ## Fabric -/

/-- Kinds of a token (R297). An end-of-stream token names its gang within the launch (R59). -/
inductive TokKind where
  | data | switch | reconf
  | eos (tag : Nat)
  deriving DecidableEq, Repr

/-- A token in a latch or on an edge: tag of R42, data, and the input it goes to. A token of another kind than data
has in place of the tag the lane of the station that it comes from. -/
structure Tok where
  slot : Nat
  frame : Nat
  gen : Nat
  data : W64
  /-- 4 × consumer index + field -/
  dst : Nat
  /-- the edge: producer index × 2 + target number -/
  edge : Nat
  inst : Nat
  kind : TokKind := .data
  deriving DecidableEq, Repr

/-- A frame of a lane (R43). -/
structure Frame where
  gen : Nat := 0
  slot : Option Nat := none
  /-- the round of the pass that holds it -/
  round : Nat := 0
  deriving DecidableEq, Repr

/-- A block instance (R50, R334). -/
structure Inst where
  img : Nat := 0
  blk : Nat := 0
  width : Nat := 8
  /-- frames per lane (R41) -/
  frames : Nat := 0
  /-- tenant and launch the instance was configured for -/
  seq : Nat := 0
  /-- origin column and row, and skip column, of each footprint copy (R120, R121) -/
  origins : List (Nat × Nat × Option Nat) := []
  /-- station on its edge tile of each edge entry, by instruction -/
  stations : Map Nat := []
  /-- the decision that last began a round in it -/
  lru : Nat := 0
  admitting : Option Nat := none
  retiring : Bool := false
  /-- slot of the launch among the launches resident on the core (R334) -/
  lslot : Nat := 0
  /-- hops of each target of each copy: key copy × 256 + edge (R119, R121) -/
  routes : Map (List Nat) := []
  /-- stations that have emitted the switch: 128 × index + lane -/
  switched : List Nat := []
  /-- gangs whose end-of-stream tokens are on their way, first placed first, each with the stations that have
  still to pass it on (R59) -/
  eosDue : List (Nat × List Nat) := []
  /-- switch and end-of-stream tokens held on an input that the copies share, by edge and kind (R51) -/
  absorbed : Map Nat := []
  /-- tokens on the edges of each lane of the consumer's station: key lane × 256 + edge, head first -/
  edges : Map (List Tok) := []
  /-- frame table: key lane × 1024 + frame -/
  ftab : Map Frame := []
  deriving DecidableEq, Repr

/-- A group entry of a compaction queue: a round's lane group at a stream node of an instance (R311). -/
structure Group where
  inst : Nat
  round : Nat
  idx : Nat
  base : Nat
  deriving DecidableEq, Repr

/-- A round (R34, R331). -/
structure Round where
  inst : Nat := 0
  wg : Nat := 0
  role : Nat := 0
  number : Nat := 0
  snapshot : List Nat := []
  /-- not yet admitted or held -/
  pending : List Nat := []
  /-- members that have left the active set, or never entered it (R38, R197) -/
  left : List Nat := []
  /-- slots of the snapshot that never entered their lane (R35, R199) -/
  missed : List Nat := []
  /-- members that have completed phase one -/
  done : List Nat := []
  consts : List W32 := []
  /-- L tokens held for cross-lane and stream-node readers and for collectives, by index and slot (R43, R197, R201);
  R tokens of stream nodes by 128 + index -/
  held : Map (Map W64) := []
  /-- clauses with ROUND that have fired, with the results each member is still to take:
  key index × 8192 + slot -/
  clauses : List Nat := []
  results : Map (W64 × W64) := []
  deriving DecidableEq, Repr

/-! ## Workgroups and gangs -/

/-- A sluice entry: its handle, and the thread slot that has reserved it for a pop (R301). -/
structure SlEntry where
  handle : W32
  rsv : Option Nat := none
  /-- the clause whose SLU reserved it, 0 at admission (R301) -/
  clause : Nat := 0
  /-- the handle has been delivered to the reserving pass -/
  delivered : Bool := false
  deriving DecidableEq, Repr

/-- A sluice (R300). -/
structure Sluice where
  depth : Nat := 0
  /-- place of the oldest entry in the storage, 6 bits -/
  head : Nat := 0
  entries : List SlEntry := []
  pushRsv : Nat := 0
  allow : Nat := 0
  allowRsv : Nat := 0
  deriving DecidableEq, Repr

/-- A line of a stream window (R218). -/
structure WinLine where
  /-- bytes by offset: all of a filled line, the written ones of a dirty line -/
  data : Map Byte := []
  valid : Bool := false
  dirty : Bool := false
  expiry : Nat := 0
  homeDie : Nat := 0
  /-- the memory line it copies -/
  pline : Nat := 0
  /-- a write-back of the line is under way; an SPUT meanwhile makes it dirty again (R261) -/
  busy : Bool := false
  /-- places of the line that admitted passes have reserved (R259) -/
  rsv : Nat := 0
  /-- a TLBINV has removed the entry that placed its dirty bytes: they are placed again at write-back (R359) -/
  stale : Bool := false
  /-- its dirty bytes have an uncorrectable error: they go home with data poison (R216) -/
  spoilt : Bool := false
  /-- its write-back is due and waits for an earlier one of the line, or for a translation -/
  due : Bool := false
  deriving DecidableEq, Repr

/-- A stream window (R218, R219). -/
structure Window where
  base : Nat := 0
  baseSet : Bool := false
  head : Nat := 0
  tail : Nat := 0
  /-- units of the core's 64 that hold it, four in each memory tile (R218) -/
  units : List Nat := []
  /-- by virtual line number -/
  lines : Map WinLine := []
  deriving DecidableEq, Repr

/-- An entry of a radix channel FIFO (R309): an element with a marker code, a marker alone, or the
end mark. -/
structure ChEntry where
  elem : Option W64 := none
  marker : Option Nat := none
  /-- slot whose pass has reserved it -/
  rsv : Option Nat := none
  deriving DecidableEq, Repr

/-- A barrier slot of a workgroup (R387). -/
structure BarSlot where
  off : Nat
  deriving DecidableEq, Repr

/-- A placed workgroup, keyed by its base slot (R31, R344). -/
structure Wg where
  gang : Nat := 0
  wgid : Nat := 0
  n : Nat := 0
  /-- scratchpad partition within the core scratchpad (R210) -/
  partBase : Nat := 0
  partSize : Nat := 0
  /-- scratchpad storage of the sluices (R300) -/
  sluiceBase : Nat := 0
  sluiceSize : Nat := 0
  /-- physical base of the private region and stride of a slice (R209) -/
  region : Nat := 0
  stride : Nat := 0
  privBytes : Nat := 0
  skips : List Nat := [0, 0, 0, 0]
  sluices : Map Sluice := []
  windows : Map Window := []
  /-- units that the radix FIFOs of each read port take (R309) -/
  chanUnits : Map (List Nat) := []
  /-- radix FIFOs of the receiving threads: key port × 4096 + tid -/
  chans : Map (List ChEntry) := []
  /-- end marks received: key port × 4096 + tid, the sender threads -/
  chanEnds : Map (List Nat) := []
  /-- places of radix FIFOs reserved by senders: key port × 4096 + tid -/
  chanRsv : Map Nat := []
  /-- credits in use on cluster write ports -/
  clusterUsed : Map Nat := []
  barriers : Map BarSlot := []
  /-- the receive barrier (R387) -/
  recvBar : Option Nat := none
  /-- decision number of the core at the gang's placement (R143) -/
  decBase : Nat := 0
  deriving DecidableEq, Repr

/-- Why a gang is frozen (R414 to R416). -/
inductive FrozenKind where
  | no | squashing | draining | drained
  deriving DecidableEq, Repr

/-- A member core of a gang: the core and the workgroup's base slot there. -/
structure Member where
  core : Nat
  base : Nat
  deriving DecidableEq, Repr

/-- A placed gang (R56, R344). -/
structure Gang where
  seq : Nat := 0
  gid : Nat := 0
  die : Nat := 0
  x : Nat := 0
  y : Nat := 0
  w : Nat := 1
  h : Nat := 1
  polder : Option Nat := none
  members : List Member := []
  /-- the 32 argument slot values (R179) -/
  args : Map W64 := []
  frozen : FrozenKind := .no
  /-- its threads are all Exited, and its end-of-stream tokens have been placed (R59) -/
  ended : Bool := false
  /-- fortieths of a cycle without a firing, an admission or a commit (R419) -/
  dike : Nat := 0
  /-- offset and length of its words in its die's drain area, while a drain holds it frozen (R416) -/
  drainAt : Option (Nat × Nat) := none
  deriving DecidableEq, Repr

/-- Statuses of a launch (R338). -/
inductive LStatus where
  | ok | empty | deferred | reject | range | tenant | depfail
  deriving DecidableEq, Repr

/-- A launch descriptor (R337). -/
structure Desc where
  image : Nat := 0
  argBlock : Nat := 0
  gangs : Nat := 0
  w : Nat := 0
  h : Nat := 0
  n : Nat := 0
  prio : Nat := 0
  task : Bool := false
  tval : Bool := false
  tenant : Nat := 0
  dieMask : Nat := 0
  timeline : Nat := 0
  awaited : Nat := 0
  taskId : Nat := 0
  depA : Nat := 0
  depASlot : Nat := 0
  depAValid : Bool := false
  depB : Nat := 0
  depBSlot : Nat := 0
  depBValid : Bool := false
  completion : Nat := 0
  /-- a nonzero zero field was seen -/
  badZero : Bool := false
  deriving DecidableEq, Repr

/-- A 32-byte record (R405). -/
abbrev Rec := BitVec 256

/-- A dispatched launch (R337 to R346). -/
structure Launch where
  desc : Desc := {}
  queue : Nat := 0
  img : Nat := 0
  /-- number taken on its timeline at dispatch (R337) -/
  tlNo : Nat := 0
  /-- effective priority: the lower of the descriptor's and the queue's (R345) -/
  prio : Nat := 0
  /-- gangs placed so far, per polder (key 0 without PIPE) -/
  placed : Map Nat := []
  /-- argument slot values that every gang starts with (R179) -/
  args : Map W64 := []
  /-- overtakings of the next unplaced gang, per polder (R345) -/
  overtaken : Map Nat := []
  retired : Nat := 0
  /-- retired gangs per polder -/
  retiredBy : Map Nat := []
  faults : List Rec := []
  faultCount : Nat := 0
  /-- unacknowledged non-returning reductions by die (R395) -/
  nrOut : Map Nat := []
  /-- release horizons of its exited threads, by die (R243) -/
  horizon : Map Nat := []
  /-- completion times from other dies that may still be ahead, by 8 × die + other die (R381) -/
  far : Map Nat := []
  /-- ports its exited threads have written without a probe since -/
  remote : List Nat := []
  deriving DecidableEq, Repr

/-- A task entry (R340). -/
structure Task where
  filled : Nat := 0
  expected : Nat := 0
  error : Bool := false
  values : List W32 := [0, 0, 0, 0, 0, 0, 0, 0]
  desc : Option (Desc × Nat) := none
  /-- completion times of its TVAL writes by home die (R342) -/
  after : Map Nat := []
  deriving DecidableEq, Repr

/-- A token on its way to the task matching store (R341). -/
structure TaskTok where
  id : Nat
  slot : Nat
  val : W32
  err : Bool
  /-- a TASK descriptor and its queue take the same way -/
  desc : Option (Desc × Nat) := none
  /-- a release of TASKREL waits as a token does (R412) -/
  release : Bool := false
  deriving DecidableEq, Repr

/-- A host push of a descriptor on its way to its queue (R323): the address, and the completion times by home die
of the host writes accepted before it (R243). -/
structure Push where
  q : Nat
  va : Nat
  after : Map Nat := []
  deriving DecidableEq, Repr

/-- What the device keeps beside a ring entry of a launch queue: its place in the order of arrival (R60), and the
completion times its dispatch waits for (R243). -/
structure LqEntry where
  no : Nat := 0
  after : Map Nat := []
  deriving DecidableEq, Repr

/-! ## Scheduler (R327, R328) -/

/-- A scheduler entry. -/
structure SEntry where
  blk : Nat := 0
  wg : Nat := 0
  role : Nat := 0
  blocked : Bool := false
  urgentSince : Option Nat := none
  /-- the round of it that is being admitted -/
  snap : Option Nat := none
  deriving DecidableEq, Repr

/-! ## Images (R85 to R97) -/

/-- A placement record (R116). -/
structure Placement where
  width : Nat := 0
  fw : Nat := 0
  fh : Nat := 0
  entries : List W32 := []
  routes : List W32 := []
  deriving DecidableEq, Repr

structure RoleDecl where
  size : Nat
  entry : Nat
  deriving DecidableEq, Repr

structure SluiceDecl where
  q : Nat
  depth : Nat
  producer : Nat
  consumer : Nat
  allow : Nat
  deriving DecidableEq, Repr

structure StreamDecl where
  port : Nat
  kind : Nat
  elem : Nat
  rank : Nat
  dx : Int
  dy : Int
  kib : Nat
  slot : Nat
  deriving DecidableEq, Repr

structure CulvertDecl where
  id : Nat
  producer : Nat
  consumer : Nat
  bytes : Nat
  cap : Nat
  deriving DecidableEq, Repr

structure PolderDecl where
  id : Nat
  die : Nat
  first : Nat
  count : Nat
  w : Nat
  h : Nat
  deriving DecidableEq, Repr

structure ArgDecl where
  slot : Nat
  size : Nat
  off : Nat
  blk : Nat
  k : Nat
  deriving DecidableEq, Repr

structure DataDecl where
  slot : Nat
  align : Nat
  bytes : List Byte
  deriving DecidableEq, Repr

/-- An accepted image: the retained words of its blocks and its declarations (R89, R90). -/
structure Image where
  digest : Nat := 0
  priv : Bool := false
  pipe : Bool := false
  maxN : Nat := 0
  maxW : Nat := 0
  maxH : Nat := 0
  scratch : Nat := 0
  privBytes : Nat := 0
  lease : Nat := 0
  argBytes : Nat := 0
  blocks : List (List W32) := []
  places : List Placement := []
  roles : List RoleDecl := []
  sluices : List SluiceDecl := []
  streams : List StreamDecl := []
  culverts : List CulvertDecl := []
  polders : List PolderDecl := []
  args : List ArgDecl := []
  datas : List DataDecl := []
  /-- CRC of each tile of each block: key block × 2^16 + row code × 256 + column (R123) -/
  crcs : Map Nat := []
  deriving DecidableEq, Repr

/-! ## Translation (R348 to R359) -/

/-- A TLB entry: tag of R353 and the leaf. -/
structure TlbEntry where
  tenant : Nat
  /-- virtual page base and log2 of the page size -/
  va : Nat
  lg : Nat
  pa : Nat
  r : Bool
  w : Bool
  a : Bool
  lease : Nat
  scratch : Bool
  deriving DecidableEq, Repr

/-- Who waits for a translation: a request, or an engine context of a die, or a port request. -/
inductive Waiter where
  | agent (a : Agent) (idx addr : Nat)
  | eng (ctx addr : Nat)
  /-- a stream window of a workgroup -/
  | window (core wg port : Nat)
  /-- a .nr reduction that its RMW tile holds, by its number on its core -/
  | nr (core n va : Nat)
  deriving DecidableEq, Repr

/-- Kinds of access by the right they need (R352). -/
inductive Right where
  | read | write | atomic
  deriving DecidableEq, Repr

/-- A walk in flight (R353). -/
structure Walk where
  tenant : Nat
  va : Nat
  waiters : List Waiter
  /-- kind of its first requester's access -/
  acc : Right := .read
  deriving DecidableEq, Repr

/-- Where a fault token stands in the pager (R354, R357). -/
inductive PagerStage where
  | queued
  | filling (frame home : Nat) (entryAt leaf : Nat) (src : Option Nat)
  | escalated
  deriving DecidableEq, Repr

/-- A fault token (R354). -/
structure FaultTok where
  /-- its number on the pager's timeline (R383) -/
  no : Nat := 0
  tenant : Nat
  page : Nat
  waiters : List Waiter
  /-- kind of the first requester's access -/
  acc : Right := .read
  stage : PagerStage := .queued
  deriving DecidableEq, Repr

/-! ## Requests and messages (R148, R221 to R226) -/

/-- What an outstanding request asks for. -/
inductive ReqKind where
  /-- a translation the instruction waits for -/
  | xlate
  /-- one part of LD and LDA: size of the access, sign extension, the part -/
  | load (size : Nat) (sx : Bool) (part : Nat)
  /-- LDV: size, .w -/
  | ldv (size : Nat) (w : Bool)
  /-- the check of one watched line by WSVAL -/
  | watch (line ver : Nat)
  /-- an element of a stream port read at its home -/
  | stream (port : Nat)
  | tlwait (ctx v : Nat)
  /-- a part of a store on its way to its home, at its LSID (R47, R420) -/
  | store (lsid : Nat)
  /-- a returning atomic that waits for its line, at its LSID (R225, R420) -/
  | atomic (lsid : Nat)
  | remoteRead (size : Nat)
  | remoteWrite (lsid : Nat)
  | remoteAtomic (lsid : Nat)
  /-- a .nr reduction at scope .sys, by its number on its core -/
  | remoteNr (n : Nat)
  /-- a .nr reduction of this machine that waits in its tile, by its number on its core (R267, R355) -/
  | nr (n : Nat)
  /-- a visibility probe to a port (R240) -/
  | probe (port : Nat)
  /-- an access of an engine context that waits (R283, R315) -/
  | engine (ctx : Nat)
  deriving DecidableEq, Repr

/-- Version sidecar of a line of device memory (R214). -/
structure Side where
  ver : Nat := 0
  dp : Bool := false
  vp : Bool := false
  deriving DecidableEq, Repr

/-- What a read has taken at its home: its bytes, the sidecar entry of their line, and whether it met poison
(R215, R235). -/
structure Taken where
  bytes : List Byte := []
  side : Side := {}
  bad : Bool := false
  deriving DecidableEq, Repr

/-- An outstanding request of an agent (R148, R420). (log 16, DEDUCED) -/
structure Req where
  agent : Agent
  idx : Nat
  lsid : Nat := 0
  kind : ReqKind
  va : Nat := 0
  parts : List Part := []
  /-- what the port attached to a remote request (R262) -/
  remote : Option Outbound := none
  /-- die clock of the issuer when it was sent -/
  start : Nat := 0
  /-- a read that has performed, its reply waiting at its memory tile (R223, R414) -/
  taken : Option Taken := none
  /-- what a port has received in answer, on its way to the issuer's die (R14, R436) -/
  back : Option PeerReply := none
  deriving DecidableEq, Repr

/-- One store that a coalescer entry carries (R221), with the number of its request (R420). -/
structure StoreRef where
  agent : Agent
  lsid : Nat
  req : Nat := 0
  /-- launch of the thread: the completion time goes to it when the thread no longer waits (R243) -/
  seq : Option Nat := none
  deriving DecidableEq, Repr

/-- A write-back of a window line that a coalescer entry carries (R219, R221). -/
structure WinRef where
  wg : Nat
  port : Nat
  /-- virtual line number -/
  line : Nat
  deriving DecidableEq, Repr

/-- Who made a write that is on its way to its home. -/
inductive WriteSrc where
  /-- a coalescer entry with the stores and the write-backs it carries -/
  | stores (refs : List StoreRef) (wins : List WinRef)
  /-- a write of the machine's own that found the line with an owner and waits for the recall (R225) -/
  | posted
  /-- a dirty window line with an uncorrectable error: its line takes data poison (R216) -/
  | spoiled (wins : List WinRef)
  /-- an element of a cluster port: the sending workgroup and port, whose credit it holds (R308) -/
  | cluster (core wg port : Nat)
  | engine (ctx : Nat)
  deriving DecidableEq, Repr

/-- Messages between cores, homes and ports. (log 64, DEDUCED) -/
inductive Msg where
  /-- bytes for one line, applied as one write (R221, R247) -/
  | write (src : WriteSrc) (core : Nat) (line : Nat) (bytes : List (Nat × Byte))
  | ownReq (core line : Nat)
  | grant (core line : Nat) (data : List Byte) (ver : Nat) (time : Nat)
  | recall (core line : Nat)
  | back (core line : Nat) (data : List Byte) (ver : Nat) (modified : Bool)
  /-- a completion time for the stores and the write-backs of an entry of a core (R221, R241) -/
  | done (refs : List StoreRef) (wins : List WinRef) (core : Nat) (time die : Nat)
  /-- the acknowledgement of a non-returning reduction (R267) -/
  | nrAck (agent : Agent) (gang wgid tid seq : Nat) (time die : Nat)
  deriving DecidableEq, Repr

/-- A non-returning reduction that its RMW tile has accepted and not yet executed (R267). (log 52, DEDUCED) -/
structure NrOp where
  agent : Agent
  gang : Nat
  /-- workgroup and thread index of the issuer, which a restore does not change -/
  wgid : Nat := 0
  tid : Nat := 0
  seq : Nat
  instr : Instr
  op : Op
  /-- the register pair of ACASW and ACASV at admission (R268) -/
  pair : W64 × W64 := (0, 0)
  tenant : Nat
  /-- die clock of the issuer at acceptance -/
  start : Nat := 0
  deriving DecidableEq, Repr

/-- An open coalescer entry (R221). -/
structure CoEntry where
  line : Nat
  bytes : Map Byte := []
  stores : List StoreRef := []
  /-- window lines that are written back with it (R219) -/
  wins : List WinRef := []
  opened : Nat := 0
  deriving DecidableEq, Repr

/-- A line of the atomic line buffer (R224). -/
structure AlbLine where
  line : Nat
  data : List Byte
  ver : Nat
  modified : Bool := false
  /-- completion time granted with the line (R233) -/
  time : Nat := 0
  /-- the atomic that requested the line has not yet executed (R225) -/
  fresh : Bool := true
  deriving DecidableEq, Repr

/-- An L2 line (R217). -/
structure L2Line where
  horizon : Nat := 0
  owner : Option Nat := none
  present : Bool := false
  deriving DecidableEq, Repr

/-! ## Cores -/

/-- A sequential program of a control core or a supervisor (R22, R451). -/
structure Ctl where
  regs : Map W64 := []
  blk : Nat := 0
  img : Nat := 0
  pass : Option Pass := none
  horizon : Nat := 0
  far : Map Nat := []
  remote : List Nat := []
  nrOut : Nat := 0
  /-- the running job is an event job (R23) -/
  eventJob : Bool := false
  deriving DecidableEq, Repr

/-- What a control core does (R23, R451). -/
inductive CcMode where
  | idle
  | rare (slot : Nat)
  | job
  | halted
  deriving DecidableEq, Repr

/-- The queue of an engine context with its timeline (R384). -/
structure Engine where
  queue : List Cmd := []
  timeline : Nat := 0
  issued : Nat := 0
  /-- entries reserved at admission (R36) -/
  rsv : Nat := 0
  /-- numbers complete out of order, of a launch timeline (R384) -/
  done : List Nat := []
  /-- status of the last completed command (R315) -/
  last : Nat := 0
  deriving DecidableEq, Repr

/-- A sealed round waiting in the matrix unit (R273): its round key and members by slot. -/
structure Seal where
  round : Nat
  members : List Nat
  deriving DecidableEq, Repr

/-- What a squash saves of one workgroup (R347, R415): its record, its threads by thread index, its
partition, and what it held in the matrix unit. Offsets of poisoned units stand beside the bytes. -/
structure SavedWg where
  /-- where it stood -/
  from_ : Member
  wg : Wg
  threads : Map Thread
  /-- nonzero bytes of the partition by offset -/
  scratch : Memory
  scratchBad : List Nat
  /-- reservation records by number, with the bytes of their granules (R227) -/
  recs : List (Nat × ObRec × Memory × List Nat)
  /-- tiles held, with their elements (R228) -/
  tiles : List (Nat × Memory × List Nat)
  /-- commit images by thread index (R403) -/
  images : List (Nat × List Byte)
  deriving DecidableEq, Repr

/-- A squashed gang waiting for its restore, with the stopped commands of its threads by context
(R295, R347, R415). (log 15, DEDUCED) -/
structure SavedGang where
  gang : Nat
  bytes : Nat
  /-- offset in the context region of its die (R415) -/
  at_ : Nat := 0
  wgs : List SavedWg
  cmds : List (Nat × Cmd)
  /-- overtakings while it waits for its place (R345) -/
  overtaken : Nat := 0
  deriving DecidableEq, Repr

/-- States of a staging area (R421). -/
inductive StageState where
  | empty | receiving | checked | rejected
  deriving DecidableEq, Repr

/-- A station of a tile as a relocated configuration places it (R120, R121, R422). -/
structure Placed where
  word : W32
  ext : Option W32 := none
  col : Nat
  row : Nat
  station : Nat
  /-- hops of the routes of T0 and T1, none where the route is dimension-ordered -/
  routes : List (Option (List Nat))
  deriving DecidableEq, Repr

/-- A staging area of a tile (R421). -/
structure Staging where
  words : List W32 := []
  st : StageState := .empty
  crc : W32 := 0xFFFFFFFF
  reloc : Nat := 0
  /-- its stations once CFGCRC.check has applied the relocation word (R422) -/
  placed : List Placed := []
  deriving DecidableEq, Repr

/-- What a decision that waits for a configuration has changed, and what it does when the round begins (R333). -/
structure CfgWait where
  /-- the chosen entry is urgent -/
  urgent : Bool := false
  /-- ages, skip counts of the workgroup and entries before the decision -/
  ages : Map Nat := []
  skips : List Nat := []
  entries : Map SEntry := []
  /-- threads that had yielded when the decision was made (R170) -/
  yields : List Nat := []
  deriving DecidableEq, Repr

/-- A core (R16 to R25, R148). Plain registers of its block are in `State.regs`. -/
structure Core where
  threads : Map Thread := []
  wgs : Map Wg := []
  insts : Map Inst := []
  rounds : Map Round := []
  entries : Map SEntry := []
  /-- slots waiting for a scheduler entry, in the order they began to wait (R329) -/
  entryWait : List Nat := []
  decision : Nat := 0
  /-- round whose configuration the control core has been asked for (R333) -/
  cfgReq : Option Nat := none
  cfgWait : CfgWait := {}
  /-- Rare threads whose XPATH record has waited through a configuration load or a job (R24) -/
  waited : List Nat := []
  /-- latches: key element × 2 + target number (R139) -/
  latch : Map Tok := []
  /-- compaction queues: key 16 × tile + entry (R311) -/
  compact : Map Group := []
  /-- generations a tile last held: key element × 1024 + frame (R335) -/
  lastGen : Map Nat := []
  /-- frames that an element has ever held (R335) -/
  heldFrames : Map Nat := []
  /-- launches resident on the core, by launch slot (R334) -/
  lslots : Map Nat := []
  /-- open coalescer entries of each memory tile (R221) -/
  coal : Map (List CoEntry) := []
  /-- lines of the atomic line buffer, least recently used first (R224) -/
  alb : List AlbLine := []
  nrOps : Map NrOp := []
  microTlb : Map (List TlbEntry) := []
  tlb : List TlbEntry := []
  obrecs : Map ObRec := []
  /-- tile holders: base slot / 128 (R294) -/
  tiles : Map Nat := []
  seals : List Seal := []
  loadPipe : Engine := {}
  writer : Engine := {}
  /-- key (row × 16 + column) × 8 + instance slot -/
  staging : Map Staging := []
  /-- active configurations by CFGCRC.act, same key -/
  active : Map Staging := []
  evq : List Rec := []
  evHeld : List Rec := []
  cc : CcMode := .idle
  ctl : Ctl := {}
  throttle : Nat := 0
  deriving DecidableEq, Repr

/-- A die (R10, R147). Plain registers of its block are in `State.regs`. -/
structure Die where
  clk : Nat := 0
  /-- shadow offset and rate of the conversion from die j (R380) -/
  shadow : Map (Nat × Nat) := []
  /-- good stamps in a row of die j, in fallback (R381) -/
  good : Map Nat := []
  /-- stamp period of die j that has been received, counted from 1 (R381) -/
  stamped : Map Nat := []
  sup : Ctl := {}
  tlb : List TlbEntry := []
  walks : List Walk := []
  /-- fault tokens by index (R354, R355) -/
  faults : Map FaultTok := []
  freePushed : Nat := 0
  freeTaken : Nat := 0
  pager : Engine := {}
  evq : List Rec := []
  evHeld : List Rec := []
  copy : Map Engine := []
  coll : Engine := {}
  spill : Engine := {}
  /-- launch timelines by index (R383) -/
  launchTl : Map Engine := []
  taskq : List TaskTok := []
  taskRsv : Nat := 0
  /-- pages, with their tenant at bit 57 of the address, that a translation failed for (R337) -/
  supFail : List Nat := []
  ccImage : Option Nat := none
  /-- address of an image that the supervisor is to accept (R454) -/
  ccPend : Option Nat := none
  /-- image accepted for installation (R454) -/
  ccNext : Option Nat := none
  /-- squashed gangs, first to be restored first (R347) -/
  saved : List SavedGang := []
  /-- device memory taken by the supervisor: base and bytes (R209, R319) -/
  regions : List (Nat × Nat) := []
  /-- pools whose retire ring the spillway looks after: tenant (64 for physical) and address (R369) -/
  pools : List (Nat × Nat) := []
  /-- hottest junction in degrees Celsius (R442) -/
  heat : Nat := 0
  /-- the controller holds the die until it has cooled (R442) -/
  hot : Bool := false
  deriving DecidableEq, Repr

/-! ## The device -/

/-- A culvert ring (R319): its base in device memory and its pointers. -/
structure Culvert where
  base : Nat := 0
  entry : Nat := 16
  cap : Nat := 1
  written : Nat := 0
  read : Nat := 0
  ended : Bool := false
  rsv : Nat := 0
  /-- a receive is copying the entry at the read count -/
  busy : Bool := false
  producer : Nat := 0
  consumer : Nat := 0
  /-- address of its front in the consumer die's scratchpad -/
  front : Option Nat := none
  deriving DecidableEq, Repr

/-- A TLB invalidation in progress (R358, R359). -/
structure Inval where
  agent : Agent
  idx : Nat
  tenant : Nat
  lo : Nat
  hi : Nat
  deriving DecidableEq, Repr

/-- The host transfer engine's descriptor in progress (R431). -/
structure Xfer where
  dev : Nat
  host : Nat
  len : Nat
  toDev : Bool
  side : Bool
  /-- bytes moved so far -/
  moved : Nat := 0
  deriving DecidableEq, Repr

/-- What a UALink port has answered last (R378, R434). -/
inductive PortReply where
  | none
  | data (bs : List Byte)
  | refused (sub : Nat)
  /-- the transaction layer's unsupported-request error -/
  | unsupported
  deriving DecidableEq, Repr

/-- An admission entry as it stands (R377, R378). -/
structure Admission where
  tenant : Nat
  read : Bool
  write : Bool
  atomic : Bool
  key : Nat
  base : Nat
  len : Nat
  deriving DecidableEq, Repr

/-- A peer's request that waits at its port, with what its port found on its arrival: enabled or not, and the
matching entry (R378, R414, R435). -/
structure PortWait where
  req : PeerRequest
  on : Bool
  entry : Option Admission
  deriving DecidableEq, Repr

/-- What a packet carries: a message or a request of the machine, by its number, or a port's answer to a peer. -/
inductive Carried where
  | msg (n : Nat)
  | req (n : Nat)
  | answer (x : PortReply)
  deriving DecidableEq, Repr

/-- A piece of traffic queued in the sending direction of a port or of a circuit (R436). -/
structure Packet where
  what : Carried
  /-- who is charged; within a circuit the traffic of a supervisor is of the system class -/
  tenant : Nat
  system : Bool := false
  size : Nat
  /-- a request that its port counts when it sends it (R398) -/
  counted : Bool := false
  /-- the links that it still crosses after this one, with its size there -/
  onward : List (Nat × Nat) := []
  deriving DecidableEq, Repr

/-- The sending direction of a UALink port or a Zenper circuit: its queued traffic in order, the deficit counters of the
tenants and of the system class, and the class from which the round goes on (R436). -/
structure Link where
  queue : List Packet := []
  deficit : Map Nat := []
  turn : Nat := 0
  deriving DecidableEq, Repr

/-- Phases of an instruction's effect: when its station fires, at its round's seal, at its LSID. -/
inductive Phase where
  | one | seal | two
  deriving DecidableEq, Repr

/-- Whom the executing step acts for: the model's own cursor. -/
structure Cursor where
  agent : Agent := .sup 0
  idx : Nat := 0
  phase : Phase := .one
  deriving DecidableEq, Repr

/-- A coming step of the machine: the model's own agenda, fed by the outside. -/
inductive Act where
  /-- an event of spec/95_what_each_step_holds.md -/
  | event (i : Instr)
  /-- an instruction of an agent's pass fires -/
  | fire (a : Agent) (idx : Nat)
  /-- the next committing operation of an agent's pass performs (R47) -/
  | perform (a : Agent)
  /-- every die clock advances by that many nanoseconds, dikewatch counts with them (R379, R419) -/
  | elapse (ns : Nat)
  /-- the host masks or unmasks an MSI-X vector (R430) -/
  | mask (v : Nat) (masked : Bool)
  /-- the host completes a line of the transfer engine with an error (R432) -/
  | hostError
  deriving DecidableEq, Repr

/-- The LH-9800 and what is on its way around it. -/
structure State where
  cores : Map Core := []
  dies : Map Die := []
  gangs : Map Gang := []
  launches : Map Launch := []
  images : Map Image := []
  /-- task entries by index: task id and entry (R340) -/
  tasks : Map (Nat × Task) := []
  reqs : Map Req := []
  /-- number of the next request: the model's own, so that no number serves twice -/
  reqNo : Nat := 0
  /-- abandoned requests whose reply can still come, with their tenants (R420) -/
  late : Map (Req × Nat) := []
  msgs : Map Msg := []
  culverts : Map Culvert := []
  invals : Map Inval := []
  /-- registers of BAR 0, of BAR 1 and the UALink tables, by offset; BAR 1 stands at 2^26 (R144) -/
  regs : Map Nat := []
  mem : Memory := []
  side : Map Side := []
  l2 : Map L2Line := []
  /-- units of protected stores that an uncorrectable soft error has hit (R138, R216, R296) -/
  poisoned : List (SoftUnit × Nat) := []
  /-- dispatch sequence number of the next launch (R143) -/
  seq : Nat := 0
  /-- launches that wait in dispatch order for their gangs to be placed -/
  dispatched : List Nat := []
  /-- host pushes of descriptors on their way to their queues (R323) -/
  pushes : List Push := []
  /-- entries of the launch queues by 2^32 × queue + count, and how many have entered so far (R60, R243) -/
  lqEntries : Map LqEntry := []
  lqCount : Nat := 0
  /-- latest completion time by home die of the host writes accepted so far (R233, R243) -/
  hostTimes : Map Nat := []
  /-- the same of the writes a UALink port has accepted, by 1024 × port + source (R233, R240) -/
  portTimes : Map (Map Nat) := []
  /-- tokens of the host behind its earlier writes (R343) -/
  hostToks : List (TaskTok × Map Nat) := []
  /-- launch queue entries reserved by admitted passes, per queue (R324) -/
  lqRsv : Map Nat := []
  /-- fused-off ALU tile of a core: column and row (R21) -/
  fuses : Map (Nat × Nat) := []
  /-- public keys fused in Exnisum: slot to point (R438) -/
  keys : Map (Nat × Nat) := []
  /-- M0, M1, M2 (R439) -/
  meas : List Nat := [0, 0, 0]
  /-- nonce and measurements a quote in progress took at go (R440) -/
  quote : Option (List Byte) := none
  quotes : Nat := 0
  /-- pending MSI-X vectors (R430) -/
  msix : List Nat := []
  /-- vectors that the host has unmasked, and the messages that have been sent, by vector (R430) -/
  msixOpen : List Nat := []
  msixSent : Map Nat := []
  xfer : Option Xfer := none
  /-- host memory as the transfer engine sees it (log 8) -/
  host : Memory := []
  /-- ports 0 to 11 and, at 16 + 8 × source + destination, the circuits between dies (R436) -/
  links : Map Link := []
  /-- the connection table in effect: eight wavelengths by 128 × die + j, where it is not the boot one (R374) -/
  conn : Map Nat := []
  /-- pairs of dies whose circuit is changing: 8 × source + destination (R13) -/
  circuits : List Nat := []
  /-- what the last read of the host returned (R424, R429) -/
  hostData : List Byte := []
  /-- its completion carries the poison mark (R215, R432) -/
  hostPoison : Bool := false
  /-- the last register access of the host completed with a completer abort (R145) -/
  hostAbort : Bool := false
  /-- aperture origin that an access of the host which waits found on its arrival (R429) -/
  aperBase : Option Nat := none
  /-- lines of host memory that arrived with a poisoned completion (R432) -/
  hostBad : List Nat := []
  /-- last answer of each UALink port to an incoming request -/
  portReplies : Map PortReply := []
  /-- requests of peers that wait, by port, in the order of their arrival (R244, R414) -/
  portQ : Map (List PortWait) := []
  agenda : List Act := []
  cur : Cursor := {}
  /-- the counter that free values are applied to (log 1) -/
  freeCtr : Nat := 0
  deriving DecidableEq, Repr

/-- The machine right after reset (R2, R3): every map lists only what differs from the reset values
that the readers of its entries name. (log 6, DESIGN CHOICE) -/
def State.reset : State := {}

end Sys2Proof.Machine
end

