-- ==== Sys2Proof/Machine/Regs.lean ====
section
/-! DEFINITION. The register file of BAR 0 by offset, with the reset values of the cards (R144 to
R148, R323, R326, R374, R397, R429 to R442), and the accessors of the state's stores. -/

namespace Sys2Proof.Machine

/-- Offset `o` of the block of die `d` (R144). -/
def dsReg (d o : Nat) : Nat := 0x1000000 + d * 0x10000 + o
/-- Offset `o` of the block of core `c` (R144). -/
def kcReg (c o : Nat) : Nat := 0x2000000 + c * 0x10000 + o
/-- Offset `o` of BAR 1 in the model's one register file. -/
def hswReg (o : Nat) : Nat := 0x4000000 + o

/-- Eight weights of 1 (R436, R441). -/
def onesShare : Nat := 0x0101010101010101

/-- Eight wavelengths of die `d` after boot, from 8j on: 146 to each other die, two unassigned (R12, R375). -/
def connReset (d j : Nat) : Nat :=
  (List.range 8).foldl (fun n b =>
    let w := 8 * j + b
    if w < 1022 then n + 2 ^ (8 * b) * (8 + (d + 1 + w / 146) % 8) else n) 0

/-- Reset value of a register of a die block. -/
def dsReset (d o : Nat) : Nat :=
  if o = 0 then d
  else if o = 0x18 then 1
  else if 0x40 ≤ o && o < 0x140 && (o - 0x40) % 0x20 = 0x18 && (o - 0x40) / 0x20 != d then 0x1FFFF
  else 0

/-- Reset value of a register of a core block (R148). -/
def kcReset (c o : Nat) : Nat :=
  if o = 0 then c
  else if o = 0x20 then 0x1000000
  else if o = 0x28 then 1000000
  else 0

/-- Reset value of the register at an offset: zero where no card gives another. (log 10, DEDUCED) -/
def regReset (off : Nat) : Nat :=
  if off < 0x1000000 then
    if off = 0 then 0x4C489800
    else if off = 0x8 then 0xFF
    else if off = 0x5100 then 2600
    else if 0x5110 ≤ off && off < 0x5150 then onesShare
    else 0
  else if off < 0x2000000 then dsReset ((off - 0x1000000) / 0x10000) (off % 0x10000)
  else if off < 0x3000000 then kcReset ((off - 0x2000000) / 0x10000) (off % 0x10000)
  else if off < 0x3002000 then connReset ((off - 0x3000000) / 0x400) (off % 0x400 / 8)
  else if 0x3002100 ≤ off && off < 0x3002140 then onesShare
  else if off = 0x3002140 then 0x10
  else if 0x30A0000 ≤ off && off < 0x30A0C00 && 0x40 ≤ off % 0x100 && off % 0x100 < 0x80 then onesShare
  else 0

/-- The register at an offset. -/
def State.reg (s : State) (off : Nat) : Nat := mgetD s.regs off (regReset off)
/-- A register set. -/
def State.setReg (s : State) (off v : Nat) : State := { s with regs := mput s.regs off v }

def State.core (s : State) (c : Nat) : Core := mgetD s.cores c {}
def State.setCore (s : State) (c : Nat) (k : Core) : State := { s with cores := mput s.cores c k }
def State.die (s : State) (d : Nat) : Die := mgetD s.dies d {}
def State.setDie (s : State) (d : Nat) (x : Die) : State := { s with dies := mput s.dies d x }
def State.thread (s : State) (c t : Nat) : Thread := mgetD (s.core c).threads t {}
def State.setThread (s : State) (c t : Nat) (x : Thread) : State :=
  s.setCore c { s.core c with threads := mput (s.core c).threads t x }
def State.gang (s : State) (g : Nat) : Gang := mgetD s.gangs g {}
def State.setGang (s : State) (g : Nat) (x : Gang) : State := { s with gangs := mput s.gangs g x }
def State.launch (s : State) (q : Nat) : Launch := mgetD s.launches q {}
def State.setLaunch (s : State) (q : Nat) (x : Launch) : State := { s with launches := mput s.launches q x }
def State.image (s : State) (i : Nat) : Image := mgetD s.images i {}
def State.inst (s : State) (c i : Nat) : Inst := mgetD (s.core c).insts i {}
def State.setInst (s : State) (c i : Nat) (x : Inst) : State :=
  s.setCore c { s.core c with insts := mput (s.core c).insts i x }
def State.wg (s : State) (c b : Nat) : Wg := mgetD (s.core c).wgs b {}
def State.setWg (s : State) (c b : Nat) (x : Wg) : State :=
  s.setCore c { s.core c with wgs := mput (s.core c).wgs b x }
def State.round (s : State) (c r : Nat) : Round := mgetD (s.core c).rounds r {}
def State.setRound (s : State) (c r : Nat) (x : Round) : State :=
  s.setCore c { s.core c with rounds := mput (s.core c).rounds r x }

/-- The die of a core (R6). -/
def dieOf (c : Nat) : Nat := c / 16

/-- The core an agent executes on; the supervisor of a die counts with core 0 of its die (R396). -/
def Agent.core : Agent → Nat
  | .fab c _ => c
  | .rare c _ => c
  | .ctl c => c
  | .sup d => d * 16

/-- The die of an agent. -/
def Agent.die (a : Agent) : Nat := dieOf a.core

/-- The thread slot of an agent that is a thread. -/
def Agent.slot : Agent → Option Nat
  | .fab _ t => some t
  | .rare _ t => some t
  | _ => none

/-- The program of a control core or a supervisor. -/
def State.ctl (s : State) : Agent → Ctl
  | .ctl c => (s.core c).ctl
  | .sup d => (s.die d).sup
  | _ => {}

def State.setCtl (s : State) (a : Agent) (x : Ctl) : State :=
  match a with
  | .ctl c => s.setCore c { s.core c with ctl := x }
  | .sup d => s.setDie d { s.die d with sup := x }
  | _ => s

/-- The pass that an agent runs. -/
def State.passOf (s : State) : Agent → Option Pass
  | .fab c t => (s.thread c t).pass
  | .rare c t => (s.thread c t).pass
  | .ctl c => (s.core c).ctl.pass
  | .sup d => (s.die d).sup.pass

def State.setPass (s : State) (a : Agent) (p : Pass) : State :=
  match a with
  | .fab c t => s.setThread c t { s.thread c t with pass := some p }
  | .rare c t => s.setThread c t { s.thread c t with pass := some p }
  | .ctl c => s.setCtl (.ctl c) { (s.core c).ctl with pass := some p }
  | .sup d => s.setCtl (.sup d) { (s.die d).sup with pass := some p }

/-- The pass of an agent changed, where it has one. -/
def State.updPass (s : State) (a : Agent) (f : Pass → Pass) : State :=
  match s.passOf a with
  | some p => s.setPass a (f p)
  | none => s

/-- The words of a block of an image. -/
def State.block (s : State) (img blk : Nat) : List W32 := (s.image img).blocks.getD blk []

/-- The workgroup of a slot, by its base slot (R31). -/
def baseOf (k : Core) (slot : Nat) : Option Nat :=
  (k.wgs.find? (fun e => e.1 ≤ slot && slot < e.1 + e.2.n)).map (·.1)

def State.base (s : State) (c slot : Nat) : Nat := (baseOf (s.core c) slot).getD 0

/-- The workgroup, gang and launch of a thread. -/
def State.wgOf (s : State) (c slot : Nat) : Wg := s.wg c (s.base c slot)
def State.gangOf (s : State) (c slot : Nat) : Nat := (s.wgOf c slot).gang
def State.seqOf (s : State) (c slot : Nat) : Nat := (s.gang (s.gangOf c slot)).seq
def State.launchOf (s : State) (c slot : Nat) : Launch := s.launch (s.seqOf c slot)
def State.imgOf (s : State) (c slot : Nat) : Nat := (s.launchOf c slot).img

/-- The tenant of an agent's launch; a PRIV program has tenant 0. -/
def State.tenantOf (s : State) (a : Agent) : Nat :=
  match a with
  | .fab c t => (s.launchOf c t).desc.tenant
  | .rare c t => (s.launchOf c t).desc.tenant
  | _ => 0

/-- Sizes of the roles of a workgroup of `n` threads (R32). -/
def roleSizes (im : Image) (n : Nat) : List Nat :=
  let fixed := im.roles.dropLast.map (·.size)
  fixed ++ [n - fixed.foldl (· + ·) 0]

/-- The role whose range holds a thread index. -/
def roleAt : List Nat → Nat → Nat
  | [], _ => 0
  | [_], _ => 0
  | z :: rest, tid => if tid < z then 0 else roleAt rest (tid - z) + 1

def State.roleOf (s : State) (c slot : Nat) : Nat :=
  roleAt (roleSizes (s.image (s.imgOf c slot)) (s.wgOf c slot).n) (slot - s.base c slot)

/-- Physical address of offset `o` of a thread's private slice (R209). -/
def State.slice (s : State) (c t o : Nat) : Nat :=
  let w := s.wgOf c t
  w.region + (t - s.base c t) * w.stride + o

/-! ## Event monitors (R397, R398) -/

/-- One monitor at register `sel` takes `n` events of source `src`; a source marked T names the
tenant of its events. -/
def countAt (s : State) (sel src : Nat) (tenant : Option Nat) (n : Nat) : State :=
  let v := s.reg sel
  if v % 1024 = src && flag v 16 && (!flag v 17 || tenant == some (bitsOf v 23 18)) then
    let w := s.reg (sel + 8)
    let t := w % 2 ^ 48 + n
    s.setReg (sel + 8) (t % 2 ^ 48 + (if flag w 48 || 2 ^ 48 ≤ t then 2 ^ 48 else 0))
  else s

/-- Events of a core source. -/
def State.count (s : State) (c src : Nat) (tenant : Option Nat) (n : Nat := 1) : State :=
  (List.range 16).foldl (fun st i => countAt st (kcReg c (0x500 + 16 * i)) src tenant n) s
/-- Events of a die source. -/
def State.countDie (s : State) (d src : Nat) (tenant : Option Nat) (n : Nat := 1) : State :=
  (List.range 16).foldl (fun st i => countAt st (dsReg d (0x500 + 16 * i)) src tenant n) s
/-- Events of a core source that an agent causes: a die supervisor has no core (R69, R398). (log 59, DEDUCED) -/
def State.countBy (s : State) (a : Agent) (src : Nat) (tenant : Option Nat) : State :=
  match a with
  | .sup _ => s
  | _ => s.count a.core src tenant
/-- Events of a port source. -/
def State.countPort (s : State) (p src : Nat) (tenant : Option Nat) (n : Nat := 1) : State :=
  (List.range 8).foldl (fun st i => countAt st (0x3070000 + 0x100 * p + 16 * i) src tenant n) s

/-! ## Records and queues (R325, R326, R405, R406) -/

/-- A record in the frame of R405. -/
def mkRec (type code sub tenant core slot seq a clk b : Nat) : Rec :=
  BitVec.ofNat 256 (type % 256 + 2 ^ 8 * (code % 256) + 2 ^ 16 * (sub % 256) + 2 ^ 24 * (tenant % 64)
    + 2 ^ 32 * (core % 2 ^ 16) + 2 ^ 48 * (slot % 2 ^ 16) + 2 ^ 64 * (seq % 2 ^ 32)
    + 2 ^ 96 * (a % 2 ^ 32) + 2 ^ 128 * (clk % 2 ^ 64) + 2 ^ 192 * (b % 2 ^ 64))

/-- The bytes of a record. -/
def recBytes (r : Rec) : List Byte := toLE r.toNat 32

/-- The message of an MSI-X vector goes to the host (R430). -/
def State.sendVector (s : State) (v : Nat) : State := { s with msixSent := mput s.msixSent v (mgetD s.msixSent v 0 + 1) }

/-- An MSI-X vector raised: its message is sent, or while the vector is masked it is held pending (R430).
(log 77, PRESUMED) -/
def State.raiseVector (s : State) (v : Nat) : State :=
  if s.msixOpen.contains v then s.sendVector v
  else if s.msix.contains v then s else { s with msix := s.msix ++ [v] }

/-- The host masks or unmasks a vector: a pending message is sent when its vector is unmasked (R430).
(log 77, PRESUMED) -/
def State.maskVector (s : State) (v : Nat) (masked : Bool) : State :=
  let o := s.msixOpen.filter (· != v)
  if masked then { s with msixOpen := o }
  else
    let s := { s with msixOpen := o ++ [v] }
    if s.msix.contains v then { s with msix := s.msix.filter (· != v) }.sendVector v else s

/-- A record posted to a core's event queue, or held by its source while the queue is full or earlier ones are held
(R325). -/
def State.postCore (s : State) (c : Nat) (r : Rec) : State :=
  let k := s.core c
  if k.evq.length < 256 && k.evHeld.isEmpty then s.setCore c { k with evq := k.evq ++ [r] }
  else (s.setCore c { k with evHeld := k.evHeld ++ [r] }).countDie (dieOf c) 0x10D none

/-- A record posted to a die's event queue; the vector is raised when the queue was empty. -/
def State.postDie (s : State) (d : Nat) (r : Rec) : State :=
  let k := s.die d
  let s := if k.evq.isEmpty then s.raiseVector d else s
  if k.evq.length < 256 && k.evHeld.isEmpty then s.setDie d { k with evq := k.evq ++ [r] }
  else (s.setDie d { k with evHeld := k.evHeld ++ [r] }).countDie d 0x10D none

/-- Line [56:7] of a memory address. -/
def lineOf (a : Nat) : Nat := a / 128

/-- The version sidecar of a line. -/
def State.sideOf (s : State) (line : Nat) : Side := mgetD s.side line {}

/-- Whether a line lies in device memory, the only memory with versions (R214). -/
def versioned (line : Nat) : Bool :=
  match regionOf (line * 128) with
  | .dev _ => true
  | _ => false

/-- A line's version advances by one (R247). -/
def State.bumpVersion (s : State) (line : Nat) : State :=
  if versioned line then
    let x := s.sideOf line
    { s with side := mset s.side line { x with ver := (x.ver + 1) % 2 ^ 56 } {} }
  else s

/-- Bytes cut at the line boundaries. -/
def splitLines (a : Nat) : List Byte → List (Nat × List Byte)
  | bs => (List.range ((a % 128 + bs.length + 127) / 128)).map (fun i =>
      let lo := if i = 0 then 0 else 128 * i - a % 128
      let hi := 128 * (i + 1) - a % 128
      (a + lo, (bs.drop lo).take (hi - lo)))

/-- The die whose home a line has: its own for device memory and die scratchpad, a core's die for its
core scratchpad (R207, R232). -/
def homeDie (line : Nat) : Nat :=
  match regionOf (line * 128) with
  | .dev d => d
  | .dieScratch d => d
  | .scratch c => dieOf c
  | .none => 0

/-- Poisoned units that a write makes sound again: a scratchpad word, a die-scratchpad unit or a tile element that it
covers whole, a unit of the operand buffer that it reaches, which is written afresh (R216, R296). -/
def State.clearUnits (s : State) (covers reaches : Nat → Nat → Bool) : State :=
  { s with poisoned := s.poisoned.filter (fun p => match p.1 with
    | .coreScratch => !covers p.2 4
    | .dieScratch => !covers p.2 16
    | .operandBuffer => !reaches p.2 8
    | .accumulator => !covers p.2 4
    | _ => true) }

/-- Poison that a write of `n` bytes at `a` clears: the units it covers, and the data poison of a device line
written whole (R215, R216). -/
def State.clearPoison (s : State) (a n : Nat) : State :=
  let s := s.clearUnits (fun u size => a ≤ u && u + size ≤ a + n) (fun u size => a < u + size && u < a + n)
  if n = 128 && a % 128 = 0 && (s.sideOf (lineOf a)).dp then
    { s with side := mset s.side (lineOf a) { s.sideOf (lineOf a) with dp := false } {} }
  else s

/-- Bytes of one line written as one write unit at their home: the line's version advances in the
same step (R247). -/
def State.storeUnit (s : State) (a : Nat) (bs : List Byte) : State :=
  let s := (s.bumpVersion (lineOf a)).clearPoison a bs.length
  { s with mem := writeBytes s.mem a bs }

/-! ## Ports and circuits (R13, R14, R436) -/

/-- An engine of a die: 0 to 3 copy, 4 collective, 5 spillway (R315). -/
def engineOf (x : Die) (e : Nat) : Engine :=
  if e < 4 then mgetD x.copy e {} else if e = 4 then x.coll else x.spill

/-- The engine of a context code, where the code is valid (R383, R385). -/
def State.context (s : State) (ctx : Nat) : Option Engine :=
  let kind := ctx / 4096
  let d := bitsOf ctx 10 8
  let i := ctx % 256
  let x := s.die d
  if ctx = 0 then some {}
  else if flag ctx 11 then none
  else match kind with
    | 1 => if i < 4 then some (engineOf x i) else none
    | 2 => if i = 0 then some x.coll else none
    | 3 => if i = 0 then some x.spill else none
    | 4 => if i < 16 then some (s.core (d * 16 + i)).loadPipe else none
    | 5 => if i < 16 then some (s.core (d * 16 + i)).writer else none
    | 6 => if i = 0 then some x.pager else none
    | 7 => some (mgetD x.launchTl i {})
    | _ => none

/-- The die that a UALink port is attached to (R14). -/
def portDie (p : Nat) : Nat := p % 8

/-- Port of a remote address (R262). -/
def remotePort (ra : Nat) : Nat := bitsOf ra 63 60

/-- First line a request reads. -/
def reqLine (r : Req) : Nat := lineOf ((r.parts.head?.map (·.pa)).getD 0)
/-- Its memory address and size. -/
def reqAt (r : Req) : Nat := (r.parts.head?.map (·.pa)).getD 0
def reqLen (r : Req) : Nat := (r.parts.head?.map (·.len)).getD 0

/-- The circuit from one die to another, as a link. -/
def circuitOf (a b : Nat) : Nat := 16 + 8 * a + b

def State.link (s : State) (k : Nat) : Link := mgetD s.links k {}
def State.setLink (s : State) (k : Nat) (x : Link) : State := { s with links := mset s.links k x {} }

/-- Size of what carries `n` bytes. -/
def packetSize (n : Nat) : Nat := (Config.packetBytes n).toNat

/-- Over the circuit from one die to another, unless they are one. -/
def hop (a b n : Nat) : List (Nat × Nat) := if a = b then [] else [(circuitOf a b, packetSize n)]

/-- Traffic joins the queue of the first of the links on its way; what crosses none has arrived. -/
def State.carry (s : State) (p : Packet) : List (Nat × Nat) → State
  | [] => s
  | (k, size) :: rest =>
    let x := s.link k
    s.setLink k { x with queue := x.queue ++ [{ p with size, onward := rest }] }

/-- It has crossed every link on its way. -/
def State.sent (s : State) (x : Carried) : Bool := s.links.all (fun e => e.2.queue.all (fun p => p.what != x))

/-! ## Messages between cores and homes (R225, R226) -/

/-- The dies between which a message goes. -/
def Msg.route : Msg → Nat × Nat
  | .write _ c l _ => (dieOf c, homeDie l)
  | .ownReq c l => (dieOf c, homeDie l)
  | .grant c l _ _ _ => (homeDie l, dieOf c)
  | .recall c l => (homeDie l, dieOf c)
  | .back c l _ _ _ => (dieOf c, homeDie l)
  | .done _ _ c _ d => (d, dieOf c)
  | .nrAck a _ _ _ _ _ d => (d, a.die)

/-- Bytes that a message carries. -/
def Msg.bytes : Msg → Nat
  | .write _ _ _ bs => bs.length
  | .grant _ _ bs _ _ => bs.length
  | .back _ _ bs _ _ => bs.length
  | _ => 0

/-- The agent for which a message goes: of a line's messages the workgroup at the lowest slots of the core.
(log 17, DESIGN CHOICE) -/
def State.msgAgent (s : State) : Msg → Agent
  | .write (.stores (r :: _) _) _ _ _ => r.agent
  | .write (.stores [] (w :: _)) c _ _ => .fab c w.wg
  | .write (.spoiled (w :: _)) c _ _ => .fab c w.wg
  | .write (.cluster c w _) _ _ _ => .fab c w
  | .write (.engine ctx) c _ _ => (((s.context ctx).bind (·.queue.head?)).map (·.agent)).getD (.ctl c)
  | .done (r :: _) _ _ _ _ => r.agent
  | .done [] (w :: _) c _ _ => .fab c w.wg
  | .nrAck a _ _ _ _ _ _ => a
  | .write _ c _ _ | .ownReq c _ | .grant c _ _ _ _ | .recall c _ | .back c _ _ _ _ | .done [] [] c _ _ =>
    (((s.core c).wgs.head?).map (fun e => Agent.fab c e.1)).getD (.ctl c)

/-- A supervisor's traffic is of the system class within a circuit. -/
def Agent.isSup : Agent → Bool
  | .sup _ => true
  | _ => false

/-- The tenant that an agent's traffic is charged to; a squashed thread's slot names its gang's launch no more. -/
def State.packetOf (s : State) (a : Agent) (x : Carried) : Packet :=
  { what := x, tenant := s.tenantOf a, system := a.isSup, size := 0 }

/-- A message goes to its other end, over the circuit between the dies. -/
def State.send (s : State) (m : Msg) : State :=
  let n := mfresh s.msgs
  ({ s with msgs := mput s.msgs n m } : State).carry (s.packetOf (s.msgAgent m) (.msg n)) (hop m.route.1 m.route.2 m.bytes)

/-- A recall of a line is sent to its owner unless one is on its way (R225). -/
def State.recallOwner (s : State) (line : Nat) : State :=
  match (mgetD s.l2 line {}).owner with
  | none => s
  | some c =>
    if s.msgs.any (fun e => match e.2 with | .recall _ l => l = line | .back _ l _ _ _ => l = line | _ => false) then s
    else ((s.countDie (homeDie line) 0x103 none).send (.recall c line))

/-- No core owns a line, and no answer of an owner is on its way (R225, R226). -/
def State.unowned (s : State) (line : Nat) : Bool :=
  (mgetD s.l2 line {}).owner.isNone
    && s.msgs.all (fun e => match e.2 with | .recall _ l => l != line | .back _ l _ _ _ => l != line | _ => true)

/-- A posted write waits for the recall of a line. -/
def State.postedOn (s : State) (line : Nat) : Bool :=
  s.msgs.any (fun e => match e.2 with | .write .posted _ l _ => l = line | _ => false)

/-- A line can be accessed at its home: nobody owns it, and no posted write waits in front. -/
def State.homeFree (s : State) (line : Nat) : Bool := s.unowned line && !s.postedOn line

/-- Bytes at an address within their line, by offset. -/
def lineBytes (a : Nat) (bs : List Byte) : List (Nat × Byte) := bs.zipIdx.map (fun e => (a % 128 + e.2, e.1))

/-- Bytes of one line are written by the machine itself: at once, or as a posted write that performs when the
owner has given the line up (R225). -/
def State.writePiece (s : State) (a : Nat) (bs : List Byte) : State :=
  let line := lineOf a
  if s.homeFree line then s.storeUnit a bs
  else (s.recallOwner line).send (.write .posted (16 * homeDie line) line (lineBytes a bs))

/-- Bytes written at their home in one write unit per line. -/
def State.writeHome (s : State) (a : Nat) (bs : List Byte) : State :=
  (splitLines a bs).foldl (fun st p => st.writePiece p.1 p.2) s

/-- Memory as it stands once the posted writes have performed. -/
def State.postedMem (s : State) : Memory :=
  s.msgs.foldl (fun m e => match e.2 with
    | .write .posted _ l bs => bs.foldl (fun m b => writeByte m (l * 128 + b.1) b.2) m
    | _ => m) s.mem

/-! ## Outstanding requests (R148, R420) -/

/-- The number that the next request takes: no earlier one had it. -/
def State.nextReq (s : State) : Nat := max s.reqNo (mfresh s.reqs)

/-- The links that a request crosses: a read goes to its home and back, a remote request and a probe to their port and
out of it. -/
def Req.path (r : Req) : List (Nat × Nat) :=
  let a := r.agent.die
  let out (p n : Nat) : List (Nat × Nat) := hop a (portDie p) n ++ [(p, packetSize n)]
  match r.kind with
  | .load .. | .ldv .. | .watch .. | .stream _ => hop a (homeDie (reqLine r)) 0 ++ hop (homeDie (reqLine r)) a (reqLen r)
  | .remoteRead _ => out (remotePort r.va) 0
  | .remoteWrite _ | .remoteAtomic _ | .remoteNr _ => out (remotePort r.va) 8
  | .probe p => out p 0
  | _ => []

/-- A request that its port counts when it sends it (R398). -/
def ReqKind.isRemote : ReqKind → Bool
  | .remoteRead _ | .remoteWrite _ | .remoteAtomic _ | .remoteNr _ => true
  | _ => false

/-- A new request of an agent, under the next number, on its way over the links that it crosses. -/
def State.addReq (s : State) (r : Req) : State :=
  ({ s with reqs := mput s.reqs s.nextReq r, reqNo := s.nextReq + 1 } : State).carry
    { s.packetOf r.agent (.req s.nextReq) with counted := r.kind.isRemote } r.path

/-- Whether a request belongs to the execution of its instruction: not that of a reduction its port has
accepted, nor an engine's. -/
def ReqKind.holds : ReqKind → Bool
  | .remoteNr _ => false
  | .nr _ => false
  | .engine _ => false
  | _ => true

/-- Every memory operation of a thread has performed: no request of it is outstanding (R36). -/
def State.lsqClear (s : State) (c t : Nat) : Bool :=
  s.reqs.all (fun e => e.2.agent.core != c || e.2.agent.slot != some t || !e.2.kind.holds)

/-- The requests of a thread's pass are over with the pass; those of an accepted reduction and of an engine are not
(R46, R237). -/
def State.endReqs (s : State) (c t : Nat) : State :=
  { s with reqs := s.reqs.filter (fun e => e.2.agent.core != c || e.2.agent.slot != some t || !e.2.kind.holds) }

/-- A request is over. -/
def State.dropReq (s : State) (n : Nat) : State := { s with reqs := mdel s.reqs n }

/-- Whether a read of `n` bytes at `a` touches data poison (R215, R216). -/
def State.poisonAt (s : State) (a n : Nat) : Bool :=
  let hits (u size : Nat) : Bool := u < a + n && a < u + size
  ((List.range ((a % 128 + n + 127) / 128)).any (fun i => (s.sideOf (lineOf a + i)).dp))
    || s.poisoned.any (fun p => match p.1 with
      | .coreScratch => hits p.2 4
      | .dieScratch => hits p.2 16
      | _ => false)

/-- The fault queue of a tenant takes a record, or drops and counts it (R326). -/
def State.postTenant (s : State) (t : Nat) (r : Rec) : State :=
  let b := 0x2000 + 0x20 * t
  let cfg := s.reg (b + 8)
  let ptr := s.reg (b + 16)
  let w := ptr % 2 ^ 32
  let used := (w + 2 ^ 32 - ptr / 2 ^ 32) % 2 ^ 32
  let size := 2 ^ (min (cfg % 16) 6 + 6)
  if !flag cfg 31 || size ≤ used then s.setReg (b + 24) (min (s.reg (b + 24) + 1) 0xFFFFFFFF)
  else
    let s := s.writeHome (s.reg b + 32 * (w % size)) (recBytes r)
    (s.setReg (b + 16) (ptr / 2 ^ 32 * 2 ^ 32 + (w + 1) % 2 ^ 32)).raiseVector (8 + t)

/-! ## Freezing (R414 to R416) -/

/-- A hold freeze covers the die: by DV_FREEZE, or by the power controller (R442). (log 12, DEDUCED) -/
def State.heldDie (s : State) (d : Nat) : Bool := flag (s.reg 0x20) d || (s.die d).hot
/-- A hold freeze covers the core. (log 12, DEDUCED) -/
def State.heldCore (s : State) (c : Nat) : Bool :=
  s.heldDie (dieOf c) || flag (s.reg (dsReg (dieOf c) 0x10)) (c % 16)

/-- The instructions of an agent's thread are stopped: by a hold of its fabric, or by a drain or a squash of
its gang. A hold stops no control core (R414). -/
def State.stopped (s : State) : Agent → Bool
  | .fab c t => s.heldCore c || (s.gang (s.gangOf c t)).frozen != .no
  | .rare c t => (s.gang (s.gangOf c t)).frozen != .no
  | _ => false

/-- The phase-two sequencer of an agent is stopped: by a hold of its fabric or by a drain; a squash lets it
finish (R414 to R416). -/
def State.twoStopped (s : State) (a : Agent) : Bool :=
  let drain (c t : Nat) : Bool := match (s.gang (s.gangOf c t)).frozen with
    | .draining | .drained => true
    | _ => false
  match a with
  | .fab c t => s.heldCore c || drain c t || (s.thread c t).st = .parked
  | .rare c t => drain c t || (s.thread c t).st = .parked
  | _ => false

end Sys2Proof.Machine
end

