-- ==== Sys2Proof/Machine/Blocks.lean ====
section
/-! DEFINITION. Blocks as words: clauses, instruction indices, inputs and targets of an instruction,
and constants (R93 to R104, R107 to R115). -/

namespace Sys2Proof.Machine

/-- A clause: its header, the index of its first instruction and its instructions' words (R98). -/
structure Clause where
  hdr : Nat
  first : Nat
  codes : List Code
  deriving DecidableEq, Repr

/-- `n` instructions of a class off the front of a word list. -/
def takeCodes (c : Cls) : Nat → List W32 → List Code × List W32
  | 0, ws => ([], ws)
  | _ + 1, [] => ([], [])
  | n + 1, w :: ws =>
    if isX c (bitsOf w.toNat 31 25) then
      match ws with
      | [] => ([⟨c, w, none⟩], [])
      | e :: rest => let r := takeCodes c n rest; (⟨c, w, some e⟩ :: r.1, r.2)
    else let r := takeCodes c n ws; (⟨c, w, none⟩ :: r.1, r.2)

/-- The clauses of a word list. -/
def clausesFrom : Nat → Nat → List W32 → List Clause
  | 0, _, _ => []
  | _, _, [] => []
  | fuel + 1, first, h :: ws =>
    match clsOf (bitsOf h.toNat 23 20) with
    | .error _ => []
    | .ok c =>
      let r := takeCodes c (bitsOf h.toNat 27 24) ws
      ⟨h.toNat, first, r.1⟩ :: clausesFrom fuel (first + r.1.length) r.2

/-- The constant count of a block (R94). -/
def constCount (ws : List W32) : Nat := bitsOf (ws.headD 0).toNat 15 8
/-- The instruction count of a block (R94). -/
def instrCount (ws : List W32) : Nat := bitsOf (ws.headD 0).toNat 23 16
/-- A flag bit of word 0 (R95). -/
def blockFlag (ws : List W32) (k : Nat) : Bool := flag (ws.headD 0).toNat k
def isRare (ws : List W32) : Bool := blockFlag ws 0
/-- The store LSID mask (R94). -/
def lsidMask (ws : List W32) : Nat := (ws.getD 1 0).toNat
/-- The LVW mask, v0 at bit 0 (R94). -/
def lvwMask (ws : List W32) : Nat := (ws.getD 2 0).toNat + 2 ^ 32 * (ws.getD 3 0).toNat
/-- The constant pool (R96). -/
def constPool (ws : List W32) : List W32 := (ws.drop 4).take (constCount ws)

def clausesOf (ws : List W32) : List Clause := clausesFrom ws.length 0 (ws.drop (4 + constCount ws))

/-- The clause that holds an instruction index, by position. -/
def clauseAt (ws : List W32) (idx : Nat) : Option (Nat × Clause) :=
  ((clausesOf ws).zipIdx.find? (fun e => e.1.first ≤ idx && idx < e.1.first + e.1.codes.length)).map
    (fun e => (e.2, e.1))

/-- The words of the instruction at an index. -/
def codeAt (ws : List W32) (idx : Nat) : Option Code :=
  ((clausesOf ws).flatMap (·.codes))[idx]?

/-- The instruction at an index, decoded. -/
def instrAt (ws : List W32) (idx : Nat) : Option Instr :=
  match codeAt ws idx with
  | some c => (decode c).toOption
  | none => none

/-- Every instruction of a block with its index, where its words decode. -/
def instrsOf (ws : List W32) : List (Nat × Instr) :=
  ((clausesOf ws).flatMap (·.codes)).zipIdx.filterMap
    (fun e => (decode e.1).toOption.map (fun i => (e.2, i)))

/-! ## Inputs and targets -/

/-- The pr field of an instruction's word (R104). -/
def prOf (i : Instr) : Nat :=
  match encodeFields i with
  | some f => f.pr
  | none => 0

/-- Data inputs by class and opcode: the input columns of R108 to R115, R276, R316, R363, without the
P of a predicate. `xop` matters for BARV alone. -/
def dataInputs (c : Cls) (op xop : Nat) : List Field :=
  match c with
  | .alu =>
    if op ≤ 7 then [.L, .R] else if op ≤ 9 then [.L] else if op = 0x12 then [.L, .R, .P]
    else if op ≤ 0x11 then [.L, .R] else if op ≤ 0x16 then [.L] else if op = 0x17 then [.L, .R]
    else if op = 0x18 then [.L, .R, .P] else if op ≤ 0x1D then [.L, .R] else if op ≤ 0x1F then [.L]
    else if op ≤ 0x21 then [] else if op ≤ 0x29 then [.L] else if op = 0x31 then [.L]
    else if op = 0x38 || op = 0x39 then [.L, .R] else if 0x3A ≤ op then [.L] else []
  | .fpu =>
    let o := op % 16
    if op % 32 = 0x10 && op < 0x60 then [.L] else if o = 3 then [.L, .R, .P]
    else if o ≤ 7 then [.L, .R] else [.L]
  | .cvt => if op < 0x79 then [.L] else [.L, .R]
  | .flow => if op = 1 || op = 2 || op = 5 then [.L] else []
  | .mem =>
    if op = 2 || op = 3 || op = 0xA || 0x10 ≤ op then [.L, .R] else if op = 7 then [] else [.L]
  | .sync =>
    let o := op % 16
    if op < 0x20 then (if 8 ≤ o && !(o = 0xA && xop / 8 = 2) then [.L, .R, .P] else [.L, .R])
    else if op = 0x21 || op = 0x30 || op = 0x38 then [.L, .R]
    else if op = 0x22 then (if flag xop 4 then [.L] else [])
    else if op = 0x24 || op = 0x28 || op = 0x2B || op = 0x31 then [.L] else []
  | .mtx =>
    if op = 1 then [] else if op = 3 || op = 7 || op = 9 || op = 0xA then [.R] else [.L, .R]
  | .eng =>
    if op = 0 then (if xop / 8 = 0 then [.L, .R] else [.L]) else if op = 3 then [.L, .R] else [.L]
  | .sys =>
    if op = 2 || op = 5 || op = 0x42 || op = 0x43 || op = 0x47 || op = 0x4A || op = 0x4B then [.L]
    else if op = 0x40 || 0x44 ≤ op && op ≤ 0x46 || op = 0x48 || op = 0x49 then [.L, .R] else []

/-- The data inputs of an instruction. -/
def inputsOf (i : Instr) : List Field :=
  match encodeFields i with
  | some f => dataInputs f.cls f.op f.xop
  | none => []

/-- Every input an instruction reads: its data inputs, and P where a predicate gates it (R103). -/
def allInputs (i : Instr) : List Field :=
  if prOf i = 2 || prOf i = 3 then inputsOf i ++ [.P] else inputsOf i

/-- Whether opcode `op` of a class has a T1: formats G and X outside FLOW (R100). -/
def hasT1 (c : Cls) (op : Nat) : Bool :=
  match c with
  | .alu => !(0x20 ≤ op && op ≤ 0x29) && op != 0x30 && op != 0x31
  | .fpu => true
  | .cvt => true
  | .flow => false
  | .mem => op = 4 || op = 7 || 0x10 ≤ op
  | .sync => op = 9 || op = 0xA || op = 0x23 || op = 0x29 || op = 0x2A || op = 0x30 || op = 0x31
  | .mtx => op = 7 || op = 0xA
  | .eng => false
  | .sys => op = 3 || op = 4 || 0x41 ≤ op && op ≤ 0x46 && op != 0x42 || op = 0x49

/-- Whether opcode `op` of a class has a T0. -/
def hasT0 (c : Cls) (op : Nat) : Bool :=
  match c with
  | .alu => op != 0x31
  | .fpu => true
  | .cvt => true
  | .flow => false
  | .mem => op = 0 || op = 1 || op = 4 || op = 7 || op = 9 || 0x10 ≤ op
  | .sync => op < 0x10 || op = 0x23 || op = 0x29 || op = 0x2A || op = 0x30 || op = 0x31 || op = 0x39
  | .mtx => op = 7 || op = 0xA
  | .eng => false
  | .sys => op = 3 || op = 4 || op = 0x41 || 0x43 ≤ op && op ≤ 0x47 || op = 0x49

/-- A target field read as it stands. -/
def targetAt (n : Nat) : Target :=
  match targetOf n with
  | .ok t => t
  | .error _ => .none

/-- T0 and T1 of an instruction. -/
def targetsOf (i : Instr) : List Target :=
  match encodeFields i with
  | some f =>
    [if hasT0 f.cls f.op then targetAt f.lo else .none,
     if hasT1 f.cls f.op then targetAt f.hi else .none]
  | none => [.none, .none]

/-- Key of an operand: 4 × index + field (L 1, R 2, P 3). -/
def fieldKey : Field → Nat
  | .L => 1
  | .R => 2
  | .P => 3
def opKey (idx : Nat) (f : Field) : Nat := 4 * idx + fieldKey f

/-- A 32-bit constant word. -/
def constWord (cs : List W32) (k : Nat) : W32 := cs.getD k 0
/-- Words k and k + 1 as a 64-bit value (R96). -/
def constPair (cs : List W32) (k : Nat) : Nat := (constWord cs k).toNat + 2 ^ 32 * (constWord cs (k + 1)).toNat

end Sys2Proof.Machine
end

