-- ==== Sys2Proof/Machine/Ops.lean ====
section
/-! DEFINITION. The shared operations on threads: scheduler entries and wake-ups (R37, R327 to R330),
returning reservations and discarding a pass (R46, R302), taking a fault (R402, R403, R406, R418)
and returning from one (R404). -/

namespace Sys2Proof.Machine

/-! ## Scheduler entries -/

/-- The triple of a thread: block, workgroup number, role (R327). -/
def State.triple (s : State) (c t : Nat) : Nat × Nat × Nat :=
  ((s.thread c t).blk, s.base c t / 128, s.roleOf c t)

/-- The scheduler entry of a triple. -/
def findEntry (k : Core) (x : Nat × Nat × Nat) : Option Nat :=
  (k.entries.find? (fun e => e.2.blk = x.1 && e.2.wg = x.2.1 && e.2.role = x.2.2)).map (·.1)

/-- The lowest-numbered free entry of the 256. -/
def freeEntry (k : Core) : Option Nat := (List.range 256).find? (fun i => (mget k.entries i).isNone)

/-- A thread is in a snapshot that has not been admitted: its bit is clear (R34). -/
def inSnapshot (k : Core) (t : Nat) : Bool := k.rounds.any (fun r => r.2.pending.contains t)

/-- The Waiting members of an entry: their bits are set (R34, R330). -/
def State.members (s : State) (c : Nat) (e : SEntry) : List Nat :=
  ((s.core c).threads.filter (fun x => x.2.st = .waiting && !x.2.yieldPending && x.2.blk = e.blk
    && !inSnapshot (s.core c) x.1 && s.base c x.1 / 128 = e.wg && s.roleOf c x.1 = e.role)).map (·.1)

/-- A thread becomes Waiting with age 0. -/
def State.setWaiting (s : State) (c t : Nat) : State :=
  s.setThread c t { s.thread c t with st := .waiting, age := 0, yieldPending := false }

/-- A thread enters the Waiting state: it joins the entry of its triple, creates one, or waits for
one to be released (R328, R329). -/
def State.enterWaiting (s : State) (c t : Nat) : State :=
  let x := s.triple c t
  match findEntry (s.core c) x with
  | some _ => s.setWaiting c t
  | none =>
    match freeEntry (s.core c) with
    | some i =>
      let k := s.core c
      let e : SEntry := { blk := x.1, wg := x.2.1, role := x.2.2 }
      (s.setCore c { k with entries := mput k.entries i e }).setWaiting c t
    | none =>
      if (s.core c).entryWait.contains t then s else
      let k := s.core c
      let s := if (s.thread c t).st = .commit then s.count c 0x00A (some (s.tenantOf (.fab c t))) else s
      s.setCore c { k with entryWait := k.entryWait ++ [t] }

/-- Entries without members and without a snapshot are released, and threads that wait for an entry
are served in the order in which they began to wait (R328, R329). -/
def State.sweepEntries (s : State) (c : Nat) : State :=
  let k := s.core c
  let live := k.entries.filter (fun e => e.2.snap.isSome || !(s.members c e.2).isEmpty)
  let s := s.setCore c { k with entries := live }
  k.entryWait.foldl (fun st t =>
    let kk := st.core c
    if (findEntry kk (st.triple c t)).isSome || (freeEntry kk).isSome then
      (st.setCore c { kk with entryWait := kk.entryWait.filter (· != t) }).enterWaiting c t
    else st) s

/-- An XPATH record of a thread enters its core's event queue (R54). -/
def State.postXpath (s : State) (c t : Nat) : State :=
  let r := mkRec 1 0 0 (s.tenantOf (.fab c t)) c t (s.seqOf c t) (s.thread c t).blk (s.die (dieOf c)).clk 0
  (s.count c 0x021 (some (s.tenantOf (.fab c t)))).postCore c r

/-- A thread enters its block: Waiting, or Rare where the block is rare (R54, R169). -/
def State.enterBlock (s : State) (c t : Nat) : State :=
  if isRare (s.block (s.imgOf c t) (s.thread c t).blk) then
    (s.setThread c t { s.thread c t with st := .rare }).postXpath c t
  else s.enterWaiting c t

/-- The Held threads of a core whose failed condition satisfies `f` return to Waiting, or to Rare
where their block is rare (R37, R55). -/
def State.wakeSlots (s : State) (c : Nat) (f : Nat → HeldCond → Bool) : State :=
  (s.core c).threads.foldl (fun st e =>
    match e.2.st with
    | .held h => if f e.1 h then st.enterBlock c e.1 else st
    | _ => st) s

/-- Those of one workgroup: its sluices, barriers, windows and cluster ports are its own (R37). -/
def State.wakeWg (s : State) (c b : Nat) (f : HeldCond → Bool) : State :=
  s.wakeSlots c (fun t h => f h && s.base c t = b)

/-- The same on every core of a die. -/
def State.wakeDie (s : State) (d : Nat) (f : HeldCond → Bool) : State :=
  (List.range 16).foldl (fun st i => st.wakeSlots (d * 16 + i) (fun _ h => f h)) s

/-- The same on every core of the device, by core and slot. -/
def State.wakeWhere (s : State) (f : Nat → Nat → HeldCond → Bool) : State :=
  s.cores.foldl (fun st e => st.wakeSlots e.1 (f e.1)) s

/-- The same for what no core, workgroup or launch has of its own. -/
def State.wakeAll (s : State) (f : HeldCond → Bool) : State := s.wakeWhere (fun _ _ h => f h)

/-- The last outstanding memory operation of a thread has performed (R37). -/
def State.wakeLsq (s : State) (a : Agent) : State :=
  match a.slot with
  | some t => if s.lsqClear a.core t then s.wakeSlots a.core (fun u h => u = t && h == .lsq) else s
  | none => s

/-! ## Reservations (R36, R302). Resource keys: q for the pushes of sluice q, then the ranges below. -/

def resEngine (e : Nat) : Nat := 100 + e
def resCulvert (cv : Nat) : Nat := 200 + cv
def resQueue (q : Nat) : Nat := 300 + q
def resTask : Nat := 400
/-- The place of a radix port at the receiving thread `rt`. -/
def resRadix (port rt : Nat) : Nat := 10000 + port * 4096 + rt
def resCluster (port : Nat) : Nat := 600 + port
/-- A failed condition 6 on a place of some radix port: the sender's port. -/
def radixWait : HeldCond → Option Nat
  | .reserve r => if 10000 ≤ r && r < 100000 then some ((r - 10000) / 4096) else none
  | _ => none
/-- A failed condition 6 on a place in the window of a port. -/
def windowWait (port : Nat) : HeldCond → Bool
  | .reserve r => 100000 ≤ r && (r - 100000) % 16 = port
  | _ => false
/-- A place in line `line` of the window of a port. -/
def resWindow (port line : Nat) : Nat := 100000 + line * 16 + port

def setEngineOf (x : Die) (e : Nat) (g : Engine) : Die :=
  if e < 4 then { x with copy := mput x.copy e g }
  else if e = 4 then { x with coll := g } else { x with spill := g }

def State.engine (s : State) (d e : Nat) : Engine := engineOf (s.die d) e
def State.setEngine (s : State) (d e : Nat) (g : Engine) : State := s.setDie d (setEngineOf (s.die d) e g)

/-- The key of a culvert of a launch. -/
def culvertKey (seq cv : Nat) : Nat := seq * 64 + cv

/-- The workgroup at column and row offsets in the gang of a workgroup: its core and base slot. -/
def State.peerAt (s : State) (w : Wg) (dx dy : Int) : Option (Nat × Nat) :=
  let g := s.gang w.gang
  let x := (w.wgid % g.w : Nat) + dx
  let y := (w.wgid / g.w : Nat) + dy
  if 0 ≤ x && x < g.w && 0 ≤ y && y < g.h then
    (g.members[(y.toNat * g.w + x.toNat)]?).map (fun m => (m.core, m.base))
  else none

/-- The stream declaration of a port. -/
def streamDecl (im : Image) (port : Nat) : Option StreamDecl := im.streams.find? (·.port = port)

/-- A port that some block of an image writes (R259). -/
def portWritten (im : Image) (port : Nat) : Bool :=
  im.blocks.any (fun ws => (instrsOf ws).any (fun e => match e.2 with
    | .sput _ q _ | .smark _ q _ => q.toNat = port
    | _ => false))

/-- A port that some block of an image reads (R259). -/
def portRead (im : Image) (port : Nat) : Bool :=
  im.blocks.any (fun ws => (instrsOf ws).any (fun e => match e.2 with
    | .sget _ q _ _ => q.toNat = port
    | _ => false))

/-- The read ports that a radix writer's channel can end on: opposite offsets, equal element and rank (R309). -/
def radixPeers (im : Image) (d : StreamDecl) : List Nat :=
  (im.streams.filter (fun e => e.kind = 2 && e.port != d.port && e.dx = -d.dx && e.dy = -d.dy
    && e.elem = d.elem && e.rank = d.rank && portRead im e.port)).map (·.port)

/-- The port a radix writer's channel ends on: an accepted image has just one (R309). -/
def radixPeer (im : Image) (d : StreamDecl) : Option Nat := (radixPeers im d).head?

/-- The receiver of thread `t`'s radix port: core, base slot, port and thread index (R309). -/
def State.receiver (s : State) (c t port : Nat) : Option (Nat × Nat × Nat × Nat) := do
  let im := s.image (s.imgOf c t)
  let d ← streamDecl im port
  let p ← radixPeer im d
  let m ← s.peerAt (s.wgOf c t) d.dx d.dy
  let n := (s.wg m.1 m.2).n
  if n = 0 then none else some (m.1, m.2, p, (t - s.base c t) % n)

/-- Senders held for a place in the FIFOs that end at a workgroup's port and thread, where named, are woken (R37). -/
def State.wakeSenders (s : State) (rc rb : Nat) (at_ : Option (Nat × Nat)) : State :=
  s.wakeWhere (fun c t h => match (radixWait h).bind (s.receiver c t) with
    | some (c', b', p, r) => c' = rc && b' = rb && at_.all (· == (p, r))
    | none => false)

/-- Threads held for a credit of a culvert of a launch are woken (R37, R320). -/
def State.wakeCulvert (s : State) (seq cv : Nat) : State :=
  s.wakeWhere (fun c t h => h == .reserve (resCulvert cv) && s.seqOf c t = seq)

/-- `n` units of a resource return, and the threads held for it are woken (R37, R302). -/
def State.giveBack (s : State) (a : Agent) (res n : Nat) : State :=
  let c := a.core
  let t := a.slot.getD 0
  let d := dieOf c
  if n = 0 then s
  else if res < 16 then
    let b := s.base c t
    let w := s.wg c b
    let q := mgetD w.sluices res {}
    let q := { q with pushRsv := q.pushRsv - n, allowRsv := q.allowRsv - n, allow := min (q.allow + n) 0xFFFF }
    (s.setWg c b { w with sluices := mput w.sluices res q }).wakeWg c b (· == .sluice res)
  else if res < 200 then
    let g := s.engine d (res - 100)
    (s.setEngine d (res - 100) { g with rsv := g.rsv - n }).wakeDie d (· == .reserve res)
  else if res < 300 then
    let k := culvertKey (s.seqOf c t) (res - 200)
    let cv := mgetD s.culverts k {}
    let cv := { cv with rsv := cv.rsv - n }
    ({ s with culverts := mput s.culverts k cv } : State).wakeCulvert (s.seqOf c t) (res - 200)
  else if res < 400 then
    ({ s with lqRsv := mput s.lqRsv (res - 300) (mgetD s.lqRsv (res - 300) 0 - n) } : State).wakeAll
      (· == .reserve res)
  else if res = 400 then
    (s.setDie d { s.die d with taskRsv := (s.die d).taskRsv - n }).wakeDie d (· == .reserve res)
  else if res < 10000 then
    let b := s.base c t
    let w := s.wg c b
    (s.setWg c b { w with clusterUsed := mput w.clusterUsed (res - 600) (mgetD w.clusterUsed (res - 600) 0 - n) }).wakeWg c b
      (· == .reserve res)
  else if res < 100000 then
    match s.receiver c t ((res - 10000) / 4096) with
    | some (rc, rb, rp, rt) =>
      let w := s.wg rc rb
      let k := rp * 4096 + rt
      (s.setWg rc rb { w with chanRsv := mput w.chanRsv k (mgetD w.chanRsv k 0 - n) }).wakeSenders rc rb (some (rp, rt))
    | none => s
  else
    let port := (res - 100000) % 16
    let line := (res - 100000) / 16
    let b := s.base c t
    let w := s.wg c b
    let x := mgetD w.windows port {}
    let l := mgetD x.lines line {}
    let l := { l with rsv := l.rsv - n }
    let lines := if l.rsv = 0 && !l.valid && !l.dirty && !l.busy then mdel x.lines line else mput x.lines line l
    (s.setWg c b { w with windows := mput w.windows port { x with lines := lines } }).wakeWg c b (windowWait port)

/-- Every unused send reservation of a pass returns. -/
def State.giveBackAll (s : State) (a : Agent) (p : Pass) : State :=
  p.rsv.foldl (fun st e => st.giveBack a e.1 e.2) s

/-- The entries that a thread's pass has reserved return to the front, undelivered (R302, R310). -/
def State.returnPops (s : State) (c t : Nat) : State :=
  let b := s.base c t
  let w := s.wg c b
  let clear (e : SlEntry) : SlEntry := if e.rsv = some t then { e with rsv := none, clause := 0, delivered := false } else e
  let clearCh (e : ChEntry) : ChEntry := if e.rsv = some t then { e with rsv := none } else e
  let w' := { w with
    sluices := w.sluices.map (fun q => (q.1, { q.2 with entries := q.2.entries.map clear }))
    chans := w.chans.map (fun q => (q.1, q.2.map clearCh)) }
  let s := s.setWg c b w'
  w.sluices.foldl (fun st q =>
    if q.2.entries.any (·.rsv = some t) then st.wakeWg c b (· == .sluice q.1) else st) s

/-! ## Frames, tokens of a pass, discarding it -/

/-- Key of a frame in the frame table of an instance. -/
def frameKey (lane f : Nat) : Nat := lane * 1024 + f

/-- The frame of a pass is free, its generation kept (R43). -/
def freeFrame (x : Inst) (p : Pass) : Inst :=
  let k := frameKey p.lane p.frame
  { x with ftab := mput x.ftab k { mgetD x.ftab k {} with slot := none } }

/-- A data token of a thread slot (R42). -/
def Tok.isOf (u : Tok) (t : Nat) : Bool := u.slot = t && u.kind = .data

/-- A pass's tokens leave the latches and edges of its core. -/
def dropTokens (k : Core) (t : Nat) : Core :=
  { k with
    latch := k.latch.filter (fun e => !e.2.isOf t)
    insts := k.insts.map (fun e =>
      (e.1, { e.2 with edges := (e.2.edges.map (fun q => (q.1, q.2.filter (fun u => !u.isOf t)))).filter (fun q => !q.2.isEmpty) })) }

/-- Rounds without a pending member and without a pass are over. -/
def sweepRounds (k : Core) : Core :=
  { k with rounds := k.rounds.filter (fun r => !r.2.pending.isEmpty
      || k.threads.any (fun x => match x.2.pass with | some p => p.inst.isSome && p.round = r.1 | none => false)
      || k.insts.any (fun i => i.2.admitting = some r.1)) }

/-- A thread leaves the active set of its round (R38). -/
def leaveRound (k : Core) (p : Pass) (t : Nat) : Core :=
  if p.inst.isSome then
    { k with rounds := k.rounds.map (fun r =>
        if r.1 = p.round && !r.2.left.contains t then (r.1, { r.2 with left := r.2.left ++ [t] }) else r) }
  else k

/-- The pass of a thread is discarded: its reservations return, its tokens and frame are freed
(R43, R46, R139, R302). -/
def State.dropPass (s : State) (c t : Nat) : State :=
  match (s.thread c t).pass with
  | none => s
  | some p =>
    let s := (s.giveBackAll (.fab c t) p).returnPops c t
    let k := dropTokens (s.core c) t
    let k := match p.inst with
      | some i => { k with insts := mput k.insts i (freeFrame (mgetD k.insts i {}) p) }
      | none => k
    let k := { k with threads := mput k.threads t { mgetD k.threads t {} with pass := none } }
    (s.setCore c (sweepRounds (leaveRound k p t))).endReqs c t

/-! ## Taking a fault -/

/-- Address of the commit image of a slot (R403). -/
def State.imageAddr (s : State) (c t : Nat) : Nat :=
  s.reg (dsReg (dieOf c) 0x450) + ((c % 16) * 8192 + t) * 2048

/-- The branch word of a commit image (R403). -/
def branchWord : Option Branch → Nat
  | none => 0
  | some (.enter b) => b
  | some .exit => 2 ^ 18
  | some (.call b r) => b + 2 ^ 19 + r * 2 ^ 20
  | some (.yield b) => b + 2 ^ 38
  | some (.ret b) => b + 2 ^ 39

/-- The branch of a branch word. -/
def branchOfWord (n : Nat) : Branch :=
  let b := n % 2 ^ 18
  if flag n 18 then .exit
  else if flag n 19 then .call b (bitsOf n 37 20)
  else if flag n 39 then .ret b
  else if flag n 38 then .yield b
  else .enter b

/-- Access size of an operation in bytes, as byte 2 of its commit-image entry (R403): the size of its
memory access, 0 where it has none. -/
def opSize (i : Instr) : Nat :=
  match encodeFields i with
  | some f =>
    match f.cls with
    | .mem => if f.op = 6 || f.op = 8 then 0 else 2 ^ (f.xop / 8)
    | .sync =>
      if f.op < 0x20 then
        if f.op % 16 = 9 then 16
        else if f.op % 16 = 10 then 4 * 2 ^ (f.xop / 8)
        else if f.op % 16 = 1 then 4
        else if 4 ≤ f.op % 16 then 4 * 2 ^ (f.xop / 8)
        else if f.xop / 8 % 2 = 1 then 8 else 4
      else 0
    | _ => 0
  | none => 0

/-- The instruction that class, opcode and size of a commit-image entry name, with the other fields of `i`; `i` itself
where they name none (R403, R404). (log 86, DEDUCED) -/
def editInstr (i : Instr) (cls op size : Nat) : Instr :=
  match encodeFields i, clsOf cls with
  | some f, .ok c =>
    if f.cls = c && f.op = op && opSize i = size then i
    else (([f.xop, Nat.xor f.xop 8] ++ (List.range 4).map (fun z => 8 * z + f.xop % 8)).findSome? (fun x =>
      match decodeFields { f with cls := c, op, xop := x } with
      | .ok j => if opSize j = size then some j else none
      | .error _ => none)).getD i
  | _, _ => i

/-- The instruction of an operation: the block's, or the one that its commit image has named. -/
def opInstr (ws : List W32) (o : Op) : Option Instr := o.instr.orElse (fun _ => instrAt ws o.idx)

/-- The 32 bytes of one LSID in a commit image (R403): a pending operation keeps its address and the
operands it has still to use, a performed returning atomic its result. -/
def opEntry (i : Instr) (o : Op) : List Byte :=
  match encodeFields i with
  | some f =>
    let data := if o.performed then o.l.toNat + 2 ^ 64 * o.p.toNat else o.r.toNat + 2 ^ 64 * o.p.toNat
    toLE ((if o.performed then 1 else 2) + 2 ^ 8 * f.op + 2 ^ 16 * opSize i + 2 ^ 24 * f.cls.code) 8
      ++ toLE (if o.va = 0 then o.l.toNat else o.va) 8 ++ toLE data 16
  | none => toLE 0 32

/-- The commit image of a pass (R403). -/
def commitImage (ws : List W32) (p : Pass) : List Byte :=
  let regs := (List.range 64).flatMap (fun v => toLE (((mget p.lvw v).getD none).getD 0).toNat 8)
  let entries := (List.range 32).flatMap (fun j =>
    match mget p.ops j with
    | some o => match opInstr ws o with
      | some i => opEntry i o
      | none => toLE 0 32
    | none => toLE 0 32)
  regs ++ toLE (lvwMask ws) 8 ++ toLE (branchWord p.branch) 8 ++ entries ++ toLE 0 496

/-- The bytes of a park record (R402). -/
def parkBytes (k : Park) : List Byte :=
  toLE k.code 1 ++ toLE k.sub 1 ++ toLE (if k.partialAt.isSome then 1 else 0) 1
    ++ toLE (k.partialAt.getD 0xFF) 1 ++ toLE k.blk 4 ++ toLE (k.idx.getD 0xFF) 1 ++ toLE k.phase 1
    ++ toLE 0 2 ++ toLE k.seq 4 ++ toLE k.addr 8 ++ toLE k.clock 8

/-- The PARK event record of a park (R406). -/
def parkRec (k : Park) (tenant c t : Nat) : Rec :=
  mkRec 2 k.code k.sub tenant c t k.seq
    (k.blk + 2 ^ 18 * (k.idx.getD 0) + (if k.idx.isSome then 2 ^ 25 else 0)
      + 2 ^ 26 * (k.partialAt.getD 0) + (if k.partialAt.isSome then 2 ^ 31 else 0)) k.clock k.addr

/-- The park record of a fault of a thread (R402). -/
def State.parkOf (s : State) (c t code sub addr : Nat) (idx part : Option Nat) (ph : Nat) : Park :=
  { code, sub, partialAt := part, blk := (s.thread c t).blk, idx, phase := ph,
    seq := s.seqOf c t % 2 ^ 32, addr := addr % 2 ^ 64, clock := (s.die (dieOf c)).clk }

/-- The record is written, the thread is Parked, and the PARK event is posted (R402, R406). -/
def State.park (s : State) (c t : Nat) (k : Park) : State :=
  let ten := s.tenantOf (.fab c t)
  let s := s.setThread c t { s.thread c t with st := .parked, park := some k, skip := none }
  ((s.count c 0x022 (some ten)).postCore c (parkRec k ten c t)).sweepEntries c

/-- The control core goes back to its duties after the rare pass of a slot. -/
def State.endRare (s : State) (c t : Nat) : State :=
  if (s.core c).cc = .rare t then s.setCore c { s.core c with cc := .idle } else s

/-- A precise fault in phase one of a thread's pass: the thread parks without partial commit and
nothing of the pass has performed (R46, R402). None discards a pass whose phase one is complete (R271). -/
def State.parkPhaseOne (s : State) (c t code sub addr : Nat) (idx : Option Nat) : State :=
  if ((s.thread c t).pass.map (·.two)).getD false then s
  else
    let k := s.parkOf c t code sub addr idx none 1
    ((s.dropPass c t).park c t k).endRare c t

/-- A fault of a returning operation at LSID `j` in phase two: the thread parks with partial commit,
its commit image in the die's park area (R48, R403). The reservations stay with the thread. -/
def State.parkPartial (s : State) (c t code sub addr j : Nat) : State :=
  match (s.thread c t).pass with
  | none => s
  | some p =>
    let k := s.parkOf c t code sub addr ((mget p.ops j).map (·.idx)) (some j) 2
    let s := s.writeHome (s.imageAddr c t) (commitImage (s.block p.img p.blk) p)
    let s := s.setCore c (leaveRound (s.core c) p t)
    (s.park c t k).endRare c t

/-- A control core or a supervisor halts (R406, R418): by HALT with code 0, or by a fault. -/
def State.halt (s : State) (a : Agent) (code addr : Nat) : State :=
  let s : State := { s with
    reqs := s.reqs.filter (fun e => e.2.agent != a || !e.2.kind.holds)
    invals := s.invals.filter (fun e => e.2.agent != a) }
  match a with
  | .sup d =>
    let s := s.setCtl a { s.ctl a with pass := none }
    let s := s.setReg (dsReg d 0x18) 2
    s.postDie d (mkRec 8 code 0 0 0xFFFF 0xFFFF 0 0 (s.die d).clk addr)
  | _ =>
    let c := a.core
    let s := s.setCore c { s.core c with cc := .halted, ctl := { (s.core c).ctl with pass := none } }
    s.postDie (dieOf c) (mkRec 8 code 0 0 c 0xFFFF 0 0 (s.die (dieOf c)).clk addr)

/-- Taking a precise fault of phase one: the one operation through which every instruction faults.
A thread parks (R46, R402); a control thread or a supervisor halts (R418). -/
def State.fault (s : State) (a : Agent) (idx : Option Nat) (code : Nat) (sub : Nat := 0)
    (addr : Nat := 0) : State :=
  match a with
  | .fab c t => s.parkPhaseOne c t code sub addr idx
  | .rare c t => s.parkPhaseOne c t code sub addr idx
  | a => s.halt a code addr

/-- The fault of the executing instruction. -/
def State.raise (s : State) (code : Nat) (sub : Nat := 0) (addr : Nat := 0) : State :=
  s.fault s.cur.agent (some s.cur.idx) code sub addr

/-- The fault of a returning operation at LSID `j` in phase two. -/
def State.faultTwo (s : State) (a : Agent) (code sub addr j : Nat) : State :=
  match a with
  | .fab c t => s.parkPartial c t code sub addr j
  | .rare c t => s.parkPartial c t code sub addr j
  | a => s.halt a code addr

/-! ## Fault codes of R401 -/

def fcAlign : Nat := 0x01
def fcAccess : Nat := 0x02
def fcXlate : Nat := 0x03
def fcPoison : Nat := 0x04
def fcRemote : Nat := 0x05
def fcTimeout : Nat := 0x06
def fcPriv : Nat := 0x07
def fcTagerr : Nat := 0x08
def fcDupout : Nat := 0x09
def fcDupin : Nat := 0x0A
def fcBlock : Nat := 0x0B
def fcStackOvf : Nat := 0x0C
def fcStackUnf : Nat := 0x0D
def fcMatrix : Nat := 0x0E
def fcTrap : Nat := 0x0F
def fcBrk : Nat := 0x10
def fcAssert : Nat := 0x11

/-! ## Returning from a fault (R404) -/

/-- The LSID entry of a commit image as it stands in memory: an operation of the pass restored from it. One below the
LSID at which phase two restarts stays performed; of the others, one that the image does not call pending performs no
more, and a pending one takes instruction, address and operands from the image. The address word names the translated
place again where it is the saved one (R48, R404). (log 86, DEDUCED) -/
def restoreOp (ws : List W32) (m : Memory) (at_ : Nat) (o : Op) : Op :=
  let st := readLE m at_ 1
  let addr := readLE m (at_ + 8) 8
  let d0 := readLE m (at_ + 16) 8
  let d1 := readLE m (at_ + 24) 8
  let i := opInstr ws o
  let j := i.map (fun i => editInstr i (readLE m (at_ + 3) 1 % 16) (readLE m (at_ + 1) 1 % 128) (readLE m (at_ + 2) 1))
  if o.performed then o
  else if st != 2 then { o with performed := true, l := BitVec.ofNat 64 d0, p := BitVec.ofNat 64 d1 }
  else if o.null && i = j then o
  else
    let o := { o with null := false, instr := if i = j then o.instr else j, waiting := 0 }
    let o := { o with r := BitVec.ofNat 64 d0, p := BitVec.ofNat 64 d1, started := false }
    if o.va = 0 then { o with l := BitVec.ofNat 64 addr }
    else if o.va = addr then o
    else { o with va := addr, l := BitVec.ofNat 64 addr, parts := [] }

/-- The value a predicate field asks of bit 0 of P holds (R104). -/
def predHolds (pr : Nat) (p : W64) : Bool :=
  if pr = 2 then predOfTok p else if pr = 3 then !predOfTok p else true

/-- An LVW of register `v` whose L is fed by instruction `i`. -/
def feedsLvw (ws : List W32) (i : Instr) (v : Nat) : Option Nat :=
  (targetsOf i).findSome? (fun tg => match tg with
    | .to .L j => match instrAt ws j.toNat with
      | some (.lvw _ r) => if r.toNat = v then some j.toNat else none
      | _ => none
    | _ => none)

/-- Register `v` will take the result of a returning atomic that the pass has delivered: its LVW is
not predicated off (R47, R102). -/
def fedByAtomic (ws : List W32) (p : Pass) (v : Nat) : Bool :=
  p.ops.any (fun e => !e.2.null && match instrAt ws e.2.idx with
    | some i => match feedsLvw ws i v with
      | some j => match instrAt ws j with
        | some lvw => match mget p.opnd (opKey j .P) with
          | some q => predHolds (prOf lvw) q
          | none => prOf lvw = 0
        | none => false
      | none => false
    | none => false)

/-- LVW values of a commit image as it stands: a register of its mask takes its value, unless a nulled LVW or a pending
returning atomic is its source; one that the mask leaves out is not written (R403, R404). -/
def restoreLvw (ws : List W32) (m : Memory) (at_ : Nat) (p : Pass) : Map (Option W64) :=
  let mask := readLE m (at_ + 0x200) 8
  let due := { p with ops := p.ops.filter (fun e => !e.2.performed) }
  (List.range 64).foldl (fun l v =>
    if !flag mask v then (if flag (lvwMask ws) v then mput l v none else mdel l v)
    else if mget p.lvw v = some none || ((mget p.lvw v).isNone && fedByAtomic ws due v) then l
    else mput l v (some (BitVec.ofNat 64 (readLE m (at_ + 8 * v) 8)))) p.lvw

/-- The pass of a partial commit with its commit image as it then stands: LVW values, branch and
pending operations (R48, R404). -/
def restorePass (ws : List W32) (m : Memory) (at_ : Nat) (p : Pass) : Pass :=
  let p : Pass := { p with
    branch := some (branchOfWord (readLE m (at_ + 0x208) 8))
    ops := p.ops.map (fun e => (e.1, restoreOp ws m (at_ + 0x210 + 32 * e.1) e.2)) }
  { p with lvw := restoreLvw ws m at_ p }

/-- Resume of a Parked thread (R33, R404): without partial commit it enters its block again; with
one, phase two restarts at LSID k from the commit image. -/
def State.resume (s : State) (c t : Nat) (skip : Bool) : State :=
  let x := s.thread c t
  match x.st, x.park with
  | .parked, some k =>
    match k.partialAt, x.pass with
    | some _, some p =>
      let p := restorePass (s.block p.img p.blk) s.postedMem (s.imageAddr c t) p
      s.setThread c t { x with st := .commit, park := none, pass := some p }
    | _, _ =>
      let x := { x with park := none, skip := if skip then k.idx else x.skip }
      (s.setThread c t x).enterBlock c t
  | _, _ => s

end Sys2Proof.Machine
end

