-- ==== Sys2Proof/Machine/Operands.lean ====
section
/-! DEFINITION. Operand forms: constants, wait conditions of a clause, tokens on edges and in operand
slots, when an instruction is ready to fire, taking its operands, filling its latches, and the block
sink (R34 to R46, R96, R99, R103, R104, R139 to R142, R297, R298, R387, R393). -/

namespace Sys2Proof.Machine

/-! ## Engine contexts and barriers that a thread can wait on -/

/-- The number a timeline has reached (R384). -/
def State.timeline (s : State) (ctx : Nat) : Nat := ((s.context ctx).getD {}).timeline

/-- Memory address of a byte of a workgroup's partition (R210). -/
def partAddr (c : Nat) (w : Wg) (off : Nat) : Nat := scratchBase c + w.partBase + off

/-- The fields of a barrier object (R388). -/
structure BarObj where
  arrivals : Nat
  expected : Nat
  mask : Nat
  isOpen : Bool
  tagValid : Bool
  phase : Nat
  tag : Nat
  pending : Nat
  deriving DecidableEq, Repr

def barOf (m : Memory) (a : Nat) : BarObj :=
  let w := readLE m a 8
  { arrivals := bitsOf w 12 0, expected := bitsOf w 25 13, mask := bitsOf w 29 26, isOpen := flag w 30,
    tagValid := flag w 31, phase := bitsOf w 47 32, tag := bitsOf w 63 48, pending := readLE m (a + 8) 8 }

/-- The 16 bytes of a barrier object. -/
def barBytes (o : BarObj) : List Byte :=
  toLE (o.arrivals % 2 ^ 13 + 2 ^ 13 * (o.expected % 2 ^ 13) + 2 ^ 26 * (o.mask % 16)
    + (if o.isOpen then 2 ^ 30 else 0) + (if o.tagValid then 2 ^ 31 else 0)
    + 2 ^ 32 * (o.phase % 2 ^ 16) + 2 ^ 48 * (o.tag % 2 ^ 16)) 8 ++ toLE (o.pending % 2 ^ 64) 8

/-- The object a barrier slot of a thread's workgroup is bound to. -/
def State.barrier (s : State) (c t q : Nat) : Option BarObj :=
  let w := s.wgOf c t
  (mget w.barriers q).map (fun b => barOf s.mem (partAddr c w b.off))

/-- The barrier is ready for the thread (R393). -/
def State.barReady (s : State) (c t q : Nat) : Bool :=
  match s.barrier c t q, mget (s.thread c t).arrivals q with
  | some o, some ph => o.phase != ph
  | _, _ => true

/-- A wait slot is satisfied: its timeline has reached its value (R36, R134). -/
def State.waitMet (s : State) (w : WaitSlot) : Bool := w.val ≤ s.timeline w.ctx

/-- Every wait slot of a clause's timeline mask is satisfied; else the first that is not (R36). -/
def State.waitFails (s : State) (c t hdr : Nat) : Option WaitSlot :=
  ((List.range 8).filterMap (fun n =>
    if flag hdr (8 + n) then
      let w := mgetD (s.thread c t).wait n {}
      if s.waitMet w then none else some w
    else none)).head?

/-! ## Sluice reservations (R301) -/

/-- Instructions of a clause, with indices. -/
def clauseInstrs (cl : Clause) : List (Nat × Instr) :=
  cl.codes.zipIdx.filterMap (fun e => (decode e.1).toOption.map (fun i => (cl.first + e.2, i)))

/-- How many QPOPs of sluice `q` there are among instructions. -/
def popsOf (is : List (Nat × Instr)) (q : Nat) : Nat :=
  (is.filter (fun e => match e.2 with | .qpop _ x _ _ => x.toNat = q | _ => false)).length

/-- How many QPUSHes of sluice `q` there are among instructions. -/
def pushesOf (is : List (Nat × Instr)) (q : Nat) : Nat :=
  (is.filter (fun e => match e.2 with | .qpush _ x _ => x.toNat = q | _ => false)).length

/-- The oldest `n` unreserved entries of a sluice become slot `t`'s. -/
def reservePops (t k : Nat) : Nat → List SlEntry → List SlEntry
  | 0, es => es
  | _, [] => []
  | n + 1, e :: es =>
    if e.rsv.isNone then { e with rsv := some t, clause := k } :: reservePops t k n es
    else e :: reservePops t k (n + 1) es

def unreserved (q : Sluice) : Nat := (q.entries.filter (·.rsv.isNone)).length

def State.sluice (s : State) (c t q : Nat) : Sluice := mgetD (s.wgOf c t).sluices q {}
def State.setSluice (s : State) (c t q : Nat) (x : Sluice) : State :=
  let b := s.base c t
  let w := s.wg c b
  s.setWg c b { w with sluices := mput w.sluices q x }

/-- No request of an agent's pass is outstanding for an instruction before index `n`. -/
def State.readsBefore (s : State) (a : Agent) (n : Nat) : Bool :=
  s.reqs.all (fun e => e.2.agent != a || n ≤ e.2.idx || !e.2.kind.holds)

/-- The conditions of a clause after the first hold for a thread (R99, R301, R393). LSQ waits for the requests of the
instructions before the clause. (log 85, DEDUCED) -/
def State.clauseOpen (s : State) (a : Agent) (p : Pass) (idx : Nat) : Bool :=
  match a.slot, clauseAt (s.block p.img p.blk) idx with
  | some t, some (k, cl) =>
    if k = 0 || p.clauseDone.contains k then true else
    let c := a.core
    let q := cl.hdr % 16
    (s.waitFails c t cl.hdr).isNone
      && (!flag cl.hdr 7 || max 1 (popsOf (clauseInstrs cl) q) ≤ unreserved (s.sluice c t q))
      && (!flag cl.hdr 4 || s.barReady c t q)
      && (!flag cl.hdr 5 || s.readsBefore a cl.first)
  | _, _ => true

/-- A clause that opens takes the sluice entries of its QPOPs, oldest first, in one step (R301). -/
def State.openClause (s : State) (a : Agent) (idx : Nat) : State :=
  match a.slot, s.passOf a with
  | some t, some p =>
    match clauseAt (s.block p.img p.blk) idx with
    | some (k, cl) =>
      if k = 0 || p.clauseDone.contains k then s else
      let s := s.setPass a { p with clauseDone := p.clauseDone ++ [k] }
      if flag cl.hdr 7 then
        let q := cl.hdr % 16
        let x := s.sluice a.core t q
        s.setSluice a.core t q { x with entries := reservePops t k (popsOf (clauseInstrs cl) q) x.entries }
      else s
    | none => s
  | _, _ => s

/-! ## Places on the fabric (R117 to R121) -/

/-- The placement entry of an instruction. -/
def placeEntry (im : Image) (blk idx : Nat) : Nat := ((im.places.getD blk {}).entries.getD idx 0).toNat

/-- Tile of an instruction for a lane: column and row (R117, R120, R121). -/
def tileOf (im : Image) (x : Inst) (idx lane : Nat) : Nat × Nat :=
  let e := placeEntry im x.blk idx
  let col := bitsOf e 30 27
  if flag e 31 then (col, if flag e 24 then 9 else 0)
  else
    let o := x.origins.getD (lane / 8) (0, 0, none)
    let col := o.1 + col
    (match o.2.2 with
      | some cf => if cf ≤ col then col + 1 else col
      | none => col, o.2.1 + bitsOf e 26 24)

/-- The element that an instruction's station stands in: tile × 8 + tile lane (R17, R120). -/
def State.element (s : State) (c i idx lane : Nat) : Nat :=
  let x := s.inst c i
  let p := tileOf (s.image x.img) x idx lane
  (p.2 * 16 + p.1) * 8 + lane % 8

/-- Depth of the edge of a target: 2 × (code + 1) entries (R117). -/
def edgeDepth (im : Image) (blk idx t : Nat) : Nat :=
  let e := placeEntry im blk idx
  2 * ((if t = 0 then bitsOf e 17 14 else bitsOf e 13 10) + 1)

/-- An instruction of a block stands on an edge tile, in a station that every copy shares (R120). -/
def edgeEntry (im : Image) (blk idx : Nat) : Bool := flag (placeEntry im blk idx) 31

/-- Stations of an instance: 128 × index + lane, the tile lane on an edge tile (R120). -/
def stationCodes (im : Image) (x : Inst) : List Nat :=
  (instrsOf (im.blocks.getD x.blk [])).flatMap (fun e =>
    (List.range (if edgeEntry im x.blk e.1 then 8 else x.width)).map (128 * e.1 + ·))

/-- An instance retires and stood on its core before instance `i`, or before one still to be configured. -/
def retiresBefore (k : Core) (i : Nat) (e : Nat × Inst) : Bool :=
  e.1 != i && e.2.retiring && (mget k.insts i).all (fun x => e.2.lru < x.lru)

/-- An earlier, retiring instance still holds a lane of an ALU tile: a station of it there has not emitted the switch
(R51, R53). -/
def State.laneHeld (s : State) (c i : Nat) (tile : Nat × Nat) (lane : Nat) : Bool :=
  (s.core c).insts.any (fun e => retiresBefore (s.core c) i e
    && (stationCodes (s.image e.2.img) e.2).any (fun q => q % 8 = lane % 8 && !e.2.switched.contains q
      && !edgeEntry (s.image e.2.img) e.2.blk (q / 128) && tileOf (s.image e.2.img) e.2 (q / 128) (q % 128) = tile))

/-- The stream port that an instruction names. -/
def portOf : Instr → Option Nat
  | .sput _ q _ | .sget _ q _ _ | .smark _ q _ => some q.toNat
  | _ => none

/-- The station that owned a stream port of a launch before instance `i` has not emitted the switch: the port takes
nothing at its new station (R222). -/
def State.portHeld (s : State) (c i port : Nat) : Bool :=
  (s.core c).insts.any (fun e => retiresBefore (s.core c) i e && e.2.seq = (s.inst c i).seq
    && (stationCodes (s.image e.2.img) e.2).any (fun q => !e.2.switched.contains q
      && (instrAt (s.block e.2.img e.2.blk) (q / 128)).bind portOf = some port))

/-- The station of an instruction of a pass fires nothing yet: its lane, or the port it serves, is still an earlier
configuration's (R51, R222). -/
def State.stationHeld (s : State) (a : Agent) (p : Pass) (idx : Nat) : Bool :=
  match a, p.inst with
  | .fab c _, some i =>
    s.laneHeld c i (tileOf (s.image p.img) (s.inst c i) idx p.lane) p.lane
      || ((instrAt (s.block p.img p.blk) idx).bind portOf).any (s.portHeld c i)
  | _, _ => false

/-! ## Tokens -/

/-- ISECT, UNION, COMPACT and EXPAND (R311). -/
def isNode : Instr → Bool
  | .isect .. | .union .. | .compact .. | .expand .. => true
  | _ => false

/-- The instruction of a block that a token goes to is a stream node. -/
def nodeAt (ws : List W32) (idx : Nat) : Bool := (instrAt ws idx).any isNode

/-- A member of a group has a token in its entry (R311). -/
def groupLive (k : Core) (g : Group) : Bool :=
  k.threads.any (fun t => match t.2.pass with
    | some p => p.inst = some g.inst && p.round = g.round && t.1 - t.1 % p.width = g.base
        && p.opnd.any (fun o => o.1 / 4 = g.idx)
    | none => false)

/-- The compaction queue of a tile with an entry for a group: the one it has, or the lowest free one; an entry is free
once every member has received its output (R311). -/
def takeGroup (k : Core) (tile : Nat) (g : Group) : Option (Map Group) :=
  if k.compact.any (fun e => e.2 = g && groupLive k g) then some k.compact
  else
    let live := k.compact.filter (fun e => e.2 != g && groupLive k e.2)
    ((List.range 16).find? (fun n => (mget live (16 * tile + n)).isNone)).map (fun n => mput live (16 * tile + n) g)

/-- How many stations feed an edge of an instance: those of every copy where the copies share the consumer's alone
(R120). -/
def feeders (im : Image) (x : Inst) (tk : Tok) : Nat :=
  if edgeEntry im x.blk (tk.dst / 4) && !edgeEntry im x.blk (tk.edge / 2) then x.width / 8 else 1

/-- Key of the tokens of a kind that an input holds. -/
def heldKey (key : Nat) : TokKind → Nat
  | .eos tag => (tag + 1) * 2 ^ 20 + key
  | _ => key

/-- The edge whose head is the token of slot `t` for operand `k`. -/
def headEdge (x : Inst) (t k : Nat) : Option (Nat × Tok) :=
  x.edges.findSome? (fun e =>
    match e.2 with
    | tk :: _ => if tk.isOf t && tk.dst = k then some (e.1, tk) else none
    | [] => none)

/-- The operand `k` of an agent's pass: in its slot, or at the head of an edge (R140, R298). -/
def State.operand (s : State) (a : Agent) (p : Pass) (k : Nat) : Option W64 :=
  match mget p.opnd k with
  | some v => some v
  | none =>
    match a, p.inst with
    | .fab c t, some i => (headEdge (s.inst c i) t k).bind (fun e =>
        if nodeAt (s.block p.img p.blk) (k / 4) then none else some e.2.data)
    | _, _ => none

/-- The head of an edge removed. -/
def popEdge (x : Inst) (key : Nat) : Inst :=
  { x with edges := mset x.edges key ((mgetD x.edges key []).drop 1) [] }

/-- An operand used: it leaves its slot or its edge. -/
def State.useOperand (s : State) (a : Agent) (k : Nat) : State :=
  match s.passOf a with
  | none => s
  | some p =>
    match mget p.opnd k with
    | some _ => s.setPass a { p with opnd := mdel p.opnd k }
    | none =>
      match a, p.inst with
      | .fab c t, some i =>
        match headEdge (s.inst c i) t k with
        | some (key, _) => s.setInst c i (popEdge (s.inst c i) key)
        | none => s
      | _, _ => s

/-- Whether every input of an instruction of a pass has its token. -/
def State.matched (s : State) (a : Agent) (p : Pass) (idx : Nat) : Bool :=
  match instrAt (s.block p.img p.blk) idx with
  | some i => (allInputs i).all (fun f => (s.operand a p (opKey idx f)).isSome)
  | none => false

/-- A control token at the head of an edge. A switch or an end-of-stream token is held there; of an edge that every
copy feeds the station holds each copy's until the last has come (R51). A reconfiguration token leaves once the
lane of the tile is free of the old configuration (R53). -/
def State.settleControl (s : State) (c i key : Nat) (tk : Tok) : State × Bool :=
  let x := s.inst c i
  let im := s.image x.img
  let n := mgetD x.absorbed (heldKey key tk.kind) 0
  match tk.kind with
  | .reconf =>
    if s.laneHeld c i (tileOf im x (tk.dst / 4) (key / 256)) (key / 256) then (s, false)
    else (s.setInst c i (popEdge x key), true)
  | k =>
    if n + 1 < feeders im x tk then
      (s.setInst c i { popEdge x key with absorbed := mput x.absorbed (heldKey key k) (n + 1) }, true)
    else (s, false)

/-- The head token of an edge at its station (R43, R44, R103, R140): a stale generation is a tag
error, a second token of an input a DUPIN fault, a token that completes its match stays at the head,
any other waits in its operand slot, or at a stream node in the entry of its group, for which it stays on its edge
while the compaction queue is full (R311). The flag says whether the head has left. -/
def State.settleHead (s : State) (c i key : Nat) : State × Bool :=
  let x := s.inst c i
  match mgetD x.edges key [] with
  | [] => (s, false)
  | tk :: _ =>
    if tk.kind != .data then s.settleControl c i key tk else
    let idx := tk.dst / 4
    let fr := mgetD x.ftab (frameKey (tk.slot % x.width) tk.frame) {}
    let pop := s.setInst c i (popEdge x key)
    let ten := some (s.tenantOf (.fab c tk.slot))
    if fr.gen != tk.gen then
      let st := pop.count c 0x007 ten
      (if (st.thread c tk.slot).pass.isSome then st.parkPhaseOne c tk.slot fcTagerr 0 0 none else st, true)
    else
      match (s.thread c tk.slot).pass with
      | none => (pop, true)
      | some p =>
        if p.inst != some i || p.frame != tk.frame || p.gen != tk.gen then (pop, true) else
        let others := (x.edges.filter (fun e => e.1 != key)).any
          (fun e => match e.2 with | u :: _ => u.isOf tk.slot && u.dst = tk.dst | [] => false)
        if p.fired.contains idx || (mget p.opnd tk.dst).isSome || others then
          ((pop.count c 0x009 ten).parkPhaseOne c tk.slot fcDupin 0 0 (some idx), true)
        else if nodeAt (s.block p.img p.blk) idx then
          let tile := tileOf (s.image x.img) x idx p.lane
          match takeGroup (pop.core c) (tile.2 * 16 + tile.1)
              { inst := i, round := p.round, idx, base := tk.slot - tk.slot % p.width } with
          | none => (s, false)
          | some m =>
            let st := pop.setCore c { pop.core c with compact := m }
            (st.setPass (.fab c tk.slot) { p with opnd := mput p.opnd tk.dst tk.data }, true)
        else if s.matched (.fab c tk.slot) p idx then (s, false)
        else (pop.setPass (.fab c tk.slot) { p with opnd := mput p.opnd tk.dst tk.data }, true)

/-- Heads of one edge settle until one stays. -/
def State.settleEdge (s : State) (c i key : Nat) : Nat → State
  | 0 => s
  | n + 1 =>
    let r := s.settleHead c i key
    if r.2 then State.settleEdge r.1 c i key n else r.1

/-- The edges of a lane settle, those that it shares with other copies among them. -/
def State.settleLane (s : State) (c i lane : Nat) : State :=
  ((s.inst c i).edges.filter (fun e => e.1 / 256 = lane || e.1 / 256 = lane % 8)).foldl
    (fun st e => st.settleEdge c i e.1 33) s

/-! ## What a pass has delivered (R45, R46) -/

/-- Every input of an instruction of a pass holds its operand. -/
def State.operandsHere (s : State) (a : Agent) (p : Pass) (idx : Nat) (i : Instr) : Bool :=
  (allInputs i).all (fun f => (s.operand a p (opKey idx f)).isSome)

/-- The skip index of a thread names the instruction: it fires as NOP (R404). -/
def State.skips (s : State) (a : Agent) (idx : Nat) : Bool :=
  match a.slot with
  | some t => (s.thread a.core t).skip = some idx
  | none => false

/-- The reads that phase one orders (R231, R237). -/
def isRead : Instr → Bool
  | .ld .. | .lda .. | .ldv .. | .rld .. | .wsval .. => true
  | _ => false

/-- Loads, which issue as soon as their address is ready (R46). -/
def isLoad : Instr → Bool
  | .ld .. | .lda .. | .ldv .. | .rld .. => true
  | _ => false

/-- The agent a thread's pass runs as. -/
def State.threadAgent (s : State) (c t : Nat) : Agent :=
  match (s.thread c t).pass with
  | some p => if p.inst.isSome then .fab c t else .rare c t
  | none => .fab c t

/-- A member of an MTX instruction: its thread slot and its L and R tokens. -/
structure Mtm where
  slot : Nat
  l : W64
  r : W64
  deriving DecidableEq, Repr

/-- The members of an instruction of a seal: threads that hold every input of its clause and are not
predicated off, in slot order (R201, R272). -/
def State.mtxMembers (s : State) (c : Nat) (members : List Nat) (ws : List W32) (idx : Nat) (i : Instr) : List Mtm :=
  match clauseAt ws idx with
  | none => []
  | some (_, cl) =>
    members.filterMap (fun t =>
      let a := s.threadAgent c t
      match s.passOf a with
      | none => none
      | some p =>
        let all := (clauseInstrs cl).all (fun e => (allInputs e.2).all (fun f => (s.operand a p (opKey e.1 f)).isSome))
        let tok (f : Field) : W64 := (s.operand a p (opKey idx f)).getD 0
        if all && predHolds (prOf i) (tok .P) then some { slot := t, l := tok .L, r := tok .R } else none)

/-- The rows that members name, in increasing row: each row's owner is the lowest slot that names it. -/
def rowsOf (ms : List Mtm) : List (Nat × Mtm) :=
  (ms.foldl (fun (m : Map Mtm) x => if x.r.toNat < 128 && (mget m x.r.toNat).isNone then mput m x.r.toNat x else m) [])

/-- LVW outputs that the targets of an instruction give, where no predicate turns the LVW off: register and
index (R102). -/
def lvwTargets (ws : List W32) (p : Pass) (i : Instr) : List (Nat × Nat) :=
  (targetsOf i).filterMap (fun x => match x with
    | .to .L j => match instrAt ws j.toNat with
      | some (.lvw q r) =>
        let on := match mget p.opnd (opKey j.toNat .P) with | some x => predHolds q.code x | none => q.code = 0
        if on then some (r.toNat, j.toNat) else none
      | _ => none
    | _ => none)

/-- LVW outputs that results of returning atomics in the sink will give (R47, R102). -/
def lvwFeeds (ws : List W32) (p : Pass) : List (Nat × Nat) :=
  p.ops.flatMap (fun e => if e.2.null then [] else ((instrAt ws e.2.idx).map (lvwTargets ws p)).getD [])

/-- LVW outputs that MTX instructions give slot `t` at the seal of members `ms`: those of the rows that it owns
(R271, R274, R288). -/
def State.mtxFeeds (s : State) (c : Nat) (ms : List Nat) (ws : List W32) (t : Nat) (p : Pass) : List (Nat × Nat) :=
  (instrsOf ws).flatMap (fun e => match e.2 with
    | .mred .. | .mtopk .. =>
      if (rowsOf (s.mtxMembers c ms ws e.1 e.2)).any (·.2.slot = t) then lvwTargets ws p e.2 else []
    | _ => [])

/-- The LVW through which a returning atomic would give a register a second value (R45, R167). -/
def lvwTwice (p : Pass) : List (Nat × Nat) → Option Nat
  | [] => none
  | (v, j) :: rest =>
    if (mget p.lvw v).isSome || rest.any (·.1 = v) then some j else lvwTwice p rest

/-- The LSID of a committing MTX instruction. -/
def mtxLsid : Instr → Option Nat
  | .mld _ _ l _ _ => some l.toNat
  | .mldKv _ l _ _ => some l.toNat
  | .mst _ _ l _ _ _ _ => some l.toNat
  | .amass _ _ l _ _ _ _ => some l.toNat
  | _ => none

/-- An MTX instruction that the pass is a member of will form the command of LSID `k` at the seal: its
operands are there (R271, R275). A control program has no seal: the instruction faults as it fires (R451). -/
def State.mtxGives (s : State) (a : Agent) (ws : List W32) (p : Pass) (k : Nat) : Bool :=
  a.slot.isSome && (instrsOf ws).any (fun e => mtxLsid e.2 = some k && s.matched a p e.1
    && predHolds (prOf e.2) ((s.operand a p (opKey e.1 .P)).getD 0))

/-- Every declared output of the pass has reached the sink, but for what the matrix unit gives at the seal: `gives`
names those registers (R45, R271). (log 57, DEDUCED) -/
def State.outputsDone (s : State) (a : Agent) (ws : List W32) (p : Pass) (gives : List (Nat × Nat)) : Bool :=
  p.branch.isSome
    && (List.range 32).all (fun k => !flag (lsidMask ws) k || (mget p.ops k).isSome || s.mtxGives a ws p k)
    && (List.range 64).all (fun v => !flag (lvwMask ws) v || (mget p.lvw v).isSome
        || fedByAtomic ws p v || gives.any (·.1 = v))

/-- Every LVW output is there, but those that a returning atomic gives in phase two (R45, R47). -/
def lvwDone (ws : List W32) (p : Pass) : Bool :=
  (List.range 64).all (fun v => !flag (lvwMask ws) v || (mget p.lvw v).isSome || fedByAtomic ws p v)

/-- A read instruction of the pass is under way: a request of it is outstanding, or it stands in its tile with its
operands. (log 57, DEDUCED) -/
def State.readOut (s : State) (a : Agent) (p : Pass) (e : Nat × Instr) : Bool :=
  let sget := match e.2 with | .sget .. => true | _ => false
  (isRead e.2 || sget) && s.reqs.any (fun r => r.2.agent = a && r.2.idx = e.1 && r.2.kind.holds)
    || isLoad e.2 && !p.fired.contains e.1 && !s.skips a e.1 && s.operandsHere a p e.1 e.2
      && predHolds (prOf e.2) ((s.operand a p (opKey e.1 .P)).getD 0)

/-- Every read that the pass has issued has returned its value: phase two does not begin before (R237). -/
def State.readsBack (s : State) (a : Agent) (ws : List W32) (p : Pass) : Bool :=
  (instrsOf ws).all (fun e => !s.readOut a p e)

/-- Phase one is over for good: nothing of the pass is still to come from its stations (R45, R271).
(log 57, DEDUCED) -/
def passClosed (ws : List W32) (p : Pass) : Bool := p.two && p.sealed && lvwDone ws p

/-- Whether a block holds an MTX clause: its rounds seal (R271). -/
def hasMtx (ws : List W32) : Bool := (clausesOf ws).any (fun cl => bitsOf cl.hdr 23 20 = 3 && !cl.codes.isEmpty)

/-! ## Readiness and firing -/

/-- Whether the executing instruction can fire, with its operands. -/
inductive Ready where
  | missing
  | off
  | on (l r p : W64)
  deriving DecidableEq, Repr

/-- Both latches of the element of an instruction are empty (R142); a program without a fabric
delivers its tokens at once. -/
def State.latchFree (s : State) (a : Agent) (p : Pass) (idx : Nat) : Bool :=
  match a, p.inst with
  | .fab c _, some i =>
    let e := s.element c i idx p.lane
    (mget (s.core c).latch (2 * e)).isNone && (mget (s.core c).latch (2 * e + 1)).isNone
  | _, _ => true

/-- A sequential program executes in increasing index, one instruction at a time (R22): no later instruction has
executed, no earlier one has its operands and is still to execute, and no request of the program is outstanding. -/
def State.inOrder (s : State) (a : Agent) (p : Pass) (idx : Nat) : Bool :=
  match a with
  | .fab _ _ => true
  | _ => p.fired.all (· < idx)
    && (instrsOf (s.block p.img p.blk)).all (fun e => idx ≤ e.1 || p.fired.contains e.1 || !s.operandsHere a p e.1 e.2)
    && s.reqs.all (fun e => e.2.agent != a || e.2.idx = idx || !e.2.kind.holds)
    && s.invals.all (fun e => e.2.agent != a)

/-- Whether an instruction of an agent's pass can fire (R44, R51, R99, R104, R142): none does once phase one is complete,
from its seal on for a pass with MTX clauses (R271). (log 57, DEDUCED) One that the skip index
names takes its operands and does nothing more. -/
def State.readyAt (s : State) (a : Agent) (idx : Nat) (ins : List Field) (pr : Nat) : Ready :=
  match s.passOf a with
  | none => .missing
  | some p =>
    let get (f : Field) (always : Bool) : Option W64 :=
      if always || ins.contains f then s.operand a p (opKey idx f) else some 0
    if p.two || p.fired.contains idx || s.stopped a || !s.inOrder a p idx || !s.latchFree a p idx
      || !s.clauseOpen a p idx || s.stationHeld a p idx then .missing
    else match get .L false, get .R false, get .P (pr = 2 || pr = 3) with
      | some l, some r, some q => if predHolds pr q && !s.skips a idx then .on l r q else .off
      | _, _, _ => .missing

/-- Whether the executing instruction can fire. (log 11, DEDUCED) -/
def State.ready (s : State) (ins : List Field) (pr : Nat) : Ready :=
  s.readyAt s.cur.agent s.cur.idx ins pr

/-- A station has fired for a gang, or a thread of it was admitted or has committed: its dikewatch count starts again
(R419). -/
def State.active (s : State) (a : Agent) : State :=
  match a.slot with
  | some t =>
    let g := s.gangOf a.core t
    if (s.gang g).dike = 0 then s else s.setGang g { s.gang g with dike := 0 }
  | none => s

/-- The operands of a match are taken and its slots freed; the instruction has fired or is
predicated off (R104, R140). -/
def State.consumeAt (s : State) (a : Agent) (idx : Nat) (ins : List Field) (pr : Nat) (off : Bool) : State :=
  let fields := if (pr = 2 || pr = 3) && !ins.contains .P then ins ++ [.P] else ins
  let s := s.openClause a idx
  let s := fields.foldl (fun st f => st.useOperand a (opKey idx f)) s
  let s := s.updPass a (fun p => { p with fired := p.fired ++ [idx], offs := if off then p.offs ++ [idx] else p.offs })
  let s := match a, off with | .fab _ _, false => s.active a | _, _ => s
  match a, s.passOf a with
  | .fab c _, some p =>
    match p.inst with
    | some i => s.settleLane c i p.lane
    | none => s
  | _, _ => s

/-- The executing instruction takes its operands and fires. -/
def State.consume (s : State) (ins : List Field) (pr : Nat) : State :=
  s.consumeAt s.cur.agent s.cur.idx ins pr false

/-- The executing instruction takes its operands, predicated off (R104). -/
def State.consumeOff (s : State) (ins : List Field) (pr : Nat) : State :=
  s.consumeAt s.cur.agent s.cur.idx ins pr true

/-- A firing of a station is counted; a control core and a supervisor have none (R22, R398). (log 59, DEDUCED) -/
def State.fired (s : State) : State :=
  match s.cur.agent with
  | .fab c _ => s.count c 0x002 (some (s.tenantOf s.cur.agent))
  | _ => s

/-- A token of an agent's instruction leaves for a target: into a latch of its element (R142), or at
once to its input where no fabric carries it (R22). -/
def State.emitAt (s : State) (a : Agent) (idx t : Nat) (tg : Target) (v : W64) : State :=
  match tg with
  | .none => s
  | .to f i =>
    match s.passOf a with
    | none => s
    | some p =>
      let k := opKey i.toNat f
      match a, p.inst with
      | .fab c slot, some n =>
        let e := s.element c n idx p.lane
        let tk : Tok := { slot, frame := p.frame, gen := p.gen, data := v, dst := k, edge := 2 * idx + t, inst := n }
        s.setCore c { s.core c with latch := mput (s.core c).latch (2 * e + t) tk }
      | _, _ =>
        if (mget p.opnd k).isSome then
          (s.countBy a 0x009 (some (s.tenantOf a))).fault a (some i.toNat) fcDupin
        else s.setPass a { p with opnd := mput p.opnd k v }

/-- The executing instruction's T0 and T1. -/
def State.emit (s : State) (t0 t1 : Target) (v0 v1 : W64) : State :=
  (s.emitAt s.cur.agent s.cur.idx 0 t0 v0).emitAt s.cur.agent s.cur.idx 1 t1 v1

/-! ## The block sink (R45, R46) -/

/-- A reader that may still read an L token held for slot `t` at an index: a member of its lane
group, or of the round for XBCAST, that is still to fire (R43, R197, R199). -/
def readersLeft (k : Core) (x : Inst) (r : Round) (wide : Bool) (idx t : Nat) : Bool :=
  r.snapshot.any (fun u => !r.left.contains u && !r.done.contains u
    && (wide || u / x.width = t / x.width)
    && (r.pending.contains u || match mget k.threads u with
      | some y => match y.pass with
        | some p => !p.fired.contains idx
        | none => false
      | none => false))

/-- XSHUF and XBCAST (R197). -/
def isReader : Instr → Bool
  | .xshuf .. | .xbcast .. => true
  | _ => false

/-- RRED, RSCAN and RVOTE, which need a ROUND clause (R99, R201). -/
def isCollective : Instr → Bool
  | .rred .. | .rscanInclusive .. | .rscanExclusive .. | .rvote .. => true
  | _ => false

/-- A pass holds every input of every instruction of a clause (R201). -/
def State.holdsClause (s : State) (a : Agent) (p : Pass) (is : List (Nat × Instr)) : Bool :=
  is.all (fun e => s.operandsHere a p e.1 e.2)

/-- Tokens of a thread that others may still use when it completes phase one: the L token of a cross-lane instruction
that has reached it, L and R of a stream node and L of a collective that it is a member of, by key of `Round.held`
(R43, R197, R201, R311). -/
def State.arrived (s : State) (a : Agent) (p : Pass) : List (Nat × W64) :=
  let ws := s.block p.img p.blk
  let get (idx : Nat) (f : Field) : W64 := (s.operand a p (opKey idx f)).getD 0
  let on (e : Nat × Instr) : Bool := predHolds (prOf e.2) (get e.1 .P)
  (instrsOf ws).flatMap (fun e =>
    if p.fired.contains e.1 then []
    else if isReader e.2 then (s.operand a p (opKey e.1 .L)).toList.map (fun l => (e.1, l))
    else if isNode e.2 && s.operandsHere a p e.1 e.2 && on e then [(e.1, get e.1 .L), (128 + e.1, get e.1 .R)]
    else if isCollective e.2 && on e
        && ((clauseAt ws e.1).map (fun c => s.holdsClause a p (clauseInstrs c.2))).getD false then [(e.1, get e.1 .L)]
    else [])

/-- A member of a round completes phase one: what has reached its stations is decided (R197, R201). -/
def State.endPhaseOne (s : State) (c t : Nat) (p : Pass) : State :=
  let r := s.round c p.round
  if r.done.contains t then s
  else s.setRound c p.round { r with
    done := r.done ++ [t]
    held := (s.arrived (.fab c t) p).foldl (fun m e => mput m e.1 (mput (mgetD m e.1 []) t e.2)) r.held }

/-- Frames whose pass has delivered its last output, and whose held tokens have no reader left, are
free (R43). -/
def State.freeFrames (s : State) (c i : Nat) : State :=
  let k := s.core c
  let x := s.inst c i
  let ws := s.block x.img x.blk
  let keep (e : Nat × Frame) : Bool :=
    match e.2.slot with
    | none => true
    | some t =>
      let open_ := match mget k.threads t with
        | some y => match y.pass with
          | some p => p.inst = some i && frameKey p.lane p.frame = e.1 && p.gen = e.2.gen && !passClosed ws p
          | none => false
        | none => false
      let r := s.round c e.2.round
      open_ || r.held.any (fun h => (mget h.2 t).isSome
        && match instrAt ws (h.1 % 128) with
          | some i => (isReader i || isNode i) && readersLeft k x r (match i with | .xbcast .. => true | _ => false) (h.1 % 128) t
          | none => false)
  s.setInst c i { x with ftab := x.ftab.map (fun e => if keep e then e else (e.1, { e.2 with slot := none })) }

/-- A load-order violation: the pass is discarded at the sink and its thread returns to Waiting with
its ordered flag set (R46). -/
def State.discardViolated (s : State) (a : Agent) : State :=
  match a.slot with
  | none => s
  | some t =>
    let c := a.core
    let s := s.count c 0x008 (some (s.tenantOf a))
    let s := s.dropPass c t
    let s := s.setThread c t { s.thread c t with ordered := true }
    ((s.enterBlock c t).sweepEntries c).endRare c t

/-- Phase one is complete when every output has reached the sink and every read has returned (R33, R45, R237). A block with an MTX clause
waits for its round's seal first; a rare pass is a round of its own (R55, R271). -/
def State.checkPhaseOne (s : State) (a : Agent) : State :=
  match s.passOf a with
  | none => s
  | some p =>
    let ws := s.block p.img p.blk
    if p.two then
      match a, p.inst with
      | .fab c _, some i => s.freeFrames c i
      | _, _ => s
    else
    let gives := match a with | .rare c t => s.mtxFeeds c [t] ws t p | _ => []
    if let some j := lvwTwice p (lvwFeeds ws p ++ gives) then s.fault a (some j) fcDupout
    else if !s.outputsDone a ws p gives || !s.readsBack a ws p then s
    else if p.violated then s.discardViolated a
    else
      match a, p.inst with
      | .fab c t, some i =>
        if hasMtx ws then s else
        let s := s.endPhaseOne c t p
        let s := s.setPass a { p with two := true, sealed := true }
        let s := s.setThread c t { s.thread c t with st := .commit }
        s.freeFrames c i
      | _, _ =>
        match hasMtx ws, a.slot with
        | true, some t =>
          let s := s.setPass a { p with two := true }
          let k := s.core a.core
          s.setCore a.core { k with seals := k.seals ++ [{ round := 0, members := [t] }] }
        | _, _ => s.setPass a { p with two := true, sealed := true }

/-! ## The checks of a branch at the sink (R171, R174, R175) -/

/-- A block that a branch may name: below the block count, and in a pipeline image in the range of
the thread's polder (R171). -/
def State.legalBlock (s : State) (a : Agent) (n : Nat) : Bool :=
  match a.slot with
  | none => match s.passOf a with
    | some p => n < 2 ^ 18 && n < (s.image p.img).blocks.length
    | none => false
  | some t =>
    let im := s.image (s.imgOf a.core t)
    n < 2 ^ 18 && n < im.blocks.length
      && match (s.gang (s.gangOf a.core t)).polder with
        | none => true
        | some q => match im.polders.find? (·.id = q) with
          | some d => d.first ≤ n && n < d.first + d.count
          | none => true

/-- Private-aperture address of a stack offset (R173, R205). -/
def stackVa (o : Nat) : Nat := 0x1FFF10000000000 + o

/-- What the sink finds wrong with a branch: fault code and address (R171, R174, R175). -/
def State.branchFault (s : State) (a : Agent) (i : Option Instr) (b : Branch) (poison : Bool) :
    Option (Nat × Nat) :=
  let sp := (s.thread a.core (a.slot.getD 0)).sp
  let priv := (s.wgOf a.core (a.slot.getD 0)).privBytes
  match i, b with
  | some (.bri _), .enter n => if s.legalBlock a n then none else some (fcBlock, 0)
  | some (.call _ _), .call _ r =>
    if !s.legalBlock a r then some (fcBlock, stackVa sp)
    else if 256 + priv < sp + 8 then some (fcStackOvf, stackVa sp)
    else none
  | some (.ret _), .ret n =>
    if sp = 256 then some (fcStackUnf, stackVa sp)
    else if poison then some (fcPoison, stackVa (sp - 8))
    else if !s.legalBlock a n then some (fcBlock, stackVa (sp - 8))
    else none
  | _, _ => none

/-- What the sink finds wrong with an operation: a LAUNCH whose queue is not enabled or belongs to
another tenant (R324). -/
def State.opFault (s : State) (a : Agent) (i : Option Instr) (null : Bool) : Option Nat :=
  match i, null with
  | some (.launch _ _ _ lq), false =>
    let cfg := s.reg (0x1008 + 0x40 * lq.toNat)
    if flag cfg 31 && bitsOf cfg 9 4 = s.tenantOf a then none else some fcAccess
  | _, _ => none

/-- An output of a pass reaches the block sink (R45): a second one of a kind is a DUPOUT fault, and a
branch is checked there (R169). -/
def State.sinkAccept (s : State) (a : Agent) (o : Out) : State :=
  match s.passOf a with
  | none => s
  | some p =>
    match o with
    | .lvw idx v x =>
      if (mget p.lvw v).isSome then s.fault a (some idx) fcDupout
      else (s.setPass a { p with lvw := mput p.lvw v x }).checkPhaseOne a
    | .op k o =>
      if (mget p.ops k).isSome then s.fault a (some o.idx) fcDupout
      else match s.opFault a (instrAt (s.block p.img p.blk) o.idx) o.null with
        | some code => s.fault a (some o.idx) code
        | none => (s.setPass a { p with ops := mput p.ops k o }).checkPhaseOne a
    | .branch idx b poison =>
      if p.branch.isSome then s.fault a (some idx) fcDupout
      else match s.branchFault a (instrAt (s.block p.img p.blk) idx) b poison with
        | some (code, addr) => s.fault a (some idx) code 0 addr
        | none => (s.setPass a { p with branch := some b }).checkPhaseOne a

/-- An output of the executing instruction leaves for the sink port of its tile (R122), or reaches
the sink at once where no fabric carries it. -/
def State.deliver (s : State) (o : Out) : State :=
  match s.cur.agent with
  | .fab c t => s.updPass (.fab c t) (fun p => { p with outs := p.outs ++ [o] })
  | a => s.sinkAccept a o

/-! ## Constants -/

/-- The constant words of the executing pass (R40, R96). -/
def State.consts (s : State) : List W32 :=
  match s.passOf s.cur.agent with
  | some p => p.consts
  | none => []

/-- An operand of the I format as a token: an immediate, a constant word, or a pair of them for a
64-bit operation (R96, R101). -/
def State.iTok (s : State) (wide : Bool) : IField → W64
  | .imm v => immTok v
  | .const k => if wide then tokNat (constPair s.consts k) else tokNat (constWord s.consts k).toNat

/-- The same as an integer of an XI type: an immediate is taken at its value (R153). -/
def State.iInt (s : State) (ty : IntTy) : IField → Int
  | .imm v => v
  | .const k => valOf ty (s.iTok (ty.width = 64) (.const k))

/-- A shift count of the I format: a constant index gives its word, without a limit (R155). -/
def State.iCount (s : State) : IField → Nat
  | .imm v => v.toNat
  | .const k => (constWord s.consts k).toNat

end Sys2Proof.Machine
end

