-- ==== Sys2Proof/Machine/Flags.lean ====
section
/-! DEFINITION. The shared shape of a firing (R103, R104, R142, R149), the counts a firing leaves in
the exception sources and in the NaN-flush counters (R69, R83, R396, R398), and the stored form of
live values (R135, R136). -/

namespace Sys2Proof.Machine

/-- A firing: nothing while the instruction is not ready, operands taken and nothing emitted when it
is predicated off, else its effect on the state whose operands are taken (R103, R104). -/
def State.fire (s : State) (ins : List Field) (pr : Nat) (f : W64 → W64 → W64 → State → State) : State :=
  match s.ready ins pr with
  | .missing => s
  | .off => s.consumeOff ins pr
  | .on l r p => f l r p ((s.consume ins pr).fired)

/-- One result: T0, and a second copy on T1 (R102, R149). -/
def State.result (s : State) (t0 t1 : Target) (v : W64) : State := s.emit t0 t1 v v

/-- The next state of a meaning. -/
abbrev go (s : State) : Host.Outcome State Fault Refusal := .next s

/-- The exception kinds of one firing, each counted once (R69). -/
def State.countFlag (s : State) (f : FFlags) : State :=
  let t := some (s.tenantOf s.cur.agent)
  let one (st : State) (b : Bool) (src : Nat) : State := if b then st.countBy s.cur.agent src t else st
  one (one (one (one (one s f.invalid 0x010) f.divZero 0x011) f.overflow 0x012) f.underflow 0x013) f.inexact 0x014

/-- The counts of every half of a packed firing (R69, R190). -/
def State.countFlags (s : State) (fs : List FFlags) : State := fs.foldl (fun st f => st.countFlag f) s

/-- The NaN-flush counter of the agent that converts: the converter tile it fires on, or counter 5 of
its control core (R83, R396). -/
def State.flushIndex (s : State) : Nat :=
  let a := s.cur.agent
  match a, s.passOf a with
  | .fab c _, some p =>
    match p.inst with
    | some i =>
      let x := s.inst c i
      let t := tileOf (s.image x.img) x s.cur.idx p.lane
      (if t.1 = 3 then 0 else 1) + (if t.2 = 0 then 0 else 2)
    | none => 5
  | _, _ => 5

/-- `n` NaN elements were converted to a log format by counter `i` of core `c` (R83, R396). -/
def State.addFlush (s : State) (c i n : Nat) (tenant : Nat) : State :=
  if n = 0 then s else
  let o := kcReg c (0x480 + 8 * i)
  (s.setReg o (min (s.reg o + n) 0xFFFFFFFF)).count c 0x020 (some tenant) n

/-- The counts and the result of a firing of class FPU or CVT. -/
def State.floatResult (s : State) (t0 t1 : Target) (x : FireRes) : State :=
  ((s.countFlags x.fls).addFlush s.cur.agent.core s.flushIndex x.flush (s.tenantOf s.cur.agent)).result t0 t1 x.val

/-! ## Live values (R132, R135, R136) -/

/-- The registers of a group as stored (R135). -/
inductive LvsForm where
  | zero | d8 | d16 | d24 | raw
  deriving DecidableEq, Repr

/-- The first form that holds the eight registers of a group exactly (R135, R136). -/
def lvsForm (vs : List W64) : LvsForm :=
  let base := (vs.headD 0).toNat
  let fits (n : Nat) : Bool := vs.all (fun v =>
    let d := signedOf ((v.toNat + 2 ^ 64 - base) % 2 ^ 64) 64
    decide (-((2 ^ (n - 1) : Nat) : Int) ≤ d) && decide (d < ((2 ^ (n - 1) : Nat) : Int)))
  if vs.all (· == 0) then .zero else if fits 8 then .d8 else if fits 16 then .d16
  else if fits 24 then .d24 else .raw

/-- Code of a form in the row descriptor (R135). -/
def lvsCode : LvsForm → Nat
  | .zero => 0 | .d8 => 1 | .d16 => 2 | .d24 => 3 | .raw => 4

/-- The stored granules of a group, 32 bytes each. -/
def lvsGranules (vs : List W64) : List (List Byte) :=
  let base := (vs.headD 0).toNat
  let deltas (n : Nat) : List (List Byte) :=
    let b := toLE base 8 ++ (vs.drop 1).flatMap (fun v => toLE ((v.toNat + 2 ^ 64 - base) % 2 ^ 64) n)
    [(b ++ List.replicate 32 0).take 32]
  match lvsForm vs with
  | .zero => []
  | .d8 => deltas 1
  | .d16 => deltas 2
  | .d24 => deltas 3
  | .raw => [(vs.take 4).flatMap (fun v => toLE v.toNat 8), (vs.drop 4).flatMap (fun v => toLE v.toNat 8)]

/-- The registers of group `g` of a register file. -/
def lvsGroup (regs : Map W64) (g : Nat) : List W64 := (List.range 8).map (fun k => mgetD regs (8 * g + k) 0)

/-- The row descriptor of a register file (R135). -/
def lvsDescriptor (regs : Map W64) : Nat :=
  (List.range 8).foldl (fun n g => n + lvsCode (lvsForm (lvsGroup regs g)) * 2 ^ (4 * g)) 0

/-- The granules past the eighth: the contents of the overflow area (R136). -/
def lvsOverflow (regs : Map W64) : List Byte :=
  (((List.range 8).flatMap (fun g => lvsGranules (lvsGroup regs g))).drop 8).flatten

/-- Whether a read of register `v` comes from the overflow area (R136). -/
def lvsFromOverflow (regs : Map W64) (v : Nat) : Bool :=
  let before := ((List.range (v / 8)).map (fun g => (lvsGranules (lvsGroup regs g)).length)).foldl (· + ·) 0
  match lvsForm (lvsGroup regs (v / 8)) with
  | .zero => false
  | .raw => decide (8 ≤ before + (v % 8) / 4)
  | _ => decide (8 ≤ before)

/-- Granules that a code of the descriptor takes (R135). -/
def lvsSize (code : Nat) : Nat := if code = 4 then 2 else if 1 ≤ code && code ≤ 3 then 1 else 0

/-- The eight registers of a group from its code and its granules (R135). -/
def lvsDecode (code : Nat) (gs : List (List Byte)) : List W64 :=
  let b := gs.flatten
  let n (o k : Nat) : Nat := leNat ((b.drop o).take k)
  let base := n 0 8
  match code with
  | 1 | 2 | 3 => (List.range 8).map (fun k =>
      if k = 0 then BitVec.ofNat 64 base
      else BitVec.ofInt 64 (base + signedOf (n (8 + code * (k - 1)) code) (8 * code)))
  | 4 => (List.range 8).map (fun k => BitVec.ofNat 64 (n (8 * k) 8))
  | _ => List.replicate 8 0

/-- Granule `i` of a thread's row and overflow area as it is stored, with its poison: the first eight stand in the
row, the others in memory (R136, R138). -/
def State.lvsGranule (s : State) (c t : Nat) (row : List (List Byte)) (i : Nat) : List Byte × Bool :=
  if i < 8 then (row.getD i (List.replicate 32 0), false)
  else
    let at_ := s.slice c t (32 * (i - 8))
    (readBytes s.postedMem at_ 32, s.poisonAt at_ 32)

/-- A thread's live values and poisoned groups as its row and its overflow area hold them (R135, R136, R138). Of
fewer than five nonzero registers no granule overflows. -/
def State.liveFile (s : State) (c t : Nat) : Map W64 × List Nat :=
  let x := s.thread c t
  if x.regs.length < 5 && x.desc.isNone then (x.regs, x.poison)
  else
    let d := x.desc.getD (lvsDescriptor x.regs)
    let row := (List.range 8).flatMap (fun g => lvsGranules (lvsGroup x.regs g))
    let code (g : Nat) : Nat := bitsOf d (4 * g + 3) (4 * g)
    (List.range 8).foldl (fun (r : Map W64 × List Nat) g =>
      let first := ((List.range g).map (fun j => lvsSize (code j))).foldl (· + ·) 0
      let gs := (List.range (lvsSize (code g))).map (fun i => s.lvsGranule c t row (first + i))
      let vs := (lvsDecode (code g) (gs.map (·.1))).zipIdx
      (vs.foldl (fun m e => mset m (8 * g + e.2) e.1 0) r.1,
       if r.2.contains g || (!gs.any (·.2) && code g < 5) then r.2 else r.2 ++ [g])) ([], x.poison)

/-- The live values that a pass of an agent reads: those of its admission; a group poisoned since reads as
poisoned (R132, R138). -/
def State.liveView (s : State) (a : Agent) : Map W64 × List Nat :=
  match a.slot with
  | none => ((s.ctl a).regs, [])
  | some t =>
    let now := s.liveFile a.core t
    match (s.thread a.core t).pass.bind (·.live) with
    | some m => (m.1, m.2 ++ now.2)
    | none => now

/-- A live-value register of an agent. -/
def State.liveReg (s : State) (a : Agent) (v : Nat) : W64 := mgetD (s.liveView a).1 v 0

/-- A thread's live values are stored anew: its row with its descriptor, and its overflow area where some granule
stands there, as one step (R136). -/
def State.storeLive (s : State) (c t : Nat) (y : Thread) : State :=
  let s := s.setThread c t { y with desc := none }
  if y.regs.length < 5 then s
  else
    let area := lvsOverflow y.regs
    let at_ := s.slice c t 0
    let whole := area ++ List.replicate (256 - area.length) 0
    if area.isEmpty || (whole = readBytes s.postedMem at_ 256 && !s.poisonAt at_ 256) then s else s.writeHome at_ whole

end Sys2Proof.Machine
end

