-- ==== Sys2Proof/Machine/Alu.lean ====
section
/-! DEFINITION. Class ALU without the cross-lane and round instructions (R149 to R168). -/

namespace Sys2Proof.Machine

/-- ADD (R151, R152). -/
def execAdd (p : Pred) (ty : IntTy) (sat : Bool) (t1 t0 : Target) (s : State) : Host.Outcome State Fault Refusal :=
  go (s.fire [.L, .R] p.code fun l r _ st => st.result t0 t1 (aluAdd ty sat l r))

/-- SUB (R151, R152). -/
def execSub (p : Pred) (ty : IntTy) (sat : Bool) (t1 t0 : Target) (s : State) : Host.Outcome State Fault Refusal :=
  go (s.fire [.L, .R] p.code fun l r _ st => st.result t0 t1 (aluSub ty sat l r))

/-- MUL (R151, R152). -/
def execMul (p : Pred) (ty : IntTy) (sat : Bool) (t1 t0 : Target) (s : State) : Host.Outcome State Fault Refusal :=
  go (s.fire [.L, .R] p.code fun l r _ st => st.result t0 t1 (aluMul ty sat l r))

/-- MULH (R151, R152). -/
def execMulh (p : Pred) (ty : IntTy) (t1 t0 : Target) (s : State) : Host.Outcome State Fault Refusal :=
  go (s.fire [.L, .R] p.code fun l r _ st => st.result t0 t1 (aluMulh ty l r))

/-- DIV (R151, R152). -/
def execDiv (p : Pred) (ty : IntTy) (sat : Bool) (t1 t0 : Target) (s : State) : Host.Outcome State Fault Refusal :=
  go (s.fire [.L, .R] p.code fun l r _ st => st.result t0 t1 (aluDiv ty sat l r))

/-- REM (R151, R152). -/
def execRem (p : Pred) (ty : IntTy) (t1 t0 : Target) (s : State) : Host.Outcome State Fault Refusal :=
  go (s.fire [.L, .R] p.code fun l r _ st => st.result t0 t1 (aluRem ty l r))

/-- MIN (R151, R152). -/
def execMin (p : Pred) (ty : IntTy) (t1 t0 : Target) (s : State) : Host.Outcome State Fault Refusal :=
  go (s.fire [.L, .R] p.code fun l r _ st => st.result t0 t1 (aluMin ty l r))

/-- MAX (R151, R152). -/
def execMax (p : Pred) (ty : IntTy) (t1 t0 : Target) (s : State) : Host.Outcome State Fault Refusal :=
  go (s.fire [.L, .R] p.code fun l r _ st => st.result t0 t1 (aluMax ty l r))

/-- ABS (R152). -/
def execAbs (p : Pred) (ty : SIntTy) (sat : Bool) (t1 t0 : Target) (s : State) : Host.Outcome State Fault Refusal :=
  go (s.fire [.L] p.code fun l _ _ st => st.result t0 t1 (aluAbs ty sat l))

/-- NEG (R152). -/
def execNeg (p : Pred) (ty : SIntTy) (sat : Bool) (t1 t0 : Target) (s : State) : Host.Outcome State Fault Refusal :=
  go (s.fire [.L] p.code fun l _ _ st => st.result t0 t1 (aluNeg ty sat l))

/-- AND (R154). -/
def execAnd (p : Pred) (ty : BitTy) (t1 t0 : Target) (s : State) : Host.Outcome State Fault Refusal :=
  go (s.fire [.L, .R] p.code fun l r _ st => st.result t0 t1 (aluAnd ty l r))

/-- OR (R154). -/
def execOr (p : Pred) (ty : BitTy) (t1 t0 : Target) (s : State) : Host.Outcome State Fault Refusal :=
  go (s.fire [.L, .R] p.code fun l r _ st => st.result t0 t1 (aluOr ty l r))

/-- XOR (R154). -/
def execXor (p : Pred) (ty : BitTy) (t1 t0 : Target) (s : State) : Host.Outcome State Fault Refusal :=
  go (s.fire [.L, .R] p.code fun l r _ st => st.result t0 t1 (aluXor ty l r))

/-- ANDN (R154). -/
def execAndn (p : Pred) (ty : BitTy) (t1 t0 : Target) (s : State) : Host.Outcome State Fault Refusal :=
  go (s.fire [.L, .R] p.code fun l r _ st => st.result t0 t1 (aluAndn ty l r))

/-- SHL (R155). -/
def execShl (p : Pred) (ty : IntTy) (sat : Bool) (t1 t0 : Target) (s : State) : Host.Outcome State Fault Refusal :=
  go (s.fire [.L, .R] p.code fun l r _ st => st.result t0 t1 (aluShl ty sat l (shiftCount ty r)))

/-- SHR (R155). -/
def execShr (p : Pred) (ty : IntTy) (t1 t0 : Target) (s : State) : Host.Outcome State Fault Refusal :=
  go (s.fire [.L, .R] p.code fun l r _ st => st.result t0 t1 (aluShr ty l (shiftCount ty r)))

/-- ROT (R156). -/
def execRot (p : Pred) (ty : BitTy) (t1 t0 : Target) (s : State) : Host.Outcome State Fault Refusal :=
  go (s.fire [.L, .R] p.code fun l r _ st => st.result t0 t1 (aluRot ty l r))

/-- BFX (R157). -/
def execBfx (p : Pred) (ty : IntTy) (t1 t0 : Target) (s : State) : Host.Outcome State Fault Refusal :=
  go (s.fire [.L, .R] p.code fun l r _ st => st.result t0 t1 (aluBfx ty l r))

/-- BFI: P is the third data operand (R104, R158). -/
def execBfi (ty : BitTy) (t1 t0 : Target) (s : State) : Host.Outcome State Fault Refusal :=
  go (s.fire [.L, .R, .P] 1 fun l r q st => st.result t0 t1 (aluBfi ty l r q))

/-- POPC (R159). -/
def execPopc (p : Pred) (ty : BitTy) (t1 t0 : Target) (s : State) : Host.Outcome State Fault Refusal :=
  go (s.fire [.L] p.code fun l _ _ st => st.result t0 t1 (aluPopc ty l))

/-- CLZ (R159). -/
def execClz (p : Pred) (ty : BitTy) (t1 t0 : Target) (s : State) : Host.Outcome State Fault Refusal :=
  go (s.fire [.L] p.code fun l _ _ st => st.result t0 t1 (aluClz ty l))

/-- CTZ (R159). -/
def execCtz (p : Pred) (ty : BitTy) (t1 t0 : Target) (s : State) : Host.Outcome State Fault Refusal :=
  go (s.fire [.L] p.code fun l _ _ st => st.result t0 t1 (aluCtz ty l))

/-- BREV (R159). -/
def execBrev (p : Pred) (ty : BitTy) (t1 t0 : Target) (s : State) : Host.Outcome State Fault Refusal :=
  go (s.fire [.L] p.code fun l _ _ st => st.result t0 t1 (aluBrev ty l))

/-- LEA (R160). -/
def execLea (p : Pred) (sh : BitVec 3) (ix : IxTy) (t1 t0 : Target) (s : State) : Host.Outcome State Fault Refusal :=
  go (s.fire [.L, .R] p.code fun l r _ st => st.result t0 t1 (aluLea sh.toNat ix l r))

/-- SEL: P is the third data operand (R104, R161). -/
def execSel (ty : BitTy) (t1 t0 : Target) (s : State) : Host.Outcome State Fault Refusal :=
  go (s.fire [.L, .R, .P] 1 fun l r q st => st.result t0 t1 (aluSel ty l r q))

/-- CMP, signed (R162). -/
def execCmpSigned (p : Pred) (c : Cond) (w : CWidth) (t1 t0 : Target) (s : State) : Host.Outcome State Fault Refusal :=
  go (s.fire [.L, .R] p.code fun l r _ st => st.result t0 t1 (aluCmp true c w l r))

/-- CMP, unsigned (R162). -/
def execCmpUnsigned (p : Pred) (c : Cond) (w : CWidth) (t1 t0 : Target) (s : State) : Host.Outcome State Fault Refusal :=
  go (s.fire [.L, .R] p.code fun l r _ st => st.result t0 t1 (aluCmp false c w l r))

/-- PAND (R163). -/
def execPand (p : Pred) (t1 t0 : Target) (s : State) : Host.Outcome State Fault Refusal :=
  go (s.fire [.L, .R] p.code fun l r _ st => st.result t0 t1 (aluPand l r))

/-- POR (R163). -/
def execPor (p : Pred) (t1 t0 : Target) (s : State) : Host.Outcome State Fault Refusal :=
  go (s.fire [.L, .R] p.code fun l r _ st => st.result t0 t1 (aluPor l r))

/-- PXOR (R163). -/
def execPxor (p : Pred) (t1 t0 : Target) (s : State) : Host.Outcome State Fault Refusal :=
  go (s.fire [.L, .R] p.code fun l r _ st => st.result t0 t1 (aluPxor l r))

/-- PNOT (R163). -/
def execPnot (p : Pred) (t1 t0 : Target) (s : State) : Host.Outcome State Fault Refusal :=
  go (s.fire [.L] p.code fun l _ _ st => st.result t0 t1 (aluPnot l))

/-- MOV: a copy of the token on each target (R164). -/
def execMov (p : Pred) (t1 t0 : Target) (s : State) : Host.Outcome State Fault Refusal :=
  go (s.fire [.L] p.code fun l _ _ st => st.result t0 t1 l)

/-- MOVI (R165). -/
def execMovi (p : Pred) (ty : IntTy) (imm : Int) (t0 : Target) (s : State) : Host.Outcome State Fault Refusal :=
  go (s.fire [] p.code fun _ _ _ st => st.result t0 .none (extendTok ty imm))

/-- CONST (R165). -/
def execConst (p : Pred) (ty : BitTy) (k : Nat) (t0 : Target) (s : State) : Host.Outcome State Fault Refusal :=
  go (s.fire [] p.code fun _ _ _ st => st.result t0 .none (s.iTok (ty = .b64) (.const k)))

/-- ADDI (R153). -/
def execAddi (p : Pred) (ty : IntTy) (sat : Bool) (i : IField) (t0 : Target) (s : State) : Host.Outcome State Fault Refusal :=
  go (s.fire [.L] p.code fun l _ _ st => st.result t0 .none (xiResult ty sat (valOf ty l + s.iInt ty i)))

/-- ANDI (R154). -/
def execAndi (p : Pred) (ty : BitTy) (i : IField) (t0 : Target) (s : State) : Host.Outcome State Fault Refusal :=
  go (s.fire [.L] p.code fun l _ _ st => st.result t0 .none (aluAnd ty l (s.iTok (ty = .b64) i)))

/-- ORI (R154). -/
def execOri (p : Pred) (ty : BitTy) (i : IField) (t0 : Target) (s : State) : Host.Outcome State Fault Refusal :=
  go (s.fire [.L] p.code fun l _ _ st => st.result t0 .none (aluOr ty l (s.iTok (ty = .b64) i)))

/-- XORI (R154). -/
def execXori (p : Pred) (ty : BitTy) (i : IField) (t0 : Target) (s : State) : Host.Outcome State Fault Refusal :=
  go (s.fire [.L] p.code fun l _ _ st => st.result t0 .none (aluXor ty l (s.iTok (ty = .b64) i)))

/-- SHLI (R155). -/
def execShli (p : Pred) (ty : IntTy) (sat : Bool) (i : IField) (t0 : Target) (s : State) : Host.Outcome State Fault Refusal :=
  go (s.fire [.L] p.code fun l _ _ st => st.result t0 .none (aluShl ty sat l (s.iCount i)))

/-- SHRI (R155). -/
def execShri (p : Pred) (ty : IntTy) (i : IField) (t0 : Target) (s : State) : Host.Outcome State Fault Refusal :=
  go (s.fire [.L] p.code fun l _ _ st => st.result t0 .none (aluShr ty l (s.iCount i)))

/-- The compare of CMPI: an immediate at its value, a constant as R would be (R162). -/
def State.cmpField (s : State) (signed : Bool) (c : Cond) (w : CWidth) (l : W64) : IField → W64
  | .imm v => aluCmpImm signed c w l v
  | .const k => aluCmp signed c w l (s.iTok (w = .w64) (.const k))

/-- CMPI, signed (R162). -/
def execCmpiSigned (p : Pred) (c : Cond) (w : CWidth) (i : IField) (t0 : Target) (s : State) : Host.Outcome State Fault Refusal :=
  go (s.fire [.L] p.code fun l _ _ st => st.result t0 .none (s.cmpField true c w l i))

/-- CMPI, unsigned (R162). -/
def execCmpiUnsigned (p : Pred) (c : Cond) (w : CWidth) (i : IField) (t0 : Target) (s : State) : Host.Outcome State Fault Refusal :=
  go (s.fire [.L] p.code fun l _ _ st => st.result t0 .none (s.cmpField false c w l i))

/-- The value LVR delivers, or the POISON fault of a poisoned group (R138, R166); a read from the
overflow area is counted (R136). -/
def State.readLive (s : State) (v : Nat) (t0 : Target) : State :=
  let a := s.cur.agent
  match a.slot with
  | none => s.result t0 .none (s.liveReg a v)
  | some t =>
    let x := s.liveView a
    if x.2.contains (v / 8) then s.raise fcPoison
    else
      let s := if lvsFromOverflow (s.thread a.core t).regs v then s.count a.core 0x00B (some (s.tenantOf a)) else s
      s.result t0 .none (mgetD x.1 v 0)

/-- LVR: the register as it stood at admission (R132, R166). -/
def execLvr (p : Pred) (v : BitVec 6) (t0 : Target) (s : State) : Host.Outcome State Fault Refusal :=
  go (s.fire [] p.code fun _ _ _ st => st.readLive v.toNat t0)

/-- LVW: the pass's output for a register (R167). -/
def execLvw (p : Pred) (v : BitVec 6) (s : State) : Host.Outcome State Fault Refusal :=
  go (s.fire [.L] p.code fun l _ _ st => st.deliver (.lvw s.cur.idx v.toNat (some l)))

/-- The value of a special register for an agent's pass (R143); a control thread reads its core and
die, and zero elsewhere (R451). -/
def State.special (s : State) (a : Agent) (r : SReg) : Nat :=
  let c := a.core
  match a.slot with
  | none =>
    match r with
    | .core => c
    | .die => dieOf c
    | _ => 0
  | some t =>
    let w := s.wgOf c t
    let g := s.gang w.gang
    let p := ((s.thread c t).pass).getD {}
    match r with
    | .tid => t - s.base c t
    | .wgid => w.wgid
    | .gid => g.gid
    | .role => s.roleOf c t
    | .lane => p.lane
    | .width => p.width
    | .round => p.roundNo
    | .wgsz => w.n
    | .ggsz => g.members.length
    | .core => c
    | .die => dieOf c
    | .launch => g.seq % 2 ^ 32
    | .tenant => (s.launch g.seq).desc.tenant

/-- SRD (R143, R168). -/
def execSrd (p : Pred) (r : SReg) (t1 t0 : Target) (s : State) : Host.Outcome State Fault Refusal :=
  go (s.fire [] p.code fun _ _ _ st => st.result t0 t1 (tokNat (s.special s.cur.agent r)))

end Sys2Proof.Machine
end

