-- ==== Sys2Proof/Machine/Xlate.lean ====
section
/-! DEFINITION. Spaces and translation (R205 to R207, R252, R348 to R359): what an address token
names, the TLB levels, walks, the pager and TLB invalidation. -/

namespace Sys2Proof.Machine

/-- Outcome of resolving one part of an access. -/
inductive Xl where
  | ok (pa : Nat)
  | fault (code : Nat)
  | miss
  deriving DecidableEq, Repr

/-- The low 57 bits of an address token (R205). -/
def va57 (x : Nat) : Nat := x % 2 ^ 57

def scratchVa : Nat := 0x1FFF00000000000
def privateVa : Nat := 0x1FFF10000000000
def reservedVa : Nat := 0x1FFF20000000000

/-! ## TLB levels (R353) -/

/-- A TLB entry covers an address of a tenant. -/
def TlbEntry.covers (e : TlbEntry) (tenant va : Nat) : Bool :=
  e.tenant = tenant && va / 2 ^ e.lg = e.va / 2 ^ e.lg

def tlbFind (es : List TlbEntry) (tenant va : Nat) : Option TlbEntry := es.find? (·.covers tenant va)

/-- The memory tile an agent's instruction translates in: its column and row, tile 0 for a program
without a fabric (R353). -/
def State.memTile (s : State) (a : Agent) (idx : Nat) : Nat :=
  match a, s.passOf a with
  | .fab c _, some p =>
    match p.inst with
    | some i => s.element c i idx p.lane / 8
    | none => 0
  | _, _ => 0

/-- The entry that translates an address: micro-TLB, core TLB, die TLB in this order. -/
def State.tlbLookup (s : State) (c tile tenant va : Nat) : Option TlbEntry :=
  let k := s.core c
  match tlbFind (mgetD k.microTlb tile []) tenant va with
  | some e => some e
  | none =>
    match tlbFind k.tlb tenant va with
    | some e => some e
    | none => tlbFind (s.die (dieOf c)).tlb tenant va

/-- The last entry of a list that `f` takes is left out. -/
def dropLast (f : TlbEntry → Bool) : List TlbEntry → List TlbEntry
  | [] => []
  | e :: es => if f e && !es.any f then es else e :: dropLast f es

/-- An entry put first in a level whose sets have `ways` entries: the most recently used stands first, and of a full
set the least recently used goes. `set` gives the set of an entry by its tag (R353). -/
def tlbPut (es : List TlbEntry) (ways : Nat) (set : Nat → Nat → Nat → Nat) (e : TlbEntry) : List TlbEntry :=
  let rest := es.filter (· != e)
  let same (x : TlbEntry) : Bool := set x.tenant x.va x.lg = set e.tenant e.va e.lg
  e :: (if rest.length < ways || (rest.filter same).length < ways then rest else dropLast same rest)

/-- The levels: 32 entries; 1,024 in sets of 8; 16,384 in sets of 16. The set of a tag is a value of the part (R353).
(log 73, DESIGN CHOICE) -/
def microPut (es : List TlbEntry) (e : TlbEntry) : List TlbEntry := tlbPut es 32 (fun _ _ _ => 0) e
def corePut (es : List TlbEntry) (e : TlbEntry) : List TlbEntry := tlbPut es 8 (fun t v g => (Config.coreTlbSet t v g).toNat) e
def diePut (es : List TlbEntry) (e : TlbEntry) : List TlbEntry := tlbPut es 16 (fun t v g => (Config.dieTlbSet t v g).toNat) e

/-- A hit at one level makes the entry the most recently used there and fills every level before it (R353). -/
def State.tlbTouch (s : State) (c tile : Nat) (e : TlbEntry) : State :=
  let k := s.core c
  let micro := mgetD k.microTlb tile []
  let k' := { k with microTlb := mput k.microTlb tile (microPut micro e) }
  if micro.contains e then s.setCore c k'
  else
    let s' := s.setCore c { k' with tlb := corePut k.tlb e }
    if k.tlb.contains e then s'
    else
      let x := s'.die (dieOf c)
      s'.setDie (dieOf c) { x with tlb := diePut x.tlb e }

/-- A hit of the die TLB alone, by a requester of the die (R353). -/
def State.tlbTouchDie (s : State) (d : Nat) (e : TlbEntry) : State :=
  s.setDie d { s.die d with tlb := diePut (s.die d).tlb e }

/-- Whether an entry gives a right (R352). -/
def TlbEntry.allows (e : TlbEntry) : Right → Bool
  | .read => e.r
  | .write => e.w
  | .atomic => e.a && e.w

/-- Whether an address lies in a region of R207. -/
def inRegion (a n : Nat) : Bool :=
  match regionOf a, regionOf (a + n - 1) with
  | .dev d, .dev e => d = e
  | .dieScratch d, .dieScratch e => d = e
  | _, _ => false

/-- Resolving `len` bytes at `va` for a thread's access: the local aperture is checked, a global
address translates (R205, R206, R353); a PRIV program's addresses are physical (R451). `ver` marks
accesses that need a version: LDV, ACASV, WSADD. -/
def State.resolve (s : State) (a : Agent) (idx va len : Nat) (rt : Right) (ver : Bool) : Xl :=
  match a.slot with
  | none =>
    if scratchVa ≤ va || !inRegion va len then .fault fcAccess
    else if ver && !versioned (lineOf va) then .fault fcAccess
    else .ok va
  | some t =>
    let c := a.core
    let w := s.wgOf c t
    if va < scratchVa then
      match s.tlbLookup c (s.memTile a idx) (s.tenantOf a) va with
      | none => .miss
      | some e =>
        if !e.allows rt || (ver && e.scratch) then .fault fcAccess
        else .ok (e.pa + va % 2 ^ e.lg)
    else if va < privateVa then
      if ver || w.partSize < va - scratchVa + len then .fault fcAccess
      else .ok (partAddr c w (va - scratchVa))
    else if va < reservedVa then
      let o := va - privateVa
      if o < 256 || 256 + w.privBytes < o + len then .fault fcAccess else .ok (s.slice c t o)
    else .fault fcAccess

/-- A translation of a thread's global address is used: the TLB levels note it. -/
def State.touchVa (s : State) (a : Agent) (idx va : Nat) : State :=
  if a.slot.isSome && va < scratchVa then
    let tile := s.memTile a idx
    match s.tlbLookup a.core tile (s.tenantOf a) va with
    | some e => s.tlbTouch a.core tile e
    | none => s
  else s

/-- The parts of an access: one, or two split at a 16-byte boundary under .ua (R252). -/
def partsOf (va size : Nat) (ua : Bool) : List (Nat × Nat) :=
  if ua && 16 < va % 16 + size then
    let n := 16 - va % 16
    [(va, n), (va57 (va + n), size - n)]
  else [(va, size)]

/-- Outcome of resolving every part: places, the first fault with its address, or the first miss. -/
inductive XlAll where
  | ok (ps : List Part)
  | fault (code addr : Nat)
  | miss (addr : Nat)
  deriving DecidableEq, Repr

def State.resolveAll (s : State) (a : Agent) (idx : Nat) (rt : Right) (ver : Bool) :
    List (Nat × Nat) → XlAll
  | [] => .ok []
  | (va, n) :: rest =>
    match s.resolve a idx va n rt ver with
    | .fault code => .fault code va
    | r =>
      match State.resolveAll s a idx rt ver rest, r with
      | .fault c x, _ => .fault c x
      | _, .miss => .miss va
      | .miss x, _ => .miss x
      | .ok ps, .ok pa => .ok ({ pa, len := n } :: ps)
      | .ok ps, .fault _ => .ok ps

/-! ## Circuits between dies (R12, R13, R374) -/

/-- Some wavelength of die `a` goes to die `b`. -/
def State.lit (s : State) (a b : Nat) : Bool :=
  s.conn.isEmpty || (List.range 128).any (fun j =>
    let v := mgetD s.conn (128 * a + j) (connReset a j)
    (List.range 8).any (fun k => v / 2 ^ (8 * k) % 16 = 8 + b))

/-- Traffic from one die to another moves: their circuit is there and is not changing. -/
def State.linked (s : State) (a b : Nat) : Bool := a = b || (!s.circuits.contains (8 * a + b) && s.lit a b)

/-- Traffic moves both ways between two dies. -/
def State.linkedBoth (s : State) (a b : Nat) : Bool := s.linked a b && s.linked b a

/-- The home of a line is reached from a die. -/
def State.reaches (s : State) (d line : Nat) : Bool := s.linkedBoth d (homeDie line)

/-- A line can be accessed at its home from a die: there is a circuit, and no owner stands in the way (R13, R225). -/
def State.lineOpen (s : State) (d line : Nat) : Bool := s.homeFree line && s.reaches d line

/-! ## Walks (R349 to R353) -/

/-- A requester that has missed the die TLB joins a walk of its page that is still in flight, or a walk begins
(R353). One whose walk has already become a fault token waits for it (R355). -/
def State.startWalk (s : State) (d tenant va : Nat) (w : Waiter) (acc : Right) : State :=
  let x := s.die d
  let page := va / 65536 * 65536
  if x.faults.any (fun f => f.2.tenant = tenant && f.2.page = page && f.2.waiters.contains w) then s
  else if x.walks.any (fun k => k.tenant = tenant && k.va = page) then
    s.setDie d { x with walks := x.walks.map (fun k =>
      if k.tenant = tenant && k.va = page && !k.waiters.contains w then { k with waiters := k.waiters ++ [w] } else k) }
  else s.setDie d { x with walks := x.walks ++ [{ tenant, va := page, waiters := [w], acc }] }

/-- The executing instruction waits for a translation: it is an outstanding request (R148, R355). -/
def State.awaitXlate (s : State) (va lsid : Nat) (acc : Right := .read) : State :=
  let a := s.cur.agent
  let s := s.startWalk a.die (s.tenantOf a) va (.agent a s.cur.idx va) acc
  if s.reqs.any (fun e => e.2.agent = a && e.2.idx = s.cur.idx && e.2.kind = .xlate) then s
  else s.addReq { agent := a, idx := s.cur.idx, lsid, kind := .xlate, va, start := (s.die a.die).clk }

/-- The executing instruction waits at the place of `n` bytes of its descriptor: for an owner, or for a circuit. It is an
outstanding request (R13, R148, R225, R420). -/
def State.awaitPlace (s : State) (va pa n lsid : Nat) : State :=
  let a := s.cur.agent
  let s := s.recallOwner (lineOf pa)
  if s.reqs.any (fun e => e.2.agent = a && e.2.idx = s.cur.idx && e.2.kind = .xlate) then s
  else s.addReq { agent := a, idx := s.cur.idx, lsid, kind := .xlate, va, parts := [{ pa, len := n }], start := (s.die a.die).clk }

/-- The translation request of an instruction is over. -/
def State.endXlate (s : State) (a : Agent) (idx : Nat) : State :=
  { s with reqs := s.reqs.filter (fun e => !(e.2.agent = a && e.2.idx = idx && e.2.kind = .xlate)) }

/-- Index of an address at a level of the walk (R349). -/
def walkIndex (level va : Nat) : Nat :=
  match level with
  | 0 => bitsOf va 56 46
  | 1 => bitsOf va 45 35
  | 2 => bitsOf va 34 29
  | 3 => bitsOf va 28 21
  | _ => bitsOf va 20 16

/-- log2 of the page a leaf of a level maps (R349). -/
def leafLg (level : Nat) : Nat :=
  match level with
  | 1 => 35
  | 2 => 29
  | 3 => 21
  | _ => 16

/-- An entry at a level is malformed: the walker refuses it (R351). -/
def entryBad (level e : Nat) : Bool :=
  let base := bitsOf e 51 12 * 4096
  let leaf := flag e 1
  let size := 2 ^ leafLg level
  bitsOf e 11 9 != 0 || bitsOf e 55 52 != 0 || (level = 0 && leaf) || (level = 4 && !leaf)
    || (if leaf then
          base % size != 0 || !inRegion base size
            || (flag e 7 && (!(leafLg level = 16 || leafLg level = 21)
                  || (match regionOf base with | .dieScratch _ => false | _ => true)
                  || 28 * 2 ^ 20 < base % 2 ^ 25 + size))
            || (!flag e 7 && (match regionOf base with | .dieScratch _ => true | _ => false))
        else
          bitsOf e 4 2 != 0 || bitsOf e 6 5 != 0 || (level = 0 && base % 2 ^ 14 != 0)
            || (match regionOf base with | .dev _ => false | _ => true))

/-- How a walk ends. -/
inductive WalkEnd where
  | leaf (e : TlbEntry)
  /-- no valid entry, at the level and address it stands at -/
  | missing (level at_ : Nat)
  | refused
  | poison (at_ : Nat)
  /-- the next entry's line has an owner that must be recalled first, or no circuit reaches it (R13, R225) -/
  | owned (line : Nat)
  deriving DecidableEq, Repr

/-- The walk of a die from a table down (R349 to R352). -/
def State.walkFrom (s : State) (d tenant va table : Nat) : Nat → Nat → WalkEnd
  | 0, _ => .refused
  | fuel + 1, level =>
    let at_ := table + 8 * walkIndex level va
    let line := lineOf at_
    if !s.lineOpen d line then .owned line
    else if (s.sideOf line).dp then .poison at_
    else
      let e := readLE s.mem at_ 8
      if !flag e 0 then .missing level at_
      else if entryBad level e then .refused
      else if flag e 1 then
        let lg := leafLg level
        .leaf { tenant, va := va / 2 ^ lg * 2 ^ lg, lg, pa := bitsOf e 51 12 * 4096, r := flag e 2,
                w := flag e 3, a := flag e 4, lease := if flag e 7 then 0 else bitsOf e 6 5, scratch := flag e 7 }
      else State.walkFrom s d tenant va (bitsOf e 51 12 * 4096) fuel (level + 1)

/-- A walk of a tenant's tables by the walker of a die (R348). -/
def State.walk (s : State) (d tenant va : Nat) : WalkEnd :=
  let r := s.reg (0x4000 + 0x20 * tenant)
  if flag r 0 then s.walkFrom d tenant va (bitsOf r 51 14 * 2 ^ 14) 5 0 else .missing 0 0

end Sys2Proof.Machine
end

