-- ==== Sys2Proof/Machine/Home.lean ====
section
/-! DEFINITION. Homes and owners (R214 to R226, R232 to R235, R241, R242, R380, R381): L2 lines,
completion times, coalescers, and the messages between cores and homes. -/

namespace Sys2Proof.Machine

/-! ## Clocks of other dies (R234, R380, R381) -/

/-- Offset of the conversion registers of die `j` in die `d`'s block (R147). -/
def clkReg (d j o : Nat) : Nat := dsReg d (0x40 + 0x20 * j + o)

/-- Pair (d, j) is in fallback (R381). -/
def State.fallback (s : State) (d j : Nat) : Bool := d != j && flag (s.reg (clkReg d j 0x18)) 16

/-- Convert: a time of die `j` in the clock of die `d` (R380). -/
def State.convert (s : State) (d j t : Nat) : Nat :=
  if d = j then t else
  let ofs := s.reg (clkReg d j 0)
  let rate := signedOf (s.reg (clkReg d j 8)) 32
  let epoch := s.reg (clkReg d j 0x10)
  let delta := signedOf (t + 2 ^ 64 - epoch % 2 ^ 64) 64
  let adj := (delta * rate) / (2 ^ 40 : Nat)
  wrapTo ((t : Int) + ofs + adj) 64

/-- The guard band between dies (R234). -/
def guardBand (d j : Nat) : Nat := if d = j then 0 else 10

/-- The times a release still waits for, after a completion time of die `j` has come back (R241). -/
def State.noteTime (s : State) (d j time horizon : Nat) (far : Map Nat) : Nat × Map Nat :=
  (max horizon (s.convert d j time + guardBand d j),
   if d = j then far else mput far j (max (mgetD far j 0) time))

/-- A completion time goes on with the launch of a thread that has left: its release waits for it (R241, R243). -/
def State.launchTime (s : State) (seq d j time : Nat) : State :=
  let l := s.launch seq
  let r := s.noteTime d j time (mgetD l.horizon d 0) []
  s.setLaunch seq { l with
    horizon := mput l.horizon d r.1
    far := if d = j then l.far else mput l.far (8 * d + j) (max (mgetD l.far (8 * d + j) 0) time) }

/-- A completion time returns to an agent, or to the launch of a thread that is Exited (R241). -/
def State.returnTime (s : State) (a : Agent) (j time : Nat) : State :=
  match a.slot with
  | some t =>
    let x := s.thread a.core t
    if x.st = .exited then s.launchTime (s.seqOf a.core t) a.die j time else
    let r := s.noteTime a.die j time x.horizon x.far
    s.setThread a.core t { x with horizon := r.1, far := r.2 }
  | none =>
    let x := s.ctl a
    let r := s.noteTime a.die j time x.horizon x.far
    s.setCtl a { x with horizon := r.1, far := r.2 }

/-- A horizon of a die has passed: its clock has reached it, and in fallback a probe of the other die
has shown each of its times (R234, R381). -/
def State.passed (s : State) (d horizon : Nat) (far : Map Nat) : Bool :=
  horizon ≤ (s.die d).clk && far.all (fun e => !s.fallback d e.1)

/-- Completion time of a write at its home (R233). -/
def State.completion (s : State) (line : Nat) : Nat :=
  let clk := (s.die (homeDie line)).clk
  if versioned line then max clk (mgetD s.l2 line {}).horizon else clk

/-- The latest completion times by home die, with one more (R233). -/
def laterTime (m : Map Nat) (j time : Nat) : Map Nat := mput m j (max (mgetD m j 0) time)

/-- A completion time of die `j` counts as passed for an agent of die `d`: its clock has reached the converted time and
the guard band, or in fallback a time probe finds the clock of die `j` there (R234, R381). (log 50, DESIGN CHOICE:
the probe's reply names the other clock exactly) -/
def State.timeSeen (s : State) (d j time : Nat) : Bool :=
  if s.fallback d j then time ≤ (s.die j).clk else s.convert d j time + guardBand d j ≤ (s.die d).clk

/-- Completion times by home die have passed for an agent of die `d` (R234, R243). -/
def State.timesSeen (s : State) (d : Nat) (m : Map Nat) : Bool := m.all (fun e => s.timeSeen d e.1 e.2)

/-- Completion times have passed at their homes (R240, R243). -/
def State.timesPassed (s : State) (m : Map Nat) : Bool := m.all (fun e => e.2 ≤ (s.die e.1).clk)

/-! ## Placement (R208) -/

/-- HBM stack of a device address. -/
def hbmStack (a : Nat) : Nat := 2 * (a / 2 ^ 37) + (bitsOf a 7 7).xor (bitsOf a 16 16)

/-- Channel within the stack. -/
def hbmChannel (a : Nat) : Nat := (bitsOf a 12 8).xor (bitsOf a 21 17)

/-- Bank of a core-scratchpad offset. -/
def scratchBank (o : Nat) : Nat := bitsOf o 6 2

/-- Bank of a die-scratchpad offset, one of 32. -/
def dieScratchBank (o : Nat) : Nat := bitsOf o 8 4

/-! ## L2 (R208, R217) -/

/-- Slice and set of a device line (R208). -/
def sliceSet (line : Nat) : Nat × Nat :=
  (Nat.xor (line % 64) (line / 64 % 64), line / 64 % 1024)

/-- The lines resident in the set of a line. -/
def State.setLines (s : State) (line : Nat) : List Nat :=
  (s.l2.filter (fun e => e.2.present && homeDie e.1 = homeDie line && sliceSet e.1 = sliceSet line)).map (·.1)

/-- A line that its set may evict: no lease in the future and no owner. -/
def State.evictable (s : State) (line : Nat) : Bool :=
  let x := mgetD s.l2 line {}
  x.owner.isNone && x.horizon ≤ (s.die (homeDie line)).clk

/-- An access at the home finds the line in L2, or fills it, evicting a line of a full set, the first in address order
that can go (log 93, DESIGN CHOICE); a set that cannot evict serves it without allocation (R217). -/
def State.touchL2 (s : State) (line : Nat) : State :=
  if !versioned line then s
  else
    let x := mgetD s.l2 line {}
    if x.present then s.countDie (homeDie line) 0x101 none
    else
      let s := s.countDie (homeDie line) 0x102 none
      let set := s.setLines line
      if set.length < 16 then { s with l2 := mput s.l2 line { x with present := true } }
      else match set.find? (fun l => s.evictable l) with
        | some v => { s with l2 := mput (mdel s.l2 v) line { x with present := true } }
        | none => s

/-! ## Coalescers (R221) -/

def State.coal (s : State) (c tile : Nat) : List CoEntry := mgetD (s.core c).coal tile []
def State.setCoal (s : State) (c tile : Nat) (es : List CoEntry) : State :=
  s.setCore c { s.core c with coal := mset (s.core c).coal tile es [] }

/-- An entry goes to its home as one write. -/
def State.sendEntry (s : State) (c tile : Nat) (e : CoEntry) : State :=
  (s.setCoal c tile ((s.coal c tile).filter (fun x => x.line != e.line))).send
    (.write (.stores e.stores e.wins) c e.line e.bytes)

/-- Tenant of a store on its way: of its thread's launch, or of the machine's own programs. -/
def State.refTenant (s : State) (r : StoreRef) : Nat := (r.seq.map (fun q => (s.launch q).desc.tenant)).getD 0

/-- Tenant of a window line on its way home. -/
def State.winTenant (s : State) (c : Nat) (x : WinRef) : Nat := (s.launch (s.gang (s.wg c x.wg).gang).seq).desc.tenant

/-- A coalescer entry carries a write of a tenant. -/
def State.entryOf (s : State) (c tenant : Nat) (e : CoEntry) : Bool :=
  e.stores.any (fun r => s.refTenant r = tenant) || e.wins.any (fun x => s.winTenant c x = tenant)

/-- Bytes of a line join its open entry in a tile, or open one; the oldest entry leaves when none is free, and an
entry whose mask is full leaves at once (R221). -/
def State.coalesceAs (s : State) (c tile line : Nat) (bs : List (Nat × Byte)) (refs : List StoreRef)
    (wins : List WinRef) : State :=
  let es := s.coal c tile
  let s := if es.all (fun e => e.line != line) && 8 ≤ es.length then
      match es with
      | e :: _ => s.sendEntry c tile e
      | [] => s
    else s
  let es := s.coal c tile
  let join (e : CoEntry) : CoEntry :=
    { e with bytes := bs.foldl (fun m b => mput m b.1 b.2) e.bytes, stores := e.stores ++ refs, wins := e.wins ++ wins }
  let es := if es.any (fun e => e.line = line) then es.map (fun e => if e.line = line then join e else e)
    else es ++ [join { line, opened := (s.die (dieOf c)).clk }]
  let s := s.setCoal c tile es
  match es.find? (fun e => e.line = line) with
  | some e => if e.bytes.length = 128 then s.sendEntry c tile e else s
  | none => s

/-- A store of phase two reaches the coalescer of its memory tile (R221). -/
def State.coalesce (s : State) (c tile pa : Nat) (bs : List Byte) (r : StoreRef) : State :=
  s.coalesceAs c tile (lineOf pa) (lineBytes pa bs) [r] []

/-- Every entry that satisfies `f` is sent. -/
def State.sendEntries (s : State) (c : Nat) (f : CoEntry → Bool) : State :=
  (s.core c).coal.foldl (fun st e => (e.2.filter f).foldl (fun st x => st.sendEntry c e.1 x) st) s

/-- COALESCER_AGE_EXPIRY: an entry that has been open for 16 cycles of 1.4 GHz is sent (R221). -/
def execCoalescerAgeExpiry (core tile line : Nat) (s : State) : Host.Outcome State Fault Refusal :=
  go (match (s.coal core tile).find? (fun e => e.line = line) with
    | some e => if 80 ≤ 7 * ((s.die (dieOf core)).clk - e.opened) then s.sendEntry core tile e else s
    | none => s)

/-! ## Windows of the writer's gang (R242) -/

/-- The copies of a line in the windows of a workgroup are invalid. -/
def dropCopies (w : Wg) (line : Nat) : Wg :=
  { w with windows := w.windows.map (fun e => (e.1, { e.2 with
      lines := e.2.lines.map (fun l => if l.2.pline = line && !l.2.dirty then (l.1, { l.2 with valid := false }) else l) })) }

/-- The copies of a line in every window of every workgroup of a gang are invalid (R242). -/
def State.dropGangCopies (s : State) (g line : Nat) : State :=
  (s.gang g).members.foldl (fun st m => st.setWg m.core m.base (dropCopies (st.wg m.core m.base) line)) s

/-- Before an agent's write of a line counts as performed, its gang's window copies go. -/
def State.dropCopiesOf (s : State) (a : Agent) (line : Nat) : State :=
  match a.slot with
  | some t => s.dropGangCopies (s.gangOf a.core t) line
  | none => s

/-! ## Counted writes into a partition (R388, R392) -/

/-- A phase of a barrier object completes (R388). -/
def barComplete (o : BarObj) : BarObj :=
  { o with arrivals := 0, isOpen := false, mask := 0, phase := (o.phase + 1) % 2 ^ 16 }

/-- A barrier object written; when its phase moved, the threads held on its slot are woken. -/
def State.setBarrier (s : State) (c base q : Nat) (o : BarObj) : State :=
  let w := s.wg c base
  match mget w.barriers q with
  | none => s
  | some b =>
    let old := barOf s.mem (partAddr c w b.off)
    let s := { s with mem := writeBytes s.mem (partAddr c w b.off) (barBytes o) }
    if old.phase = o.phase then s else s.wakeWg c base (· == .barrier q)

/-- `n` counted bytes arrive in the partition of a workgroup: they reduce the pending bytes of its
receive barrier, and may complete the phase (R392). -/
def State.countBytes (s : State) (c base n : Nat) : State :=
  let w := s.wg c base
  match w.recvBar with
  | none => s
  | some q =>
    match mget w.barriers q with
    | none => s
    | some b =>
      let o := barOf s.mem (partAddr c w b.off)
      let o := { o with pending := (o.pending + 2 ^ 64 - n % 2 ^ 64) % 2 ^ 64 }
      s.setBarrier c base q (if o.pending = 0 && o.arrivals = o.expected then barComplete o else o)

/-- The workgroup whose partition holds a scratchpad address. -/
def State.partitionOf (s : State) (a : Nat) : Option (Nat × Nat) :=
  match regionOf a with
  | .scratch c =>
    ((s.core c).wgs.find? (fun e => partAddr c e.2 0 ≤ a && a < partAddr c e.2 e.2.partSize)).map (fun e => (c, e.1))
  | _ => none

/-! ## Home events -/

/-- Engines by context code: read and written in place (R383). -/
def State.setContext (s : State) (ctx : Nat) (g : Engine) : State :=
  let d := bitsOf ctx 10 8
  let i := ctx % 256
  match ctx / 4096 with
  | 1 => s.setEngine d i g
  | 2 => s.setEngine d 4 g
  | 3 => s.setEngine d 5 g
  | 4 => s.setCore (d * 16 + i) { s.core (d * 16 + i) with loadPipe := g }
  | 5 => s.setCore (d * 16 + i) { s.core (d * 16 + i) with writer := g }
  | 6 => s.setDie d { s.die d with pager := g }
  | 7 => s.setDie d { s.die d with launchTl := mput (s.die d).launchTl i g }
  | _ => s

/-- The command at the head of a context's queue changed. -/
def State.updHead (s : State) (ctx : Nat) (f : Cmd → Cmd) : State :=
  match s.context ctx with
  | some g =>
    match g.queue with
    | c :: rest => s.setContext ctx { g with queue := f c :: rest }
    | [] => s
  | none => s

/-- An operation of an agent's pass changed. -/
def State.updOp (s : State) (a : Agent) (k : Nat) (f : Op → Op) : State :=
  s.updPass a (fun p => match mget p.ops k with
    | some o => { p with ops := mput p.ops k (f o) }
    | none => p)

/-- A destination of the radix-partition network: an L2 slice of the core's own die, a bank of a core scratchpad, any
unit of another die; a line of the own die's scratchpad, which R223 does not list, stands for itself. -/
inductive NetDest where
  | slice (n : Nat)
  | bank (core n : Nat)
  | die (d : Nat)
  | line (n : Nat)
  deriving DecidableEq, Repr

/-- Where the partition network of a core sends an access at a place (R211, R223). -/
def netDest (c a : Nat) : NetDest :=
  match regionOf a with
  | .dev d => if d = dieOf c then .slice (sliceSet (lineOf a)).1 else .die d
  | .dieScratch d => if d = dieOf c then .line (lineOf a) else .die d
  | .scratch m => .bank m (scratchBank a)
  | .none => .line (lineOf a)

/-- The memory tile that keeps the FIFO of a destination (R223). -/
def NetDest.tile : NetDest → Option Nat
  | .slice n => some (n % 16)
  | .bank _ n => some (n % 16)
  | .die d => some d
  | .line _ => none

/-- The FIFO that an access stands in: its partition tile and its destination. -/
def netQueue (c a : Nat) : Option Nat × NetDest := ((netDest c a).tile, netDest c a)

/-- The FIFO of a write: that of its first byte. -/
def writeDest (c line : Nat) (bytes : List (Nat × Byte)) : Option Nat × NetDest :=
  netQueue c (line * 128 + (bytes.head?.map (·.1)).getD 0)

/-- An earlier message keeps its place in front: a write of the same core to the same destination (R211, R223), one
of the same engine to the same line, an earlier posted write, or any message of the same core about the same
line (R226). -/
def goesBefore (src : WriteSrc) (c line : Nat) (bytes : List (Nat × Byte)) (m : Msg) : Bool :=
  match src, m with
  | .posted, .write .posted _ l _ => l = line
  | .posted, .write (.spoiled _) _ l _ => l = line
  | .posted, _ => false
  | .spoiled _, .write .posted _ l _ => l = line
  | .spoiled _, .write (.spoiled _) _ l _ => l = line
  | .spoiled _, _ => false
  | .engine x, .write (.engine y) _ l _ => x = y && l = line
  | .engine _, _ => false
  | _, .write (.engine _) _ _ _ => false
  | _, .write .posted _ _ _ => false
  | _, .write (.spoiled _) _ _ _ => false
  | _, .write _ k l bs => k = c && (l = line || writeDest k l bs = writeDest c line bytes)
  | _, .ownReq k l => k = c && l = line
  | _, .back k l _ _ _ => k = c && l = line
  | _, _ => false

/-- A write waits behind an earlier message. -/
def State.writeBehind (s : State) (msg : Nat) (src : WriteSrc) (c line : Nat) (bytes : List (Nat × Byte)) : Bool :=
  s.msgs.any (fun e => e.1 < msg && goesBefore src c line bytes e.2)

/-- A write-back waits behind an earlier one of its line (R226). A write or a request of the core that stands at the
home waits for this very answer. -/
def State.backBehind (s : State) (msg c line : Nat) : Bool :=
  s.msgs.any (fun e => e.1 < msg && match e.2 with | .back k l _ _ _ => k = c && l = line | _ => false)

/-- A core's request for a line waits behind its earlier messages about it (R226). -/
def State.lineBehind (s : State) (msg c line : Nat) : Bool :=
  s.msgs.any (fun e => e.1 < msg && match e.2 with
    | .write (.stores _ _) k l _ => k = c && l = line
    | .ownReq k l => k = c && l = line
    | .back k l _ _ _ => k = c && l = line
    | _ => false)

/-- A write performs at its home as one write: the version advances once, and poison that it covers whole goes
(R215, R216, R247). -/
def State.performAt (s : State) (line : Nat) (bytes : List (Nat × Byte)) : State :=
  let s := (s.touchL2 line).bumpVersion line
  let s := if bytes.length = 128 then s.clearPoison (line * 128) 128
    else s.clearUnits (fun u size => (List.range size).all (fun i => bytes.any (fun b => line * 128 + b.1 = u + i)))
      (fun _ _ => false)
  { s with mem := bytes.foldl (fun m b => writeByte m (line * 128 + b.1) b.2) s.mem }

/-- A unit of a protected store is poisoned. -/
def State.poisonUnit (s : State) (u : SoftUnit) (a : Nat) : State :=
  if s.poisoned.contains (u, a) then s else { s with poisoned := s.poisoned ++ [(u, a)] }

/-- Bytes of a line written with data poison: a device line is poisoned, of a die scratchpad the units (R216). -/
def State.poisonWritten (s : State) (line : Nat) (offs : List Nat) : State :=
  match regionOf (line * 128) with
  | .dev _ => { s with side := mset s.side line { s.sideOf line with dp := true } {} }
  | .dieScratch _ => offs.foldl (fun (st : State) o => st.poisonUnit .dieScratch ((line * 128 + o) / 16 * 16)) s
  | .scratch _ => offs.foldl (fun (st : State) o => st.poisonUnit .coreScratch ((line * 128 + o) / 4 * 4)) s
  | .none => s

/-- Bytes of one line arrive as a host write: they perform, and their completion time stands with the host port's
(R233, R244). -/
def State.hostPut (s : State) (a : Nat) (bs : List Byte) : State :=
  let line := lineOf a
  let s := (s.touchL2 line).storeUnit a bs
  { s with hostTimes := laterTime s.hostTimes (homeDie line) (s.completion line) }

/-- A copy command: its destination lines count at a receive barrier (R392). -/
def isCopy : Instr → Bool
  | .cpy .. | .cpyt .. | .cpySend .. | .cpyRecv .. => true
  | _ => false

/-- What a write that has performed does besides: copies in its gang's windows go, and its completion time or its
credit is on its way back (R221, R241, R242, R308, R392). -/
def State.afterWrite (s : State) (src : WriteSrc) (c line : Nat) (offs : List Nat) (time : Nat) : State :=
  let d := homeDie line
  let n := offs.length
  let counted (s : State) : State := match s.partitionOf (line * 128) with
    | some (pc, pb) => s.countBytes pc pb n
    | none => s
  match src with
  | .posted => s
  | .spoiled wins =>
    let s := wins.foldl (fun (st : State) w => st.dropGangCopies (st.wg c w.wg).gang line) (s.poisonWritten line offs)
    s.send (.done [] wins c time d)
  | .stores refs wins =>
    let s := refs.foldl (fun (st : State) r => st.dropCopiesOf r.agent line) s
    let s := wins.foldl (fun (st : State) w => st.dropGangCopies (st.wg c w.wg).gang line) s
    s.send (.done refs wins c time d)
  | .cluster core wg port =>
    let s := counted s
    let w := s.wg core wg
    (s.setWg core wg { w with clusterUsed := mset w.clusterUsed port (mgetD w.clusterUsed port 0 - 1) 0 }).wakeWg core wg
      (· == .reserve (resCluster port))
  | .engine ctx =>
    let k := (s.context ctx).bind (·.queue.head?)
    let s := s.countDie d 0x10B (k.map (·.tenant))
    let s := if (k.map (fun k => isCopy k.instr)).getD false then counted s else s
    s.updHead ctx (fun k =>
      let r := s.noteTime (ctx / 256 % 8) d time k.horizon k.far
      { k with pending := k.pending - 1, horizon := r.1, far := r.2 })

/-- HOME_WRITE: a write arrives at its home point, performs as one write, and its completion time goes
back (R221, R232, R233, R247). A line with an owner is recalled first (R225); what one core sends to one
destination arrives in its order (R211, R223, R226). -/
def execHomeWrite (msg : Nat) (s : State) : Host.Outcome State Fault Refusal :=
  go (match mget s.msgs msg with
    | some (.write src c line bytes) =>
      let free := match src with | .posted => s.unowned line | .spoiled _ => s.unowned line | _ => s.homeFree line
      if !s.sent (.msg msg) || s.writeBehind msg src c line bytes then s
      else if !free then s.recallOwner line
      else
        let s := ({ s with msgs := mdel s.msgs msg } : State).performAt line bytes
        s.afterWrite src c line (bytes.map (·.1)) (s.completion line)
    | _ => s)

/-- An answer comes for requests that have been given up: each is discarded and counted (R420).
(log 65, DEDUCED) -/
def State.lateAnswer (s : State) (f : Req → Bool) : State :=
  (s.late.filter (fun e => f e.2.1)).foldl (fun (st : State) e =>
    { st with late := mdel st.late e.1 }.countBy e.2.1.agent 0x023 (some e.2.2)) s

/-- A part of a store has its completion time: its request is over, and the operation has performed with the last
of its parts. A request given up counts the late answer; the time of a thread that is gone stays with its launch
(R221, R241, R420). -/
def State.completeStore (s : State) (r : StoreRef) (j time : Nat) : State :=
  match mget s.reqs r.req with
  | some _ =>
    (((s.dropReq r.req).returnTime r.agent j time).updOp r.agent r.lsid (fun o =>
      let n := o.waiting - 1
      { o with waiting := n, performed := o.performed || n = 0 })).wakeLsq r.agent
  | none => match mget s.late r.req with
    | some (_, ten) => { s with late := mdel s.late r.req }.countBy r.agent 0x023 (some ten)
    | none => match r.seq with
      | some q => s.launchTime q r.agent.die j time
      | none => s

/-- A window line has been written back: it is free, unless an SPUT has written it again or a place of it is
reserved; the time goes to every thread of the workgroup (R219, R241, R259). -/
def State.completeBack (s : State) (c : Nat) (x : WinRef) (j time : Nat) : State :=
  let w := s.wg c x.wg
  let y := mgetD w.windows x.port {}
  let l := mgetD y.lines x.line {}
  let lines := if l.rsv = 0 && !l.dirty then mdel y.lines x.line else mput y.lines x.line { l with busy := false }
  let s := s.setWg c x.wg { w with windows := mput w.windows x.port { y with lines } }
  let s := (List.range w.n).foldl (fun (st : State) i => st.returnTime (.fab c (x.wg + i)) j time) s
  s.wakeWg c x.wg (windowWait x.port)

/-- A completion is for a thread of a held core, or for one of its windows: it waits at its memory tile (R414). -/
def State.doneHeld (s : State) (c : Nat) (refs : List StoreRef) (wins : List WinRef) : Bool :=
  s.heldCore c && (!wins.isEmpty || refs.any (fun r => match r.agent with | .fab _ _ => true | _ => false))

/-- COMPLETION_RETURN: the stores and the write-backs of an entry have their completion time and count as
performed (R221, R241). -/
def execCompletionReturn (msg : Nat) (s : State) : Host.Outcome State Fault Refusal :=
  go (match mget s.msgs msg with
    | some (.done refs wins c time d) =>
      if !s.sent (.msg msg) || s.doneHeld c refs wins then s else
      let s := refs.foldl (fun (st : State) r => st.completeStore r d time) { s with msgs := mdel s.msgs msg }
      wins.foldl (fun (st : State) x => st.completeBack c x d time) s
    | _ => s)

/-- COMPLETION_TIME_PASSED: the release horizon of a thread has passed in its die's clock; the times of
other dies outside fallback are done with (R234, R241). -/
def execCompletionTimePassed (core slot : Nat) (s : State) : Host.Outcome State Fault Refusal :=
  let x := s.thread core slot
  let d := dieOf core
  go (if s.passed d x.horizon x.far then s.setThread core slot { x with far := [] } else s)

/-! ## The atomic line buffer (R224 to R226) -/

/-- Data of a line as memory holds it. -/
def State.lineData (s : State) (line : Nat) : List Byte := readBytes s.mem (line * 128) 128

/-- Bank of a line in the atomic line buffer (R224). -/
def albBank (line : Nat) : Nat := line % 8

/-- A line that leaves the buffer goes back if it was modified, or is dropped (R225). -/
def State.albEvict (s : State) (c : Nat) (l : AlbLine) : State :=
  let k := s.core c
  let s := s.setCore c { k with alb := k.alb.filter (fun x => x.line != l.line) }
  if l.modified then s.send (.back c l.line l.data l.ver true) else s

/-- Room in the bank of a line: its least recently used line leaves when it is full (R225). -/
def State.albRoom (s : State) (c line : Nat) : State :=
  let bank := (s.core c).alb.filter (fun l => albBank l.line = albBank line)
  if bank.length < 8 then s
  else match bank.find? (fun l => !l.fresh) <|> bank.head? with
    | some l => s.albEvict c l
    | none => s

/-- The recorded owner asks for its line: its messages come in order, so it has dropped the line, and a recall that
has crossed the request is answered clean (R226). -/
def State.disown (s : State) (c line : Nat) : State :=
  if (mgetD s.l2 line {}).owner = some c then { s with l2 := mput s.l2 line { mgetD s.l2 line {} with owner := none } } else s

/-- OWNERSHIP_REQUEST: the home grants the line with its data, version and completion time, once no
other owner stands (R225, R226, R233). A line whose set has no free way is granted too; the home keeps its owner.
(log 80, DESIGN CHOICE) -/
def execOwnershipRequest (msg : Nat) (s : State) : Host.Outcome State Fault Refusal :=
  go (match mget s.msgs msg with
    | some (.ownReq c line) =>
      if !s.sent (.msg msg) || s.lineBehind msg c line then s
      else if !(s.disown c line).homeFree line then (s.disown c line).recallOwner line
      else
        let s := ({ s with msgs := mdel s.msgs msg } : State).touchL2 line
        let x := mgetD s.l2 line {}
        let time := s.completion line
        let s := { s with l2 := mput s.l2 line { x with owner := some c } }
        s.send (.grant c line (s.lineData line) (s.sideOf line).ver time)
    | _ => s)

/-- LINE_WRITE_BACK: the home installs data and version without an increment; the messages of one
line arrive in the order in which they were sent (R226). Of another core's line the owner stays. -/
def execLineWriteBack (msg : Nat) (s : State) : Host.Outcome State Fault Refusal :=
  go (match mget s.msgs msg with
    | some (.back c line data ver modified) =>
      if !s.sent (.msg msg) || s.backBehind msg c line then s
      else
        let s := (({ s with msgs := mdel s.msgs msg } : State).disown c line).lateAnswer (fun r => match r.kind with
          | .engine _ => r.parts.any (fun q => lineOf q.pa = line)
          | _ => false)
        if modified then
          let s := { s with mem := writeBytes s.mem (line * 128) data }
          if versioned line then { s with side := mset s.side line { s.sideOf line with ver } {} } else s
        else s
    | _ => s)

end Sys2Proof.Machine
end

