-- ==== Sys2Proof/Machine/Access.lean ====
section
/-! DEFINITION. The shared operations of memory instructions: effective addresses, what a load may
forward from and must wait for, issuing and finishing reads, stores and their perform, release
conditions, remote addresses, and deferred faults (R46, R237 to R242, R250 to R263, R267, R435, R437). -/

namespace Sys2Proof.Machine

/-! ## Addresses -/

/-- The effective address: base plus offset in units, modulo 2^57 (R250). -/
def eaOf (l : W64) (off : Int) (unit : Nat) : Nat := wrapTo ((l.toNat % 2 ^ 57 : Nat) + off * unit) 57

/-- The remote address: the byte offset is added modulo 2^48 (R262). -/
def remoteEa (l : W64) (off : Int) (unit : Nat) : Nat :=
  l.toNat / 2 ^ 48 * 2 ^ 48 + wrapTo ((l.toNat % 2 ^ 48 : Nat) + off * unit) 48

/-- Where a remote address stands among the addresses that forwarding compares: above every local one. -/
def remoteKey (ra : Nat) : Nat := 2 ^ 64 + ra

/-- Bytes of a memory size (R107). -/
def sizeBytes : Size → Nat
  | .s1 => 1
  | .s2 => 2
  | .s4 => 4
  | .s8 => 8

/-! ## The store buffer as loads see it (R46) -/

/-- Operations a pass has delivered, by LSID, those on their way to the sink included. -/
def buffered (p : Pass) : List (Nat × Op) :=
  p.ops ++ p.outs.filterMap (fun o => match o with | .op k x => some (k, x) | _ => none)

/-- Addresses and bytes an operation stores. -/
def opBytes (o : Op) : List (Nat × Byte) :=
  (o.parts.flatMap (fun q => (List.range q.len).map (q.pa + ·))).zip (toLE o.r.toNat 8)

/-- A store of the store buffer: ST, STL and RST. -/
def isStore : Instr → Bool
  | .st .. | .stl .. | .rst .. => true
  | _ => false

/-- The LSID of a store or a read of the block (R105). -/
def lsidOf (i : Instr) : Option Nat :=
  match i with
  | .ld _ _ _ _ l _ _ | .lda _ _ _ l _ _ | .ldv _ _ _ l _ _ _ | .rld _ _ _ l _ _ | .wsval _ l _
  | .st _ _ _ l _ | .stl _ _ _ l _ | .rst _ _ _ l _ | .fence _ _ _ l => some l.toNat
  | _ => none

/-- An acquire point: FENCE.acq and .ar, LDA and RLD.sys (R239, R263). -/
def isAcquire : Instr → Bool
  | .fence _ k _ _ => k = .acq || k = .ar
  | .lda .. => true
  | .rld _ _ sys _ _ _ => sys
  | _ => false

/-- The buffered store with the highest LSID below `j` that writes an address, and its byte. (log 56, DEDUCED) -/
def forwardFrom (ws : List W32) (p : Pass) (j addr : Nat) : Option (Nat × Byte) :=
  (buffered p).foldl (fun best e =>
    if e.1 < j && !e.2.null && ((instrAt ws e.2.idx).map isStore).getD false
        && (match best with | some b => b.1 < e.1 | none => true) then
      match (opBytes e.2).find? (·.1 = addr) with
      | some b => some (e.1, b.2)
      | none => best
    else best) none

/-- Instructions of a pass that can no longer fire: every producer of some input is predicated off, or
can itself no longer fire. -/
def deadInstrs (ws : List W32) (p : Pass) : List Nat :=
  let is := instrsOf ws
  let feeds (k : Nat) (i : Instr) (idx : Nat) (f : Field) : Bool :=
    k < idx && (targetsOf i).any (fun t => match t with | .to g j => g = f && j.toNat = idx | .none => false)
  is.foldl (fun dead e =>
    if p.fired.contains e.1 then dead
    else if (allInputs e.2).any (fun f =>
        is.all (fun q => !feeds q.1 q.2 e.1 f || p.offs.contains q.1 || dead.contains q.1)) then dead ++ [e.1]
    else dead) []

/-- A read of the pass has returned its value, or will never issue. -/
def State.returned (s : State) (a : Agent) (p : Pass) (dead : List Nat) (idx : Nat) : Bool :=
  dead.contains idx || (p.fired.contains idx && s.reqs.all (fun e => !(e.2.agent = a && e.2.idx = idx)))

/-- Virtual bytes that a store will write, once its address operand is there: whether remote, the first address and
the parts (R250, R252, R262). -/
def State.storeSpan (s : State) (a : Agent) (p : Pass) (idx : Nat) (i : Instr) : Option (Bool × List (Nat × Nat)) :=
  match s.operand a p (opKey idx .L), i with
  | some l, .st _ z ua _ off => some (false, partsOf (eaOf l off.toInt (sizeBytes z)) (sizeBytes z) ua)
  | some l, .stl _ z _ _ off => some (false, partsOf (eaOf l off.toInt (sizeBytes z)) (sizeBytes z) false)
  | some l, .rst _ z _ _ off => some (true, [(remoteEa l off.toInt (sizeBytes z), sizeBytes z)])
  | _, _ => none

/-- Two lists of byte ranges share a byte. -/
def rangesMeet (xs ys : List (Nat × Nat)) : Bool :=
  xs.any (fun x => ys.any (fun y => x.1 < y.1 + y.2 && y.1 < x.1 + x.2))

/-- The bytes that a read takes are bytes of a store: by their places where both translate, else by their
addresses. -/
def State.spansMeet (s : State) (a : Agent) (idx sidx : Nat) (rem : Bool) (vs : List (Nat × Nat)) (x : Bool × List (Nat × Nat)) : Bool :=
  let places (ps : List Part) : List (Nat × Nat) := ps.map (fun q => (q.pa, q.len))
  if rem || x.1 then rem && x.1 && rangesMeet vs x.2
  else match s.resolveAll a idx .read false vs, s.resolveAll a sidx .write false x.2 with
    | .ok ps, .ok qs => rangesMeet (places ps) (places qs)
    | _, _ => rangesMeet vs x.2

/-- A read of some bytes with LSID `j` waits for a store with a lower LSID: in an ordered pass for the address of
each, in any pass for the data of one whose address is there and meets the bytes (R46). (log 67, DEDUCED) -/
def State.storeAhead (s : State) (a : Agent) (p : Pass) (j : Nat) (fwd rem : Bool) (vs : List (Nat × Nat)) : Bool :=
  let ws := s.block p.img p.blk
  let dead := deadInstrs ws p
  let ordered := match a.slot with | some t => (s.thread a.core t).ordered | none => false
  (instrsOf ws).any (fun e => isStore e.2 && (match lsidOf e.2 with | some l => l < j | none => false)
    && !p.fired.contains e.1 && !dead.contains e.1
    && match s.storeSpan a p e.1 e.2 with
      | none => ordered
      | some x => fwd && s.spansMeet a s.cur.idx e.1 rem vs x)

/-- A read with LSID `j` must wait behind an acquire point for the reads that precede it (R239). -/
def State.readBlocked (s : State) (a : Agent) (p : Pass) (j : Nat) : Bool :=
  let ws := s.block p.img p.blk
  let is := instrsOf ws
  let dead := deadInstrs ws p
  let lower (i : Instr) (n : Nat) : Bool := match lsidOf i with | some l => l < n | none => false
  is.any (fun e => isAcquire e.2 && lower e.2 j && !p.offs.contains e.1 && !dead.contains e.1
        && is.any (fun q => isRead q.2 && !s.returned a p dead q.1
            && match lsidOf e.2 with
              | some m => lower q.2 m || q.1 = e.1
              | none => false))

/-! ## Issuing -/

/-- An operand of a match leaves the head of its edge for its operand slot. (log 53, DEDUCED) -/
def State.slotOperand (s : State) (a : Agent) (k : Nat) : State :=
  match s.passOf a with
  | none => s
  | some p =>
    match mget p.opnd k, s.operand a p k with
    | none, some v => (s.useOperand a k).updPass a (fun p => { p with opnd := mput p.opnd k v })
    | _, _ => s

/-- An access that waits for its translation waits in its memory tile, an outstanding request: its tokens have left
their edges (R298, R355). -/
def State.holdMissed (s : State) : State :=
  let a := s.cur.agent
  let idx := s.cur.idx
  if !s.reqs.any (fun e => e.2.agent = a && e.2.idx = idx && e.2.kind = .xlate) then s
  else match a, s.passOf a with
    | .fab c _, some p =>
      match p.inst, instrAt (s.block p.img p.blk) idx with
      | some n, some i =>
        if (allInputs i).all (fun f => (mget p.opnd (opKey idx f)).isSome) then s
        else ((allInputs i).foldl (fun (st : State) f => st.slotOperand a (opKey idx f)) s).settleLane c n p.lane
      | _, _ => s
    | _, _ => s

/-- An instruction whose firing may have to wait for more than its operands: `f` decides, on the state
before they are taken. (log 53, DEDUCED) -/
def State.attempt (s : State) (ins : List Field) (pr : Nat) (f : W64 → W64 → W64 → State → State) : State :=
  match s.ready ins pr with
  | .missing => s
  | .off => s.consumeOff ins pr
  | .on l r p => (f l r p s).holdMissed

/-- The operands are taken and the firing counted. -/
def State.taken (s : State) (ins : List Field) (pr : Nat) : State := (s.consume ins pr).fired

/-- Every translation of an access is used. -/
def State.touchAll (s : State) (a : Agent) (idx : Nat) (vs : List (Nat × Nat)) : State :=
  vs.foldl (fun st v => st.touchVa a idx v.1) s

/-- The record of a read as it issues: each byte with its address and the buffered store it forwards
from. -/
def readRec (ws : List W32) (p : Pass) (lsid : Nat) (fwd : Bool) (ps : List Part) : LoadRec :=
  { lsid,
    bytes := (ps.flatMap (fun q => (List.range q.len).map (q.pa + ·))).map (fun x =>
      (x, if fwd then (forwardFrom ws p lsid x).map (·.1) else none)) }

/-- The value of a read: bytes forwarded from the store buffer, the others as memory gave them. -/
def readValue (ws : List W32) (p : Pass) (rec_ : LoadRec) (mem : List Byte) : Nat :=
  leNat ((rec_.bytes.zip mem).map (fun e =>
    match e.1.2 with
    | some _ => ((forwardFrom ws p rec_.lsid e.1.1).map (·.2)).getD e.2
    | none => e.2))

/-- The token of a load: zero- or sign-extended (R254). -/
def loadTok (size : Nat) (sx : Bool) (v : Nat) : W64 :=
  if sx then BitVec.ofNat 64 (wrapTo (signedOf v (8 * size)) 64) else tokNat (v % 2 ^ (8 * size))

/-- A load all of whose parts have their values delivers its token (R252, R254). -/
def State.finishLoad (s : State) (a : Agent) (idx lsid size : Nat) (sx : Bool) : State :=
  match s.passOf a with
  | none => s
  | some p =>
    if s.reqs.any (fun e => e.2.agent = a && e.2.idx = idx) then s else
    match p.loads.find? (·.lsid = lsid), instrAt (s.block p.img p.blk) idx with
    | some r, some i =>
      let mem := mgetD p.got (2 * idx) [] ++ mgetD p.got (2 * idx + 1) []
      let v := readValue (s.block p.img p.blk) p r mem
      s.emitAt a idx 0 ((targetsOf i).headD .none) (loadTok size sx v)
    | _, _ => s

/-- A request for each part of a read that some byte of memory is needed for; the other parts need
none. -/
def State.requestParts (s : State) (lsid va : Nat) (kind : Nat → ReqKind) (r : LoadRec) :
    Nat → List Part → State
  | _, [] => s
  | k, q :: rest =>
    let a := s.cur.agent
    let need := r.bytes.any (fun b => q.pa ≤ b.1 && b.1 < q.pa + q.len && b.2.isNone)
    let s := if need then
        s.addReq { agent := a, idx := s.cur.idx, lsid, kind := kind k, va, parts := [q], start := (s.die a.die).clk }
      else s.updPass a (fun p => { p with got := mput p.got (2 * s.cur.idx + k) (List.replicate q.len 0) })
    State.requestParts s lsid (va57 (va + q.len)) kind r (k + 1) rest

/-- Stores with an LSID below `j` whose address is there and which have not fired (R46). -/
def State.placedStores (s : State) (a : Agent) (p : Pass) (j : Nat) : List Nat :=
  (instrsOf (s.block p.img p.blk)).filterMap (fun e =>
    if isStore e.2 && !p.fired.contains e.1 && (s.storeSpan a p e.1 e.2).isSome then (lsidOf e.2).filter (· < j) else none)

/-- LD, LDA and LDV issue: alignment, translation, then one request for each part (R46, R252 to R257). -/
def State.issueRead (s : State) (pr : Nat) (l : W64) (off : Int) (size : Nat) (ua ver sx : Bool)
    (lsid : Nat) (kind : Nat → ReqKind) : State :=
  let a := s.cur.agent
  let ea := eaOf l off size
  match s.passOf a with
  | none => s
  | some p =>
    let vs := partsOf ea size ua
    if s.readBlocked a p lsid || s.storeAhead a p lsid (!ver) false vs then s
    else if !ua && ea % size != 0 then s.raise fcAlign 0 ea
    else
      match s.resolveAll a s.cur.idx .read ver vs with
      | .fault c x => s.raise c 0 x
      | .miss x => s.awaitXlate x lsid .read
      | .ok ps =>
        let r := { readRec (s.block p.img p.blk) p lsid (!ver) ps with known := if ver then s.placedStores a p lsid else [] }
        let s := (s.touchAll a s.cur.idx vs).taken [.L] pr
        let s := s.updPass a (fun p => { p with loads := p.loads ++ [r] })
        ((s.requestParts lsid ea kind r 0 ps).finishLoad a s.cur.idx lsid size sx).checkPhaseOne a

/-- A store reaches the store buffer: loads of higher LSIDs that read one of its bytes from memory, or
from an earlier store, mark the pass violated, but for an LDV that issued when the store had its address (R46, R257).
(log 56, DEDUCED) -/
def markViolated (p : Pass) (k : Nat) (o : Op) : Pass :=
  let hit := p.loads.any (fun r => k < r.lsid && !r.known.contains k && r.bytes.any (fun b =>
    (match b.2 with | none => true | some i => i < k) && (opBytes o).any (·.1 = b.1)))
  if hit then { p with violated := true } else p

/-- A committing operation of the executing instruction is delivered. -/
def State.deliverOp (s : State) (k : Nat) (o : Op) : State := s.deliver (.op k { o with idx := s.cur.idx })

/-- ST and STL in phase one: alignment, translation of each part, the store buffer (R255, R256). -/
def State.issueStore (s : State) (pr : Nat) (l r : W64) (off : Int) (size : Nat) (ua : Bool) (lsid : Nat) : State :=
  let a := s.cur.agent
  let ea := eaOf l off size
  if !ua && ea % size != 0 then s.raise fcAlign 0 ea
  else
    let vs := partsOf ea size ua
    match s.resolveAll a s.cur.idx .write false vs with
    | .fault c x => s.raise c 0 x
    | .miss x => s.awaitXlate x lsid .write
    | .ok ps =>
      let o : Op := { l, r, va := ea, parts := ps }
      let s := (s.touchAll a s.cur.idx vs).taken [.L, .R] pr
      (s.updPass a (fun p => markViolated p lsid o)).deliverOp lsid o

/-! ## Phase two -/

/-- The operation of the executing instruction, with its LSID, while it has not performed. -/
def State.curOp (s : State) : Option (Nat × Op) :=
  match s.passOf s.cur.agent with
  | some p => p.ops.find? (fun e => e.2.idx = s.cur.idx && !e.2.null && !e.2.performed)
  | none => none

/-- The operation at an LSID has performed (R47). -/
def State.setPerformed (s : State) (k : Nat) : State :=
  s.updOp s.cur.agent k (fun o => { o with performed := true, waiting := 0 })

/-- Key of memory tile `t`: its row and column (R223). -/
def memTileKey (t : Nat) : Nat := (if t < 8 then 0 else 9) * 16 + 2 * (t % 8)

/-- Number of a window's virtual line among its lines. -/
def Window.lineNo (x : Window) (vline : Nat) : Nat := vline - x.base / 128

/-- Key of the memory tile that holds a line: line j lies in unit j mod units, four units to a tile (R218). -/
def Window.tile (x : Window) (vline : Nat) : Nat :=
  memTileKey (x.units.getD (x.lineNo vline % x.units.length) 0 / 4)

/-- A line of a window is changed. -/
def State.updLine (s : State) (c b port vline : Nat) (f : WinLine → WinLine) : State :=
  let w := s.wg c b
  let x := mgetD w.windows port {}
  s.setWg c b { w with windows := mput w.windows port { x with lines := mput x.lines vline (f (mgetD x.lines vline {})) } }

/-- The memory line that a dirty window line goes to: where its bytes were placed, or where its page lies now if a
TLBINV has removed the entry (R359). Without an entry that lets it be written, none. -/
def State.backPlace (s : State) (c b vline : Nat) (l : WinLine) : Option Nat :=
  if !l.stale then some l.pline
  else match s.tlbLookup c 0 (s.launch (s.gang (s.wg c b).gang).seq).desc.tenant (vline * 128) with
    | some e => if e.allows .write then some (lineOf (e.pa + vline * 128 % 2 ^ e.lg)) else none
    | none => none

/-- A dirty line of a window goes into the coalescer of its memory tile, one with an uncorrectable error home at once
with data poison. One whose write-back is under way, or whose page has no entry yet, waits (R216, R219, R221,
R359). A page that stays unreachable keeps the line. (log 79, DESIGN CHOICE) -/
def State.writeBackLine (s : State) (c b port vline : Nat) : State :=
  let w := s.wg c b
  let x := mgetD w.windows port {}
  let l := mgetD x.lines vline {}
  if !l.dirty || l.busy then s
  else match s.backPlace c b vline l with
    | none =>
      let s := s.updLine c b port vline (fun l => { l with due := true })
      let ten := (s.launch (s.gang w.gang).seq).desc.tenant
      if (s.tlbLookup c 0 ten (vline * 128)).isNone then s.startWalk (dieOf c) ten (vline * 128) (.window c b port) .write else s
    | some pline =>
      let s := s.updLine c b port vline (fun l =>
        { l with busy := true, dirty := false, data := [], pline, stale := false, spoilt := false, due := false })
      if l.spoilt then s.send (.write (.spoiled [{ wg := b, port, line := vline }]) c pline l.data)
      else s.coalesceAs c (x.tile vline) pline l.data [] [{ wg := b, port, line := vline }]

/-- A window line whose write-back had to wait goes home. -/
def State.retryBack (s : State) (c b port vline : Nat) : State :=
  if s.heldCore c || !(mgetD (mgetD (s.wg c b).windows port {}).lines vline {}).due then s else s.writeBackLine c b port vline

/-- Every dirty line of a workgroup's windows starts its write-back. -/
def State.writeBackWindows (s : State) (c b : Nat) : State :=
  (s.wg c b).windows.foldl (fun st w => w.2.lines.foldl (fun st l => st.writeBackLine c b w.1 l.1) st) s

/-- A workgroup has no dirty window line and no write-back under way. -/
def State.windowsClean (s : State) (c b : Nat) : Bool :=
  (s.wg c b).windows.all (fun w => w.2.lines.all (fun l => !l.2.dirty && !l.2.busy))

/-- Release horizon, further times, unacknowledged reductions and remote-write set of an agent (R241). -/
def State.relState (s : State) (a : Agent) : Nat × Map Nat × Nat × List Nat :=
  match a.slot with
  | some t => let x := s.thread a.core t; (x.horizon, x.far, x.nrOut, x.remote)
  | none => let x := s.ctl a; (x.horizon, x.far, x.nrOut, x.remote)

/-- The scopes at .die or wider (R240). -/
def scopeWide : Scope → Bool
  | .die | .dev | .sys => true
  | _ => false

/-- The release condition of a scope holds for an agent (R240). -/
def State.releaseMet (s : State) (a : Agent) (sc : Scope) : Bool :=
  let r := s.relState a
  let clean := match a.slot with | some t => s.windowsClean a.core (s.base a.core t) | none => true
  match sc with
  | .th => true
  | .wg | .gg => r.2.2.1 = 0
  | .die | .dev => r.2.2.1 = 0 && clean && s.passed a.die r.1 r.2.1
  | .sys => r.2.2.1 = 0 && clean && s.passed a.die r.1 r.2.1 && r.2.2.2.isEmpty

/-- What a waiting release sets going: the coalescer entries that carry a store of the agent, dirty
window lines at .die or wider, visibility probes at .sys (R219, R221, R241). -/
def State.startRelease (s : State) (a : Agent) (sc : Scope) (lsid : Nat) : State :=
  if sc = .th then s else
  let s := s.sendEntries a.core (fun e => e.stores.any (·.agent = a))
  let s := if scopeWide sc then
      match a.slot with
      | some t =>
        let b := s.base a.core t
        (s.writeBackWindows a.core b).sendEntries a.core (fun e => e.wins.any (·.wg = b))
      | none => s
    else s
  if sc = .sys then
    (s.relState a).2.2.2.foldl (fun st p =>
      if st.reqs.any (fun e => e.2.agent = a && e.2.kind = .probe p) then st
      else st.addReq { agent := a, idx := st.cur.idx, lsid, kind := .probe p, start := (st.die a.die).clk }) s
  else s

/-- What waits for a release at a scope performs once its condition holds (R240, R255, R264). -/
def State.afterRelease (s : State) (sc : Scope) (lsid : Nat) (f : State → State) : State :=
  let a := s.cur.agent
  if s.releaseMet a sc then f s else s.startRelease a sc lsid

/-- The places of an operation, translated again where a TLBINV or a resume has taken them away (R48,
R353, R403): a failed translation is a phase-two fault at the LSID. -/
def State.withParts (s : State) (k : Nat) (o : Op) (rt : Right) (ver : Bool) (vs : List (Nat × Nat))
    (f : List Part → State → State) : State :=
  if !o.parts.isEmpty && !o.stale then f o.parts s
  else
    match s.resolveAll s.cur.agent s.cur.idx rt ver vs with
    | .fault c x => s.faultTwo s.cur.agent c 0 x k
    | .miss x => s.awaitXlate x k rt
    | .ok ps => f ps ((s.touchAll s.cur.agent s.cur.idx vs).updOp s.cur.agent k (fun o => { o with parts := ps, stale := false }))

/-- Bytes written at a scratchpad bank at once (R232, R233). -/
def State.writeBank (s : State) (a : Agent) (pa : Nat) (bs : List Byte) : State :=
  let d := homeDie (lineOf pa)
  (s.storeUnit pa bs).returnTime a d (s.die d).clk

/-- A part of the executing store is an outstanding request, and what stands for it on its way (R420). -/
def State.newStore (s : State) (k va : Nat) : State × StoreRef :=
  let a := s.cur.agent
  let seq := a.slot.map (s.seqOf a.core)
  (s.addReq { agent := a, idx := s.cur.idx, lsid := k, kind := .store k, va, start := (s.die a.die).clk },
   { agent := a, lsid := k, req := s.nextReq, seq })

/-- One part of a store leaves for its home: a coalescer for device memory, the bank of a die scratchpad,
or at once the bank of the core scratchpad (R221, R232, R255). The number counts what is still to
come back. -/
def State.storePart (s : State) (k va pa : Nat) (bs : List Byte) : State × Nat :=
  let a := s.cur.agent
  match regionOf pa with
  | .dev _ => let x := s.newStore k va; (x.1.coalesce a.core (s.memTile a s.cur.idx) pa bs x.2, 1)
  | .dieScratch _ =>
    let x := s.newStore k va
    (x.1.send (.write (.stores [x.2] []) a.core (lineOf pa) (lineBytes pa bs)), 1)
  | _ => (s.writeBank a pa bs, 0)

/-- The parts of a store leave one after the other. -/
def State.storeParts (s : State) (k va : Nat) : List Part → List Byte → State × Nat
  | [], _ => (s, 0)
  | q :: rest, bs =>
    let x := s.storePart k va q.pa (bs.take q.len)
    let y := State.storeParts x.1 k (va57 (va + q.len)) rest (bs.drop q.len)
    (y.1, x.2 + y.2)

/-- The perform of ST and STL (R255): it has performed when every part has its completion time. -/
def State.performStore (s : State) (sc : Scope) (size : Nat) (ua : Bool) : State :=
  match s.curOp with
  | none => s
  | some (k, o) =>
    if o.started then s
    else s.afterRelease sc k fun s =>
      s.withParts k o .write false (partsOf o.va size ua) fun ps s =>
        let a := s.cur.agent
        let s := s.updOp a k (fun o => { o with started := true, waiting := ps.length })
        let x := s.storeParts k o.va ps (toLE o.r.toNat size)
        x.1.updOp a k (fun o => { o with waiting := x.2, performed := x.2 = 0 })

/-! ## Remote access (R262, R263, R435, R437) -/

/-- Offset of entry `i` of a port's outbound window table (R435). -/
def outReg (p i : Nat) : Nat := 0x3080000 + 0x1000 * p + 0x10 * i

/-- The lowest-indexed valid entry of a port for a tenant and a window: where it sends to, and the admission key
that it attaches (R262, R435). -/
def State.outbound (s : State) (p tenant window : Nat) : Option Outbound :=
  ((List.range 256).find? (fun i =>
    let e := s.reg (outReg p i)
    flag e 31 && e % 64 = tenant && bitsOf e 17 6 = window)).map (fun i =>
      { dest := bitsOf (s.reg (outReg p i)) 27 18, window := bitsOf (s.reg (outReg p i)) 43 32,
        key := s.reg (outReg p i + 8) % 2 ^ 32, source := s.reg (0x30A0000 + 0x100 * p) % 2 ^ 10 })

/-- What the port of a remote address attaches to a request of an agent, where its window is there (R262). -/
def State.lookOut (s : State) (a : Agent) (ra : Nat) : Option Outbound :=
  if 12 ≤ remotePort ra then none else s.outbound (remotePort ra) (s.tenantOf a) (bitsOf ra 59 48)

/-- The checks of a remote address in phase one: the fault it raises (R262). -/
def State.remoteBad (s : State) (a : Agent) (ra size : Nat) : Option Nat :=
  if ra % size != 0 then some fcAlign
  else if (s.lookOut a ra).isNone then some fcAccess
  else none

/-- The port of a remote address joins the remote-write set of an agent (R241). -/
def State.remoteWrote (s : State) (a : Agent) (port : Nat) : State :=
  let add (r : List Nat) : List Nat := if r.contains port then r else r ++ [port]
  match a.slot with
  | some t => let x := s.thread a.core t; s.setThread a.core t { x with remote := add x.remote }
  | none => let x := s.ctl a; s.setCtl a { x with remote := add x.remote }

/-- The record of a remote error in the fault queue of the requesting tenant (R253, R326, R437). -/
def State.postRemoteOf (s : State) (tenant seq : Nat) (a : Agent) (code sub port ra : Nat) : State :=
  s.postTenant tenant (mkRec 0x0A code sub tenant a.core (a.slot.getD 0xFFFF) seq port (s.die a.die).clk ra)

/-- The record of a fault of an agent's own pass. -/
def State.postRemote (s : State) (a : Agent) (code sub ra : Nat) : State :=
  let seq := match a.slot with | some t => s.seqOf a.core t | none => 0
  s.postRemoteOf (s.tenantOf a) seq a code sub (remotePort ra) ra

/-! ## Deferred faults of non-returning reductions (R48, R267, R406, R407) -/

/-- A DEFERRED entry: core and opcode in the fifth and sixth bytes, the operand in the middle. -/
def deferredRec (code sub tenant core slot op : Nat) (operand : W64) (clk addr : Nat) : Rec :=
  BitVec.ofNat 256 (0x0B + 2 ^ 8 * (code % 256) + 2 ^ 16 * (sub % 256) + 2 ^ 24 * (tenant % 64)
    + 2 ^ 32 * (core % 128 + 128 * (op % 128)) + 2 ^ 48 * (slot % 2 ^ 16)
    + 2 ^ 64 * operand.toNat + 2 ^ 128 * (clk % 2 ^ 64) + 2 ^ 192 * (addr % 2 ^ 64))

/-- An entry of a launch's fault record: the count is kept in full, saturating; sixteen entries are
kept (R407). -/
def State.addFault (s : State) (seq : Nat) (r : Rec) : State :=
  let x := s.launch seq
  s.setLaunch seq { x with
    faults := if x.faults.length < 16 then x.faults ++ [r] else x.faults
    faultCount := min (x.faultCount + 1) 0xFFFFFFFF }

/-- The opcode of an instruction. -/
def opcodeOf (i : Instr) : Nat :=
  match encodeFields i with
  | some f => f.op
  | none => 0

/-- A fault of a .nr reduction: an entry of its launch's fault record, or of the die event queue for a
program without a launch (R267, R451); a remote cause is posted to the tenant too. -/
def State.deferFault (s : State) (o : NrOp) (code sub addr : Nat) (remote : Bool) : State :=
  let a := o.agent
  let r := deferredRec code sub o.tenant a.core (a.slot.getD 0xFFFF) (opcodeOf o.instr) o.op.r (s.die a.die).clk addr
  let s := if a.slot.isSome then s.addFault o.seq r else s.postDie a.die r
  if remote then s.postRemoteOf o.tenant o.seq a code sub (remotePort addr) addr else s

end Sys2Proof.Machine
end

