-- ==== Sys2Proof/Machine/Mem.lean ====
section
/-! DEFINITION. Loads, stores, versioned loads, prefetch and remote access of class MEM (R250 to R258,
R262, R263). -/

namespace Sys2Proof.Machine

/-- LD issues in phase one (R254). -/
def execLd (p : Pred) (z : Size) (sx ua : Bool) (l : BitVec 5) (off : BitVec 4) (_t0 : Target) (s : State) :
    Host.Outcome State Fault Refusal :=
  go (s.attempt [.L] p.code fun x _ _ st =>
    st.issueRead p.code x off.toInt (sizeBytes z) ua false sx l.toNat (fun k => .load (sizeBytes z) sx k))

/-- LDA reads as LD does, zero-extends, and is an acquire point for the reads behind it (R239, R254). -/
def execLda (p : Pred) (z : Size) (_sc : Scope) (l : BitVec 5) (off : BitVec 4) (_t0 : Target) (s : State) :
    Host.Outcome State Fault Refusal :=
  go (s.attempt [.L] p.code fun x _ _ st =>
    st.issueRead p.code x off.toInt (sizeBytes z) false false false l.toNat (fun k => .load (sizeBytes z) false k))

/-- ST: the store buffer in phase one, its home in phase two (R255). -/
def execSt (p : Pred) (z : Size) (ua : Bool) (l : BitVec 5) (off : BitVec 4) (s : State) :
    Host.Outcome State Fault Refusal :=
  go (match s.cur.phase with
    | .one => s.attempt [.L, .R] p.code fun x y _ st =>
        st.issueStore p.code x y off.toInt (sizeBytes z) ua l.toNat
    | _ => s.performStore .th (sizeBytes z) ua)

/-- STL: as ST, performed after the release condition of its scope (R239, R255). -/
def execStl (p : Pred) (z : Size) (sc : Scope) (l : BitVec 5) (off : BitVec 4) (s : State) :
    Host.Outcome State Fault Refusal :=
  go (match s.cur.phase with
    | .one => s.attempt [.L, .R] p.code fun x y _ st =>
        st.issueStore p.code x y off.toInt (sizeBytes z) false l.toNat
    | _ => s.performStore sc (sizeBytes z) false)

/-- LDV: data and version of a line of device memory (R257). A control thread has no watch set (R451). -/
def execLdv (p : Pred) (z : Size) (w : Bool) (l : BitVec 5) (off : BitVec 11) (_t1 _t0 : Target) (s : State) :
    Host.Outcome State Fault Refusal :=
  go (s.attempt [.L] p.code fun x _ _ st =>
    if st.cur.agent.slot.isNone then st.raise fcAccess
    else st.issueRead p.code x off.toInt (sizeBytes z) false true false l.toNat (fun _ => .ldv (sizeBytes z) w))

/-- The device line a prefetch would fetch: a hit of some TLB level that names device memory (R258). -/
def State.prefetchLine (s : State) (a : Agent) (idx va : Nat) : Option Nat :=
  let dev (pa : Nat) : Option Nat := match regionOf pa with | .dev _ => some (lineOf pa) | _ => none
  if scratchVa ≤ va then none
  else if a.slot.isNone then dev va
  else match s.tlbLookup a.core (s.memTile a idx) (s.tenantOf a) va with
    | some e => dev (e.pa + va % 2 ^ e.lg)
    | none => none

/-- PRF: the home fetches the line into a free way, or the prefetch is dropped and counted (R258). -/
def execPrf (p : Pred) (s : State) : Host.Outcome State Fault Refusal :=
  go (s.fire [.L] p.code fun x _ _ st =>
    let a := st.cur.agent
    let va := va57 x.toNat
    let dropped := st.countBy a 0x00D (some (st.tenantOf a))
    match st.prefetchLine a st.cur.idx va with
    | none => dropped
    | some line =>
      let e := mgetD st.l2 line {}
      if e.owner.isSome then dropped
      else if e.present then st.touchVa a st.cur.idx va
      else if (st.setLines line).length < 16 then
        { st.touchVa a st.cur.idx va with l2 := mput st.l2 line { e with present := true } }
      else dropped)

/-- RLD: a read of remote memory in phase one (R262, R263). -/
def execRld (p : Pred) (z : Size) (_sys : Bool) (l : BitVec 5) (off : BitVec 4) (_t0 : Target) (s : State) :
    Host.Outcome State Fault Refusal :=
  go (s.attempt [.L] p.code fun x _ _ st =>
    let a := st.cur.agent
    let n := sizeBytes z
    let ra := remoteEa x off.toInt n
    match st.passOf a with
    | none => st
    | some q =>
      if st.readBlocked a q l.toNat || st.storeAhead a q l.toNat true true [(ra, n)] then st
      else match st.remoteBad a ra n with
        | some c => st.raise c 0 ra
        | none =>
          let part : Part := { pa := remoteKey ra, len := n }
          let r := readRec (st.block q.img q.blk) q l.toNat true [part]
          let st := st.taken [.L] p.code
          let st := st.updPass a (fun q => { q with loads := q.loads ++ [r] })
          if r.bytes.any (·.2.isNone) then
            st.addReq { agent := a, idx := st.cur.idx, lsid := l.toNat, kind := .remoteRead n, va := ra,
                                 parts := [part], remote := st.lookOut a ra, start := (st.die a.die).clk }
          else
            ((st.updPass a (fun q => { q with got := mput q.got (2 * st.cur.idx) (List.replicate n 0) })).finishLoad
              a st.cur.idx l.toNat n false).checkPhaseOne a)

/-- The perform of RST: a request to its port after the release it needs (R263). -/
def State.performRst (s : State) (sc : Scope) : State :=
  match s.curOp with
  | none => s
  | some (k, o) =>
    if o.started then s
    else s.afterRelease sc k fun s =>
      let a := s.cur.agent
      let s := (s.updOp a k (fun o => { o with started := true, waiting := 1 })).remoteWrote a (remotePort o.va)
      s.addReq { agent := a, idx := s.cur.idx, lsid := k, kind := .remoteWrite k, va := o.va, remote := o.remote,
                             start := (s.die a.die).clk }

/-- RST: checked and buffered in phase one, sent in phase two (R262, R263). -/
def execRst (p : Pred) (z : Size) (sys : Bool) (l : BitVec 5) (off : BitVec 4) (s : State) :
    Host.Outcome State Fault Refusal :=
  go (match s.cur.phase with
    | .one => s.attempt [.L, .R] p.code fun x y _ st =>
        let n := sizeBytes z
        let ra := remoteEa x off.toInt n
        match st.remoteBad st.cur.agent ra n with
        | some c => st.raise c 0 ra
        | none =>
          let o : Op := { l := x, r := y, va := ra, parts := [{ pa := remoteKey ra, len := n }], remote := st.lookOut st.cur.agent ra }
          ((st.taken [.L, .R] p.code).updPass st.cur.agent (fun q => markViolated q l.toNat o)).deliverOp l.toNat o
    | _ => s.performRst (if sys then .sys else .th))

end Sys2Proof.Machine
end

