-- ==== Sys2Proof/Machine/Atomics.lean ====
section
/-! DEFINITION. Atomics, non-returning reductions, fences and the grant of a line (R225, R226, R232,
R233, R239, R240, R249, R264 to R270, R395). -/

namespace Sys2Proof.Machine

/-! ## What each atomic computes -/

/-- Outcome of an atomic at its location: the bytes it leaves there, whether it is a write, the tokens
it returns and the floating-point exceptions it raises. -/
structure AtomicRes where
  new : List Byte
  wrote : Bool := true
  t0 : W64
  t1 : W64 := 0
  fls : List FFlags := []
  deriving DecidableEq, Repr

/-- An integer type of AADD, AMIN and AMAX as an XI type (R113). -/
def aIntTy : AIntTy → IntTy
  | .i32 => .i32 | .i64 => .i64 | .n32 => .n32 | .n64 => .n64

/-- A type of AFADD as an FPU format (R113). -/
def aFltTy : AFltTy → FFmt
  | .f32 => .f32 | .f16x2 => .f16x2 | .bf16x2 => .bf16x2

/-- An integer atomic: the new value modulo 2^w, the old one extended by type (R266). -/
def atomicInt (ty : AIntTy) (f : IntTy → W64 → W64 → W64) (old : List Byte) (b : W64) : AtomicRes :=
  let o := tokNat (leNat old)
  { new := toLE (f (aIntTy ty) o b).toNat ((aIntTy ty).width / 8), t0 := extendTok (aIntTy ty) (valOf (aIntTy ty) o) }

/-- A bit atomic (R266). -/
def atomicBit (ty : BitTy) (f : W64 → W64 → W64) (old : List Byte) (b : W64) : AtomicRes :=
  let o := tokNat (leNat old)
  { new := toLE (f o b).toNat (bitWidth ty / 8), t0 := cutTok ty o }

/-- AFADD rounds to nearest even; a packed form adds each half (R184, R266). -/
def atomicFadd (ty : AFltTy) (old : List Byte) (b : W64) : AtomicRes :=
  let o := tokNat (leNat old)
  let x := fpuAdd (aFltTy ty) .rne .none false o b
  { new := toLE x.val.toNat 4, t0 := o, fls := x.fls }

/-- ACAS: opP where the old value equals opR at the width (R266). -/
def atomicCas (ty : BitTy) (old : List Byte) (cmp swap : W64) : AtomicRes :=
  let o := tokNat (leNat old)
  { new := if cutTok ty o = cutTok ty cmp then toLE swap.toNat (bitWidth ty / 8) else old, t0 := cutTok ty o }

/-- ACASW: the 16 bytes compare with a register pair and take (opP : opR) (R268). -/
def atomicCasw (old : List Byte) (c0 c1 r p : W64) : AtomicRes :=
  let lo := tokNat (leNat (old.take 8))
  let hi := tokNat (leNat (old.drop 8))
  { new := if lo = c0 && hi = c1 then toLE r.toNat 8 ++ toLE p.toNat 8 else old, t0 := lo, t1 := hi }

/-- ACASV: the version compares with opR[55:0]; a poisoned version observes all ones and fails (R215,
R249, R269). -/
def atomicCasv (old : List Byte) (ver : Nat) (vp : Bool) (r : W64) (data : List Byte) : AtomicRes :=
  let v := if vp then 2 ^ 56 - 1 else ver
  let ok := !vp && v = r.toNat % 2 ^ 56
  { new := if ok then data else old, wrote := ok, t0 := tokNat v, t1 := predTok ok }

/-- Bytes of the data of an ACASV. -/
def vdataSize : VData → Nat
  | .op4 => 4
  | .op8 => 8
  | .pair _ _ => 16

/-- Bytes of the location of an atomic (R264, R268, R269). -/
def atomicSize : Instr → Nat
  | .aadd _ ty .. | .amin _ ty .. | .amax _ ty .. | .aaddNr _ ty .. | .aminNr _ ty .. | .amaxNr _ ty .. =>
    (aIntTy ty).width / 8
  | .afadd .. | .afaddNr .. => 4
  | .aand _ ty .. | .aor _ ty .. | .axor _ ty .. | .axchg _ ty .. | .aandNr _ ty .. | .aorNr _ ty ..
  | .axorNr _ ty .. | .axchgNr _ ty .. => bitWidth ty / 8
  | .acas ty .. | .acasNr ty .. => bitWidth ty / 8
  | .acasw .. | .acaswNr .. => 16
  | .acasv d .. | .acasvNr d .. => vdataSize d
  | _ => 8

/-- An ACASV: it needs a version. -/
def isCasv : Instr → Bool
  | .acasv .. | .acasvNr .. => true
  | _ => false

/-- The atomic at its location (R264 to R269): operands from the operation, register pairs as the
thread held them at admission. -/
def atomicRun (i : Instr) (o : Op) (reg : Nat → W64) (old : List Byte) (ver : Nat) (vp : Bool) : AtomicRes :=
  let vdata (d : VData) : List Byte := match d with
    | .op4 => toLE o.p.toNat 4
    | .op8 => toLE o.p.toNat 8
    | .pair _ b => toLE (reg b.toNat).toNat 8 ++ toLE (reg (b.toNat + 1)).toNat 8
  match i with
  | .aadd _ ty .. | .aaddNr _ ty .. => atomicInt ty (fun t a b => aluAdd t false a b) old o.r
  | .amin _ ty .. | .aminNr _ ty .. => atomicInt ty aluMin old o.r
  | .amax _ ty .. | .amaxNr _ ty .. => atomicInt ty aluMax old o.r
  | .afadd _ ty .. | .afaddNr _ ty .. => atomicFadd ty old o.r
  | .aand _ ty .. | .aandNr _ ty .. => atomicBit ty (fun a b => a &&& b) old o.r
  | .aor _ ty .. | .aorNr _ ty .. => atomicBit ty (fun a b => a ||| b) old o.r
  | .axor _ ty .. | .axorNr _ ty .. => atomicBit ty (fun a b => a ^^^ b) old o.r
  | .axchg _ ty .. | .axchgNr _ ty .. => atomicBit ty (fun _ b => b) old o.r
  | .acas ty .. | .acasNr ty .. => atomicCas ty old o.r o.p
  | .acasw _ _ b .. => atomicCasw old (reg b.toNat) (reg (b.toNat + 1)) o.r o.p
  | .acaswNr _ _ b _ => atomicCasw old (reg b.toNat) (reg (b.toNat + 1)) o.r o.p
  | .acasv d .. => atomicCasv old ver vp o.r (vdata d)
  | .acasvNr d .. => atomicCasv old ver vp o.r (vdata d)
  | _ => { new := old, wrote := false, t0 := 0 }

/-! ## Executing at the owner or the bank -/

/-- The line of an address is in the core's atomic line buffer. -/
def State.owned (s : State) (c line : Nat) : Option AlbLine := (s.core c).alb.find? (·.line = line)

/-- The exceptions of an AFADD count on the core that executes it: a supervisor's on core 0 of its die, whose line
buffer does (R69, R266). (log 78, DESIGN CHOICE) -/
def State.countFls (s : State) (c tenant : Nat) (fls : List FFlags) : State :=
  let one (st : State) (b : Bool) (src : Nat) : State := if b then st.count c src (some tenant) else st
  fls.foldl (fun st f => one (one (one (one (one st f.invalid 0x010) f.divZero 0x011) f.overflow 0x012) f.underflow 0x013) f.inexact 0x014) s

/-- An atomic touches data poison. A version-poisoned line answers an ACASV before its data is looked at
(R215, R269). -/
def State.atomicPoison (s : State) (i : Instr) (pa size : Nat) : Bool :=
  s.poisonAt pa size && !(isCasv i && (s.sideOf (lineOf pa)).vp)

/-- An atomic on a line of the core's buffer: the data and the version change in one step, and the line
becomes the most recently used (R225, R226, R265). -/
def State.atomicAtLine (s : State) (c tenant : Nat) (i : Instr) (o : Op) (reg : Nat → W64) (pa size : Nat)
    (l : AlbLine) : State × AtomicRes :=
  let at_ := pa % 128
  let old := (l.data.drop at_).take size
  let x := atomicRun i o reg old l.ver (s.sideOf (lineOf pa)).vp
  let data := l.data.take at_ ++ x.new ++ l.data.drop (at_ + size)
  let l' := if x.wrote then { l with data, ver := (l.ver + 1) % 2 ^ 56, modified := true, fresh := false }
    else { l with fresh := false }
  let k := s.core c
  ((s.setCore c { k with alb := k.alb.filter (·.line != l.line) ++ [l'] }).countFls c tenant x.fls, x)

/-- An atomic at a core scratchpad bank, without ownership or version (R224, R264). -/
def State.atomicAtBank (s : State) (c tenant : Nat) (i : Instr) (o : Op) (reg : Nat → W64) (pa size : Nat) :
    State × AtomicRes :=
  let x := atomicRun i o reg (readBytes s.mem pa size) 0 false
  ((if x.wrote then s.storeUnit pa x.new else s).countFls c tenant x.fls, x)

/-- A core asks for the ownership of a line, unless it has asked (R225). -/
def State.askLine (s : State) (c line : Nat) : State :=
  if s.msgs.any (fun e => match e.2 with
      | .ownReq k l => k = c && l = line
      | .grant k l _ _ _ => k = c && l = line
      | _ => false) then s
  else s.send (.ownReq c line)

/-! ## Returning atomics -/

/-- A result of a committing instruction takes effect through the LVW its target feeds (R47, R264). -/
def State.feedLvw (s : State) (a : Agent) (idx t : Nat) (v : W64) : State :=
  match s.passOf a with
  | none => s
  | some p =>
    let ws := s.block p.img p.blk
    match (instrAt ws idx).map (fun i => (targetsOf i).getD t .none) with
    | some (.to .L j) =>
      match instrAt ws j.toNat with
      | some (.lvw q r) =>
        let on := match mget p.opnd (opKey j.toNat .P) with | some x => predHolds q.code x | none => q.code = 0
        if on && !p.fired.contains j.toNat && (mget p.lvw r.toNat).isNone then
          s.setPass a { p with lvw := mput p.lvw r.toNat (some v), fired := p.fired ++ [j.toNat] }
        else s
      | _ => s
    | _ => s

/-- A returning atomic has performed: its results go to the sink (R47). -/
def State.atomicDone (s : State) (a : Agent) (k : Nat) (o : Op) (t0 t1 : W64) : State :=
  let s := s.updOp a k (fun o => { o with performed := true, waiting := 0, l := t0, p := t1 })
  (s.feedLvw a o.idx 0 t0).feedLvw a o.idx 1 t1

/-- A returning atomic that waits for its line is an outstanding request: its timeout is a phase-two fault (R48,
R420). -/
def State.lineReq (s : State) (k va pa : Nat) : State :=
  let a := s.cur.agent
  if s.reqs.any (fun e => e.2.agent = a && e.2.kind = .atomic k) then s
  else s.addReq { agent := a, idx := s.cur.idx, lsid := k, kind := .atomic k, va, parts := [{ pa, len := 1 }], start := (s.die a.die).clk }

/-- The wait of an atomic for its line is over. -/
def State.endLineReq (s : State) (a : Agent) (k : Nat) : State :=
  { s with reqs := s.reqs.filter (fun e => !(e.2.agent = a && e.2.kind = .atomic k)) }

/-- Completion time of an atomic on a line of the core's buffer: of device memory the one granted with the line, of
a die scratchpad the bank's clock (R233). -/
def State.atomicTime (s : State) (l : AlbLine) : Nat :=
  if versioned l.line then l.time else (s.die (homeDie l.line)).clk

/-- The perform of a returning atomic whose place is known (R264 to R269). -/
def State.atomicAt (s : State) (k : Nat) (o : Op) (i : Instr) (pa size : Nat) : State :=
  let a := s.cur.agent
  let c := a.core
  let ten := s.tenantOf a
  let d := homeDie (lineOf pa)
  match regionOf pa with
  | .scratch _ =>
    if s.atomicPoison i pa size then s.faultTwo a fcPoison 0 o.va k
    else
      let x := s.atomicAtBank c ten i o (s.liveReg a) pa size
      (x.1.returnTime a d (s.die d).clk).atomicDone a k o x.2.t0 x.2.t1
  | _ =>
    match s.owned c (lineOf pa) with
    | none => ((s.updOp a k (fun o => { o with started := true })).askLine c (lineOf pa)).lineReq k o.va pa
    | some l =>
      let s := s.endLineReq a k
      if s.atomicPoison i pa size then
        (s.setCore c { s.core c with alb := (s.core c).alb.map (fun x => if x.line = l.line then { x with fresh := false } else x) }).faultTwo
          a fcPoison 0 o.va k
      else
        let x := s.atomicAtLine c ten i o (s.liveReg a) pa size l
        let s := if x.2.wrote then (x.1.dropCopiesOf a (lineOf pa)).returnTime a d (s.atomicTime l) else x.1
        s.atomicDone a k o x.2.t0 x.2.t1

/-- The perform of a returning atomic (R264). -/
def State.performAtomic (s : State) (sc : Scope) (i : Instr) : State :=
  match s.curOp with
  | none => s
  | some (k, o) =>
    let a := s.cur.agent
    let size := atomicSize i
    if sc = .sys then
      if o.started then s
      else s.afterRelease .sys k fun s =>
        let s := (s.updOp a k (fun o => { o with started := true, waiting := 1 })).remoteWrote a (remotePort o.va)
        s.addReq { agent := a, idx := s.cur.idx, lsid := k, kind := .remoteAtomic k, va := o.va, remote := o.remote,
                              start := (s.die a.die).clk }
    else
      let run (s : State) : State :=
        s.withParts k o .atomic (isCasv i) [(o.va, size)] fun ps s => s.atomicAt k o i ((ps.head?.map (·.pa)).getD 0) size
      if o.started then run s else s.afterRelease sc k run

/-! ## Non-returning reductions -/

/-- Resolving the place of a held reduction: as it was resolved when it fired, unless a TLBINV or a resume has taken
that away; then from its address, in a local aperture too (R267, R359, R403). -/
def State.resolveNr (s : State) (x : NrOp) (size : Nat) : Xl :=
  match x.op.parts, x.op.stale with
  | q :: _, false => .ok q.pa
  | _, _ =>
    if x.agent.slot.isNone then
      if !inRegion x.op.va size then .fault fcAccess
      else if isCasv x.instr && !versioned (lineOf x.op.va) then .fault fcAccess
      else .ok x.op.va
    else if scratchVa ≤ x.op.va then s.resolve x.agent x.op.idx x.op.va size .atomic (isCasv x.instr)
    else match s.tlbLookup x.agent.core 0 x.tenant x.op.va with
      | none => .miss
      | some e =>
        if !e.allows .atomic || (isCasv x.instr && e.scratch) then .fault fcAccess
        else .ok (e.pa + x.op.va % 2 ^ e.lg)

/-- Where the issuer of a reduction stands now: a squash and a restore may have moved it (R347). -/
def State.nrHome (s : State) (a : Agent) (gang wgid tid : Nat) : Option Agent :=
  if a.slot.isNone then some a
  else ((s.gang gang).members[wgid]?).bind (fun m =>
    match (s.thread m.core (m.base + tid)).st with
    | .empty | .exited => none
    | _ => some (.fab m.core (m.base + tid)))

/-- One reduction of a thread is acknowledged or deferred. -/
def Thread.nrLess (x : Thread) : Thread := { x with nrOut := x.nrOut - 1 }

/-- The same where a squash has saved the thread. -/
def nrSavedLess (wgid tid : Nat) (g : SavedGang) : SavedGang :=
  { g with wgs := g.wgs.map (fun w =>
      if w.wg.wgid = wgid then { w with threads := w.threads.map (fun e => if e.1 = tid then (e.1, e.2.nrLess) else e) }
      else w) }

/-- The counts of an acknowledged or deferred reduction go down (R395). -/
def State.nrSettle (s : State) (a : Agent) (gang wgid tid seq : Nat) : State :=
  let s := match s.nrHome a gang wgid tid with
    | some (.fab c t) => s.setThread c t (s.thread c t).nrLess
    | some b => let x := s.ctl b; s.setCtl b { x with nrOut := x.nrOut - 1 }
    | none => { s with dies := s.dies.map (fun d => (d.1, { d.2 with saved := d.2.saved.map (fun g =>
        if g.gang = gang then nrSavedLess wgid tid g else g) })) }
  if a.slot.isNone then s
  else
    let l := s.launch seq
    s.setLaunch seq { l with nrOut := mset l.nrOut a.die (mgetD l.nrOut a.die 0 - 1) 0 }

/-- A reduction leaves its tile. -/
def State.nrDrop (s : State) (c n : Nat) : State :=
  let k := s.core c
  { s.setCore c { k with nrOps := mdel k.nrOps n } with
    reqs := s.reqs.filter (fun e => !(e.2.agent.core = c && e.2.kind = .nr n)) }

/-- A reduction whose fault nothing resolves is not performed (R267). -/
def State.nrFault (s : State) (c n : Nat) (x : NrOp) (code sub : Nat) (remote : Bool) : State :=
  ((s.nrDrop c n).deferFault x code sub x.op.va remote).nrSettle x.agent x.gang x.wgid x.tid x.seq

/-- A reduction has executed: its acknowledgement is on its way (R267). -/
def State.nrDone (s : State) (c n : Nat) (x : NrOp) (time die : Nat) : State :=
  (s.nrDrop c n).send (.nrAck x.agent x.gang x.wgid x.tid x.seq time die)

/-- Index that the requests of accepted reductions carry: no instruction's. -/
def nrIdx : Nat := 0x1000

/-- A reduction that waits in its tile is an outstanding request of its issuer (R148, R355). -/
def State.nrReq (s : State) (c n : Nat) (x : NrOp) (parts : List Part := []) : State :=
  if s.reqs.any (fun e => e.2.agent.core = c && e.2.kind = .nr n) then
    { s with reqs := s.reqs.map (fun e => if e.2.agent.core = c && e.2.kind = .nr n then (e.1, { e.2 with parts }) else e) }
  else s.addReq { agent := x.agent, idx := nrIdx, kind := .nr n, va := x.op.va, parts, start := (s.die (dieOf c)).clk }

/-- The levels of translation note the access of a held reduction that translates anew (R353). -/
def State.touchNr (s : State) (x : NrOp) : State :=
  if x.agent.slot.isNone || scratchVa ≤ x.op.va || (!x.op.parts.isEmpty && !x.op.stale) then s
  else match s.tlbLookup x.agent.core 0 x.tenant x.op.va with
    | some e => s.tlbTouch x.agent.core 0 e
    | none => s

/-- A reduction that its tile holds executes, or goes on waiting for its translation or its line
(R225, R267). (log 52, DEDUCED) -/
def State.runNr (s : State) (c n : Nat) : State :=
  match mget (s.core c).nrOps n with
  | none => s
  | some x =>
    let size := atomicSize x.instr
    match s.resolveNr x size with
    | .fault code => s.nrFault c n x code 0 false
    | .miss => (s.startWalk (dieOf c) x.tenant x.op.va (.nr c n x.op.va) .atomic).nrReq c n x
    | .ok pa =>
      let s := s.touchNr x
      let d := homeDie (lineOf pa)
      let reg (v : Nat) : W64 := if v % 2 = 0 then x.pair.1 else x.pair.2
      match regionOf pa with
      | .scratch _ =>
        if s.atomicPoison x.instr pa size then s.nrFault c n x fcPoison 0 false
        else (s.atomicAtBank c x.tenant x.instr x.op reg pa size).1.nrDone c n x (s.die d).clk d
      | _ =>
        match s.owned c (lineOf pa) with
        | none => (s.askLine c (lineOf pa)).nrReq c n x [{ pa, len := size }]
        | some l =>
          if s.atomicPoison x.instr pa size then s.nrFault c n x fcPoison 0 false
          else
            let y := s.atomicAtLine c x.tenant x.instr x.op reg pa size l
            let s := if y.2.wrote then y.1.dropGangCopies x.gang (lineOf pa) else y.1
            s.nrDone c n x (s.atomicTime l) d

/-- A reduction of this machine that its tile still holds goes on, unless its core is held (R225, R267, R414). -/
def State.serveNr (s : State) (c n : Nat) : State :=
  match mget (s.core c).nrOps n with
  | some x => if (x.agent.slot.isSome && s.heldCore c) || x.op.remote.isSome then s else s.runNr c n
  | none => s

/-- A remote reduction leaves through its port with the key its window gave, and its port joins the remote-write
set; one whose port found no window is a deferred ACCESS (R241, R262, R267). -/
def State.sendNr (s : State) (c n : Nat) : State :=
  match mget (s.core c).nrOps n with
  | none => s
  | some x =>
    match x.op.remote with
    | none => s.nrFault c n x fcAccess 0 false
    | some _ => (s.remoteWrote x.agent (remotePort x.op.va)).addReq
        { agent := x.agent, idx := nrIdx, kind := .remoteNr n, va := x.op.va, remote := x.op.remote, start := x.start }

/-- The even register base of ACASW and ACASV (R268, R269). -/
def pairBase : Instr → Nat
  | .acaswNr _ _ b _ => b.toNat
  | .acasvNr (.pair _ b) .. => b.toNat
  | _ => 0

/-- A reduction as it stands for its tile: with the registers it compares with or stores (R47, R268). -/
def State.nrOpOf (s : State) (a : Agent) (i : Instr) (o : Op) : NrOp :=
  let c := a.core
  { agent := a, instr := i, op := o, tenant := s.tenantOf a, start := (s.die a.die).clk
    seq := match a.slot with | some t => s.seqOf c t | none => 0
    gang := match a.slot with | some t => s.gangOf c t | none => 0
    tid := match a.slot with | some t => t - s.base c t | none => 0
    wgid := match a.slot with | some t => (s.wgOf c t).wgid | none => 0
    pair := (s.liveReg a (pairBase i), s.liveReg a (pairBase i + 1)) }

/-- The perform of a .nr reduction: its tile, or its port, accepts it, and its acknowledgement is counted
(R47, R267, R395). The registers it compares with or stores go with it. -/
def State.performNr (s : State) (sc : Scope) (i : Instr) : State :=
  match s.curOp with
  | none => s
  | some (k, o) =>
    let a := s.cur.agent
    let c := a.core
    let seq := match a.slot with | some t => s.seqOf c t | none => 0
    if a.slot.isSome && 2 ^ 32 - 1 ≤ mgetD (s.launch seq).nrOut a.die 0 then s
    else s.afterRelease sc k fun s =>
      let n := mfresh (s.core c).nrOps
      let x := s.nrOpOf a i o
      let kc := s.core c
      let s := s.setCore c { kc with nrOps := mput kc.nrOps n x }
      let s := match a.slot with
        | some t =>
          let y := s.thread c t
          let s := s.setThread c t { y with nrOut := y.nrOut + 1 }
          let l := s.launch seq
          s.setLaunch seq { l with nrOut := mput l.nrOut a.die (mgetD l.nrOut a.die 0 + 1) }
        | none => let y := s.ctl a; s.setCtl a { y with nrOut := y.nrOut + 1 }
      let s := s.setPerformed k
      if sc = .sys then s.sendNr c n else s.runNr c n

/-! ## Phase one -/

/-- An atomic in phase one: alignment, rights and place; a .nr form keeps every fault but ALIGN and the
local-aperture checks for later (R262, R264, R267). -/
def State.issueAtomic (s : State) (ins : List Field) (pr : Nat) (l r p : W64) (off : Int) (i : Instr) (sc : Scope)
    (lsid : Nat) (nr : Bool) : State :=
  let a := s.cur.agent
  let size := atomicSize i
  let done (va : Nat) (ps : List Part) (remote : Option Outbound) (s : State) : State :=
    (s.taken ins pr).deliverOp lsid { l, r, p, va, parts := ps, remote }
  if sc = .sys then
    let ra := remoteEa l off size
    let at_ : List Part := [{ pa := remoteKey ra, len := size }]
    match s.remoteBad a ra size with
    | some c => if nr && c != fcAlign then done ra at_ none s else s.raise c 0 ra
    | none => done ra at_ (s.lookOut a ra) s
  else
    let ea := eaOf l off size
    if ea % size != 0 then s.raise fcAlign 0 ea
    else match s.resolve a s.cur.idx ea size .atomic (isCasv i) with
      | .ok pa => done ea [{ pa, len := size }] none (s.touchVa a s.cur.idx ea)
      | .fault c => if nr && ea < scratchVa then done ea [] none s else s.raise c 0 ea
      | .miss => if nr then done ea [] none s else s.awaitXlate ea lsid .atomic

/-- A returning atomic: phase one, then its perform. -/
def State.returningAtomic (s : State) (ins : List Field) (pr : Nat) (off : Int) (i : Instr) (sc : Scope)
    (lsid : Nat) : State :=
  match s.cur.phase with
  | .one => s.attempt ins pr fun l r p st => st.issueAtomic ins pr l r p off i sc lsid false
  | _ => s.performAtomic sc i

/-- A .nr reduction: phase one, then its acceptance. -/
def State.reduction (s : State) (ins : List Field) (pr : Nat) (off : Int) (i : Instr) (sc : Scope) (lsid : Nat) : State :=
  match s.cur.phase with
  | .one => s.attempt ins pr fun l r p st => st.issueAtomic ins pr l r p off i sc lsid true
  | _ => s.performNr sc i

/-- The pr field and the inputs of an ACASV (R104, R269). -/
def vdataPr : VData → Nat
  | .pair p _ => p.code
  | _ => 1
def vdataIns : VData → List Field
  | .pair _ _ => [.L, .R]
  | _ => [.L, .R, .P]

/-! ## The instructions -/

/-- AADD (R264 to R266). -/
def execAadd (p : Pred) (ty : AIntTy) (sc : Scope) (l : BitVec 5) (off : BitVec 4) (t0 : Target) (s : State) :
    Host.Outcome State Fault Refusal :=
  go (s.returningAtomic [.L, .R] p.code off.toInt (.aadd p ty sc l off t0) sc l.toNat)

/-- AFADD (R264 to R266). -/
def execAfadd (p : Pred) (ty : AFltTy) (sc : Scope) (l : BitVec 5) (off : BitVec 4) (t0 : Target) (s : State) :
    Host.Outcome State Fault Refusal :=
  go (s.returningAtomic [.L, .R] p.code off.toInt (.afadd p ty sc l off t0) sc l.toNat)

/-- AMIN (R264 to R266). -/
def execAmin (p : Pred) (ty : AIntTy) (sc : Scope) (l : BitVec 5) (off : BitVec 4) (t0 : Target) (s : State) :
    Host.Outcome State Fault Refusal :=
  go (s.returningAtomic [.L, .R] p.code off.toInt (.amin p ty sc l off t0) sc l.toNat)

/-- AMAX (R264 to R266). -/
def execAmax (p : Pred) (ty : AIntTy) (sc : Scope) (l : BitVec 5) (off : BitVec 4) (t0 : Target) (s : State) :
    Host.Outcome State Fault Refusal :=
  go (s.returningAtomic [.L, .R] p.code off.toInt (.amax p ty sc l off t0) sc l.toNat)

/-- AAND (R264 to R266). -/
def execAand (p : Pred) (ty : BitTy) (sc : Scope) (l : BitVec 5) (off : BitVec 4) (t0 : Target) (s : State) :
    Host.Outcome State Fault Refusal :=
  go (s.returningAtomic [.L, .R] p.code off.toInt (.aand p ty sc l off t0) sc l.toNat)

/-- AOR (R264 to R266). -/
def execAor (p : Pred) (ty : BitTy) (sc : Scope) (l : BitVec 5) (off : BitVec 4) (t0 : Target) (s : State) :
    Host.Outcome State Fault Refusal :=
  go (s.returningAtomic [.L, .R] p.code off.toInt (.aor p ty sc l off t0) sc l.toNat)

/-- AXOR (R264 to R266). -/
def execAxor (p : Pred) (ty : BitTy) (sc : Scope) (l : BitVec 5) (off : BitVec 4) (t0 : Target) (s : State) :
    Host.Outcome State Fault Refusal :=
  go (s.returningAtomic [.L, .R] p.code off.toInt (.axor p ty sc l off t0) sc l.toNat)

/-- AXCHG (R264 to R266). -/
def execAxchg (p : Pred) (ty : BitTy) (sc : Scope) (l : BitVec 5) (off : BitVec 4) (t0 : Target) (s : State) :
    Host.Outcome State Fault Refusal :=
  go (s.returningAtomic [.L, .R] p.code off.toInt (.axchg p ty sc l off t0) sc l.toNat)

/-- ACAS (R264 to R266). -/
def execAcas (ty : BitTy) (sc : Scope) (l : BitVec 5) (off : BitVec 4) (t0 : Target) (s : State) :
    Host.Outcome State Fault Refusal :=
  go (s.returningAtomic [.L, .R, .P] 1 off.toInt (.acas ty sc l off t0) sc l.toNat)

/-- ACASW (R268). -/
def execAcasw (sc : Scope) (l : BitVec 5) (base : BitVec 6) (off : BitVec 5) (t1 t0 : Target) (s : State) :
    Host.Outcome State Fault Refusal :=
  go (s.returningAtomic [.L, .R, .P] 1 off.toInt (.acasw sc l base off t1 t0) sc l.toNat)

/-- ACASV (R249, R269). -/
def execAcasv (d : VData) (sc : Scope) (l : BitVec 5) (off : BitVec 5) (t1 t0 : Target) (s : State) :
    Host.Outcome State Fault Refusal :=
  go (s.returningAtomic (vdataIns d) (vdataPr d) off.toInt (.acasv d sc l off t1 t0) sc l.toNat)

/-- AADD.nr (R267). -/
def execAaddNr (p : Pred) (ty : AIntTy) (sc : Scope) (l : BitVec 5) (off : BitVec 4) (s : State) :
    Host.Outcome State Fault Refusal :=
  go (s.reduction [.L, .R] p.code off.toInt (.aaddNr p ty sc l off) sc l.toNat)

/-- AFADD.nr (R267). -/
def execAfaddNr (p : Pred) (ty : AFltTy) (sc : Scope) (l : BitVec 5) (off : BitVec 4) (s : State) :
    Host.Outcome State Fault Refusal :=
  go (s.reduction [.L, .R] p.code off.toInt (.afaddNr p ty sc l off) sc l.toNat)

/-- AMIN.nr (R267). -/
def execAminNr (p : Pred) (ty : AIntTy) (sc : Scope) (l : BitVec 5) (off : BitVec 4) (s : State) :
    Host.Outcome State Fault Refusal :=
  go (s.reduction [.L, .R] p.code off.toInt (.aminNr p ty sc l off) sc l.toNat)

/-- AMAX.nr (R267). -/
def execAmaxNr (p : Pred) (ty : AIntTy) (sc : Scope) (l : BitVec 5) (off : BitVec 4) (s : State) :
    Host.Outcome State Fault Refusal :=
  go (s.reduction [.L, .R] p.code off.toInt (.amaxNr p ty sc l off) sc l.toNat)

/-- AAND.nr (R267). -/
def execAandNr (p : Pred) (ty : BitTy) (sc : Scope) (l : BitVec 5) (off : BitVec 4) (s : State) :
    Host.Outcome State Fault Refusal :=
  go (s.reduction [.L, .R] p.code off.toInt (.aandNr p ty sc l off) sc l.toNat)

/-- AOR.nr (R267). -/
def execAorNr (p : Pred) (ty : BitTy) (sc : Scope) (l : BitVec 5) (off : BitVec 4) (s : State) :
    Host.Outcome State Fault Refusal :=
  go (s.reduction [.L, .R] p.code off.toInt (.aorNr p ty sc l off) sc l.toNat)

/-- AXOR.nr (R267). -/
def execAxorNr (p : Pred) (ty : BitTy) (sc : Scope) (l : BitVec 5) (off : BitVec 4) (s : State) :
    Host.Outcome State Fault Refusal :=
  go (s.reduction [.L, .R] p.code off.toInt (.axorNr p ty sc l off) sc l.toNat)

/-- AXCHG.nr (R267). -/
def execAxchgNr (p : Pred) (ty : BitTy) (sc : Scope) (l : BitVec 5) (off : BitVec 4) (s : State) :
    Host.Outcome State Fault Refusal :=
  go (s.reduction [.L, .R] p.code off.toInt (.axchgNr p ty sc l off) sc l.toNat)

/-- ACAS.nr (R267). -/
def execAcasNr (ty : BitTy) (sc : Scope) (l : BitVec 5) (off : BitVec 4) (s : State) : Host.Outcome State Fault Refusal :=
  go (s.reduction [.L, .R, .P] 1 off.toInt (.acasNr ty sc l off) sc l.toNat)

/-- ACASW.nr (R267). -/
def execAcaswNr (sc : Scope) (l : BitVec 5) (base : BitVec 6) (off : BitVec 5) (s : State) :
    Host.Outcome State Fault Refusal :=
  go (s.reduction [.L, .R, .P] 1 off.toInt (.acaswNr sc l base off) sc l.toNat)

/-- ACASV.nr (R267). -/
def execAcasvNr (d : VData) (sc : Scope) (l : BitVec 5) (off : BitVec 5) (s : State) :
    Host.Outcome State Fault Refusal :=
  go (s.reduction (vdataIns d) (vdataPr d) off.toInt (.acasvNr d sc l off) sc l.toNat)

/-- The perform of a fence: a release sends the coalescer entries that carry a store of the thread and
waits for its condition; an acquire has acted in phase one (R239, R270). -/
def State.performFence (s : State) (k : FenceKind) (sc : Scope) : State :=
  match s.curOp with
  | none => s
  | some (j, _) =>
    match k with
    | .acq => s.setPerformed j
    | _ =>
      let s := s.sendEntries s.cur.agent.core (fun e => e.stores.any (·.agent = s.cur.agent))
      s.afterRelease sc j fun s => s.setPerformed j

/-- FENCE (R238, R239, R270). -/
def execFence (p : Pred) (k : FenceKind) (sc : Scope) (l : BitVec 5) (s : State) : Host.Outcome State Fault Refusal :=
  go (match s.cur.phase with
    | .one => s.fire [] p.code fun _ _ _ st => st.deliverOp l.toNat {}
    | _ => s.performFence k sc)

/-! ## Grants and acknowledgements -/

/-- The operation of lowest LSID that a pass in phase two has still to perform. -/
def nextOp (p : Pass) : Option (Nat × Op) := p.ops.find? (fun e => !e.2.performed)

/-- The agents of a core whose next operation waits for a line. -/
def State.lineWaiters (s : State) (c line : Nat) : List (Agent × Nat × Op) :=
  let of (a : Agent) : Option (Agent × Nat × Op) :=
    match s.passOf a with
    | some p => match nextOp p with
      | some (k, o) =>
        if p.two && p.sealed && o.started && !o.stale && o.parts.any (fun q => lineOf q.pa = line) then some (a, k, o) else none
      | none => none
    | none => none
  (((s.core c).threads.filter (fun e => e.2.st != .parked)).map (fun e => s.threadAgent c e.1) ++ [Agent.ctl c]
    ++ (if c % 16 = 0 then [Agent.sup (dieOf c)] else [])).filterMap of

/-- A reduction that a tile holds goes to a line. -/
def State.nrOn (s : State) (x : NrOp) (line : Nat) : Bool :=
  match s.resolveNr x (atomicSize x.instr) with | .ok pa => lineOf pa = line | _ => false

/-- A line has come for an atomic of its core, or for a reduction that waits for it, which has still to execute: the
core answers no recall before it does. A held core executes nothing, and its buffer answers (R225, R433).
(log 81, DEDUCED) -/
def State.lineNeeded (s : State) (c : Nat) (l : AlbLine) : Bool :=
  l.fresh && !s.heldCore c && (!(s.lineWaiters c l.line).isEmpty || (s.core c).nrOps.any (fun e => s.nrOn e.2 l.line))

/-- The first operation that a granted line serves performs, and the reductions that wait for it. -/
def State.useLine (s : State) (c line : Nat) : State :=
  let s : State := match s.lineWaiters c line with
    | (a, j, o) :: _ =>
      let s : State := { s with cur := { agent := a, idx := o.idx, phase := .two } }
      match s.passOf a with
      | some p => match opInstr (s.block p.img p.blk) o with
        | some i => s.atomicAt j o i ((o.parts.head?.map (·.pa)).getD 0) (atomicSize i)
        | none => s
      | none => s
    | [] => s
  let s := ((s.core c).nrOps.filter (fun e => s.nrOn e.2 line)).foldl (fun (st : State) e => st.runNr c e.1) s
  let k := s.core c
  s.setCore c { k with alb := k.alb.map (fun x => if x.line = line then { x with fresh := false } else x) }

/-- OWNERSHIP_GRANT: data, version and completion time reach the core, which performs the atomic that
asked for the line, and the reductions that wait for it, before it answers a recall; a held core's buffer takes the
line, and they perform when the hold ends (R225, R232, R267, R433). -/
def execOwnershipGrant (msg : Nat) (s : State) : Host.Outcome State Fault Refusal :=
  go (match mget s.msgs msg with
    | some (.grant c line data ver time) =>
      if !s.sent (.msg msg)
          || s.msgs.any (fun e => e.1 < msg && match e.2 with | .recall k l => k = c && l = line | _ => false) then s
      else
        let s := (({ s with msgs := mdel s.msgs msg } : State).albRoom c line).lateAnswer (fun r =>
          match r.kind with
          | .atomic _ | .nr _ => r.agent.core = c && r.parts.any (fun q => lineOf q.pa = line)
          | _ => false)
        let k := s.core c
        let s := s.setCore c { k with alb := k.alb.filter (·.line != line) ++ [{ line, data, ver, time }] }
        if s.heldCore c then s else s.useLine c line
    | _ => s)

/-- OWNER_RECALL: the owner answers with a write-back if it modified the line, else clean, once the
atomic that requested the line has executed (R225). A core that owns nothing and has sent a write-back or a new
request for the line answers with that: the home takes it for the answer (R226). -/
def execOwnerRecall (msg : Nat) (s : State) : Host.Outcome State Fault Refusal :=
  go (match mget s.msgs msg with
    | some (.recall c line) =>
      if !s.sent (.msg msg)
          || s.msgs.any (fun e => e.1 < msg && match e.2 with | .grant k l _ _ _ => k = c && l = line | _ => false) then s
      else
        let k := s.core c
        let t := { s with msgs := mdel s.msgs msg }
        match k.alb.find? (fun l => l.line = line) with
        | some l =>
          if s.lineNeeded c l then s
          else (t.setCore c { k with alb := k.alb.filter (fun x => x.line != line) }).send (.back c line l.data l.ver l.modified)
        | none =>
          if s.msgs.any (fun e => match e.2 with
              | .ownReq k l => k = c && l = line
              | .grant k l _ _ _ => k = c && l = line
              | .back k l _ _ _ => k = c && l = line
              | _ => false) then t
          else t.send (.back c line [] 0 false)
    | _ => s)

/-- An acknowledgement is for a thread of a held core: it waits at its memory tile (R414). -/
def State.ackHeld (s : State) (a : Agent) (home : Option Agent) : Bool :=
  let held (b : Agent) : Bool := match b with | .fab c _ => s.heldCore c | _ => false
  held a || (home.map held).getD false

/-- NR_ACKNOWLEDGE: the store-acknowledge count goes down and the release horizon of the thread, or of
its launch once the thread is gone, goes up (R241, R267, R395). -/
def execNrAcknowledge (msg : Nat) (s : State) : Host.Outcome State Fault Refusal :=
  go (match mget s.msgs msg with
    | some (.nrAck a gang wgid tid seq time d) =>
      if !s.sent (.msg msg) || s.ackHeld a (s.nrHome a gang wgid tid) then s else
      let s := { s with msgs := mdel s.msgs msg }
      let s := match s.nrHome a gang wgid tid with
        | some b => s.returnTime b d time
        | none => s.launchTime seq a.die d time
      s.nrSettle a gang wgid tid seq
    | _ => s)

end Sys2Proof.Machine
end

