-- ==== Sys2Proof/Machine/Crypto.lean ====
section
/-! DEFINITION. The standards that acceptance names: SHA-384 (R86), ECDSA on brainpoolP384r1 of RFC 5639
(R86, R438) and CRC-32C (R123). -/

namespace Sys2Proof.Machine

/-! ## CRC-32C (R123) -/

/-- One byte of a CRC-32C, reflected. -/
def crcByte (c : Nat) (b : Byte) : Nat :=
  (List.range 8).foldl (fun c _ => if c % 2 = 1 then Nat.xor (c / 2) 0x82F63B78 else c / 2) (Nat.xor c b.toNat)

/-- A running CRC-32C over bytes, without the final exclusive-or. -/
def crcRun (c : Nat) (bs : List Byte) : Nat := bs.foldl crcByte c

/-- CRC-32C (R123). -/
def crc32c (bs : List Byte) : Nat := Nat.xor (crcRun 0xFFFFFFFF bs) 0xFFFFFFFF

/-! ## SHA-384 (R86). Byte strings are most significant first, as the standard has them. -/

/-- A most-significant-first number of bytes. -/
def beNat (bs : List Byte) : Nat := bs.foldl (fun n b => 256 * n + b.toNat) 0

/-- The `n` lowest bytes of a number, most significant first. -/
def toBE (v n : Nat) : List Byte := (List.range n).map (fun i => BitVec.ofNat 8 (v / 256 ^ (n - 1 - i)))

def shaK0 : List W64 :=
  [0x428A2F98D728AE22, 0x7137449123EF65CD, 0xB5C0FBCFEC4D3B2F, 0xE9B5DBA58189DBBC, 0x3956C25BF348B538,
   0x59F111F1B605D019, 0x923F82A4AF194F9B, 0xAB1C5ED5DA6D8118, 0xD807AA98A3030242, 0x12835B0145706FBE]
def shaK1 : List W64 :=
  [0x243185BE4EE4B28C, 0x550C7DC3D5FFB4E2, 0x72BE5D74F27B896F, 0x80DEB1FE3B1696B1, 0x9BDC06A725C71235,
   0xC19BF174CF692694, 0xE49B69C19EF14AD2, 0xEFBE4786384F25E3, 0x0FC19DC68B8CD5B5, 0x240CA1CC77AC9C65]
def shaK2 : List W64 :=
  [0x2DE92C6F592B0275, 0x4A7484AA6EA6E483, 0x5CB0A9DCBD41FBD4, 0x76F988DA831153B5, 0x983E5152EE66DFAB,
   0xA831C66D2DB43210, 0xB00327C898FB213F, 0xBF597FC7BEEF0EE4, 0xC6E00BF33DA88FC2, 0xD5A79147930AA725]
def shaK3 : List W64 :=
  [0x06CA6351E003826F, 0x142929670A0E6E70, 0x27B70A8546D22FFC, 0x2E1B21385C26C926, 0x4D2C6DFC5AC42AED,
   0x53380D139D95B3DF, 0x650A73548BAF63DE, 0x766A0ABB3C77B2A8, 0x81C2C92E47EDAEE6, 0x92722C851482353B]
def shaK4 : List W64 :=
  [0xA2BFE8A14CF10364, 0xA81A664BBC423001, 0xC24B8B70D0F89791, 0xC76C51A30654BE30, 0xD192E819D6EF5218,
   0xD69906245565A910, 0xF40E35855771202A, 0x106AA07032BBD1B8, 0x19A4C116B8D2D0C8, 0x1E376C085141AB53]
def shaK5 : List W64 :=
  [0x2748774CDF8EEB99, 0x34B0BCB5E19B48A8, 0x391C0CB3C5C95A63, 0x4ED8AA4AE3418ACB, 0x5B9CCA4F7763E373,
   0x682E6FF3D6B2B8A3, 0x748F82EE5DEFB2FC, 0x78A5636F43172F60, 0x84C87814A1F0AB72, 0x8CC702081A6439EC]
def shaK6 : List W64 :=
  [0x90BEFFFA23631E28, 0xA4506CEBDE82BDE9, 0xBEF9A3F7B2C67915, 0xC67178F2E372532B, 0xCA273ECEEA26619C,
   0xD186B8C721C0C207, 0xEADA7DD6CDE0EB1E, 0xF57D4F7FEE6ED178, 0x06F067AA72176FBA, 0x0A637DC5A2C898A6]
def shaK7 : List W64 :=
  [0x113F9804BEF90DAE, 0x1B710B35131C471B, 0x28DB77F523047D84, 0x32CAAB7B40C72493, 0x3C9EBE0A15C9BEBC,
   0x431D67C49C100D4C, 0x4CC5D4BECB3E42B6, 0x597F299CFC657E2A, 0x5FCB6FAB3AD6FAEC, 0x6C44198C4A475817]

/-- The eighty round constants of SHA-384. -/
def shaK : List W64 := shaK0 ++ shaK1 ++ shaK2 ++ shaK3 ++ shaK4 ++ shaK5 ++ shaK6 ++ shaK7

/-- The eight working words of SHA-384. -/
structure Sha where
  a : W64
  b : W64
  c : W64
  d : W64
  e : W64
  f : W64
  g : W64
  h : W64
  deriving DecidableEq, Repr

/-- The initial hash value of SHA-384. -/
def shaInit : Sha where
  a := 0xCBBB9D5DC1059ED8
  b := 0x629A292A367CD507
  c := 0x9159015A3070DD17
  d := 0x152FECD8F70E5939
  e := 0x67332667FFC00B31
  f := 0x8EB44A8768581511
  g := 0xDB0C2E0D64F98FA7
  h := 0x47B5481DBEFA4FA4

/-- One round with constant `k` and message word `w`. -/
def Sha.round (x : Sha) (k w : W64) : Sha :=
  let s1 := x.e.rotateRight 14 ^^^ x.e.rotateRight 18 ^^^ x.e.rotateRight 41
  let ch := (x.e &&& x.f) ^^^ (~~~x.e &&& x.g)
  let t1 := x.h + s1 + ch + k + w
  let s0 := x.a.rotateRight 28 ^^^ x.a.rotateRight 34 ^^^ x.a.rotateRight 39
  let maj := (x.a &&& x.b) ^^^ (x.a &&& x.c) ^^^ (x.b &&& x.c)
  { a := t1 + (s0 + maj), b := x.a, c := x.b, d := x.c, e := x.d + t1, f := x.e, g := x.f, h := x.g }

/-- The next word of the message schedule after the sixteen words `ws`. -/
def shaNext (ws : List W64) : W64 :=
  let w (i : Nat) : W64 := ws.getD i 0
  let s0 := (w 1).rotateRight 1 ^^^ (w 1).rotateRight 8 ^^^ ((w 1) >>> 7)
  let s1 := (w 14).rotateRight 19 ^^^ (w 14).rotateRight 61 ^^^ ((w 14) >>> 6)
  s1 + w 9 + s0 + w 0

/-- One 128-byte block of the message. -/
def Sha.block (x : Sha) (bs : List Byte) : Sha :=
  let ws : List W64 := (List.range 16).map (fun i => BitVec.ofNat 64 (beNat ((bs.drop (8 * i)).take 8)))
  let y := (shaK.foldl (fun (p : Sha × List W64) k =>
    (p.1.round k (p.2.getD 0 0), p.2.drop 1 ++ [shaNext p.2])) (x, ws)).1
  { a := x.a + y.a, b := x.b + y.b, c := x.c + y.c, d := x.d + y.d, e := x.e + y.e, f := x.f + y.f,
    g := x.g + y.g, h := x.h + y.h }

/-- The blocks of a padded message in turn. -/
def shaRun : Nat → Sha → List Byte → Sha
  | 0, x, _ => x
  | n + 1, x, bs => shaRun n (x.block (bs.take 128)) (bs.drop 128)

/-- SHA-384 as a 384-bit number. -/
def sha384 (bs : List Byte) : Nat :=
  let pad := (111 + 128 - bs.length % 128) % 128
  let m := bs ++ [0x80] ++ List.replicate pad 0 ++ toBE (8 * bs.length) 16
  let x := shaRun (m.length / 128) shaInit m
  [x.a, x.b, x.c, x.d, x.e, x.f].foldl (fun n w => 2 ^ 64 * n + w.toNat) 0

/-! ## ECDSA on brainpoolP384r1 (R86, R438) -/

def curveP : Nat := 0x8CB91E82A3386D280F5D6F7E50E641DF152F7109ED5456B412B1DA197FB71123ACD3A729901D1A71874700133107EC53
def curveA : Nat := 0x7BC382C63D8C150C3C72080ACE05AFA0C2BEA28E4FB22787139165EFBA91F90F8AA5814A503AD4EB04A8C7DD22CE2826
def curveB : Nat := 0x4A8C7DD22CE28268B39B55416F0447C2FB77DE107DCD2A62E880EA53EEB62D57CB4390295DBC9943AB78696FA504C11
/-- The base point and its order. -/
def curveG : Nat × Nat :=
  (0x1D1C64F068CF45FFA2A63A81B7C13F6B8847A3E77EF14FE3DB7FCAFE0CBD10E8E826E03436D646AAEF87B2E247D4AF1E,
   0x8ABE1D7520F9C2A45CB1EB8E95CFD55262B70B29FEEC5864E19C054FF99129280E4646217791811142820341263C5315)
def curveQ : Nat := 0x8CB91E82A3386D280F5D6F7E50E641DF152F7109ED5456B31F166E6CAC0425A7CF3AB6AF6B7FC3103B883202E9046565

/-- x to the power e modulo m, over the `n` lowest bits of e. -/
def powMod (m : Nat) : Nat → Nat → Nat → Nat
  | 0, _, _ => 1
  | n + 1, x, e =>
    let r := powMod m n (x * x % m) (e / 2)
    if e % 2 = 1 then x * r % m else r

/-- The inverse modulo a prime below 2^384. -/
def invMod (m x : Nat) : Nat := powMod m 384 (x % m) (m - 2)

/-- A point of the curve, none at infinity. -/
abbrev CurvePoint := Option (Nat × Nat)

/-- The chord or tangent of slope `l` through two points. -/
def curveThird (l : Nat) (a b : Nat × Nat) : Nat × Nat :=
  let x := (l * l + 2 * curveP - a.1 - b.1) % curveP
  (x, (l * (a.1 + curveP - x) + curveP - a.2) % curveP)

/-- The sum of two points. -/
def curveAdd : CurvePoint → CurvePoint → CurvePoint
  | none, b => b
  | a, none => a
  | some a, some b =>
    if a.1 = b.1 then
      if (a.2 + b.2) % curveP = 0 then none
      else some (curveThird ((3 * a.1 * a.1 + curveA) * invMod curveP (2 * a.2) % curveP) a b)
    else some (curveThird ((b.2 + curveP - a.2) * invMod curveP (b.1 + curveP - a.1) % curveP) a b)

/-- A multiple of a point, over the `n` lowest bits of `k`. -/
def curveMul : Nat → Nat → CurvePoint → CurvePoint
  | 0, _, _ => none
  | n + 1, k, a =>
    let r := curveMul n (k / 2) (curveAdd a a)
    if k % 2 = 1 then curveAdd a r else r

/-- The signature (r, s) verifies over a digest under a public key. -/
def ecdsaOk (key : Nat × Nat) (digest r s : Nat) : Bool :=
  if r = 0 || s = 0 || curveQ ≤ r || curveQ ≤ s then false
  else
    let w := invMod curveQ s
    match curveAdd (curveMul 384 (digest * w % curveQ) (some curveG)) (curveMul 384 (r * w % curveQ) (some key)) with
    | some x => x.1 % curveQ = r
    | none => false

end Sys2Proof.Machine
end

