-- ==== Sys2Proof/Machine/Cross.lean ====
section
/-! DEFINITION. Cross-lane instructions, round collectives and stream nodes: instructions that read
the tokens of other threads of the round (R38, R197 to R204, R311 to R313). -/

namespace Sys2Proof.Machine

/-- What a reader knows of a source's L token (R197). -/
inductive Source where
  | usable (l : W64)
  | unusable
  | undecided
  deriving DecidableEq, Repr

/-- The pass of slot `u` in a round. -/
def State.roundPass (s : State) (c rk u : Nat) : Option Pass :=
  match (s.thread c u).pass with
  | some p => if p.round = rk && p.inst.isSome then some p else none
  | none => none

/-- The source at slot `u` of round `rk` for an instruction: decided when the slot completes phase one (R197). -/
def State.source (s : State) (c rk idx u : Nat) : Source :=
  let r := s.round c rk
  if !r.snapshot.contains u || r.left.contains u then .unusable
  else match mget (mgetD r.held idx []) u with
    | some l => .usable l
    | none =>
      if r.pending.contains u then .undecided
      else if r.done.contains u then .unusable
      else match s.roundPass c rk u with
        | none => .unusable
        | some p => match s.operand (.fab c u) p (opKey idx .L) with
          | some l => .usable l
          | none => if p.fired.contains idx then .unusable else .undecided

/-- The L token of the executing thread is held for its readers, unless the thread has completed phase one: then it is
decided already (R43, R197). -/
def State.holdL (s : State) (l : W64) : State :=
  match s.cur.agent, s.passOf s.cur.agent with
  | .fab c t, some p =>
    let r := s.round c p.round
    if r.done.contains t then s else
    s.setRound c p.round { r with held := mput r.held s.cur.idx (mput (mgetD r.held s.cur.idx []) t l) }
  | _, _ => s

/-- Frames that have no reader left are freed after a reader has fired. -/
def State.freeAfter (s : State) : State :=
  match s.cur.agent, s.passOf s.cur.agent with
  | .fab c _, some p =>
    match p.inst with
    | some i => s.freeFrames c i
    | none => s
  | _, _ => s

/-- A reader of one source: its own operands are taken once the source is decided (R197). `src` gives
the source of the reader, unusable in a program that is no pass of a round (R55). -/
def State.fireReader (s : State) (pr : Nat) (t0 t1 : Target) (src : W64 → Source) : State :=
  match s.ready [.L, .R] pr with
  | .missing => s
  | .off =>
    let l := ((s.passOf s.cur.agent).bind (fun p => s.operand s.cur.agent p (opKey s.cur.idx .L))).getD 0
    ((s.holdL l).consumeOff [.L, .R] pr).freeAfter
  | .on l r _ =>
    match src r with
    | .undecided => s
    | .usable v => ((((s.holdL l).consume [.L, .R] pr).fired).emit t0 t1 v 1).freeAfter
    | .unusable => ((((s.holdL l).consume [.L, .R] pr).fired).emit t0 t1 l 0).freeAfter

/-- The source lane of XSHUF within width `w`, none outside the group (R198). -/
def shufLane (m : ShufMode) (w lane d : Nat) : Option Nat :=
  match m with
  | .idx => if d < w then some d else none
  | .up => if d ≤ lane then some (lane - d) else none
  | .down => if lane + d < w then some (lane + d) else none
  | .xor => if lane ^^^ d < w then some (lane ^^^ d) else none

/-- XSHUF (R197, R198). -/
def execXshuf (p : Pred) (m : ShufMode) (t1 t0 : Target) (s : State) : Host.Outcome State Fault Refusal :=
  go (s.fireReader p.code t0 t1 fun d =>
    match s.cur.agent, s.passOf s.cur.agent with
    | .fab c t, some x =>
      match shufLane m x.width x.lane d.toNat with
      | some l => s.source c x.round s.cur.idx (t - t % x.width + l)
      | none => .unusable
    | _, _ => .unusable)

/-- XBCAST: the source is the lowest slot of the snapshot that entered the lane (R199). -/
def execXbcast (p : Pred) (t1 t0 : Target) (s : State) : Host.Outcome State Fault Refusal :=
  go (s.fireReader p.code t0 t1 fun d =>
    match s.cur.agent, s.passOf s.cur.agent with
    | .fab c _, some x =>
      match ((s.round c x.round).snapshot).find? (fun u => u % x.width = d.toNat && !(s.round c x.round).missed.contains u) with
      | some u => s.source c x.round s.cur.idx u
      | none => .unusable
    | _, _ => .unusable)

/-! ## Collectives (R200 to R204) -/

/-- The XI type of a reduction type. -/
def rIntTy : RTy → IntTy
  | .i32 => .i32 | .n32 => .n32 | .i64 => .i64 | .n64 => .n64

/-- One combining step with its exceptions (R202). -/
def redStep (op : Red) (a b : W64) : W64 × FFlags :=
  match op with
  | .add ty => (aluAdd (rIntTy ty) false a b, {})
  | .min ty => (aluMin (rIntTy ty) a b, {})
  | .max ty => (aluMax (rIntTy ty) a b, {})
  | .and ty => (aluAnd ty a b, {})
  | .or ty => (aluOr ty a b, {})
  | .xor ty => (aluXor ty a b, {})
  | .fadd => let r := Fmt.f32.add .rne (a.toNat % 2 ^ 32) (b.toNat % 2 ^ 32); (tokNat r.bits, r.fl)
  | .fmax => let r := Fmt.f32.maxNum (a.toNat % 2 ^ 32) (b.toNat % 2 ^ 32); (tokNat r.bits, r.fl)

/-- The identity of a reduction, extended to a token (R202). -/
def redIdentity : Red → W64
  | .add _ => 0
  | .min ty => extendTok (rIntTy ty) (tyHi (rIntTy ty))
  | .max ty => extendTok (rIntTy ty) (tyLo (rIntTy ty))
  | .and ty => cutTok ty (BitVec.allOnes 64)
  | .or _ => 0
  | .xor _ => 0
  | .fadd => 0x80000000
  | .fmax => 0x7FC00000

/-- Running combinations of a list: the value before and after each element, and all exceptions. -/
def redScan (op : Red) : W64 → List W64 → List (W64 × W64) × FFlags
  | _, [] => ([], {})
  | acc, v :: vs =>
    let r := redStep op acc v
    let rest := redScan op r.1 vs
    ((acc, r.1) :: rest.1, r.2.or rest.2)

/-- What a collective delivers to each member, in slot order, with its exceptions (R202, R203). -/
def collective (i : Instr) (vs : List W64) : List W64 × FFlags :=
  match i with
  | .rred _ op _ _ =>
    let r := redScan op (redIdentity op) vs
    let v := ((r.1.getLast?).map (·.2)).getD (redIdentity op)
    (vs.map (fun _ => v), r.2)
  | .rscanInclusive _ op _ _ => let r := redScan op (redIdentity op) vs; (r.1.map (·.2), r.2)
  | .rscanExclusive _ op _ _ => let r := redScan op (redIdentity op) vs; (r.1.map (·.1), r.2)
  | .rvote _ m _ _ =>
    let n := (vs.filter predOfTok).length
    let v : W64 := match m with
      | .all => predTok (n == vs.length)
      | .any => predTok (n != 0)
      | .cnt => tokNat n
    (vs.map (fun _ => v), {})
  | _ => (vs, {})

/-- Members of a round that are in its active set, in increasing slot order (R38). -/
def Round.activeSet (r : Round) : List Nat := r.snapshot.filter (fun u => !r.left.contains u)

/-- Every thread of the active set has reached the clause (R201). -/
def State.clauseReached (s : State) (c rk : Nat) (is : List (Nat × Instr)) : Bool :=
  let r := s.round c rk
  r.pending.isEmpty && r.activeSet.all (fun u => r.done.contains u ||
    match s.roundPass c rk u with
    | none => true
    | some p => s.holdsClause (.fab c u) p is)

/-- The L operands of an instruction's members: active threads that held every input of its clause when they completed
phase one, or hold them now, and are not predicated off (R38, R201). -/
def State.redMembers (s : State) (c rk idx : Nat) (i : Instr) (is : List (Nat × Instr)) : List (Nat × W64) :=
  let r := s.round c rk
  r.activeSet.filterMap (fun u =>
    if r.done.contains u then (mget (mgetD r.held idx []) u).map (fun l => (u, l)) else
    match s.roundPass c rk u with
    | none => none
    | some p =>
      if s.holdsClause (.fab c u) p is && predHolds (prOf i) ((s.operand (.fab c u) p (opKey idx .P)).getD 0) then
        (s.operand (.fab c u) p (opKey idx .L)).map (fun l => (u, l))
      else none)

/-- Key of a member's result. -/
def resKey (idx slot : Nat) : Nat := idx * 8192 + slot

/-- The computation of one collective for a round, made once; its exceptions are charged once. -/
def State.computeRed (s : State) (c rk : Nat) (is : List (Nat × Instr)) (e : Nat × Instr) : State :=
  let ms := s.redMembers c rk e.1 e.2 is
  let out := collective e.2 (ms.map (·.2))
  let s := if ms.isEmpty then s else s.countFlag out.2
  let r := s.round c rk
  s.setRound c rk { r with results := (ms.zip out.1).foldl (fun m x => mput m (resKey e.1 x.1.1) (x.2, x.2)) r.results }

/-- The ROUND clause of the executing collective fires for its round when every active thread has
reached it; each member then takes its result (R201). A thread alone in a rare pass, or a program of
a control core, is its own active set (R55). -/
def State.fireRed (s : State) (i : Instr) (pr : Nat) (t0 t1 : Target) : State :=
  let a := s.cur.agent
  match s.ready [.L] pr with
  | .missing => s
  | rd =>
    match a, s.passOf a with
    | .fab c t, some p =>
      match clauseAt (s.block p.img p.blk) s.cur.idx with
      | none => s
      | some (k, cl) =>
        let opened := (s.round c p.round).clauses.contains k
        let is := clauseInstrs cl
        if !opened && !s.clauseReached c p.round is then s
        else
          let s := if opened then s else
            let s := is.foldl (fun st e => st.computeRed c p.round is e) s
            s.setRound c p.round { s.round c p.round with clauses := (s.round c p.round).clauses ++ [k] }
          let v := mget (s.round c p.round).results (resKey s.cur.idx t)
          match rd, v with
          | .on _ _ _, some x => ((s.consume [.L] pr).fired).emit t0 t1 x.1 x.2
          | _, _ => s.consumeOff [.L] pr
    | _, _ =>
      match rd with
      | .on l _ _ =>
        let out := collective i [l]
        (((s.consume [.L] pr).fired).countFlag out.2).result t0 t1 (out.1.headD 0)
      | _ => s.consumeOff [.L] pr

/-- RRED (R201, R202). -/
def execRred (p : Pred) (op : Red) (t1 t0 : Target) (s : State) : Host.Outcome State Fault Refusal :=
  go (s.fireRed (.rred p op t1 t0) p.code t0 t1)

/-- RSCAN, inclusive (R201, R202). -/
def execRscanInclusive (p : Pred) (op : Red) (t1 t0 : Target) (s : State) :
    Host.Outcome State Fault Refusal :=
  go (s.fireRed (.rscanInclusive p op t1 t0) p.code t0 t1)

/-- RSCAN, exclusive (R201, R202). -/
def execRscanExclusive (p : Pred) (op : Red) (t1 t0 : Target) (s : State) :
    Host.Outcome State Fault Refusal :=
  go (s.fireRed (.rscanExclusive p op t1 t0) p.code t0 t1)

/-- RVOTE (R201, R203). -/
def execRvote (p : Pred) (m : Vote) (t1 t0 : Target) (s : State) : Host.Outcome State Fault Refusal :=
  go (s.fireRed (.rvote p m t1 t0) p.code t0 t1)

/-! ## Stream nodes (R311 to R313) -/

/-- The merge of ISECT and UNION: keys with their source flags (R312). -/
def mergeKeys (union : Bool) : Nat → List Nat → List Nat → List (Nat × Nat)
  | 0, _, _ => []
  | _, [], bs => if union then bs.map (fun b => (b, 2)) else []
  | _, as, [] => if union then as.map (fun a => (a, 1)) else []
  | fuel + 1, a :: as, b :: bs =>
    if a < b then (if union then [(a, 1)] else []) ++ mergeKeys union fuel as (b :: bs)
    else if b < a then (if union then [(b, 2)] else []) ++ mergeKeys union fuel (a :: as) bs
    else (a, 3) :: mergeKeys union fuel as bs

/-- What ISECT or UNION delivers to its members (R312). -/
def mergeOut (union wide : Bool) (ms : List (W64 × W64)) : List (W64 × W64) :=
  let w := if wide then 64 else 32
  let n := ms.length
  let out := mergeKeys union (2 * n + 1) (ms.map (fun m => m.1.toNat % 2 ^ w)) (ms.map (fun m => m.2.toNat % 2 ^ w))
  (List.range n).map (fun m =>
    let base := match out[m]? with
      | some (k, f) => (k, f + 4)
      | none => (0, 0)
    (tokNat base.1, tokNat (base.2 + (if n < out.length && m + 1 = n then 8 else 0))))

/-- What COMPACT delivers: the selected values to the front (R313). -/
def compactOut (wide : Bool) (ms : List (W64 × W64)) : List (W64 × W64) :=
  let cut (x : W64) : W64 := if wide then x else tokNat (x.toNat % 2 ^ 32)
  let picked := (ms.filter (fun m => predOfTok m.2)).map (·.1)
  ms.zipIdx.map (fun e => match picked[e.2]? with
    | some v => (cut v, 1)
    | none => (cut e.1.1, 0))

/-- What EXPAND delivers: the j-th selected member takes the value of member j (R313). -/
def expandFrom (wide : Bool) (vs : List W64) : Nat → List (W64 × W64) → List (W64 × W64)
  | _, [] => []
  | j, m :: ms =>
    let cut (x : W64) : W64 := if wide then x else tokNat (x.toNat % 2 ^ 32)
    if predOfTok m.2 then (cut (vs.getD j 0), 1) :: expandFrom wide vs (j + 1) ms
    else (cut m.1, 0) :: expandFrom wide vs j ms

def expandOut (wide : Bool) (ms : List (W64 × W64)) : List (W64 × W64) := expandFrom wide (ms.map (·.1)) 0 ms

/-- How slot `u` stands to a stream node: none while it is undecided, else its operands if it is a
member (R197, R311). -/
def State.nodeMember (s : State) (c rk idx pr u : Nat) : Option (Option (W64 × W64)) :=
  match s.source c rk idx u with
  | .undecided => none
  | .unusable => some none
  | .usable l =>
    if (s.round c rk).done.contains u then some ((mget (mgetD (s.round c rk).held (128 + idx) []) u).map (fun r => (l, r)))
    else match s.roundPass c rk u with
    | none => some none
    | some p =>
      let get (f : Field) : Option W64 := s.operand (.fab c u) p (opKey idx f)
      match get .R, (if pr = 0 then some 0 else get .P) with
      | some r, some q => some (if predHolds pr q then some (l, r) else none)
      | _, _ => none

/-- Tokens that wait on their edges for a group entry take one that has become free (R311). -/
def State.settleNodes (s : State) (c : Nat) : State :=
  (s.core c).insts.foldl (fun (st : State) e =>
    (e.2.edges.filter (fun q => (q.2.head?.map (fun tk => nodeAt (s.block e.2.img e.2.blk) (tk.dst / 4))).getD false)).foldl
      (fun st q => st.settleEdge c e.1 q.1 33) st) s

/-- A stream node fires for its lane group once every slot of the group is decided; the results wait
for the members that have not yet taken them (R311). -/
def State.fireNode (s : State) (pr : Nat) (t0 t1 : Target) (f : List (W64 × W64) → List (W64 × W64)) : State :=
  let a := s.cur.agent
  match s.ready [.L, .R] pr with
  | .missing => match a with
    | .fab c _ => s.settleNodes c
    | _ => s
  | .off => s.consumeOff [.L, .R] pr
  | .on l r _ =>
    match a, s.passOf a with
    | .fab c t, some p =>
      let take (st : State) (x : W64 × W64) : State := ((st.consume [.L, .R] pr).fired).emit t0 t1 x.1 x.2
      match mget (s.round c p.round).results (resKey s.cur.idx t) with
      | some x => take s x
      | none =>
        let slots := (List.range p.width).map (fun m => t - t % p.width + m)
        let ms := slots.map (fun u => (u, s.nodeMember c p.round s.cur.idx pr u))
        if ms.any (fun m => m.2.isNone) then s
        else
          let members := ms.filterMap (fun m => match m.2 with | some (some x) => some (m.1, x) | _ => none)
          let out := f (members.map (·.2))
          let rd := s.round c p.round
          let s := s.setRound c p.round { rd with
            results := (members.zip out).foldl (fun m x => mput m (resKey s.cur.idx x.1.1) x.2) rd.results }
          match mget (s.round c p.round).results (resKey s.cur.idx t) with
          | some x => take s x
          | none => s
    | _, _ =>
      match f [(l, r)] with
      | x :: _ => ((s.consume [.L, .R] pr).fired).emit t0 t1 x.1 x.2
      | [] => s

/-- ISECT (R312). -/
def execIsect (p : Pred) (wide : Bool) (t1 t0 : Target) (s : State) : Host.Outcome State Fault Refusal :=
  go (s.fireNode p.code t0 t1 (mergeOut false wide))
/-- UNION (R312). -/
def execUnion (p : Pred) (wide : Bool) (t1 t0 : Target) (s : State) : Host.Outcome State Fault Refusal :=
  go (s.fireNode p.code t0 t1 (mergeOut true wide))
/-- COMPACT (R313). -/
def execCompact (p : Pred) (wide : Bool) (t1 t0 : Target) (s : State) : Host.Outcome State Fault Refusal :=
  go (s.fireNode p.code t0 t1 (compactOut wide))
/-- EXPAND (R313). -/
def execExpand (p : Pred) (wide : Bool) (t1 t0 : Target) (s : State) : Host.Outcome State Fault Refusal :=
  go (s.fireNode p.code t0 t1 (expandOut wide))

end Sys2Proof.Machine
end

