-- ==== Sys2Proof/Machine/Streams.lean ====
section
/-! DEFINITION. Stream ports: windows, cluster ports and radix channels (R211, R218, R219, R234, R235,
R259 to R261, R306 to R310, R382). -/

namespace Sys2Proof.Machine

/-! ## Elements -/

/-- The stream port an instruction names, and whether it takes an element (R306). -/
def streamUse (i : Instr) : Option Nat :=
  match i with
  | .sput _ q _ | .sget _ q _ _ => some q.toNat
  | _ => none

/-- Every earlier instruction of the port in the pass is decided, so the element of the next one is
known (R306). -/
def streamTurn (ws : List W32) (p : Pass) (idx port : Nat) : Bool :=
  let dead := deadInstrs ws p
  (instrsOf ws).all (fun e => !(e.1 < idx && streamUse e.2 = some port) || p.fired.contains e.1 || dead.contains e.1)

/-- Value of an argument slot of a gang (R179). -/
def argOf (g : Gang) (slot : Nat) : Nat := (mgetD g.args slot 0).toNat

/-- The element number the pass's next access of a port takes: e = k × N + tid (R306). -/
def State.nextElem (s : State) (c t : Nat) (p : Pass) (port : Nat) : Nat :=
  let w := s.wgOf c t
  let k := (mgetD (s.thread c t).spos port 0 + mgetD p.streamTaken port 0) % 2 ^ 32
  k * w.n + (t - s.base c t)

/-- An element of a port is taken by the pass. -/
def State.takeElem (s : State) (a : Agent) (port : Nat) : State :=
  s.updPass a (fun p => { p with streamTaken := mput p.streamTaken port (mgetD p.streamTaken port 0 + 1) })

/-- Declared ports of a thread's image. -/
def State.portDecl (s : State) (c t port : Nat) : StreamDecl :=
  (streamDecl (s.image (s.imgOf c t)) port).getD { port, kind := 0, elem := 1, rank := 0, dx := 0, dy := 0, kib := 0, slot := 0 }

/-! ## Windows -/

/-- Size of the window of a port (R218). -/
def windowBytes (d : StreamDecl) : Nat := 1024 * d.kib

/-- Lines that the units of a window hold: 64 in each unit of 8 KiB (R218). -/
def windowLines (d : StreamDecl) : Nat := 64 * ceilDiv d.kib 8

/-- A virtual line lies in the window of `n` bytes that begins at the tail: head − tail never exceeds it (R219,
R307). -/
def Window.holds (x : Window) (n vline : Nat) : Bool :=
  x.base + x.tail < vline * 128 + 128 && vline * 128 + 128 ≤ x.base + x.tail + n

/-- A window line can be read: valid, its lease not expired, its home die not in fallback (R219, R234,
R381). -/
def State.lineUsable (s : State) (c : Nat) (l : WinLine) : Bool :=
  let d := dieOf c
  l.valid && !s.fallback d l.homeDie
    && decide ((s.die d).clk + guardBand d l.homeDie < s.convert d l.homeDie l.expiry)

/-- Line-aligned stream offset of the smallest element that a thread of the workgroup would take next,
over the threads that are not Exited and have taken one (R307). -/
def State.windowTail (s : State) (c b : Nat) (port : Nat) (size : Nat) : Option Nat :=
  let w := s.wg c b
  let offs := (List.range w.n).filterMap (fun tid =>
    let x := s.thread c (b + tid)
    let k := mgetD x.spos port 0
    if x.st != .exited && 1 ≤ k then some ((k * w.n + tid) * size) else none)
  match offs with
  | [] => none
  | x :: rest => some (rest.foldl min x / 128 * 128)

/-- The tail of a window is set anew; head stays within the window's size. Dirty lines outside are written back, the
others leave (R219, R307). -/
def State.moveTail (s : State) (c b port : Nat) : State :=
  let w := s.wg c b
  match streamDecl (s.image (s.launch (s.gang w.gang).seq).img) port with
  | none => s
  | some d =>
    if d.kind != 0 then s else
    match s.windowTail c b port d.elem with
    | none => s
    | some tail =>
      let x := mgetD w.windows port {}
      if tail = x.tail then s else
      let x := { x with tail, head := min (max x.head tail) (tail + windowBytes d) }
      let out (l : Nat × WinLine) : Bool := !x.holds (windowBytes d) l.1
      let lines := x.lines.filter (fun l => !out l || l.2.dirty || l.2.busy || 0 < l.2.rsv)
      let s := s.setWg c b { w with windows := mput w.windows port { x with lines } }
      (lines.foldl (fun st l => if out l then st.writeBackLine c b port l.1 else st) s).wakeWg c b (windowWait port)

/-- The tails of all windows of a workgroup: one of its threads has left (R307). -/
def State.moveTails (s : State) (c b : Nat) : State :=
  (s.wg c b).windows.foldl (fun (st : State) w => st.moveTail c b w.1) s

/-- Lease of each class in nanoseconds (R382). -/
def leaseNs : Nat → Nat
  | 1 => 250
  | 2 => 2000
  | 3 => 16000
  | _ => 0

/-- WINDOW_FILL: a line of a read window is fetched from its home with the lease of its page's class, ahead of head
while space remains, or again between tail and head. A line without a lease is not kept: head passes it (R217,
R219, R307, R382). -/
def execWindowFill (core wg port line : Nat) (s : State) : Host.Outcome State Fault Refusal :=
  let w := s.wg core wg
  let im := s.image (s.launch (s.gang w.gang).seq).img
  let ten := (s.launch (s.gang w.gang).seq).desc.tenant
  let x := mgetD w.windows port {}
  let va := line * 128
  let off := va + 128 - x.base
  go (match streamDecl im port with
    | none => s
    | some d =>
      let old := mgetD x.lines line {}
      let put (s : State) (x : Window) : State :=
        s.setWg core wg { s.wg core wg with windows := mput (s.wg core wg).windows port x }
      if s.heldCore core || d.kind != 0 || portWritten im port || !x.baseSet || s.lineUsable core old
          || !x.holds (windowBytes d) line || x.base + x.head < va then s
      else match s.tlbLookup core 0 ten va with
        | none => s.startWalk (dieOf core) ten va (.window core wg port) .read
        | some e =>
          let pa := e.pa + va % 2 ^ e.lg
          let pline := lineOf pa
          if !e.r || e.scratch || e.lease = 0 then (if x.head < off then put s { x with head := off } else s)
          else if s.poisonAt (pline * 128) 128 || !s.reaches (dieOf core) pline then s
          else if !s.homeFree pline then s.recallOwner pline
          else
            let s := (s.tlbTouch core 0 e).touchL2 pline
            let y := mgetD s.l2 pline {}
            if !y.present then (if x.head < off then put s { x with head := off } else s)
            else
              let expiry := (s.die (homeDie pline)).clk + leaseNs e.lease
              let s := { s with l2 := mput s.l2 pline { y with horizon := max y.horizon expiry } }
              let data : Map Byte := (s.lineData pline).zipIdx.map (fun b => (b.2, b.1))
              let l : WinLine := { data, valid := true, expiry, homeDie := homeDie pline, pline }
              put s { x with head := max x.head off, lines := mput x.lines line l })

/-- LEASE_EXPIRY: a window line whose lease has expired is invalid (R219, R234). -/
def execLeaseExpiry (core wg port line : Nat) (s : State) : Host.Outcome State Fault Refusal :=
  let w := s.wg core wg
  let x := mgetD w.windows port {}
  go (match mget x.lines line with
    | some l =>
      if l.valid && !s.lineUsable core l then
        let lines := if l.dirty || l.busy || 0 < l.rsv then mput x.lines line { l with valid := false } else mdel x.lines line
        s.setWg core wg { w with windows := mput w.windows port { x with lines } }
      else s
    | none => s)

/-! ## SGET -/

/-- Place of `off` in the partition of a cluster port's peer: the peer and the address, or none where an element
there lies beyond the partition (R211, R308). -/
def State.peerPlace (s : State) (c t : Nat) (d : StreamDecl) (off : Nat) : Option (Nat × Nat × Nat) :=
  match s.peerAt (s.wgOf c t) d.dx d.dy with
  | none => none
  | some m =>
    let w := s.wg m.1 m.2
    if off + d.elem ≤ w.partSize then some (m.1, m.2, partAddr m.1 w off) else none

/-- Partition offset of an element of a cluster port (R211, R308). -/
def State.clusterOff (s : State) (c t : Nat) (d : StreamDecl) (e : Nat) : Nat :=
  argOf (s.gang (s.gangOf c t)) d.slot + e * d.elem

/-- Place of an element of a cluster port (R211, R308). -/
def State.clusterPlace (s : State) (c t : Nat) (d : StreamDecl) (e : Nat) : Option (Nat × Nat × Nat) :=
  s.peerPlace c t d (s.clusterOff c t d e)

/-- Key of the channel FIFO of a receiving thread. -/
def chanKey (port rt : Nat) : Nat := port * 4096 + rt

/-- The entry of a radix FIFO that an SGET of the thread would take: the first unreserved ones (R310). -/
def chanHead (es : List ChEntry) : List ChEntry := es.dropWhile (·.rsv.isSome)

/-- Sender threads mapped to a receiving thread of a radix port (R309, R310). -/
def State.sendersOf (s : State) (c t port : Nat) : List Nat :=
  match streamDecl (s.image (s.imgOf c t)) port with
  | none => []
  | some d =>
    match s.peerAt (s.wgOf c t) d.dx d.dy with
    | none => []
    | some m => (List.range (s.wg m.1 m.2).n).filter (fun u => u % (s.wgOf c t).n = t - s.base c t)

/-- The first `n` unreserved entries become a pass's. -/
def takeCh (t : Nat) : Nat → List ChEntry → List ChEntry
  | 0, es => es
  | _, [] => []
  | n + 1, e :: es => if e.rsv.isNone then { e with rsv := some t } :: takeCh t n es else e :: takeCh t (n + 1) es

/-- What an SGET of a radix port delivers now, with how many entries it takes (R310). -/
def State.radixGet (s : State) (c t port : Nat) : Option (W64 × W64 × Nat) :=
  let w := s.wgOf c t
  let k := chanKey port (t - s.base c t)
  match chanHead (mgetD w.chans k []) with
  | e :: rest =>
    match e.elem, e.marker with
    | some v, _ => match rest with
      | m :: _ => match m.elem, m.marker with
        | none, some r => some (v, tokNat (r + 1), 2)
        | _, _ => some (v, 0, 1)
      | [] => some (v, 0, 1)
    | none, some r => some (0, tokNat (r + 1), 1)
    | none, none => none
  | [] =>
    let ends := mgetD w.chanEnds k []
    let senders := s.sendersOf c t port
    if !senders.isEmpty && senders.all ends.contains then some (0, 9, 0) else none

/-- A request for an element that is read at its home (R235, R260). -/
def State.requestElem (s : State) (port va pa size : Nat) : State :=
  let a := s.cur.agent
  s.addReq { agent := a, idx := s.cur.idx, kind := .stream port, va, parts := [{ pa, len := size }], start := (s.die a.die).clk }

/-- SGET (R260, R306 to R310): an element of a usable window line at once, any other window or cluster
element by a read at its home, a radix entry from the head of its FIFO. -/
def execSget (p : Pred) (q : BitVec 4) (t1 t0 : Target) (s : State) : Host.Outcome State Fault Refusal :=
  go (s.attempt [] p.code fun _ _ _ s =>
    let a := s.cur.agent
    let port := q.toNat
    match a.slot, s.passOf a with
    | some t, some pass =>
      let c := a.core
      if !streamTurn (s.block pass.img pass.blk) pass s.cur.idx port then s else
      let d := s.portDecl c t port
      let e := s.nextElem c t pass port
      match d.kind with
      | 0 =>
        let x := mgetD (s.wgOf c t).windows port {}
        let va := va57 (x.base + e * d.elem)
        if va % d.elem != 0 then s.raise fcAlign 0 va
        else
          let l := mgetD x.lines (va / 128) {}
          if x.tail ≤ e * d.elem && s.lineUsable c l then
            let v := leNat ((List.range d.elem).map (fun i => mgetD l.data (va % 128 + i) 0))
            ((s.taken [] p.code).takeElem a port).emit t0 t1 (tokNat v) 0
          else match s.resolve a s.cur.idx va d.elem .read false with
            | .fault code => s.raise code 0 va
            | .miss => s.awaitXlate va 0
            | .ok pa => (((s.touchVa a s.cur.idx va).taken [] p.code).takeElem a port).requestElem port va pa d.elem
      | 1 =>
        match s.clusterPlace c t d e with
        | none => s.raise fcAccess 0 (argOf (s.gang (s.gangOf c t)) d.slot + e * d.elem)
        | some (_, _, pa) =>
          if pa % d.elem != 0 then s.raise fcAlign 0 (argOf (s.gang (s.gangOf c t)) d.slot + e * d.elem)
          else ((s.taken [] p.code).takeElem a port).requestElem port 0 pa d.elem
      | _ =>
        match s.radixGet c t port with
        | none => s
        | some (v, m, n) =>
          let s := (s.taken [] p.code).takeElem a port
          let b := s.base c t
          let w := s.wg c b
          let k := chanKey port (t - b)
          let s := s.setWg c b { w with chans := mset w.chans k (takeCh t n (mgetD w.chans k [])) [] }
          s.emit t0 t1 v m
    | _, _ => s.raise fcAccess)

/-! ## SPUT and SMARK -/

/-- SPUT in phase one: its element, its address, the store buffer of the stream (R259, R261, R306). -/
def State.issueSput (s : State) (pr : Nat) (l : W64) (port lsid : Nat) : State :=
  let a := s.cur.agent
  match a.slot, s.passOf a with
  | some t, some pass =>
    let c := a.core
    if !streamTurn (s.block pass.img pass.blk) pass s.cur.idx port then s else
    let d := s.portDecl c t port
    let e := s.nextElem c t pass port
    let put (va : Nat) (ps : List Part) (s : State) : State :=
      ((s.taken [.L] pr).takeElem a port).deliverOp lsid { l, r := l, va, parts := ps }
    match d.kind with
    | 0 =>
      let va := va57 ((mgetD (s.wgOf c t).windows port {}).base + e * d.elem)
      if va % d.elem != 0 then s.raise fcAlign 0 va
      else match s.resolve a s.cur.idx va d.elem .write false with
        | .fault code => s.raise code 0 va
        | .miss => s.awaitXlate va lsid .write
        | .ok pa => put va [{ pa, len := d.elem }] (s.touchVa a s.cur.idx va)
    | 1 =>
      match s.clusterPlace c t d e with
      | none => s.raise fcAccess 0 (argOf (s.gang (s.gangOf c t)) d.slot + e * d.elem)
      | some (_, _, pa) =>
        if pa % d.elem != 0 then s.raise fcAlign 0 (argOf (s.gang (s.gangOf c t)) d.slot + e * d.elem)
        else put (s.clusterOff c t d e) [{ pa, len := d.elem }] s
    | _ => put 0 [] s
  | _, _ => s.raise fcAccess

/-- One unit of a resource that the pass reserved is used (R36, R302). -/
def State.useRsv (s : State) (a : Agent) (res : Nat) : State :=
  s.updPass a (fun p => { p with rsv := mset p.rsv res (mgetD p.rsv res 0 - 1) 0 })

/-- An entry enters the FIFO of a receiver, in the place its sender reserved; a marker behind a marker
raises it instead (R309). -/
def State.chanPush (s : State) (rc rb k : Nat) (e : ChEntry) : State :=
  let w := s.wg rc rb
  let es := mgetD w.chans k []
  let es := match e.elem, e.marker, es.reverse with
    | none, some r, m :: before =>
      match m.elem, m.marker with
      | none, some r' => (({ m with marker := some (max r r') } : ChEntry) :: before).reverse
      | _, _ => es ++ [e]
    | _, _, _ => es ++ [e]
  let w := { w with chans := mput w.chans k es, chanRsv := mset w.chanRsv k (mgetD w.chanRsv k 0 - 1) 0 }
  (s.setWg rc rb w).wakeSenders rc rb (some (k / 4096, k % 4096))

/-- The perform of SPUT (R261, R307 to R309). -/
def State.performSput (s : State) (port : Nat) : State :=
  match s.curOp, s.cur.agent.slot with
  | some (k, o), some t =>
    let a := s.cur.agent
    let c := a.core
    let d := s.portDecl c t port
    let bs := toLE o.l.toNat d.elem
    match d.kind with
    | 0 =>
      s.withParts k o .write false [(o.va, d.elem)] fun ps s =>
        if o.started then s else
        let pa := (ps.head?.map (·.pa)).getD 0
        let b := s.base c t
        let w := s.wg c b
        let x := mgetD w.windows port {}
        if o.va < va57 (x.base + x.tail) then
          let s := s.updOp a k (fun o => { o with started := true, waiting := 1 })
          let y := s.storePart k o.va pa bs
          y.1.updOp a k (fun o => { o with waiting := y.2, performed := y.2 = 0 })
        else
          let v := o.va / 128
          let l := mgetD x.lines v {}
          let data := (lineBytes o.va bs).foldl (fun m e => mput m e.1 e.2) (if l.dirty then l.data else [])
          let l := { l with data, dirty := true, valid := false, stale := false, pline := lineOf pa, rsv := l.rsv - 1 }
          let x := { x with lines := mput x.lines v l, head := min (max x.head (o.va + d.elem - x.base)) (x.tail + windowBytes d) }
          let s := s.setWg c b { w with windows := mput w.windows port x }
          let s := if x.holds (windowBytes d) v then s else s.writeBackLine c b port v
          (s.useRsv a (resWindow port v)).setPerformed k
    | 1 =>
      match (o.parts.head?.map (·.pa)) <|> ((s.peerPlace c t d o.va).map (·.2.2)) with
      | some pa =>
        ((s.send (.write (.cluster c (s.base c t) port) c (lineOf pa) (lineBytes pa bs))).useRsv a (resCluster port)).setPerformed k
      | none => s.faultTwo a fcAccess 0 o.va k
    | _ =>
      match s.receiver c t port with
      | some (rc, rb, rp, rt) =>
        ((s.chanPush rc rb (chanKey rp rt) { elem := some (tokNat (o.l.toNat % 2 ^ (8 * d.elem))) }).useRsv a
          (resRadix port rt)).setPerformed k
      | none => s.setPerformed k
  | _, _ => s

/-- SPUT: its element in phase one, the window, the peer or the channel in phase two (R261). -/
def execSput (p : Pred) (q : BitVec 4) (l : BitVec 5) (s : State) : Host.Outcome State Fault Refusal :=
  go (match s.cur.phase with
    | .one => s.attempt [.L] p.code fun x _ _ st => st.issueSput p.code x q.toNat l.toNat
    | _ => s.performSput q.toNat)

/-- The perform of SMARK: the marker follows the thread's last element (R261, R309). -/
def State.performSmark (s : State) (port : Nat) : State :=
  match s.curOp, s.cur.agent.slot with
  | some (k, o), some t =>
    match s.receiver s.cur.agent.core t port with
    | some (rc, rb, rp, rt) =>
      ((s.chanPush rc rb (chanKey rp rt) { marker := some (o.l.toNat % 8) }).useRsv s.cur.agent (resRadix port rt)).setPerformed k
    | none => s.setPerformed k
  | _, _ => s

/-- SMARK: a rank above the port's declared rank parks the thread (R261). -/
def execSmark (p : Pred) (q : BitVec 4) (l : BitVec 5) (s : State) : Host.Outcome State Fault Refusal :=
  go (match s.cur.phase with
    | .one => s.fire [.L] p.code fun x _ _ st =>
        match st.cur.agent.slot with
        | some t =>
          if (st.portDecl st.cur.agent.core t q.toNat).rank < x.toNat then st.raise fcAccess
          else st.deliverOp l.toNat { l := x }
        | none => st.raise fcAccess
    | _ => s.performSmark q.toNat)

/-- The end marks of an exiting sender enter the FIFOs of its receivers (R309). -/
def State.endMarks (s : State) (c t : Nat) : State :=
  let im := s.image (s.imgOf c t)
  (im.streams.filter (fun d => d.kind = 2 && portWritten im d.port)).foldl (fun st d =>
    match st.receiver c t d.port with
    | some (rc, rb, rp, rt) =>
      let w := st.wg rc rb
      let k := chanKey rp rt
      let es := mgetD w.chanEnds k []
      let u := t - st.base c t
      if es.contains u then st else st.setWg rc rb { w with chanEnds := mput w.chanEnds k (es ++ [u]) }
    | none => st) s

end Sys2Proof.Machine
end

