-- ==== Sys2Proof/Machine/Engine.lean ====
section
/-! DEFINITION. What every engine context shares (R245, R253, R281, R283, R314, R315, R317, R383,
R384): translation of an engine's accesses, one piece of a command's work, stopping on a fault, taking
a number, and completing. -/

namespace Sys2Proof.Machine

/-! ## Contexts -/

/-- Die of a context code (R383). -/
def ctxDie (ctx : Nat) : Nat := bitsOf ctx 10 8

/-- Core of a matrix context. -/
def ctxCore (ctx : Nat) : Option Nat :=
  if ctx / 4096 = 4 || ctx / 4096 = 5 then some (ctxDie ctx * 16 + ctx % 256) else none

def ctxCopy (d e : Nat) : Nat := 0x1000 + d * 256 + e
def ctxColl (d : Nat) : Nat := 0x2000 + d * 256
def ctxSpill (d : Nat) : Nat := 0x3000 + d * 256
def ctxLoad (c : Nat) : Nat := 0x4000 + dieOf c * 256 + c % 16
def ctxWriter (c : Nat) : Nat := 0x5000 + dieOf c * 256 + c % 16
def ctxPager (d : Nat) : Nat := 0x6000 + d * 256

/-- A hold freeze covers the engine (R414). -/
def State.engHeld (s : State) (ctx : Nat) : Bool :=
  match ctxCore ctx with
  | some c => s.heldCore c
  | none => s.heldDie (ctxDie ctx)

/-- The command at the head of a context's queue. -/
def State.headCmd (s : State) (ctx : Nat) : Option Cmd := (s.context ctx).bind (·.queue.head?)

/-! ## Access -/

/-- Outcome of one engine access. -/
inductive EngAt where
  | ok (pa : Nat)
  | wait (s : State)
  | stop (code : Nat)
  deriving Repr

/-- The translation an engine finds: in its core's TLB, or its die's. -/
def State.engLookup (s : State) (ctx tenant va : Nat) : Option TlbEntry :=
  let die := tlbFind (s.die (ctxDie ctx)).tlb tenant va
  match ctxCore ctx with
  | some c => match tlbFind (s.core c).tlb tenant va with
    | some e => some e
    | none => die
  | none => die

/-- The TLB level that a command's access hits notes its translation, and the one before it fills (R353). -/
def State.engTouch (s : State) (ctx : Nat) (k : Cmd) (va : Nat) : State :=
  match if k.agent.slot.isSome && va < scratchVa then s.engLookup ctx k.tenant va else none with
  | none => s
  | some e =>
    let die (s : State) : State := s.setDie (ctxDie ctx) { s.die (ctxDie ctx) with tlb := diePut (s.die (ctxDie ctx)).tlb e }
    match ctxCore ctx with
    | some c =>
      let k := s.core c
      let s' := s.setCore c { k with tlb := corePut k.tlb e }
      if k.tlb.contains e then s' else die s'
    | none => die s

/-- The same for several accesses. -/
def State.engTouches (s : State) (ctx : Nat) (k : Cmd) (vas : List Nat) : State :=
  vas.foldl (fun st va => st.engTouch ctx k va) s

/-- An address of a command: global, or in the core scratchpad aperture of the issuing workgroup; the
private aperture is none (R317). A program without a slot uses physical addresses (R451). -/
def State.engResolve (s : State) (ctx : Nat) (k : Cmd) (va len : Nat) (rt : Right) : Xl :=
  if k.agent.slot.isNone then (if scratchVa ≤ va || !inRegion va len then .fault fcAccess else .ok va)
  else if va < scratchVa then
    match s.engLookup ctx k.tenant va with
    | none => .miss
    | some e => if e.allows rt then .ok (e.pa + va % 2 ^ e.lg) else .fault fcAccess
  else if va < privateVa then
    let w := s.wg k.core k.wg
    if w.partSize < va - scratchVa + len then .fault fcAccess else .ok (partAddr k.core w (va - scratchVa))
  else .fault fcAccess

/-- The request of a waiting engine access is over. -/
def State.engEndReq (s : State) (ctx : Nat) : State :=
  { s with reqs := s.reqs.filter (fun e => e.2.kind != .engine ctx) }

/-- An engine access waits, for its translation or at a place: an outstanding request of its command (R148, R315). -/
def State.engReq (s : State) (ctx : Nat) (k : Cmd) (va : Nat) (parts : List Part := []) : State :=
  if s.reqs.any (fun e => e.2.kind = .engine ctx) then
    { s with reqs := s.reqs.map (fun e => if e.2.kind = .engine ctx
        then (e.1, { e.2 with va, parts := e.2.parts ++ parts.filter (fun q => !e.2.parts.contains q) }) else e) }
  else s.addReq { agent := k.agent, idx := ctx, kind := .engine ctx, va, parts, start := (s.die (dieOf k.core)).clk }

/-- The access of an engine to a place has gone to its home and back; at a home of its own die it crosses nothing. -/
def State.engCrossed (s : State) (ctx : Nat) (q : Part) : Bool :=
  ctxDie ctx = homeDie (lineOf q.pa)
    || s.reqs.any (fun e => e.2.kind = .engine ctx && e.2.parts.contains q && s.sent (.req e.1))

/-- An engine's access waits at a place; to another die it goes over the circuits, once (R13, R14, R436). -/
def State.engAsk (s : State) (ctx : Nat) (k : Cmd) (va : Nat) (q : Part) : State :=
  let asked := s.reqs.any (fun e => e.2.kind = .engine ctx && e.2.parts.contains q)
  let s := s.engReq ctx k va [q]
  let d := homeDie (lineOf q.pa)
  match s.reqs.find? (fun e => e.2.kind = .engine ctx) with
  | some e => if asked then s else s.carry { s.packetOf k.agent (.req e.1) with tenant := k.tenant }
      (hop (ctxDie ctx) d 0 ++ hop d (ctxDie ctx) q.len)
  | none => s

/-- An engine reaches `n` bytes of one line: translated, its line free of an owner, and for a read free
of data poison (R225, R281, R317). -/
def State.engAt (s : State) (ctx : Nat) (k : Cmd) (va n : Nat) (rt : Right) : EngAt :=
  match s.engResolve ctx k va n rt with
  | .fault code => .stop code
  | .miss => .wait ((s.startWalk (ctxDie ctx) k.tenant va (.eng ctx va) rt).engReq ctx k va)
  | .ok pa =>
    if !s.engCrossed ctx { pa, len := n } then .wait (s.engAsk ctx k va { pa, len := n })
    else if !s.homeFree (lineOf pa) then .wait ((s.recallOwner (lineOf pa)).engReq ctx k va [{ pa, len := n }])
    else if rt = .read && s.poisonAt pa n then .stop fcPoison
    else .ok pa

/-- A range cut at line boundaries: address and byte count of each piece. -/
def linePieces (va n : Nat) : List (Nat × Nat) :=
  if n = 0 then [] else
  (List.range ((va % 128 + n + 127) / 128)).map (fun i =>
    let lo := if i = 0 then va else (va / 128 + i) * 128
    let hi := min (va + n) ((va / 128 + i + 1) * 128)
    (lo, hi - lo))

/-- Reads of a range, line by line. -/
def readOps (va n : Nat) : List EOp := (linePieces va n).map (fun p => .read p.1 p.2)
/-- Writes of bytes, one per line. -/
def writeOps (va : Nat) (bs : List Byte) : List EOp := (splitLines va bs).map (fun p => .write p.1 p.2)

/-! ## Stopping -/

/-- Number of a command's last decision, above every row number. -/
def decEnd : Nat := 2 ^ 64

/-- A command that fails while it reads its descriptor goes on to its end with status FAULT (R318,
R364): its last decision follows. -/
def cmdFails (k : Cmd) : Cmd := { k with status := 1, todo := [.decide decEnd], buf := [] }

/-- The command's next piece is done. -/
def popOp (k : Cmd) : Cmd := { k with todo := k.todo.drop 1 }

/-- A context's command stops: ENGFAULT is posted to the core's queue for a matrix context and to the
die's for the others; a record that an MLD loads is stopped (R283, R315, R406). -/
def State.engStop (s : State) (ctx code va : Nat) : State :=
  match s.headCmd ctx with
  | none => s
  | some k =>
    match k.todo with
    | .desc _ _ :: _ => (s.updHead ctx cmdFails).engEndReq ctx
    | .tail _ _ :: _ => (s.updHead ctx popOp).engEndReq ctx
    | _ =>
    let s := (s.updHead ctx (fun k => { k with stopped := true })).engEndReq ctx
    let d := ctxDie ctx
    let post (core : Nat) : Rec := mkRec 3 code 0 k.tenant core 0xFFFF k.seq ctx (s.die d).clk va
    match ctxCore ctx with
    | some c =>
      let setRec (s : State) (x : BitVec 6) : State :=
        if k.orphan.isSome then s else
        let kc := s.core c
        s.setCore c { kc with obrecs := mput kc.obrecs x.toNat { mgetD kc.obrecs x.toNat {} with st := .stopped } }
      let s := match k.instr with
        | .mld _ _ _ x _ => setRec s x
        | .mldKv _ _ x _ => setRec s x
        | _ => s
      s.postCore c (post c)
    | none => s.postDie d (post 0xFFFF)

/-! ## Places of a record in the operand buffer (R227, R278) -/

/-- Elements of a block, by code. -/
def recBlk (r : ObRec) : Nat := 16 * 2 ^ r.blk
/-- A record holds a log format. -/
def recLog (r : ObRec) : Bool := 2 ≤ r.fmt
/-- The log format of a record. -/
def recLogFmt (r : ObRec) : LogFmt := if r.fmt = 2 then .l6 else .l8
/-- The IEEE format of a record. -/
def recIeee (r : ObRec) : Fmt := if r.fmt = 0 then .bf16 else .f16

/-- K: elements per row (R278). -/
def recK (r : ObRec) : Nat := if r.fmt < 2 then r.rowLen / 2 else if r.fmt = 2 then r.rowLen * 4 / 3 else r.rowLen
/-- Block scales of a row. -/
def recScales (r : ObRec) : Nat := if recLog r then recK r / recBlk r else 0
/-- Bytes that a row takes in the operand buffer (R278). -/
def recPitch (r : ObRec) : Nat := if recLog r then ceilDiv (r.rowLen + recScales r) 16 * 16 else r.rowLen
/-- Rows that a record holds (R278). -/
def recRows (r : ObRec) : Nat := if recPitch r = 0 then 0 else r.granules * 4096 / recPitch r
/-- Bytes of a format's unit (R278). -/
def recUnit (r : ObRec) : Nat := if r.fmt < 2 then 8 else if r.fmt = 2 then recBlk r * 3 / 4 else recBlk r

/-- Address of a row in the operand buffer of core `c`. -/
def recRowAt (c : Nat) (r : ObRec) (row : Nat) : Nat := opBufBase c + r.first * 4096 + row * recPitch r
/-- Address of the position area: the last 512 bytes of the granules (R282). -/
def posAt (c : Nat) (r : ObRec) : Nat := opBufBase c + (r.first + r.granules) * 4096 - 512

def State.obrec (s : State) (c x : Nat) : ObRec := mgetD (s.core c).obrecs x {}

/-! ## Pieces of work -/

/-- A word of a line changed in place. -/
def applyWord (m : Memory) (a : Nat) : WordOp → List Byte
  | .set v => toLE v 4
  | .addSat n => toLE (massAdd (readLE m a 4) n) 4
  | .shr k => toLE (if 32 ≤ k then 0 else readLE m a 4 / 2 ^ k) 4
  | .clearBit b => let v := readLE m a 4; toLE (if flag v b then v - 2 ^ b else v) 4

/-- The horizon of the writes of a command has passed in its die (R245). -/
def State.cmdReleased (s : State) (ctx : Nat) (k : Cmd) (sc : Scope) : Bool :=
  k.pending = 0 && (!scopeWide sc || s.passed (ctxDie ctx) k.horizon k.far)

/-- Outcome of an engine reaching several ranges, each within a line, in one step. -/
inductive EngAll where
  | ok (pas : List Nat)
  | wait (s : State)
  | stop (code va : Nat)
  deriving Repr

/-- Every line of a row that the writer writes can be reached (R283, R289). -/
def State.engRow (s : State) (ctx : Nat) (k : Cmd) : List (Nat × Nat) → EngAll
  | [] => .ok []
  | (va, n) :: rest =>
    match s.engAt ctx k va n .write with
    | .wait s => .wait s
    | .stop code => .stop code va
    | .ok pa => match State.engRow s ctx k rest with
      | .ok ps => .ok (pa :: ps)
      | e => e

/-- One piece of the work of the command at the head of a context; `decide` acts on what the command has
read. -/
def State.engOp (s : State) (ctx : Nat) (k : Cmd) (sc : Scope) (decide : Nat → Cmd → State → State) (op : EOp) : State :=
  let at_ (va n : Nat) (rt : Right) (f : Nat → State → State) : State :=
    match s.engAt ctx k va n rt with
    | .ok pa => f pa ((s.engEndReq ctx).engTouch ctx k va)
    | .wait s => s
    | .stop code => s.engStop ctx code va
  let read (va n : Nat) (f : Nat → Cmd → Cmd) : State := at_ va n .read fun pa s =>
    (s.touchL2 (lineOf pa)).updHead ctx (fun k => f pa (popOp { k with buf := k.buf ++ readBytes s.mem pa n }))
  let write (va : Nat) (bs : List Byte) : State := at_ va bs.length .write fun pa s =>
    (s.updHead ctx (fun k => popOp { k with pending := k.pending + 1 })).send
      (.write (.engine ctx) k.core (lineOf pa) (lineBytes pa bs))
  match op with
  | .read va n => read va n fun _ k => k
  | .desc va n => read va n fun _ k => k
  | .readVer va n => read va n fun pa k => { k with vals := mput k.vals 1 [(s.sideOf (lineOf pa)).ver] }
  | .tail va bs => write va bs
  | .check va n =>
    match s.engResolve ctx k va n .write with
    | .fault code => s.engStop ctx code va
    | .miss => (s.startWalk (ctxDie ctx) k.tenant va (.eng ctx va) .write).engReq ctx k va
    | .ok _ => (s.engEndReq ctx).updHead ctx popOp
  | .write va bs => write va bs
  | .row va bs =>
    match s.engRow ctx k (linePieces va bs.length) with
    | .ok ps =>
      let sent := (splitLines va bs).zip ps
      let s := (s.engEndReq ctx).updHead ctx (fun k => popOp { k with pending := k.pending + sent.length })
      sent.foldl (fun st e =>
        (st.engTouch ctx k e.1.1).send (.write (.engine ctx) k.core (lineOf e.2) (lineBytes e.2 e.1.2))) s
    | .wait s => s
    | .stop code x => s.engStop ctx code x
  | .fill x row bs =>
    let s := s.updHead ctx popOp
    match ctxCore ctx, k.orphan with
    | some c, none => s.storeUnit (recRowAt c (s.obrec c x) row) bs
    | _, _ => s
  | .line va ops =>
    -- a word that is changed is read first, and asks for both rights (R352)
    let reads := ops.any (fun o => match o.2 with | .set _ => false | _ => true)
    match if reads then s.engResolve ctx k (va / 128 * 128) 128 .read else .miss with
    | .fault code => s.engStop ctx code va
    | _ => at_ (va / 128 * 128) 128 .write fun pa s =>
      if s.poisonAt pa 128 then s.engStop ctx fcPoison va
      else
        let line := lineOf pa
        let s := (s.touchL2 line).countDie (homeDie line) 0x10B (some k.tenant)
        let m := ops.foldl (fun m o => writeBytes m (pa + o.1) (applyWord m (pa + o.1) o.2)) s.mem
        let s := { s.bumpVersion line with mem := m }
        let time := s.completion line
        s.updHead ctx (fun k =>
          let r := s.noteTime (ctxDie ctx) (homeDie line) time k.horizon k.far
          popOp { k with horizon := r.1, far := r.2 })
  | .drain => if k.pending = 0 then s.updHead ctx popOp else s
  | .release => if s.cmdReleased ctx k sc then s.updHead ctx popOp else s
  | .tally ns => s.updHead ctx (fun k => popOp { k with report := List.zipWith (· + ·) k.report ns })
  | .decide n => decide n k (s.updHead ctx popOp)

/-! ## Numbers and completion -/

/-- A timeline has moved: the threads held for it wake (R37). -/
def State.wakeTimeline (s : State) (ctx : Nat) : State :=
  s.wakeAll (fun h => match h with | .timeline c _ => c = ctx | _ => false)

/-- An entry of a context's queue is free: the threads of its die that are held for one wake (R37, R314). -/
def State.wakeEntry (s : State) (ctx : Nat) : State :=
  s.wakeDie (ctxDie ctx) (fun h => match h with
    | .reserve r => (ctx / 4096 = 1 && r = resEngine (ctx % 256)) || (ctx / 4096 = 2 && r = resEngine 4)
        || (ctx / 4096 = 3 && r = resEngine 5)
    | _ => false)

/-- Completed numbers pass the timeline while the next one is complete (R384). -/
def passDone : Nat → Nat → List Nat → Nat × List Nat
  | 0, n, done => (n, done)
  | fuel + 1, n, done => if done.contains (n + 1) then passDone fuel (n + 1) (done.filter (· != n + 1)) else (n, done)

/-- A context without a queue of commands assigns its next number (R383, R384). -/
def State.tlTake (s : State) (ctx : Nat) : State × Nat :=
  match s.context ctx with
  | none => (s, 0)
  | some g =>
    let n := min (g.issued + 1) (2 ^ 64 - 1)
    (s.setContext ctx { g with issued := n }, n)

/-- A number of such a context is complete: the timeline advances to n when 1 to n are (R245, R384). -/
def State.tlDone (s : State) (ctx no : Nat) : State :=
  match s.context ctx with
  | none => s
  | some g =>
    let r := passDone (g.done.length + 1) g.timeline (g.done ++ [no])
    (s.setContext ctx { g with timeline := r.1, done := r.2 }).wakeTimeline ctx

/-- The command at the head of a context completes: its timeline takes its number, its entry frees, its
status stays in the context's progress (R245, R281, R314, R315). -/
def State.engComplete (s : State) (ctx status : Nat) : State :=
  match s.context ctx with
  | some g =>
    match g.queue with
    | k :: rest =>
      (((s.setContext ctx { g with queue := rest, last := status }).engEndReq ctx).tlDone (k.home.getD ctx) k.no).wakeEntry ctx
    | [] => s
  | none => s

/-- The wait slot that a performing command names takes its context and number (R134). -/
def State.noteWait (s : State) (a : Agent) (ctx no : Nat) (w : Option (BitVec 3)) : State :=
  match w, a.slot with
  | some n, some t =>
    let x := s.thread a.core t
    s.setThread a.core t { x with wait := mput x.wait n.toNat { ctx, val := no } }
  | _, _ => s

/-- A command takes the next number of its context and enters its queue (R245, R314, R384). -/
def State.enqueue (s : State) (ctx : Nat) (w : Option (BitVec 3)) (k : Cmd) : State :=
  match s.context ctx with
  | none => s
  | some g =>
    if 2 ^ 64 - 1 ≤ g.issued then s.setContext ctx { g with last := 1 }
    else
      let no := g.issued + 1
      (s.setContext ctx { g with issued := no, queue := g.queue ++ [{ k with no }] }).noteWait k.agent ctx no w

/-- A new command of the executing agent. -/
def State.newCmd (s : State) (i : Instr) (l r : W64) : Cmd :=
  let a := s.cur.agent
  let slot := a.slot.getD 0
  { instr := i, l, r, agent := a, tenant := s.tenantOf a, core := a.core,
    seq := if a.slot.isSome then s.seqOf a.core slot else 0,
    gang := if a.slot.isSome then s.gangOf a.core slot else 0,
    wg := if a.slot.isSome then s.base a.core slot else 0 }

/-- The stopped command of a context goes on from its progress (R283, R315). The record that it loads is loading again,
whatever has become of it. (log 96, DESIGN CHOICE) -/
def State.engResumeAt (s : State) (ctx : Nat) : State :=
  match s.headCmd ctx with
  | some k =>
    if !k.stopped then s
    else
      let s := s.updHead ctx (fun k => { k with stopped := false })
      let loading (x : BitVec 6) : State :=
        match ctxCore ctx with
        | some c =>
          if k.orphan.isSome then s else
          let kc := s.core c
          s.setCore c { kc with obrecs := mput kc.obrecs x.toNat { mgetD kc.obrecs x.toNat {} with st := .loading } }
        | none => s
      match k.instr with
      | .mld _ _ _ x _ => loading x
      | .mldKv _ _ x _ => loading x
      | _ => s
  | none => s

end Sys2Proof.Machine
end

