-- ==== Sys2Proof/Machine/Matrix.lean ====
section
/-! DEFINITION. The matrix array (R77 to R84, R227, R228, R278, R285 to R292): records of the operand
buffer, tile elements, block and chunk sums, row operations, and orders of a row. -/

namespace Sys2Proof.Machine

/-! ## Records (R227, R278) -/

/-- Format and block-length codes of a record (R227, R276). -/
def recFmtCode : RecFmt → Nat
  | .bf16 => 0 | .fp16 => 1 | .l6 _ => 2 | .l8 _ => 3
def recBlkCode : RecFmt → Nat
  | .bf16 => 3 | .fp16 => 3
  | .l6 n => (match n with | .k16 => 0 | .k32 => 1 | .k64 => 2)
  | .l8 n => (match n with | .k16 => 0 | .k32 => 1 | .k64 => 2)

def State.setObrec (s : State) (c x : Nat) (r : ObRec) : State :=
  s.setCore c { s.core c with obrecs := mput (s.core c).obrecs x r }

/-- The record as the 32 bytes of R227. -/
def obrecBytes (r : ObRec) : List Byte :=
  let st := match r.st with | .free => 0 | .reserved => 1 | .loading => 2 | .ready => 3 | .stopped => 4
  toLE r.first 1 ++ toLE (r.granules - 1) 1 ++ toLE (r.fmt % 16 + 16 * (r.blk % 4) + (if r.kv then 64 else 0)) 1
    ++ toLE (st + 8 * (r.outSt % 32)) 1 ++ toLE r.owner 1 ++ toLE (wrapTo r.scaleOff 8) 1 ++ toLE r.rowLen 2
    ++ toLE r.src 8 ++ toLE r.stride 4 ++ toLE r.progress 4 ++ toLE r.scaleVa 8

/-- An operand row: its element codes or values, and its block scales with the scale offset added;
whether an uncorrectable error stands in it (R285, R296). -/
structure ORow where
  elems : List Nat
  scales : List Int
  bad : Bool
  deriving DecidableEq, Repr

/-- A row of a record as the array reads it (R76, R227). -/
def State.orow (s : State) (c : Nat) (r : ObRec) (row : Nat) : ORow :=
  let a := recRowAt c r row
  let n := r.rowLen + recScales r
  let bytes := readBytes s.mem a r.rowLen
  let all := leNat bytes
  { elems := if recLog r then (List.range (recK r)).map (logPick (recLogFmt r) all)
      else (List.range (recK r)).map (fun e => all / 2 ^ (16 * e) % 2 ^ 16)
    scales := (readBytes s.mem (a + r.rowLen) (recScales r)).map (fun b => signedOf b.toNat 8 + r.scaleOff)
    bad := s.poisoned.any (fun p => match p.1 with
      | .operandBuffer => decide (p.2 < a + n) && decide (a < p.2 + 8)
      | _ => false) }

/-! ## Tiles (R228) -/

/-- Address of element (row, col) of a tile. -/
def accAt (c tile row col : Nat) : Nat := accBase c + tile * 131072 + (row * 256 + col) * 4

/-- A tile element; one that an uncorrectable error has hit reads as the canonical NaN (R296). -/
def State.acc (s : State) (c tile row col : Nat) : Nat :=
  let a := accAt c tile row col
  if s.poisoned.any (fun p => match p.1 with | .accumulator => p.2 = a | _ => false) then 0x7FC00000
  else readLE s.mem a 4

/-- Elements of a row from a column on. -/
def State.accRow (s : State) (c tile row col n : Nat) : List Nat := (List.range n).map (fun k => s.acc c tile row (col + k))

/-- Elements of a row written from a column on. -/
def State.setAccRow (s : State) (c tile row col : Nat) (vs : List Nat) : State :=
  s.storeUnit (accAt c tile row col) (vs.flatMap (fun v => toLE v 4))

/-! ## Sums (R77 to R79) -/

/-- A running sum with its counted events: blocks that round to an infinity, additions that give a NaN
(R78). -/
structure MSum where
  acc : Nat
  infs : Nat := 0
  nans : Nat := 0
  deriving DecidableEq, Repr

def isInf32 (v : Nat) : Bool := v % 2 ^ 31 = 0x7F800000
def isNan32 (v : Nat) : Bool := 0x7F800000 < v % 2 ^ 31

/-- One addition to the accumulator, rounded to nearest even (R78). -/
def MSum.add (m : MSum) (v : Nat) (isInf : Bool) : MSum :=
  let x := (Fmt.f32.add .rne m.acc v).bits
  { acc := x, infs := m.infs + (if isInf then 1 else 0), nans := m.nans + (if isNan32 x then 1 else 0) }

/-- The first `n` elements and the rest, `k` times. -/
def chunksOf {α : Type} (n : Nat) : Nat → List α → List (List α)
  | 0, _ => []
  | k + 1, xs => if xs.isEmpty then [] else xs.take n :: chunksOf n k (xs.drop n)

/-- A log product: blocks in increasing order (R77, R78). -/
def logDot (f : LogFmt) (len : Nat) (a b : ORow) (acc : Nat) : MSum :=
  let blocks := chunksOf len (a.elems.length) (a.elems.zip b.elems)
  (blocks.zip (a.scales.zip b.scales)).foldl (fun m e =>
    let v := (logBlock f (logSum f e.1) e.2.1 e.2.2).bits
    m.add v (isInf32 v)) { acc }

/-- Whether a value is an infinity of a sign. -/
def FVal.isInf (s : Bool) : FVal → Bool
  | .inf t => t = s
  | _ => false

/-- An exact product of two decoded values. -/
def mulExact (a b : FVal) : FVal :=
  match a, b with
  | .nan _, _ => .nan false
  | _, .nan _ => .nan false
  | .inf s, .inf t => .inf (s != t)
  | .inf s, .fin t m _ => if m = 0 then .nan false else .inf (s != t)
  | .fin s m _, .inf t => if m = 0 then .nan false else .inf (s != t)
  | .fin s m e, .fin t n f => .fin (s != t) (m * n) (e + f)

/-- The exact sum of one chunk's products, rounded once (R79). -/
def chunkSum (ps : List FVal) : Nat :=
  if ps.any FVal.isNan || (ps.any (FVal.isInf false) && ps.any (FVal.isInf true)) then 0x7FC00000
  else if ps.any (FVal.isInf false) then Fmt.f32.inf false
  else if ps.any (FVal.isInf true) then Fmt.f32.inf true
  else
    let sum := ps.foldl (fun (a : Int × Int) v =>
      match v with
      | .fin s m e => if m = 0 then a else
          if a.1 = 0 then (signedMant s m, e)
          else addExact (decide (a.1 < 0)) a.1.natAbs a.2 s m e
      | _ => a) (0, 0)
    let allNegZero := ps.all (fun v => match v with | .fin s m _ => s && m = 0 | _ => false)
    (Fmt.f32.roundInt .rne sum.1 sum.2 allNegZero).bits

/-- An IEEE product: chunks of four in increasing order (R79). -/
def ieeeDot (F G : Fmt) (a b : ORow) (acc : Nat) : MSum :=
  let prods := (a.elems.zip b.elems).map (fun e => mulExact (F.decode e.1) (G.decode e.2))
  (chunksOf 4 prods.length prods).foldl (fun m ps => m.add (chunkSum ps) false) { acc }

/-- MatrixSum of two rows onto a value (R77 to R79, R285); a row with an uncorrectable error gives the
canonical NaN (R296). Such a row counts no accumulator addition giving a NaN, since none is made. (log 76, DESIGN
CHOICE) -/
def matrixSum (ra rb : ObRec) (a b : ORow) (acc : Nat) : MSum :=
  if a.bad || b.bad then { acc := 0x7FC00000 }
  else if recLog ra then logDot (recLogFmt ra) (recBlk ra) a b acc
  else ieeeDot (recIeee ra) (recIeee rb) a b acc

/-- Records whose rows can be multiplied: equal row lengths, both IEEE or one log format with one block
length (R285). -/
def recsFit (a b : ObRec) : Bool :=
  a.rowLen = b.rowLen && (if recLog a || recLog b then a.fmt = b.fmt && a.blk = b.blk else true)

/-! ## e^x (R292) -/

/-- e^x correctly rounded, with the special cases of the FEXP2 row of R68. -/
def Fmt.expE (F : Fmt) (r : Rnd) (a : Nat) : FRes :=
  match F.decode a with
  | .nan g => ⟨F.nan, { invalid := g }⟩
  | .inf s => if s then ⟨F.zero false, {}⟩ else ⟨F.inf false, {}⟩
  | .fin s m e =>
    if m = 0 then F.round r false 1 0
    else if (20 : Int) ≤ e + m.log2 then
      if s then F.round r false 1 (-(2 ^ 20 : Nat)) else F.round r false 1 (2 ^ 20 : Nat)
    else
      -- x in units of 2^-512, exactly: no format goes below 2^-149
      let v : Int := signedMant s (m * 2 ^ (e + fixBits).toNat)
      let n := v / (ln2Fix : Int)
      let t := (v - n * ln2Fix).toNat
      F.round r false (expFix t) (n - fixBits) true

/-! ## Rows of a tile (R287, R288, R290) -/

/-- MSCALE on one element: with .exp2 the exponential of acc × a − b (R287). -/
def scaleElem (exp2 : Bool) (a b v : Nat) : Nat × FFlags :=
  if exp2 then
    let t := Fmt.f32.fma .rne v a (Nat.xor b 0x80000000)
    let x := Fmt.f32.exp2 .rne t.bits
    (x.bits, t.fl.or x.fl)
  else let x := Fmt.f32.mul .rne v a; (x.bits, x.fl)

/-- One combining step and the identity of MRED (R202, R288). -/
def mredStep (op : MRedOp) (a b : Nat) : FRes :=
  match op with
  | .fadd => Fmt.f32.add .rne a b
  | .fmax => Fmt.f32.maxNum a b
  | .fmin => Fmt.f32.minNum a b
def mredIdentity : MRedOp → Nat
  | .fadd => 0x80000000
  | .fmax => 0x7FC00000
  | .fmin => 0x7FC00000

/-- Columns combined from left to right. -/
def mredRow (op : MRedOp) (vs : List Nat) : Nat × FFlags :=
  vs.foldl (fun a v => let x := mredStep op a.1 v; (x.bits, a.2.or x.fl)) (mredIdentity op, {})

/-- Whether entry `a` (value, index) stands before `b` (R290): numbers before NaNs, by key, then by
index. -/
def sortsBefore (asc mag : Bool) (a b : Nat × Nat) : Bool :=
  let key (v : Nat) : Nat := if mag then v % 2 ^ 31 else v
  match isNan32 a.1, isNan32 b.1 with
  | false, true => true
  | true, false => false
  | true, true => decide (a.2 < b.2)
  | false, false =>
    let x := key a.1
    let y := key b.1
    if Fmt.f32.eqv x y then decide (a.2 < b.2)
    else if asc then Fmt.f32.lt x y else Fmt.f32.lt y x

/-- An entry put in its place. -/
def sortInsert (asc mag : Bool) (x : Nat × Nat) : List (Nat × Nat) → List (Nat × Nat)
  | [] => [x]
  | y :: ys => if sortsBefore asc mag x y then x :: y :: ys else y :: sortInsert asc mag x ys

/-- The columns of a row in order, each with its original index (R290). -/
def sortRow (asc mag : Bool) (vs : List Nat) : List (Nat × Nat) :=
  vs.zipIdx.foldl (fun acc e => sortInsert asc mag e acc) []

/-! ## Received mass (R292) -/

/-- The term of one score: Q12.20 of e^(x − m) / l, with the exceptions of its steps. -/
def massTerm (exp2 : Bool) (sc m l : Nat) : Nat × FFlags :=
  let x := Fmt.f32.sub .rne sc m
  let e := if exp2 then Fmt.f32.exp2 .rne x.bits else Fmt.f32.expE .rne x.bits
  let w := Fmt.f32.div .rne e.bits l
  (massOf w.bits, x.fl.or (e.fl.or w.fl))

end Sys2Proof.Machine
end

