-- ==== Sys2Proof/Machine/Mtx.lean ====
section
/-! DEFINITION. Class MTX (R271 to R295): the seal of a round, its checks, the effect of each
instruction at the seal, and the commands of the load pipe and the writer. -/

namespace Sys2Proof.Machine

/-! ## Members and rows (R201, R272) -/

/-- How many members name a row that a lower slot owns (R272). -/
def rowConflicts (ms : List Mtm) : Nat := (ms.filter (fun x => decide (x.r.toNat < 128))).length - (rowsOf ms).length

/-! ## Checks (R273, R279, R280). Subcodes: 1 RECSTATE, 2 RECOWNER, 3 NOSPACE, 4 TILEBUSY, 5 OPERAND,
6 GANG. -/

/-- Records and tile holders of a core as the instructions of a seal leave them one after another. -/
structure Mtx where
  recs : Map ObRec
  tiles : Map Nat
  deriving DecidableEq, Repr

/-- The subcode that a park names: the first of those found, in the order of R273. -/
def firstSub (bad : List Nat) : Option Nat := [5, 6, 2, 1, 4, 3].find? (fun k => bad.contains k)

def ObRec.owned (r : ObRec) (me : Nat) : Bool := r.owner = me

/-- A record in one of the states an entry asks for, owned by the workgroup and not pinned. -/
def recUse (m : Mtx) (me x : Nat) (ok : ObRec → Bool) : List Nat :=
  let r := mgetD m.recs x {}
  if r.st = .free then [1]
  else (if r.owned me then [] else [2]) ++ (if ok r && r.pins = 0 then [] else [1])

def recReady (r : ObRec) : Bool := r.st = .ready
def recOpen (r : ObRec) : Bool := r.st = .reserved || r.st = .ready

/-- A tile is free or held by the workgroup, which then holds it (R280). -/
def tileUse (m : Mtx) (me t : Nat) : Mtx × List Nat :=
  match mget m.tiles t with
  | some h => (m, if h = me then [] else [4])
  | none => ({ m with tiles := mput m.tiles t me }, [])

/-- The lowest run of `n` free granules (R278). -/
def freeRun (recs : Map ObRec) (n : Nat) : Option Nat :=
  (List.range (257 - n)).find? (fun g => recs.all (fun e =>
    e.2.st = .free || e.2.first + e.2.granules ≤ g || g + n ≤ e.2.first))

/-- The elected member's L and R tokens. -/
def electedL (ms : List Mtm) : W64 := (ms.head?.map (·.l)).getD 0
def electedR (ms : List Mtm) : W64 := (ms.head?.map (·.r)).getD 0

/-- The record that an MRES writes (R278). -/
def mresRec (me : Nat) (gran : BitVec 8) (f : RecFmt) (consts : List W32) (k : Nat) (ms : List Mtm) : ObRec :=
  let l := (electedL ms).toNat
  let r := (electedR ms).toNat
  { st := .reserved, granules := gran.toNat + 1, fmt := recFmtCode f, blk := recBlkCode f, owner := me,
    scaleOff := signedOf (bitsOf r 55 48) 8, rowLen := bitsOf r 47 32, src := l % 2 ^ 57, stride := r % 2 ^ 32,
    scaleVa := match f with
      | .l6 _ => constPair consts k % 2 ^ 57
      | .l8 _ => constPair consts k % 2 ^ 57
      | _ => 0 }

/-- MRES: the record, the run, and the limits of its operands (R278). -/
def planMres (m : Mtx) (me x : Nat) (r : ObRec) : Mtx × List Nat :=
  let bad := (if (mgetD m.recs x {}).st = .free then [] else [1])
    ++ (if r.src % 16 = 0 && r.stride % 16 = 0 && 16 ≤ r.rowLen && r.rowLen ≤ 16384 && r.rowLen % recUnit r = 0
        then [] else [5])
  match freeRun m.recs r.granules with
  | some g => ({ m with recs := mput m.recs x { r with first := g, owner := me } }, bad)
  | none => (m, bad ++ [3])

/-- MREL: a record not free, loading or pinned, and a tile of the workgroup or of none (R279). -/
def planMrel (m : Mtx) (me : Nat) (x t : Option Nat) : Mtx × List Nat :=
  let a := match x with
    | some x => (({ m with recs := mdel m.recs x } : Mtx),
        recUse m me x (fun r => r.st = .reserved || r.st = .ready || r.st = .stopped))
    | none => (m, [])
  match t with
  | some t => ({ a.1 with tiles := mdel a.1.tiles t }, a.2 ++ (if mgetD m.tiles t me = me then [] else [4]))
  | none => a

/-- MLD: a record reserved or ready, and rows it holds; the record is pinned (R279, R281). -/
def planMld (m : Mtx) (me x : Nat) (ms : List Mtm) : Mtx × List Nat :=
  let r := mgetD m.recs x {}
  let first := (electedL ms).toNat % 2 ^ 20
  let count := (electedR ms).toNat % 2 ^ 20
  ({ m with recs := mput m.recs x { r with pins := r.pins + 1 } },
   recUse m me x recOpen
     ++ (if count = 0 || (r.st != .free && recRows r < first + count) then [5] else []))

/-- MLD.kv: the page, the head, the shape of the record (R282). -/
def planMldKv (m : Mtx) (me x : Nat) (ms : List Mtm) : Mtx × List Nat :=
  let r := mgetD m.recs x {}
  let page := (electedL ms).toNat % 2 ^ 57
  let h := bitsOf (electedR ms).toNat 7 0
  let hs := bitsOf (electedR ms).toNat 15 8
  let shape := (r.fmt < 2 || (r.fmt = 3 && r.blk = 2)) && 64 * recPitch r + 512 ≤ r.granules * 4096
  ({ m with recs := mput m.recs x { r with pins := r.pins + 1 } },
   recUse m me x recOpen
     ++ (if page % 128 != 0 || hs ≤ h || (r.st != .free && !shape) then [5] else []))

/-- MMA and the own side of MMAG: records ready, shapes that fit, rows that exist (R285). -/
def planMma (m : Mtx) (me : Nat) (ra : ObRec) (badA : List Nat) (b tile col n : Nat) (rows : List (Nat × Mtm)) :
    Mtx × List Nat :=
  let rb := mgetD m.recs b {}
  let known := ra.st != .free && rb.st != .free
  let shape := (known && !recsFit ra rb) || (rb.st != .free && recRows rb < n) || 256 < col + n
    || (ra.st != .free && rows.any (fun e => recRows ra ≤ e.2.l.toNat))
  let t := tileUse m me tile
  (t.1, badA ++ recUse m me b recReady ++ t.2 ++ (if shape then [5] else []))

/-- MST: the tile, and for .ob a record that takes the rows; its count of commands goes up (R289). -/
def planMst (m : Mtx) (me : Nat) (f : StFmt) (tile n : Nat) (rows : List (Nat × Mtm)) : Mtx × List Nat :=
  let ob (x fmt : Nat) : Mtx × List Nat :=
    let r := mgetD m.recs x {}
    let state := recUse m me x (fun r => recOpen r || (r.st = .loading && 0 < r.outSt))
    let shape := r.fmt != fmt || recK r < n || rows.any (fun e => recRows r ≤ e.2.l.toNat % 2 ^ 20)
    ({ m with recs := mput m.recs x { r with outSt := r.outSt + 1, st := .loading } },
     state ++ (if 31 ≤ r.outSt then [1] else []) ++ (if r.st != .free && shape then [5] else []))
  let mem (size : Nat) : Mtx × List Nat :=
    (m, if rows.any (fun e => (e.2.l.toNat % 2 ^ 57) % size != 0) then [5] else [])
  let a := match f with
    | .f32 => mem 4
    | .f16 => mem 2
    | .bf16 => mem 2
    | .ob16 x => ob x.toNat 1
    | .obbf x => ob x.toNat 0
  let t := tileUse a.1 me tile
  (t.1, a.2 ++ t.2)

/-- MSORT and MTOPK: the tile and the index tile (R290). -/
def planSort (m : Mtx) (me tile : Nat) (ixt : Option Nat) : Mtx × List Nat :=
  let t := tileUse m me tile
  match ixt with
  | some x => let u := tileUse t.1 me x; (u.1, t.2 ++ u.2)
  | none => t

/-- ASCORE: Q and K ready and fitting, K with the kv flag, the rows in Q (R291). -/
def planAscore (m : Mtx) (me q k tile : Nat) (rows : List (Nat × Mtm)) : Mtx × List Nat :=
  let rq := mgetD m.recs q {}
  let rk := mgetD m.recs k {}
  let shape := (rq.st != .free && rk.st != .free && !recsFit rq rk)
    || (rq.st != .free && rows.any (fun e => recRows rq ≤ e.1))
  let t := tileUse m me tile
  (t.1, recUse m me q recReady ++ recUse m me k (fun r => recReady r && r.kv) ++ t.2 ++ (if shape then [5] else []))

/-- AMASS: K ready with the kv flag (R292). -/
def planAmass (m : Mtx) (me k tile : Nat) : Mtx × List Nat :=
  let t := tileUse m me tile
  (t.1, recUse m me k (fun r => recReady r && r.kv) ++ t.2)

/-! ## The executing seal -/

/-- The seal of a round: its core, its members, the elected member's pass. -/
structure SealAt where
  core : Nat
  members : List Nat
  img : Nat
  blk : Nat
  consts : List W32
  wg : Nat
  deriving DecidableEq, Repr

/-- A drain has frozen the gang of a seal: its phase two does not go on (R416). -/
def State.sealDrained (s : State) (c : Nat) (x : Seal) : Bool :=
  x.members.any (fun t => match (s.gang (s.gangOf c t)).frozen with
    | .draining | .drained => true
    | _ => false)

/-- What a seal of a core is about. -/
def State.sealOf (s : State) (c : Nat) (x : Seal) : Option SealAt :=
  match x.members with
  | [] => none
  | t :: _ => match s.passOf (s.threadAgent c t) with
    | some p => some { core := c, members := x.members, img := p.img, blk := p.blk, consts := p.consts, wg := s.base c t }
    | none => none

/-- What the first seal of a core is about; one of a drained gang waits, and stops no other gang's. -/
def State.sealAt (s : State) (c : Nat) : Option SealAt :=
  ((s.core c).seals.find? (fun x => !s.sealDrained c x)).bind (s.sealOf c)

/-- MTX instructions of a seal with their members, in clause and index order; those without members
deliver nothing (R201, R273). -/
def State.sealItems (s : State) (x : SealAt) : List (Nat × Instr × List Mtm) :=
  let ws := s.block x.img x.blk
  ((clausesOf ws).filter (fun cl => bitsOf cl.hdr 23 20 = 3)).flatMap (fun cl =>
    (clauseInstrs cl).filterMap (fun e =>
      let ms := s.mtxMembers x.core x.members ws e.1 e.2
      if ms.isEmpty then none else some (e.1, e.2, ms)))

/-- The matrix state of a core. -/
def State.mtx (s : State) (c : Nat) : Mtx := { recs := (s.core c).obrecs, tiles := (s.core c).tiles }
def State.setMtx (s : State) (c : Nat) (m : Mtx) : State :=
  s.setCore c { s.core c with obrecs := m.recs.filter (fun e => e.2.st != .free), tiles := m.tiles }

/-- Core and base slot of workgroup `w` of a gang. -/
def State.gangMember (s : State) (g w : Nat) : Option Member := (s.gang g).members[w]?

/-- The A record that an MMAG of a workgroup reads: that of workgroup (w mod G_r), with what is wrong with
it (R286). -/
def State.mmagA (s : State) (c wg a groups : Nat) (peer : Nat → Mtx) : ObRec × List Nat × Nat :=
  let w := s.wg c wg
  match s.gangMember w.gang (w.wgid % groups) with
  | some m =>
    let x := peer m.core
    let r := mgetD x.recs a {}
    (r, recUse x (m.base / 128) a recReady, m.core)
  | none => ({}, [6], c)

/-- The shape an MMAG asks of its gang (R286). -/
def State.mmagGang (s : State) (c wg groups : Nat) : List Nat :=
  let n := (s.gang (s.wg c wg).gang).members.length
  if n % groups = 0 && n / groups ≤ 8 then [] else [6]

/-- What an instruction of a seal checks, and the records and tiles it leaves (R273). `peer` gives the
matrix state of the gang's other cores. -/
def State.planMtx (s : State) (x : SealAt) (peer : Nat → Mtx) (m : Mtx) (i : Instr) (ms : List Mtm) : Mtx × List Nat :=
  let me := x.wg / 128
  let rows := rowsOf ms
  let wid (n : BitVec 5) : Nat := 8 * (n.toNat + 1)
  match i with
  | .mres _ rec gran f k => planMres m me rec.toNat (mresRec me gran f x.consts k.toNat ms)
  | .mrel _ rec tile => planMrel m me (rec.map (·.toNat)) (tile.map (·.toNat))
  | .mld _ _ _ rec _ => planMld m me rec.toNat ms
  | .mldKv _ _ rec _ => planMldKv m me rec.toNat ms
  | .mzero _ tile => tileUse m me tile.toNat
  | .mma _ a b tile col n =>
    planMma m me (mgetD m.recs a.toNat {}) (recUse m me a.toNat recReady) b.toNat tile.toNat (8 * col.toNat) (wid n) rows
  | .mmag _ a b tile col n rg2 =>
    let groups := if rg2 then 2 else 1
    let pa := s.mmagA x.core x.wg a.toNat groups (fun c => if c = x.core then m else peer c)
    planMma m me pa.1 (s.mmagGang x.core x.wg groups ++ pa.2.1) b.toNat tile.toNat (8 * col.toNat) (wid n) rows
  | .mscale _ _ tile _ _ => tileUse m me tile.toNat
  | .mred _ _ tile _ _ _ _ => tileUse m me tile.toNat
  | .mst _ f _ _ tile _ n => planMst m me f tile.toNat (wid n) rows
  | .msort _ _ _ ixt tile _ _ => planSort m me tile.toNat (ixt.map (·.toNat))
  | .mtopk _ _ _ ixt tile _ _ _ _ => planSort m me tile.toNat (ixt.map (·.toNat))
  | .ascore _ _ q k tile _ => planAscore m me q.toNat k.toNat tile.toNat rows
  | .amass _ _ _ k _ tile _ => planAmass m me k.toNat tile.toNat
  | _ => (m, [])

/-- The first failing instruction of a seal, with its subcode: each check sees what the instructions
before it leave (R273). -/
def State.sealFails (s : State) (x : SealAt) (peer : Nat → Mtx) : Mtx → List (Nat × Instr × List Mtm) → Option (Nat × Nat)
  | _, [] => none
  | m, e :: rest =>
    let r := s.planMtx x peer m e.2.1 e.2.2
    match firstSub r.2 with
    | some sub => some (e.1, sub)
    | none => State.sealFails s x peer r.1 rest

/-- A seal is over. -/
def State.dropSeal (s : State) (x : SealAt) : State :=
  s.setCore x.core { s.core x.core with seals := (s.core x.core).seals.filter (·.members != x.members) }

/-- Every member of a seal parks with MATRIX, without partial commit (R273). -/
def State.parkSeal (s : State) (x : SealAt) (idx sub : Nat) : State :=
  let s := s.dropSeal x
  x.members.foldl (fun st t =>
    let k := { st.parkOf x.core t fcMatrix sub 0 (some idx) none 2 with phase := 2 }
    ((st.dropPass x.core t).park x.core t k).endRare x.core t) s

/-! ## Effects of the instructions -/

/-- The seal of the executing instruction and its members. -/
def State.curSeal (s : State) (i : Instr) : Option (SealAt × List Mtm) :=
  match s.sealAt s.cur.agent.core with
  | none => none
  | some x =>
    let ms := s.mtxMembers x.core x.members (s.block x.img x.blk) s.cur.idx i
    if ms.isEmpty then none else some (x, ms)

/-- An instruction at the seal: its own check, its records and tiles, then `f`; a failing check parks the
round (R273). -/
def State.atSeal (s : State) (i : Instr) (f : SealAt → List Mtm → State → State) : State :=
  match s.curSeal i with
  | none => s
  | some (x, ms) =>
    let r := s.planMtx x (fun c => s.mtx c) (s.mtx x.core) i ms
    match firstSub r.2 with
    | some sub => s.parkSeal x s.cur.idx sub
    | none => f x ms (s.setMtx x.core r.1)

/-- Row conflicts are counted (R272). -/
def State.countRows (s : State) (ms : List Mtm) : State :=
  s.count s.cur.agent.core 0x01A (some (s.tenantOf s.cur.agent)) (rowConflicts ms)

/-- The tokens of a member's instruction are used: it has fired. -/
def State.useMember (s : State) (c idx : Nat) (i : Instr) (t : Nat) : State :=
  let a := s.threadAgent c t
  let s := (allInputs i).foldl (fun st f => st.useOperand a (opKey idx f)) s
  s.updPass a (fun p => if p.fired.contains idx then p else { p with fired := p.fired ++ [idx] })

/-- A result reaches the LVW that the owner's T0, or T1, feeds (R274, R288). -/
def State.rowResult (s : State) (c idx t : Nat) (v : Nat) : State :=
  let a := s.threadAgent c t
  ((s.feedLvw a idx 0 (tokNat v)).feedLvw a idx 1 (tokNat v))

/-- A change of each row of the mask, with the exceptions of the whole instruction counted once per kind
(R69, R288). -/
def State.eachRow (s : State) (rows : List (Nat × Mtm)) (f : Nat → Mtm → State → State × FFlags) : State :=
  let r := rows.foldl (fun (a : State × FFlags) e => let x := f e.1 e.2 a.1; (x.1, a.2.or x.2)) (s, {})
  r.1.countFlag r.2

/-- MRES: the granules of the new record hold zero (R3, R278). -/
def State.sealMres (s : State) (i : Instr) (rec : Nat) : State :=
  s.atSeal i fun x _ s =>
    let r := s.obrec x.core rec
    let a := opBufBase x.core + r.first * 4096
    let n := r.granules * 4096
    let poisoned := s.poisoned.filter (fun p => match p.1 with
      | .operandBuffer => !(decide (a ≤ p.2) && decide (p.2 < a + n))
      | _ => true)
    { s with mem := zeroRange s.mem a n, poisoned }

/-- MREL (R279). -/
def State.sealMrel (s : State) (i : Instr) : State := s.atSeal i fun _ _ s => s

/-- MLD, MLD.kv: the elected member's command is formed (R275). -/
def State.formCmd (s : State) (c lsid : Nat) (ms : List Mtm) (k : Cmd) : State :=
  let idx := s.cur.idx
  let s := ms.foldl (fun st m => st.updPass (st.threadAgent c m.slot) (fun p =>
    { p with ops := mput p.ops lsid { idx, l := m.l, r := m.r } })) s
  match ms with
  | m :: _ => s.updPass (s.threadAgent c m.slot) (fun p => { p with cmds := mput p.cmds lsid k })
  | [] => s

def State.sealMld (s : State) (i : Instr) (lsid : Nat) : State :=
  s.atSeal i fun x ms s => s.formCmd x.core lsid ms (s.newCmd i (electedL ms) (electedR ms))

def State.sealMldKv (s : State) (i : Instr) (lsid : Nat) : State :=
  s.atSeal i fun x ms s => s.formCmd x.core lsid ms (s.newCmd i (electedL ms) (electedR ms))

/-- MZERO (R284). -/
def State.sealMzero (s : State) (i : Instr) (tile : Nat) : State :=
  s.atSeal i fun x ms s =>
    (rowsOf ms).foldl (fun st e => st.setAccRow x.core tile e.1 0 (List.replicate 256 0)) (s.countRows ms)

/-- The events of a sum are counted (R78). -/
def State.countSum (s : State) (m : MSum) : State :=
  let c := s.cur.agent.core
  let t := some (s.tenantOf s.cur.agent)
  (s.count c 0x018 t m.infs).count c 0x019 t m.nans

/-- Rows of an A record on core `ca` times rows of a B record, accumulated into a tile (R285, R286). The roundings and
invalid products of FP16 and BF16 chunk sums and of the accumulator additions count in no exception source of R69;
only the events of R78 count. (log 75, DESIGN CHOICE) -/
def State.multiply (s : State) (c ca : Nat) (ra rb : ObRec) (tile col n : Nat) (ms : List Mtm) : State :=
  let bs := (List.range n).map (fun j => s.orow c rb j)
  (rowsOf ms).foldl (fun st e =>
    let a := st.orow ca ra e.2.l.toNat
    let sums := (bs.zip (st.accRow c tile e.1 col n)).map (fun q => matrixSum ra rb a q.1 q.2)
    let st := sums.foldl (fun st m => st.countSum m) st
    st.setAccRow c tile e.1 col (sums.map (·.acc))) (s.countRows ms)

/-- MMA (R285). -/
def State.sealMma (s : State) (i : Instr) (a b tile col n : Nat) : State :=
  s.atSeal i fun x ms s => s.multiply x.core x.core (s.obrec x.core a) (s.obrec x.core b) tile col n ms

/-- MMAG: the A rows come from the row group's first workgroup (R286). -/
def State.sealMmag (s : State) (i : Instr) (a b tile col n groups : Nat) : State :=
  s.atSeal i fun x ms s =>
    let pa := s.mmagA x.core x.wg a groups (fun c => s.mtx c)
    s.multiply x.core pa.2.2 pa.1 (s.obrec x.core b) tile col n ms

/-- MSCALE (R287). -/
def State.sealMscale (s : State) (i : Instr) (exp2 : Bool) (tile col n : Nat) : State :=
  s.atSeal i fun x ms s =>
    (s.countRows ms).eachRow (rowsOf ms) fun row m s =>
      let a := bitsOf m.l.toNat 31 0
      let b := bitsOf m.l.toNat 63 32
      let vs := (s.accRow x.core tile row col n).map (scaleElem exp2 a b)
      (s.setAccRow x.core tile row col (vs.map (·.1)), vs.foldl (fun f v => f.or v.2) {})

/-- MRED (R288). -/
def State.sealMred (s : State) (i : Instr) (op : MRedOp) (tile col n : Nat) : State :=
  let idx := s.cur.idx
  s.atSeal i fun x ms s =>
    (s.countRows ms).eachRow (rowsOf ms) fun row m s =>
      let v := mredRow op (s.accRow x.core tile row col n)
      (s.rowResult x.core idx m.slot v.1, v.2)

/-- MST: the command is formed with the rows of its mask and their owners' tokens (R275, R289). -/
def State.sealMst (s : State) (i : Instr) (lsid : Nat) : State :=
  s.atSeal i fun x ms s =>
    (s.countRows ms).formCmd x.core lsid ms
      { s.newCmd i (electedL ms) (electedR ms) with rows := (rowsOf ms).map (fun e => (e.1, e.2.l)) }

/-- MSORT (R290). -/
def State.sealMsort (s : State) (i : Instr) (asc mag : Bool) (ixt : Option Nat) (tile col n : Nat) : State :=
  s.atSeal i fun x ms s =>
    (rowsOf ms).foldl (fun st e =>
      let o := sortRow asc mag (st.accRow x.core tile e.1 col n)
      let st := st.setAccRow x.core tile e.1 col (o.map (·.1))
      match ixt with
      | some t => st.setAccRow x.core t e.1 col (o.map (·.2))
      | none => st) (s.countRows ms)

/-- MTOPK: the first k of the order, and the k-th value as the result (R290). -/
def State.sealMtopk (s : State) (i : Instr) (k : Nat) (mag : Bool) (ixt : Option Nat) (tile col n : Nat) : State :=
  let idx := s.cur.idx
  s.atSeal i fun x ms s =>
    (rowsOf ms).foldl (fun st e =>
      let o : List (Nat × Nat) := (sortRow false mag (st.accRow x.core tile e.1 col n)).take k
      let st := st.setAccRow x.core tile e.1 col (o.map (·.1))
      let st : State := match ixt with
        | some t => st.setAccRow x.core t e.1 col (o.map (·.2))
        | none => st
      st.rowResult x.core idx e.2.slot ((o.getLast?.map (·.1)).getD 0)) (s.countRows ms)

/-- Position of slot `j` in the position area, and whether the slot is valid (R282). -/
def State.posOf (s : State) (c : Nat) (r : ObRec) (j : Nat) : Nat := readLE s.mem (posAt c r + 4 * j) 4
def State.posValid (s : State) (c : Nat) (r : ObRec) (j : Nat) : Bool := flag (readLE s.mem (posAt c r + 256) 8) j

/-- An uncorrectable error stands in what a score of slot `j` reads of the position area: the valid mask, and with
.causal the unit of the slot's position (R296). -/
def State.posBad (s : State) (c : Nat) (r : ObRec) (causal : Bool) (j : Nat) : Bool :=
  s.poisoned.contains (.operandBuffer, posAt c r + 256)
    || (causal && s.poisoned.contains (.operandBuffer, posAt c r + 8 * (j / 2)))

/-- ASCORE (R291). Of its arithmetic the multiplication by the scale counts exceptions; its chunk sums and
accumulator additions count none. (log 75, DESIGN CHOICE) -/
def State.sealAscore (s : State) (i : Instr) (causal : Bool) (q k tile col : Nat) : State :=
  s.atSeal i fun x ms s =>
    let rq := s.obrec x.core q
    let rk := s.obrec x.core k
    let ks := (List.range 64).map (fun j =>
      (s.orow x.core rk j, s.posBad x.core rk causal j, s.posValid x.core rk j, s.posOf x.core rk j))
    (s.countRows ms).eachRow (rowsOf ms) fun row m s =>
      let p := bitsOf m.l.toNat 31 0
      let f := bitsOf m.l.toNat 63 32
      let qr := s.orow x.core rq row
      let out : List (Nat × FFlags × MSum) := ks.map (fun e =>
        if e.2.1 then (0x7FC00000, ({} : FFlags), ({ acc := 0 } : MSum))
        else if !e.2.2.1 || (causal && p < e.2.2.2) then (0xFF800000, ({} : FFlags), ({ acc := 0 } : MSum))
        else
          let d := matrixSum rq rk qr e.1 0
          let y := Fmt.f32.mul .rne d.acc f
          (y.bits, y.fl, d))
      let s := out.foldl (fun st o => st.countSum o.2.2) s
      (s.setAccRow x.core tile row col (out.map (·.1)), out.foldl (fun g o => g.or o.2.1) {})

/-- AMASS: the command is formed (R275, R292). -/
def State.sealAmass (s : State) (i : Instr) (lsid : Nat) : State :=
  s.atSeal i fun x ms s =>
    (s.countRows ms).formCmd x.core lsid ms
      { s.newCmd i (electedL ms) (electedR ms) with rows := (rowsOf ms).map (fun e => (e.1, e.2.l)) }

/-! ## Performing a formed command (R275, R281, R289, R292) -/

/-- The perform of a committing MTX instruction: the elected member's command enters its context, any
other member's operation has no effect. `mk` completes the command with what it captures. -/
def State.performFormed (s : State) (ctx : Nat) (w : Option (BitVec 3)) (mk : Cmd → State → Cmd × State) : State :=
  match s.curOp, s.passOf s.cur.agent with
  | some (k, _), some p =>
    match mget p.cmds k with
    | none => s.setPerformed k
    | some c =>
      s.afterRelease .dev k fun s =>
        let r := mk c s
        let s := r.2.updPass r.1.agent (fun p => { p with cmds := mdel p.cmds k })
        (s.enqueue ctx w r.1).setPerformed k
  | _, _ => s

/-- MLD performs: its record is loading, its pin gone, its kv flag as the form says (R227, R281). -/
def State.performMld (s : State) (rec : Nat) (kv : Bool) (w : Option (BitVec 3)) : State :=
  let c := s.cur.agent.core
  s.performFormed (ctxLoad c) w fun k s =>
    let r := s.obrec c rec
    let first := if kv then 0 else k.l.toNat % 2 ^ 20
    ({ k with todo := [.decide (2 * first)] }, s.setObrec c rec { r with st := .loading, pins := r.pins - 1, kv })

/-- Bytes of an element that MST stores (R71, R289). The rounding counts in no exception source. (log 75, DESIGN
CHOICE) -/
def mstElem (f : StFmt) (v : Nat) : List Byte :=
  match f with
  | .f32 => toLE v 4
  | .f16 => toLE (Fmt.f32.convert .f16 .rne v).bits 2
  | .ob16 _ => toLE (Fmt.f32.convert .f16 .rne v).bits 2
  | .bf16 => toLE (Fmt.f32.convert .bf16 .rne v).bits 2
  | .obbf _ => toLE (Fmt.f32.convert .bf16 .rne v).bits 2

/-- MST performs: the writer reads the tile's elements now (R289). -/
def State.performMst (s : State) (f : StFmt) (w : Option (BitVec 3)) (tile col n : Nat) : State :=
  let c := s.cur.agent.core
  let ob (x : Nat) (k : Cmd) (s : State) : Cmd × State :=
    ({ k with todo := k.rows.map (fun e =>
        .fill x (e.2.toNat % 2 ^ 20) ((s.accRow c tile e.1 col n).flatMap (mstElem f))) },
     s.setObrec c x { s.obrec c x with kv := false })
  s.performFormed (ctxWriter c) w fun k s =>
    let k := { k with vals := mput k.vals 3 (k.rows.map (·.1)) }
    match f with
    | .ob16 x => ob x.toNat k s
    | .obbf x => ob x.toNat k s
    | _ =>
      ({ k with todo := k.rows.map (fun e =>
          .row (e.2.toNat % 2 ^ 57) ((s.accRow c tile e.1 col n).flatMap (mstElem f))) }, s)

/-- AMASS performs: the sums of every slot's terms are formed now (R84, R292). -/
def State.performAmass (s : State) (exp2 : Bool) (rec : Nat) (w : Option (BitVec 3)) (tile col : Nat) : State :=
  let c := s.cur.agent.core
  s.performFormed (ctxWriter c) w fun k s =>
    let r := s.obrec c rec
    let terms := (List.range 64).map (fun j =>
      if s.posBad c r false j then k.rows.foldl (fun (a : Nat × FFlags) _ => (a.1 + massOf 0x7FC00000, a.2)) (0, {})
      else if s.posValid c r j then
        k.rows.foldl (fun (a : Nat × FFlags) e =>
          let t := massTerm exp2 (s.acc c tile e.1 (col + j)) (bitsOf e.2.toNat 31 0) (bitsOf e.2.toNat 63 32)
          (a.1 + t.1, a.2.or t.2)) (0, {})
      else (0, {}))
    let todo := (List.range 8).filterMap (fun n : Nat =>
      let ops := (List.range 8).filterMap (fun j =>
        let t := (terms.getD (8 * n + j) (0, {})).1
        if t = 0 then none else some (16 * j, WordOp.addSat t))
      if ops.isEmpty then none else some (n, EOp.line (r.src + 128 * n) ops))
    ({ k with todo := todo.map (·.2), vals := mput k.vals 3 (todo.map (·.1)) }, s.countFlag (terms.foldl (fun f t => f.or t.2) {}))

/-! ## The load pipe's rows (R281, R282) -/

/-- Bytes of an element as a source code reads it. -/
def srcBytes (r : ObRec) : LdSrc → Nat
  | .raw => if recLog r then 0 else 2
  | .f32 => 4
  | .f16 => 2
  | .bf16 => 2

/-- FP32 value of a source element. -/
def srcF32 : LdSrc → Nat → Nat
  | .f16, v => (Fmt.f16.convert .f32 .rne v).bits
  | .bf16, v => (Fmt.bf16.convert .f32 .rne v).bits
  | _, v => v

/-- The format of a source code. -/
def srcFmt : LdSrc → Fmt
  | .f16 => .f16
  | .bf16 => .bf16
  | _ => .f32

/-- Bytes read for the elements of one row (R281). -/
def rowReadLen (r : ObRec) (src : LdSrc) : Nat :=
  match src with
  | .raw => r.rowLen
  | _ => recK r * srcBytes r src

/-- Codes packed into bytes (R76). -/
def packCodes (f : LogFmt) (n : Nat) (cs : List Nat) : List Byte :=
  toLE (cs.zipIdx.foldl (fun a e => a + e.1 * 2 ^ (logWidth f * e.2)) 0) n

/-- What a row's bytes become in the record, with the NaNs flushed (R81, R83, R281). A rounding into BF16 or FP16
counts in no exception source. (log 75, DESIGN CHOICE) -/
def loadRow (r : ObRec) (src : LdSrc) (bytes : List Byte) : List Byte × Nat :=
  match src with
  | .raw => (bytes, 0)
  | _ =>
    let n := srcBytes r src
    let len := rowReadLen r src
    let data := leNat (bytes.take len)
    let scales := bytes.drop len
    let elems := (List.range (recK r)).map (fun e => data / 2 ^ (8 * n * e) % 2 ^ (8 * n))
    if recLog r then
      let f := recLogFmt r
      let es := elems.zipIdx.map (fun e =>
        logConvert f (srcF32 src e.1) (signedOf ((scales.getD (e.2 / recBlk r) 0).toNat) 8 + r.scaleOff))
      (packCodes f r.rowLen (es.map (·.1)) ++ scales, (es.filter (·.2)).length)
    else (elems.flatMap (fun e => toLE ((srcFmt src).convert (recIeee r) .rne e).bits 2), 0)

/-- The next step of an MLD: an even number reads row n / 2, an odd one writes it and goes on to the next,
or ends the command with its record ready (R281). -/
def State.decideMld (s : State) (ctx : Nat) (src : LdSrc) (rec n : Nat) (k : Cmd) : State :=
  match ctxCore ctx with
  | none => s
  | some c =>
    let r := k.orphan.getD (s.obrec c rec)
    let i := n / 2
    if n % 2 = 0 then
      let ops := readOps (va57 (r.src + i * r.stride)) (rowReadLen r src)
          ++ readOps (va57 (r.scaleVa + i * recScales r)) (recScales r) ++ [.decide (n + 1)]
      s.updHead ctx (fun k => { k with todo := ops ++ k.todo })
    else
      let x := loadRow r src k.buf
      let s := s.addFlush c 4 x.2 k.tenant
      let last := i + 1 = k.l.toNat % 2 ^ 20 + k.r.toNat % 2 ^ 20
      let s := if k.orphan.isSome then s
        else (s.storeUnit (recRowAt c r i) x.1).setObrec c rec { r with progress := i + 1, st := if last then .ready else r.st }
      s.updHead ctx (fun k => { k with buf := [], todo := (if last then [] else [.decide (n + 1)]) ++ k.todo })

/-- The operands of an MLD.kv: page, head, heads, values (R282). -/
def kvArgs (k : Cmd) : Nat × Nat × Nat × Nat :=
  (k.l.toNat % 2 ^ 57, bitsOf k.r.toNat 7 0, bitsOf k.r.toNat 15 8, bitsOf k.r.toNat 16 16)

/-- The scale array of a page for a head of its keys or values (R282). -/
def kvScales (r : ObRec) (a : Nat × Nat × Nat × Nat) : Nat :=
  a.1 + 1024 + 128 * a.2.2.1 * recK r + (a.2.2.2 * a.2.2.1 + a.2.1) * recK r

/-- The next step of an MLD.kv: rows 0 to 63 as an MLD's, then the metadata and the position area (R282). -/
def State.decideMldKv (s : State) (ctx : Nat) (rec n : Nat) (k : Cmd) : State :=
  match ctxCore ctx with
  | none => s
  | some c =>
    let r := k.orphan.getD (s.obrec c rec)
    let a := kvArgs k
    let i := n / 2
    if n % 2 = 0 then
      let ops := if i < 64 then
          readOps (a.1 + 1024 + (a.2.2.2 * a.2.2.1 + a.2.1) * 64 * r.rowLen + i * r.rowLen) r.rowLen
            ++ readOps (kvScales r a + i * recScales r) (recScales r)
        else readOps a.1 1024
      s.updHead ctx (fun k => { k with todo := ops ++ [.decide (n + 1)] ++ k.todo })
    else if i < 64 then
      let s := if k.orphan.isSome then s else (s.storeUnit (recRowAt c r i) k.buf).setObrec c rec { r with progress := i + 1 }
      s.updHead ctx (fun k => { k with buf := [], todo := .decide (n + 1) :: k.todo })
    else
      let word (j o : Nat) : Nat := leNat ((k.buf.drop (16 * j + o)).take 4)
      let mask := (List.range 64).foldl (fun m j => m + (word j 8 % 2) * 2 ^ j) 0
      let area := (List.range 64).flatMap (fun j => toLE (word j 4) 4) ++ toLE mask 8
      let s := if k.orphan.isSome then s else (s.storeUnit (posAt c r) area).setObrec c rec
        { r with st := .ready, src := a.1, scaleVa := if recLog r then kvScales r a else r.scaleVa }
      s.updHead ctx (fun k => { k with buf := [] })

/-- An MST.ob has completed: its record counts one less, and is ready at none (R289). -/
def State.endMstOb (s : State) (c x : Nat) : State :=
  let r := s.obrec c x
  s.setObrec c x { r with outSt := r.outSt - 1, st := if r.outSt = 1 then .ready else r.st }

/-! ## The instructions -/

/-- An MTX instruction before its seal: its tokens wait (R271). A program without a matrix unit faults
(R451). -/
def State.mtxWaits (s : State) (i : Instr) : State :=
  if s.cur.agent.slot.isNone then s.attempt (inputsOf i) (prOf i) fun _ _ _ st => st.raise fcAccess else s


/-- MRES (R278). -/
def execMres (p : Pred) (rec : BitVec 6) (gran : BitVec 8) (f : RecFmt) (k : BitVec 6) (s : State) :
    Host.Outcome State Fault Refusal :=
  go (match s.cur.phase with
    | .seal => s.sealMres (.mres p rec gran f k) rec.toNat
    | _ => s.mtxWaits (.mres p rec gran f k))

/-- MREL (R279). -/
def execMrel (p : Pred) (rec : Option (BitVec 6)) (tile : Option (BitVec 2)) (s : State) : Host.Outcome State Fault Refusal :=
  go (match s.cur.phase with
    | .seal => s.sealMrel (.mrel p rec tile)
    | _ => s.mtxWaits (.mrel p rec tile))

/-- MLD: formed at the seal, performed at its LSID (R275, R281). -/
def execMld (p : Pred) (src : LdSrc) (l : BitVec 5) (rec : BitVec 6) (wait : Option (BitVec 3)) (s : State) :
    Host.Outcome State Fault Refusal :=
  go (match s.cur.phase with
    | .seal => s.sealMld (.mld p src l rec wait) l.toNat
    | .two => s.performMld rec.toNat false wait
    | .one => s.mtxWaits (.mld p src l rec wait))

/-- MLD.kv (R275, R282). -/
def execMldKv (p : Pred) (l : BitVec 5) (rec : BitVec 6) (wait : Option (BitVec 3)) (s : State) :
    Host.Outcome State Fault Refusal :=
  go (match s.cur.phase with
    | .seal => s.sealMldKv (.mldKv p l rec wait) l.toNat
    | .two => s.performMld rec.toNat true wait
    | .one => s.mtxWaits (.mldKv p l rec wait))

/-- MZERO (R284). -/
def execMzero (p : Pred) (tile : BitVec 2) (s : State) : Host.Outcome State Fault Refusal :=
  go (match s.cur.phase with
    | .seal => s.sealMzero (.mzero p tile) tile.toNat
    | _ => s.mtxWaits (.mzero p tile))

/-- Columns of an N field. -/
def colsOf (n : BitVec 5) : Nat := 8 * (n.toNat + 1)

/-- MMA (R285). -/
def execMma (p : Pred) (a b : BitVec 6) (tile : BitVec 2) (col n : BitVec 5) (s : State) : Host.Outcome State Fault Refusal :=
  go (match s.cur.phase with
    | .seal => s.sealMma (.mma p a b tile col n) a.toNat b.toNat tile.toNat (8 * col.toNat) (colsOf n)
    | _ => s.mtxWaits (.mma p a b tile col n))

/-- MMAG (R286). -/
def execMmag (p : Pred) (a b : BitVec 6) (tile : BitVec 2) (col n : BitVec 5) (rg2 : Bool) (s : State) :
    Host.Outcome State Fault Refusal :=
  go (match s.cur.phase with
    | .seal => s.sealMmag (.mmag p a b tile col n rg2) a.toNat b.toNat tile.toNat (8 * col.toNat) (colsOf n) (if rg2 then 2 else 1)
    | _ => s.mtxWaits (.mmag p a b tile col n rg2))

/-- MSCALE (R287). -/
def execMscale (p : Pred) (exp2 : Bool) (tile : BitVec 2) (col n : BitVec 5) (s : State) : Host.Outcome State Fault Refusal :=
  go (match s.cur.phase with
    | .seal => s.sealMscale (.mscale p exp2 tile col n) exp2 tile.toNat (8 * col.toNat) (colsOf n)
    | _ => s.mtxWaits (.mscale p exp2 tile col n))

/-- MRED (R288). -/
def execMred (p : Pred) (op : MRedOp) (tile : BitVec 2) (col n : BitVec 5) (t1 t0 : Target) (s : State) :
    Host.Outcome State Fault Refusal :=
  go (match s.cur.phase with
    | .seal => s.sealMred (.mred p op tile col n t1 t0) op tile.toNat (8 * col.toNat) (colsOf n)
    | _ => s.mtxWaits (.mred p op tile col n t1 t0))

/-- MST (R275, R289). -/
def execMst (p : Pred) (f : StFmt) (l : BitVec 5) (wait : Option (BitVec 3)) (tile : BitVec 2) (col n : BitVec 5) (s : State) :
    Host.Outcome State Fault Refusal :=
  go (match s.cur.phase with
    | .seal => s.sealMst (.mst p f l wait tile col n) l.toNat
    | .two => s.performMst f wait tile.toNat (8 * col.toNat) (colsOf n)
    | .one => s.mtxWaits (.mst p f l wait tile col n))

/-- MSORT (R290). -/
def execMsort (p : Pred) (asc mag : Bool) (ixt : Option (BitVec 2)) (tile : BitVec 2) (col n : BitVec 5) (s : State) :
    Host.Outcome State Fault Refusal :=
  go (match s.cur.phase with
    | .seal => s.sealMsort (.msort p asc mag ixt tile col n) asc mag (ixt.map (·.toNat)) tile.toNat (8 * col.toNat) (colsOf n)
    | _ => s.mtxWaits (.msort p asc mag ixt tile col n))

/-- MTOPK (R290). -/
def execMtopk (p : Pred) (k : BitVec 5) (mag : Bool) (ixt : Option (BitVec 2)) (tile : BitVec 2) (col n : BitVec 5)
    (t1 t0 : Target) (s : State) : Host.Outcome State Fault Refusal :=
  go (match s.cur.phase with
    | .seal => s.sealMtopk (.mtopk p k mag ixt tile col n t1 t0) (k.toNat + 1) mag (ixt.map (·.toNat)) tile.toNat
        (8 * col.toNat) (colsOf n)
    | _ => s.mtxWaits (.mtopk p k mag ixt tile col n t1 t0))

/-- ASCORE (R291). -/
def execAscore (p : Pred) (causal : Bool) (q k : BitVec 6) (tile : BitVec 2) (col : BitVec 2) (s : State) :
    Host.Outcome State Fault Refusal :=
  go (match s.cur.phase with
    | .seal => s.sealAscore (.ascore p causal q k tile col) causal q.toNat k.toNat tile.toNat (64 * col.toNat)
    | _ => s.mtxWaits (.ascore p causal q k tile col))

/-- AMASS (R275, R292). -/
def execAmass (p : Pred) (exp2 : Bool) (l : BitVec 5) (k : BitVec 6) (wait : Option (BitVec 3)) (tile : BitVec 2)
    (col : BitVec 2) (s : State) : Host.Outcome State Fault Refusal :=
  go (match s.cur.phase with
    | .seal => s.sealAmass (.amass p exp2 l k wait tile col) l.toNat
    | .two => s.performAmass exp2 k.toNat wait tile.toNat (64 * col.toNat)
    | .one => s.mtxWaits (.amass p exp2 l k wait tile col))

/-- The effect at the seal of an MTX instruction. -/
def sealInstr (i : Instr) (s : State) : State :=
  match i with
  | .mres _ rec _ _ _ => s.sealMres i rec.toNat
  | .mrel _ _ _ => s.sealMrel i
  | .mld _ _ l _ _ => s.sealMld i l.toNat
  | .mldKv _ l _ _ => s.sealMldKv i l.toNat
  | .mzero _ tile => s.sealMzero i tile.toNat
  | .mma _ a b tile col n => s.sealMma i a.toNat b.toNat tile.toNat (8 * col.toNat) (colsOf n)
  | .mmag _ a b tile col n rg2 => s.sealMmag i a.toNat b.toNat tile.toNat (8 * col.toNat) (colsOf n) (if rg2 then 2 else 1)
  | .mscale _ exp2 tile col n => s.sealMscale i exp2 tile.toNat (8 * col.toNat) (colsOf n)
  | .mred _ op tile col n _ _ => s.sealMred i op tile.toNat (8 * col.toNat) (colsOf n)
  | .mst _ _ l _ _ _ _ => s.sealMst i l.toNat
  | .msort _ asc mag ixt tile col n => s.sealMsort i asc mag (ixt.map (·.toNat)) tile.toNat (8 * col.toNat) (colsOf n)
  | .mtopk _ k mag ixt tile col n _ _ => s.sealMtopk i (k.toNat + 1) mag (ixt.map (·.toNat)) tile.toNat (8 * col.toNat) (colsOf n)
  | .ascore _ causal q k tile col => s.sealAscore i causal q.toNat k.toNat tile.toNat (64 * col.toNat)
  | .amass _ _ l _ _ _ _ => s.sealAmass i l.toNat
  | _ => s

/-! ## Sealing and executing a seal -/

/-- Every member has a decided part in every MTX instruction: its inputs are there, or its path never
produces them (R201, R271). -/
def State.mtxDecided (s : State) (a : Agent) (p : Pass) : Bool :=
  let ws := s.block p.img p.blk
  let dead := deadInstrs ws p
  (instrsOf ws).all (fun e => match encodeFields e.2 with
    | some f => f.cls != .mtx || s.matched a p e.1 || dead.contains e.1
    | none => true)

/-- Phase one of a thread of a round with an MTX clause is complete: it has delivered every output but those that the
matrix unit gives, and its reads have returned (R45, R237, R271). -/
def State.sealReady (s : State) (c rk u : Nat) : Bool :=
  let ws := s.block (s.inst c (s.round c rk).inst).img (s.inst c (s.round c rk).inst).blk
  match s.roundPass c rk u with
  | some p => !p.two && s.outputsDone (.fab c u) ws p (s.mtxFeeds c (s.round c rk).activeSet ws u p)
      && s.readsBack (.fab c u) ws p && s.mtxDecided (.fab c u) p && (s.gang (s.gangOf c u)).frozen = .no
  | none => false

/-- The threads of such a round that have completed phase one: what has not reached their stations is decided (R197,
R201). A violated one is discarded at the seal instead. -/
def State.closeReady (s : State) (c rk : Nat) : State :=
  ((s.round c rk).activeSet.filter (s.sealReady c rk)).foldl (fun (st : State) u => match st.roundPass c rk u with
    | some p => if p.violated then st else st.endPhaseOne c u p
    | none => st) s

/-- ROUND_SEAL: every thread of the active set has delivered its outputs but those that the matrix unit
gives, and its reads have returned; the seal is the first step of phase two for each (R237, R271). A violated pass is
discarded first (R46), and one that an MTX instruction would give a register a second value faults (R177). -/
def execRoundSeal (core round : Nat) (s : State) : Host.Outcome State Fault Refusal :=
  let r := s.round core round
  let x := s.inst core r.inst
  let ws := s.block x.img x.blk
  go (if s.heldCore core || r.activeSet.isEmpty || !hasMtx ws then s
    else if !r.pending.isEmpty || x.admitting = some round || !r.activeSet.all (s.sealReady core round) then
      s.closeReady core round
    else
      let bad := r.activeSet.filter (fun u => match s.roundPass core round u with | some p => p.violated | none => false)
      let twice := r.activeSet.filterMap (fun u => (s.roundPass core round u).bind (fun p =>
        (lvwTwice p (lvwFeeds ws p ++ s.mtxFeeds core r.activeSet ws u p)).map (u, ·)))
      if !bad.isEmpty then bad.foldl (fun st u => st.discardViolated (.fab core u)) s
      else if !twice.isEmpty then twice.foldl (fun st e => st.fault (.fab core e.1) (some e.2) fcDupout) s
      else
        let s := r.activeSet.foldl (fun st u =>
          let st := match st.passOf (.fab core u) with | some p => st.endPhaseOne core u p | none => st
          let st := st.updPass (.fab core u) (fun p => { p with two := true })
          st.setThread core u { st.thread core u with st := .commit }) s
        s.setCore core { s.core core with seals := (s.core core).seals ++ [{ round, members := r.activeSet }] })

/-- Whether a seal holds an MMAG with members, and at which indices. -/
def mmagsOf (items : List (Nat × Instr × List Mtm)) : List Nat :=
  items.filterMap (fun e => match e.2.1 with | .mmag .. => some e.1 | _ => none)

/-- One instruction of the first seal of a core takes effect. -/
def State.runSealItem (s : State) (x : SealAt) (e : Nat × Instr × List Mtm) : State :=
  let t := (e.2.2.head?.map (·.slot)).getD 0
  sealInstr e.2.1 { s with cur := { agent := s.threadAgent x.core t, idx := e.1, phase := .seal } }

/-- A seal has executed: its tokens are used, it is counted, its members go on to LSID order (R271). -/
def State.endSeal (s : State) (x : SealAt) (items : List (Nat × Instr × List Mtm)) : State :=
  let ten := match x.members with | t :: _ => some (s.tenantOf (.fab x.core t)) | [] => none
  let s := items.foldl (fun st e => e.2.2.foldl (fun st m => st.useMember x.core e.1 e.2.1 m.slot) st) s
  let s := x.members.foldl (fun st t =>
    (st.updPass (st.threadAgent x.core t) (fun p => { p with sealed := true }))) s
  let s := x.members.foldl (fun st t => match st.passOf (.fab x.core t) with
    | some p => match p.inst with
      | some i => (st.settleLane x.core i p.lane).freeFrames x.core i
      | none => st
    | none => st) s
  (s.dropSeal x).count x.core 0x01B ten

/-- SEAL_EXECUTE: the first seal of the core is checked whole, then takes effect in clause and index order
(R273). A seal with an MMAG waits for its gang (R286). -/
def execSealExecute (core : Nat) (s : State) : Host.Outcome State Fault Refusal :=
  go (match s.sealAt core with
    | none => s
    | some x =>
      let items := s.sealItems x
      if s.heldCore core || !(mmagsOf items).isEmpty then s
      else match s.sealFails x (fun c => s.mtx c) (s.mtx core) items with
        | some (idx, sub) => s.parkSeal x idx sub
        | none => (items.foldl (fun st e => st.runSealItem x e) s).endSeal x items)

/-- MMAG_EXECUTE: the rounds of all workgroups of the gang have sealed at the same instructions; their
seals are checked together and take effect index by index (R286). -/
def execMmagExecute (gang : Nat) (s : State) : Host.Outcome State Fault Refusal :=
  let ms := (s.gang gang).members
  let seals := ms.filterMap (fun m => (s.sealAt m.core).bind (fun x =>
    if x.wg = m.base then some (x, s.sealItems x) else none))
  let idxs := seals.map (fun e => mmagsOf e.2)
  go (if ms.isEmpty || seals.length != ms.length || idxs.any (fun l => l.isEmpty || l != idxs.headD [])
        || ms.any (fun m => s.heldCore m.core) then s
    else match seals.findSome? (fun e => s.sealFails e.1 (fun c => s.mtx c) (s.mtx e.1.core) e.2) with
      | some (idx, sub) => seals.foldl (fun st e => st.parkSeal e.1 idx sub) s
      | none =>
        let s := (List.range 128).foldl (fun st idx =>
          seals.foldl (fun st e => match e.2.find? (·.1 = idx) with
            | some it => st.runSealItem e.1 it
            | none => st) st) s
        seals.foldl (fun st e => st.endSeal e.1 e.2) s)

end Sys2Proof.Machine
end

