-- ==== Sys2Proof/Machine/Eng.lean ====
section
/-! DEFINITION. Class ENG but for the spillway (R314 to R324): copies, culverts, collectives, task tokens
and launch pushes. -/

namespace Sys2Proof.Machine

/-! ## One step over several lines -/

/-- Every range translated, its line free, and where `rd` holds also read: free of poison, under the read right (R352). -/
def State.engAll (s : State) (ctx : Nat) (k : Cmd) (rt : Right) (rd : Bool) : List (Nat × Nat) → EngAll
  | [] => .ok []
  | (va, n) :: rest =>
    match s.engAt ctx k va n rt, if rd then s.engAt ctx k va n .read else .ok 0 with
    | .wait s, _ | _, .wait s => .wait s
    | .stop code, _ | _, .stop code => .stop code va
    | .ok pa, .ok _ => match State.engAll s ctx k rt rd rest with
      | .ok ps => .ok (pa :: ps)
      | e => e

/-- The command's decision stands before it again. (log 11, DEDUCED) -/
def State.again (s : State) (ctx n : Nat) : State := s.updHead ctx (fun k => { k with todo := .decide n :: k.todo })

/-- Decision `n` acts on several ranges in one step, once all of them can be reached. -/
def State.engDo (s : State) (ctx n : Nat) (k : Cmd) (rt : Right) (rd : Bool) (rs : List (Nat × Nat))
    (f : List Nat → State → State) : State :=
  let s := s.again ctx n
  match s.engAll ctx k rt rd rs with
  | .ok pas => f pas (((s.engEndReq ctx).engTouches ctx k (rs.map (·.1))).updHead ctx popOp)
  | .wait s => s
  | .stop code va => s.engStop ctx code va

/-- Bytes an engine writes at their homes in one step: each line's version advances by one, and its
completion time joins the command's (R241, R247, R365). -/
def State.engPut (s : State) (ctx : Nat) (ws : List (Nat × List Byte)) : State :=
  let ten := (s.headCmd ctx).map (·.tenant)
  let lines := (ws.map (fun w => lineOf w.1)).eraseDups
  lines.foldl (fun st line =>
    let bytes := (ws.filter (fun w => lineOf w.1 = line)).flatMap (fun w => lineBytes w.1 w.2)
    let st := (st.performAt line bytes).countDie (homeDie line) 0x10B ten
    let time := st.completion line
    st.updHead ctx (fun k =>
      let r := st.noteTime (ctxDie ctx) (homeDie line) time k.horizon k.far
      { k with horizon := r.1, far := r.2 })) s

/-- The pieces that a command does next. -/
def State.engTodo (s : State) (ctx : Nat) (ops : List EOp) : State :=
  s.updHead ctx (fun k => { k with todo := ops ++ k.todo })

/-! ## Performing -/

/-- Context code of engine `e` of a die: 0 to 3 copy, 4 collective, 5 spillway. -/
def engCtx (d e : Nat) : Nat := if e < 4 then ctxCopy d e else if e = 4 then ctxColl d else ctxSpill d

/-- A command enters the queue of engine `e`, in the entry that admission reserved; a program without
admission waits for one (R36, R314). -/
def State.enterQueue (s : State) (k e cap : Nat) (w : Option (BitVec 3)) (c : Cmd) : State :=
  let a := s.cur.agent
  let g := s.engine a.die e
  if a.slot.isNone && cap ≤ g.queue.length + g.rsv then s
  else
    let s := if a.slot.isSome then (s.setEngine a.die e { g with rsv := g.rsv - 1 }).useRsv a (resEngine e) else s
    (s.enqueue (engCtx a.die e) w c).setPerformed k

/-- A command whose work needs nothing read at its perform performs (R245, R314). -/
def State.performEng (s : State) (sc : Scope) (e cap : Nat) (w : Option (BitVec 3)) (i : Instr)
    (f : Op → Cmd → Cmd) : State :=
  match s.curOp with
  | none => s
  | some (k, o) => s.afterRelease sc k fun s => s.enterQueue k e cap w (f o (s.newCmd i o.l o.r))

/-- A descriptor read at the perform of an operation. -/
inductive DescAt where
  | bytes (bs : List Byte)
  | bad (code : Nat)
  | wait (s : State)
  deriving Repr

/-- The pieces of a descriptor, line by line. -/
def State.descPieces (s : State) (k : Nat) : List (Nat × Nat) → DescAt
  | [] => .bytes []
  | (va, n) :: rest =>
    match s.resolve s.cur.agent s.cur.idx va n .read false with
    | .fault code => .bad code
    | .miss => .wait (s.awaitXlate va k)
    | .ok pa =>
      if !s.lineOpen s.cur.agent.die (lineOf pa) then .wait (s.awaitPlace va pa n k)
      else if s.poisonAt pa n then .bad fcPoison
      else match State.descPieces s k rest with
        | .bytes bs => .bytes (readBytes s.mem pa n ++ bs)
        | e => e

/-- The private aperture is no place for an engine (R317). (log 20, DEDUCED) -/
def inPrivate (va : Nat) : Bool := privateVa ≤ va && va < reservedVa

/-- `n` bytes at opL as an engine read of the performing operation; `waiting` above 0 keeps the code with
which a translation of it has failed. (log 20, DEDUCED) (log 40, DEDUCED) -/
def State.descAt (s : State) (k : Nat) (o : Op) (n align : Nat) : DescAt :=
  let va := va57 o.l.toNat
  if o.waiting != 0 then .bad (o.waiting - 1)
  else if va % align != 0 || inPrivate va then .bad fcAccess
  else s.descPieces k (linePieces va n)

/-- The levels of translation note a descriptor's accesses (R353). -/
def State.touchDesc (s : State) (o : Op) (n : Nat) : State :=
  s.touchAll s.cur.agent s.cur.idx (linePieces (va57 o.l.toNat) n)

/-- A command performs with the descriptor it reads then; one it cannot read fails it (R318, R364). -/
def State.performDesc (s : State) (sc : Scope) (e cap : Nat) (w : Option (BitVec 3)) (i : Instr) (n align : Nat)
    (todo : List EOp) : State :=
  match s.curOp with
  | none => s
  | some (k, o) => s.afterRelease sc k fun s =>
      let c := s.newCmd i o.l o.r
      match s.descAt k o n align with
      | .wait s => s
      | .bad _ => s.enterQueue k e cap w (cmdFails c)
      | .bytes bs => ((s.touchDesc o n).endXlate s.cur.agent s.cur.idx).enterQueue k e cap w { c with buf := bs, todo }

/-- An ENG instruction whose operands are checked only later delivers its operation (R105). -/
def State.issueEng (s : State) (ins : List Field) (pr lsid : Nat) : State :=
  s.fire ins pr fun l r _ st => st.deliverOp lsid { l, r }

/-! ## CPY (R317) -/

/-- First and last byte of a range. -/
def rangeEnds (va n : Nat) : List (Nat × Nat) :=
  if n = 0 then [] else [(va57 va, 1), (va57 (va + n - 1), 1)]

/-- The first and the last byte of each range are translated and checked (R206, R317). -/
def State.issueCopy (s : State) (ins : List Field) (pr : Nat) (l r : W64) (rd wr : List (Nat × Nat)) (lsid : Nat) : State :=
  let a := s.cur.agent
  match (rd ++ wr).find? (fun e => inPrivate e.1) with
  | some e => s.raise fcAccess 0 e.1
  | none =>
    match s.resolveAll a s.cur.idx .read false rd, s.resolveAll a s.cur.idx .write false wr with
    | .fault c x, _ => s.raise c 0 x
    | _, .fault c x => s.raise c 0 x
    | .miss x, _ => s.awaitXlate x lsid
    | _, .miss x => s.awaitXlate x lsid .write
    | .ok _, .ok _ => ((s.touchAll a s.cur.idx (rd ++ wr)).taken ins pr).deliverOp lsid { l, r }

/-- CPY in mode 00 (R317). (log 58, DEDUCED) -/
def execCpy (p : Pred) (sc : Scope) (l : BitVec 5) (wait : Option (BitVec 3)) (e : BitVec 2) (k : BitVec 6) (s : State) :
    Host.Outcome State Fault Refusal :=
  let n := (constWord s.consts k.toNat).toNat
  go (match s.cur.phase with
    | .one => s.attempt [.L, .R] p.code fun x y _ st =>
        st.issueCopy [.L, .R] p.code x y (rangeEnds x.toNat n) (rangeEnds y.toNat n) l.toNat
    | _ => s.performEng sc e.toNat 64 wait (.cpy p sc l wait e k) fun o c =>
        if n = 0 then c else { c with todo := readOps (va57 o.l.toNat) n ++ [.decide 0] })

/-- What CPY does with the bytes it has read: it writes them (R317). (log 58, DEDUCED) -/
def State.decideCpy (s : State) (ctx : Nat) (k : Cmd) : State :=
  (s.updHead ctx (fun k => { k with buf := [] })).engTodo ctx (writeOps (va57 k.r.toNat) k.buf)

/-! ## Culverts (R319, R320) -/

/-- Bytes of an entry of culvert `cv` of the launch of the executing agent. -/
def State.culvertBytes (s : State) (a : Agent) (cv : Nat) : Nat :=
  match a.slot with
  | some t => (mgetD s.culverts (culvertKey (s.seqOf a.core t) cv) {}).entry
  | none => 0

def State.culvert (s : State) (key : Nat) : Culvert := mgetD s.culverts key {}
def State.setCulvert (s : State) (key : Nat) (x : Culvert) : State := { s with culverts := mput s.culverts key x }

/-- Entries that the front of a culvert holds (R319). -/
def frontLen (x : Culvert) : Nat := max 1 (min 65536 (x.cap * x.entry) / x.entry)

/-- Where entry `n` of a culvert stands in its ring, and where a receive finds it: in the front, as one of the entries
next to be received (R319). (log 71, DESIGN CHOICE) -/
def culvertAt (x : Culvert) (n : Nat) : Nat := x.base + n % x.cap * x.entry
def frontAt (x : Culvert) (n : Nat) : Option Nat := x.front.map (· + n % frontLen x * x.entry)

/-- Entry `n` enters the front once it is one of the next to be received, with the poison that its bytes carry
(R216, R319). -/
def State.fillFront (s : State) (x : Culvert) (n : Nat) : State :=
  match frontAt x n with
  | none => s
  | some a =>
    if x.written ≤ n || x.read + frontLen x ≤ n then s
    else
      let from_ := culvertAt x n
      let s' := (splitLines a (readBytes s.mem from_ x.entry)).foldl (fun (st : State) p => st.storeUnit p.1 p.2) s
      (List.range (ceilDiv x.entry 16)).foldl (fun (st : State) i =>
        if s.poisonAt (from_ + 16 * i) 16 then st.poisonUnit .dieScratch (a + 16 * i) else st) s'

/-- The command keeps the credit that admission reserved until it completes (R319, R320). -/
def State.keepCredit (s : State) (cv : Nat) : State := s.useRsv s.cur.agent (resCulvert cv)

/-- CPY.send (R320). Its LSID has performed when the command enters its context's queue, as R314 says of an engine
command, and not when the engine writes the entry, as R47's row for a culvert send could be read.
(log 74, DESIGN CHOICE) -/
def execCpySend (p : Pred) (sc : Scope) (l : BitVec 5) (wait : Option (BitVec 3)) (e : BitVec 2) (cv : BitVec 6) (s : State) :
    Host.Outcome State Fault Refusal :=
  let n := s.culvertBytes s.cur.agent cv.toNat
  go (match s.cur.phase with
    | .one => s.attempt [.L] p.code fun x _ _ st =>
        if st.cur.agent.slot.isNone then st.raise fcAccess
        else st.issueCopy [.L] p.code x 0 (rangeEnds x.toNat n) [] l.toNat
    | _ => match s.curOp with
      | none => s
      | some (k, o) => s.afterRelease sc k fun s => (s.keepCredit cv.toNat).enterQueue k e.toNat 64 wait
          { s.newCmd (.cpySend p sc l wait e cv) o.l o.r with todo := readOps (va57 o.l.toNat) n ++ [.decide 0] })

/-- A send ends, once the die of the ring is reached: the entry stands in the ring, and in the front where it is one of
the next, and the write count advances, in one step (R13, R319, R320). -/
def State.decideSend (s : State) (ctx cv : Nat) (k : Cmd) : State :=
  let key := culvertKey k.seq cv
  let x := s.culvert key
  let y := { x with written := x.written + 1, rsv := x.rsv - 1 }
  let at_ := culvertAt x x.written
  if !s.engCrossed ctx { pa := at_, len := x.entry } then (s.again ctx 0).engAsk ctx k at_ { pa := at_, len := x.entry }
  else (((s.engEndReq ctx).engPut ctx (splitLines at_ k.buf)).setCulvert key y).fillFront y x.written

/-- CPY.recv (R320). -/
def execCpyRecv (p : Pred) (sc : Scope) (l : BitVec 5) (wait : Option (BitVec 3)) (e : BitVec 2) (cv : BitVec 6) (s : State) :
    Host.Outcome State Fault Refusal :=
  let n := s.culvertBytes s.cur.agent cv.toNat
  go (match s.cur.phase with
    | .one => s.attempt [.L] p.code fun x _ _ st =>
        if st.cur.agent.slot.isNone then st.raise fcAccess
        else st.issueCopy [.L] p.code x 0 [] (rangeEnds x.toNat (n + 8)) l.toNat
    | _ => s.performEng sc e.toNat 64 wait (.cpyRecv p sc l wait e cv) fun _ c => { c with todo := [.decide 0] })

/-- The steps of a receive: it waits for an entry or for the end, copies the entry from the front and then its status
word, and advances the read count, upon which the next entry enters the front (R319, R320). -/
def State.decideRecv (s : State) (ctx cv n : Nat) (k : Cmd) : State :=
  let key := culvertKey k.seq cv
  let x := s.culvert key
  let dst := va57 k.l.toNat
  let status (v : Nat) : List EOp := writeOps (va57 (dst + x.entry)) (toLE v 8)
  if n = 0 then
    if x.busy then s.again ctx 0
    else if x.read < x.written then
      let at_ := (frontAt x x.read).getD (culvertAt x x.read)
      if s.poisonAt at_ x.entry then (s.again ctx 0).engStop ctx fcPoison at_
      else
        (s.setCulvert key { x with busy := true }).engTodo ctx
          (writeOps dst (readBytes s.mem at_ x.entry) ++ [.drain] ++ status (x.read % 2 ^ 63) ++ [.drain, .decide 1])
    else if x.ended then s.engTodo ctx (status (x.read % 2 ^ 63 + 2 ^ 63))
    else s.again ctx 0
  else
    let y := { x with busy := false, read := x.read + 1 }
    ((s.setCulvert key y).fillFront y (x.read + frontLen x)).wakeCulvert k.seq cv

/-! ## CPYT (R318) -/

/-- CPYT (R318). -/
def execCpyt (p : Pred) (sc : Scope) (l : BitVec 5) (wait : Option (BitVec 3)) (e : BitVec 2) (s : State) :
    Host.Outcome State Fault Refusal :=
  go (match s.cur.phase with
    | .one => s.issueEng [.L] p.code l.toNat
    | _ => s.performDesc sc e.toNat 64 wait (.cpyt p sc l wait e) 32 16 [.decide 1])

/-- Field of `n` bytes at an offset of a descriptor. -/
def fieldAt (bs : List Byte) (o n : Nat) : Nat := leNat ((bs.drop o).take n)

/-- The steps of a CPYT: its descriptor, then for row i a read (number 2 + 2i) and a write (3 + 2i)
(R318). -/
def State.decideCpyt (s : State) (ctx n : Nat) (k : Cmd) : State :=
  if n = 1 then
    let v := [fieldAt k.buf 0 8, fieldAt k.buf 8 8, fieldAt k.buf 16 4, fieldAt k.buf 20 4, fieldAt k.buf 24 4, fieldAt k.buf 28 4]
    let src := va57 (v.getD 0 0)
    let dst := va57 (v.getD 1 0)
    if inPrivate src || inPrivate dst then s.updHead ctx cmdFails
    else
      let todo : List EOp := if v.getD 2 0 = 0 || v.getD 3 0 = 0 then [] else [.decide 2]
      s.updHead ctx (fun k => { k with buf := [], vals := mput k.vals 2 v, todo })
  else
    let v := mgetD k.vals 2 []
    let i := (n - 2) / 2
    if n % 2 = 0 then
      s.engTodo ctx (readOps (va57 (v.getD 0 0 + i * v.getD 4 0)) (v.getD 2 0) ++ [.decide (n + 1)])
    else
      let rest : List EOp := if i + 1 < v.getD 3 0 then [.decide (n + 1)] else []
      (s.updHead ctx (fun k => { k with buf := [] })).engTodo ctx
        (writeOps (va57 (v.getD 1 0 + i * v.getD 5 0)) k.buf ++ rest)

/-! ## COLL (R321) -/

/-- COLL (R321): a misaligned descriptor, or one in the private aperture, fails the command (log 40). -/
def execColl (p : Pred) (sc : Scope) (l : BitVec 5) (wait : Option (BitVec 3)) (s : State) :
    Host.Outcome State Fault Refusal :=
  go (match s.cur.phase with
    | .one => s.issueEng [.L] p.code l.toNat
    | _ => s.performEng sc 4 16 wait (.coll p sc l wait) fun o c =>
        let va := va57 o.l.toNat
        if va % 64 != 0 || inPrivate va then cmdFails c
        else { c with todo := readOps va 64 ++ [.decide 1] })

/-- Bytes of an element of an operation. The spec states no element size for broadcast and gather: it is
a value of the part (log 41). -/
def collBytes (op : Nat) : Nat :=
  if op = 1 then 2 else if op ≤ 3 then 4 else 2 ^ Config.collElemLog.toNat

/-- Fields of a collective descriptor: operation, root, mask, group, sequence, count, source,
destination. -/
def collFields (b : List Byte) : List Nat :=
  [fieldAt b 0 1, fieldAt b 1 1, fieldAt b 2 1, fieldAt b 4 4, fieldAt b 8 8, fieldAt b 16 8,
    va57 (fieldAt b 24 8), va57 (fieldAt b 32 8)]

/-- A descriptor field outside its range (R321). (log 40, DEDUCED) -/
def collBad (d : Nat) (b : List Byte) : Bool :=
  let v := collFields b
  5 < v.getD 0 0 || fieldAt b 3 1 != 0 || fieldAt b 40 24 != 0 || !flag (v.getD 2 0) d
    || (v.getD 0 0 = 4 && (7 < v.getD 1 0 || !flag (v.getD 2 0) (v.getD 1 0)))

/-- The steps of a COLL up to its match: it reads its descriptor and its own source; number 2 waits for
the match, number 3 for the match that fails (R321). -/
def State.decideColl (s : State) (ctx n : Nat) (k : Cmd) : State :=
  let d := ctxDie ctx
  if n = 1 then
    let v := collFields k.buf
    let bad := collBad d k.buf
    let s := s.updHead ctx (fun k => { k with buf := [], vals := mput k.vals 2 v })
    if bad then s.engTodo ctx [.decide 3]
    else
      let reads : List EOp := if v.getD 0 0 = 4 && v.getD 1 0 != d then []
        else readOps (v.getD 6 0) (v.getD 5 0 * collBytes (v.getD 0 0))
      s.engTodo ctx (reads ++ [.decide 2])
  else s.again ctx n

/-- One combining step of a reduction (R202, R321). Its roundings and invalid operations count in no exception
source: no rule names them. (log 75, DESIGN CHOICE) -/
def collStep (op a b : Nat) : Nat :=
  if op = 0 then (Fmt.f32.add .rne a b).bits
  else if op = 1 then (Fmt.bf16.add .rne a b).bits
  else if op = 2 then (a + b) % 2 ^ 32
  else (Fmt.f32.maxNum a b).bits

/-- The identity of a reduction (R202). -/
def collIdentity (op : Nat) : Nat :=
  if op = 0 then 0x80000000 else if op = 1 then 0x8000 else if op = 2 then 0 else 0x7FC00000

/-- What each destination of a match receives, from the sources in die order (R321). -/
def collResult (op count : Nat) (srcs : List (List Byte)) : List Byte :=
  if op < 4 then
    let w := collBytes op
    (List.range count).flatMap (fun i =>
      toLE (srcs.foldl (fun acc b => collStep op acc (fieldAt b (i * w) w)) (collIdentity op)) w)
  else srcs.flatten

/-- What the engine finds at the descriptor of a COLL that stands in a queue and has not started. -/
inductive Peek where
  /-- its group and sequence -/
  | names (group seq : Nat)
  /-- it is no COLL, or its descriptor cannot be read -/
  | nothing
  | wait (s : State)
  deriving Repr

/-- The group and sequence of a COLL that stands in a queue and has not started (R321). -/
def State.queuedColl (s : State) (ctx : Nat) (k : Cmd) : Peek :=
  let va := va57 k.l.toNat
  match k.instr with
  | .coll .. =>
    if k.unread then .nothing else
    match s.engResolve ctx k va 64 .read with
    | .fault _ => .nothing
    | .miss => .wait (s.startWalk (ctxDie ctx) k.tenant va (.eng ctx va) .read)
    | .ok pa =>
      if !s.lineOpen (ctxDie ctx) (lineOf pa) then .wait (s.recallOwner (lineOf pa))
      else let v := collFields (readBytes s.mem pa 64); .names (v.getD 3 0) (v.getD 4 0)
  | _ => .nothing

/-- Commands behind the head of a die's collective context. -/
def State.collsBehind (s : State) (d : Nat) : List Cmd := (((s.context (ctxColl d)).map (·.queue)).getD []).drop 1

/-- A match that has to read a descriptor behind it first waits for that. -/
def State.collWaits (s : State) (dies : List Nat) : Option State :=
  dies.findSome? (fun d => (s.collsBehind d).findSome? (fun k => match s.queuedColl (ctxColl d) k with
    | .wait t => some t
    | _ => none))

/-- The COLLs behind the head of a die's context that name the same match (R321). -/
def State.secondColls (s : State) (d group seq : Nat) : List Cmd :=
  (s.collsBehind d).filter (fun k => match s.queuedColl (ctxColl d) k with
    | .names g q => g = group && q = seq
    | _ => false)

/-- COLLECTIVE_MATCH: every die that a participant names has joined, and circuits join them; the results are on their way
to the destinations, or every command of the match fails (R13, R321). -/
def execCollectiveMatch (group seq : Nat) (s : State) : Host.Outcome State Fault Refusal :=
  let joined := (List.range 8).filterMap (fun d => match s.headCmd (ctxColl d) with
    | some k =>
      let v := mgetD k.vals 2 []
      if (k.todo = [.decide 2] || k.todo = [.decide 3]) && !k.stopped && v.getD 3 0 = group && v.getD 4 0 = seq
      then some (d, k, v) else none
    | none => none)
  let all := joined.foldl (fun m j => m ||| j.2.2.getD 2 0) 0
  let second (d : Nat) : List Cmd := s.secondColls d group seq
  go (if joined.isEmpty || (List.range 8).any (fun d => flag all d && joined.all (·.1 != d))
        || joined.any (fun j => s.engHeld (ctxColl j.1) || joined.any (fun k => !s.linked j.1 k.1)) then s
    else if let some t := s.collWaits (joined.map (·.1)) then t
    else
      let same (v : List Nat) : List Nat := v.take 6
      let v := (joined.head?.map (·.2.2)).getD []
      let bad := joined.any (fun j => j.2.1.todo = [.decide 3] || same j.2.2 != same v || !(second j.1).isEmpty)
      if bad then joined.foldl (fun st j =>
          match st.context (ctxColl j.1) with
          | some g =>
            let nos := (second j.1).map (·.no)
            st.setContext (ctxColl j.1) { g with queue := g.queue.zipIdx.map (fun e =>
              if e.2 = 0 || nos.contains e.1.no then cmdFails e.1 else e.1) }
          | none => st) s
      else
        let op := v.getD 0 0
        let srcs := (joined.filter (fun j => op != 4 || j.1 = v.getD 1 0)).map (·.2.1.buf)
        let data := collResult op (v.getD 5 0) srcs
        joined.foldl (fun st j => st.updHead (ctxColl j.1) (fun k =>
          { k with buf := [], todo := writeOps (j.2.2.getD 7 0) data })) s)

/-! ## TSEND (R322) -/

/-- The token of a TSEND. -/
def tsendTok (l r : W64) : TaskTok :=
  { id := bitsOf l.toNat 31 0, slot := bitsOf r.toNat 7 0, val := BitVec.ofNat 32 (bitsOf r.toNat 63 32), err := false }

/-- TSEND (R322). -/
def execTsend (p : Pred) (sc : Scope) (l : BitVec 5) (s : State) : Host.Outcome State Fault Refusal :=
  go (match s.cur.phase with
    | .one => s.issueEng [.L, .R] p.code l.toNat
    | _ => match s.curOp with
      | none => s
      | some (k, o) => s.afterRelease sc k fun s =>
          let a := s.cur.agent
          let x := s.die a.die
          if a.slot.isNone && 64 ≤ x.taskq.length + x.taskRsv then s
          else
            let rsv := if a.slot.isSome then x.taskRsv - 1 else x.taskRsv
            ((s.setDie a.die { x with taskq := x.taskq ++ [tsendTok o.l o.r], taskRsv := rsv }).useRsv a resTask).setPerformed k)

/-! ## Launch queues (R323, R324) -/

def lqReg (q o : Nat) : Nat := 0x1000 + 0x40 * q + o
/-- Entries of the ring of a launch queue. -/
def State.lqDepth (s : State) (q : Nat) : Nat := 2 ^ (min (s.reg (lqReg q 8) % 16) 8 + 4)
/-- Entries a launch queue holds. -/
def State.lqHeld (s : State) (q : Nat) : Nat := s.reg (lqReg q 0x18) % 2 ^ 13
/-- Address of the ring entry at the tail. -/
def State.lqTail (s : State) (q : Nat) : Nat :=
  s.reg (lqReg q 0) + 64 * ((s.reg (lqReg q 0x20) + s.lqHeld q) % s.lqDepth q)

/-- Key of what the device keeps beside entry `n` of a queue. -/
def lqKey (q n : Nat) : Nat := 2 ^ 32 * q + n % 2 ^ 32

/-- 64 bytes enter the ring at its tail as an engine write; the entry's dispatch waits for the host writes that the
port had accepted before (R243, R323). -/
def State.lqAppend (s : State) (q : Nat) (bs : List Byte) (after : Map Nat) : State :=
  let x : LqEntry := { no := s.lqCount, after }
  let s := s.countDie (homeDie (lineOf (s.lqTail q))) 0x10B (some (bitsOf (s.reg (lqReg q 8)) 9 4))
  let s : State := { s.writeHome (s.lqTail q) bs with
    lqEntries := mput s.lqEntries (lqKey q (s.reg (lqReg q 0x20) + s.lqHeld q)) x, lqCount := s.lqCount + 1 }
  s.setReg (lqReg q 0x18) (s.reg (lqReg q 0x18) + 1)

/-- An operation without a result that fails in phase two leaves a deferred fault with its launch (R324,
R406). -/
def State.deferOp (s : State) (i : Instr) (o : Op) (code : Nat) : State :=
  let a := s.cur.agent
  let seq := match a.slot with | some t => s.seqOf a.core t | none => 0
  s.deferFault { agent := a, gang := 0, seq, instr := i, op := o, tenant := s.tenantOf a } code 0 (va57 o.l.toNat) false

/-- The perform of a LAUNCH after its release (R324), behind the host pushes of its queue that arrived earlier (R323). -/
def State.pushLaunch (s : State) (k : Nat) (o : Op) (i : Instr) (q : Nat) : State :=
  let a := s.cur.agent
  let used (s : State) : State :=
    if a.slot.isSome then ({ s with lqRsv := mput s.lqRsv q (mgetD s.lqRsv q 0 - 1) } : State).useRsv a (resQueue q) else s
  match s.descAt k o 64 64 with
  | .wait s => s
  | .bad code => (((used s).deferOp i o code).wakeAll (· == .reserve (resQueue q))).setPerformed k
  | .bytes bs =>
    if a.slot.isNone && s.lqDepth q ≤ s.lqHeld q + mgetD s.lqRsv q 0 then s
    else if s.pushes.any (·.q = q) then s
    else if !s.lineOpen a.die (lineOf (s.lqTail q)) then s.recallOwner (lineOf (s.lqTail q))
    else (((used (s.touchDesc o 64)).lqAppend q bs s.hostTimes).endXlate a s.cur.idx).setPerformed k

/-- LAUNCH (R324). -/
def execLaunch (p : Pred) (sc : Scope) (l : BitVec 5) (lq : BitVec 6) (s : State) : Host.Outcome State Fault Refusal :=
  go (match s.cur.phase with
    | .one => s.issueEng [.L] p.code l.toNat
    | _ => match s.curOp with
      | none => s
      | some (k, o) => s.afterRelease sc k fun s => s.pushLaunch k o (.launch p sc l lq) lq.toNat)

end Sys2Proof.Machine
end

