-- ==== Sys2Proof/Machine/Spill.lean ====
section
/-! DEFINITION. The spillway (R360 to R370): its five commands, the retire ring, and the switch of a
compaction. -/

namespace Sys2Proof.Machine

/-! ## Pools (R360, R361) -/

/-- The fields of a pool descriptor. -/
structure Pool where
  base : Nat
  count : Nat
  heads : Nat
  dim : Nat
  fmt : Nat
  bytes : Nat
  freeRing : Nat
  freeN : Nat
  pushed : Nat
  taken : Nat
  grace : Nat
  retRing : Nat
  retN : Nat
  retPushed : Nat
  retired : Nat
  seqs : Nat
  seqN : Nat
  deriving DecidableEq, Repr

def poolOf (b : List Byte) : Pool :=
  { base := fieldAt b 0 8, count := fieldAt b 8 4, heads := fieldAt b 0xC 2, dim := fieldAt b 0xE 2,
    fmt := fieldAt b 0x10 1, bytes := fieldAt b 0x14 4, freeRing := fieldAt b 0x18 8, freeN := fieldAt b 0x20 4,
    pushed := fieldAt b 0x28 8, taken := fieldAt b 0x30 8, grace := fieldAt b 0x38 2, retRing := fieldAt b 0x40 8,
    retN := fieldAt b 0x48 4, retPushed := fieldAt b 0x50 8, retired := fieldAt b 0x58 8, seqs := fieldAt b 0x60 8,
    seqN := fieldAt b 0x68 4 }

/-- Bytes of an element, and of a row of one head. -/
def Pool.elem (x : Pool) : Nat := if x.fmt = 2 then 1 else 2
def Pool.row (x : Pool) : Nat := x.dim * x.elem
/-- Scale bytes of a row (R229). -/
def Pool.scales (x : Pool) : Nat := if x.fmt = 2 then x.dim / 64 else 0
/-- Address of a page. -/
def Pool.page (x : Pool) (i : Nat) : Nat := x.base + i * x.bytes

/-- A power of two. (log 21, DEDUCED) -/
def isPow2 (n : Nat) : Bool := n != 0 && 2 ^ n.log2 = n

/-- A field of the descriptor is outside its range (R360). (log 21, DEDUCED) -/
def State.poolBad (s : State) (b : List Byte) : Bool :=
  let x := poolOf b
  x.base % 128 != 0 || x.count = 0 || 2 ^ 24 < x.count || x.heads = 0 || 255 < x.heads
    || x.dim < 8 || 512 < x.dim || x.dim % 8 != 0 || (x.fmt = 2 && x.dim % 64 != 0) || 2 < x.fmt
    || fieldAt b 0x11 3 != 0
    || x.bytes != roundUp (1024 + 128 * x.heads * x.row + 128 * x.heads * x.scales) 128
    || x.freeRing % 128 != 0 || !isPow2 x.freeN || x.freeN < x.count || fieldAt b 0x24 4 != 0
    || (s.context x.grace).isNone || fieldAt b 0x3A 6 != 0
    || x.retRing % 128 != 0 || !isPow2 x.retN || x.retN < x.count || fieldAt b 0x4C 4 != 0
    || x.seqs % 32 != 0 || fieldAt b 0x6C 20 != 0

/-- Pieces of one ring range: `n` entries of `w` bytes from count `c` on. -/
def ringAt (ring entries w c n : Nat) : List (Nat × Nat) :=
  (List.range n).map (fun i => (va57 (ring + w * ((c + i) % entries)), w))

/-! ## The retire ring (R369) -/

/-- A command in whose name the spillway looks after a pool of a tenant; tenant 64 stands for physical
addresses. -/
def poolCmd (d tenant : Nat) : Cmd :=
  { instr := .halt .always, agent := if tenant = 64 then .sup d else .fab (d * 16) 0, tenant }

/-- The place of a range for the spillway between its commands: a walk starts, or a recall, where it cannot be reached at
once (R225, R317). -/
def State.poolAt (s : State) (d tenant va n : Nat) (rt : Right) : EngAt :=
  let ctx := ctxSpill d
  match s.engResolve ctx (poolCmd d tenant) va n rt with
  | .fault code => .stop code
  | .miss => .wait (s.startWalk d tenant va (.eng ctx va) rt)
  | .ok pa =>
    if !s.lineOpen d (lineOf pa) then .wait (s.recallOwner (lineOf pa))
    else if rt = .read && s.poisonAt pa n then .stop fcPoison
    else .ok pa

/-- How the spillway reaches a range of a pool: for a command, or between its commands. -/
abbrev Reach := State → Nat → Nat → Right → EngAt

/-- What looking after a retire ring comes to. -/
inductive Retire where
  /-- the head record has moved -/
  | moved (s : State)
  /-- no record may move now -/
  | rest (s : State)
  | wait (s : State)
  | stop (s : State) (code va : Nat)
  deriving Repr

/-- The machine as looking after a ring leaves it. -/
def Retire.state : Retire → State
  | .moved s | .rest s | .wait s | .stop s _ _ => s

/-- A range reached, or what the ring comes to. -/
def reached (s : State) (reach : Reach) (va n : Nat) (rt : Right) (f : Nat → Retire) : Retire :=
  match reach s va n rt with
  | .ok pa => f pa
  | .wait t => .wait t
  | .stop code => .stop s code va

/-- The head record of the retire ring moves into the free-page ring, where its grace value is not above the grace
timeline (R369). The pool and the record are read, and the pool and the free-page ring written (R352). -/
def State.retireOne (s : State) (ctx : Nat) (k : Cmd) (reach : Reach) (pool : Nat) : Retire :=
  reached s reach pool 128 .read fun pa =>
    let x := poolOf (readBytes s.mem pa 128)
    if x.retN = 0 || x.freeN = 0 || x.retired = x.retPushed then .rest s
    else
      let head := va57 (x.retRing + 16 * (x.retired % x.retN))
      let free := va57 (x.freeRing + 4 * (x.pushed % x.freeN))
      reached s reach head 16 .read fun ra =>
      if s.timeline x.grace < readLE s.mem (ra + 8) 8 then .rest s
      else reached s reach free 4 .write fun fa =>
        reached s reach pool 128 .write fun pa =>
          .moved ((s.engTouches ctx k [pool, head, free]).engPut ctx [(fa, readBytes s.mem ra 4), (pa + 0x28, toLE ((x.pushed + 1) % 2 ^ 64) 8),
            (pa + 0x58, toLE ((x.retired + 1) % 2 ^ 64) 8)])

/-- Head records move, one after the other, until none may. -/
def State.retireAll (s : State) (ctx : Nat) (k : Cmd) (reach : Reach) (pool : Nat) : Nat → Retire
  | 0 => .rest s
  | n + 1 => match s.retireOne ctx k reach pool with
    | .moved t => State.retireAll t ctx k reach pool n
    | r => r

/-- The spillway looks after a pool's ring: as many records may move as it holds. -/
def State.retireRing (s : State) (ctx : Nat) (k : Cmd) (reach : Reach) (pool : Nat) : Retire :=
  reached s reach pool 128 .read fun pa =>
    let x := poolOf (readBytes s.mem pa 128)
    s.retireAll ctx k reach pool ((x.retPushed + 2 ^ 64 - x.retired) % 2 ^ 64 + 1)

/-- SPILLWAY_RETIRE: the spillway looks after the ring of a pool that it has met; where it does not reach it, it tries
again (R369). -/
def execSpillwayRetire (die pool : Nat) (s : State) : Host.Outcome State Fault Refusal :=
  go (match (s.die die).pools[pool]? with
    | some e => if s.heldDie die then s else (s.retireRing (ctxSpill die) (poolCmd die e.1) (fun s => s.poolAt die e.1) e.2).state
    | none => s)

/-- A pool that the spillway meets is looked after from then on. -/
def State.notePool (s : State) (d tenant pool : Nat) : State :=
  let x := s.die d
  if x.pools.contains (tenant, pool) then s else s.setDie d { x with pools := x.pools ++ [(tenant, pool)] }

/-! ## Reports (R364) -/

/-- The 32 bytes of a report. (log 42, DEDUCED) -/
def reportBytes (k : Cmd) : List Byte :=
  toLE k.status 4 ++ (List.range 4).flatMap (fun i => toLE (k.report.getD i 0) 4) ++ toLE 0 4
    ++ toLE ((mgetD k.vals 10 []).getD 0 0) 8

/-- The command ends with a status: its report is the last write, after every other has performed. -/
def State.spillEnd (s : State) (ctx status : Nat) (report : List Nat) : State :=
  s.updHead ctx (fun k => { k with status, report, buf := [], todo := [.drain, .decide 91] })

/-! ## What a command has read -/

def blockOf (k : Cmd) : List Nat := mgetD k.vals 2 []
def poolBytes (k : Cmd) : List Byte := (mgetD k.vals 3 []).map (BitVec.ofNat 8)
def cmdPool (k : Cmd) : Pool := poolOf (poolBytes k)
def poolVa (k : Cmd) : Nat := va57 ((blockOf k).getD 0 0)
/-- View address and capacity of the sequence record, and the record's address. -/
def recView (k : Cmd) : Nat := (mgetD k.vals 4 []).getD 0 0
def recCap (k : Cmd) : Nat := (mgetD k.vals 4 []).getD 2 0
def recVa (k : Cmd) : Nat := va57 ((cmdPool k).seqs + 32 * (blockOf k).getD 1 0)
/-- The remap entries and the page list of the view. -/
def remapOf (k : Cmd) : List Nat := mgetD k.vals 5 []
def pagesOf (k : Cmd) : List Nat := mgetD k.vals 6 []
def newPages (k : Cmd) : List Nat := mgetD k.vals 8 []

/-- Page, slot and validity of a remap entry (R361). -/
def remPage (e : Nat) : Nat := bitsOf e 23 0
def remSlot (e : Nat) : Nat := bitsOf e 29 24
def remValid (e : Nat) : Bool := flag e 31

/-- The valid entries of a sequence: position and entry, in increasing position. -/
def tokensOf (k : Cmd) : List (Nat × Nat) :=
  ((remapOf k).zipIdx.filter (fun e => remValid e.1)).map (fun e => (e.2, e.1))

/-- Distinct pages of the valid entries: the pages examined (log 42). -/
def examined (k : Cmd) : Nat := ((tokensOf k).map (fun t => remPage t.2)).eraseDups.length

/-- Address of the metadata entry of a page and slot, and of its line (R229, R230). -/
def metaAt (x : Pool) (page slot : Nat) : Nat := va57 (x.page page + 16 * slot)
def metaLines (x : Pool) (ts : List (Nat × Nat)) : List Nat :=
  (ts.map (fun t => metaAt x (remPage t.2) (remSlot t.2) / 128 * 128)).eraseDups

/-! ## What every spillway command reads first (R365) -/

/-- Offsets of a piece of a line and the words to change, for the tokens in it. -/
def lineTokens (x : Pool) (ts : List (Nat × Nat)) (line : Nat) : List (Nat × Nat) :=
  ts.filter (fun t => metaAt x (remPage t.2) (remSlot t.2) / 128 * 128 = line)

/-- SPLEV once its masses are read (R366): decision 6. -/
def State.evict (s : State) (ctx : Nat) (k : Cmd) : State :=
  let x := cmdPool k
  let lines := mgetD k.vals 7 []
  let ts := tokensOf k
  let b := (blockOf k).getD 2 0
  let w := (blockOf k).getD 3 0
  let n := ts.length
  let cand := (ts.drop (min (bitsOf w 15 0) n)).take (n - min (bitsOf w 15 0) n - min (bitsOf w 31 16) n)
  let mass (t : Nat × Nat) : Nat :=
    let a := metaAt x (remPage t.2) (remSlot t.2)
    fieldAt k.buf (128 * lines.findIdx (· = a / 128 * 128) + a % 128) 4
  let order := cand.insertionSort (fun u v => mass u < mass v ∨ (mass u = mass v ∧ u.1 ≤ v.1))
  let gone := order.take (min (n - b) cand.length)
  let mls := metaLines x gone
  let metaOps : List EOp := mls.flatMap (fun m =>
    let ts := lineTokens x gone m
    [.line m (ts.map (fun t => (metaAt x (remPage t.2) (remSlot t.2) % 128 + 8, WordOp.set 0))), .tally [0, 1, 0, ts.length]])
  let rem (t : Nat × Nat) : Nat := va57 (recView k + 0x80 + 8 * t.1)
  let remOps : List EOp := ((gone.map (fun t => rem t / 128 * 128)).eraseDups).map (fun m => .line m
    ((gone.filter (fun t => rem t / 128 * 128 = m)).map (fun t => (rem t % 128, WordOp.clearBit 31))))
  s.updHead ctx (fun k =>
    let todo : List EOp := metaOps ++ remOps ++ [.line (recVa k) [], .decide decEnd]
    { k with buf := [], report := [examined k, 0, 0, 0], todo })

/-- The commands after the view is read and checked. -/
def State.spillGo (s : State) (ctx : Nat) (k : Cmd) : State :=
  let x := cmdPool k
  let ts := tokensOf k
  let m := (blockOf k).getD 2 0
  let f := (blockOf k).getD 4 0
  match k.instr with
  | .splev .. =>
    let w := (blockOf k).getD 3 0
    let n := ts.length
    if n ≤ m then s.spillEnd ctx 0 [examined k, 0, 0, 0]
    else
      let cand := (ts.drop (min (bitsOf w 15 0) n)).take (n - min (bitsOf w 15 0) n - min (bitsOf w 31 16) n)
      let lines := metaLines x cand
      (s.updHead ctx (fun k => { k with buf := [], vals := mput k.vals 7 lines })).engTodo ctx
        (lines.map (fun l => .read l 128) ++ [.decide 6])
  | .splcmp .. => (s.updHead ctx (fun k => { k with buf := [] })).engTodo ctx [.decide 10]
  | .spldcy .. =>
    let lines := if m = 0 then [] else metaLines x ts
    (s.updHead ctx (fun k => { k with buf := [], vals := mput k.vals 7 lines, report := [examined k, 0, 0, 0] })).engTodo ctx
      [.decide 12]
  | .rmaprd .. =>
    let bytes := (((remapOf k).drop f).take m).flatMap (fun e => toLE e 8)
    (s.updHead ctx (fun k => { k with buf := [], report := [examined k, 0, 0, 0] })).engTodo ctx
      (writeOps (va57 ((blockOf k).getD 3 0)) bytes ++ [.decide decEnd])
  | _ => (s.updHead ctx (fun k => { k with buf := [] })).engTodo ctx
      (readOps (va57 ((blockOf k).getD 3 0)) (8 * m) ++ [.decide 20])

/-- An instruction reads or writes remap entries. -/
def isRmap : Instr → Bool
  | .rmaprd .. => true
  | .rmapwr .. => true
  | _ => false

/-- The first steps of every spillway command: command block (1), pool descriptor (2), sequence record
(3), header and remap table (4), page list (5) (R360, R364, R365, R369). -/
def State.spillRead (s : State) (ctx n : Nat) (k : Cmd) : State :=
  let range (s : State) : State := s.spillEnd ctx 2 [0, 0, 0, 0]
  match n with
  | 1 =>
    let v := [fieldAt k.buf 0 8, fieldAt k.buf 8 4, fieldAt k.buf 0xC 4, fieldAt k.buf 0x10 8, fieldAt k.buf 0x18 8]
    let s := s.updHead ctx (fun k => { k with buf := [], vals := mput k.vals 2 v })
    if v.getD 0 0 % 128 != 0 then range s
    else s.engTodo ctx (readOps (va57 (v.getD 0 0)) 128 ++ [.decide 2])
  | 2 =>
    let go (s : State) : State := s.updHead ctx (fun k => { k with buf := [], vals := mput k.vals 3 (k.buf.map (·.toNat)) })
    if s.poolBad k.buf then range (go s)
    else match s.retireRing ctx k (fun s => s.engAt ctx k) (poolVa { k with vals := mput k.vals 3 (k.buf.map (·.toNat)) }) with
      | .wait s => s.again ctx 2
      | .stop s code va => (s.again ctx 2).engStop ctx code va
      | .moved s | .rest s =>
        let x := poolOf k.buf
        let q := (blockOf k).getD 1 0
        let s := (go (s.engEndReq ctx)).notePool (ctxDie ctx) (if k.agent.slot.isNone then 64 else k.tenant) (poolVa k)
        if x.seqN ≤ q then range s
        else s.engTodo ctx [.readVer (va57 (x.seqs + 32 * q)) 32, .decide 3]
  | 3 =>
    let r := [fieldAt k.buf 0 8, fieldAt k.buf 8 4, fieldAt k.buf 0xC 4]
    let c := r.getD 2 0
    let m := (blockOf k).getD 2 0
    let s := s.updHead ctx (fun k => { k with buf := [], vals := mput k.vals 4 r })
    if c = 0 || 2 ^ 24 < c || r.getD 0 0 % 128 != 0
        || (isRmap k.instr && (c < (blockOf k).getD 4 0 + m || (blockOf k).getD 3 0 % 8 != 0)) then range s
    else s.engTodo ctx (readOps (va57 (r.getD 0 0)) (128 + 8 * c) ++ [.decide 4])
  | 4 =>
    let pages := fieldAt k.buf 0 4
    if (cmdPool k).count < pages then range s
    else s.engTodo ctx (readOps (va57 (recView k + 128 + 8 * recCap k)) (4 * pages) ++ [.decide 5])
  | _ =>
    let c := recCap k
    let remap := (List.range c).map (fun i => fieldAt k.buf (128 + 8 * i) 8)
    let pages := (List.range (fieldAt k.buf 0 4)).map (fun i => fieldAt k.buf (128 + 8 * c + 4 * i) 4)
    let bad := remap.any (fun e => remValid e && ((cmdPool k).count ≤ remPage e || !pages.contains (remPage e)))
    let s := s.updHead ctx (fun k => { k with vals := mput (mput k.vals 5 remap) 6 pages })
    if bad then range s
    else match s.headCmd ctx with
      | some k => s.spillGo ctx k
      | none => s

/-! ## SPLCMP (R367) -/

/-- Step 1: the fresh pages are taken from the free-page ring in one step. -/
def State.takePages (s : State) (ctx : Nat) (k : Cmd) : State :=
  let q := ceilDiv (tokensOf k).length 64
  s.engDo ctx 10 k .write true [(poolVa k, 128)] fun pas s =>
    let pa := pas.headD 0
    let x := poolOf (readBytes s.mem pa 128)
    if (x.pushed + 2 ^ 64 - x.taken) % 2 ^ 64 < q then s.spillEnd ctx 4 [examined k, 0, 0, 0]
    else
      let s := s.again ctx 10
      match s.engAll ctx k .read true (ringAt x.freeRing x.freeN 4 x.taken q) with
      | .wait s => s
      | .stop code va => s.engStop ctx code va
      | .ok ras =>
        let s := ((s.engEndReq ctx).engTouches ctx k ((ringAt x.freeRing x.freeN 4 x.taken q).map (·.1))).updHead ctx popOp
        let pages := ras.map (fun a => readLE s.mem a 4)
        if pages.any (fun p => x.count ≤ p) then s.spillEnd ctx 2 [0, 0, 0, 0]
        else
          let s := s.engPut ctx [(pa + 0x30, toLE ((x.taken + q) % 2 ^ 64) 8)]
          let lines := metaLines x (tokensOf k)
          (s.updHead ctx (fun k => { k with vals := mput (mput k.vals 7 lines) 8 pages, report := [examined k, 0, 0, 0] })).engTodo ctx
            (lines.map (fun l => .read l 128) ++ [.decide 11])

/-- Key and value rows of a slot of a page, with their scales: address and bytes of each (R229). -/
def tokenRows (x : Pool) (page slot : Nat) : List (Nat × Nat) :=
  (List.range (2 * x.heads)).flatMap (fun h =>
    [(va57 (x.page page + 1024 + (h * 64 + slot) * x.row), x.row)]
      ++ (if x.scales = 0 then []
          else [(va57 (x.page page + 1024 + 128 * x.heads * x.row + (h * 64 + slot) * x.scales), x.scales)]))

/-- Bytes cut into pieces of given lengths. -/
def cutBytes : List Nat → List Byte → List (List Byte)
  | [], _ => []
  | n :: ns, bs => bs.take n :: cutBytes ns (bs.drop n)

/-- The metadata entry that a survivor takes along: mass, position and valid (R230, R367). -/
def survivorMeta (k : Cmd) (t : Nat × Nat) : List Byte :=
  let a := metaAt (cmdPool k) (remPage t.2) (remSlot t.2)
  let i := 128 * (mgetD k.vals 7 []).findIdx (· = a / 128 * 128) + a % 128
  let b := (mgetD k.vals 9 []).drop i
  (b.take 8).map (BitVec.ofNat 8) ++ toLE (b.getD 8 0 % 2) 8

/-- Steps 2 and 3: number 1000 + 2i reads the rows of survivor i, 1001 + 2i writes them; then come the
metadata lines, the new view, and the release of the scope. -/
def State.copyTokens (s : State) (ctx n : Nat) (k : Cmd) : State :=
  let x := cmdPool k
  let ts := tokensOf k
  let i := (n - 1000) / 2
  let pages := newPages k
  let dest := pages.getD (i / 64) 0
  if i < ts.length then
    let t := ts.getD i (0, 0)
    let src := tokenRows x (remPage t.2) (remSlot t.2)
    if n % 2 = 0 then s.engTodo ctx (src.flatMap (fun r => readOps r.1 r.2) ++ [.decide (n + 1)])
    else
      let rows := (tokenRows x dest (i % 64)).zip (cutBytes (src.map (·.2)) k.buf)
      (s.updHead ctx (fun k => { k with buf := [] })).engTodo ctx
        (rows.flatMap (fun r => writeOps r.1.1 r.2) ++ [.decide (n + 1)])
  else
    let entry (j : Nat) : List Byte := match ts[j]? with | some t => survivorMeta k t | none => toLE 0 16
    let metas : List EOp := pages.zipIdx.flatMap (fun p =>
      (List.range 8).map (fun l => .write (va57 (x.page p.1 + 128 * l)) ((List.range 8).flatMap (fun j => entry (64 * p.2 + 8 * l + j))))
        ++ [.tally [0, 1, 0, 0]])
    let rank (pos : Nat) : Nat := ts.findIdx (·.1 = pos)
    let remap := (remapOf k).zipIdx.flatMap (fun e =>
      if remValid e.1 then toLE (pages.getD (rank e.2 / 64) 0 + 2 ^ 24 * (rank e.2 % 64) + 2 ^ 31) 8 else toLE 0 8)
    let view := toLE pages.length 128 ++ remap ++ pages.flatMap (fun p => toLE p 4)
    s.engTodo ctx (metas ++ writeOps (va57 ((blockOf k).getD 3 0)) view ++ [.release, .decide 30])

/-- The fresh pages go back to the free-page ring in one step, and are the command's no longer: decision 40, and a failed
switch (R365, R367). -/
def State.returnPages (s : State) (ctx : Nat) (k : Cmd) (after : State → State) : State :=
  s.engDo ctx 40 k .write true [(poolVa k, 128)] fun pas s =>
    let pa := pas.headD 0
    let x := poolOf (readBytes s.mem pa 128)
    let pages := newPages k
    let s := s.again ctx 40
    match s.engAll ctx k .write false (ringAt x.freeRing x.freeN 4 x.pushed pages.length) with
    | .wait s => s
    | .stop code va => s.engStop ctx code va
    | .ok ras =>
      let s := ((s.engEndReq ctx).engTouches ctx k ((ringAt x.freeRing x.freeN 4 x.pushed pages.length).map (·.1))).updHead ctx popOp
      after ((s.engPut ctx ((ras.zip pages).map (fun e => (e.1, toLE e.2 4))
        ++ [(pa + 0x28, toLE ((x.pushed + pages.length) % 2 ^ 64) 8)])).updHead ctx (fun k => { k with vals := mdel k.vals 8 }))

/-- Step 6: a retire record for every old page, in one step: decision 31. -/
def State.pushRetired (s : State) (ctx : Nat) (k : Cmd) (after : State → State) : State :=
  s.engDo ctx 31 k .write true [(poolVa k, 128)] fun pas s =>
    let pa := pas.headD 0
    let x := poolOf (readBytes s.mem pa 128)
    let pages := pagesOf k
    let s := s.again ctx 31
    match s.engAll ctx k .write false (ringAt x.retRing x.retN 16 x.retPushed pages.length) with
    | .wait s => s
    | .stop code va => s.engStop ctx code va
    | .ok ras =>
      let s := ((s.engEndReq ctx).engTouches ctx k ((ringAt x.retRing x.retN 16 x.retPushed pages.length).map (·.1))).updHead ctx popOp
      after (s.engPut ctx ((ras.zip pages).map (fun e => (e.1, toLE e.2 8 ++ toLE ((blockOf k).getD 4 0) 8))
        ++ [(pa + 0x50, toLE ((x.retPushed + pages.length) % 2 ^ 64) 8)]))

/-- SPLCMP_SWITCH: at the owner of the record, the new view takes the old one's place if the record's
version is the one the command has kept; else the command ends in CONFLICT (R249, R367). -/
def execSplcmpSwitch (die : Nat) (s : State) : Host.Outcome State Fault Refusal :=
  let ctx := ctxSpill die
  go (match s.headCmd ctx with
    | none => s
    | some k =>
      if k.todo.head? != some (.decide 30) || k.stopped || s.heldDie die then s
      else
        let s := s.updHead ctx popOp
        s.engDo ctx 30 k .write true [(recVa k, 32)] fun pas s =>
          let pa := pas.headD 0
          if (s.sideOf (lineOf pa)).ver = (mgetD k.vals 1 []).getD 0 0 then
            let s := s.engPut ctx [(pa, toLE ((blockOf k).getD 3 0) 8)]
            (s.updHead ctx (fun k => { k with vals := mput k.vals 10 [recView k] })).engTodo ctx
              [.tally [0, 0, (tokensOf k).length, 0], .decide 31]
          else (s.updHead ctx (fun k => { k with status := 3 })).engTodo ctx [.decide 40])

/-! ## SPLDCY and RMAPWR (R368) -/

/-- One metadata line decays in one step: valid slots that the sequence names (R84, R230, R368). Its masses are read
and written, which asks for both rights (R352). -/
def State.decayLine (s : State) (ctx : Nat) (k : Cmd) : State :=
  let x := cmdPool k
  match mgetD k.vals 7 [] with
  | [] => s.engTodo ctx [.decide decEnd]
  | line :: rest =>
    s.engDo ctx 12 k .write true [(line, 128)] fun pas s =>
      let pa := pas.headD 0
      let ts := (lineTokens x (tokensOf k) line).filter (fun t => flag (readLE s.mem (pa + 16 * (remSlot t.2 % 8) + 8) 4) 0)
      let sh := (blockOf k).getD 2 0
      let put (t : Nat × Nat) : Nat × List Byte :=
        let a := pa + 16 * (remSlot t.2 % 8)
        (a, toLE (if 32 ≤ sh then 0 else readLE s.mem a 4 / 2 ^ sh) 4)
      let s := if ts.isEmpty then s else s.engPut ctx (ts.map put)
      let rep := [k.report.getD 0 0, k.report.getD 1 0 + (if ts.isEmpty then 0 else 1), 0, k.report.getD 3 0 + ts.length]
      (s.updHead ctx (fun k => { k with vals := mput k.vals 7 rest, report := rep })).engTodo ctx [.decide 12]

/-- RMAPWR with its entries read: number 20 checks them all and sets the writes going, number 21 raises
the record's length, after every entry has been written (R368). -/
def State.writeRemap (s : State) (ctx n : Nat) (k : Cmd) : State :=
  let x := cmdPool k
  let m := (blockOf k).getD 2 0
  let f := (blockOf k).getD 4 0
  if n = 20 then
    let es := (List.range m).map (fun i => fieldAt k.buf (8 * i) 8)
    let bad := es.any (fun e => flag e 30 || 2 ^ 32 ≤ e
      || (remValid e && (x.count ≤ remPage e || !(pagesOf k).contains (remPage e))))
    if bad then s.spillEnd ctx 2 [0, 0, 0, 0]
    else
      let ts := (es.zipIdx.filter (fun e => remValid e.1)).map (fun e => (f + e.2, e.1))
      let lines := metaLines x ts
      let metas : List EOp := lines.flatMap (fun l => [.line l ((lineTokens x ts l).flatMap (fun t =>
        let o := metaAt x (remPage t.2) (remSlot t.2) % 128
        [(o + 4, WordOp.set t.1), (o + 8, WordOp.set 1)])), .tally [0, 1, 0, 0]])
      let entries := (splitLines (va57 (recView k + 0x80 + 8 * f)) (es.flatMap (fun e => toLE e 8))).flatMap (fun p =>
        [EOp.write p.1 p.2, .tally [0, 0, p.2.length / 8, 0]])
      (s.updHead ctx (fun k => { k with buf := [], report := [examined k, 0, 0, 0] })).engTodo ctx
        (entries ++ [.drain] ++ metas ++ [.decide 21])
  else
    s.engDo ctx 21 k .write true [(recVa k, 32)] fun pas s =>
      let pa := pas.headD 0
      (s.engPut ctx [(pa + 8, toLE (max (readLE s.mem (pa + 8) 4) (f + m)) 4)]).engTodo ctx [.decide decEnd]

/-! ## The steps of a spillway command -/

/-- What a spillway command decides at each step: decEnd ends it, 91 writes its report. -/
def State.decideSpill (s : State) (ctx n : Nat) (k : Cmd) : State :=
  let finish (s : State) : State := s.engTodo ctx [.decide decEnd]
  if n ≤ 5 then s.spillRead ctx n k
  else if n = 6 then s.evict ctx k
  else if n = 10 then s.takePages ctx k
  else if n = 11 then
    (s.updHead ctx (fun k => { k with buf := [], vals := mput k.vals 9 (k.buf.map (·.toNat)) })).engTodo ctx [.decide 1000]
  else if n = 12 then s.decayLine ctx k
  else if n = 20 || n = 21 then s.writeRemap ctx n k
  else if n = 30 then s.again ctx 30
  else if n = 31 then s.pushRetired ctx k finish
  else if n = 40 then s.returnPages ctx k finish
  else if n = decEnd then s.spillEnd ctx k.status (if k.status = 1 then [0, 0, 0, 0] else k.report)
  else if n = 91 then
    let at_ := va57 (k.l.toNat + 0x20)
    if k.status = 1 then
      if k.l.toNat % 64 != 0 || inPrivate (va57 k.l.toNat) then s else s.engTodo ctx [.tail at_ (reportBytes k)]
    else s.engTodo ctx [.write at_ (reportBytes k)]
  else s.copyTokens ctx n k

/-- SPLEV (R363 to R366). -/
def execSplev (p : Pred) (sc : Scope) (l : BitVec 5) (wait : Option (BitVec 3)) (s : State) : Host.Outcome State Fault Refusal :=
  go (match s.cur.phase with
    | .one => s.issueEng [.L] p.code l.toNat
    | _ => s.performDesc sc 5 16 wait (.splev p sc l wait) 64 64 [.decide 1])

/-- SPLCMP (R363 to R365, R367). -/
def execSplcmp (p : Pred) (sc : Scope) (l : BitVec 5) (wait : Option (BitVec 3)) (s : State) : Host.Outcome State Fault Refusal :=
  go (match s.cur.phase with
    | .one => s.issueEng [.L] p.code l.toNat
    | _ => s.performDesc sc 5 16 wait (.splcmp p sc l wait) 64 64 [.decide 1])

/-- SPLDCY (R363 to R365, R368). -/
def execSpldcy (p : Pred) (sc : Scope) (l : BitVec 5) (wait : Option (BitVec 3)) (s : State) : Host.Outcome State Fault Refusal :=
  go (match s.cur.phase with
    | .one => s.issueEng [.L] p.code l.toNat
    | _ => s.performDesc sc 5 16 wait (.spldcy p sc l wait) 64 64 [.decide 1])

/-- RMAPRD (R363 to R365, R368). -/
def execRmaprd (p : Pred) (sc : Scope) (l : BitVec 5) (wait : Option (BitVec 3)) (s : State) : Host.Outcome State Fault Refusal :=
  go (match s.cur.phase with
    | .one => s.issueEng [.L] p.code l.toNat
    | _ => s.performDesc sc 5 16 wait (.rmaprd p sc l wait) 64 64 [.decide 1])

/-- RMAPWR (R363 to R365, R368). -/
def execRmapwr (p : Pred) (sc : Scope) (l : BitVec 5) (wait : Option (BitVec 3)) (s : State) : Host.Outcome State Fault Refusal :=
  go (match s.cur.phase with
    | .one => s.issueEng [.L] p.code l.toNat
    | _ => s.performDesc sc 5 16 wait (.rmapwr p sc l wait) 64 64 [.decide 1])

end Sys2Proof.Machine
end

