-- ==== Sys2Proof/Machine/EngineRun.lean ====
section
/-! DEFINITION. Engine contexts at work: the start and the steps of a command, its completion, and the
resume and abandon registers (R245, R281, R283, R314, R315, R365). -/

namespace Sys2Proof.Machine

/-- The scope of a command: its own, or .dev for one of the matrix unit (R245, R275). -/
def cmdScope (k : Cmd) : Scope :=
  match k.instr with
  | .cpy _ sc _ _ _ _ => sc
  | .cpySend _ sc _ _ _ _ => sc
  | .cpyRecv _ sc _ _ _ _ => sc
  | .cpyt _ sc _ _ _ => sc
  | .coll _ sc _ _ => sc
  | .splev _ sc _ _ => sc
  | .splcmp _ sc _ _ => sc
  | .spldcy _ sc _ _ => sc
  | .rmaprd _ sc _ _ => sc
  | .rmapwr _ sc _ _ => sc
  | _ => .dev

/-- A spillway command. -/
def isSpill : Instr → Bool
  | .splev .. | .splcmp .. | .spldcy .. | .rmaprd .. | .rmapwr .. => true
  | _ => false

/-- Decision `n` of the command at the head of a context. -/
def State.engDecide (ctx n : Nat) (k : Cmd) (s : State) : State :=
  if isSpill k.instr then s.decideSpill ctx n k
  else if n = decEnd then s
  else match k.instr with
    | .mld _ src _ rec _ => s.decideMld ctx src rec.toNat n k
    | .mldKv _ _ rec _ => s.decideMldKv ctx rec.toNat n k
    | .cpy .. => s.decideCpy ctx k
    | .cpySend _ _ _ _ _ cv => s.decideSend ctx cv.toNat k
    | .cpyRecv _ _ _ _ _ cv => s.decideRecv ctx cv.toNat n k
    | .cpyt .. => s.decideCpyt ctx n k
    | .coll .. => s.decideColl ctx n k
    | _ => s

/-- ENGINE_COMMAND_START: the engine of a context starts its oldest command, and then does one piece of its
work at each further event (R281, R314). -/
def execEngineCommandStart (ctx : Nat) (s : State) : Host.Outcome State Fault Refusal :=
  go (match s.headCmd ctx with
    | none => s
    | some k =>
      if k.stopped || s.engHeld ctx then s
      else if !k.running then s.updHead ctx (fun k => { k with running := true })
      else match k.todo with
        | op :: _ => s.engOp ctx k (cmdScope k) (State.engDecide ctx) op
        | [] => s)

/-- What else changes as a command completes. -/
def State.endCommand (s : State) (ctx : Nat) (k : Cmd) : State :=
  match k.instr, if k.orphan.isSome then none else ctxCore ctx with
  | .mst _ (.ob16 x) _ _ _ _ _, some c => s.endMstOb c x.toNat
  | .mst _ (.obbf x) _ _ _ _ _, some c => s.endMstOb c x.toNat
  | .cpySend _ _ _ _ _ cv, _ => s.wakeCulvert k.seq cv.toNat
  | _, _ => s

/-- ENGINE_COMMAND_COMPLETE: every read has returned, every write has performed, and the release condition
of the command's scope holds (R245). -/
def execEngineCommandComplete (ctx : Nat) (s : State) : Host.Outcome State Fault Refusal :=
  go (match s.headCmd ctx with
    | none => s
    | some k =>
      if !k.running || k.stopped || !k.todo.isEmpty || s.engHeld ctx || !s.cmdReleased ctx k (cmdScope k) then s
      else (s.endCommand ctx k).engComplete ctx k.status)

/-- What an abandoned command leaves: an MLD record returns to reserved, a culvert its credit; a
compaction gives its pages back, or retires the old ones (R283, R315, R365). -/
def State.abandonEffects (s : State) (ctx : Nat) (k : Cmd) : State × List EOp :=
  let rec_ (x : Nat) : State := match ctxCore ctx with
    | some c => if k.orphan.isSome then s else s.setObrec c x { s.obrec c x with st := .reserved }
    | none => s
  match k.instr with
  | .mld _ _ _ x _ => (rec_ x.toNat, [])
  | .mldKv _ _ x _ => (rec_ x.toNat, [])
  | .cpySend _ _ _ _ _ cv =>
    let key := culvertKey k.seq cv.toNat
    let x := s.culvert key
    if k.todo.contains (.decide 0) then (s.setCulvert key { x with rsv := x.rsv - 1 }, []) else (s, [])
  | .cpyRecv _ _ _ _ _ cv =>
    let key := culvertKey k.seq cv.toNat
    (s.setCulvert key { s.culvert key with busy := false }, [])
  | .splcmp .. =>
    if k.status = 1 then (s, [.decide decEnd])
    else if k.todo.contains (.decide 31) then (s, [.decide 31])
    else if (mgetD k.vals 10 []).isEmpty && (mget k.vals 8).isSome && !k.todo.contains (.decide decEnd)
        && !k.todo.contains (.decide 91) then (s, [.decide 40])
    else (s, [.decide decEnd])
  | i => (s, if isSpill i then [.decide decEnd] else [])

/-- Abandoning the stopped command of a context: it completes with status FAULT and its timeline advances, once what it has
written is released (R245, R283, R315, R365). -/
def State.engAbandonAt (s : State) (ctx : Nat) : State :=
  match s.headCmd ctx with
  | none => s
  | some k =>
    if !k.stopped then s
    else
      let r := s.abandonEffects ctx k
      let s := r.1.updHead ctx (fun k => { k with stopped := false, running := true, status := 1, todo := r.2, buf := [] })
      match s.headCmd ctx with
      | some k => if k.todo.isEmpty && s.cmdReleased ctx k (cmdScope k) then (s.endCommand ctx k).engComplete ctx 1 else s
      | none => s

/-- Context of a write of KC_MTX_RESUME: 0 load pipe, 1 writer. -/
def mtxCtx (core c : Nat) : Nat := if c = 0 then ctxLoad core else ctxWriter core

/-- MTX_RESUME (R283). -/
def execMtxResume (core ctx : Nat) (s : State) : Host.Outcome State Fault Refusal :=
  go (if 1 < ctx then s else s.engResumeAt (mtxCtx core ctx))

/-- MTX_ABANDON (R283). -/
def execMtxAbandon (core ctx : Nat) (s : State) : Host.Outcome State Fault Refusal :=
  go (if 1 < ctx then s else s.engAbandonAt (mtxCtx core ctx))

/-- ENG_RESUME: contexts 6 and 7 are ignored (R315). -/
def execEngResume (die ctx : Nat) (s : State) : Host.Outcome State Fault Refusal :=
  go (if 5 < ctx then s else s.engResumeAt (engCtx die ctx))

/-- ENG_ABANDON: contexts 6 and 7 are ignored (R315). -/
def execEngAbandon (die ctx : Nat) (s : State) : Host.Outcome State Fault Refusal :=
  go (if 5 < ctx then s else s.engAbandonAt (engCtx die ctx))

end Sys2Proof.Machine
end

