-- ==== Sys2Proof/Machine/Sched.lean ====
section
/-! DEFINITION. The block scheduler (R34 to R43, R50 to R53, R120, R121, R200, R297 to R299, R327 to
R336): decisions, instances and their places, switch tokens, and admission. -/

namespace Sys2Proof.Machine

/-! ## Frames and pool entries of a block (R41, R116, R117, R120, R297) -/

def placeOf (im : Image) (blk : Nat) : Placement := im.places.getD blk {}

/-- Stations of a block: index, instruction and placement entry. -/
def stationsOf (im : Image) (blk : Nat) : List (Nat × Instr × Nat) :=
  (instrsOf (im.blocks.getD blk [])).map (fun e => (e.1, e.2, placeEntry im blk e.1))

/-- Slots per frame of a station: its inputs minus one (R41). -/
def slotsPerFrame (i : Instr) : Nat := (allInputs i).length - 1

/-- A placement entry stands on an edge tile; the key of its tile: the place itself, or the offsets. -/
def onEdge (e : Nat) : Bool := flag e 31
def entryTile (e : Nat) : Nat × Nat :=
  (bitsOf e 30 27, if onEdge e then (if flag e 24 then 9 else 0) else bitsOf e 26 24)

/-- Depths of the edges of a block that end on a tile (R117, R122). -/
def depthOn (im : Image) (blk : Nat) (edge : Bool) (tile : Nat × Nat) : Nat :=
  let st := stationsOf im blk
  let ends : Nat → Bool := fun j => match st.find? (·.1 = j) with
    | some e => onEdge e.2.2 = edge && entryTile e.2.2 = tile
    | none => false
  let add (k : Nat) (n : Nat) (t : Target × Nat) : Nat := match t.1 with
    | .to _ j => n + cond (ends j.toNat) (edgeDepth im blk k t.2) 0
    | .none => n
  st.foldl (fun n e => (targetsOf e.2.1).zipIdx.foldl (add e.1) n) 0

/-- Slots per frame of the stations of a block on a tile. -/
def slotsOn (im : Image) (blk : Nat) (edge : Bool) (tile : Nat × Nat) : Nat :=
  ((stationsOf im blk).filter (fun e => onEdge e.2.2 = edge && entryTile e.2.2 = tile)).foldl
    (fun n e => n + slotsPerFrame e.2.1) 0

/-- Tiles that a block's entries name, of one kind. -/
def tilesOf (im : Image) (blk : Nat) (edge : Bool) : List (Nat × Nat) :=
  (((stationsOf im blk).filter (fun e => onEdge e.2.2 = edge)).map (fun e => entryTile e.2.2)).eraseDups

/-- Frames per lane (R41). -/
def frameCount (im : Image) (blk : Nat) : Nat :=
  let copies := (placeOf im blk).width / 8
  let alu := (tilesOf im blk false).foldl (fun n t =>
    let z := slotsOn im blk false t
    if z = 0 then n else min n (1024 / z)) 1024
  (tilesOf im blk true).foldl (fun n t =>
    let z := slotsOn im blk true t * copies
    if z = 0 then n else min n ((512 - depthOn im blk true t) / z)) alu

/-- Pool entries per lane that an instance of a block takes on an edge tile (R41, R299). -/
def poolUse (im : Image) (blk frames : Nat) (tile : Nat × Nat) : Nat :=
  depthOn im blk true tile + slotsOn im blk true tile * ((placeOf im blk).width / 8) * frames

/-! ## Origins (R20, R120, R121, R333) -/

/-- Tiles that a copy of a footprint covers. -/
def copyTiles (p : Placement) (o : Nat × Nat × Option Nat) : List (Nat × Nat) :=
  (List.range p.fh).flatMap (fun r => (List.range p.fw).map (fun c =>
    let col := o.1 + c
    (match o.2.2 with
      | some cf => if cf ≤ col then col + 1 else col
      | none => col, o.2.1 + r)))

/-- Tiles that an instance covers. -/
def instTiles (im : Image) (x : Inst) : List (Nat × Nat) := x.origins.flatMap (copyTiles (placeOf im x.blk))

/-- Origins of the copies of a footprint from one origin, in bands, with the column skip in a band that
holds the fused-off tile. -/
def bandsFrom (p : Placement) (fuse : Option (Nat × Nat)) (o : Nat × Nat) : List (Nat × Nat × Option Nat) :=
  let per := 15 / p.fw
  (List.range (p.width / 8)).map (fun k =>
    let row := o.2 + k / per * p.fh
    let inBand := min per (p.width / 8 - k / per * per)
    let skip := match fuse with
      | some (cf, rf) => if row ≤ rf && rf < row + p.fh && o.1 ≤ cf && cf < o.1 + inBand * p.fw then some cf else none
      | none => none
    (o.1 + k % per * p.fw, row, skip))

/-- The first origin at which every tile of every copy is an ALU tile, free of instances that do not retire, and no
terp tile. The tiles of a retiring instance are handed over lane by lane (R51, R53). (log 18, DEDUCED) -/
def State.findOrigin (s : State) (c : Nat) (im : Image) (blk : Nat) : Option (List (Nat × Nat × Option Nat)) :=
  let p := placeOf im blk
  let taken := ((s.core c).insts.filter (fun e => !e.2.retiring)).flatMap (fun e => instTiles (s.image e.2.img) e.2)
  let fuse := mget s.fuses c
  let good (t : Nat × Nat) : Bool := t.1 < 16 && 1 ≤ t.2 && t.2 ≤ 8 && fuse != some t && !taken.contains t
    && !(c % 16 = 0 && 12 ≤ t.1 && 7 ≤ t.2)
  if p.fw = 0 then none else
  (List.range 128).findSome? (fun n =>
    let os := bandsFrom p fuse (n % 16, n / 16 + 1)
    if (os.flatMap (copyTiles p)).all good then some os else none)

/-- Stations of edge tiles that the instances of a core hold: tile and station. One that has emitted the switch in
every lane is free (R51); those of the configurations that firmware has activated count too (R422). -/
def State.edgeStations (s : State) (c : Nat) : List ((Nat × Nat) × Nat) :=
  (s.core c).insts.flatMap (fun e =>
    (e.2.stations.filter (fun q => !(List.range 8).all (fun l => e.2.switched.contains (128 * q.1 + l)))).map (fun q =>
      (entryTile (placeEntry (s.image e.2.img) e.2.blk q.1), q.2)))
    ++ (s.core c).active.flatMap (fun e => (e.2.placed.filter (fun q => q.row = 0 || q.row = 9)).map (fun q => ((q.col, q.row), q.station)))

/-- A free station for every edge entry of a block, each the lowest of its tile (R120). -/
def mapStations (im : Image) (blk : Nat) (used : List ((Nat × Nat) × Nat)) : Option (Map Nat) :=
  ((stationsOf im blk).filter (fun e => onEdge e.2.2)).foldl (fun m e =>
    match m with
    | none => none
    | some m =>
      let tile := entryTile e.2.2
      let mine := m.filter (fun q => entryTile (placeEntry im blk q.1) = tile)
      match (List.range 16).find? (fun n => !used.contains (tile, n) && mine.all (·.2 != n)) with
      | some n => some (mput m e.1 n)
      | none => none) (some [])

/-- Pool entries that an instance holds in a lane of an edge tile: those of the edges that a switch token has not
left, and its match area while a station of the lane is still to emit the switch (R299). -/
def poolHeld (im : Image) (x : Inst) (tile : Nat × Nat) (lane : Nat) : Nat :=
  let left (idx : Nat) : Bool := x.switched.contains (128 * idx + lane)
  let mine := (stationsOf im x.blk).filter (fun e => onEdge e.2.2 && entryTile e.2.2 = tile && !left e.1)
  if !x.retiring then poolUse im x.blk x.frames tile
  else
    let depths := (stationsOf im x.blk).foldl (fun n e => (targetsOf e.2.1).zipIdx.foldl (fun n t => match t.1 with
      | .to _ j => n + if mine.any (·.1 = j.toNat) then edgeDepth im x.blk e.1 t.2 else 0
      | .none => n) n) 0
    depths + if mine.isEmpty then 0 else slotsOn im x.blk true tile * (x.width / 8) * x.frames

/-- Every edge tile of a block has in each lane the pool entries that an instance needs (R299). -/
def State.poolsFree (s : State) (c : Nat) (im : Image) (blk : Nat) : Bool :=
  (tilesOf im blk true).all (fun t => (List.range 8).all (fun lane =>
    (s.core c).insts.foldl (fun n e => n + poolHeld (s.image e.2.img) e.2 t lane) (poolUse im blk (frameCount im blk) t) ≤ 512))

/-- What an instance of a block would take on a core: slot, origins and stations, if it can be configured
now (R333). -/
def State.instancePlace (s : State) (c : Nat) (im : Image) (blk : Nat) :
    Option (Nat × List (Nat × Nat × Option Nat) × Map Nat) := do
  let slot ← (List.range 8).find? (fun i => (mget (s.core c).insts i).isNone)
  let os ← s.findOrigin c im blk
  let st ← mapStations im blk (s.edgeStations c)
  if s.poolsFree c im blk then some (slot, os, st) else none

/-! ## Retiring an instance (R50, R95, R333) -/

/-- An entry's launch. -/
def State.entrySeq (s : State) (c : Nat) (e : SEntry) : Nat := (s.gang (s.wg c (e.wg * 128)).gang).seq

/-- The loop-region flag protects an instance while the waiting vector of its block holds bits (R95). -/
def State.isProtected (s : State) (c : Nat) (x : Inst) : Bool :=
  blockFlag (s.block x.img x.blk) 2
    && (s.core c).entries.any (fun e => e.2.blk = x.blk && s.entrySeq c e.2 = x.seq && !(s.members c e.2).isEmpty)

/-- The least recently admitted instance. -/
def leastRecent (xs : List (Nat × Inst)) : Option Nat :=
  (xs.foldl (fun (b : Option (Nat × Inst)) e => match b with
    | some y => if e.2.lru < y.2.lru then some e else b
    | none => some e) none).map (·.1)

/-- The instance that makes room: unprotected, or protected for an urgent entry. -/
def State.victim (s : State) (c : Nat) (urgent : Bool) : Option Nat :=
  let idle := (s.core c).insts.filter (fun e => e.2.admitting.isNone && !e.2.retiring)
  match leastRecent (idle.filter (fun e => !s.isProtected c e.2)) with
  | some i => some i
  | none => if urgent then leastRecent idle else none

/-- Elements of an instance in a lane: those of the tiles of its copy. -/
def laneElems (im : Image) (x : Inst) (lane : Nat) : List Nat :=
  (x.origins[lane / 8]?).elim [] (fun o =>
    (copyTiles (placeOf im x.blk) o).map (fun t => (t.2 * 16 + t.1) * 8 + lane % 8))

/-- An instance admits no more: the frames and the generations it has held stay with its elements (R335).
(log 18, DEDUCED) -/
def keepGens (im : Image) (x : Inst) (k : Core) : Core :=
  { k with
    lastGen := x.ftab.foldl (fun m f =>
      (laneElems im x (f.1 / 1024)).foldl (fun m e => mput m (e * 1024 + f.1 % 1024) f.2.gen) m) k.lastGen
    heldFrames := (List.range x.width).foldl (fun m lane =>
      (laneElems im x lane).foldl (fun m e => mput m e (max (mgetD m e 0) x.frames)) m) k.heldFrames }

/-- An instance leaves its core with its tokens and its configuration, and every blocked bit is cleared (R333). -/
def removeInst (k : Core) (i : Nat) : Core :=
  { k with
    insts := mdel k.insts i
    latch := k.latch.filter (fun e => e.2.inst != i)
    active := k.active.filter (fun e => e.1 % 8 != i)
    entries := k.entries.map (fun e => (e.1, { e.2 with blocked := false })) }

/-- An instance has retired (R50, R333). -/
def State.dropInst (s : State) (c i : Nat) : State := s.setCore c (removeInst (s.core c) i)

/-- A squash discards the instances of its launch on a core without switch tokens, but for those in which another
gang of the launch has a pass or a round (R50, R334). (log 68, DEDUCED) -/
def State.discardInsts (s : State) (c seq : Nat) : State :=
  let used (k : Core) (i : Nat) (x : Inst) : Bool := x.admitting.isSome
    || k.threads.any (fun t => (t.2.pass.bind (·.inst)) = some i)
  (s.core c).insts.foldl (fun (st : State) e =>
    let k := st.core c
    if e.2.seq != seq || used k e.1 e.2 then st
    else st.setCore c (removeInst (keepGens (st.image e.2.img) e.2 k) e.1)) s

/-- The least recently admitted instance retires: it admits no more, and switch tokens stand at its
source stations (R50). -/
def State.retireInst (s : State) (c i : Nat) : State :=
  let k := s.core c
  let x := mgetD k.insts i {}
  s.setCore c { keepGens (s.image x.img) x k with insts := mput k.insts i { x with retiring := true } }

/-! ## Beginning a round -/

/-- The constant pool of a block for a gang: bound words take the values of their argument slots (R40,
R179). -/
def boundConsts (im : Image) (g : Gang) (blk : Nat) : List W32 :=
  (im.args.filter (fun d => d.blk = blk)).foldl (fun cs d =>
    let v := argOf g d.slot
    let cs := cs.set d.k (BitVec.ofNat 32 v)
    if d.size = 8 then cs.set (d.k + 1) (BitVec.ofNat 32 (v / 2 ^ 32)) else cs) (constPool (im.blocks.getD blk []))

/-- The windows of a workgroup take their bases at its first round (R218). -/
def State.setWindows (s : State) (c b : Nat) : State :=
  let w := s.wg c b
  let im := s.image (s.launch (s.gang w.gang).seq).img
  let ws := (im.streams.filter (fun d => d.kind = 0)).foldl (fun m d =>
    let x := mgetD m d.port {}
    if x.baseSet then m else mput m d.port { x with base := va57 (argOf (s.gang w.gang) d.slot), baseSet := true }) w.windows
  s.setWg c b { w with windows := ws }

/-- A round begins its admission into an instance: its constants are fixed now (R40). -/
def State.beginRound (s : State) (c rk i : Nat) : State :=
  let r := s.round c rk
  let s := s.setWindows c (r.wg * 128)
  let x := s.inst c i
  let g := s.gang (s.wg c (r.wg * 128)).gang
  let s := s.setRound c rk { r with inst := i, consts := boundConsts (s.image x.img) g x.blk }
  let s := s.setInst c i { x with admitting := some rk, lru := rk }
  let ten := some (s.launch g.seq).desc.tenant
  let k := s.core c
  (s.setCore c { k with cfgReq := none, cfgWait := {} }).count c 0x005 ten

/-! ## SCHEDULING_DECISION -/

/-- Skip counts of a workgroup after a decision that names role `x` (R332). -/
def skipsAfter (waiting : List Nat) (skips : List Nat) (x : Nat) : List Nat :=
  (List.range 4).map (fun r => if r = x || !waiting.contains r then 0 else skips.getD r 0 + 1)

/-- A role may be named: no count reaches 4, and at most t of them reach 4 - t (R332). -/
def skipsOk (n : List Nat) : Bool :=
  n.all (· < 4) && [1, 2, 3].all (fun t => (n.filter (fun k => 4 - t ≤ k)).length ≤ t)

/-- Roles of a workgroup with Waiting threads. -/
def State.waitingRoles (s : State) (c wg : Nat) : List Nat :=
  ((s.core c).entries.filter (fun e => e.2.wg = wg && !(s.members c e.2).isEmpty)).map (·.2.role)

/-- The greatest age among the members of an entry (R327). -/
def State.oldestAge (s : State) (c : Nat) (e : SEntry) : Nat :=
  (s.members c e).foldl (fun n t => max n (s.thread c t).age) 0

/-- Instances of an entry's block. -/
def State.instsOf (s : State) (c : Nat) (e : SEntry) : List (Nat × Inst) :=
  (s.core c).insts.filter (fun x => x.2.blk = e.blk && x.2.seq = s.entrySeq c e)

/-- An entry is a candidate (R331). -/
def State.candidate (s : State) (c : Nat) (e : SEntry) : Bool :=
  let w := s.wg c (e.wg * 128)
  !(s.members c e).isEmpty && !e.blocked && (s.gang w.gang).frozen = .no
    && (s.instsOf c e).all (fun x => x.2.admitting.isNone)
    && skipsOk (skipsAfter (s.waitingRoles c e.wg) w.skips e.role)

/-- An instance of the block that admits no round and does not retire. -/
def State.resident (s : State) (c : Nat) (e : SEntry) : Option Nat :=
  ((s.instsOf c e).find? (fun x => !x.2.retiring)).map (·.1)

/-- The chosen entry and whether it is urgent (R331). -/
def State.choose (s : State) (c : Nat) : Option (Nat × SEntry × Bool) :=
  let cands := (s.core c).entries.filter (fun e => s.candidate c e.2)
  let urgent := cands.filter (fun e => 48 ≤ s.oldestAge c e.2)
  let score (e : SEntry) : Nat :=
    (s.members c e).length * (1 + s.oldestAge c e) * (if (s.resident c e).isSome then 2 else 1)
  let best (xs : List (Nat × SEntry)) (better : SEntry → SEntry → Bool) : Option (Nat × SEntry) :=
    xs.foldl (fun b e => match b with
      | some y => if better e.2 y.2 then some e else b
      | none => some e) none
  let since (e : SEntry) : Nat := e.urgentSince.getD (s.core c).decision
  match best urgent (fun a b => since a < since b) with
  | some e => some (e.1, e.2, true)
  | none => (best cands (fun a b => score b < score a)).map (fun e => (e.1, e.2, false))

/-- The members that the round takes: all, or for a round-collective block the lowest F of each lane
(R34, R200). -/
def State.takeSnapshot (s : State) (c : Nat) (e : SEntry) (im : Image) : List Nat :=
  let ms := s.members c e
  let width := (placeOf im e.blk).width
  if blockFlag (im.blocks.getD e.blk []) 1 then
    let f := frameCount im e.blk
    ms.filter (fun t => (ms.filter (fun u => u % width = t % width && u < t)).length < f)
  else ms

/-- Threads whose waiting bit is still to be set (R170). -/
def State.yielded (s : State) (c : Nat) : List Nat :=
  ((s.core c).threads.filter (fun e => e.2.st = .waiting && e.2.yieldPending && !(s.core c).entryWait.contains e.1)).map (·.1)

/-- Those of some threads get it (R170, R330). -/
def State.setYields (s : State) (c : Nat) (ts : List Nat) : State :=
  (s.yielded c).foldl (fun st t => if ts.contains t then st.enterWaiting c t else st) s

/-- Ages of the Waiting threads that the decision leaves behind, and the urgent-since numbers (R327,
R330). -/
def State.ageAll (s : State) (c n : Nat) : State :=
  let ts := (s.core c).entries.flatMap (fun e => s.members c e.2)
  let was := ((s.core c).entries.filter (fun e => 48 ≤ s.oldestAge c e.2)).map (·.1)
  let k := s.core c
  let s := s.setCore c { k with threads := k.threads.map (fun e =>
    if ts.contains e.1 then (e.1, { e.2 with age := min 127 (e.2.age + 1) }) else e) }
  let k := s.core c
  s.setCore c { k with entries := k.entries.map (fun e =>
    let since := if was.contains e.1 then e.2.urgentSince.getD n else n
    (e.1, { e.2 with urgentSince := if 48 ≤ s.oldestAge c e.2 then some since else none })) }

/-- An entry's blocked bit is set (R333). -/
def State.blockEntry (s : State) (c i : Nat) : State :=
  let k := s.core c
  s.setCore c { k with entries := match mget k.entries i with
    | some e => mput k.entries i { e with blocked := true }
    | none => k.entries }

/-- The round of an entry is formed: the snapshot, the decision number, the skip counts and the ages
(R34, R330 to R332). The key of a round is its decision number. -/
def State.formRound (s : State) (c i : Nat) (e : SEntry) (im : Image) (urgent : Bool) : State × Nat :=
  let k := s.core c
  let rk := k.decision
  let w := s.wg c (e.wg * 128)
  let snap := s.takeSnapshot c e im
  let r : Round := { wg := e.wg, role := e.role, number := (rk - w.decBase) % 2 ^ 32, snapshot := snap, pending := snap }
  let skips := skipsAfter (s.waitingRoles c e.wg) w.skips e.role
  let wait : CfgWait :=
    { urgent, ages := k.threads.map (fun x => (x.1, x.2.age)), skips := w.skips, entries := k.entries, yields := s.yielded c }
  let s := s.setWg c (e.wg * 128) { w with skips }
  let k := s.core c
  let s := s.setCore c { k with
    rounds := mput k.rounds rk r
    entries := mput k.entries i { e with snap := some rk }
    decision := rk + 1
    cfgWait := wait }
  (s.ageAll c rk, rk)

/-- Nothing but an instance that retires already stands in the way of a configuration. -/
def State.roomSoon (s : State) (c : Nat) (im : Image) (blk : Nat) : Bool :=
  (s.findOrigin c im blk).isSome && (s.core c).insts.any (·.2.retiring)

/-- A decision whose block is to be configured first: its effects on the yielded threads come when the round begins
(R170, R333). -/
def State.askConfig (s : State) (c i : Nat) (e : SEntry) (im : Image) (urgent : Bool) : State :=
  let r := s.formRound c i e im urgent
  r.1.setCore c { r.1.core c with cfgReq := some r.2 }

/-- SCHEDULING_DECISION: one decision of a core (R331). With no candidate, threads that yielded get their
bits (R170). (log 51, DEDUCED) -/
def execSchedulingDecision (core : Nat) (s : State) : Host.Outcome State Fault Refusal :=
  go (if s.heldCore core || (s.core core).cfgReq.isSome then s
    else
      let s := s.sweepEntries core
      match s.choose core with
      | none => s.setYields core (s.yielded core)
      | some (i, e, urgent) =>
        let seq := s.entrySeq core e
        let img := (s.launch seq).img
        match s.resident core e with
        | some n =>
          let r := s.formRound core i e (s.image img) urgent
          (r.1.beginRound core r.2 n).setYields core (s.yielded core)
        | none =>
          if (s.instancePlace core (s.image img) e.blk).isSome || s.roomSoon core (s.image img) e.blk then
            s.askConfig core i e (s.image img) urgent
          else match s.victim core urgent with
            | some v => (s.askConfig core i e (s.image img) urgent).retireInst core v
            | none => s.blockEntry core i)

/-! ## CONFIGURATION_LOAD -/

/-- A decision that finds no place after all counts as none: its threads are Waiting again with their ages,
and the entry is blocked (R333). -/
def State.undoDecision (s : State) (c rk : Nat) : State :=
  let k := s.core c
  let r := s.round c rk
  let w := s.wg c (r.wg * 128)
  let s := s.setWg c (r.wg * 128) { w with skips := k.cfgWait.skips }
  let k2 := s.core c
  let s := s.setCore c { k2 with
    rounds := mdel k2.rounds rk
    entries := k2.entries.map (fun e => if e.2.snap = some rk then (e.1, { e.2 with snap := none, blocked := true }) else e)
    threads := k2.threads.map (fun e => match mget k.cfgWait.ages e.1 with
      | some age => if e.2.st = .waiting && e.2.age = min 127 (age + 1) then (e.1, { e.2 with age }) else e
      | none => e)
    decision := rk
    cfgReq := none
    cfgWait := {} }
  let k2 := s.core c
  let was (i : Nat) (e : SEntry) : Option Nat := (mget k.cfgWait.entries i).bind (fun y =>
    if y.blk = e.blk && y.wg = e.wg && y.role = e.role then y.urgentSince else none)
  s.setCore c { k2 with entries := k2.entries.map (fun e =>
    (e.1, { e.2 with urgentSince := if 48 ≤ s.oldestAge c e.2 then (was e.1 e.2).orElse (fun _ => e.2.urgentSince) else none })) }

/-- First generation of a frame of a new instance: one above the last that an element of its lane held
(R335). (log 18, DEDUCED) -/
def firstGen (k : Core) (elems : List Nat) (f : Nat) : Nat :=
  match (elems.filter (fun e => f < mgetD k.heldFrames e 0)).map (fun e => mgetD k.lastGen (e * 1024 + f) 0) with
  | [] => 0
  | g :: gs => (gs.foldl max g + 1) % 512

/-- Threads with an XPATH record in their core's event queue, or held before it. -/
def xpathSlots (k : Core) : List Nat :=
  ((k.evq ++ k.evHeld).filter (fun r => r.toNat % 256 = 1)).map (fun r => bitsOf r.toNat 63 48)

/-- A rare block that can start has waited for one configuration load or job already (R24, R55). -/
def State.rareWaited (s : State) (c : Nat) : Bool :=
  (xpathSlots (s.core c)).any (fun t => (s.core c).waited.contains t && (s.gang (s.gangOf c t)).frozen = .no)

/-! ## Staging, checking and activating the tiles of an instance (R23, R121, R123, R422) -/

/-- Explicit routes flagged in an entry, for T0 and T1 (R117). -/
def routed (e t : Nat) : Bool := flag e (19 - t)

/-- The route word of target `t` of the instruction at position `n` of the entries (R116). -/
def routeWord (p : Placement) (n t : Nat) : Nat :=
  let before := (p.entries.take n).foldl (fun m w =>
    m + (if routed w.toNat 0 then 1 else 0) + (if routed w.toNat 1 then 1 else 0)) 0
  let e := (p.entries.getD n 0).toNat
  (p.routes.getD (before + (if t = 1 && routed e 0 then 1 else 0)) 0).toNat

/-- Key of a tile in the order of the CRC section: row code × 256 + column. -/
def crcKey (e : Nat) : Nat :=
  (if onEdge e then (if flag e 24 then 0x81 else 0x80) else bitsOf e 26 24) * 256 + bitsOf e 30 27

/-- The words that a tile's CRC covers, by tile: for each instruction its word, its extension, its placement
entry and its routes (R123). -/
def crcWords (im : Image) (blk : Nat) : Map (List W32) :=
  let ws := im.blocks.getD blk []
  let p := placeOf im blk
  (((clausesOf ws).flatMap (·.codes)).zipIdx).foldl (fun m c =>
    let e := placeEntry im blk c.2
    let mine := [c.1.word] ++ c.1.ext.toList ++ [BitVec.ofNat 32 e]
      ++ (if routed e 0 then [BitVec.ofNat 32 (routeWord p c.2 0)] else [])
      ++ (if routed e 1 then [BitVec.ofNat 32 (routeWord p c.2 1)] else [])
    mput m (crcKey e) (mgetD m (crcKey e) [] ++ mine)) []

/-- CRC-32C of a tile's words. -/
def wordsCrc (ws : List W32) : Nat := crc32c (ws.flatMap (fun w => toLE w.toNat 4))

/-- Hops along the row and then along the column (R119). -/
def straightHops (a b : Nat × Nat) : List Nat :=
  List.replicate (b.1 - a.1) 0 ++ List.replicate (a.1 - b.1) 1 ++ List.replicate (b.2 - a.2) 2 ++ List.replicate (a.2 - b.2) 3

/-- Hops of an explicit route from a column, with one more in its direction where it crosses between columns
`cf - 1` and `cf` (R121). -/
def skippedHops (cf col : Nat) : List Nat → List Nat
  | [] => []
  | 0 :: hs => (if col + 1 = cf then [0, 0] else [0]) ++ skippedHops cf (col + 1) hs
  | 1 :: hs => (if col = cf then [1, 1] else [1]) ++ skippedHops cf (col - 1) hs
  | h :: hs => h :: skippedHops cf col hs

/-- Hops of a target of an instruction in a copy of an instance (R119, R121). -/
def routeHops (im : Image) (x : Inst) (copy idx t j : Nat) : List Nat :=
  let p := placeOf im x.blk
  let e := placeEntry im x.blk idx
  if !routed e t then straightHops (tileOf im x idx (8 * copy)) (tileOf im x j (8 * copy))
  else
    let w := routeWord p idx t
    let hops := (List.range (bitsOf w 31 28)).map (fun h => bitsOf w (2 * h + 1) (2 * h))
    match x.origins[copy]? with
    | some (col, _, some cf) => if onEdge e then hops else skippedHops cf (col + bitsOf e 30 27) hops
    | _ => hops

/-- Routes of every target of every copy of an instance. -/
def instRoutes (im : Image) (x : Inst) : Map (List Nat) :=
  (List.range x.origins.length).foldl (fun m copy =>
    (stationsOf im x.blk).foldl (fun m e => (targetsOf e.2.1).zipIdx.foldl (fun m t => match t.1 with
      | .to _ j => mput m (copy * 256 + 2 * e.1 + t.2) (routeHops im x copy e.1 t.2 j.toNat)
      | .none => m) m) m) []

/-- Relocation word of a copy: origin, skip column and readout mask (R422). -/
def relocWord (o : Nat × Nat × Option Nat) (mask : Nat) : Nat :=
  o.1 + 16 * o.2.1 + (match o.2.2 with | some cf => 2 ^ 8 * cf + 2 ^ 12 | none => 0) + 2 ^ 16 * mask

/-- Tiles of an instance with the key of their CRC entry and their copy: an edge tile serves every copy. -/
def instPlaces (x : Inst) (words : Map (List W32)) : List (Nat × Nat × Nat × Nat) :=
  words.flatMap (fun w =>
    let col := w.1 % 256
    if 0x80 ≤ w.1 / 256 then [(w.1, 0, col, if w.1 / 256 = 0x81 then 9 else 0)]
    else x.origins.zipIdx.map (fun o =>
      let col := o.1.1 + col
      (w.1, o.2, (match o.1.2.2 with | some cf => if cf ≤ col then col + 1 else col | none => col), o.1.2.1 + w.1 / 256)))

/-- What the sequencer stages for an instance in a slot: the key of each area, and the area as its tile has checked
it (R123, R421, R422). -/
def stageAreas (c slot : Nat) (im : Image) (x : Inst) : List (Nat × Staging) :=
  let words := crcWords im x.blk
  (instPlaces x words).map (fun q =>
    let ws := mgetD words q.1 []
    let crc := wordsCrc ws
    let good := (mget im.crcs (x.blk * 2 ^ 16 + q.1)).all (· = crc)
    let mask := (Config.readoutMask c q.2.2.2 q.2.2.1).toNat
    ((q.2.2.2 * 16 + q.2.2.1) * 8 + slot,
      { words := ws, st := if good then .checked else .rejected, crc := BitVec.ofNat 32 (Nat.xor crc 0xFFFFFFFF),
        reloc := relocWord (x.origins.getD q.2.1 (0, 0, none)) mask }))

/-- A tile whose check fails posts CFGREJECT (R406, R422). -/
def State.postRejects (s : State) (c slot : Nat) (areas : List (Nat × Staging)) : State :=
  (areas.filter (fun e => e.2.st = .rejected)).foldl (fun (st : State) e =>
    let tile := e.1 / 8
    st.postCore c (mkRec 7 0 0 0 c 0xFFFF 0 (tile % 16 + 16 * (tile / 16) + 256 * slot) (st.die (dieOf c)).clk
      (Nat.xor e.2.crc.toNat 0xFFFFFFFF))) s

/-- Edges of a new instance that end on a lane of a tile which a retiring one still holds start with a
reconfiguration token (R53). -/
def State.reconfEdges (s : State) (c i : Nat) (im : Image) (x : Inst) : Map (List Tok) :=
  if !(s.core c).insts.any (fun e => e.2.retiring) then []
  else (List.range x.width).foldl (fun m lane =>
    (stationsOf im x.blk).foldl (fun m e => (targetsOf e.2.1).zipIdx.foldl (fun m t => match t.1 with
      | .to f j =>
        if edgeEntry im x.blk j.toNat || !s.laneHeld c i (tileOf im x j.toNat lane) lane then m
        else mput m (lane * 256 + 2 * e.1 + t.2)
          [{ slot := lane, frame := 0, gen := 0, data := 0, dst := opKey j.toNat f, edge := 2 * e.1 + t.2, inst := i, kind := .reconf }]
      | .none => m) m) m) []

/-- The instance of a round's block is staged, checked and activated, and the round begins; where a tile rejects its
words nothing is activated, and the decision counts as none (R23, R123, R333 to R335, R422). (log 18, DEDUCED) -/
def State.configure (s : State) (c rk blk img seq : Nat) (at_ : Nat × List (Nat × Nat × Option Nat) × Map Nat) : State :=
  let im := s.image img
  let p := placeOf im blk
  let frames := frameCount im blk
  let k := s.core c
  let x : Inst := { img, blk, width := p.width, frames, seq, origins := at_.2.1, stations := at_.2.2,
                    lslot := ((k.lslots.find? (·.2 = seq)).map (·.1)).getD 0 }
  let ftab : Map Frame := (List.range p.width).flatMap (fun lane =>
    let elems := laneElems im x lane
    if elems.all (fun e => mgetD k.heldFrames e 0 = 0) then [] else
    (List.range frames).map (fun f => (frameKey lane f, { gen := firstGen k elems f })))
  let x := { x with ftab, routes := instRoutes im x, edges := s.reconfEdges c at_.1 im x }
  let areas := stageAreas c at_.1 im x
  let ten := some (s.launch seq).desc.tenant
  if areas.any (fun e => e.2.st = .rejected) then
    let s := s.setCore c { k with staging := areas.foldl (fun m e => mput m e.1 e.2) k.staging, waited := xpathSlots k }
    (s.postRejects c at_.1 areas).undoDecision c rk
  else
    let s := s.setCore c { k with
      insts := mput k.insts at_.1 x
      active := areas.foldl (fun m e => mput m e.1 e.2) (k.active.filter (fun e => e.1 % 8 != at_.1))
      waited := xpathSlots k }
    let yields := k.cfgWait.yields
    ((s.count c 0x006 ten).beginRound c rk at_.1).setYields c yields

/-- CONFIGURATION_LOAD: the control core's sequencer configures the instance a decision asked for (R23,
R24, R333), once a place for it is free; a pending rare block waits for at most one load. -/
def execConfigurationLoad (core : Nat) (s : State) : Host.Outcome State Fault Refusal :=
  let k := s.core core
  go (match k.cfgReq with
    | none => s
    | some rk =>
      if s.heldCore core || k.cc != .idle || s.rareWaited core then s
      else
        match k.entries.find? (fun e => e.2.snap = some rk) with
        | none => (s.setCore core { k with cfgReq := none, cfgWait := {}, rounds := mdel k.rounds rk }).setYields core k.cfgWait.yields
        | some (_, e) =>
          let seq := s.entrySeq core e
          let img := (s.launch seq).img
          match s.instancePlace core (s.image img) e.blk with
          | some p => s.configure core rk e.blk img seq p
          | none =>
            if s.roomSoon core (s.image img) e.blk then s
            else match s.victim core k.cfgWait.urgent with
              | some v => s.retireInst core v
              | none => s.undoDecision core rk)

/-! ## SWITCH_TOKEN -/

/-- Passes of an instance that use the station of an instruction in a lane: on an edge tile, those of every copy. -/
def State.lanePasses (s : State) (c i idx lane : Nat) : List (Nat × Pass) :=
  let x := s.inst c i
  let shared := edgeEntry (s.image x.img) x.blk idx
  (s.core c).threads.filterMap (fun e => match e.2.pass with
    | some p => if p.inst = some i && (p.lane = lane || (shared && p.lane % 8 = lane)) then some (e.1, p) else none
    | none => none)

/-- Producers of a station: index and target number. -/
def producersOf (ws : List W32) (idx : Nat) : List (Nat × Nat) :=
  (instrsOf ws).flatMap (fun e => (targetsOf e.2).zipIdx.filterMap (fun t => match t.1 with
    | .to _ j => if j.toNat = idx then some (e.1, t.2) else none
    | .none => none))

/-- Keys of the edges that end on the station of an instruction in a lane. -/
def inputKeys (ws : List W32) (idx lane : Nat) : List Nat :=
  (producersOf ws idx).map (fun q => lane * 256 + 2 * q.1 + q.2)

/-- Every input of a station holds a control token of a kind: the last of its copies' stands at the head (R51). -/
def holdsAll (im : Image) (x : Inst) (keys : List Nat) (kind : TokKind) : Bool :=
  keys.all (fun key => match mgetD x.edges key [] with
    | tk :: _ => tk.kind = kind && feeders im x tk ≤ mgetD x.absorbed (heldKey key kind) 0 + 1
    | [] => false)

/-- The latches that a station's control tokens enter are empty. -/
def State.latchesFree (s : State) (c i idx lane : Nat) : Bool :=
  let x := s.inst c i
  let e := s.element c i idx lane
  ((instrAt (s.block x.img x.blk) idx).map targetsOf).getD [] |>.zipIdx.all (fun t =>
    t.1 = .none || (mget (s.core c).latch (2 * e + t.2)).isNone)

/-- The station of an instruction has the switch on every input, has nothing of the old configuration left
to fire, its replies have returned and its latches are empty (R50 to R52). -/
def State.switchReady (s : State) (c i idx lane : Nat) : Bool :=
  let x := s.inst c i
  let ws := s.block x.img x.blk
  holdsAll (s.image x.img) x (inputKeys ws idx lane) .switch
    && !s.laneHeld c i (tileOf (s.image x.img) x idx lane) lane
    && x.eosDue.all (fun e => !e.2.contains (128 * idx + lane))
    && s.latchesFree c i idx lane
    && (s.lanePasses c i idx lane).all (fun e =>
      (e.2.fired.contains idx || passClosed ws e.2 || (deadInstrs ws e.2).contains idx)
        && s.reqs.all (fun r => !(r.2.agent = .fab c e.1 && r.2.idx = idx && r.2.kind.holds)))

/-- The gang whose end-of-stream token a station passes on next, where every input holds it (R59). -/
def State.eosReady (s : State) (c i idx lane : Nat) : Option Nat :=
  let x := s.inst c i
  match x.eosDue.find? (fun e => e.2.contains (128 * idx + lane)) with
  | none => none
  | some e =>
    if holdsAll (s.image x.img) x (inputKeys (s.block x.img x.blk) idx lane) (.eos e.1) && s.latchesFree c i idx lane
    then some e.1 else none

/-- A control token of a station leaves: it is taken from every input, and enters the latches of its element for every
consumer. -/
def State.sendControl (s : State) (c i idx lane : Nat) (kind : TokKind) : State :=
  let x := s.inst c i
  let ws := s.block x.img x.blk
  let keys := inputKeys ws idx lane
  let y := keys.foldl popEdge x
  let s := s.setInst c i { y with absorbed := y.absorbed.filter (fun e => !(keys.map (heldKey · kind)).contains e.1) }
  let el := s.element c i idx lane
  let k := s.core c
  let latch := (((instrAt ws idx).map targetsOf).getD []).zipIdx.foldl (fun m t => match t.1 with
    | .to f j => mput m (2 * el + t.2)
        { slot := lane, frame := 0, gen := 0, data := 0, dst := opKey j.toNat f, edge := 2 * idx + t.2, inst := i, kind }
    | .none => m) k.latch
  keys.foldl (fun st key => st.settleEdge c i key 33) (s.setCore c { k with latch })

/-- The station of a stream port hands over: the coalescer entries of its memory tile, and the port's dirty lines of
the launch's workgroups, are sent (R221, R222). -/
def State.handOver (s : State) (c tile seq port : Nat) : State :=
  let es := s.coal c tile
  let s := es.foldl (fun (st : State) e => st.sendEntry c tile e) s
  let one (st : State) (w : Nat × Wg) : State :=
    let st := (mgetD w.2.windows port {}).lines.foldl (fun (st : State) l => st.writeBackLine c w.1 port l.1) st
    st.sendEntries c (fun e => e.wins.any (fun x => x.wg = w.1 && x.port = port))
  ((s.core c).wgs.filter (fun w => (s.gang w.2.gang).seq = seq)).foldl one s

/-- A station passes on an end-of-stream token in a lane; a sink holds it (R59). -/
def State.emitEos (s : State) (c i idx lane : Nat) : State :=
  match s.eosReady c i idx lane with
  | none => s
  | some tag =>
    let s := s.sendControl c i idx lane (.eos tag)
    let x := s.inst c i
    s.setInst c i { x with eosDue := (x.eosDue.map (fun e =>
      if e.1 = tag then (e.1, e.2.filter (· != 128 * idx + lane)) else e)).filter (fun e => !e.2.isEmpty) }

/-- Reconfiguration tokens at the heads of the edges of a core leave where the lane is free (R53). -/
def State.settleReconf (s : State) (c : Nat) : State :=
  (s.core c).insts.foldl (fun (st : State) e =>
    (e.2.edges.filter (fun q => (q.2.head?.map (·.kind)) = some .reconf)).foldl (fun st q => st.settleEdge c e.1 q.1 33) st) s

/-- A station emits the switch in a lane. -/
def State.emitSwitch (s : State) (c i idx lane : Nat) : State :=
  let x := s.inst c i
  let ws := s.block x.img x.blk
  if !x.retiring || x.switched.contains (128 * idx + lane) || !(stationCodes (s.image x.img) x).contains (128 * idx + lane)
      || !s.switchReady c i idx lane then s
  else
    let s := s.sendControl c i idx lane .switch
    let s := match (instrAt ws idx).bind streamUse with
      | some q => s.handOver c (s.element c i idx lane / 8) x.seq q
      | none => s
    let x := s.inst c i
    (s.setInst c i { x with switched := x.switched ++ [128 * idx + lane] }).settleReconf c

/-- SWITCH_TOKEN: a station of an instance passes on an end-of-stream token in a lane, or one of a retiring instance
the switch. The instance has retired once the switch has left every station, no token is on its way and no frame is
held (R50 to R53, R59, R222). (log 68, DEDUCED) -/
def execSwitchToken (core inst idx lane : Nat) (s : State) : Host.Outcome State Fault Refusal :=
  go (if s.heldCore core then s
    else
      let s := (s.emitEos core inst idx lane).emitSwitch core inst idx lane
      let x := s.inst core inst
      if x.retiring && x.switched.length = (stationCodes (s.image x.img) x).length && x.ftab.all (fun f => f.2.slot.isNone)
          && x.edges.isEmpty && (s.core core).latch.all (fun e => e.2.inst != inst)
      then s.dropInst core inst else s)

/-! ## Conditions of R36 and reservations -/

/-- Capacity of an engine's queue (R314, R363). -/
def engineCap (e : Nat) : Nat := if e < 4 then 64 else 16

/-- One unit of a resource is reserved for thread `t`, where it is free. -/
def State.takeUnit (s : State) (c t res : Nat) : Option State :=
  let d := dieOf c
  let b := s.base c t
  if res < 200 then
    let g := s.engine d (res - 100)
    if g.queue.length + g.rsv < engineCap (res - 100) then some (s.setEngine d (res - 100) { g with rsv := g.rsv + 1 }) else none
  else if res < 300 then
    let key := culvertKey (s.seqOf c t) (res - 200)
    let x := s.culvert key
    if x.rsv + (x.written - x.read) < x.cap then some (s.setCulvert key { x with rsv := x.rsv + 1 }) else none
  else if res < 400 then
    let q := res - 300
    if s.lqHeld q + mgetD s.lqRsv q 0 < s.lqDepth q then some { s with lqRsv := mput s.lqRsv q (mgetD s.lqRsv q 0 + 1) } else none
  else if res = 400 then
    let x := s.die d
    if x.taskq.length + x.taskRsv < 64 then some (s.setDie d { x with taskRsv := x.taskRsv + 1 }) else none
  else if res < 10000 then
    let w := s.wg c b
    let port := res - 600
    if mgetD w.clusterUsed port 0 < 64 then
      some (s.setWg c b { w with clusterUsed := mput w.clusterUsed port (mgetD w.clusterUsed port 0 + 1) })
    else none
  else if res < 100000 then
    match s.receiver c t ((res - 10000) / 4096) with
    | some (rc, rb, rp, rt) =>
      let w := s.wg rc rb
      let k := chanKey rp rt
      if (mgetD w.chans k []).length + mgetD w.chanRsv k 0 < 4 then
        some (s.setWg rc rb { w with chanRsv := mput w.chanRsv k (mgetD w.chanRsv k 0 + 1) })
      else none
    | none => some s
  else
    let port := (res - 100000) % 16
    let line := (res - 100000) / 16
    let w := s.wg c b
    let x := mgetD w.windows port {}
    let l := mgetD x.lines line {}
    let d := s.portDecl c t port
    let slot (v : Nat) : Nat := x.lineNo v % windowLines d
    if x.holds (windowBytes d) line && x.lines.all (fun e => e.1 = line || slot e.1 != slot line) then
      some (s.setWg c b { w with windows := mput w.windows port { x with lines := mput x.lines line { l with rsv := l.rsv + 1 } } })
    else none

/-- The oldest dirty line of a full window starts its write-back (R259): the one at the lowest line number that is not
under way already. (log 95, DESIGN CHOICE) -/
def State.freeLine (s : State) (c t port : Nat) : State :=
  let b := s.base c t
  match ((mgetD (s.wg c b).windows port {}).lines).find? (fun l => l.2.dirty && !l.2.busy) with
  | some l => s.writeBackLine c b port l.1
  | none => s

/-- What a block sends to, in index order: one resource key for each send (R36, R259, R301, R314, R320,
R322, R324, R363). -/
def State.sendsOf (s : State) (c t : Nat) (ws : List W32) : List Nat :=
  let is := instrsOf ws
  let port (q idx : Nat) (elem : Bool) : List Nat :=
    let d := s.portDecl c t q
    match d.kind with
    | 0 =>
      if !elem then [] else
      let w := s.wgOf c t
      let x := mgetD w.windows q {}
      let before := (is.filter (fun e => e.1 < idx && streamUse e.2 = some q)).length
      let e := (mgetD (s.thread c t).spos q 0 + before) % 2 ^ 32 * w.n + (t - s.base c t)
      if e * d.elem < x.tail then [] else [resWindow q (va57 (x.base + e * d.elem) / 128)]
    | 1 => [resCluster q]
    | _ => match s.receiver c t q with
      | some (_, _, _, rt) => [resRadix q rt]
      | none => []
  is.flatMap (fun e => match e.2 with
    | .cpy _ _ _ _ x _ => [resEngine x.toNat]
    | .cpySend _ _ _ _ x cv => [resCulvert cv.toNat, resEngine x.toNat]
    | .cpyRecv _ _ _ _ x _ => [resEngine x.toNat]
    | .cpyt _ _ _ _ x => [resEngine x.toNat]
    | .coll .. => [resEngine 4]
    | .splev .. | .splcmp .. | .spldcy .. | .rmaprd .. | .rmapwr .. => [resEngine 5]
    | .tsend .. => [resTask]
    | .launch _ _ _ q => [resQueue q.toNat]
    | .sput _ q _ => port q.toNat e.1 true
    | .smark _ q _ => port q.toNat e.1 false
    | _ => [])

/-- Reservations taken one after the other, counted by resource; the first that is missing fails. -/
def State.takeAll (s : State) (c t : Nat) (rsv : Map Nat) : List Nat → State × Map Nat × Option Nat
  | [] => (s, rsv, none)
  | r :: rest =>
    match s.takeUnit c t r with
    | some s => State.takeAll s c t (mput rsv r (mgetD rsv r 0 + 1)) rest
    | none => (s, rsv, some r)

/-- The sluice of the first clause is ready for the thread, and what it then reserves (R36, R301). -/
def State.takeSluice (s : State) (c t q : Nat) (ws : List W32) : Option (State × Map Nat) :=
  let is := instrsOf ws
  let n := pushesOf is q
  let m := popsOf is q
  let x := s.sluice c t q
  if n ≤ x.allow && x.entries.length + x.pushRsv + n ≤ x.depth && m ≤ unreserved x then
    let x := { x with allow := x.allow - n, allowRsv := x.allowRsv + n, pushRsv := x.pushRsv + n,
                      entries := reservePops t 0 m x.entries }
    some (s.setSluice c t q x, if n = 0 then [] else [(q, n)])
  else none

/-- What admission finds: the first failed condition, or the state with every reservation taken. -/
inductive Admit where
  | held (s : State) (c : HeldCond)
  | ok (s : State) (rsv : Map Nat)
  deriving Repr

/-- Conditions 2 to 6 of R36, tested in their order. -/
def State.admission (s : State) (c t : Nat) (ws : List W32) : Admit :=
  let hdr := ((clausesOf ws).head?.map (·.hdr)).getD 0
  let q := hdr % 16
  match s.waitFails c t hdr with
  | some w => .held s (.timeline w.ctx w.val)
  | none =>
    match (if flag hdr 7 then s.takeSluice c t q ws else some (s, [])) with
    | none => .held s (.sluice q)
    | some (s1, rsv) =>
      if flag hdr 4 && !s.barReady c t q then .held s (.barrier q)
      else if flag hdr 5 && !s.lsqClear c t then .held s .lsq
      else match s1.takeAll c t rsv (s1.sendsOf c t ws) with
        | (s2, rsv, none) => .ok s2 rsv
        | (_, _, some r) => .held (if 100000 ≤ r then s.freeLine c t ((r - 100000) % 16) else s) (.reserve r)

/-- A thread becomes Held: its age is 0 and it leaves its round (R36 to R38). -/
def State.hold (s : State) (c t : Nat) (h : HeldCond) : State :=
  s.setThread c t { s.thread c t with st := .held h, age := 0 }

/-! ## THREAD_ADMISSION -/

/-- A lane of an instance takes passes: on some tile of its copy no retiring instance holds it any more. On the others
its tokens queue behind the switch (R51, R53). (log 18, DEDUCED) -/
def State.laneOpen (s : State) (c i lane : Nat) : Bool :=
  !(s.core c).insts.any (fun e => e.2.retiring) ||
    let x := s.inst c i
    ((x.origins[lane / 8]?).elim [] (copyTiles (placeOf (s.image x.img) x.blk))).any (fun t => !s.laneHeld c i t lane)

/-- The lowest-numbered free frame of a lane (R43). -/
def lowFrame (x : Inst) (lane : Nat) : Option Nat :=
  (List.range x.frames).find? (fun f => (mgetD x.ftab (frameKey lane f) {}).slot.isNone)

/-- A member leaves the pending ones of its round; the admission ends with the last of them (R39). -/
def State.endTurn (s : State) (c rk i t : Nat) : State :=
  let r := s.round c rk
  let r := { r with pending := r.pending.filter (· != t) }
  let s := s.setRound c rk r
  if !r.pending.isEmpty then s
  else
    let s := s.setInst c i { s.inst c i with admitting := none }
    let k := s.core c
    let s := s.setCore c { k with entries := k.entries.map (fun e => if e.2.snap = some rk then (e.1, { e.2 with snap := none }) else e) }
    (s.setCore c (sweepRounds (s.core c))).sweepEntries c

/-- A thread is admitted into a frame: its pass begins (R36, R43, R143). -/
def State.admitPass (s : State) (c rk i t f : Nat) (rsv : Map Nat) : State :=
  let r := s.round c rk
  let x := s.inst c i
  let lane := t % x.width
  let old := mgetD x.ftab (frameKey lane f) {}
  let gen := (old.gen + 1) % 512
  let s := s.setInst c i { x with ftab := mput x.ftab (frameKey lane f) { gen, slot := some t, round := rk } }
  let p : Pass := { img := x.img, blk := x.blk, inst := some i, round := rk, roundNo := r.number, width := x.width,
                    lane, frame := f, gen, consts := r.consts, live := some (s.liveFile c t), rsv }
  let s := s.setThread c t { s.thread c t with st := .admitted, pass := some p }
  (s.active (.fab c t)).count c 0x003 (some (s.tenantOf (.fab c t)))

/-- A member of a round that never enters its lane: it leaves the round (R35, R36, R199). -/
def State.skipTurn (s : State) (c rk t : Nat) : State :=
  let r := s.round c rk
  s.setRound c rk { r with left := r.left ++ [t], missed := r.missed ++ [t] }

/-- THREAD_ADMISSION: the round's next thread in a lane is admitted, or becomes Held; the lane stalls
without a free frame (R35, R36, R336). -/
def execThreadAdmission (core inst lane : Nat) (s : State) : Host.Outcome State Fault Refusal :=
  let x := s.inst core inst
  go (match x.admitting with
    | none => s
    | some rk =>
      let r := s.round core rk
      match (r.pending.filter (fun t => t % x.width = lane)) with
      | [] => s
      | t :: _ =>
        if s.heldCore core || (s.gang (s.gangOf core t)).frozen != .no || !s.laneOpen core inst lane then s
        else if (s.thread core t).st != .waiting then (s.skipTurn core rk t).endTurn core rk inst t
        else match lowFrame x lane with
          | none => s
          | some f =>
            match s.admission core t (s.block x.img x.blk) with
            | .held s h =>
              ((s.skipTurn core rk t).hold core t h).endTurn core rk inst t
            | .ok s rsv => (s.admitPass core rk inst t f rsv).endTurn core rk inst t)

end Sys2Proof.Machine
end

