-- ==== Sys2Proof/Machine/Sys.lean ====
section
/-! DEFINITION. Class SYS but for the register accesses, the freezes and what needs the loader (R179, R180,
R358, R359, R379, R396 to R400, R408 to R411, R418, R421, R422). -/

namespace Sys2Proof.Machine

/-! ## Parks by software (R408) -/

/-- TRAP (R408). -/
def execTrap (p : Pred) (n : BitVec 5) (s : State) : Host.Outcome State Fault Refusal :=
  go (s.fire [] p.code fun _ _ _ st => st.raise fcTrap n.toNat)

/-- BRK (R408). -/
def execBrk (p : Pred) (n : BitVec 5) (s : State) : Host.Outcome State Fault Refusal :=
  go (s.fire [] p.code fun _ _ _ st => st.raise fcBrk n.toNat)

/-- ASSERT (R408). -/
def execAssert (p : Pred) (n : BitVec 5) (s : State) : Host.Outcome State Fault Refusal :=
  go (s.fire [.L] p.code fun x _ _ st => if predOfTok x then st else st.raise fcAssert n.toNat)

/-! ## Clock and monitors -/

/-- CLKRD (R379). -/
def execClkrd (p : Pred) (t1 t0 : Target) (s : State) : Host.Outcome State Fault Refusal :=
  go (s.fire [] p.code fun _ _ _ st => st.result t0 t1 (tokNat (st.die st.cur.agent.die).clk))

/-- A source that a monitor of a kind can name: 0 core, 1 die, 2 port (R398). -/
def sourceListed (kind src : Nat) : Bool :=
  src = 0 || (match kind with
    | 0 => src ≤ 0x00D || (0x010 ≤ src && src ≤ 0x014) || (0x018 ≤ src && src ≤ 0x01B) || (0x020 ≤ src && src ≤ 0x024)
    | 1 => 0x101 ≤ src && src ≤ 0x10D
    | _ => 0x200 ≤ src && src ≤ 0x204)

/-- A select register as stored: a source outside the list is stored with source 0 and enable 0 (R397). -/
def selectOf (kind v : Nat) : Nat :=
  let rest := bitsOf v 23 17 * 2 ^ 17
  if sourceListed kind (v % 1024) then v % 1024 + (if flag v 16 then 2 ^ 16 else 0) + rest else rest

/-- Offset of the select register of monitor `n` of an agent: its core's, or its die's (R399, R400). -/
def monitorReg (a : Agent) (n : Nat) : Nat :=
  match a with
  | .sup d => dsReg d (0x500 + 16 * n)
  | _ => kcReg a.core (0x500 + 16 * n)

/-- PMRD: the count before the firing; a thread sees the monitors of its own tenant (R400). -/
def execPmrd (p : Pred) (n : BitVec 4) (t1 t0 : Target) (s : State) : Host.Outcome State Fault Refusal :=
  let a := s.cur.agent
  let sel := s.reg (monitorReg a n.toNat)
  let shown := a.slot.isNone || (flag sel 17 && bitsOf sel 23 18 = s.tenantOf a)
  let v := if shown then s.reg (monitorReg a n.toNat + 8) % 2 ^ 48 else 0
  go (s.fire [] p.code fun _ _ _ st => st.result t0 t1 (tokNat v))

/-! ## Argument slots -/

/-- The perform of KSET: the value stands on every member core (R180). -/
def State.performKset (s : State) (slot : Nat) : State :=
  match s.curOp, s.cur.agent.slot with
  | some (k, o), some t =>
    let g := s.gangOf s.cur.agent.core t
    (s.setGang g { s.gang g with args := mset (s.gang g).args slot o.l 0 }).setPerformed k
  | _, _ => s

/-- KSET (R180). A control thread has no argument slots (R451). -/
def execKset (p : Pred) (slot : BitVec 5) (l : BitVec 5) (s : State) : Host.Outcome State Fault Refusal :=
  go (match s.cur.phase with
    | .one => s.fire [.L] p.code fun x _ _ st =>
        if st.cur.agent.slot.isNone then st.raise fcAccess else st.deliverOp l.toNat { l := x }
    | _ => s.performKset slot.toNat)

/-! ## Privileged instructions (R92, R409) -/

/-- A privileged instruction that needs nothing but its operands: in an image without PRIV it raises the
privilege fault. -/
def State.privFire (s : State) (ins : List Field) (pr : Nat) (f : W64 → W64 → State → State) : State :=
  s.fire ins pr fun l r _ st => if st.cur.agent.slot.isSome then st.raise fcPriv else f l r st

/-- A privileged instruction that may have to wait: `f` acts before the operands are taken. -/
def State.privAttempt (s : State) (ins : List Field) (pr : Nat) (f : W64 → W64 → State → State) : State :=
  s.attempt ins pr fun l r _ st => if st.cur.agent.slot.isSome then st.raise fcPriv else f l r st

/-- PMCFG (R399). -/
def execPmcfg (p : Pred) (n : BitVec 4) (s : State) : Host.Outcome State Fault Refusal :=
  go (s.privFire [.L, .R] p.code fun l r st =>
    let o := monitorReg st.cur.agent n.toNat
    let kind := match st.cur.agent with | .sup _ => 1 | _ => 0
    let b := r.toNat
    let sel := l.toNat % 1024 + 2 ^ 16 * (b % 2) + 2 ^ 17 * bitsOf b 8 2
    let st := st.setReg o (selectOf kind sel)
    if flag b 1 then st.setReg (o + 8) (st.reg (o + 8) / 2 ^ 48 * 2 ^ 48) else st)

/-- The oldest record of a queue that is not of type XPATH, and the queue without it. -/
def popRec : List Rec → Option (Rec × List Rec)
  | [] => none
  | r :: rest =>
    if r.toNat % 256 = 1 then (popRec rest).map (fun x => (x.1, r :: x.2)) else some (r, rest)

/-- A queue with a freed entry takes the record that was held first (R325). -/
def refill (q held : List Rec) : List Rec × List Rec :=
  match held with
  | r :: rest => if q.length < 256 then (q ++ [r], rest) else (q, held)
  | [] => (q, [])

/-- A record copied into the mailbox at an offset (R410). -/
def State.mailbox (s : State) (o : Nat) (r : Rec) : State :=
  (List.range 4).foldl (fun st i => st.setReg (o + 8 * i) (r.toNat / 2 ^ (64 * i) % 2 ^ 64)) s

/-- EVQPOP (R325, R410). -/
def execEvqpop (p : Pred) (t1 t0 : Target) (s : State) : Host.Outcome State Fault Refusal :=
  go (s.privFire [] p.code fun _ _ st =>
    match st.cur.agent with
    | .sup d =>
      let x := st.die d
      match popRec x.evq with
      | none => st.emit t0 t1 0 0
      | some (r, q) =>
        let n := refill q x.evHeld
        let st := (st.setDie d { x with evq := n.1, evHeld := n.2 }).mailbox (dsReg d 0x460) r
        st.emit t0 t1 (tokNat (r.toNat % 2 ^ 64)) 1
    | a =>
      let x := st.core a.core
      match popRec x.evq with
      | none => st.emit t0 t1 0 0
      | some (r, q) =>
        let n := refill q x.evHeld
        let st := (st.setCore a.core { x with evq := n.1, evHeld := n.2 }).mailbox (kcReg a.core 0x460) r
        st.emit t0 t1 (tokNat (r.toNat % 2 ^ 64)) 1)

/-- Bytes that an instruction of a PRIV program reads at a physical address. -/
inductive CtlRead where
  | ok (bs : List Byte)
  | fault (code addr : Nat)
  | wait (s : State)
  deriving Repr

def State.ctlPieces (s : State) : List (Nat × Nat) → CtlRead
  | [] => .ok []
  | (va, n) :: rest =>
    if scratchVa ≤ va || !inRegion va n then .fault fcAccess va
    else if !s.lineOpen s.cur.agent.die (lineOf va) then .wait (s.recallOwner (lineOf va))
    else if s.poisonAt va n then .fault fcPoison va
    else match State.ctlPieces s rest with
      | .ok bs => .ok (readBytes s.mem va n ++ bs)
      | e => e

/-- `n` bytes at an address token, each read once (R451). -/
def State.ctlRead (s : State) (l : W64) (n : Nat) : CtlRead := s.ctlPieces (linePieces (va57 l.toNat) n)

/-- EVQPUT (R411). -/
def execEvqput (p : Pred) (s : State) : Host.Outcome State Fault Refusal :=
  go (s.privAttempt [.L] p.code fun l _ st =>
    if l.toNat % 32 != 0 then st.raise fcAlign 0 (va57 l.toNat)
    else match st.ctlRead l 32 with
      | .wait s => s
      | .fault c x => st.raise c 0 x
      | .ok bs =>
        let v := leNat bs
        (st.taken [.L] p.code).postDie st.cur.agent.die (BitVec.ofNat 256 (v / 256 * 256 + 0x80 + v % 128)))

/-- HALT (R418). -/
def execHalt (p : Pred) (s : State) : Host.Outcome State Fault Refusal :=
  go (s.privFire [] p.code fun _ _ st => st.halt st.cur.agent 0 0)

/-! ## Configuration loading by firmware (R421, R422) -/

/-- Key of a staging area: column, row, instance slot. -/
def stageKey (r : Nat) : Nat := (bitsOf r 7 4 * 16 + r % 16) * 8 + bitsOf r 10 8

/-- A tile that takes no configuration: outside the fabric, fused off, or a terp tile (R16, R20, R21). -/
def State.noTile (s : State) (c r : Nat) : Bool :=
  let col := r % 16
  let row := bitsOf r 7 4
  9 < row || mget s.fuses c = some (col, row) || (c % 16 = 0 && 12 ≤ col && (row = 7 || row = 8))

/-- CFGPUT (R422). -/
def execCfgput (p : Pred) (t1 t0 : Target) (s : State) : Host.Outcome State Fault Refusal :=
  go (s.privAttempt [.L, .R] p.code fun l r st =>
    let c := st.cur.agent.core
    let v := r.toNat
    let n := bitsOf v 18 11
    let k := st.core c
    let x := mgetD k.staging (stageKey v) {}
    if 2 ^ 19 ≤ v then st.raise fcAccess
    else if l.toNat % 4 != 0 then st.raise fcAlign 0 (va57 l.toNat)
    else if n = 0 || 128 < n || x.st = .checked || x.st = .rejected || (mget k.insts (bitsOf v 10 8)).isSome || st.noTile c v
        || 128 < x.words.length + n then
      (st.taken [.L, .R] p.code).result t0 t1 0
    else match st.ctlRead l (4 * n) with
      | .wait s => s
      | .fault code a => st.raise code 0 a
      | .ok bs =>
        let ws : List W32 := (List.range n).map (fun i => BitVec.ofNat 32 (leNat ((bs.drop (4 * i)).take 4)))
        let x := { x with words := x.words ++ ws, st := .receiving, crc := BitVec.ofNat 32 (crcRun x.crc.toNat bs) }
        let st := st.taken [.L, .R] p.code
        let k := st.core c
        (st.setCore c { k with staging := mput k.staging (stageKey v) x }).result t0 t1 (tokNat n))

/-- A word is the placement entry of an instruction that may stand on a tile (R117). -/
def entryOn (col row e : Nat) : Bool :=
  e % 1024 = 0 && (if row = 0 || row = 9 then onEdge e && bitsOf e 30 27 = col && bitsOf e 26 25 = 0 && flag e 24 = (row = 9 : Bool)
    else !onEdge e)

/-- One instruction of a tile in image form: the word, its extension where its entry does not follow at once, the
entry, the routes that the entry flags; and the words behind it (R123). (log 87, DEDUCED) -/
def takeStation (col row : Nat) : List W32 → Option ((W32 × Option W32 × Nat × List Nat) × List W32)
  | w :: e :: rest =>
    let done (x : Option W32) (e : W32) (rest : List W32) :=
      let n := (if routed e.toNat 0 then 1 else 0) + (if routed e.toNat 1 then 1 else 0)
      ((w, x, e.toNat, (rest.take n).map (·.toNat)), rest.drop n)
    if entryOn col row e.toNat then some (done none e rest)
    else match rest with
      | e' :: rest => some (done (some e) e' rest)
      | [] => none
  | _ => none

/-- Hops of a route word (R119). -/
def wordHops (w : Nat) : List Nat := (List.range (bitsOf w 31 28)).map (fun h => bitsOf w (2 * h + 1) (2 * h))

/-- A station under a relocation word: an ALU entry at its absolute position, its explicit routes with the column skip;
an edge entry does not move, and takes the lowest free station of its tile (R120, R121, R422). -/
def relocate (reloc : Nat) (used : List Nat) (x : W32 × Option W32 × Nat × List Nat) : Placed :=
  let e := x.2.2.1
  let skip : Option Nat := if flag reloc 12 then some (bitsOf reloc 11 8) else none
  let col := reloc % 16 + bitsOf e 30 27
  let hops (w : Nat) : List Nat := match onEdge e, skip with
    | false, some cf => skippedHops cf col (wordHops w)
    | _, _ => wordHops w
  let r0 := if routed e 0 then x.2.2.2.head?.map hops else none
  let r1 := if routed e 1 then x.2.2.2.getLast?.map hops else none
  if onEdge e then
    { word := x.1, ext := x.2.1, col := (entryTile e).1, row := (entryTile e).2, routes := [r0, r1]
      station := ((List.range 16).find? (fun n => !used.contains n)).getD (bitsOf e 23 20) }
  else
    { word := x.1, ext := x.2.1, col := (match skip with | some cf => if cf ≤ col then col + 1 else col | none => col)
      row := bitsOf reloc 7 4 + bitsOf e 26 24, routes := [r0, r1], station := bitsOf e 23 20 }

/-- The stations of a tile's words under a relocation word. -/
def placeWords (col row reloc : Nat) : Nat → List Nat → List W32 → List Placed
  | 0, _, _ => []
  | n + 1, used, ws => match takeStation col row ws with
    | some (x, rest) => let y := relocate reloc used x; y :: placeWords col row reloc n (y.station :: used) rest
    | none => []

/-- Stations of an edge tile that are taken: by instances, by active configurations, by checked areas. -/
def State.stationsUsed (s : State) (c col row : Nat) : List Nat :=
  ((s.edgeStations c).filter (·.1 = (col, row))).map (·.2)
    ++ (s.core c).staging.flatMap (fun e => (e.2.placed.filter (fun q => q.col = col && q.row = row)).map (·.station))

/-- What a CFGCRC does with its operands (R422): a bit of R beyond the tile raises ACCESS. -/
def State.cfgcrc (s : State) (pr : Nat) (f : Nat → Nat → State → State) : State :=
  s.privFire [.L, .R] pr fun l r st => if 2 ^ 11 ≤ r.toNat then st.raise fcAccess else f l.toNat r.toNat st

/-- CFGCRC.check: an area whose CRC is right takes the relocation word, and its stations are placed under it (R422). -/
def execCfgcrcCheck (p : Pred) (t1 t0 : Target) (s : State) : Host.Outcome State Fault Refusal :=
  go (s.cfgcrc p.code fun l r st =>
    let c := st.cur.agent.core
    let k := st.core c
    let x := mgetD k.staging (stageKey r) {}
    let crc := Nat.xor x.crc.toNat 0xFFFFFFFF
    let put (y : Staging) : State := st.setCore c { k with staging := mput k.staging (stageKey r) y }
    if x.st != .receiving then st.result t0 t1 0
    else if crc = l % 2 ^ 32 then
      let used := st.stationsUsed c (r % 16) (bitsOf r 7 4)
      let pl := placeWords (r % 16) (bitsOf r 7 4) (bitsOf l 63 32) 128 used x.words
      (put { x with st := .checked, reloc := bitsOf l 63 32, placed := pl }).result t0 t1 1
    else
      ((put { x with st := .rejected }).postCore c
        (mkRec 7 0 0 0 c 0xFFFF 0 (r % 2 ^ 11) (st.die (dieOf c)).clk crc)).result t0 t1 0)

/-- CFGCRC.discard (R422). -/
def execCfgcrcDiscard (p : Pred) (t1 t0 : Target) (s : State) : Host.Outcome State Fault Refusal :=
  go (s.cfgcrc p.code fun _ r st =>
    let c := st.cur.agent.core
    let k := st.core c
    (st.setCore c { k with staging := mdel k.staging (stageKey r) }).result t0 t1 1)

/-- CFGCRC.act (R422): the areas of the slot become its configuration, with the stations, routes and readout masks that
the checks have placed, and are empty (R421). The slot has no instance record by it: no thread is admitted there. -/
def execCfgcrcAct (p : Pred) (t1 t0 : Target) (s : State) : Host.Outcome State Fault Refusal :=
  go (s.cfgcrc p.code fun _ r st =>
    let c := st.cur.agent.core
    let k := st.core c
    let slot := bitsOf r 10 8
    let areas := k.staging.filter (fun e => e.1 % 8 = slot)
    if areas.any (fun e => e.2.st = .receiving || e.2.st = .rejected) || !areas.any (fun e => e.2.st = .checked) then
      st.result t0 t1 0
    else
      let act := (areas.filter (fun e => e.2.st = .checked)).foldl (fun m e => mput m e.1 e.2)
        (k.active.filter (fun e => e.1 % 8 != slot))
      (st.setCore c { k with active := act, staging := k.staging.filter (fun e => e.1 % 8 != slot) }).result t0 t1 1)

/-! ## TLBINV (R358, R359) -/

/-- log2 of a granule. -/
def granLg : Gran → Nat
  | .g64k => 16 | .g2m => 21 | .g512m => 29 | .g32g => 35

/-- An entry of the tenant whose page overlaps a range. -/
def TlbEntry.inRange (e : TlbEntry) (tenant lo hi : Nat) : Bool :=
  e.tenant = tenant && e.va < hi && lo < e.va + 2 ^ e.lg

/-- An operation that used an address in a range translates again before it performs: its address is
global, and it is not on its way. -/
def markStale (lo hi : Nat) (o : Op) : Op :=
  if !o.performed && o.waiting = 0 && o.va < scratchVa && lo ≤ o.va + 15 && o.va < hi
      && o.parts.all (fun q => q.pa < 2 ^ 52) && !o.parts.isEmpty
  then { o with stale := true } else o

/-- A pass with its buffered operations marked. -/
def markPass (lo hi : Nat) (p : Pass) : Pass :=
  { p with
    ops := p.ops.map (fun e => (e.1, markStale lo hi e.2))
    outs := p.outs.map (fun o => match o with | .op k x => .op k (markStale lo hi x) | o => o) }

/-- A window whose dirty lines in a range are marked: each is placed again before its write-back (R359). -/
def markWindow (lo hi : Nat) (x : Window) : Window :=
  { x with lines := x.lines.map (fun l =>
      if l.2.dirty && decide (lo < l.1 * 128 + 128) && decide (l.1 * 128 < hi) then (l.1, { l.2 with stale := true }) else l) }

/-- Every TLB drops the entries of a range, and every buffered operation and dirty window line of the tenant that
lies in it is marked (R358, R359). -/
def State.invalidate (s : State) (tenant lo hi : Nat) : State :=
  let keep (e : TlbEntry) : Bool := !e.inRange tenant lo hi
  let s := s.dies.foldl (fun (st : State) e => st.setDie e.1 { st.die e.1 with tlb := (st.die e.1).tlb.filter keep }) s
  s.cores.foldl (fun (st : State) e =>
    let k := st.core e.1
    let mark (t : Nat × Thread) : Nat × Thread := match t.2.pass with
      | some p => if st.tenantOf (.fab e.1 t.1) = tenant then (t.1, { t.2 with pass := some (markPass lo hi p) }) else t
      | none => t
    let st := st.setCore e.1 { k with
      tlb := k.tlb.filter keep
      microTlb := k.microTlb.map (fun m => (m.1, m.2.filter keep))
      threads := k.threads.map mark
      wgs := k.wgs.map (fun w => if (st.launch (st.gang w.2.gang).seq).desc.tenant = tenant then
          (w.1, { w.2 with windows := w.2.windows.map (fun p => (p.1, markWindow lo hi p.2)) })
        else w)
      nrOps := k.nrOps.map (fun x => if x.2.tenant = tenant then (x.1, { x.2 with op := markStale lo hi x.2.op }) else x) }
    st.sendEntries e.1 (st.entryOf e.1 tenant)) s

/-- TLBINV (R358): a length of 0 completes at once. -/
def execTlbinv (p : Pred) (g : Gran) (t1 t0 : Target) (s : State) : Host.Outcome State Fault Refusal :=
  go (s.privFire [.L, .R] p.code fun l r st =>
    let size := 2 ^ granLg g
    let a := va57 l.toNat
    let tenant := bitsOf l.toNat 62 57
    let lo := a / size * size
    let hi := min (ceilDiv (a + r.toNat) size * size) (2 ^ 57)
    if r = 0 then st.result t0 t1 1
    else
      let st := st.invalidate tenant lo hi
      { st with invals := mput st.invals (mfresh st.invals) { agent := st.cur.agent, idx := st.cur.idx, tenant, lo, hi } })

/-- No write of the tenant that a removed entry may have placed is still on its way to its home. -/
def State.writesLanded (s : State) (v : Inval) : Bool :=
  s.msgs.all (fun e => match e.2 with
    | .write (.stores refs wins) c _ _ =>
      refs.all (fun r => s.refTenant r != v.tenant) && wins.all (fun x => s.winTenant c x != v.tenant)
    | .write (.engine ctx) _ _ _ => ((s.headCmd ctx).map (·.tenant)) != some v.tenant
    | _ => true)

/-- TLBINV_COMPLETE: every TLB has removed the entries, and no access that used one can perform any more
without a new translation (R359). -/
def execTlbinvComplete (n : Nat) (s : State) : Host.Outcome State Fault Refusal :=
  go (match mget s.invals n with
    | none => s
    | some v =>
      if !s.writesLanded v then s
      else
        let s := s.invalidate v.tenant v.lo v.hi
        let s := { s with invals := mdel s.invals n }
        match s.passOf v.agent with
        | none => s
        | some p => match instrAt (s.block p.img p.blk) v.idx with
          | some i =>
            let ts := targetsOf i
            (s.emitAt v.agent v.idx 0 (ts.getD 0 .none) 1).emitAt v.agent v.idx 1 (ts.getD 1 .none) 1
          | none => s)

end Sys2Proof.Machine
end

