-- ==== Sys2Proof/Machine/Loader.lean ====
section
/-! DEFINITION. Acceptance of an image (R85 to R106, R116 to R124, R172, R180, R259, R274, R301, R307 to R309,
R320, R423, R438): its header and signature, its sections, its declarations, and each block with its
placement record and its CRC entries, in that order. -/

namespace Sys2Proof.Machine

/-- A rejection: the reason, and the fields of R91. -/
structure Rej where
  reason : Reason
  sect : Nat := 0
  blk : Nat := 0
  idx : Nat := 0xFF
  col : Nat := 0xFF
  row : Nat := 0xFF
  deriving DecidableEq, Repr

/-- A check that rejects. -/
def must (c : Bool) (r : Rej) : Except Rej Unit := if c then .ok () else .error r

/-- Every byte is zero. -/
def zeros (bs : List Byte) : Bool := bs.all (· == 0)

/-- The first failure of a check over a list. -/
def eachOf {α : Type} (xs : List α) (f : α → Except Rej Unit) : Except Rej Unit :=
  xs.foldl (fun r x => match r with
    | .ok _ => f x
    | .error e => .error e) (.ok ())

/-! ## Header and signature (R85, R86, R423, R438) -/

/-- The fields of a header. -/
structure Header where
  len : Nat
  count : Nat
  key : Nat
  priv : Bool
  pipe : Bool
  digest : Nat
  r : Nat
  s : Nat
  deriving DecidableEq, Repr

def headerOf (h : List Byte) : Header :=
  let flags := fieldAt h 6 2
  { len := fieldAt h 8 8, count := fieldAt h 0x14 2, key := fieldAt h 0x10 4, priv := flag flags 0, pipe := flag flags 1,
    digest := beNat ((h.drop 0x20).take 48), r := beNat ((h.drop 0x50).take 48), s := beNat ((h.drop 0x80).take 48) }

/-- The first failing check of a header, before the signature: IMGMAGIC, IMGVER, IMGLEN, IMGHDR, PRIVREQ,
KEYID. -/
def headerReason (keys : Map (Nat × Nat)) (h : List Byte) (needPriv : Bool) : Option Reason :=
  let x := headerOf h
  if fieldAt h 0 4 != 0x4E444B49 then some .imgmagic
  else if fieldAt h 4 2 != 1 then some .imgver
  else if x.len % 16 != 0 || x.len < 0x200 || 256 * 2 ^ 20 < x.len then some .imglen
  else if 4 ≤ fieldAt h 6 2 || x.count < 2 || 16 < x.count || !zeros ((h.drop 0x16).take 10)
      || !zeros ((h.drop 0xB0).take 80) then some .imghdr
  else if needPriv && !x.priv then some .privreq
  else if 16 ≤ x.key || (mget keys x.key).isNone || x.priv != decide (x.key < 4) then some .keyid
  else none

/-- The digest of an image: header bytes 0x00 to 0x1F and the bytes from 0x100 on (R86). -/
def imageDigest (img : List Byte) : Nat := sha384 (img.take 0x20 ++ img.drop 0x100)

/-- Digest and signature of an image whose header passes. -/
def signatureOk (keys : Map (Nat × Nat)) (img : List Byte) : Bool :=
  let x := headerOf img
  let d := imageDigest img
  x.digest = d && (match mget keys x.key with
    | some k => ecdsaOk k d x.r x.s
    | none => false)

/-! ## Sections (R87, R88, R116) -/

structure Section where
  ty : Nat
  count : Nat
  bytes : List Byte
  deriving DecidableEq, Repr

def secOf (ss : List Section) (ty : Nat) : Section := (ss.find? (·.ty = ty)).getD { ty, count := 0, bytes := [] }

/-- Entry sizes of the sections of fixed entries (R88). -/
def entrySize (ty : Nat) : Option Nat :=
  match ty with
  | 1 => some 32
  | 4 => some 8
  | 5 => some 8
  | 6 => some 16
  | 7 => some 16
  | 8 => some 16
  | 9 => some 12
  | 11 => some 12
  | _ => none

/-- Entry counts that a section allows (R88). -/
def countAllowed (ty n : Nat) : Bool :=
  match ty with
  | 1 => n = 1
  | 4 => 1 ≤ n && n ≤ 4
  | 5 => n ≤ 16
  | 6 => n ≤ 16
  | 7 => n ≤ 64
  | 8 => 1 ≤ n && n ≤ 8
  | 9 => n ≤ 256
  | _ => true

/-- The entries of a section of fixed entries. -/
def entriesOf (x : Section) : List (List Byte) :=
  let n := (entrySize x.ty).getD 1
  (List.range x.count).map (fun i => (x.bytes.drop (n * i)).take n)

/-- The section table, each entry checked in its order. `spans` are the byte ranges taken so far. A section of no bytes
overlaps another where its offset lies strictly inside it. (log 72, DESIGN CHOICE) -/
def sectionsFrom (img : List Byte) (x : Header) : List Nat → List (Nat × Nat) → List Section →
    Except Rej (List Section)
  | [], _, ss => .ok ss
  | k :: rest, spans, ss =>
    let e := (img.drop (0x100 + 16 * k)).take 16
    let ty := fieldAt e 0 2
    let n := fieldAt e 4 4
    let off := fieldAt e 8 4
    let len := fieldAt e 12 4
    let sizeOk := match entrySize ty with
      | some z => len = n * z
      | none => if ty = 2 then 8 * n ≤ len else if ty = 10 then 16 * n ≤ len else true
    if 1 ≤ ty && ty ≤ 11 && !ss.any (·.ty = ty) && fieldAt e 2 2 = 0 && off % 16 = 0 && off + len ≤ x.len
        && !((ty = 7 || ty = 8) && !x.pipe) && !((ty = 3 || ty = 4 || ty = 11) && x.priv)
        && !spans.any (fun p => off < p.2 && p.1 < off + len) && countAllowed ty n && sizeOk
    then sectionsFrom img x rest ((off, off + len) :: spans) (ss ++ [{ ty, count := n, bytes := (img.drop off).take len }])
    else .error { reason := .sectn, sect := ty }

/-- What is left of a PLACE section after `n` records, each of the size that its own header gives; none where it ends
within one (R87, R116). -/
def afterRecords : Nat → List Byte → Option (List Byte)
  | 0, bs => some bs
  | n + 1, bs =>
    let size := 8 + 4 * fieldAt bs 3 1 + 4 * fieldAt bs 4 2
    if bs.length < 8 || bs.length < size then none else afterRecords n (bs.drop size)

/-- Sections that an image must have (R88). -/
def requiredSections (x : Header) : List Nat :=
  [1, 2] ++ (if x.priv then [] else [3, 4, 11]) ++ (if x.pipe then [7, 8] else [])

/-- The section table of an image. -/
def readSections (img : List Byte) : Except Rej (List Section) := do
  let x := headerOf img
  let ss ← sectionsFrom img x (List.range x.count) [(0, 0x100 + 16 * x.count)] []
  eachOf (requiredSections x) (fun t => must (ss.any (·.ty = t)) { reason := .sectn, sect := t })
  let p := secOf ss 3
  must (x.priv || (p.count = (secOf ss 2).count && afterRecords p.count p.bytes == some [])) { reason := .sectn, sect := 3 }
  return ss

/-! ## Declarations (R89, R93) -/

def inRange (v lo hi : Nat) : Bool := lo ≤ v && v ≤ hi

/-- The bytes of block `n`; none where its index entry leaves the section (R93). -/
def rawBlock (b : Section) (n : Nat) : Option (List Byte) :=
  let off := fieldAt b.bytes (8 * n) 4
  let len := fieldAt b.bytes (8 * n + 4) 4
  if off % 4 = 0 && 8 * b.count ≤ off && off + len ≤ b.bytes.length then some ((b.bytes.drop off).take len) else none

/-- Header word 0 of block `n` as it stands. -/
def rawWord0 (b : Section) (n : Nat) : Nat := ((rawBlock b n).map (fun r => fieldAt r 0 4)).getD 0

def badDecl (sect : Nat) : Rej := { reason := .decl, sect }

/-- KERNEL: the image without its other declarations. -/
def declKernel (x : Header) (k b : Section) : Except Rej Image := do
  let e := k.bytes
  let im : Image := {
    digest := x.digest, priv := x.priv, pipe := x.pipe, maxN := fieldAt e 4 2, maxW := fieldAt e 6 1
    maxH := fieldAt e 7 1, scratch := fieldAt e 8 4, privBytes := fieldAt e 12 4, lease := fieldAt e 16 1
    argBytes := fieldAt e 18 2 }
  must (inRange (fieldAt e 0 4) 1 262144 && fieldAt e 0 4 = b.count && inRange im.maxN 1 4096 && inRange im.maxW 1 4
    && inRange im.maxH 1 4 && im.scratch % 128 = 0 && im.scratch ≤ 2 ^ 20 && im.privBytes % 16 = 0
    && im.privBytes ≤ 65536 && im.lease ≤ 3 && inRange (fieldAt e 17 1) 1 4 && im.argBytes % 8 = 0
    && im.argBytes ≤ 4096 && zeros (e.drop 0x14)) (badDecl 1)
  return im

/-- ROLE: `nr` roles of blocks below `nb`. -/
def declRoles (im : Image) (nr nb : Nat) (x : Section) : Except Rej (List RoleDecl) := do
  let es := entriesOf x
  must (es.length = nr) (badDecl 4)
  eachOf es.zipIdx (fun (e, i) =>
    let z := fieldAt e 2 2
    must (fieldAt e 0 1 = i && fieldAt e 1 1 = 0 && fieldAt e 4 4 < nb
      && (if i + 1 < nr then inRange z 8 4088 && z % 8 = 0 else z = 0)) (badDecl 4))
  let rs : List RoleDecl := es.map (fun e => { size := fieldAt e 2 2, entry := fieldAt e 4 4 })
  must (rs.foldl (fun n r => n + r.size) 0 < im.maxN) (badDecl 4)
  return rs

/-- The numbers at offset 0 of the entries are distinct. -/
def distinct (es : List (List Byte)) : Bool :=
  let ks := es.map (fieldAt · 0 1)
  ks.eraseDups.length = ks.length

/-- SLUICE. -/
def declSluices (nr : Nat) (x : Section) : Except Rej (List SluiceDecl) := do
  let es := entriesOf x
  must (distinct es && es.all (fun e => fieldAt e 0 1 ≤ 15 && inRange (fieldAt e 1 1) 1 64 && fieldAt e 2 1 < nr
    && fieldAt e 3 1 < nr && fieldAt e 6 2 = 0)) (badDecl 5)
  return es.map (fun e =>
    { q := fieldAt e 0 1, depth := fieldAt e 1 1, producer := fieldAt e 2 1, consumer := fieldAt e 3 1, allow := fieldAt e 4 2 })

/-- STREAM: a cluster peer lies inside the maximum rectangle. -/
def declStreams (im : Image) (x : Section) : Except Rej (List StreamDecl) := do
  let es := entriesOf x
  let ds : List StreamDecl := es.map (fun e => {
    port := fieldAt e 0 1, kind := fieldAt e 1 1, elem := fieldAt e 2 1, rank := fieldAt e 3 1
    dx := signedOf (fieldAt e 4 1) 8, dy := signedOf (fieldAt e 5 1) 8, kib := fieldAt e 6 2, slot := fieldAt e 8 4 })
  must (distinct es && es.all (fun e => fieldAt e 12 4 = 0) && ds.all (fun d =>
    d.port ≤ 15 && d.kind ≤ 2 && [1, 2, 4, 8].contains d.elem && d.rank ≤ 7 && d.slot ≤ 31
      && (if d.kind = 0 then inRange d.kib 8 64 else d.kib = 0)
      && (d.kind != 1 || (d.dx.natAbs < im.maxW && d.dy.natAbs < im.maxH)))) (badDecl 6)
  return ds

/-- POLDER: one per die, on ranges of blocks that do not meet. A range is not empty and ends within the block count.
(log 72, DESIGN CHOICE) -/
def declPolders (nb : Nat) (x : Section) : Except Rej (List PolderDecl) := do
  let es := entriesOf x
  let ps : List PolderDecl := es.map (fun e => {
    id := fieldAt e 0 1, die := fieldAt e 1 1, first := fieldAt e 4 4, count := fieldAt e 8 4, w := fieldAt e 12 1
    h := fieldAt e 13 1 })
  let apart (a b : PolderDecl) : Bool := a.id = b.id || a.first + a.count ≤ b.first || b.first + b.count ≤ a.first
  must (es.all (fun e => fieldAt e 2 2 = 0 && fieldAt e 14 2 = 0)
    && ps.zipIdx.all (fun p => p.1.id = p.2 && p.1.die ≤ 7 && 1 ≤ p.1.count && p.1.first + p.1.count ≤ nb
      && inRange p.1.w 1 4 && inRange p.1.h 1 4)
    && (ps.map (·.die)).eraseDups.length = ps.length && ps.all (fun a => ps.all (apart a))) (badDecl 8)
  return ps

/-- CULVERT between two declared polders; one that names another is refused. (log 72, DESIGN CHOICE) -/
def declCulverts (polders : Nat) (x : Section) : Except Rej (List CulvertDecl) := do
  let es := entriesOf x
  let cs : List CulvertDecl := es.map (fun e => {
    id := fieldAt e 0 1, producer := fieldAt e 1 1, consumer := fieldAt e 2 1, bytes := fieldAt e 4 4
    cap := fieldAt e 8 4 })
  must (distinct es && es.all (fun e => fieldAt e 3 1 = 0 && fieldAt e 12 4 = 0) && cs.all (fun c =>
    c.id ≤ 63 && c.producer != c.consumer && c.producer < polders && c.consumer < polders && c.bytes % 16 = 0
      && inRange c.bytes 16 4096 && inRange c.cap 1 (2 ^ 24))) (badDecl 7)
  return cs

/-- ARG: bound constants lie in their blocks' pools. -/
def declArgs (im : Image) (nb : Nat) (b x : Section) : Except Rej (List ArgDecl) := do
  let es := entriesOf x
  let as : List ArgDecl := es.map (fun e => {
    slot := fieldAt e 0 1, size := fieldAt e 1 1, off := fieldAt e 2 2, blk := fieldAt e 4 4, k := fieldAt e 8 1 })
  must (es.all (fun e => zeros (e.drop 9)) && as.all (fun a =>
    a.slot ≤ 31 && (a.size = 4 || a.size = 8) && a.off % a.size = 0 && a.off + a.size ≤ im.argBytes && a.blk < nb
      && a.k + a.size / 4 ≤ bitsOf (rawWord0 b a.blk) 15 8)) (badDecl 9)
  return as

/-- DATA: each region's slot is declared with size 8. -/
def declDatas (as : List ArgDecl) (x : Section) : Except Rej (List DataDecl) := do
  let es := (List.range x.count).map (fun i => (x.bytes.drop (16 * i)).take 16)
  must (es.all (fun e =>
    as.any (fun a => a.slot = fieldAt e 0 1 && a.size = 8) && inRange (fieldAt e 1 1) 4 16 && fieldAt e 2 2 = 0
      && 16 * x.count ≤ fieldAt e 8 4 && fieldAt e 8 4 + fieldAt e 4 4 ≤ x.bytes.length && fieldAt e 12 4 = 0)) (badDecl 10)
  return es.map (fun e =>
    { slot := fieldAt e 0 1, align := fieldAt e 1 1, bytes := (x.bytes.drop (fieldAt e 8 4)).take (fieldAt e 4 4) })

/-- The declarations of an image (R89). -/
def readDecls (img : List Byte) (ss : List Section) : Except Rej Image := do
  let x := headerOf img
  let b := secOf ss 2
  let im ← declKernel x (secOf ss 1) b
  let nr := fieldAt (secOf ss 1).bytes 17 1
  let roles ← if x.priv then pure [] else declRoles im nr b.count (secOf ss 4)
  let sluices ← declSluices nr (secOf ss 5)
  let streams ← declStreams im (secOf ss 6)
  let polders ← declPolders b.count (secOf ss 8)
  let culverts ← declCulverts polders.length (secOf ss 7)
  let args ← declArgs im b.count b (secOf ss 9)
  let datas ← declDatas args (secOf ss 10)
  return { im with roles, sluices, streams, polders, culverts, args, datas }

/-! ## Instructions of a block (R98 to R107, R111 to R115, R172, R180, R259, R308, R320) -/

/-- What acceptance knows of the image while it checks a block: its declarations, its block count, which
blocks are rare, and the direction in which earlier instructions use each port (true: writing). -/
structure Check where
  im : Image
  blocks : Nat
  rare : List Bool
  ports : List (Nat × Bool) := []
  deriving DecidableEq, Repr

/-- The polder whose range holds a block (R57, R89). -/
def polderOf (im : Image) (b : Nat) : Option Nat :=
  (im.polders.find? (fun p => p.first ≤ b && b < p.first + p.count)).map (·.id)

/-- Block `b` may enter block `r` (R106). -/
def blockRefOk (k : Check) (b r : Nat) : Bool :=
  r < k.blocks && (match polderOf k.im r with
    | some p => polderOf k.im b = some p
    | none => true)

/-- Constant words an instruction reads: the first index and how many (R96, R101, R111, R276, R316). -/
def constsRead (i : Instr) : Option (Nat × Nat) :=
  let field (f : IField) (wide : Bool) : Option (Nat × Nat) := match f with
    | .const k => some (k, if wide then 2 else 1)
    | .imm _ => none
  match i with
  | .const _ ty k _ => some (k, if ty = .b64 then 2 else 1)
  | .addi _ ty _ f _ => field f (ty.width = 64)
  | .andi _ ty f _ | .ori _ ty f _ | .xori _ ty f _ => field f (ty = .b64)
  | .shli _ _ _ f _ => field f false
  | .shri _ _ f _ => field f false
  | .cmpiSigned _ _ w f _ | .cmpiUnsigned _ _ w f _ => field f (w = .w64)
  | .switch _ n k => some (k, n.toNat + 1)
  | .mres _ _ _ (.l6 _) k | .mres _ _ _ (.l8 _) k => some (k.toNat, 2)
  | .cpy _ _ _ _ _ k => some (k.toNat, 1)
  | _ => none

/-- Blocks an instruction names, with the words of a SWITCH table (R106, R172). -/
def blocksNamed (consts : List W32) (i : Instr) : List Nat :=
  match i with
  | .br _ b | .call _ b | .yield _ b | .xpath _ b => [b.toNat]
  | .switch _ n k => (List.range (n.toNat + 1)).map (fun j => (consts.getD (k + j) 0).toNat)
  | _ => []

/-- A table word that an ARG entry binds (R172). -/
def tableBound (im : Image) (blk : Nat) (i : Instr) : Bool :=
  match i with
  | .switch _ n k => im.args.any (fun a => a.blk = blk && a.k < k + n.toNat + 1 && k < a.k + a.size / 4)
  | _ => false

/-- The port an instruction uses, and whether it writes it (R259). -/
def portUse (i : Instr) : Option (Nat × Bool) :=
  match i with
  | .sput _ q _ | .smark _ q _ => some (q.toNat, true)
  | .sget _ q _ _ => some (q.toNat, false)
  | _ => none

/-- A port is declared, used in one direction, and takes the instruction (R112, R259, R307, R308). -/
def portOk (k : Check) (i : Instr) : Bool :=
  match portUse i with
  | none => true
  | some (q, w) =>
    match streamDecl k.im q with
    | none => false
    | some d => !k.ports.contains (q, !w) && (match i with
      | .smark .. => d.kind = 2
      | _ => true)

/-- A sluice, an argument slot or a culvert an instruction names is declared (R113, R115, R180, R320). -/
def namesOk (k : Check) (blk : Nat) (i : Instr) : Except Reason Unit :=
  let sluice (q : BitVec 4) : Except Reason Unit := need (k.im.sluices.any (·.q = q.toNat)) .xop
  let end_ (cv : BitVec 6) (f : CulvertDecl → Nat) : Except Reason Unit :=
    need (k.im.pipe && k.im.culverts.any (fun c => c.id = cv.toNat && polderOf k.im blk = some (f c))) .field
  match i with
  | .qpush _ q _ | .qgrant _ q _ => sluice q
  | .qpop _ q _ _ | .qtry _ q _ _ => sluice q
  | .kset _ a _ => need (k.im.priv || k.im.args.any (·.slot = a.toNat)) .xop
  | .cpySend _ _ _ _ _ cv => end_ cv (·.producer)
  | .cpyRecv _ _ _ _ _ cv => end_ cv (·.consumer)
  | _ => .ok ()

/-- Targets run forward and stay below the instruction count (R102). -/
def targetsForward (idx count : Nat) (i : Instr) : Bool :=
  (targetsOf i).all (fun t => match t with
    | .to _ j => idx < j.toNat && j.toNat < count
    | .none => true)

/-- The checks of one instruction word in its place. -/
def checkInstr (k : Check) (blk idx count : Nat) (consts : List W32) (i : Instr) : Except Reason Unit := do
  need (targetsForward idx count i) .target
  match constsRead i with
    | some (j, n) => need (j + n ≤ consts.length) .constix
    | none => pure ()
  need (portOk k i) .xop
  namesOk k blk i
  need (!tableBound k.im blk i && (blocksNamed consts i).all (blockRefOk k blk)) .blockref
  match i with
    | .xpath _ b => need (k.rare.getD b.toNat false) .blockref
    | _ => pure ()

/-- The checks of a clause header (R98, R99); `first` tells a block's first clause. -/
def checkHeader (im : Image) (h : Nat) (first : Bool) : Except Reason Unit := do
  need (bitsOf h 31 28 = 0xC && bitsOf h 19 16 = 0) .clhdr
  let c ← clsOf (bitsOf h 23 20)
  let slu := flag h 7
  let bar := flag h 4
  let n := bitsOf h 27 24
  need (!(slu && bar) && (slu || bar || h % 16 = 0) && (!slu || im.sluices.any (·.q = h % 16))
    && (n != 0 || (first && c = .alu && !flag h 6))) .clwait

/-- A clause is ROUND exactly when it holds collectives or MTX instructions, and then nothing else (R99). -/
def roundOk (h : Nat) (is : List Instr) : Bool :=
  if is.isEmpty then true
  else if bitsOf h 23 20 = 3 then flag h 6
  else if flag h 6 then bitsOf h 23 20 = 0 && is.all isCollective
  else !is.any isCollective

/-! ## An instruction among the others of its block (R102, R103, R105, R106, R274, R301) -/

/-- The LSID an instruction holds, and whether it is a reading one (R105, R113, R276, R316). -/
def lsidUse (i : Instr) : Option (Bool × Nat) :=
  match encodeFields i with
  | none => none
  | some f =>
    let m := f.hi / 16
    let x := bitsOf f.ext 31 27
    match f.cls with
    | .flow => if f.op = 6 && f.xop % 2 = 0 then some (false, m) else none
    | .mem =>
      if f.op = 0 || f.op = 1 || f.op = 9 then some (true, m)
      else if f.op = 4 then some (true, x)
      else if f.op = 2 || f.op = 3 || f.op = 6 || f.op = 8 || f.op = 10 then some (false, m) else none
    | .sync =>
      if f.op < 0x20 then some (false, if f.op % 16 = 9 || f.op % 16 = 10 then x else m)
      else if f.op = 0x39 then some (true, m)
      else if f.op ≤ 0x22 || f.op = 0x24 || f.op = 0x28 || f.op = 0x2B then some (false, m) else none
    | .mtx => if f.op = 2 || f.op = 8 || f.op = 12 then some (false, x) else none
    | .eng => some (false, x)
    | .sys => if f.op = 5 then some (false, m) else none
    | _ => none

/-- The register an LVW or a register-kind NULL names. -/
def lvwUse (i : Instr) : Option Nat :=
  match i with
  | .lvw _ v => some v.toNat
  | .nullRegister _ v => some v.toNat
  | _ => none

/-- A branch instruction (R106). -/
def isBranch (i : Instr) : Bool :=
  match encodeFields i with
  | some f => f.cls = .flow && (f.op ≤ 5 || f.op = 7 || f.op = 8)
  | none => false

/-- An instruction whose results go to an LVW only: a returning atomic, or an MTX instruction (R102, R274). -/
def lvwOnly (i : Instr) : Bool :=
  match encodeFields i with
  | some f => (f.cls = .sync && f.op < 0x10) || f.cls = .mtx
  | none => false

/-- A target names an input of its consumer (R102, R274). -/
def consumerOk (is : List (Nat × Instr)) (i : Instr) (t : Target) : Bool :=
  match t with
  | .none => true
  | .to f j => match is.find? (·.1 = j.toNat) with
    | some (_, c) => (allInputs c).contains f && (!lvwOnly i || (match c with
      | .lvw .. => f = .L
      | _ => false))
    | none => true

/-- Every input of an instruction is named by a target (R103). -/
def inputsNamed (is : List (Nat × Instr)) (idx : Nat) (i : Instr) : Bool :=
  (allInputs i).all (fun f => is.any (fun e => (targetsOf e.2).any (fun t => match t with
    | .to g j => g = f && j.toNat = idx
    | .none => false)))

/-- The LSID of an instruction agrees with the mask, and a reading one has it alone (R105). -/
def lsidOk (ws : List W32) (is : List (Nat × Instr)) (idx : Nat) (i : Instr) : Bool :=
  match lsidUse i with
  | none => true
  | some (true, k) => !flag (lsidMask ws) k && !is.any (fun e => e.1 != idx && (lsidUse e.2).map (·.2) = some k)
  | some (false, k) => flag (lsidMask ws) k

/-- Every QPUSH of a block finds its sluice in the first clause (R301). -/
def pushOk (ws : List W32) (i : Instr) : Bool :=
  match i with
  | .qpush _ q _ => match clausesOf ws with
    | c :: _ => flag c.hdr 7 && c.hdr % 16 = q.toNat
    | [] => false
  | _ => true

/-- The checks of a word that concern the other instructions of its block: `is` are those that decode. One that does
not decode fails at its own index (R90). -/
def checkUse (ws : List W32) (is : List (Nat × Instr)) (idx : Nat) (i : Instr) : Except Reason Unit := do
  need ((targetsOf i).all (consumerOk is i)) .target
  need (inputsNamed is idx i) .input
  need (lsidOk ws is idx i) .lsid
  need ((lvwUse i).all (flag (lvwMask ws))) .lvwmask
  need (pushOk ws i) .clwait

/-- The instructions of a clause, `n` of them, off a word list: checked in index order, each word whole (R90). `use` are
the checks of checkUse. -/
def checkCodes (use : Nat → Instr → Except Reason Unit) (k : Check) (blk count : Nat) (consts : List W32) (c : Cls) :
    Nat → Nat → List W32 → List Instr → Except Rej (Check × List Instr × List W32)
  | 0, _, ws, is => .ok (k, is, ws)
  | n + 1, idx, ws, is =>
    let bad (r : Reason) : Rej := { reason := r, sect := 2, blk, idx }
    match ws with
    | [] => .error { reason := .blklen, sect := 2, blk }
    | w :: rest =>
      let x := isX c (bitsOf w.toNat 31 25)
      if count ≤ idx then .error { reason := .blkcount, sect := 2, blk }
      else if x && rest.isEmpty then .error { reason := .blklen, sect := 2, blk }
      else
        match decode ⟨c, w, if x then rest.head? else none⟩ with
        | .error r => .error (bad r)
        | .ok i =>
          match (do checkInstr k blk idx count consts i; use idx i) with
          | .error r => .error (bad r)
          | .ok _ =>
            let k := match portUse i with
              | some u => { k with ports := u :: k.ports }
              | none => k
            checkCodes use k blk count consts c n (idx + 1) (if x then rest.drop 1 else rest) (is ++ [i])

/-- The clauses of a block: headers and instruction words in index order. Words after the last counted instruction are
read as further clauses. A breach of the ROUND flag names the clause's first instruction, any other breach of a clause
none. (log 72, DESIGN CHOICE) -/
def checkClauses (use : Nat → Instr → Except Reason Unit) (k : Check) (blk count : Nat) (consts : List W32) :
    Nat → Bool → Nat → List W32 → Except Rej (Check × Nat)
  | 0, _, idx, _ => .ok (k, idx)
  | _, _, idx, [] => .ok (k, idx)
  | fuel + 1, first, idx, h :: ws =>
    match checkHeader k.im h.toNat first with
    | .error r => .error { reason := r, sect := 2, blk }
    | .ok _ =>
      match clsOf (bitsOf h.toNat 23 20) with
      | .error r => .error { reason := r, sect := 2, blk }
      | .ok c =>
        match checkCodes use k blk count consts c (bitsOf h.toNat 27 24) idx ws [] with
        | .error r => .error r
        | .ok (k, is, rest) =>
          if roundOk h.toNat is then checkClauses use k blk count consts fuel false (idx + is.length) rest
          else .error { reason := .clwait, sect := 2, blk, idx }

/-! ## A whole block (R94 to R106) -/

/-- The checks that need every instruction of a block, after all its words; that of the round-collective flag stands
here, not with the header. (log 72, DESIGN CHOICE) -/
def checkWhole (blk : Nat) (ws : List W32) : Except Rej Unit := do
  let is := instrsOf ws
  let bad (r : Reason) (i : Nat) : Rej := { reason := r, sect := 2, blk, idx := i }
  must (blockFlag ws 1 == (clausesOf ws).any (fun c => flag c.hdr 6)) (bad .blkflags 0xFF)
  must ((List.range 32).all (fun k => !flag (lsidMask ws) k || is.any (fun e => lsidUse e.2 = some (false, k)))) (bad .lsid 0xFF)
  must ((List.range 64).all (fun v => !flag (lvwMask ws) v || is.any (fun e => lvwUse e.2 = some v))) (bad .lvwmask 0xFF)
  must (is.any (fun e => isBranch e.2)) (bad .branch 0xFF)

/-- The words of a byte list. -/
def wordsOf (bs : List Byte) : List W32 :=
  (List.range (bs.length / 4)).map (fun i => BitVec.ofNat 32 (leNat ((bs.drop (4 * i)).take 4)))

/-- A block's header, clauses and instruction words (R90). A header count that the clauses do not make up shows after
them. (log 88, DESIGN CHOICE) -/
def checkBlock (k : Check) (blk : Nat) (raw : Option (List Byte)) : Except Rej (Check × List W32) := do
  let bad (r : Reason) : Rej := { reason := r, sect := 2, blk }
  let bs := raw.getD []
  must (raw.isSome && 16 ≤ bs.length && bs.length % 4 = 0) (bad .blklen)
  let ws := wordsOf bs
  let w0 := (ws.headD 0).toNat
  must (bitsOf w0 31 24 = 0xB7) (bad .blkmagic)
  must (inRange (instrCount ws) 1 128) (bad .blkcount)
  must (constCount ws ≤ 63) (bad .blkconst)
  must (bitsOf w0 7 6 = 0 && (k.im.priv || bitsOf w0 5 3 ≤ 5)) (bad .blkflags)
  must (4 + constCount ws ≤ ws.length) (bad .blklen)
  let body := ws.drop (4 + constCount ws)
  let r ← checkClauses (checkUse ws (instrsOf ws)) k blk (instrCount ws) (constPool ws) body.length true 0 body
  must (r.2 = instrCount ws) (bad .blkcount)
  checkWhole blk ws
  return (r.1, ws)

/-! ## The placement record (R95, R116 to R122) -/

/-- A record's fields; the width code is put as the width it codes. -/
def placementOf (bs : List Byte) : Placement :=
  let n := fieldAt bs 3 1
  let ws := wordsOf (bs.drop 8)
  let c := fieldAt bs 0 1
  { width := if c = 0 then 0 else 2 ^ (c + 2), fw := fieldAt bs 1 1, fh := fieldAt bs 2 1, entries := ws.take n, routes := ws.drop n }

/-- Tile kinds on which an instruction may stand (R18, R118): for an edge tile, by column. -/
def edgeColumnOk (i : Instr) (col : Nat) : Bool :=
  match encodeFields i with
  | none => false
  | some f => match f.cls with
    | .cvt => col % 8 = 3
    | .mem => if 0x10 ≤ f.op then col % 8 = 7 else col % 2 = 0
    | .sync => if f.op < 0x20 then col % 2 = 0 || col % 4 = 1 else col % 2 = 0
    | .mtx => col % 2 = 0
    | .eng => col % 2 = 0
    | .sys => f.op = 5 && col % 2 = 0
    | _ => false

/-- The instruction stands on edge tiles only (R118). -/
def edgeOnly (i : Instr) : Bool := (List.range 16).any (edgeColumnOk i)

/-- One hop of a route from a tile; none where it leaves a `w` by `h` grid (R119). -/
def hopFrom (w h : Nat) (t : Nat × Nat) (code : Nat) : Option (Nat × Nat) :=
  let at_ (x y : Nat) : Option (Nat × Nat) := if x < w && y < h then some (x, y) else none
  match code with
  | 0 => at_ (t.1 + 1) t.2
  | 1 => if t.1 = 0 then none else at_ (t.1 - 1) t.2
  | 2 => at_ t.1 (t.2 + 1)
  | _ => if t.2 = 0 then none else at_ t.1 (t.2 - 1)

/-- The tile a route word ends on (R119). -/
def routeEnd (w h : Nat) (t : Nat × Nat) (r : Nat) : Option (Nat × Nat) :=
  (List.range (bitsOf r 31 28)).foldl (fun x i => x.bind (fun t => hopFrom w h t (bitsOf r (2 * i + 1) (2 * i)))) (some t)

/-- An explicit route from the entry `e` to its consumer's entry `c` (R119). -/
def routeOk (p : Placement) (e c r : Nat) : Bool :=
  let n := bitsOf r 31 28
  inRange n 1 13 && r % 2 ^ 28 / 2 ^ (2 * n) = 0 && onEdge e == onEdge c && entryTile e != entryTile c
    && routeEnd (if onEdge e then 16 else p.fw) (if onEdge e then 10 else p.fh) (entryTile e) r == some (entryTile c)

/-- Column and row of an entry as R91 names a tile: those of its placement entry, for an ALU tile the offsets within the
footprint. (log 72, DESIGN CHOICE) -/
def rejAt (r : Reason) (sect blk idx : Nat) (t : Nat × Nat) : Rej := { reason := r, sect, blk, idx, col := t.1, row := t.2 }

/-- The checks of one placement entry (R117, R118). An offset outside the footprint is FOOTPRINT. (log 90, DESIGN CHOICE) -/
def checkEntry (p : Placement) (i : Instr) (e : Nat) (earlier : List Nat) : Except Reason Unit := do
  let ts := targetsOf i
  need (bitsOf e 9 0 = 0 && (!onEdge e || bitsOf e 26 25 = 0)) .field
  need (onEdge e || (bitsOf e 30 27 < p.fw && bitsOf e 26 24 < p.fh)) .footprint
  need (onEdge e == edgeOnly i && (!onEdge e || edgeColumnOk i (bitsOf e 30 27))) .place
  need (earlier.all (fun x => !(onEdge x == onEdge e && entryTile x == entryTile e && bitsOf x 23 20 == bitsOf e 23 20))) .station
  need (!(ts.getD 0 .none = .none && (routed e 0 || bitsOf e 17 14 != 0))) .field
  need (!(ts.getD 1 .none = .none && (routed e 1 || bitsOf e 13 10 != 0))) .field

/-- A block's placement record (R116 to R122), for the image that holds it. -/
def checkPlace (im : Image) (blk : Nat) : Except Rej Unit := do
  let p := placeOf im blk
  let ws := im.blocks.getD blk []
  let is := instrsOf ws
  let bad (r : Reason) : Rej := { reason := r, sect := 3, blk }
  let ent (i : Nat) : Nat := placeEntry im blk i
  let flags := p.entries.foldl (fun m w =>
    m + (if routed w.toNat 0 then 1 else 0) + (if routed w.toNat 1 then 1 else 0)) 0
  must ([8, 16, 32, 64, 128].contains p.width && inRange p.fw 1 15 && inRange p.fh 1 6 && p.entries.length = is.length
    && p.routes.length = flags) (bad .footprint)
  must (bitsOf (ws.headD 0).toNat 5 3 = 0 || 2 ^ (bitsOf (ws.headD 0).toNat 5 3 + 2) = p.width) (bad .width)
  must (ceilDiv (p.width / 8) (15 / p.fw) * p.fh ≤ 6) (bad .footprint)
  eachOf is (fun e => match checkEntry p e.2 (ent e.1) ((List.range e.1).map ent) with
    | .ok _ => .ok ()
    | .error r => .error (rejAt r 3 blk e.1 (entryTile (ent e.1))))
  eachOf is (fun e => must ((targetsOf e.2).zipIdx.all (fun t => match t.1 with
      | .to _ j => !routed (ent e.1) t.2 || routeOk p (ent e.1) (ent j.toNat) (routeWord p e.1 t.2)
      | .none => true)) (rejAt .route 3 blk e.1 (entryTile (ent e.1))))
  eachOf [false, true] (fun edge => eachOf (tilesOf im blk edge) (fun t =>
    must (depthOn im blk edge t ≤ 512) (rejAt .edgepool 3 blk 0xFF t)))
  must (1 ≤ frameCount im blk) (bad .edgepool)

/-- The record at the front of the rest of the PLACE section, for a block of `n` instructions (R116): its bytes
and the rest. A rare block's record is empty. -/
def takeRecord (blk n : Nat) (rare : Bool) (bs : List Byte) : Except Rej (List Byte × List Byte) := do
  let bad (r : Reason) : Rej := { reason := r, sect := 3, blk }
  must (8 ≤ bs.length) (bad .sectn)
  let h (o : Nat) : Nat := fieldAt bs o 1
  if rare then
    must (zeros (bs.take 8)) (bad .footprint)
    return (bs.take 8, bs.drop 8)
  else
    must (inRange (h 0) 1 5 && inRange (h 1) 1 15 && inRange (h 2) 1 6 && h 3 = n && fieldAt bs 6 2 = 0) (bad .footprint)
    let size := 8 + 4 * n + 4 * fieldAt bs 4 2
    must (size ≤ bs.length) (bad .sectn)
    return (bs.take size, bs.drop size)

/-! ## CRC entries (R123) -/

/-- Tile column and row of a CRC key as R91 names it: for an ALU tile the offsets within the footprint.
(log 72, DESIGN CHOICE) -/
def crcTile (k : Nat) : Nat × Nat := (k % 256, if k / 256 = 0x80 then 0 else if k / 256 = 0x81 then 9 else k / 256)

/-- The CRC entries of a block's tiles, off the front of the section. -/
def checkCrcs (blk : Nat) : Map (List W32) → List (List Byte) → Except Rej (List (List Byte))
  | [], es => .ok es
  | (k, _) :: _, [] => .error (rejAt .crcset 11 blk 0xFF (crcTile k))
  | (k, ws) :: rest, e :: es =>
    if fieldAt e 0 4 != blk || fieldAt e 4 1 != k % 256 || fieldAt e 5 1 != k / 256 || fieldAt e 6 2 != 0 then
      .error (rejAt .crcset 11 blk 0xFF (crcTile k))
    else if wordsCrc ws != fieldAt e 8 4 then
      .error (rejAt .tilecrc 11 blk 0xFF (crcTile k))
    else checkCrcs blk rest es

/-! ## Acceptance (R90) -/

/-- The CRCs of a block's tiles stay with the image: they go to the tiles with the words (R123). -/
def keepCrcs (im : Image) (blk : Nat) : Image :=
  { im with crcs := (crcWords im blk).foldl (fun m w => mput m (blk * 2 ^ 16 + w.1) (wordsCrc w.2)) im.crcs }

/-- The blocks of an image in block order, each with its placement record and its CRC entries: `place` and
`crcs` are what is left of their sections. A rare block's width hint has no placement width to differ from.
(log 89, DESIGN CHOICE) -/
def checkBlocks (b : Section) :
    Nat → Nat → Check → List Byte → List (List Byte) → Except Rej (Check × List Byte × List (List Byte))
  | 0, _, k, place, crcs => .ok (k, place, crcs)
  | n + 1, blk, k, place, crcs =>
    match checkBlock k blk (rawBlock b blk) with
    | .error r => .error r
    | .ok (k, ws) =>
      let im := { k.im with blocks := k.im.blocks ++ [ws] }
      if im.priv then checkBlocks b n (blk + 1) { k with im } place crcs
      else
        match takeRecord blk (instrCount ws) (isRare ws) place with
        | .error r => .error r
        | .ok (rec_, place) =>
          let im := { im with places := im.places ++ [placementOf rec_] }
          if isRare ws then checkBlocks b n (blk + 1) { k with im } place crcs
          else match checkPlace im blk with
            | .error r => .error r
            | .ok _ => match checkCrcs blk (crcWords im blk) crcs with
              | .error r => .error r
              | .ok rest => checkBlocks b n (blk + 1) { k with im := keepCrcs im blk } place rest

/-- Every radix port that a kernel writes ends on exactly one port that it reads (R309). -/
def radixOk (im : Image) : Bool :=
  im.streams.all (fun d => !(d.kind = 2 && portWritten im d.port) || (radixPeers im d).length = 1)

/-- The checks of acceptance after the signature. The rare flags that an XPATH is checked against are clear in a PRIV
image, which ignores them (R92): its XPATH is refused. (log 72, DESIGN CHOICE) -/
def acceptBody (img : List Byte) : Except Rej Image := do
  let ss ← readSections img
  let im ← readDecls img ss
  let b := secOf ss 2
  let rare := (List.range b.count).map (fun n => !im.priv && flag (rawWord0 b n) 0)
  let r ← checkBlocks b b.count 0 { im, blocks := b.count, rare } (secOf ss 3).bytes (entriesOf (secOf ss 11))
  must r.2.1.isEmpty { reason := .sectn, sect := 3 }
  must r.2.2.isEmpty { reason := .crcset, sect := 11, blk := b.count - 1 }
  must (radixOk r.1.im) (badDecl 6)
  return r.1.im

/-- Acceptance of the bytes of an image: the header, the signature and the rest, in order (R90). -/
def acceptImage (keys : Map (Nat × Nat)) (needPriv : Bool) (img : List Byte) : Except Rej Image :=
  match headerReason keys img needPriv with
  | some r => .error { reason := r }
  | none => if signatureOk keys img then acceptBody img else .error { reason := .sigfail }

/-! ## The image store and the measurements (R90, R439) -/

/-- A measurement register extended by a digest (R439). -/
def State.measure (s : State) (k digest : Nat) : State :=
  { s with meas := s.meas.set k (sha384 (toBE (s.meas.getD k 0) 48 ++ toBE digest 48)) }

/-- The image of a digest among the accepted ones. -/
def State.findImage (s : State) (digest : Nat) : Option Nat :=
  (s.images.find? (fun e => e.2.digest = digest)).map (·.1)

/-- The accepted image of a header's digest, of the kind that the header names (R90, R92). (log 25, DEDUCED) -/
def State.accepted (s : State) (h : Header) : Option Nat :=
  (s.findImage h.digest).filter (fun n => (s.image n).priv == h.priv)

/-- An accepted image joins the store at its first acceptance, which extends M1 or M2 (R90, R439).
(log 25, DEDUCED) -/
def State.keepImage (s : State) (im : Image) : State × Nat :=
  match s.findImage im.digest with
  | some n => (s, n)
  | none =>
    let n := mfresh s.images
    (({ s with images := mput s.images n im } : State).measure (if im.priv then 1 else 2) im.digest, n)

/-! ## SIGCHK (R423) -/

/-- SIGCHK's verdict over an image's bytes. -/
def sigReason (keys : Map (Nat × Nat)) (needPriv : Bool) (img : List Byte) : Nat :=
  match headerReason keys img needPriv with
  | some r => r.code
  | none => if signatureOk keys img then 0 else Reason.sigfail.code

/-- SIGCHK: the header is read, and the image where the header passes (R423). -/
def execSigchk (p : Pred) (t1 t0 : Target) (s : State) : Host.Outcome State Fault Refusal :=
  go (s.privAttempt [.L, .R] p.code fun l r st =>
    let need := flag r.toNat 0
    if l.toNat % 16 != 0 then st.raise fcAlign 0 (va57 l.toNat)
    else match st.ctlRead l 256 with
      | .wait s => s
      | .fault c a => st.raise c 0 a
      | .ok h =>
        match headerReason st.keys h need with
        | some r => (st.taken [.L, .R] p.code).result t0 t1 (tokNat r.code)
        | none => match st.ctlRead l (headerOf h).len with
          | .wait s => s
          | .fault c a => st.raise c 0 a
          | .ok img => (st.taken [.L, .R] p.code).result t0 t1 (tokNat (sigReason st.keys need img)))

end Sys2Proof.Machine
end

