-- ==== Sys2Proof/Machine/Sync.lean ====
section
/-! DEFINITION. Barriers, sluices, waits on timelines and watch sets of class SYNC (R300 to R305, R371 to
R373, R385, R387 to R394). -/

namespace Sys2Proof.Machine

/-! ## Barriers -/

/-- How a BINIT of the pass with a lower LSID bears on a slot: it binds the slot, it does not, or it is
still undecided (R390). -/
inductive Bound where
  | yes | no | undecided
  deriving DecidableEq, Repr

/-- A slot counts as bound for an instruction at an LSID: by the workgroup, or by a BINIT of the pass with
a lower LSID (R390, R391). -/
def State.slotBound (s : State) (a : Agent) (p : Pass) (q lsid : Nat) : Bound :=
  let ws := s.block p.img p.blk
  let inits := (instrsOf ws).filter (fun e => match e.2 with
    | .binit _ b l => b.toNat = q && l.toNat < lsid
    | _ => false)
  let dead := deadInstrs ws p
  if (mget (s.wgOf a.core (a.slot.getD 0)).barriers q).isSome then .yes
  else if inits.any (fun e => p.fired.contains e.1 && !p.offs.contains e.1) then .yes
  else if inits.all (fun e => p.offs.contains e.1 || dead.contains e.1) then .no
  else .undecided

/-- BINIT in phase one: the alignment, the partition and the expected count (R389). -/
def State.issueBinit (s : State) (pr : Nat) (l r : W64) (lsid : Nat) : State :=
  let a := s.cur.agent
  let va := va57 l.toNat
  match a.slot with
  | none => s.raise fcAccess
  | some t =>
    let w := s.wgOf a.core t
    if va % 16 != 0 then s.raise fcAlign 0 va
    else if va < scratchVa || privateVa ≤ va || w.partSize < va - scratchVa + 16 then s.raise fcAccess 0 va
    else if r = 0 || 4096 < r.toNat then s.raise fcAccess 0 va
    else (s.taken [.L, .R] pr).deliverOp lsid { l, r, va }

/-- The perform of BINIT: the object starts anew in the next phase and the slot is bound (R389). -/
def State.performBinit (s : State) (q : Nat) : State :=
  match s.curOp, s.cur.agent.slot with
  | some (k, o), some t =>
    let c := s.cur.agent.core
    let b := s.base c t
    let w := s.wg c b
    let off := o.va - scratchVa
    let old := barOf s.mem (partAddr c w off)
    let x : BarObj := { arrivals := 0, expected := o.r.toNat, mask := 0, isOpen := false,
                        tagValid := old.tagValid || 0 < old.arrivals, phase := (old.phase + 1) % 2 ^ 16,
                        tag := if 0 < old.arrivals then old.phase else old.tag, pending := 0 }
    let s := s.setWg c b { w with barriers := mput w.barriers q { off } }
    let s := { s with mem := writeBytes s.mem (partAddr c w off) (barBytes x) }
    (s.wakeWg c b (· == .barrier q)).setPerformed k
  | _, _ => s

/-- BINIT (R389). -/
def execBinit (p : Pred) (q : BitVec 4) (l : BitVec 5) (s : State) : Host.Outcome State Fault Refusal :=
  go (match s.cur.phase with
    | .one => s.attempt [.L, .R] p.code fun x y _ st => st.issueBinit p.code x y l.toNat
    | _ => s.performBinit q.toNat)

/-- BARV and BEXP in phase one: the slot is bound, or will be (R390, R391). -/
def State.issueArrive (s : State) (ins : List Field) (pr : Nat) (l : W64) (q lsid : Nat) : State :=
  let a := s.cur.agent
  match a.slot, s.passOf a with
  | some _, some pass =>
    match s.slotBound a pass q lsid with
    | .yes => (s.taken ins pr).deliverOp lsid { l }
    | .no => s.raise fcAccess
    | .undecided => s
  | _, _ => s.raise fcAccess

/-- The step of an arrival at a barrier object: whether it ends the phase poisoned, and the object after
it (R390). -/
def arrive (o : BarObj) (arrived : Option Nat) (role : Nat) (masked : Bool) (m : Nat) : Bool × BarObj :=
  let bad := arrived = some o.phase
    || o.expected = 0 || 4096 < o.expected || o.expected ≤ o.arrivals
    || (masked && (m = 0 || !flag m role))
    || (0 < o.arrivals && (masked != o.isOpen || (masked && m != o.mask)))
  if bad then (true, barComplete { o with tag := o.phase, tagValid := true })
  else
    let o := if o.arrivals = 0 then { o with isOpen := masked, mask := if masked then m else 0 } else o
    let o := { o with arrivals := o.arrivals + 1 }
    (false, if o.arrivals = o.expected && o.pending = 0 then barComplete o else o)

/-- The perform of BARV, once the release condition of .wg holds (R390). -/
def State.performBarv (s : State) (q : Nat) (masked : Bool) : State :=
  match s.curOp, s.cur.agent.slot with
  | some (k, op), some t =>
    s.afterRelease .wg k fun s =>
      let a := s.cur.agent
      let c := a.core
      let b := s.base c t
      match s.barrier c t q with
      | none => s.setPerformed k
      | some o =>
        let x := s.thread c t
        let y := arrive o (mget x.arrivals q) (s.roleOf c t) masked (op.l.toNat % 16)
        let s := s.setThread c t { x with arrivals := mput x.arrivals q o.phase }
        let s := s.setBarrier c b q y.2
        let s := if y.1 then
            let off := ((mget (s.wg c b).barriers q).map (·.off)).getD 0
            s.postCore c (mkRec 4 0 0 (s.tenantOf a) c t (s.seqOf c t) (q + 2 ^ 4 * o.phase) (s.die (dieOf c)).clk off)
          else s
        s.setPerformed k
  | _, _ => s

/-- BARV (R390). -/
def execBarv (p : Pred) (masked : Bool) (q : BitVec 4) (l : BitVec 5) (s : State) : Host.Outcome State Fault Refusal :=
  let ins : List Field := if masked then [.L] else []
  go (match s.cur.phase with
    | .one => s.attempt ins p.code fun x _ _ st => st.issueArrive ins p.code x q.toNat l.toNat
    | _ => s.performBarv q.toNat masked)

/-- BWAIT: it fires once the slot is ready and tells a poisoned phase from a complete one (R393). -/
def execBwait (p : Pred) (q : BitVec 4) (t1 t0 : Target) (s : State) : Host.Outcome State Fault Refusal :=
  go (s.attempt [] p.code fun _ _ _ s =>
    let a := s.cur.agent
    match a.slot with
    | none => s.raise fcAccess
    | some t =>
      match s.barrier a.core t q.toNat with
      | none => s.raise fcAccess
      | some o =>
        if !s.barReady a.core t q.toNat then s
        else
          let bad := o.tagValid && mget (s.thread a.core t).arrivals q.toNat = some o.tag
          (s.taken [] p.code).result t0 t1 (predTok !bad))

/-- The perform of BEXP: bytes are expected, and the slot becomes the receive barrier (R391). -/
def State.performBexp (s : State) (q : Nat) : State :=
  match s.curOp, s.cur.agent.slot with
  | some (k, op), some t =>
    let c := s.cur.agent.core
    let b := s.base c t
    match s.barrier c t q with
    | none => s.setPerformed k
    | some o =>
      let o := { o with pending := (o.pending + op.l.toNat) % 2 ^ 64 }
      let w := s.wg c b
      let s := s.setWg c b { w with recvBar := some q }
      (s.setBarrier c b q (if o.arrivals = o.expected && o.pending = 0 then barComplete o else o)).setPerformed k
  | _, _ => s

/-- BEXP (R391). -/
def execBexp (p : Pred) (q : BitVec 4) (l : BitVec 5) (s : State) : Host.Outcome State Fault Refusal :=
  go (match s.cur.phase with
    | .one => s.attempt [.L] p.code fun x _ _ st => st.issueArrive [.L] p.code x q.toNat l.toNat
    | _ => s.performBexp q.toNat)

/-! ## Sluices -/

/-- The perform of QPUSH: the handle enters at the tail, on the pass's reservation (R302, R303). -/
def State.performQpush (s : State) (q : Nat) : State :=
  match s.curOp, s.cur.agent.slot with
  | some (k, o), some t =>
    let c := s.cur.agent.core
    let x := s.sluice c t q
    let x := { x with entries := x.entries ++ [{ handle := BitVec.ofNat 32 o.l.toNat }], pushRsv := x.pushRsv - 1, allowRsv := x.allowRsv - 1 }
    (((s.setSluice c t q x).useRsv s.cur.agent q).setPerformed k).wakeWg c (s.base c t) (· == .sluice q)
  | _, _ => s

/-- QPUSH (R303). -/
def execQpush (p : Pred) (q : BitVec 4) (l : BitVec 5) (s : State) : Host.Outcome State Fault Refusal :=
  go (match s.cur.phase with
    | .one => s.fire [.L] p.code fun x _ _ st =>
        if st.cur.agent.slot.isNone then st.raise fcAccess else st.deliverOp l.toNat { l := x }
    | _ => s.performQpush q.toNat)

/-- The oldest unreserved entry is taken and delivered at once. -/
def takeEntry (t : Nat) : List SlEntry → List SlEntry
  | [] => []
  | e :: es => if e.rsv.isNone then { e with rsv := some t, delivered := true } :: es else e :: takeEntry t es

/-- The entry of a sluice that a pop of slot `t` takes is marked delivered: the first that clause `k` has reserved
for it. -/
def deliverPop (t k : Nat) : List SlEntry → List SlEntry
  | [] => []
  | e :: es =>
    if e.rsv = some t && e.clause = k && !e.delivered then { e with delivered := true } :: es else e :: deliverPop t k es

/-- The clause whose SLU reserves the entry that a QPOP of `q` at an index takes: its own, else the first; none where
the QPOP reserves as it fires (R301). -/
def popClause (ws : List W32) (idx q : Nat) : Option Nat :=
  let names (cl : Clause) : Bool := flag cl.hdr 7 && cl.hdr % 16 = q
  match clauseAt ws idx with
  | some (k, cl) => if k != 0 && names cl then some k else if ((clausesOf ws).head?.map names).getD false then some 0 else none
  | none => none

/-- A pop of a sluice: the handle of the first entry that clause `k` has reserved for the thread, or without a clause
of the oldest unreserved one, and the sluice after it (R301, R304). -/
def popOf (t : Nat) (k : Option Nat) (x : Sluice) : Option (W32 × Sluice) :=
  match k with
  | some k => (x.entries.find? (fun e => e.rsv = some t && e.clause = k && !e.delivered)).map
      (fun e => (e.handle, { x with entries := deliverPop t k x.entries }))
  | none => (x.entries.find? (·.rsv.isNone)).map (fun e => (e.handle, { x with entries := takeEntry t x.entries }))

/-- QPOP: its handle leaves with the pass's commit (R301, R304). -/
def execQpop (p : Pred) (q : BitVec 4) (t1 t0 : Target) (s : State) : Host.Outcome State Fault Refusal :=
  go (s.attempt [] p.code fun _ _ _ s =>
    match s.cur.agent.slot, s.passOf s.cur.agent with
    | some t, some pass =>
      let s' := s.taken [] p.code
      match popOf t (popClause (s.block pass.img pass.blk) s.cur.idx q.toNat) (s'.sluice s.cur.agent.core t q.toNat) with
      | none => s
      | some (h, x) => (s'.setSluice s.cur.agent.core t q.toNat x).result t0 t1 (tokNat h.toNat)
    | _, _ => s.raise fcAccess)

/-- QTRY never waits: the oldest unreserved handle and 1, or 0 and 0 (R304). -/
def execQtry (p : Pred) (q : BitVec 4) (t1 t0 : Target) (s : State) : Host.Outcome State Fault Refusal :=
  go (s.fire [] p.code fun _ _ _ s =>
    match s.cur.agent.slot with
    | none => s.raise fcAccess
    | some t =>
      let x := s.sluice s.cur.agent.core t q.toNat
      match x.entries.find? (·.rsv.isNone) with
      | none => s.emit t0 t1 0 0
      | some e =>
        (s.setSluice s.cur.agent.core t q.toNat { x with entries := takeEntry t x.entries }).emit t0 t1 (tokNat e.handle.toNat) 1)

/-- The perform of QGRANT: the allowance grows, saturating (R305). -/
def State.performQgrant (s : State) (q : Nat) : State :=
  match s.curOp, s.cur.agent.slot with
  | some (k, o), some t =>
    let c := s.cur.agent.core
    let x := s.sluice c t q
    ((s.setSluice c t q { x with allow := min (x.allow + o.l.toNat) 0xFFFF }).setPerformed k).wakeWg c (s.base c t) (· == .sluice q)
  | _, _ => s

/-- QGRANT (R305). -/
def execQgrant (p : Pred) (q : BitVec 4) (l : BitVec 5) (s : State) : Host.Outcome State Fault Refusal :=
  go (match s.cur.phase with
    | .one => s.fire [.L] p.code fun x _ _ st =>
        if st.cur.agent.slot.isNone then st.raise fcAccess else st.deliverOp l.toNat { l := x }
    | _ => s.performQgrant q.toNat)

/-! ## Timelines -/

/-- The context an operand names, where it is valid (R385). -/
def State.validContext (s : State) (x : W64) : Option Nat :=
  if x.toNat < 2 ^ 16 && (s.context x.toNat).isSome then some x.toNat else none

/-- TLWAIT: 1 once the timeline has reached the value, 0 at the request timeout (R385, R420). -/
def execTlwait (p : Pred) (t1 t0 : Target) (s : State) : Host.Outcome State Fault Refusal :=
  go (s.fire [.L, .R] p.code fun x y _ s =>
    match s.validContext x with
    | none => s.raise fcAccess
    | some ctx =>
      if y.toNat ≤ s.timeline ctx then s.result t0 t1 1
      else s.addReq { agent := s.cur.agent, idx := s.cur.idx, kind := .tlwait ctx y.toNat, start := (s.die s.cur.agent.die).clk })

/-- TLRD (R385). -/
def execTlrd (p : Pred) (t1 t0 : Target) (s : State) : Host.Outcome State Fault Refusal :=
  go (s.fire [.L] p.code fun x _ _ s =>
    match s.validContext x with
    | none => s.raise fcAccess
    | some ctx => s.result t0 t1 (tokNat (s.timeline ctx)))

/-! ## Watch sets -/

/-- An insertion: an entry of the same line is replaced; a ninth line sets the overflow (R257, R372). -/
def watchInsert (w : List Watch × Bool) (x : Watch) : List Watch × Bool :=
  if w.1.any (fun e => e.valid && e.line = x.line) then (w.1.map (fun e => if e.valid && e.line = x.line then x else e), w.2)
  else match w.1.findIdx? (!·.valid) with
  | some i => (w.1.set i x, w.2)
  | none => if w.1.length < 8 then (w.1 ++ [x], w.2)
  else (w.1, true)

/-- The working set of a pass (R372). -/
def workingSet (x : Thread) (p : Pass) : List Watch × Bool :=
  let start := if p.watchClr then ([], false) else (x.watch, x.watchOv)
  p.watchIns.foldl (fun w e => watchInsert w e.2) start

/-- WSADD: the line is translated with the read right (R206, R372, R373). A control thread has no watch
set (R451). -/
def execWsadd (p : Pred) (s : State) : Host.Outcome State Fault Refusal :=
  go (s.attempt [.L, .R] p.code fun x y _ s =>
    let a := s.cur.agent
    let va := va57 x.toNat
    if a.slot.isNone then s.raise fcAccess
    else match s.resolve a s.cur.idx va 1 .read true with
      | .fault code => s.raise code 0 va
      | .miss => s.awaitXlate va 0
      | .ok _ =>
        let w : Watch := { line := va / 128, ver := y.toNat % 2 ^ 56 }
        ((s.touchVa a s.cur.idx va).taken [.L, .R] p.code).updPass a (fun q =>
          { q with watchIns := mput q.watchIns (4096 + s.cur.idx) w }))

/-- WSCLR: the working set of the pass starts empty (R372, R373). -/
def execWsclr (p : Pred) (s : State) : Host.Outcome State Fault Refusal :=
  go (s.fire [] p.code fun _ _ _ s =>
    if s.cur.agent.slot.isNone then s.raise fcAccess
    else s.updPass s.cur.agent (fun q => { q with watchClr := true }))

/-- Every WSADD, WSCLR and LDV.w of the pass has fired or been predicated off, every LDV of the thread that has issued
has returned, and so has every LDV of the pass with an LSID below j (R248, R373). -/
def State.watchReady (s : State) (a : Agent) (p : Pass) (j : Nat) : Bool :=
  let ws := s.block p.img p.blk
  let dead := deadInstrs ws p
  s.reqs.all (fun r => !(r.2.agent = a && match r.2.kind with | .ldv .. => true | _ => false))
    && (instrsOf ws).all (fun e => match e.2 with
      | .wsadd .. | .wsclr .. => p.fired.contains e.1
      | .ldv _ _ w l _ _ _ => (!w || p.fired.contains e.1) && (j ≤ l.toNat || s.returned a p dead e.1)
      | _ => true)

/-- WSVAL: 0 with overflow, 1 on an empty set, else one check for each watched line at its home (R248,
R373). -/
def execWsval (p : Pred) (l : BitVec 5) (t0 : Target) (s : State) : Host.Outcome State Fault Refusal :=
  go (s.attempt [] p.code fun _ _ _ s =>
    let a := s.cur.agent
    match a.slot, s.passOf a with
    | some t, some pass =>
      if !s.watchReady a pass l.toNat || s.readBlocked a pass l.toNat then s else
      let w := workingSet (s.thread a.core t) pass
      let w := (w.1.filter (·.valid), w.2)
      if w.2 then (s.taken [] p.code).emit t0 .none 0 0
      else if w.1.isEmpty then (s.taken [] p.code).emit t0 .none 1 0
      else match s.resolveAll a s.cur.idx .read true (w.1.map (fun e => (e.line * 128, 1))) with
        | .fault code x => s.raise code 0 x
        | .miss x => s.awaitXlate x l.toNat
        | .ok ps =>
          let s := (s.touchAll a s.cur.idx (w.1.map (fun e => (e.line * 128, 1)))).taken [] p.code
          let s := s.updPass a (fun q => { q with valid := mput q.valid s.cur.idx true })
          (w.1.zip ps).foldl (fun st e =>
            st.addReq { agent := a, idx := s.cur.idx, lsid := l.toNat, kind := .watch e.1.line e.1.ver,
                        va := e.1.line * 128, parts := [e.2], start := (st.die a.die).clk }) s
    | _, _ => s.raise fcAccess)

end Sys2Proof.Machine
end

