-- ==== Sys2Proof/Machine/Commit.lean ====
section
/-! DEFINITION. Tokens on their way, phase two and the end of a pass, rare passes, and the end of a thread
and of a gang (R43 to R48, R54 to R56, R131 to R138, R169, R241, R298, R302, R307, R371). -/

namespace Sys2Proof.Machine

/-! ## TOKEN_ACCEPT and SINK_OUTPUT -/

/-- Keys of the edge entries that a token takes: one edge of its lane, which every copy shares where its consumer
stands on an edge tile. A control token from an edge tile goes to every copy of its consumer (R120, R122, R297). -/
def tokenKeys (im : Image) (x : Inst) (tk : Tok) : List Nat :=
  let lane := tk.slot % x.width
  let lanes :=
    if edgeEntry im x.blk (tk.dst / 4) then [lane % 8]
    else if tk.kind != .data && edgeEntry im x.blk (tk.edge / 2) then (List.range (x.width / 8)).map (8 * · + lane % 8)
    else [lane]
  lanes.map (· * 256 + tk.edge)

/-- A token enters the edges of some keys. -/
def enterEdges (x : Inst) (tk : Tok) (keys : List Nat) : Inst :=
  { x with edges := keys.foldl (fun m key => mput m key (mgetD m key [] ++ [tk])) x.edges }

/-- TOKEN_ACCEPT: the edge of a latch's token takes it when it has a free entry, and its station looks at
its head (R43, R44, R103, R298). -/
def execTokenAccept (core elem t : Nat) (s : State) : Host.Outcome State Fault Refusal :=
  go (match mget (s.core core).latch (2 * elem + t) with
    | none => s
    | some tk =>
      let x := s.inst core tk.inst
      let im := s.image x.img
      let keys := tokenKeys im x tk
      let halted := if tk.kind = .data then s.stopped (.fab core tk.slot) else s.heldCore core
      if halted || keys.any (fun key => edgeDepth im x.blk (tk.edge / 2) (tk.edge % 2) ≤ (mgetD x.edges key []).length) then s
      else
        let k := s.core core
        let s := s.setCore core { k with
          latch := mdel k.latch (2 * elem + t)
          insts := mput k.insts tk.inst (enterEdges x tk keys) }
        keys.foldl (fun st key => st.settleEdge core tk.inst key 33) s)

/-- SINK_OUTPUT: an output of a pass reaches the block sink (R45, R122). -/
def execSinkOutput (core slot n : Nat) (s : State) : Host.Outcome State Fault Refusal :=
  let a : Agent := .fab core slot
  go (match s.passOf a with
    | none => s
    | some p =>
      match p.outs[n]? with
      | none => s
      | some o =>
        if s.stopped a || p.inst.isNone || (s.thread core slot).st = .parked then s
        else (s.setPass a { p with outs := p.outs.eraseIdx n }).sinkAccept a o)

/-! ## The end of a gang (R56) -/

/-- Every thread of a workgroup is Exited. -/
def State.wgDone (s : State) (c b : Nat) : Bool :=
  (List.range (s.wg c b).n).all (fun i => (s.thread c (b + i)).st = .exited)

/-- Number of a gang within its launch, as end-of-stream tokens carry it. -/
def eosTag (x : Gang) : Nat := x.gid * 256 + x.polder.getD 0

/-- The last thread of a gang is Exited: an end-of-stream token stands at every source of each instance of its
launch on its cores. An instance that retires counts as not resident (R59). (log 68, DEDUCED) -/
def State.placeEos (s : State) (g : Nat) : State :=
  let x := s.gang g
  if x.ended then s
  else
    let one (st : State) (m : Member) : State :=
      let k := st.core m.core
      st.setCore m.core { k with insts := k.insts.map (fun e =>
        if e.2.seq = x.seq && !e.2.retiring then
          (e.1, { e.2 with eosDue := e.2.eosDue ++ [(eosTag x, stationCodes (st.image e.2.img) e.2)] })
        else e) }
    (x.members.foldl one s).setGang g { x with ended := true }

/-- The record that a command of the matrix unit loads or writes. -/
def recordOf : Instr → Option Nat
  | .mld _ _ _ x _ => some x.toNat
  | .mldKv _ _ x _ => some x.toNat
  | .mst _ (.ob16 x) _ _ _ _ _ => some x.toNat
  | .mst _ (.obbf x) _ _ _ _ _ => some x.toNat
  | _ => none

/-- A command of a workgroup that retires goes on without its record, which is released at once (R280).
(log 70, DEDUCED) -/
def orphaned (k : Core) (b : Nat) (x : Cmd) : Cmd :=
  if x.wg = b && x.agent.slot.isSome && x.orphan.isNone then
    { x with orphan := (recordOf x.instr).map (fun r => mgetD k.obrecs r {}) }
  else x

/-- A workgroup leaves its core: its slots, its records and its tiles are free (R227, R280, R344). -/
def State.clearWg (s : State) (c b : Nat) : State :=
  let w := s.wg c b
  let k := s.core c
  let orphan (e : Engine) : Engine := { e with queue := e.queue.map (orphaned k b) }
  let inside (t : Nat) : Bool := b ≤ t && t < b + w.n
  let seq := (s.gang w.gang).seq
  let others := k.wgs.any (fun e => e.1 != b && (s.gang e.2.gang).seq = seq)
  let s := s.setCore c { k with
    waited := k.waited.filter (fun t => !inside t)
    lslots := if others then k.lslots else k.lslots.filter (fun e => e.2 != seq)
    threads := k.threads.filter (fun e => !inside e.1)
    wgs := mdel k.wgs b
    entries := k.entries.filter (fun e => e.2.wg != b / 128)
    obrecs := k.obrecs.filter (fun e => e.2.owner != b / 128)
    tiles := k.tiles.filter (fun e => e.2 != b / 128)
    loadPipe := orphan k.loadPipe
    writer := orphan k.writer
    entryWait := k.entryWait.filter (fun t => !inside t) }
  (s.setCore c (sweepRounds (s.core c))).sweepEntries c

/-- A retired workgroup also gives its private region back (R209). -/
def State.freeWg (s : State) (c b : Nat) : State :=
  let w := s.wg c b
  let s := s.clearWg c b
  { s with dies := s.dies.map (fun e => (e.1, { e.2 with regions := e.2.regions.filter (fun r => r.1 != w.region) })) }

/-- Gangs with a workgroup on a core. -/
def State.gangsOn (s : State) (c : Nat) : List Nat :=
  (s.gangs.filter (fun g => g.2.members.any (·.core = c))).map (·.1)

def kcFreeze (c : Nat) : Nat := kcReg c 0x010

/-- KC_FREEZE as it stands once its request has been served or goes on: bit 2 when every gang of the core is frozen;
a squash clears it when no gang of the core is left to squash, a drain sets bit 3 when every gang of the core has
been drained (R148, R415, R416). (log 13, DESIGN CHOICE) -/
def State.settleFreeze (s : State) (c : Nat) : State :=
  let v := s.reg (kcFreeze c)
  let kinds := (s.gangsOn c).map (fun g => (s.gang g).frozen)
  let frozen := if kinds.all (· != .no) then 4 else 0
  if !flag v 0 then s
  else if !flag v 1 then
    if kinds.any (fun f => f = .no || f = .squashing) then s.setReg (kcFreeze c) (1 + frozen) else s.setReg (kcFreeze c) 0
  else if kinds.all (· = .drained) then s.setReg (kcFreeze c) 15
  else s.setReg (kcFreeze c) (3 + frozen)

/-- A gang retires: its cores are free, a pre-emption of them goes on without it, and its launch counts it (R56,
R415). -/
def State.retireGang (s : State) (g : Nat) : State :=
  let x := s.gang g
  let s := x.members.foldl (fun (st : State) m => st.freeWg m.core m.base) s
  let l := s.launch x.seq
  let q := x.polder.getD 0
  let s := s.setLaunch x.seq { l with retired := l.retired + 1, retiredBy := mput l.retiredBy q (mgetD l.retiredBy q 0 + 1) }
  x.members.foldl (fun (st : State) m => st.settleFreeze m.core) { s with gangs := mdel s.gangs g }

/-- A gang all of whose threads are Exited retires once its windows hold no dirty line (R56, R219).
(log 19, DEDUCED) -/
def State.tryRetire (s : State) (g : Nat) : State :=
  let ms := (s.gang g).members
  if ms.isEmpty || !ms.all (fun m => s.wgDone m.core m.base) then s
  else
  let s := s.placeEos g
  if ms.all (fun m => s.windowsClean m.core m.base) then s.retireGang g
  else ms.foldl (fun (st : State) m => st.writeBackWindows m.core m.base) s

/-- A thread is Exited: what its release waits for goes on with its launch, and the tails of its workgroup's windows
no longer count it (R33, R241, R307). -/
def State.leaveThread (s : State) (c t : Nat) : State :=
  let x := s.thread c t
  let seq := s.seqOf c t
  let d := dieOf c
  let l := s.launch seq
  let s := s.setLaunch seq { l with
    horizon := mput l.horizon d (max (mgetD l.horizon d 0) x.horizon)
    far := x.far.foldl (fun m e => mput m (8 * d + e.1) (max (mgetD m (8 * d + e.1) 0) e.2)) l.far
    remote := (l.remote ++ x.remote).eraseDups }
  (s.setThread c t { x with st := .exited, pass := none, park := none, skip := none, yieldPending := false }).moveTails c (s.base c t)

/-- EXIT commits: the thread's end marks follow its last elements (R309). -/
def State.exitThread (s : State) (c t : Nat) : State :=
  ((s.endMarks c t).leaveThread c t).tryRetire (s.gangOf c t)

/-! ## The end of a pass -/

/-- The LVW writes of a pass: a write into a poisoned group writes the whole group afresh (R138, R167). -/
def lvwWrite (x : Thread) (v : Nat) (w : W64) : Thread :=
  let g := v / 8
  let regs := if x.poison.contains g then x.regs.filter (fun e => e.1 / 8 != g) else x.regs
  { x with regs := mset regs v w 0, poison := x.poison.filter (· != g) }

/-- A thread whose registers and poison bits are what its row and its overflow area hold (R136). -/
def State.liveThread (s : State) (c t : Nat) : Thread :=
  let r := s.liveFile c t
  { s.thread c t with regs := r.1, poison := r.2 }

/-- Every LVW of a pass takes effect; the granules past the eighth go to the overflow area (R136). -/
def State.applyLvw (s : State) (c t : Nat) (p : Pass) : State :=
  if p.lvw.all (·.2.isNone) then s
  else s.storeLive c t (p.lvw.foldl (fun (y : Thread) e => match e.2 with | some v => lvwWrite y e.1 v | none => y) (s.liveThread c t))

/-- What the pass has taken leaves for good: delivered sluice entries and radix entries; what it has not
used returns (R301, R302, R310). -/
def State.keepTaken (s : State) (c t : Nat) (p : Pass) : State :=
  let b := s.base c t
  let w := s.wg c b
  let took (q : Sluice) : Bool := q.entries.any (fun e => e.rsv = some t && e.delivered)
  let qs := (w.sluices.filter (fun q => took q.2)).map (·.1)
  let freed := w.chans.any (fun q => q.2.any (·.rsv = some t))
  let left (q : Sluice) : Sluice :=
    let es := q.entries.filter (fun e => !(e.rsv = some t && e.delivered))
    { q with entries := es, head := (q.head + q.entries.length - es.length) % max 1 q.depth }
  let w := { w with
    sluices := w.sluices.map (fun q => (q.1, left q.2))
    chans := (w.chans.map (fun q => (q.1, q.2.filter (·.rsv != some t)))).filter (fun q => !q.2.isEmpty) }
  let s := s.setWg c b w
  let s := qs.foldl (fun (st : State) q => st.wakeWg c b (· == .sluice q)) s
  let s := if freed then s.wakeSenders c b none else s
  (s.giveBackAll (.fab c t) p).returnPops c t

/-- Stream positions advance by what the pass took, and window tails follow (R306, R307). -/
def State.advanceStreams (s : State) (c t : Nat) (p : Pass) : State :=
  let x := s.thread c t
  let spos := p.streamTaken.foldl (fun m e => mput m e.1 ((mgetD m e.1 0 + e.2) % 2 ^ 32)) x.spos
  let s := s.setThread c t { x with spos }
  p.streamTaken.foldl (fun (st : State) e => st.moveTail c (st.base c t) e.1) s

/-- The branch of a committed pass takes effect (R169, R170, R174 to R176). -/
def State.takeBranch (s : State) (c t : Nat) (b : Branch) : State :=
  let x := s.thread c t
  match b with
  | .enter n => (s.setThread c t { x with blk := n }).enterBlock c t
  | .call n r =>
    let s := s.writeHome (s.slice c t x.sp) (toLE r 8)
    (s.setThread c t { x with blk := n, sp := x.sp + 8 }).enterBlock c t
  | .ret n => (s.setThread c t { x with blk := n % 2 ^ 18, sp := x.sp - 8 }).enterBlock c t
  | .exit => s.exitThread c t
  | .yield n =>
    let s := s.setThread c t { x with blk := n, age := 0 }
    if isRare (s.block (s.imgOf c t) n) then s.enterBlock c t
    else s.setThread c t { s.thread c t with st := .waiting, age := 0, yieldPending := true }

/-- Phase two of a thread's pass is complete: LVW writes and watch set first, then the branch (R47, R371). -/
def State.commitThread (s : State) (c t : Nat) (p : Pass) (b : Branch) : State :=
  let w := workingSet (s.thread c t) p
  let s := s.applyLvw c t p
  let s := s.setThread c t { s.thread c t with watch := w.1, watchOv := w.2 }
  let s := ((s.advanceStreams c t p).keepTaken c t p).endReqs c t
  let s := (s.active (.fab c t)).count c 0x004 (some (s.tenantOf (.fab c t)))
  let s := s.setCore c (dropTokens (s.core c) t)
  let s := s.setThread c t { s.thread c t with
    st := .commit, ordered := false, skip := none, lastRound := p.roundNo, pass := none }
  let s := (s.setCore c (sweepRounds (s.core c))).endRare c t
  (s.takeBranch c t b).sweepEntries c

/-- A pass of a sequential program at a block (R22, R451). -/
def seqPass (im : Image) (img blk : Nat) : Pass :=
  { img, blk, consts := constPool (im.blocks.getD blk []) }

/-- The program of a control core or a supervisor enters a block. -/
def State.enterSeq (s : State) (a : Agent) (img blk : Nat) : State :=
  s.setCtl a { s.ctl a with blk, img, pass := some (seqPass (s.image img) img blk) }

/-- A job has ended: its control core is idle, and a rare block that was posted meanwhile has waited for it (R24,
R451). -/
def State.endJob (s : State) (a : Agent) : State :=
  let s := s.setCtl a { s.ctl a with pass := none, eventJob := false }
  match a with
  | .ctl c => s.setCore c { s.core c with cc := .idle, waited := xpathSlots (s.core c) }
  | _ => s

/-- Phase two of a pass of a sequential program is complete (R451). -/
def State.commitSeq (s : State) (a : Agent) (p : Pass) (b : Branch) : State :=
  let x := s.ctl a
  let regs := p.lvw.foldl (fun m e => match e.2 with | some v => mset m e.1 v 0 | none => m) x.regs
  let s := (s.setCtl a { x with regs }).countBy a 0x004 (some 0)
  match b with
  | .exit => s.endJob a
  | .enter n => s.enterSeq a p.img n
  | .yield n => s.enterSeq a p.img n
  | .call n _ => s.enterSeq a p.img n
  | .ret n => s.enterSeq a p.img n

/-- A CALL whose stack line an owner holds waits for it. -/
def State.stackFree (s : State) (a : Agent) (b : Branch) : Option Nat :=
  match b, a.slot with
  | .call _ _, some t =>
    let line := lineOf (s.slice a.core t (s.thread a.core t).sp)
    if s.homeFree line then none else some line
  | _, _ => none

/-- Every operation of a pass has performed: the rest of phase two, in one step (R47). -/
def State.completeTwo (s : State) (a : Agent) (p : Pass) : State :=
  match p.branch with
  | none => s
  | some b =>
    match s.stackFree a b with
    | some line => s.recallOwner line
    | none =>
      match a.slot with
      | some t => s.commitThread a.core t p b
      | none => s.commitSeq a p b

/-! ## PHASE_TWO_PERFORM -/

/-- The state of a meaning that goes on. -/
def stateOf (s : State) (o : Host.Outcome State Fault Refusal) : State :=
  match o with
  | .next t => t
  | _ => s

/-- The meaning of a committing operation, at its LSID (R47). -/
def performInstr (i : Instr) (s : State) : State :=
  let run (o : Host.Outcome State Fault Refusal) : State := stateOf s o
  match i with
  | .st p z ua l off => run (execSt p z ua l off s)
  | .stl p z sc l off => run (execStl p z sc l off s)
  | .rst p z sys l off => run (execRst p z sys l off s)
  | .sput p q l => run (execSput p q l s)
  | .smark p q l => run (execSmark p q l s)
  | .aadd p ty sc l off t0 => run (execAadd p ty sc l off t0 s)
  | .afadd p ty sc l off t0 => run (execAfadd p ty sc l off t0 s)
  | .amin p ty sc l off t0 => run (execAmin p ty sc l off t0 s)
  | .amax p ty sc l off t0 => run (execAmax p ty sc l off t0 s)
  | .aand p ty sc l off t0 => run (execAand p ty sc l off t0 s)
  | .aor p ty sc l off t0 => run (execAor p ty sc l off t0 s)
  | .axor p ty sc l off t0 => run (execAxor p ty sc l off t0 s)
  | .axchg p ty sc l off t0 => run (execAxchg p ty sc l off t0 s)
  | .acas ty sc l off t0 => run (execAcas ty sc l off t0 s)
  | .acasw sc l b off t1 t0 => run (execAcasw sc l b off t1 t0 s)
  | .acasv d sc l off t1 t0 => run (execAcasv d sc l off t1 t0 s)
  | .aaddNr p ty sc l off => run (execAaddNr p ty sc l off s)
  | .afaddNr p ty sc l off => run (execAfaddNr p ty sc l off s)
  | .aminNr p ty sc l off => run (execAminNr p ty sc l off s)
  | .amaxNr p ty sc l off => run (execAmaxNr p ty sc l off s)
  | .aandNr p ty sc l off => run (execAandNr p ty sc l off s)
  | .aorNr p ty sc l off => run (execAorNr p ty sc l off s)
  | .axorNr p ty sc l off => run (execAxorNr p ty sc l off s)
  | .axchgNr p ty sc l off => run (execAxchgNr p ty sc l off s)
  | .acasNr ty sc l off => run (execAcasNr ty sc l off s)
  | .acaswNr sc l b off => run (execAcaswNr sc l b off s)
  | .acasvNr d sc l off => run (execAcasvNr d sc l off s)
  | .fence p k sc l => run (execFence p k sc l s)
  | .binit p q l => run (execBinit p q l s)
  | .barv p m q l => run (execBarv p m q l s)
  | .bexp p q l => run (execBexp p q l s)
  | .qpush p q l => run (execQpush p q l s)
  | .qgrant p q l => run (execQgrant p q l s)
  | .mld p src l rec w => run (execMld p src l rec w s)
  | .mldKv p l rec w => run (execMldKv p l rec w s)
  | .mst p f l w tile col n => run (execMst p f l w tile col n s)
  | .amass p e l k w tile col => run (execAmass p e l k w tile col s)
  | .cpy p sc l w e k => run (execCpy p sc l w e k s)
  | .cpySend p sc l w e cv => run (execCpySend p sc l w e cv s)
  | .cpyRecv p sc l w e cv => run (execCpyRecv p sc l w e cv s)
  | .cpyt p sc l w e => run (execCpyt p sc l w e s)
  | .coll p sc l w => run (execColl p sc l w s)
  | .splev p sc l w => run (execSplev p sc l w s)
  | .splcmp p sc l w => run (execSplcmp p sc l w s)
  | .spldcy p sc l w => run (execSpldcy p sc l w s)
  | .rmaprd p sc l w => run (execRmaprd p sc l w s)
  | .rmapwr p sc l w => run (execRmapwr p sc l w s)
  | .tsend p sc l => run (execTsend p sc l s)
  | .launch p sc l q => run (execLaunch p sc l q s)
  | .kset p a l => run (execKset p a l s)
  | _ => s

/-- The next operation of an agent's pass performs, or its phase two completes (R47). -/
def State.performTwo (s : State) (a : Agent) : State :=
  match s.passOf a with
  | none => s
  | some p =>
    let ws := s.block p.img p.blk
    if s.twoStopped a || !passClosed ws p then s
    else match nextOp p with
      | none => s.completeTwo a p
      | some (k, o) =>
        let s : State := { s with cur := { agent := a, idx := o.idx, phase := .two } }
        if o.null then s.setPerformed k
        else match opInstr ws o with
          | some i => performInstr i s
          | none => s

/-- PHASE_TWO_PERFORM (R47 to R49). -/
def execPhaseTwoPerform (core slot : Nat) (s : State) : Host.Outcome State Fault Refusal :=
  go (s.performTwo (s.threadAgent core slot))

/-! ## Rare passes (R54, R55) -/

/-- The oldest XPATH record of a queue that `f` takes, and the queue without it. -/
def popXpath (f : Nat → Bool) : List Rec → Option (Nat × List Rec)
  | [] => none
  | r :: rest =>
    if r.toNat % 256 = 1 && f (bitsOf r.toNat 63 48) then some (bitsOf r.toNat 63 48, rest)
    else (popXpath f rest).map (fun x => (x.1, r :: x.2))

/-- A thread's rare pass begins on its control core, or the thread becomes Held (R55). -/
def State.startRare (s : State) (c t : Nat) : State :=
  let img := s.imgOf c t
  let blk := (s.thread c t).blk
  let s := s.setWindows c (s.base c t)
  match s.admission c t (s.block img blk) with
  | .held s h => s.hold c t h
  | .ok s rsv =>
    let consts := boundConsts (s.image img) (s.gang (s.gangOf c t)) blk
    let p : Pass := { img, blk, roundNo := (s.thread c t).lastRound, consts, live := some (s.liveFile c t), rsv }
    let s := s.setThread c t { s.thread c t with pass := some p }
    s.setCore c { s.core c with cc := .rare t }

/-- RARE_PASS_START: an idle control core takes the oldest XPATH record of its queue, but none of a frozen
gang (R23, R55, R414 to R416). A record whose thread is no longer Rare has nothing to start. -/
def execRarePassStart (core : Nat) (s : State) : Host.Outcome State Fault Refusal :=
  let k := s.core core
  go (match k.cc, popXpath (fun t => (s.gang (s.gangOf core t)).frozen = .no) k.evq with
    | .idle, some (t, q) =>
      let n := refill q k.evHeld
      let s := s.setCore core { k with evq := n.1, evHeld := n.2, waited := k.waited.filter (· != t) }
      if (s.thread core t).st != .rare then s else s.startRare core t
    | _, _ => s)

end Sys2Proof.Machine
end

