-- ==== Sys2Proof/Machine/Reply.lean ====
section
/-! DEFINITION. Replies, timeouts and probe answers (R48, R52, R148, R215, R225, R235, R240, R248, R253,
R254, R257, R262, R263, R267, R355, R385, R420, R426, R434, R437). -/

namespace Sys2Proof.Machine

/-- T0 and T1 of the instruction of a request. -/
def State.replyTo (s : State) (r : Req) (v0 v1 : W64) : State :=
  match s.passOf r.agent with
  | none => s
  | some p =>
    let ts := ((instrAt (s.block p.img p.blk) r.idx).map targetsOf).getD []
    (s.emitAt r.agent r.idx 0 (ts.getD 0 .none) v0).emitAt r.agent r.idx 1 (ts.getD 1 .none) v1

/-- A byte of a part of a load that memory must give touches poison; forwarded bytes do not count. -/
def State.loadPoison (s : State) (p : Pass) (r : Req) : Bool :=
  match p.loads.find? (·.lsid = r.lsid) with
  | some l => l.bytes.any (fun b => b.2.isNone && reqAt r ≤ b.1 && b.1 < reqAt r + reqLen r && s.poisonAt b.1 1)
  | none => s.poisonAt (reqAt r) (reqLen r)

/-- A read that a memory tile sends through its core's partition network. -/
def ReqKind.isRead : ReqKind → Bool
  | .load .. | .ldv .. | .watch .. | .stream _ => true
  | _ => false

/-- The memory station that a request comes from: core and tile, none of a control core or a supervisor. -/
def State.reqStation (s : State) (r : Req) : Option (Nat × Nat) :=
  match r.agent with
  | .fab c _ => some (c, s.memTile r.agent r.idx)
  | _ => none

/-- An earlier read of the same station still stands in the FIFO of the same destination: requests from one station
to one destination keep their order (R211, R223). -/
def State.readBehind (s : State) (n : Nat) (r : Req) : Bool :=
  (s.reqStation r).isSome && s.reqs.any (fun e => e.1 < n && e.2.kind.isRead && e.2.taken.isNone
    && s.reqStation e.2 = s.reqStation r && netQueue r.agent.core (reqAt e.2) = netQueue r.agent.core (reqAt r))

/-- What a read takes at its home. -/
def State.takenOf (s : State) (r : Req) (p : Pass) : Taken :=
  { bytes := readBytes s.mem (reqAt r) (reqLen r), side := s.sideOf (reqLine r)
    bad := match r.kind with
      | .load .. => s.loadPoison p r
      | .ldv .. => (s.sideOf (reqLine r)).dp || (s.sideOf (reqLine r)).vp
      | .stream _ => s.poisonAt (reqAt r) (reqLen r)
      | _ => false }

/-- A read goes on with what it has taken; one that has not performed does so at its home, in its turn (R223, R225,
R235). -/
def State.homeRead (s : State) (n : Nat) (r : Req) (p : Pass) (f : Taken → State → State) : State :=
  if !s.sent (.req n) then s
  else match r.taken with
    | some x => f x s
    | none =>
      if s.readBehind n r then s
      else if !s.homeFree (reqLine r) then s.recallOwner (reqLine r)
      else f ((s.touchL2 (reqLine r)).takenOf r p) (s.touchL2 (reqLine r))

/-- A read performs while its station cannot take the reply, which waits at the memory tile (R142, R414). -/
def State.takeRead (s : State) (n : Nat) (r : Req) (p : Pass) : State :=
  s.homeRead n r p fun x s => { s with reqs := mput s.reqs n { r with taken := some x } }

/-- The reply of a read delivers what it took (R248, R254, R257, R260). -/
def State.deliverRead (s : State) (n : Nat) (r : Req) (p : Pass) (x : Taken) : State :=
  let a := r.agent
  if x.bad then (s.dropReq n).fault a (some r.idx) fcPoison 0 r.va
  else match r.kind with
    | .load size sx part =>
      ((s.dropReq n).updPass a (fun p => { p with got := mput p.got (2 * r.idx + part) x.bytes })).finishLoad a r.idx r.lsid size sx
    | .ldv size w =>
      let v : Watch := { line := r.va / 128, ver := x.side.ver }
      let s := (s.dropReq n).updPass a (fun p =>
        if w then { p with watchIns := mput p.watchIns (r.lsid * 128 + r.idx) v } else p)
      s.replyTo r (tokNat (leNat (x.bytes.take size))) (tokNat x.side.ver)
    | .watch _ ver =>
      let ok := x.side.ver = ver && !x.side.vp && mgetD p.valid r.idx true
      let s := (s.dropReq n).updPass a (fun p => { p with valid := mput p.valid r.idx ok })
      if s.reqs.any (fun e => e.2.agent = a && e.2.idx = r.idx) then s else s.replyTo r (predTok ok) 0
    | .stream _ => (s.dropReq n).replyTo r (tokNat (leNat x.bytes)) 0
    | _ => s

/-- A read at its home returns its value (R235, R248, R254, R257, R260). -/
def State.replyRead (s : State) (n : Nat) (r : Req) (p : Pass) : State :=
  s.homeRead n r p fun x s => s.deliverRead n r p x

/-- A port can send and receive: enabled, with its link up (R435). -/
def State.portLive (s : State) (p : Nat) : Bool :=
  flag (s.reg (0x30A0000 + 0x100 * p)) 31 && flag (s.reg (0x30A0008 + 0x100 * p)) 0

/-- The token of a remote atomic's old value. -/
def State.remoteToken (s : State) (a : Agent) (i : Instr) (o : Op) (v : W64) : W64 × W64 :=
  let x := atomicRun i o (s.liveReg a) (toLE v.toNat (atomicSize i)) 0 false
  (x.t0, x.t1)

/-- The operation of a request in phase two, with its instruction. -/
def State.reqOp (s : State) (r : Req) (k : Nat) : Option (Op × Instr) := do
  let p ← s.passOf r.agent
  let o ← mget p.ops k
  let i ← opInstr (s.block p.img p.blk) o
  some (o, i)

/-- What a port has received in answer goes on to the die of the issuer, over their circuit; `answer` says what comes in
from outside (R13, R14, R436). -/
def State.comeBack (s : State) (n : Nat) (r : Req) (p : Nat) (answer : PeerReply) (f : PeerReply → State → State) : State :=
  match r.back with
  | some x => if s.sent (.req n) then f x s else s
  | none =>
    if answer = .none || !s.portLive p || !s.sent (.req n) then s
    else if portDie p = r.agent.die then f answer s
    else ({ s with reqs := mput s.reqs n { r with back := some answer } } : State).carry (s.packetOf r.agent (.req n))
      (hop (portDie p) r.agent.die 8)

/-- The answer of the far side reaches the issuer (R253, R262, R263, R267, R437). -/
def State.answerRemote (s : State) (n : Nat) (r : Req) (peer : PeerReply) : State :=
  let a := r.agent
  match r.kind, peer with
  | .remoteRead size, .data v =>
    ((s.dropReq n).updPass a (fun p => { p with got := mput p.got (2 * r.idx) (toLE v.toNat size) })).finishLoad a r.idx r.lsid size false
  | .remoteRead _, .poisoned => ((s.dropReq n).postRemote a fcPoison 0 r.va).fault a (some r.idx) fcPoison 0 r.va
  | .remoteAtomic k, .poisoned => ((s.dropReq n).postRemote a fcPoison 0 r.va).faultTwo a fcPoison 0 r.va k
  | .remoteRead _, .refused sub => ((s.dropReq n).postRemote a fcRemote sub r.va).fault a (some r.idx) fcRemote sub r.va
  | .remoteWrite k, .data _ => (s.dropReq n).updOp a k (fun o => { o with performed := true, waiting := 0 })
  | .remoteWrite k, .refused sub => ((s.dropReq n).postRemote a fcRemote sub r.va).faultTwo a fcRemote sub r.va k
  | .remoteAtomic k, .data v =>
    match s.reqOp r k with
    | some (o, i) =>
      let t := s.remoteToken a i o v
      (s.dropReq n).atomicDone a k o t.1 t.2
    | none => s.dropReq n
  | .remoteAtomic k, .refused sub => ((s.dropReq n).postRemote a fcRemote sub r.va).faultTwo a fcRemote sub r.va k
  | .remoteNr m, .data _ =>
    match mget (s.core a.core).nrOps m with
    | some x => ((s.dropReq n).nrDrop a.core m).nrSettle x.agent x.gang x.wgid x.tid x.seq
    | none => s.dropReq n
  | .remoteNr m, .refused sub =>
    match mget (s.core a.core).nrOps m with
    | some x => (s.dropReq n).nrFault a.core m x fcRemote sub true
    | none => s.dropReq n
  | _, _ => s

/-- A port returns the answer of the far side (R14, R253, R262, R263, R267, R436). -/
def State.replyRemote (s : State) (n : Nat) (r : Req) (peer : PeerReply) : State :=
  s.comeBack n r (remotePort r.va) peer fun x s => s.answerRemote n r x

/-- A reply finds its station able to take it: the unit is not held and its latches are empty (R142,
R414). -/
def State.replyOpen (s : State) (r : Req) : Bool :=
  match s.passOf r.agent with
  | some p => !s.stopped r.agent && s.latchFree r.agent p r.idx
  | none => false

/-- A request that a home, an owner or a peer answers; a peer's answer comes from outside, and a store's with the
completion time (R254, R420). (log 16, DEDUCED) -/
def ReqKind.answered : ReqKind → PeerReply → Bool
  | .load .., _ | .ldv .., _ | .watch .., _ | .stream _, _ | .store _, .refused _ => true
  | .remoteRead _, p | .remoteAtomic _, p => p != .none
  | .remoteWrite _, p | .remoteNr _, p => p != .none && p != .poisoned
  | _, _ => false

/-- A request that something answers; a TLWAIT only waits (R385, R420). -/
def ReqKind.replies : ReqKind → Bool
  | .tlwait .. => false
  | _ => true

/-- The unit that waits for a request is held: its age does not advance, and its replies wait (R414). -/
def State.reqHeld (s : State) (r : Req) : Bool :=
  match r.kind, r.agent with
  | .engine ctx, _ => s.engHeld ctx
  | _, .fab c _ => s.heldCore c
  | _, _ => false

/-- The reply of an abandoned request is discarded and counted (R420). (log 65, DEDUCED) -/
def State.replyLate (s : State) (n : Nat) (peer : PeerReply) : State :=
  match mget s.late n with
  | some (r, ten) =>
    if !r.kind.answered peer || s.reqHeld r then s
    else { s with late := mdel s.late n }.countBy r.agent 0x023 (some ten)
  | none => s

/-- MEMORY_REPLY: a reply to a read, an atomic or a remote request returns to its station (R254). -/
def execMemoryReply (req : Nat) (peer : PeerReply) (s : State) : Host.Outcome State Fault Refusal :=
  go (match mget s.reqs req with
    | none => s.replyLate req peer
    | some r =>
      let s' := match r.kind with
      | .xlate | .probe _ | .engine _ | .nr _ => s
      | .remoteNr _ => s.replyRemote req r peer
      | .remoteWrite _ | .remoteAtomic _ => if s.twoStopped r.agent then s else s.replyRemote req r peer
      | .remoteRead _ => if s.replyOpen r then (s.replyRemote req r peer).checkPhaseOne r.agent else s
      | .store _ | .atomic _ => s
      | .tlwait ctx v =>
        if s.replyOpen r && v ≤ s.timeline ctx then (s.dropReq req).replyTo r 1 1 else s
      | _ => match s.passOf r.agent with
        | some p => if s.replyOpen r then (s.replyRead req r p).checkPhaseOne r.agent else s.takeRead req r p
        | none => s.dropReq req
      s'.wakeLsq r.agent)

/-! ## Failing translations and timeouts -/

/-- An instruction whose perform reads a descriptor: a failed translation fails its command (R318, R324,
R364). -/
def readsDesc : Instr → Bool
  | .launch .. | .cpyt .. | .splev .. | .splcmp .. | .spldcy .. | .rmaprd .. | .rmapwr .. => true
  | _ => false

/-- The index that stands for a supervisor's own access to a tenant's space (R337). -/
def supIdx : Nat := 0xFFFF

/-- An instruction of an agent whose translation, or whose request, fails: in phase one a precise fault, in
phase two one at its LSID (R46, R48). -/
def State.failInstr (s : State) (a : Agent) (idx code va : Nat) : State :=
  if idx = supIdx then s.setDie a.die { s.die a.die with supFail := va / 65536 :: (s.die a.die).supFail } else
  match s.passOf a with
  | none => s
  | some p =>
    let ws := s.block p.img p.blk
    if !p.two then s.fault a (some idx) code 0 va
    else match p.ops.find? (fun e => e.2.idx = idx && !e.2.null && !e.2.performed) with
      | none => s
      | some (k, _) =>
        if ((instrAt ws idx).map readsDesc).getD false then
          s.updOp a k (fun o => { o with waiting := 1 + code })
        else s.faultTwo a code 0 va k

/-- Whether the operation at an LSID is a .nr reduction: it never parks its thread (R48). -/
def State.nrAt (s : State) (a : Agent) (k : Nat) : Bool :=
  match s.passOf a with
  | none => false
  | some p => match (mget p.ops k).bind (opInstr (s.block p.img p.blk)) with
    | some i => match encodeFields i with
      | some f => f.cls = .sync && 0x10 ≤ f.op && f.op < 0x20
      | none => false
    | none => false

/-- The other parts of a store whose request is abandoned go with it; each of its answers is late (R420). -/
def State.giveUpStore (s : State) (a : Agent) (k ten : Nat) : State :=
  (s.reqs.filter (fun e => e.2.agent = a && e.2.kind = .store k)).foldl (fun (st : State) e =>
    { st.dropReq e.1 with late := mput st.late e.1 (e.2, ten) }) s

/-- A reduction that waits for its release never parks its thread: given up, it is a deferred fault, and the thread goes
on behind it (R48, R267, R426). -/
def State.nrGiveUp (s : State) (a : Agent) (k code : Nat) : State :=
  match s.passOf a with
  | none => s
  | some p => match mget p.ops k with
    | none => s
    | some o => match opInstr (s.block p.img p.blk) o with
      | none => s
      | some i => (s.deferFault (s.nrOpOf a i o) code 0 o.va false).updOp a k (fun o => { o with performed := true, waiting := 0 })

/-- Tenant of an agent's request: of the launch whose end a supervisor probes for. -/
def State.reqTenant (s : State) (r : Req) : Nat :=
  match r.kind, r.agent with
  | .nr m, a | .remoteNr m, a => ((mget (s.core a.core).nrOps m).map (·.tenant)).getD (s.tenantOf a)
  | .probe _, .sup _ => (s.launch r.lsid).desc.tenant
  | _, a => s.tenantOf a

/-- A probe that its port does not answer in time: the port counts it, the tenant gets a record, and what waited for the
release fails (R426, R437). -/
def State.probeOut (s : State) (r : Req) (port : Nat) : State :=
  let a := r.agent
  let ten := s.reqTenant r
  let seq := match a with
    | .sup _ => r.lsid
    | _ => match a.slot with | some t => s.seqOf a.core t | none => 0
  let s := (s.countPort port 0x204 (some ten)).postRemoteOf ten seq a fcTimeout 0 port r.va
  match a with
  | .sup _ => s
  | _ =>
    if r.idx = supIdx then s
    else if s.nrAt a r.lsid then s.nrGiveUp a r.lsid fcTimeout
    else s.faultTwo a fcTimeout 0 r.va r.lsid

/-- A request is abandoned (R253, R315, R385, R420, R426). (log 65, DEDUCED) -/
def State.timeOut (s : State) (n : Nat) (r : Req) : State :=
  let a := r.agent
  let ten := s.reqTenant r
  let t := some ten
  let s := (s.dropReq n).countBy a 0x023 t
  let s := if r.kind.replies && r.taken.isNone then { s with late := mput s.late n (r, ten) } else s
  let sent (s : State) : State := (s.countPort (remotePort r.va) 0x204 t).postRemote a fcTimeout 0 r.va
  match r.kind with
  | .tlwait ctx v => s.replyTo r (predTok (v ≤ s.timeline ctx)) (predTok (v ≤ s.timeline ctx))
  | .store k => (s.giveUpStore a k ten).faultTwo a fcTimeout 0 r.va k
  | .atomic k => s.faultTwo a fcTimeout 0 r.va k
  | .xlate => s.failInstr a r.idx fcTimeout r.va
  | .remoteRead _ => (sent s).fault a (some r.idx) fcTimeout 0 r.va
  | .remoteWrite k => (sent s).faultTwo a fcTimeout 0 r.va k
  | .remoteAtomic k => (sent s).faultTwo a fcTimeout 0 r.va k
  | .remoteNr m =>
    match mget (s.core a.core).nrOps m with
    | some x => (s.countPort (remotePort r.va) 0x204 t).nrFault a.core m x fcTimeout 0 true
    | none => s
  | .nr m =>
    match mget (s.core a.core).nrOps m with
    | some x => s.nrFault a.core m x fcTimeout 0 false
    | none => s
  | .probe port => s.probeOut r port
  | .engine ctx => s.engStop ctx fcTimeout r.va
  | _ => s.fault a (some r.idx) fcTimeout 0 r.va

/-- REQUEST_TIMEOUT: a request has reached KC_REQ_TIMEOUT of its issuing core (R420). A TLWAIT delivers its
result into free latches. -/
def execRequestTimeout (req : Nat) (s : State) : Host.Outcome State Fault Refusal :=
  go (match mget s.reqs req with
    | none => s
    | some r =>
      let age := (s.die r.agent.die).clk - r.start
      let wait := match r.kind with | .tlwait _ _ => !s.replyOpen r | _ => false
      if age < s.reg (kcReg r.agent.core 0x28) || s.reqHeld r || wait then s else (s.timeOut req r).wakeLsq r.agent)

/-! ## VISIBILITY_PROBE_ANSWER -/

/-- A port leaves the remote-write set of an agent (R241). -/
def State.probeDone (s : State) (a : Agent) (port : Nat) : State :=
  match a.slot with
  | some t => let x := s.thread a.core t; s.setThread a.core t { x with remote := x.remote.filter (· != port) }
  | none => let x := s.ctl a; s.setCtl a { x with remote := x.remote.filter (· != port) }

/-- VISIBILITY_PROBE_ANSWER: a port answers the probe of a thread, or with slot 0xFFFF the probes of the
control core, or of the supervisor for a launch at its end (R240, R243). -/
def execVisibilityProbeAnswer (core slot port : Nat) (s : State) : Host.Outcome State Fault Refusal :=
  let mine (a : Agent) : Bool := match a with
    | .fab c t => c = core && t = slot
    | .rare c t => c = core && t = slot
    | .ctl c => c = core && slot = 0xFFFF
    | .sup d => d = dieOf core && slot = 0xFFFF
  let one (s : State) (e : Nat × Req) : State := s.comeBack e.1 e.2 port (.data 0) fun _ s =>
    let s := s.dropReq e.1
    match e.2.agent with
    | .sup _ =>
      let l := s.launch e.2.lsid
      s.setLaunch e.2.lsid { l with remote := l.remote.filter (· != port) }
    | a => s.probeDone a port
  let meant (r : Req) : Bool := r.kind = .probe port && mine r.agent && !s.reqHeld r
  let s' := if s.portLive port then s.lateAnswer meant else s
  go ((s.reqs.filter (fun e => meant e.2)).foldl one s')

end Sys2Proof.Machine
end

