-- ==== Sys2Proof/Machine/Pager.lean ====
section
/-! DEFINITION. Walks that end, the pager, and soft errors (R138, R215, R216, R296, R348 to R357). -/

namespace Sys2Proof.Machine

/-! ## Requesters -/

/-- The request of a requester that was given up: the answer comes now (R420). -/
def Waiter.asked (w : Waiter) (r : Req) : Bool :=
  match w with
  | .agent a idx _ => r.kind = .xlate && r.agent = a && r.idx = idx
  | .eng ctx _ => r.kind = .engine ctx && r.parts.isEmpty
  | .window _ _ _ => false
  | .nr c n _ => r.kind = .nr n && r.agent.core = c && r.parts.isEmpty

/-- The engine cannot read the descriptor of a COLL that stands behind the head of its queue (R321). -/
def State.unreadColl (s : State) (ctx va : Nat) : State :=
  match s.context ctx with
  | some g => s.setContext ctx { g with queue := g.queue.map (fun k => match k.instr with
      | .coll .. => if !k.running && va57 k.l.toNat = va then { k with unread := true } else k
      | _ => k) }
  | none => s

/-- A requester's instruction, command or reduction fails with a code at an address. -/
def State.failWaiter (s : State) (w : Waiter) (code addr : Nat) : State :=
  let s := s.lateAnswer w.asked
  match w with
  | .agent a idx _ =>
    if s.reqs.any (fun e => e.2.agent = a && e.2.idx = idx && e.2.kind = .xlate) then
      (s.endXlate a idx).failInstr a idx code addr
    else s
  | .eng ctx va => if s.reqs.any (fun e => e.2.kind = .engine ctx && e.2.va = va) then s.engStop ctx code va else s.unreadColl ctx va
  | .window _ _ _ => s
  | .nr c n va =>
    match mget (s.core c).nrOps n with
    | some x => if x.op.va = va then s.nrFault c n x code 0 false else s
    | none => s

/-- A requester's translation stands in the die TLB: it goes on. -/
def State.serveWaiter (s : State) (w : Waiter) : State :=
  let s := s.lateAnswer w.asked
  match w with
  | .agent a idx _ => s.endXlate a idx
  | .nr c n _ => s.runNr c n
  | _ => s

/-- The virtual address with which a requester missed. -/
def State.waiterVa (_s : State) (w : Waiter) (page : Nat) : Nat :=
  match w with
  | .agent _ _ va => va % 2 ^ 57
  | .eng _ va => va
  | .window _ _ _ => page
  | .nr _ _ va => va

/-- Every requester of a fault token walks again, with the kind of access of the token (R354, R357). -/
def State.walkAgain (s : State) (d : Nat) (f : FaultTok) : State :=
  f.waiters.foldl (fun (st : State) w => st.startWalk d f.tenant f.page w f.acc) s

/-! ## PAGE_WALK -/

/-- The lowest free index of the fault-token queue (R355). (log 60, DEDUCED) -/
def freeToken (x : Die) : Option Nat := (List.range 256).find? (fun i => (mget x.faults i).isNone)

/-- A miss of the walker becomes a fault token; with the queue full the requesters wait (R355). (log 60, DEDUCED) -/
def State.enqueueFault (s : State) (d n : Nat) (w : Walk) : State :=
  let x := s.die d
  match freeToken x with
  | none => s
  | some i =>
    let s := s.setDie d { x with walks := x.walks.eraseIdx n }
    let (s, no) := s.tlTake (ctxPager d)
    let x := s.die d
    (s.setDie d { x with faults := mput x.faults i { no, tenant := w.tenant, page := w.va, waiters := w.waiters, acc := w.acc } }).countDie d
      0x108 (some w.tenant)

/-- PAGE_WALK: a walk of a die completes: it installs an entry, refuses one, ends as a miss, or finds a
poisoned table (R348 to R353). -/
def execPageWalk (die n : Nat) (s : State) : Host.Outcome State Fault Refusal :=
  go (match (s.die die).walks[n]? with
    | none => s
    | some w =>
      if 8 ≤ n || s.heldDie die then s
      else
        let ten := some w.tenant
        let drop (s : State) : State := s.setDie die { s.die die with walks := (s.die die).walks.eraseIdx n }
        match s.walk die w.tenant w.va with
        | .owned line => s.recallOwner line
        | .leaf e =>
          let s := (drop s).countDie die 0x106 ten
          let s := s.setDie die { s.die die with tlb := diePut (s.die die).tlb e }
          w.waiters.foldl (fun (st : State) x => st.serveWaiter x) s
        | .poison at_ => w.waiters.foldl (fun (st : State) x => st.failWaiter x fcPoison at_) ((drop s).countDie die 0x106 ten)
        | .missing _ _ =>
          if (freeToken (s.die die)).isNone then s else (s.countDie die 0x106 ten).enqueueFault die n w
        | .refused =>
          if (freeToken (s.die die)).isNone then s
          else ((s.countDie die 0x106 ten).countDie die 0x107 ten).enqueueFault die n w)

/-! ## The pager (R354 to R357) -/

/-- A fault token leaves the queue, and its number is complete (R383). -/
def State.dropToken (s : State) (d n : Nat) : State :=
  let no := ((mget (s.die d).faults n).map (·.no)).getD 0
  (s.setDie d { s.die d with faults := mdel (s.die d).faults n }).tlDone (ctxPager d) no

/-- The token waits for the die supervisor (R357). -/
def State.escalate (s : State) (d n : Nat) (f : FaultTok) : State :=
  let s := s.setDie d { s.die d with faults := mput (s.die d).faults n { f with stage := .escalated } }
  let va := ((f.waiters.head?).map (fun w => s.waiterVa w f.page)).getD f.page
  (s.countDie d 0x109 (some f.tenant)).postDie d (mkRec 5 0 0 f.tenant 0xFFFF 0xFFFF 0 n (s.die d).clk va)

/-- The fields of a backing-map entry (R356). -/
structure BackEntry where
  base : Nat
  len : Nat
  bits : Nat
  zero : Nat
  src : Nat
  deriving DecidableEq, Repr

def backEntry (m : Memory) (a : Nat) : BackEntry :=
  { base := readLE m a 8, len := readLE m (a + 8) 8, bits := readLE m (a + 16) 2, zero := readLE m (a + 18) 6,
    src := readLE m (a + 24) 8 }

/-- A backing-map entry that no field rule of R356 allows. (log 22, DEDUCED) -/
def BackEntry.bad (e : BackEntry) : Bool :=
  e.base % 65536 != 0 || e.len % 65536 != 0 || bitsOf e.bits 15 10 != 0 || e.zero != 0
    || (if e.bits % 4 = 1 then e.src % 65536 != 0 else e.src != 0)

/-- What the search of a backing map finds. -/
inductive BackFind where
  | none
  | entry (e : BackEntry)
  | owned (line : Nat)
  deriving DecidableEq, Repr

/-- The binary search for the entry that contains a page, among entries `lo` to `hi - 1` (R356). -/
def State.findBack (s : State) (d map page : Nat) : Nat → Nat → Nat → BackFind
  | 0, _, _ => .none
  | fuel + 1, lo, hi =>
    if hi ≤ lo then .none
    else
      let mid := (lo + hi) / 2
      let a := map + 32 * mid
      if !s.lineOpen d (lineOf a) then .owned (lineOf a)
      else
        let e := backEntry s.mem a
        if page < e.base then State.findBack s d map page fuel lo mid
        else if e.base + e.len ≤ page then State.findBack s d map page fuel (mid + 1) hi
        else .entry e

/-- The level-4 entry that the pager installs (R350, R356). -/
def pagerLeaf (e : BackEntry) (frame : Nat) : Nat :=
  3 + 4 * bitsOf e.bits 6 4 + 32 * bitsOf e.bits 3 2 + frame * 65536

/-- Frames that the ring of a die holds, those of an enabled queue, and the entries of the ring (R355, R357). -/
def State.freeHeldOf (s : State) (d : Nat) : Nat := ((s.die d).freePushed + 2 ^ 32 - (s.die d).freeTaken) % 2 ^ 32
def State.freeFramesOf (s : State) (d : Nat) : Nat := if flag (s.reg (dsReg d 0x438)) 31 then s.freeHeldOf d else 0
def State.freeRing (s : State) (d : Nat) : Nat :=
  let v := s.reg (dsReg d 0x438) % 32
  2 ^ (if v < 6 || 20 < v then 6 else v)

/-- Stage 3: a frame is taken from the queue of the home die and its fill begins; an empty queue
escalates (R356). -/
def State.takeFrame (s : State) (d n : Nat) (f : FaultTok) (e : BackEntry) (entryAt : Nat) : State :=
  let h := bitsOf e.bits 9 7
  let x := s.die h
  let at_ := s.reg (dsReg h 0x430) + 4 * (x.freeTaken % s.freeRing h)
  if s.freeFramesOf h = 0 then s.escalate d n f
  else if !s.lineOpen d (lineOf at_) then s.recallOwner (lineOf at_)
  else
    let frame := readLE s.mem at_ 4
    let s := s.setDie h { x with freeTaken := (x.freeTaken + 1) % 2 ^ 32 }
    if !inRegion (frame * 65536) 65536 then s.escalate d n f
    else
      let src := if e.bits % 4 = 1 then some (e.src + (f.page - e.base)) else none
      let stage : PagerStage := .filling frame h entryAt (pagerLeaf e frame) src
      s.setDie d { s.die d with faults := mput (s.die d).faults n { f with stage } }

/-- A page's tables as the pager finds them: the place of its level-4 entry, whatever stands there. -/
inductive LeafAt where
  | place (at_ : Nat)
  | missing
  | poison (at_ : Nat)
  | owned (line : Nat)
  deriving DecidableEq, Repr

/-- The place of a page's level-4 entry below a table; a leaf of a larger page, or a refused entry, is no table
pointer (R351, R354). (log 22, DEDUCED) -/
def State.leafFrom (s : State) (d page table : Nat) : Nat → Nat → LeafAt
  | 0, _ => .missing
  | fuel + 1, level =>
    let at_ := table + 8 * walkIndex level page
    let line := lineOf at_
    if !s.lineOpen d line then .owned line
    else if (s.sideOf line).dp then .poison at_
    else
      let e := readLE s.mem at_ 8
      if flag e 0 && entryBad level e then .missing
      else if level = 4 then .place at_
      else if !flag e 0 || flag e 1 then .missing
      else State.leafFrom s d page (bitsOf e 51 12 * 4096) fuel (level + 1)

def State.leafPlace (s : State) (d tenant page : Nat) : LeafAt :=
  let r := s.reg (0x4000 + 0x20 * tenant)
  if flag r 0 then s.leafFrom d page (bitsOf r 51 14 * 2 ^ 14) 5 0 else .missing

/-- Stage 1: a token of the same tenant and page that is in flight, or queued before it, takes the requesters of a
token (R354). -/
def mergeWith (x : Die) (n : Nat) (f : FaultTok) : Option (Nat × FaultTok) :=
  x.faults.find? (fun e => e.1 != n && e.2.tenant = f.tenant && e.2.page = f.page && (e.2.stage != .queued || e.2.no < f.no))

/-- PAGER_TOKEN: the pager merges a fault token with one of the same page, looks its page up in the backing map and
takes a frame, escalates, or refuses (R354, R356). (log 22, DEDUCED) -/
def execPagerToken (die n : Nat) (s : State) : Host.Outcome State Fault Refusal :=
  go (match mget (s.die die).faults n with
    | none => s
    | some f =>
      if f.stage != .queued || s.heldDie die then s
      else if let some (m, g) := mergeWith (s.die die) n f then
        let s := s.dropToken die n
        let ws := g.waiters ++ f.waiters.filter (fun w => !g.waiters.contains w)
        s.setDie die { s.die die with faults := mput (s.die die).faults m { g with waiters := ws } }
      else
        let map := bitsOf (s.reg (0x4008 + 0x20 * f.tenant)) 56 5 * 32
        let count := s.reg (0x4010 + 0x20 * f.tenant) % 2 ^ 24
        let inDev := match regionOf map, regionOf (map + 32 * count - 1) with
          | .dev a, .dev b => a = b
          | _, _ => false
        if count = 0 || !inDev then s.escalate die n f
        else match s.findBack die map f.page 25 0 count with
          | .owned line => s.recallOwner line
          | .none => s.escalate die n f
          | .entry e =>
            if e.bad || e.bits % 4 = 2 then s.escalate die n f
            else if e.bits % 4 = 3 then
              f.waiters.foldl (fun (st : State) w => st.failWaiter w fcXlate (st.waiterVa w f.page)) (s.dropToken die n)
            else match s.leafPlace die f.tenant f.page with
              | .owned line => s.recallOwner line
              | .missing => s.escalate die n f
              | .poison at_ => f.waiters.foldl (fun (st : State) w => st.failWaiter w fcPoison at_) (s.dropToken die n)
              | .place at_ => s.takeFrame die n f e at_)

/-- The first line of a range whose owner must be recalled. -/
def State.ownedLine (s : State) (a lines : Nat) : Option Nat :=
  (List.range lines).findSome? (fun i => let line := lineOf a + i; if s.homeFree line then none else some line)

/-- The first line of a range that a die cannot access now: its owner must be recalled, or no circuit reaches it. -/
def State.closedLine (s : State) (d a lines : Nat) : Option Nat :=
  (List.range lines).findSome? (fun i => let line := lineOf a + i; if s.lineOpen d line then none else some line)

/-- PAGER_FILL_COMPLETE: every line of the frame has its new contents, and the level-4 entry is written if
it is still invalid, else a FRAME record names the frame; the requesters walk again (R356). -/
def execPagerFillComplete (die n : Nat) (s : State) : Host.Outcome State Fault Refusal :=
  go (match mget (s.die die).faults n with
    | none => s
    | some f =>
      match f.stage with
      | .filling frame home entryAt leaf src =>
        let at_ := frame * 65536
        if s.heldDie die || s.heldDie home then s
        else match s.closedLine die at_ 512, src.bind (fun a => s.closedLine die a 512) with
          | some line, _ => s.recallOwner line
          | none, some line => s.recallOwner line
          | none, none =>
            if !s.lineOpen die (lineOf entryAt) then s.recallOwner (lineOf entryAt)
            else if (src.map (fun a => s.poisonAt a 65536)).getD false then s.escalate die n f
            else
              let data : List Byte := match src with
                | some a => readBytes s.mem a 65536
                | none => List.replicate 65536 0
              let s := (s.writeHome at_ data).countDie home 0x10B (some f.tenant) 512
              let s := if readLE s.mem entryAt 8 % 2 = 0 then s.storeUnit entryAt (toLE leaf 8)
                else s.postDie die (mkRec 9 0 0 f.tenant 0xFFFF 0xFFFF 0 0 (s.die die).clk frame)
              (s.dropToken die n).walkAgain die f
      | _ => s)

/-- PAGER_REPLY_RETRY: every merged requester of an escalated token walks again (R357). -/
def execPagerReplyRetry (die n : Nat) (s : State) : Host.Outcome State Fault Refusal :=
  go (match mget (s.die die).faults n with
    | some f => if f.stage = .escalated then (s.dropToken die n).walkAgain die f else s
    | none => s)

/-- PAGER_REPLY_FAIL: every merged requester of an escalated token faults XLATE (R357). -/
def execPagerReplyFail (die n : Nat) (s : State) : Host.Outcome State Fault Refusal :=
  go (match mget (s.die die).faults n with
    | some f =>
      if f.stage = .escalated then
        f.waiters.foldl (fun (st : State) w => st.failWaiter w fcXlate (st.waiterVa w f.page)) (s.dropToken die n)
      else s
    | none => s)

/-! ## SOFT_ERROR (R138, R216, R296) -/

/-- Die of a place in the model's memory: of a core's stores, its core's die. -/
def dieOfPlace (a : Nat) : Nat :=
  if a < 2 ^ 52 then homeDie (lineOf a)
  else if a < 2 ^ 53 then dieOf ((a - 2 ^ 52) / 2 ^ 20)
  else if a < 2 ^ 54 then dieOf ((a - 2 ^ 53) / 2 ^ 20)
  else dieOf ((a - 2 ^ 54) / 2 ^ 19)

/-- A dirty window line with an uncorrectable error is written back with data poison, after a write-back of it that is
under way; a clean one is invalid (R216). -/
def State.spoilWindow (s : State) (c b port : Nat) (l : Nat × WinLine) : State :=
  let w := s.wg c b
  let x := mgetD w.windows port {}
  let put (s : State) (y : Option WinLine) : State :=
    s.setWg c b { w with windows := mput w.windows port { x with lines := match y with
      | some y => mput x.lines l.1 y
      | none => mdel x.lines l.1 } }
  if !l.2.dirty then (if l.2.valid then put s (if l.2.rsv = 0 then none else some { l.2 with valid := false }) else s)
  else ((put s (some { l.2 with spoilt := true, due := true })).countDie (dieOf c) 0x105 none).writeBackLine c b port l.1

/-- A line of an atomic line buffer with an uncorrectable error in the 32-byte unit at `a` is written back with
data poison (R216). (log 23, DEDUCED) -/
def State.spoilLine (s : State) (c : Nat) (l : AlbLine) (a : Nat) : State :=
  let k := s.core c
  let s := s.setCore c { k with alb := k.alb.filter (fun x => x.line != l.line) }
  let x := mgetD s.l2 l.line {}
  let s : State := { s with
    mem := writeBytes s.mem (l.line * 128) l.data
    side := if versioned l.line then mset s.side l.line { s.sideOf l.line with ver := l.ver } {} else s.side
    l2 := mput s.l2 l.line { x with owner := none } }
  (s.poisonWritten l.line ((List.range 32).map (· + a % 128 / 32 * 32))).countDie (dieOf c) 0x105 none

/-- Thread slot and register group of an error in the LVS: address (core × 8192 + slot) × 8 + group. -/
def State.poisonGroup (s : State) (a : Nat) : State :=
  let c := a / 65536
  let t := a / 8 % 8192
  let x := s.thread c t
  if x.st = .empty || x.poison.contains (a % 8) then s else s.setThread c t { x with poison := x.poison ++ [a % 8] }

/-- The descriptor of a thread's row reads as `d` after correction: a code that is not produced poisons its group
(R135, R138). Address: (core × 8192 + slot) × 2^32 + d. (log 23, DEDUCED) -/
def State.rereadRow (s : State) (a : Nat) : State :=
  let c := a / 2 ^ 32 / 8192
  let t := a / 2 ^ 32 % 8192
  let x := s.thread c t
  let d := a % 2 ^ 32
  if x.st = .empty then s
  else s.setThread c t { x with desc := if d = lvsDescriptor x.regs then none else some d }

/-- SOFT_ERROR: a corrected error is counted; an uncorrectable one poisons its unit (R138, R216, R296).
(log 23, DEDUCED) -/
def execSoftError (u : SoftUnit) (addr : Nat) (corrected : Bool) (s : State) : Host.Outcome State Fault Refusal :=
  let line := lineOf addr
  let side (f : Side → Side) : State :=
    if versioned line then { s with side := mset s.side line (f (s.sideOf line)) {} }.countDie (homeDie line) 0x105 none else s
  let unit (n : Nat) : State := (s.poisonUnit u (addr / n * n)).countDie (dieOfPlace addr) 0x105 none
  let hits (w : Wg) : List (Nat × (Nat × WinLine)) :=
    w.windows.flatMap (fun p => (p.2.lines.filter (fun l => l.2.pline = line && (l.2.valid || l.2.dirty))).map (fun l => (p.1, l)))
  let holders (f : Nat × Core → Bool) : State := (s.cores.filter f).foldl (fun (st : State) c => st.countDie (dieOf c.1) 0x104 none) s
  go (if corrected then
      match u with
      | .lvs => s.count (addr / 65536) 0x00C none
      | .lvsRow => (s.count (addr / 2 ^ 45) 0x00C none).rereadRow addr
      | .window => holders (fun c => c.2.wgs.any (fun w => !(hits w.2).isEmpty))
      | .lineBuffer => holders (fun c => c.2.alb.any (·.line = line))
      | _ => s.countDie (dieOfPlace addr) 0x104 none
    else match u with
      | .hbmData => side (fun x => { x with dp := true })
      | .sidecar => side (fun x => { x with vp := true })
      | .coreScratch => unit 4
      | .dieScratch => unit 16
      | .operandBuffer => (unit 8).countDie (dieOfPlace addr) 0x104 none
      | .accumulator => (unit 4).countDie (dieOfPlace addr) 0x104 none
      | .lvs => s.poisonGroup addr
      | .lvsRow => (List.range 8).foldl (fun (st : State) g => st.poisonGroup (addr / 2 ^ 32 * 8 + g)) s
      | .window =>
        s.cores.foldl (fun (st : State) c => c.2.wgs.foldl (fun (st : State) w =>
          (hits w.2).foldl (fun (st : State) h => st.spoilWindow c.1 w.1 h.1 h.2) st) st) s
      | .lineBuffer =>
        s.cores.foldl (fun (st : State) c => match c.2.alb.find? (·.line = line) with
          | some l => st.spoilLine c.1 l addr
          | none => st) s)

end Sys2Proof.Machine
end

