-- ==== Sys2Proof/Machine/Launch.lean ====
section
/-! DEFINITION. Launch queues, descriptors, the task matching store and the end of a launch (R58, R59, R91,
R319, R322, R323, R337 to R343, R383, R384, R407, R412, R439). -/

namespace Sys2Proof.Machine

/-! ## A supervisor's accesses to a tenant's space (R337, R348) -/

/-- Outcome of an access. -/
inductive SupAt where
  | ok (pa : Nat)
  | bad
  | wait (s : State)
  deriving Repr

/-- Outcome of a read. -/
inductive SupRead where
  | ok (bs : List Byte)
  | bad
  | wait (s : State)
  deriving Repr

/-- A page of a tenant as the failed pages name it. -/
def supPage (tenant va : Nat) : Nat := (tenant * 2 ^ 57 + va) / 65536

/-- A supervisor waits for a translation as any requester does (R148, R355). (log 61, DEDUCED) -/
def State.awaitSup (s : State) (d tenant va : Nat) (rt : Right) : State :=
  let a : Agent := .sup d
  let va' := tenant * 2 ^ 57 + va
  let s := s.startWalk d tenant va (.agent a supIdx va') rt
  if s.reqs.any (fun e => e.2.agent = a && e.2.idx = supIdx && e.2.kind = .xlate) then s
  else s.addReq { agent := a, idx := supIdx, kind := .xlate, va := va', start := (s.die d).clk }

/-- `n` bytes of one line of a tenant's space are reached at their home by the supervisor of a die.
(log 61, DEDUCED) -/
def State.supAt (s : State) (d tenant va n : Nat) (rt : Right) : SupAt :=
  if scratchVa < va + n then .bad
  else match tlbFind (s.die d).tlb tenant va with
    | none => if (s.die d).supFail.contains (supPage tenant va) then .bad else .wait (s.awaitSup d tenant va rt)
    | some e =>
      let pa := e.pa + va % 2 ^ e.lg
      if !e.allows rt then .bad
      else if !s.lineOpen d (lineOf pa) then .wait (s.recallOwner (lineOf pa))
      else if rt = .read && s.poisonAt pa n then .bad
      else .ok pa

/-- Pieces of a tenant's space read in their order. -/
def State.supPieces (s : State) (d tenant : Nat) : List (Nat × Nat) → SupRead
  | [] => .ok []
  | (va, n) :: rest =>
    match s.supAt d tenant va n .read with
    | .bad => .bad
    | .wait s => .wait s
    | .ok pa => match State.supPieces s d tenant rest with
      | .ok bs => .ok (readBytes s.mem pa n ++ bs)
      | r => r

def State.supRead (s : State) (d tenant va n : Nat) : SupRead := s.supPieces d tenant (linePieces va n)

/-- The supervisor forgets the pages that failed it. -/
def State.forgetFails (s : State) (d : Nat) : State := s.setDie d { s.die d with supFail := [] }

/-! ## Places that a supervisor chooses (R209, R319) -/

/-- One of the places that are allowed, by the free choice. (log 43, DESIGN CHOICE) -/
def State.pick (s : State) (xs : List Nat) : Option (State × Nat) :=
  match xs[Config.placePick s.freeCtr % xs.length]? with
  | some x => some ({ s with freeCtr := s.freeCtr + 1 }, x)
  | none => none

/-- The highest base of a free range of `n` bytes below an address, a multiple of `al`, above `lo`. -/
def fitBelow (taken : List (Nat × Nat)) (lo n al : Nat) : Nat → Nat → Option Nat
  | 0, _ => none
  | fuel + 1, top =>
    let b := (top - n) / al * al
    if top < lo + n || b < lo then none
    else match taken.find? (fun r => r.1 < b + n && b < r.1 + r.2) with
      | some r => fitBelow taken lo n al fuel r.1
      | none => some b

/-- Device memory of a die that its supervisor does not take: what it has taken, the park area, the context
region, and lines that an owner holds (R225, R403, R415). -/
def State.takenMemory (s : State) (d : Nat) : List (Nat × Nat) :=
  (s.reg (dsReg d 0x450), 2 ^ 28) :: (s.reg (dsReg d 0x480), s.reg (dsReg d 0x488)) :: (s.die d).regions
    ++ (s.l2.filter (fun e => e.2.owner.isSome)).map (fun e => (e.1 * 128, 128))

/-- A free range of a die's device memory taken: the search starts below a freely chosen address (R209).
(log 1, DESIGN CHOICE) -/
def State.takeMemory (s : State) (d n al : Nat) : Option (State × Nat) :=
  let taken := s.takenMemory d
  let top := dieBase d + devBytes
  let start := top - Config.placePick s.freeCtr % (devBytes / 128) * 128
  let found := (fitBelow taken (dieBase d) n al (taken.length + 1) start).or
    (fitBelow taken (dieBase d) n al (taken.length + 1) top)
  found.map (fun b =>
    let s : State := { s with freeCtr := s.freeCtr + 1 }
    (s.setDie d { s.die d with regions := (b, n) :: (s.die d).regions }, b))

/-- A range given back. -/
def State.freeMemory (s : State) (d b : Nat) : State :=
  s.setDie d { s.die d with regions := (s.die d).regions.filter (fun r => r.1 != b) }

/-! ## Descriptors (R337) -/

/-- The fields of a descriptor. -/
def descOf (b : List Byte) : Desc :=
  let n (o k : Nat) : Nat := fieldAt b o k
  let task := flag (n 0x1C 1) 3
  { image := n 0 8 % 2 ^ 57, argBlock := n 8 8, gangs := n 0x10 8, w := n 0x18 1, h := n 0x19 1, n := n 0x1A 2
    prio := n 0x1C 1 % 8, task, tval := flag (n 0x1C 1) 4, tenant := n 0x1D 1 % 64, dieMask := n 0x1E 1
    timeline := n 0x20 2, awaited := n 0x22 1, taskId := n 0x24 4, depA := n 0x28 4, depASlot := n 0x2C 1 % 8
    depAValid := flag (n 0x2C 1) 7, depB := n 0x30 4, depBSlot := n 0x2D 1 % 8, depBValid := flag (n 0x2D 1) 7
    completion := n 0x38 8
    badZero := 2 ^ 57 ≤ n 0 8 || 32 ≤ n 0x1C 1 || 64 ≤ n 0x1D 1 || n 0x1F 1 != 0 || n 0x23 1 != 0
      || (!task && n 0x24 4 != 0) || bitsOf (n 0x2C 1) 6 3 != 0 || bitsOf (n 0x2D 1) 6 3 != 0 || n 0x2E 2 != 0
      || n 0x34 4 != 0 }

/-- The timeline field names a launch timeline (R383). -/
def Desc.timelineOk (x : Desc) : Bool := x.timeline / 4096 = 7 && !flag x.timeline 11

/-- Die whose supervisor serves a descriptor: the owner of its timeline. -/
def Desc.die (x : Desc) : Nat := bitsOf x.timeline 10 8

/-- A descriptor of R339's step 1 but for the die of its timeline. -/
def Desc.stepOneBad (x : Desc) : Bool :=
  x.badZero || x.image % 16 != 0 || x.argBlock % 8 != 0 || x.completion % 32 != 0
    || (if x.task then !inRange x.awaited 1 8 else x.awaited != 0) || !x.timelineOk

/-! ## Completion records (R91, R338, R407) -/

/-- Status codes of R338. -/
def LStatus.code : LStatus → Nat
  | .ok => 0 | .empty => 1 | .deferred => 2 | .reject => 3 | .range => 4 | .tenant => 5 | .depfail => 6

/-- A status whose dependants receive an error token. -/
def LStatus.isError : LStatus → Bool
  | .ok | .empty | .deferred => false
  | _ => true

/-- How a launch ends: its status with the fields of its record. -/
structure Ending where
  status : LStatus
  gangs : Nat := 0
  faults : Nat := 0
  extra : Nat := 0
  rej : Option Rej := none
  deriving DecidableEq, Repr

/-- The 32 bytes of a completion record. -/
def completionBytes (x : Desc) (seq clk : Nat) (e : Ending) : List Byte :=
  let head := toLE 0x20 1 ++ toLE e.status.code 1 ++ toLE x.tenant 1 ++ toLE 0 1 ++ toLE seq 4
  match e.rej with
  | some r =>
    head ++ toLE r.reason.code 2 ++ toLE r.sect 2 ++ toLE r.blk 4 ++ toLE clk 8
      ++ toLE r.idx 1 ++ toLE r.col 1 ++ toLE r.row 1 ++ toLE 0 5
  | none => head ++ toLE e.gangs 4 ++ toLE (min e.faults 0xFFFFFFFF) 4 ++ toLE clk 8 ++ toLE e.extra 8

/-- Where the record of a descriptor goes: nowhere when the address is misaligned or cannot be written. -/
def State.recordAt (s : State) (x : Desc) : SupAt :=
  if x.completion % 32 != 0 || 2 ^ 57 ≤ x.completion then .bad else s.supAt x.die x.tenant x.completion 32 .write

/-- The dependants' tokens of an ended launch reach their die's task-token queue (R338). -/
def State.sendDependants (s : State) (x : Desc) (st : LStatus) : State :=
  let tok (id slot : Nat) : TaskTok := { id, slot, val := BitVec.ofNat 32 st.code, err := st.isError }
  let ts := (if x.depAValid then [tok x.depA x.depASlot] else []) ++ (if x.depBValid then [tok x.depB x.depBSlot] else [])
  s.setDie x.die { s.die x.die with taskq := (s.die x.die).taskq ++ ts }

/-- A launch ends: its record is written as one unit, its timeline takes its number, and its dependants'
tokens leave (R245, R338, R407). -/
def State.endWith (s : State) (x : Desc) (seq no : Nat) (pa : Option Nat) (e : Ending) : State :=
  let s := match pa with
    | some a => s.storeUnit a (completionBytes x seq (s.die x.die).clk e)
    | none => s
  let s := if x.timelineOk then s.tlDone x.timeline no else s
  (s.sendDependants x e.status).forgetFails x.die

/-- The next dispatch sequence number. (log 24, DEDUCED) -/
def State.nextSeq (s : State) : State × Nat := ({ s with seq := s.seq + 1 }, s.seq)

/-- A descriptor takes its number on its timeline (R337). -/
def State.takeNumber (s : State) (x : Desc) : State × Nat := if x.timelineOk then s.tlTake x.timeline else (s, 0)

/-- A descriptor ends before anything of it runs: `pop` takes it from where it waits (R338, R339). -/
def State.endEarly (s : State) (x : Desc) (pop : State → State) (e : Ending) : State :=
  let finish (pa : Option Nat) : State :=
    let (s, seq) := (pop s).nextSeq
    let (s, no) := s.takeNumber x
    s.endWith x seq no pa e
  match s.recordAt x with
  | .wait s => s
  | .bad => finish none
  | .ok pa => finish (some pa)

/-! ## Steps 4 to 7 of R339, and dispatch -/

/-- The gangs of a launch by polder: key, allowed dies, shape (R337, R345, R346). (log 26, DEDUCED) -/
def partsOfLaunch (im : Image) (x : Desc) : List (Nat × Nat × Nat × Nat) :=
  if im.pipe then im.polders.map (fun p => (p.id, 2 ^ p.die, p.w, p.h)) else [(0, x.dieMask, x.w, x.h)]

/-- A check of step 7 fails. -/
def State.stepSevenBad (s : State) (im : Image) (x : Desc) : Bool :=
  let parts := partsOfLaunch im x
  let mask (p : Nat × Nat × Nat × Nat) : Nat := p.2.1
  (!im.pipe && (!inRange x.w 1 4 || !inRange x.h 1 4 || im.maxW < x.w || im.maxH < x.h || x.dieMask = 0))
    || x.n = 0 || im.maxN < x.n || x.n ≤ (im.roles.dropLast.foldl (fun n r => n + r.size) 0)
    || parts.any (fun p => im.streams.any (fun d => d.kind = 1 && (p.2.2.1 ≤ d.dx.natAbs || p.2.2.2 ≤ d.dy.natAbs)))
    || (List.range 8).any (fun d => parts.any (fun p => flag (mask p) d) && s.reg (dsReg d 0x450) = 0)

/-- The argument slot values that a launch's gangs start with (R179). Of several entries of one slot with different
offsets or sizes the last gives the value. (log 72, DESIGN CHOICE) -/
def argValues (im : Image) (block : List Byte) : Map W64 :=
  im.args.foldl (fun m a => mset m a.slot (tokNat (fieldAt block a.off a.size)) 0) []

/-- Free places of 64 KiB for a culvert's front among the top 4 MiB of a die's scratchpad (R319). (log 43, DESIGN CHOICE) -/
def State.frontPlaces (s : State) (d : Nat) : List Nat :=
  ((List.range 64).map (fun i => dieScratchBase d + 28 * 2 ^ 20 + i * 65536)).filter
    (fun a => s.culverts.all (fun e => e.2.front != some a))

/-- The culverts of a pipeline launch are placed in the memory of their consumers' dies, with their fronts (R319). -/
def State.placeCulverts (s : State) (im : Image) (seq : Nat) : List CulvertDecl → Option State
  | [] => some s
  | c :: rest =>
    let d := ((im.polders.find? (·.id = c.consumer)).map (·.die)).getD 0
    match s.takeMemory d (c.cap * c.bytes) 128 with
    | none => none
    | some (s, base) =>
      let (s, front) := match s.pick (s.frontPlaces d) with
        | some (s, a) => (s, some a)
        | none => (s, none)
      let v : Culvert := { base, entry := c.bytes, cap := c.cap, producer := c.producer, consumer := c.consumer, front }
      State.placeCulverts { s with culverts := mput s.culverts (culvertKey seq c.id) v } im seq rest

/-- The DATA regions of an image are placed in memory, and their slots take the addresses (R89). No page is mapped for
them. (log 91, DESIGN CHOICE) -/
def State.placeDatas (s : State) (d : Nat) (args : Map W64) : List DataDecl → Option (State × Map W64)
  | [] => some (s, args)
  | r :: rest =>
    match s.takeMemory d (roundUp (max r.bytes.length 1) 128) (max 128 (2 ^ r.align)) with
    | none => none
    | some (s, base) => State.placeDatas (s.writeHome base r.bytes) d (mset args r.slot (tokNat base) 0) rest

/-- Die of the DATA regions: the lowest that the launch's gangs may run on. -/
def dataDie (im : Image) (x : Desc) : Nat :=
  ((List.range 8).find? (fun d => (partsOfLaunch im x).any (fun p => flag p.2.1 d))).getD 0

/-- A die that a launch may run on is held: its dispatch waits (R414). (log 84, DESIGN CHOICE) -/
def State.launchHeld (s : State) (im : Image) (x : Desc) : Bool :=
  (List.range 8).any (fun d => s.heldDie d && (partsOfLaunch im x).any (fun p => flag p.2.1 d))

/-- A launch is dispatched: it takes its sequence number and its number on its timeline (R337). (log 24, DEDUCED) -/
def State.dispatch (s : State) (x : Desc) (q img : Nat) (im : Image) (args : Map W64) (pop : State → State) : State :=
  let (s1, seq) := (pop s).nextSeq
  match s1.placeCulverts im seq im.culverts with
  | none => s
  | some s2 => match s2.placeDatas (dataDie im x) args im.datas with
    | none => s
    | some (s3, args) =>
      let (s4, tlNo) := s3.takeNumber x
      let prio := min x.prio (bitsOf (s.reg (lqReg q 8)) 12 10)
      let s5 := s4.setLaunch seq { desc := x, queue := q, img, tlNo, prio, args }
      ({ s5 with dispatched := s5.dispatched ++ [seq] } : State).forgetFails x.die

/-- Step 7, and dispatch, which waits while a die of the launch is held (R414). -/
def State.stepSeven (s : State) (x : Desc) (q : Nat) (pop : State → State) (img : Nat) (im : Image) : State :=
  let fail : State := s.endEarly x pop { status := .range, extra := 7 }
  if s.stepSevenBad im x || 2 ^ 57 ≤ x.argBlock then fail
  else match s.supRead x.die x.tenant x.argBlock im.argBytes with
    | .wait s => s
    | .bad => fail
    | .ok bs => if s.launchHeld im x then s else s.dispatch x q img im (argValues im bs) pop

/-- Step 6: acceptance of the image, once per digest: a launch whose header carries the digest of an accepted image
runs the bytes retained (R90, R92). (log 25, DEDUCED) -/
def State.stepSix (s : State) (x : Desc) (q : Nat) (pop : State → State) : State :=
  let fail (r : Rej) : State := s.endEarly x pop { status := .reject, rej := some r }
  let unread : State := s.endEarly x pop { status := .range, extra := 6 }
  match s.supRead x.die x.tenant x.image 256 with
  | .wait s => s
  | .bad => unread
  | .ok h =>
    match headerReason s.keys h false with
    | some r => fail { reason := r }
    | none =>
      let goOn (s : State) (n : Nat) : State :=
        if (s.image n).priv then s.endEarly x pop { status := .reject, rej := some { reason := .privimg } }
        else s.stepSeven x q pop n (s.image n)
      match s.accepted (headerOf h) with
      | some n => goOn s n
      | none => match s.supRead x.die x.tenant x.image (headerOf h).len with
        | .wait s => s
        | .bad => unread
        | .ok bs => match acceptImage s.keys false bs with
          | .error r => fail r
          | .ok im => goOn (s.keepImage im).1 (s.keepImage im).2

/-- Steps 4 to 7. -/
def State.stepFour (s : State) (x : Desc) (q : Nat) (pop : State → State) : State :=
  if x.gangs = 0 then s.endEarly x pop { status := .empty }
  else if 2 ^ 32 ≤ x.gangs then s.endEarly x pop { status := .range, extra := 5 }
  else s.stepSix x q pop

/-! ## Task matching store (R340 to R342) -/

/-- The store's index of a task id. -/
def State.taskAt (s : State) (id : Nat) : Option Nat := (s.tasks.find? (fun e => e.2.1 = id)).map (·.1)

/-- The lowest free entry of the 4,096. -/
def State.freeTask (s : State) : Option Nat := (List.range 4096).find? (fun i => (mget s.tasks i).isNone)

def State.setTask (s : State) (i id : Nat) (t : Task) : State := { s with tasks := mput s.tasks i (id, t) }

/-- An entry fires: its descriptor is present, and every expected slot is filled or the error flag is set. -/
def Task.fires (t : Task) : Bool :=
  t.desc.isSome && (t.error || (List.range 8).all (fun j => !flag t.expected j || flag t.filled j))

/-- A token in its entry (R341): whether it was dropped, and the entry. -/
def Task.join (t : Task) (k : TaskTok) : Bool × Task :=
  if k.release then
    (false, { t with filled := 255, values := (List.range 8).map (fun j => if flag t.filled j then t.values.getD j 0 else 0) })
  else match k.desc with
    | some x => (false, { t with desc := some x, expected := 2 ^ x.1.awaited - 1 })
    | none =>
      if 8 ≤ k.slot then (false, t)
      else if flag t.filled k.slot then (true, t)
      else (false, { t with filled := t.filled + 2 ^ k.slot, error := t.error || k.err, values := t.values.set k.slot k.val })

/-- The completion time of a write joins those that a task entry waits for (R342). -/
def State.noteTask (s : State) (i pa : Nat) : State :=
  match mget s.tasks i with
  | some (id, t) =>
    let s := s.touchL2 (lineOf pa)
    s.setTask i id { t with after := laterTime t.after (homeDie (lineOf pa)) (s.completion (lineOf pa)) }
  | none => s

/-- The token values go to the argument block, and their completion times stand with the task entry (R342). -/
def State.writeValues (s : State) (i : Nat) (x : Desc) (t : Task) : List Nat → SupRead × State
  | [] => (.ok [], s)
  | j :: rest =>
    match s.supAt x.die x.tenant (x.argBlock + 4 * j) 4 .write with
    | .bad => (.bad, s)
    | .wait s' => (.wait s', s)
    | .ok pa => match State.writeValues s i x t rest with
      | (.ok _, s) => (.ok [], (s.storeUnit pa (toLE (t.values.getD j 0).toNat 4)).noteTask i pa)
      | r => r

/-- The supervisor of a die runs (R23, R418): as bit 0 of DS_SUPV says, a bit that software has written too (R147).
(log 92, DESIGN CHOICE) -/
def State.supUp (s : State) (d : Nat) : Bool := flag (s.reg (dsReg d 0x18)) 0

/-- A fired entry is handled; it is freed when its launch is dispatched or ends. After TVAL writes the launch goes on
once their completion times have passed (R342). -/
def State.fireTask (s : State) (i : Nat) : State :=
  match mget s.tasks i with
  | none => s
  | some (id, t) =>
    match t.desc with
    | none => s
    | some (x, q) =>
      let pop (s : State) : State := { s with tasks := mdel s.tasks i }
      if !t.fires || !s.supUp x.die then s
      else if t.error then s.endEarly x pop { status := .depfail, extra := id }
      else if x.tval then
        match s.writeValues i x t ((List.range 8).filter (flag t.expected)) with
        | (.wait s', _) => s'
        | (.bad, s) => s.endEarly x pop { status := .range, extra := 7 }
        | (.ok _, s) =>
          let x := { x with tval := false }
          let t := { (((mget s.tasks i).map (·.2)).getD t) with desc := some (x, q) }
          let s := s.setTask i id t
          if s.timesSeen x.die t.after then s.stepFour x q pop else s
      else if s.timesSeen x.die t.after then s.stepFour x q pop
      else s

/-- A token joins or creates its entry and may fire it; none where no entry is free, or where a second
descriptor of a task must wait for the first. (log 82, DESIGN CHOICE) -/
def State.tokenIn (s : State) (k : TaskTok) : Option State :=
  match s.taskAt k.id with
  | some i =>
    let t := ((mget s.tasks i).map (·.2)).getD {}
    if t.desc.isSome && k.desc.isSome then none
    else
      let r := t.join k
      let s := if r.1 then s.countDie 0 0x10A none else s
      some ((s.setTask i k.id r.2).fireTask i)
  | none => match s.freeTask with
    | some i => some ((s.setTask i k.id (({} : Task).join k).2).fireTask i)
    | none => none

/-- Tokens of the host whose earlier writes have their completion times passed reach die 0's queue, in their order
(R343). -/
def State.hostTokens (s : State) : State :=
  let r := s.hostToks.span (fun e => s.timesSeen 0 e.2)
  if r.1.isEmpty then s
  else { s.setDie 0 { s.die 0 with taskq := (s.die 0).taskq ++ r.1.map (·.1) } with hostToks := r.2 }

/-- The oldest tokens of a queue that are second descriptors of their tasks, and the tokens behind them: those wait for
the first descriptor and let the others pass. (log 82, DESIGN CHOICE) -/
def State.taskHead (s : State) (ks : List TaskTok) : List TaskTok × List TaskTok :=
  ks.span (fun k => k.desc.isSome && (((s.taskAt k.id).bind (mget s.tasks)).bind (·.2.desc)).isSome)

/-- TASK_TOKEN: fired entries that still wait go on, and the oldest token of a die's queue reaches the store; it
waits only where no entry is free for it, and a second descriptor of a task lets the others pass (R341). -/
def execTaskToken (die : Nat) (s : State) : Host.Outcome State Fault Refusal :=
  let s := s.tasks.foldl (fun (st : State) e => st.fireTask e.1) s.hostTokens
  let q := s.taskHead (s.die die).taskq
  go (match q.2 with
    | [] => s
    | k :: rest =>
      match (s.setDie die { s.die die with taskq := q.1 ++ rest }).tokenIn k with
      | some s => s.wakeDie die (· == .reserve resTask)
      | none => s)

/-- HOST_TASK_TOKEN: DV_TTOK_ID sends the token built from both registers, behind the host's earlier writes
(R343). -/
def execHostTaskToken (task : Nat) (s : State) : Host.Outcome State Fault Refusal :=
  let v := s.reg 0x3000
  let k : TaskTok := { id := task % 2 ^ 32, slot := v % 8, val := BitVec.ofNat 32 (v / 2 ^ 32), err := flag v 8 }
  go ({ s with hostToks := s.hostToks ++ [(k, s.hostTimes)] } : State).hostTokens

/-- A cancel: the entry is freed, and the launch of its descriptor ends DEPFAIL (R412). -/
def State.cancelTask (s : State) (i : Nat) : State :=
  let pop (s : State) : State := { s with tasks := mdel s.tasks i }
  match (mget s.tasks i).bind (·.2.desc) with
  | some (x, _) => s.endEarly x pop { status := .depfail, extra := ((mget s.tasks i).map (·.1)).getD 0 }
  | none => pop s

/-- TASKREL (R412). -/
def execTaskrel (p : Pred) (t1 t0 : Target) (s : State) : Host.Outcome State Fault Refusal :=
  go (s.privAttempt [.L] p.code fun l _ st =>
    let id := l.toNat % 2 ^ 32
    let k : TaskTok := { id, slot := 0, val := 0, err := false, release := true }
    let used (s : State) (v : W64) : State := (s.taken [.L] p.code).result t0 t1 v
    if 2 ^ 33 ≤ l.toNat then st.raise fcAccess
    else match st.taskAt id with
      | some i =>
        if flag l.toNat 32 then
          let st' := st.cancelTask i
          if (mget st'.tasks i).isSome then st' else used st' 1
        else used ((st.tokenIn k).getD st) 1
      | none =>
        if flag l.toNat 32 then used st 0
        else match st.tokenIn k with
          | some s => used s 0
          | none =>
            let d := st.cur.agent.die
            used (st.setDie d { st.die d with taskq := (st.die d).taskq ++ [k] }) 0)

/-! ## Pushes and LAUNCH_DISPATCH (R323, R339) -/

/-- A bit of a queue's status set. -/
def State.lqFlag (s : State) (q k : Nat) : State :=
  let v := s.reg (lqReg q 0x18)
  if flag v k then s else s.setReg (lqReg q 0x18) (v + 2 ^ k)

/-- The oldest host push goes on: it is dropped, it waits for its translation, or its descriptor enters the
ring (R323, R438). -/
def State.onePush (s : State) : Push → State × Bool
  | { q, va, after } =>
    let cfg := s.reg (lqReg q 8)
    let pop (s : State) : State := { s with pushes := s.pushes.drop 1 }
    if !flag cfg 31 || !flag (s.reg 0x010) 0 then ((pop s).lqFlag q 17, true)
    else if s.lqDepth q ≤ s.lqHeld q + mgetD s.lqRsv q 0 then ((pop s).lqFlag q 16, true)
    else match s.supRead 0 (bitsOf cfg 9 4) va 64 with
      | .wait s => (s, false)
      | .bad => (((pop s).forgetFails 0).lqFlag q 19, true)
      | .ok bs =>
        if !s.lineOpen 0 (lineOf (s.lqTail q)) then (s.recallOwner (lineOf (s.lqTail q)), false)
        else ((pop s).lqAppend q bs after, true)

/-- Host pushes in their order, until one waits. -/
def State.doPushes : Nat → State → State
  | 0, s => s
  | n + 1, s =>
    match s.pushes with
    | [] => s
    | x :: _ =>
      let r := s.onePush x
      if r.2 then State.doPushes n r.1 else r.1

/-- LQ_PUSH: DV_LQ_PUSH reads a descriptor and appends it to a launch queue (R323). -/
def execLqPush (q : Nat) (va : Nat) (s : State) : Host.Outcome State Fault Refusal :=
  let s : State := if q < 64 then { s with pushes := s.pushes ++ [{ q, va := va % 2 ^ 57 / 64 * 64, after := s.hostTimes }] } else s
  go (State.doPushes s.pushes.length s)

/-- The descriptor at a queue's head leaves the queue. -/
def State.lqPop (s : State) (q : Nat) : State :=
  let s : State := { s with lqEntries := mdel s.lqEntries (lqKey q (s.reg (lqReg q 0x20))) }
  let s := s.setReg (lqReg q 0x20) ((s.reg (lqReg q 0x20) + 1) % 2 ^ 32)
  (s.setReg (lqReg q 0x18) (s.reg (lqReg q 0x18) - 1)).wakeAll (· == .reserve (resQueue q))

/-- The image that a descriptor names is a pipeline image, as far as its header can be read (R383). -/
def State.peekPipe (s : State) (x : Desc) : Option State × Bool :=
  match s.supRead x.die x.tenant x.image 16 with
  | .wait s => (some s, false)
  | .bad => (none, false)
  | .ok h => (none, flag (fieldAt h 6 2) 1)

/-- The checks of R339 in their order. -/
def State.takeDesc (s : State) (q : Nat) (x : Desc) : State :=
  let pop (s : State) : State := s.lqPop q
  let range1 : State := s.endEarly x pop { status := .range, extra := 1 }
  let onward : State :=
    if x.tenant != bitsOf (s.reg (lqReg q 8)) 9 4 then s.endEarly x pop { status := .tenant }
    else if x.task then
      let k : TaskTok := { id := x.taskId, slot := 0, val := 0, err := false, desc := some (x, q) }
      (pop s).setDie x.die { (pop s).die x.die with taskq := ((pop s).die x.die).taskq ++ [k] }
    else s.stepFour x q pop
  if x.stepOneBad then range1
  else if flag x.dieMask x.die then onward
  else match s.peekPipe x with
    | (some s, _) => s
    | (none, pipe) => if pipe then onward else range1

/-- Address of the ring entry at a queue's head. -/
def State.lqHead (s : State) (q : Nat) : Nat := s.reg (lqReg q 0) + 64 * (s.reg (lqReg q 0x20) % s.lqDepth q)

/-- The descriptor at a queue's head, as its ring holds it. -/
def State.headDesc (s : State) (q : Nat) : Desc := descOf (readBytes s.mem (s.lqHead q) 64)

/-- What the device keeps beside the entry at a queue's head. -/
def State.headEntry (s : State) (q : Nat) : LqEntry := mgetD s.lqEntries (lqKey q (s.reg (lqReg q 0x20))) {}

/-- A queue's head can be taken: its line has no owner, its supervisor runs and reaches it, and the host writes in front
of it have their completion times passed for that supervisor (R13, R23, R243, R418). -/
def State.headReady (s : State) (q : Nat) : Bool :=
  s.lqHeld q != 0 && s.homeFree (lineOf (s.lqHead q)) && s.supUp (s.headDesc q).die && s.timesSeen (s.headDesc q).die (s.headEntry q).after
    && s.linkedBoth (s.headDesc q).die (homeDie (lineOf (s.lqHead q)))

/-- The head of queue `p` goes before that of queue `q` with the same supervisor: by the queues' priorities, and
first-come within one (R60). -/
def State.headBefore (s : State) (p q : Nat) : Bool :=
  let prio (i : Nat) : Nat := bitsOf (s.reg (lqReg i 8)) 12 10
  s.headReady p && (s.headDesc p).die = (s.headDesc q).die
    && (prio q < prio p || (prio p = prio q && (s.headEntry p).no < (s.headEntry q).no))

/-- LAUNCH_DISPATCH: a die supervisor takes the descriptor at a queue's head and checks it, unless another queue's
head goes first; a halted one takes none (R23, R60, R243, R323, R339, R418). -/
def execLaunchDispatch (q : Nat) (s : State) : Host.Outcome State Fault Refusal :=
  let s := State.doPushes s.pushes.length s
  go (if 64 ≤ q || s.lqHeld q = 0 then s
    else if !s.homeFree (lineOf (s.lqHead q)) then s.recallOwner (lineOf (s.lqHead q))
    else if !s.headReady q || (List.range 64).any (fun p => s.headBefore p q) then s
    else s.takeDesc q (s.headDesc q))

/-! ## LAUNCH_END (R58, R59, R243, R407) -/

/-- Every gang of the launch has retired. -/
def allRetired (im : Image) (l : Launch) : Bool :=
  (partsOfLaunch im l.desc).all (fun p => l.desc.gangs ≤ mgetD l.retiredBy p.1 0)

/-- The end of a producer polder follows its last entry into each of its culverts (R58). -/
def State.endCulverts (s : State) (seq : Nat) (im : Image) : State :=
  let l := s.launch seq
  im.culverts.foldl (fun (st : State) c =>
    let k := culvertKey seq c.id
    let v := mgetD st.culverts k {}
    if !v.ended && l.desc.gangs ≤ mgetD l.retiredBy c.producer 0 && v.rsv = 0 then
      { st with culverts := mput st.culverts k { v with ended := true } }
    else st) s

/-- Every inbound culvert has delivered its end-of-stream marker. -/
def State.culvertsDone (s : State) (seq : Nat) (im : Image) : Bool :=
  im.culverts.all (fun c => let v := mgetD s.culverts (culvertKey seq c.id) {}; v.ended && v.read = v.written)

/-- Every sink of a launch holds end-of-stream: no resident instance of it has a token of an ended gang still to pass
on (R59). -/
def State.streamsEnded (s : State) (q : Nat) : Bool :=
  s.cores.all (fun k => k.2.insts.all (fun e => e.2.seq != q || e.2.eosDue.isEmpty))

/-- A store of a launch is still on its way: in a coalescer, to its home, or with its completion time (R59, R243). -/
def State.storesOut (s : State) (q : Nat) : Bool :=
  s.cores.any (fun k => k.2.coal.any (fun t => t.2.any (fun e => e.stores.any (·.seq = some q))))
    || s.msgs.any (fun e => match e.2 with
      | .write (.stores refs _) _ _ _ => refs.any (·.seq = some q)
      | .done refs _ _ _ _ => refs.any (·.seq = some q)
      | _ => false)

/-- The release condition of .sys holds for the launch's writes on every die (R241, R243). -/
def State.launchReleased (s : State) (q : Nat) (l : Launch) : Bool :=
  !s.storesOut q &&
  (List.range 8).all (fun d =>
    s.passed d (mgetD l.horizon d 0) (l.far.filterMap (fun e => if e.1 / 8 = d then some (e.1 % 8, e.2) else none)))

/-- Visibility probes for the ports that a launch's threads have written (R240, R243). -/
def State.probeLaunch (s : State) (seq d : Nat) (ports : List Nat) : State :=
  ports.foldl (fun (st : State) p =>
    if st.reqs.any (fun e => e.2.kind = .probe p && e.2.agent = .sup d && e.2.lsid = seq) then st
    else st.addReq { agent := .sup d, idx := supIdx, lsid := seq, kind := .probe p, start := (st.die d).clk }) s

/-- What a launch holds in device memory returns. -/
def State.freeLaunch (s : State) (seq : Nat) (im : Image) : State :=
  let l := s.launch seq
  let s := im.culverts.foldl (fun (st : State) c =>
    let k := culvertKey seq c.id
    let d := ((im.polders.find? (·.id = c.consumer)).map (·.die)).getD 0
    let st := st.freeMemory d (mgetD st.culverts k {}).base
    { st with culverts := mdel st.culverts k }) s
  let s := im.datas.foldl (fun (st : State) r => st.freeMemory (dataDie im l.desc) (mgetD l.args r.slot 0).toNat) s
  { s with launches := mdel s.launches seq, dispatched := s.dispatched.filter (· != seq) }

/-- The fault record behind a completion record: the entries that can be written (R407). -/
def State.writeFaults (s : State) (x : Desc) (faults : List Rec) : State × Option State :=
  (faults.take 16).zipIdx.foldl (fun (r : State × Option State) f =>
    match r.2 with
    | some _ => r
    | none => match r.1.supAt x.die x.tenant (x.completion + 32 + 32 * f.2) 32 .write with
      | .ok pa => (r.1.storeUnit pa (recBytes f.1), none)
      | .bad => r
      | .wait s => (r.1, some s)) (s, none)

/-- The places of the fault record are known, or one has to wait. -/
def State.faultsWait (s : State) (x : Desc) (n : Nat) : Option State :=
  (List.range (min n 16)).foldl (fun (r : Option State) i =>
    match r with
    | some s => some s
    | none => match s.supAt x.die x.tenant (x.completion + 32 + 32 * i) 32 .write with
      | .wait s => some s
      | _ => none) none

/-- LAUNCH_END: gangs whose threads are all Exited retire; a launch all of whose gangs have retired, whose
counts are zero and whose writes are released ends (R56, R59, R243). -/
def execLaunchEnd (seq : Nat) (s : State) : Host.Outcome State Fault Refusal :=
  let s := s.gangs.foldl (fun (st : State) g => if g.2.seq = seq then st.tryRetire g.1 else st) s
  go (match mget s.launches seq with
    | none => s
    | some l =>
      let im := s.image l.img
      let x := l.desc
      let s := s.endCulverts seq im
      if !allRetired im l || !s.streamsEnded seq || !l.nrOut.all (·.2 = 0) || !s.culvertsDone seq im || !s.launchReleased seq l then s
      else if !l.remote.isEmpty then s.probeLaunch seq x.die l.remote
      else
        let e : Ending :=
          { status := if l.faultCount = 0 then .ok else .deferred, gangs := l.retired, faults := l.faultCount }
        let finish (s : State) (pa : Option Nat) : State := (s.freeLaunch seq im).endWith x seq l.tlNo pa e
        match s.recordAt x with
        | .wait s => s
        | .bad => finish s none
        | .ok pa => match s.faultsWait x l.faultCount with
          | some s => s
          | none => finish (s.writeFaults x l.faults).1 (some pa))

end Sys2Proof.Machine
end

