-- ==== Sys2Proof/Machine/Freeze.lean ====
section
/-! DEFINITION. Holds, squash and drain pre-emption, killing, and commands to parked threads (R133, R295, R347,
R402 to R404, R406, R414 to R417, R419). -/

namespace Sys2Proof.Machine

/-! ## Gangs of a core, and hold freezes (R414) -/

/-- A hold covers a member core of a gang. -/
def State.gangHeld (s : State) (g : Nat) : Bool := (s.gang g).members.any (fun m => s.heldCore m.core)

/-- Coalescer entries that carry a store or a window line of a gang are sent, its dirty window lines first (R219,
R221). -/
def State.sendGang (s : State) (g : Nat) : State :=
  (s.gang g).members.foldl (fun (st : State) m =>
    (st.writeBackWindows m.core m.base).sendEntries m.core (fun e =>
      e.wins.any (·.wg = m.base) || e.stores.any (fun r => match r.agent.slot with
        | some t => m.base ≤ t && t < m.base + (st.wg m.core m.base).n
        | none => false))) s

/-- A squash or a drain of a gang begins: it is frozen, and its coalescer entries leave (R221, R415, R416). -/
def State.freezeGang (s : State) (g : Nat) (f : FrozenKind) : State :=
  (s.setGang g { s.gang g with frozen := f, drainAt := none }).sendGang g

/-- The pre-emption that a core's KC_FREEZE asks for starts on every gang that no hold covers (R415). -/
def State.startFreeze (s : State) (c : Nat) : State :=
  let v := s.reg (kcFreeze c)
  if !flag v 0 || flag v 3 then s
  else ((s.gangsOn c).foldl (fun (st : State) g =>
    if (st.gang g).frozen = .no && !st.gangHeld g then st.freezeGang g (if flag v 1 then .draining else .squashing)
    else st) s).settleFreeze c

/-- Every core's waiting request is tried again: a hold has ended. -/
def State.startFreezes (s : State) : State := (List.range 128).foldl (fun (st : State) c => st.startFreeze c) s

/-- A hold begins: dirty window lines of the core go into its coalescers, and these send what they hold (R219,
R221). -/
def State.sendHeld (s : State) : State :=
  s.cores.foldl (fun (st : State) e =>
    if st.heldCore e.1 then
      (e.2.wgs.foldl (fun (st : State) w => st.writeBackWindows e.1 w.1) st).sendEntries e.1 (fun _ => true)
    else st) s

/-- The hold bits of the dies take a value (R414). -/
def State.holdDies (s : State) (v : Nat) : State := ((s.setReg 0x020 (v % 256)).sendHeld).startFreezes

/-- The hold bits of a die's cores take a value. -/
def State.holdCores (s : State) (d v : Nat) : State := ((s.setReg (dsReg d 0x010) (v % 2 ^ 16)).sendHeld).startFreezes

/-- DV_FREEZE (R414). -/
def execDvFreeze (v : Nat) (s : State) : Host.Outcome State Fault Refusal := go (s.holdDies v)

/-- DS_FREEZE (R414). -/
def execDsFreeze (die v : Nat) (s : State) : Host.Outcome State Fault Refusal := go (s.holdCores die v)

/-- A bit of a number set or cleared. -/
def withBit (v k : Nat) (b : Bool) : Nat := if flag v k = b then v else if b then v + 2 ^ k else v - 2 ^ k

/-- FREEZE (R417). -/
def execFreeze (p : Pred) (s : State) : Host.Outcome State Fault Refusal :=
  go (s.privFire [.L] p.code fun l _ st =>
    let v := l.toNat
    let on := !flag v 8
    if 2 ^ 9 ≤ v || (flag v 7 && 8 ≤ v % 128) then st.raise fcAccess
    else if flag v 7 then st.holdDies (withBit (st.reg 0x020) (v % 8) on)
    else
      let d := dieOf (v % 128)
      st.holdCores d (withBit (st.reg (dsReg d 0x010)) (v % 16) on))

/-! ## Squash (R415) -/

/-- A write of 1 to KC_FREEZE [0], with its mode. A core whose drained gangs wait for KC_GANG_CTL has nothing left to
pre-empt. (log 13, DESIGN CHOICE) -/
def State.requestFreeze (s : State) (c mode : Nat) : State :=
  if flag (s.reg (kcFreeze c)) 3 && !(s.gangsOn c).isEmpty then s
  else (s.setReg (kcFreeze c) (1 + 2 * mode)).startFreeze c

/-- FREEZE_SQUASH (R415). -/
def execFreezeSquash (core : Nat) (s : State) : Host.Outcome State Fault Refusal := go (s.requestFreeze core 0)

/-- FREEZE_DRAIN (R416). -/
def execFreezeDrain (core : Nat) (s : State) : Host.Outcome State Fault Refusal := go (s.requestFreeze core 1)

/-- Threads of a gang: core and slot. -/
def State.gangThreads (s : State) (g : Nat) : List (Nat × Nat) :=
  (s.gang g).members.flatMap (fun m => (List.range (s.wg m.core m.base).n).map (fun i => (m.core, m.base + i)))

/-- Engine contexts that a gang's threads can have issued to. -/
def State.gangContexts (s : State) (g : Nat) : List Nat :=
  let d := (s.gang g).die
  [ctxCopy d 0, ctxCopy d 1, ctxCopy d 2, ctxCopy d 3, ctxColl d, ctxSpill d]
    ++ (s.gang g).members.flatMap (fun m => [ctxLoad m.core, ctxWriter m.core])

/-- Every command of a gang in a context has completed or stopped (R295, R315). -/
def State.commandsStill (s : State) (g ctx : Nat) : Bool :=
  match ((s.context ctx).map (·.queue)).getD [] with
  | [] => true
  | k :: rest => if k.gang = g && k.agent.slot.isSome then k.stopped && k.pending = 0
      else !rest.any (fun k => k.gang = g && k.agent.slot.isSome)

/-- A message carries a write of a gang that has not performed. -/
def State.writesOut (s : State) (g : Nat) : Bool :=
  let mine (a : Agent) : Bool := match a.slot with | some t => s.gangOf a.core t = g | none => false
  s.msgs.any (fun e => match e.2 with
    | .write (.stores refs wins) c _ _ => refs.any (fun r => mine r.agent) || wins.any (fun x => (s.wg c x.wg).gang = g)
    | .write (.cluster c b _) _ _ _ => (s.wg c b).gang = g
    | .write (.spoiled wins) c _ _ => wins.any (fun x => (s.wg c x.wg).gang = g)
    | .done refs wins c _ _ => refs.any (fun r => mine r.agent) || wins.any (fun x => (s.wg c x.wg).gang = g)
    | _ => false)
  || (s.gang g).members.any (fun m => (s.core m.core).coal.any (fun t => t.2.any (fun e =>
    e.stores.any (fun r => mine r.agent) || e.wins.any (fun x => (s.wg m.core x.wg).gang = g))))

/-- Step 1 of a squash is over: no pass of the gang is in phase two but parked ones, and its matrix and engine
commands have completed or stopped. (log 14, DEDUCED) -/
def State.squashQuiet (s : State) (g : Nat) : Bool :=
  (s.gangThreads g).all (fun t =>
      let x := s.thread t.1 t.2
      x.st = .parked || (match x.pass with | some p => !p.two | none => true))
    && (s.gangContexts g).all (s.commandsStill g)

/-- Step 2 is over: release horizons have passed, windows are clean, probes are answered and every write has
performed. -/
def State.squashReleased (s : State) (g : Nat) : Bool :=
  (s.gangThreads g).all (fun t =>
      let x := s.thread t.1 t.2
      s.passed (dieOf t.1) x.horizon x.far && x.remote.isEmpty)
    && (s.gang g).members.all (fun m => s.windowsClean m.core m.base)
    && !s.writesOut g

/-- Step 2 goes on: write-backs, coalescer entries and probes are sent. -/
def State.squashRelease (s : State) (g : Nat) : State :=
  let s := s.sendGang g
  (s.gangThreads g).foldl (fun (st : State) t =>
    let a := st.threadAgent t.1 t.2
    (st.thread t.1 t.2).remote.foldl (fun (st : State) p =>
      if st.reqs.any (fun e => e.2.agent = a && e.2.kind = .probe p) then st
      else st.addReq { agent := a, idx := supIdx, lsid := 255, kind := .probe p, start := (st.die a.die).clk }) st) s

/-- Step 3: a pass that is not in phase two is discarded; its thread enters Waiting, or is Rare, at its block (R33,
R328). -/
def State.discardPass (s : State) (c t : Nat) : State :=
  let x := s.thread c t
  match x.st, x.pass with
  | .parked, _ => s
  | _, none => s
  | _, some p =>
    let s := (s.dropPass c t).endRare c t
    let s := s.setThread c t { s.thread c t with st := if p.inst.isSome then .waiting else .rare, age := 0 }
    if p.inst.isSome then s.enterWaiting c t else s

/-- A configuration or an admission under way for a workgroup ends; a decision that waited for the configuration
counts (R170, R347). -/
def State.dropRounds (s : State) (c b : Nat) : State :=
  let k := s.core c
  let gone (rk : Nat) : Bool := (mget k.rounds rk).any (fun r => r.wg = b / 128)
  let asked := match k.cfgReq with | some rk => gone rk | none => false
  let s := s.setCore c { k with
    cfgReq := if asked then none else k.cfgReq
    cfgWait := if asked then {} else k.cfgWait
    entries := k.entries.map (fun e => match e.2.snap with
      | some rk => if gone rk then (e.1, { e.2 with snap := none }) else e
      | none => e)
    insts := k.insts.map (fun e => match e.2.admitting with
      | some rk => if gone rk then (e.1, { e.2 with admitting := none }) else e
      | none => e)
    rounds := k.rounds.filter (fun r => !gone r.1) }
  if asked then s.setYields c k.cfgWait.yields else s

/-- Steps 3 of every thread of a gang. -/
def State.discardGang (s : State) (g : Nat) : State :=
  let s := (s.gangThreads g).foldl (fun (st : State) t => st.discardPass t.1 t.2) s
  (s.gang g).members.foldl (fun (st : State) m => st.dropRounds m.core m.base) s

/-- A thread as the context keeps it: one with branch pending, or one that waits for a scheduler entry, is Waiting at
its target; the horizon and the remote-write set are empty (R241, R329). Places of a parked pass's operations are
found again after the restore. -/
def savedThread (entryWait : Bool) (x : Thread) : Thread :=
  let waits := entryWait || x.st = .commit
  let fresh (o : Op) : Op := if o.performed then o else { o with parts := [], started := false, waiting := 0 }
  { x with
    st := if waits then .waiting else x.st
    age := if waits then 0 else x.age
    yieldPending := x.yieldPending && !waits
    horizon := 0, far := [], remote := []
    pass := x.pass.map (fun p => { p with inst := none, ops := p.ops.map (fun e => (e.1, fresh e.2)), loads := [] }) }

/-- Offsets of the poisoned units of a kind in a range. -/
def State.badIn (s : State) (u : SoftUnit) (a n : Nat) : List Nat :=
  (s.poisoned.filter (fun p => p.1 = u && a ≤ p.2 && p.2 < a + n)).map (fun p => p.2 - a)

/-- A sluice as the context keeps it: the reservations of parked passes have returned (R300). -/
def savedSluice (q : Sluice) : Sluice :=
  { q with allow := min (q.allow + q.allowRsv) 0xFFFF, allowRsv := 0, pushRsv := 0,
           entries := q.entries.map (fun e => if e.delivered then e else { e with rsv := none, clause := 0 }) }

/-- What a squash saves of a member (R347, R415). Its windows keep base, head and tail. -/
def State.saveWg (s : State) (m : Member) : SavedWg :=
  let c := m.core
  let w := s.wg c m.base
  let k := s.core c
  let slots := (List.range w.n).map (fun i => (i, s.thread c (m.base + i)))
  let waits (i : Nat) : Bool := k.entryWait.contains (m.base + i)
  let keepLine (l : Nat × WinLine) : Option (Nat × WinLine) := if l.2.rsv = 0 then none else some (l.1, { rsv := l.2.rsv })
  { from_ := m
    wg := { w with sluices := w.sluices.map (fun q => (q.1, savedSluice q.2)),
                   windows := w.windows.map (fun e => (e.1, { e.2 with lines := e.2.lines.filterMap keepLine })) }
    threads := slots.map (fun e => (e.1, savedThread (waits e.1) e.2))
    scratch := cutMemory s.mem (scratchBase c + w.partBase) w.partSize
    scratchBad := s.badIn .coreScratch (scratchBase c + w.partBase) w.partSize
    recs := (k.obrecs.filter (fun e => e.2.owner = m.base / 128)).map (fun e =>
      let a := opBufBase c + e.2.first * 4096
      let n := e.2.granules * 4096
      (e.1, e.2, cutMemory s.mem a n, s.badIn .operandBuffer a n))
    tiles := (k.tiles.filter (fun e => e.2 = m.base / 128)).map (fun e =>
      let a := accBase c + e.1 * 131072
      (e.1, cutMemory s.mem a 131072, s.badIn .accumulator a 131072))
    images := slots.filterMap (fun e =>
      if (e.2.park.bind (·.partialAt)).isSome then some (e.1, readBytes s.postedMem (s.imageAddr c (m.base + e.1)) 2048)
      else none) }

/-- The watch set of a thread in its save area, in the format of the thread context (R209, R459). -/
def watchBytes (ws : List Watch) : List Byte :=
  (List.range 8).flatMap (fun i => match ws[i]? with
    | some w => toLE (w.line * 128 + (if w.valid then 1 else 0)) 8 ++ toLE w.ver 8
    | none => toLE 0 16)

/-- Watch sets go to the save areas of their private slices, empty ones as zeros (R209, R213). -/
def State.saveWatches (s : State) (g : Nat) : State :=
  (s.gangThreads g).foldl (fun (st : State) t =>
    let x := st.thread t.1 t.2
    let at_ := st.slice t.1 t.2 (256 + (st.wgOf t.1 t.2).privBytes)
    st.writeHome at_ (watchBytes x.watch)) s

/-- The stopped commands of a gang leave their contexts with it (R295, R315). -/
def State.takeCommands (s : State) (g : Nat) : State × List (Nat × Cmd) :=
  (s.gangContexts g).foldl (fun (r : State × List (Nat × Cmd)) ctx =>
    match r.1.context ctx with
    | some e =>
      let mine (k : Cmd) : Bool := k.gang = g && k.agent.slot.isSome
      (r.1.setContext ctx { e with queue := e.queue.filter (fun k => !mine k) },
        r.2 ++ (e.queue.filter mine).map (fun k => (ctx, { k with home := some (k.home.getD ctx) })))
    | none => r) (s, [])

/-- Reservations of a parked pass in units of its die are given back; the restore takes them again (R302). -/
def dieRes (r : Nat) : Bool := (100 ≤ r && r < 200) || r = 400

/-- Threads held for what a squash has given back return: places of the parked passes of its gang, and the entries of
its stopped commands (R37). -/
def State.wakeFreed (s : State) (d : Nat) (ps : List Pass) (cmds : List (Nat × Cmd)) : State :=
  let rs := (ps.flatMap (fun p => (p.rsv.filter (fun e => dieRes e.1)).map (·.1))).eraseDups
  let s := rs.foldl (fun (st : State) r => st.wakeDie d (· == .reserve r)) s
  ((cmds.map (·.1)).eraseDups).foldl (fun (st : State) ctx => st.wakeEntry ctx) s

/-- Engine and token-queue places that the parked passes of a gang hold go back, or are taken again. -/
def State.dieUnits (s : State) (d : Nat) (take : Bool) (ps : List Pass) : State :=
  ps.foldl (fun (st : State) p => (p.rsv.filter (fun e => dieRes e.1)).foldl (fun (st : State) e =>
    let step (n : Nat) : Nat := if take then n + e.2 else n - e.2
    if e.1 = 400 then st.setDie d { st.die d with taskRsv := step (st.die d).taskRsv }
    else st.setEngine d (e.1 - 100) { st.engine d (e.1 - 100) with rsv := step (st.engine d (e.1 - 100)).rsv }) st) s

/-- Passes that parked threads of a gang keep. -/
def State.parkedPasses (s : State) (g : Nat) : List Pass :=
  (s.gangThreads g).filterMap (fun t => let x := s.thread t.1 t.2; if x.st = .parked then x.pass else none)

/-- Offset of the drain area in a die's context region (R416). (log 45, DESIGN CHOICE) -/
def State.drainArea (s : State) (d : Nat) : Nat := Config.drainPage % (max 1 (s.reg (dsReg d 0x488) / 4096)) * 4096

/-- Bytes that the context of a gang needs. (log 44, DESIGN CHOICE) -/
def State.contextNeed (s : State) (g : Nat) : Nat :=
  let ms := (s.gang g).members
  let sum (f : Member → Nat) : Nat := ms.foldl (fun n m => n + f m) 0
  Config.contextBytes ms.length (sum fun m => (s.wg m.core m.base).n) (sum fun m => (s.wg m.core m.base).partSize)
    (sum fun m => ((s.core m.core).obrecs.filter (fun e => e.2.owner = m.base / 128)).foldl (fun n e => n + e.2.granules) 0)
    (sum fun m => ((s.core m.core).tiles.filter (fun e => e.2 = m.base / 128)).length)

/-- Ranges of a die's context region in use: saved contexts, and the words of drained gangs (R415, R416). -/
def State.contextTaken (s : State) (d : Nat) : List (Nat × Nat) :=
  (s.die d).saved.map (fun y => (y.at_, y.bytes))
    ++ (s.gangs.filter (fun e => e.2.die = d)).filterMap (fun e => e.2.drainAt.map (fun r => (s.drainArea d + r.1, r.2)))

/-- The lowest page of a die's context region from which a context of `n` bytes has room (R415). (log 15, DEDUCED) -/
def State.contextPlace (s : State) (d n : Nat) : Option Nat :=
  let taken := s.contextTaken d
  let fits (o : Nat) : Bool := o + n ≤ s.reg (dsReg d 0x488) && taken.all (fun r => r.1 + r.2 ≤ o || o + n ≤ r.1 || r.2 = 0 || n = 0)
  (((0 :: taken.map (fun r => roundUp (r.1 + r.2) 4096)).filter fits).mergeSort (· ≤ ·)).head?

/-- A context is written into its die's context region: bytes whose layout the spec does not give (R415).
(log 15, DEDUCED) -/
def State.writeSaved (s : State) (d at_ n : Nat) : State :=
  { s.writeHome (s.reg (dsReg d 0x480) + at_) ((List.range n).map (Config.contextByte s.freeCtr)) with freeCtr := s.freeCtr + 1 }

/-- Steps 4 and 5: the gang's committed state is saved on its die and its cores are released; without room the
gang waits frozen (R415). (log 14, DEDUCED) (log 15, DEDUCED) -/
def State.saveGang (s : State) (g : Nat) : State :=
  let x := s.gang g
  let d := x.die
  let need := s.contextNeed g
  match s.contextPlace d need with
  | none => s.setReg (dsReg d 0x490) (1 + 2 ^ 32 * (ceilDiv need 4096 % 2 ^ 32))
  | some at_ =>
    let s := (s.setReg (dsReg d 0x490) 0).saveWatches g
    let parked := s.parkedPasses g
    let s := s.dieUnits d false parked
    let wgs := x.members.map s.saveWg
    let (s, cmds) := s.takeCommands g
    let s := x.members.foldl (fun (st : State) m => (st.clearWg m.core m.base).discardInsts m.core x.seq) s
    let s := (s.setDie d { s.die d with saved := (s.die d).saved ++ [{ gang := g, bytes := need, at_, wgs, cmds }] }).writeSaved d at_ need
    let s := s.setGang g { x with members := [] }
    (x.members.foldl (fun (st : State) m => st.settleFreeze m.core) s).wakeFreed d parked cmds

/-- Seals of a gang that hold an MMAG with members, with the member of the gang that each stands for. -/
def State.mmagSeals (s : State) (g : Nat) : List (Member × SealAt × List Nat) :=
  (s.gang g).members.flatMap (fun m => (s.core m.core).seals.filterMap (fun x => (s.sealOf m.core x).bind (fun y =>
    let at_ := mmagsOf (s.sealItems y)
    if y.wg = m.base && !at_.isEmpty then some (m, y, at_) else none)))

/-- Rounds that wait at an MMAG until every workgroup of the gang has sealed at the same indices have not begun phase
two: a squash discards all of them (R286). -/
def State.dropMmags (s : State) (g : Nat) : State :=
  let seals := s.mmagSeals g
  let at_ := (seals.map (·.2.2)).headD []
  if (s.gang g).members.all (fun m => seals.any (fun e => e.1 = m && e.2.2 = at_)) then s
  else seals.foldl (fun (st : State) e =>
    e.2.1.members.foldl (fun (st : State) t => st.discardPass e.2.1.core t) (st.dropSeal e.2.1)) s

/-- SQUASH_SAVE: phase two and the horizons of a squashed gang have finished: its other passes are discarded, its
state is saved and its cores are released (R286, R295, R347, R415). -/
def execSquashSave (gang : Nat) (s : State) : Host.Outcome State Fault Refusal :=
  go (if (s.gang gang).frozen != .squashing || (s.gang gang).members.isEmpty || s.gangHeld gang then s
    else
      let s := s.dropMmags gang
      if !s.squashQuiet gang then s
      else if !s.squashReleased gang then s.squashRelease gang
      else (s.discardGang gang).saveGang gang)

/-! ## Drain (R416) -/

/-- One word of the drain chain. -/
structure DrainWord where
  data : Nat := 0
  tag : Nat := 0
  kind : Nat := 0
  cls : Nat
  station : Nat := 0
  lane : Nat := 0
  index : Nat := 0
  col : Nat
  row : Nat
  deriving DecidableEq, Repr

/-- Its 16 bytes. -/
def DrainWord.bytes (w : DrainWord) : List Byte :=
  toLE (w.data % 2 ^ 64 + 2 ^ 64 * (w.tag % 2 ^ 32) + 2 ^ 96 * (w.kind % 4) + 2 ^ 98 * w.cls + 2 ^ 101 * (w.station % 16)
    + 2 ^ 105 * (w.lane % 8) + 2 ^ 108 * (w.index % 1024) + 2 ^ 118 * (w.col % 16) + 2 ^ 122 * (w.row % 16)) 16

/-- The tag of a token (R42). -/
def tokTag (slot frame gen : Nat) : Nat := slot * 2 ^ 19 + frame * 2 ^ 9 + gen

/-- Code of a token kind (R297). -/
def TokKind.code : TokKind → Nat
  | .data => 0 | .switch => 1 | .eos _ => 2 | .reconf => 3

/-- What a token puts on the drain chain beside its place: only a data token has a tag. -/
def drainTok (tk : Tok) (cls station lane index col row : Nat) : DrainWord :=
  { data := tk.data.toNat, tag := if tk.kind = .data then tokTag tk.slot tk.frame tk.gen else 0, kind := tk.kind.code,
    cls, station, lane, index, col, row }

/-- A token that a drain of a gang copies: a data token of its threads, or a control token of an instance of its
launch. -/
def drained (mine : Nat → Bool) (seq : Nat) (x : Inst) (tk : Tok) : Bool :=
  if tk.kind = .data then mine tk.slot else x.seq = seq

/-- Readout mask of a tile: of its active configuration, else the sequencer's (R422). -/
def State.readout (s : State) (c row col : Nat) : Nat :=
  match (s.core c).active.find? (fun e => e.1 / 8 = row * 16 + col) with
  | some e => bitsOf e.2.reloc 23 16
  | none => (Config.readoutMask c row col).toNat

/-- Station of an instruction of an instance on its tile. -/
def stationOf (im : Image) (x : Inst) (idx : Nat) : Nat :=
  (mget x.stations idx).getD (bitsOf (placeEntry im x.blk idx) 23 20)

/-- Words of the operand slots of a tile in a lane of the tile, by station and frame. -/
def State.drainSlots (s : State) (c row col lane : Nat) (mine : Nat → Bool) : List DrainWord :=
  let words := (s.core c).threads.flatMap (fun e => match e.2.pass with
    | some p => match p.inst with
      | some i =>
        let x := s.inst c i
        let im := s.image x.img
        if !mine e.1 || p.lane % 8 != lane then [] else
        p.opnd.filterMap (fun o =>
          if nodeAt (s.block p.img p.blk) (o.1 / 4) || tileOf im x (o.1 / 4) p.lane != (col, row) then none
          else some ({ data := o.2.toNat, tag := tokTag e.1 p.frame p.gen, cls := 0, station := stationOf im x (o.1 / 4), lane,
                       index := p.frame, col, row } : DrainWord))
      | none => []
    | none => [])
  let sorted := (List.range 16).flatMap (fun st => (List.range 1024).flatMap (fun f =>
    words.filter (fun w => w.station = st && w.index = f)))
  sorted.zipIdx.map (fun w => { w.1 with index := (Config.drainIndex (row * 16 + col) lane w.2).toNat })

/-- Words of the compaction queue of a tile in a lane of the tile: the tokens of each group entry (R311, R416). -/
def State.drainGroups (s : State) (c row col lane : Nat) (mine : Nat → Bool) : List DrainWord :=
  (List.range 16).flatMap (fun n => match mget (s.core c).compact (16 * (row * 16 + col) + n) with
    | none => []
    | some g => (s.core c).threads.flatMap (fun e => match e.2.pass with
      | some p =>
        if p.inst != some g.inst || p.round != g.round || e.1 - e.1 % p.width != g.base || p.lane % 8 != lane || !mine e.1 then []
        else (p.opnd.filter (fun o => o.1 / 4 = g.idx)).map (fun o =>
          { data := o.2.toNat, tag := tokTag e.1 p.frame p.gen, cls := 1,
            station := stationOf (s.image p.img) (s.inst c g.inst) g.idx, lane, index := n, col, row })
      | none => []))

/-- Words of the edges that end on a tile, in a lane of the tile. -/
def State.drainEdges (s : State) (c row col lane : Nat) (mine : Nat → Bool) (seq : Nat) : List DrainWord :=
  let toks := (s.core c).insts.flatMap (fun e => e.2.edges.flatMap (fun q => q.2.filterMap (fun tk =>
    let l := q.1 / 256
    let im := s.image e.2.img
    if l % 8 = lane && drained mine seq e.2 tk && tileOf im e.2 (tk.dst / 4) l = (col, row)
    then some (stationOf im e.2 (tk.dst / 4), tk) else none)))
  toks.zipIdx.map (fun q => drainTok q.1.2 2 q.1.1 lane (Config.drainIndex (row * 16 + col) lane (1024 + q.2)).toNat col row)

/-- Words of the latches of a tile's element. -/
def State.drainLatches (s : State) (c row col lane : Nat) (mine : Nat → Bool) (seq : Nat) : List DrainWord :=
  (List.range 2).filterMap (fun t => match mget (s.core c).latch (((row * 16 + col) * 8 + lane) * 2 + t) with
    | some tk => if drained mine seq (s.inst c tk.inst) tk then some (drainTok tk 3 t lane 0 col row) else none
    | none => none)

/-- The words of one tile, in their order, of the lanes that its readout mask names. -/
def State.drainTile (s : State) (c row col : Nat) (mine : Nat → Bool) (seq : Nat) : List DrainWord :=
  let mask := s.readout c row col
  let lanes := (List.range 8).filter (flag mask)
  { data := mask, cls := 4, col, row }
    :: (lanes.flatMap (fun l => s.drainSlots c row col l mine) ++ lanes.flatMap (fun l => s.drainGroups c row col l mine)
      ++ lanes.flatMap (fun l => s.drainEdges c row col l mine seq)
      ++ lanes.flatMap (fun l => s.drainLatches c row col l mine seq))

/-- The words that the drain chain of a member core carries. -/
def State.drainWords (s : State) (m : Member) : List DrainWord :=
  let w := s.wg m.core m.base
  (List.range 160).flatMap (fun i =>
    s.drainTile m.core (i / 16) (i % 16) (fun t => m.base ≤ t && t < m.base + w.n) (s.gang w.gang).seq)

/-- Where the words of the next gang go in a die's drain area: behind those of its gangs that a drain holds frozen
(R416). (log 45, DESIGN CHOICE) -/
def State.drainEnd (s : State) (d : Nat) : Nat :=
  s.gangs.foldl (fun n e => if e.2.die = d then max n (e.2.drainAt.elim 0 (fun r => r.1 + r.2)) else n) 0

/-- A gang's words written into the drain area, as far as the context region goes (R415, R416).
(log 45, DESIGN CHOICE) -/
def State.writeDrain (s : State) (g d : Nat) (bs : List Byte) : State :=
  let at_ := s.drainEnd d
  let off := s.drainArea d + at_
  let s := s.writeHome (s.reg (dsReg d 0x480) + off) (bs.take (s.reg (dsReg d 0x488) - off))
  s.setGang g { s.gang g with drainAt := some (at_, bs.length) }

/-- DRAIN_COMPLETE: the drain chain has copied every token of a gang; every token stays in place, and the gang
stays frozen (R416). -/
def execDrainComplete (gang : Nat) (s : State) : Host.Outcome State Fault Refusal :=
  let x := s.gang gang
  go (if x.frozen != .draining || s.gangHeld gang then s
    else
      let s := s.writeDrain gang x.die ((x.members.flatMap s.drainWords).flatMap DrainWord.bytes)
      let s := s.setGang gang { s.gang gang with frozen := .drained }
      x.members.foldl (fun (st : State) m => st.settleFreeze m.core) s)

/-! ## KC_GANG_CTL (R416) -/

/-- Gangs of a core that a drain has frozen. -/
def State.drainedOn (s : State) (c : Nat) : List Nat :=
  (s.gangsOn c).filter (fun g => match (s.gang g).frozen with | .draining | .drained => true | _ => false)

/-- KC_FREEZE of a core whose drained gangs have all been resolved: a drain that was asked for is over, and the whole
register is clear, its mode bit with it (R148, R416). (log 13, DESIGN CHOICE) -/
def State.resolveFreeze (s : State) (c : Nat) : State :=
  if s.reg (kcFreeze c) % 4 = 3 && (s.drainedOn c).isEmpty then s.setReg (kcFreeze c) 0 else s

/-- A drained gang goes on (R416). -/
def State.thawGang (s : State) (g : Nat) : State :=
  let ms := (s.gang g).members
  let s := s.setGang g { s.gang g with frozen := .no, dike := 0, drainAt := none }
  ms.foldl (fun (st : State) m => st.resolveFreeze m.core) s

/-- GANG_THAW (R416). -/
def execGangThaw (core : Nat) (s : State) : Host.Outcome State Fault Refusal :=
  go ((s.drainedOn core).foldl (fun (st : State) g => st.thawGang g) s)

/-- GANG_SQUASH: the drained gangs of a core go through the steps of a squash (R415, R416). -/
def execGangSquash (core : Nat) (s : State) : Host.Outcome State Fault Refusal :=
  go ((s.drainedOn core).foldl (fun (st : State) g =>
    let ms := (st.gang g).members
    ms.foldl (fun (st : State) m => st.resolveFreeze m.core) (st.freezeGang g .squashing)) s)

/-- The matrix commands that a pass formed and that will never perform give up their records (R279). -/
def State.dropCmds (s : State) (c : Nat) (p : Pass) : State :=
  p.cmds.foldl (fun (st : State) e =>
    if ((mget p.ops e.1).map (·.performed)).getD false then st else
    match e.2.instr with
    | .mld _ _ _ x _ => st.setObrec c x.toNat { st.obrec c x.toNat with pins := (st.obrec c x.toNat).pins - 1 }
    | .mldKv _ _ x _ => st.setObrec c x.toNat { st.obrec c x.toNat with pins := (st.obrec c x.toNat).pins - 1 }
    | .mst _ (.ob16 x) _ _ _ _ _ => st.endMstOb c x.toNat
    | .mst _ (.obbf x) _ _ _ _ _ => st.endMstOb c x.toNat
    | _ => st) s

/-- A thread is killed: its pass and what is still to perform of it are gone, and it is Exited (R33, R404). -/
def State.killThread (s : State) (c t : Nat) : State :=
  let s := match (s.thread c t).pass with | some p => s.dropCmds c p | none => s
  let k := s.core c
  let s := s.setCore c { k with
    seals := (k.seals.map (fun x => { x with members := x.members.filter (· != t) })).filter (fun x => !x.members.isEmpty)
    entryWait := k.entryWait.filter (· != t) }
  ((s.dropPass c t).endRare c t).leaveThread c t

/-- A KILLED entry of a launch's fault record (R406, R407). (log 47, DESIGN CHOICE) -/
def State.postKilled (s : State) (seq core slot blk : Nat) : State :=
  s.addFault seq (mkRec 0x0C 0 0 (s.launch seq).desc.tenant core slot (seq % 2 ^ 32) (blk % 2 ^ 18) (s.die (dieOf core)).clk 0)

/-- A drained gang is killed: every thread is Exited, one entry records it, and it retires (R416). -/
def State.killGang (s : State) (core g : Nat) : State :=
  let x := s.gang g
  let s := s.setGang g { x with frozen := .no, drainAt := none }
  let s := (s.gangThreads g).foldl (fun (st : State) t =>
    if (st.thread t.1 t.2).st = .exited then st else st.killThread t.1 t.2) s
  let s := x.members.foldl (fun (st : State) m => (st.dropRounds m.core m.base).sweepEntries m.core) s
  let s := (s.postKilled x.seq core 0xFFFF (Config.killedBlock g).toNat).tryRetire g
  x.members.foldl (fun (st : State) m => st.resolveFreeze m.core) s

/-- GANG_KILL (R416). -/
def execGangKill (core : Nat) (s : State) : Host.Outcome State Fault Refusal :=
  go ((s.drainedOn core).foldl (fun (st : State) g => st.killGang core g) s)

/-- DRAIN: as a write of KC_FREEZE or of KC_GANG_CTL of a core; a pre-emption of the executing core is waited for
(R417). -/
def execDrain (p : Pred) (s : State) : Host.Outcome State Fault Refusal :=
  go (s.privAttempt [.L] p.code fun l _ st =>
    let v := l.toNat
    let c := v % 128
    let own := match st.cur.agent with | .ctl k => k = c | _ => false
    let used (s : State) : State := s.taken [.L] p.code
    if 2 ^ 10 ≤ v || flag v 7 then st.raise fcAccess
    else match bitsOf v 9 8 with
      | 2 => used (stateOf st (execGangThaw c st))
      | 3 => used (stateOf st (execGangKill c st))
      | mode =>
        let asked := match st.passOf st.cur.agent with
          | some q => (mget q.got (2 * st.cur.idx)).isSome
          | none => false
        let st := if asked then st else st.requestFreeze c mode
        let r := st.reg (kcFreeze c)
        if !own || !flag r 0 || flag r 3 then used st
        else st.updPass st.cur.agent (fun q => { q with got := mput q.got (2 * st.cur.idx) [] }))

/-! ## KC_PARK_CTL (R404) -/

/-- KC_PARK_STAT takes the outcome of a command. -/
def State.parkStat (s : State) (c slot result : Nat) : State := s.setReg (kcReg c 0x448) (slot % 8192 + 2 ^ 13 * result)

/-- The core performs a squash or a drain (R404). -/
def State.parkBusy (s : State) (c : Nat) : Bool :=
  (s.gangsOn c).any (fun g => match (s.gang g).frozen with | .squashing | .draining => true | _ => false)

/-- A command to a parked thread, by its order of checks: busy, not Parked, then the command. -/
def State.parkCommand (s : State) (c slot : Nat) (f : State → State × Nat) : State :=
  if s.parkBusy c then s.parkStat c slot 2
  else if (s.thread c slot).st != .parked then s.parkStat c slot 1
  else let r := f s; r.1.parkStat c slot r.2

/-- PARK_RESUME (R404). -/
def execParkResume (core slot : Nat) (s : State) : Host.Outcome State Fault Refusal :=
  go (s.parkCommand core slot fun s => (s.resume core slot false, 0))

/-- PARK_RESUME_SKIP: only a park by TRAP, BRK or ASSERT (R404). -/
def execParkResumeSkip (core slot : Nat) (s : State) : Host.Outcome State Fault Refusal :=
  go (s.parkCommand core slot fun s =>
    let code := ((s.thread core slot).park.map (·.code)).getD 0
    if code = fcTrap || code = fcBrk || code = fcAssert then (s.resume core slot true, 0) else (s, 3))

/-- PARK_KILL: the thread is Exited, and a KILLED entry goes into its launch's fault record (R404). -/
def execParkKill (core slot : Nat) (s : State) : Host.Outcome State Fault Refusal :=
  go (s.parkCommand core slot fun s =>
    let seq := s.seqOf core slot
    let blk := (s.thread core slot).blk
    let g := s.gangOf core slot
    (((s.killThread core slot).postKilled seq core slot blk).tryRetire g, 0))

/-! ## Dikewatch (R419) -/

/-- DIKEWATCH_FIRE: the gang's count has reached KC_DIKE_LIMIT of the core of wgid 0: the gang is drained and
NOPROGRESS is posted (R406, R419). -/
def execDikewatchFire (gang : Nat) (s : State) : Host.Outcome State Fault Refusal :=
  let x := s.gang gang
  go (match x.members.head? with
    | none => s
    | some m =>
      let limit := s.reg (kcReg m.core 0x20)
      if x.frozen != .no || s.gangHeld gang || x.dike < 40 * limit then s
      else
        let s := (s.freezeGang gang .draining).count m.core 0x024 (some (s.launch x.seq).desc.tenant)
        s.postDie x.die (mkRec 6 0 0 (s.launch x.seq).desc.tenant m.core 0xFFFF (x.seq % 2 ^ 32)
          (m.core + 2 ^ 7 * (x.w - 1) + 2 ^ 10 * (x.h - 1)) (s.die x.die).clk (min (x.dike / 40) limit)))

end Sys2Proof.Machine
end

