-- ==== Sys2Proof/Machine/Place.lean ====
section
/-! DEFINITION. Placing gangs and restoring squashed ones (R31, R32, R56, R57, R137, R143, R179, R209, R210, R218,
R300, R309, R328, R344 to R347). -/

namespace Sys2Proof.Machine

/-! ## What a workgroup needs of a core (R344) -/

/-- Needs of one workgroup: threads, partition, sluice storage, window units, scheduler entries, and for a
restore the records with their granules and the tiles it held. -/
structure Need where
  n : Nat
  part : Nat
  sluice : Nat
  units : Nat
  entries : Nat
  recs : List (Nat × Nat) := []
  tiles : List Nat := []
  deriving DecidableEq, Repr

/-- Storage of the sluices of a kernel (R300). -/
def sluiceBytes (im : Image) : Nat := im.sluices.foldl (fun n d => n + roundUp (4 * d.depth) 128) 0

/-- Window units of a kernel's port: of its window, or of the FIFOs of a radix port that it reads (R218, R309). -/
def portUnits (im : Image) (n : Nat) (d : StreamDecl) : Nat :=
  if d.kind = 0 then ceilDiv d.kib 8
  else if d.kind = 2 && portRead im d.port then ceilDiv (4 * n * d.elem) 8192
  else 0

/-- Window units of a kernel's ports. -/
def windowUnits (im : Image) (n : Nat) : Nat := im.streams.foldl (fun u d => u + portUnits im n d) 0

/-- Units of a core that a workgroup holds. -/
def Wg.units (w : Wg) : List Nat := w.windows.flatMap (·.2.units) ++ w.chanUnits.flatMap (·.2)

/-- The free units of a core's 64: a port takes the lowest of them (R218). (log 94, DESIGN CHOICE) -/
def freeUnits (k : Core) : List Nat :=
  (List.range 64).filter (fun u => k.wgs.all (fun w => !w.2.units.contains u))

/-- Units of each port of a kernel, the lowest free ones in the ports' order (R218, R309). -/
def unitsFrom (im : Image) (n : Nat) : List StreamDecl → List Nat → Map (List Nat)
  | [], _ => []
  | d :: rest, free =>
    let k := portUnits im n d
    mput (unitsFrom im n rest (free.drop k)) d.port (free.take k)

/-- What a fresh workgroup of a launch needs. -/
def freshNeed (im : Image) (x : Desc) : Need :=
  { n := x.n, part := im.scratch, sluice := sluiceBytes im, units := windowUnits im x.n, entries := im.roles.length }

/-- Ranges of the core scratchpad in use: partitions and sluice storage. -/
def scratchTaken (k : Core) : List (Nat × Nat) :=
  k.wgs.flatMap (fun e => [(e.2.partBase, e.2.partSize), (e.2.sluiceBase, e.2.sluiceSize)])

/-- A range is free of others. -/
def rangeFree (taken : List (Nat × Nat)) (b n : Nat) : Bool := taken.all (fun r => r.1 + r.2 ≤ b || b + n ≤ r.1 || r.2 = 0 || n = 0)

/-- Free bases of `n` bytes in the core scratchpad, on 128-byte boundaries (R210). -/
def scratchBases (taken : List (Nat × Nat)) (n : Nat) : List Nat :=
  if 2 ^ 20 < n then [] else
  ((List.range ((2 ^ 20 - n) / 128 + 1)).map (· * 128)).filter (fun b => rangeFree taken b n)

/-- Bases of a partition that leave room for the sluices. -/
def partBases (taken : List (Nat × Nat)) (part sluice : Nat) : List Nat :=
  (scratchBases taken part).filter (fun b => sluice = 0 || !(scratchBases ((b, part) :: taken) sluice).isEmpty)

/-- Free base slots for `n` threads (R31). -/
def slotBases (k : Core) (n : Nat) : List Nat :=
  let span := roundUp n 128
  ((List.range 64).map (· * 128)).filter (fun b =>
    b + span ≤ 8192 && rangeFree (k.wgs.map (fun e => (e.1, roundUp e.2.n 128))) b span)

/-- Records of a restore fit: their numbers are free, and each finds a run of granules. -/
def granulesFit (recs : Map ObRec) : List (Nat × Nat) → Bool
  | [] => true
  | (x, n) :: rest => (mget recs x).isNone && match freeRun recs n with
    | some g => granulesFit (mput recs x { st := .reserved, first := g, granules := n }) rest
    | none => false

/-- A core can hold a workgroup (R344). One that a freeze holds or that waits for a pre-emption takes none. -/
def State.canHold (s : State) (c : Nat) (y : Need) : Bool :=
  let k := s.core c
  !s.heldCore c && !flag (s.reg (kcFreeze c)) 0 && k.wgs.length < 64
    && !(slotBases k y.n).isEmpty && !(partBases (scratchTaken k) y.part y.sluice).isEmpty
    && y.units ≤ (freeUnits k).length
    && k.entries.length + y.entries ≤ 256
    && granulesFit k.obrecs y.recs && y.tiles.all (fun t => (mget k.tiles t).isNone)

/-- Cores of a rectangle, by workgroup number. -/
def rectangle (d x y w h : Nat) : List Nat :=
  (List.range (w * h)).map (fun i => d * 16 + (y + i / w) * 4 + x + i % w)

/-- The lowest origin of a die at which every core can hold its workgroup (R344). -/
def State.findRect (s : State) (d w h : Nat) (ys : List Need) : Option (Nat × Nat) :=
  ((List.range 16).find? (fun i => i % 4 + w ≤ 4 && i / 4 + h ≤ 4
    && ((rectangle d (i % 4) (i / 4) w h).zip ys).all (fun e => s.canHold e.1 e.2))).map (fun i => (i % 4, i / 4))

/-! ## Gangs that wait (R345 to R347) -/

/-- A gang that waits for a place: its launch, its key by polder, the dies it may go to, its shape, and the saved
gang where it has been squashed: the die that saved it and its place there. -/
structure Cand where
  seq : Nat
  part : Nat
  mask : Nat
  w : Nat
  h : Nat
  prio : Nat
  saved : Option (Nat × SavedGang) := none
  deriving DecidableEq, Repr

/-- Squashed gangs, oldest first. -/
def State.savedCands (s : State) : List Cand :=
  let all := s.dies.flatMap (fun e => e.2.saved.map (fun g => (e.1, g)))
  let cand (e : Nat × SavedGang) : Cand :=
    let g := s.gang e.2.gang
    let l := s.launch g.seq
    let part := (partsOfLaunch (s.image l.img) l.desc).find? (fun p => p.1 = g.polder.getD 0)
    { seq := g.seq, part := g.polder.getD 0, mask := (part.map (·.2.1)).getD 0, w := g.w, h := g.h, prio := l.prio, saved := some e }
  (s.dispatched.flatMap (fun q => ((all.filter (fun e => (s.gang e.2.gang).seq = q)).map (fun e => ((s.gang e.2.gang).gid, cand e))).mergeSort
    (fun a b => a.1 ≤ b.1))).map (·.2)

/-- The next unplaced gang of each launch, oldest launch first. -/
def State.freshCands (s : State) : List Cand :=
  s.dispatched.flatMap (fun q =>
    let l := s.launch q
    ((partsOfLaunch (s.image l.img) l.desc).filter (fun p => mgetD l.placed p.1 0 < l.desc.gangs)).map (fun p =>
      { seq := q, part := p.1, mask := p.2.1, w := p.2.2.1, h := p.2.2.2, prio := l.prio }))

/-- A waiting gang belongs to a polder (R346). -/
def State.ofPolder (s : State) (c : Cand) : Bool := (s.image (s.launch c.seq).img).pipe

/-- Gangs that wait, as a die sees them: by priority, squashed gangs first within one, then oldest first; a gang of
a polder counts on its own die only (R345 to R347). -/
def State.candidates (s : State) (d : Nat) : List Cand :=
  let all := s.savedCands ++ s.freshCands
  let here := all.filter (fun c => !s.ofPolder c || flag c.mask d)
  (List.range 8).reverse.flatMap (fun p => here.filter (fun c => c.prio = p))

/-- The needs of a waiting gang by workgroup number. -/
def State.needs (s : State) (c : Cand) : List Need :=
  let l := s.launch c.seq
  let im := s.image l.img
  let fresh := freshNeed im l.desc
  match c.saved with
  | none => List.replicate (c.w * c.h) fresh
  | some (_, g) => g.wgs.map (fun w => { fresh with
      recs := w.recs.map (fun r => (r.1, r.2.1.granules))
      tiles := w.tiles.map (·.1) })

/-- The die has memory for the private slices of `k` workgroups (R209, R344). -/
def State.slicesFit (s : State) (d bytes : Nat) : Nat → Bool
  | 0 => true
  | k + 1 => match s.takeMemory d bytes 128 with
    | some r => State.slicesFit r.1 d bytes k
    | none => false

/-- Bytes of the private slices of a workgroup (R209). -/
def sliceBytes (im : Image) (n : Nat) : Nat := n * roundUp (384 + im.privBytes) 128

/-- The gang has a free rectangle on a die of its mask, and memory for its slices, which a squashed gang still
holds. -/
def State.placeOn (s : State) (d : Nat) (c : Cand) : Option (Nat × Nat) :=
  let l := s.launch c.seq
  if flag c.mask d && s.supUp d && (c.saved.isSome || s.slicesFit d (sliceBytes (s.image l.img) l.desc.n) (c.w * c.h)) then
    s.findRect d c.w c.h (s.needs c)
  else none

/-- The lowest-numbered die of its mask that has a free rectangle. -/
def State.firstDie (s : State) (c : Cand) : Option Nat := (List.range 8).find? (fun d => (s.placeOn d c).isSome)

/-- Overtakings of a head gang so far: a squashed gang has a count of its own (R345). -/
def State.overtakings (s : State) (c : Cand) : Nat :=
  match c.saved with
  | some (_, g) => g.overtaken
  | none => mgetD (s.launch c.seq).overtaken c.part 0

/-- One more gang has been placed in the stead of a head gang (R345). -/
def State.overtake (s : State) (c : Cand) : State :=
  match c.saved with
  | some (d, g) => s.setDie d { s.die d with saved := (s.die d).saved.map (fun y =>
      if y.gang = g.gang then { y with overtaken := y.overtaken + 1 } else y) }
  | none =>
    let l := s.launch c.seq
    s.setLaunch c.seq { l with overtaken := mput l.overtaken c.part (s.overtakings c + 1) }

/-- The head gang that a waiting gang waits behind: of a polder's gang the first of its own die, of another the
first of all that its die sees (R345, R346). -/
def State.headFor (s : State) (d : Nat) (c : Cand) : Option Cand :=
  (s.candidates d).find? (fun h => !s.ofPolder c || flag h.mask d)

/-- Whether a die's supervisor may place a waiting gang now: the head gang itself, or in its stead one with fewer
cores while the head can be placed on no die, with at most 4 overtakings on the dies of its mask (R345). -/
def State.mayPlace (s : State) (d : Nat) (c : Cand) : Bool :=
  s.firstDie c = some d && match s.headFor d c with
    | none => false
    | some h => h = c || ((s.firstDie h).isNone && c.w * c.h < h.w * h.h && !(4 ≤ s.overtakings h && flag h.mask d))

/-- The gang that a die's supervisor places now, with the head gang that it overtakes (R345). (log 26, DEDUCED) -/
def State.nextGang (s : State) (d : Nat) : Option (Cand × Option Cand) :=
  ((s.candidates d).find? (fun c => s.mayPlace d c)).map (fun c => (c, (s.headFor d c).filter (· != c)))

/-! ## Placing a workgroup -/

/-- A region of device memory is written to zero; this is none of the changes that advance a version (R209,
R214). -/
def State.zeroRegion (s : State) (a n : Nat) : State :=
  let s := (List.range (n / 128)).foldl (fun (st : State) i => st.clearPoison (a + 128 * i) 128) s
  { s with mem := zeroRange s.mem a n }

/-- A contiguous region for the private slices of a workgroup, zero (R209). -/
def State.takeRegion (s : State) (d n stride : Nat) : Option (State × Nat) :=
  (s.takeMemory d (n * stride) 128).map (fun r => (r.1.zeroRegion r.2 (n * stride), r.2))

/-- Regions for `k` workgroups. -/
def State.takeRegions (s : State) (d n stride : Nat) : Nat → Option (State × List Nat)
  | 0 => some (s, [])
  | k + 1 => match s.takeRegion d n stride with
    | some (s, b) => (State.takeRegions s d n stride k).map (fun r => (r.1, b :: r.2))
    | none => none

/-- Slots, partition and sluice storage on a core: base slot, partition base and sluice base (R31, R210, R300). -/
def State.takePlace (s : State) (c : Nat) (y : Need) : Option (State × Nat × Nat × Nat) := do
  let k := s.core c
  let (s, base) ← s.pick (slotBases k y.n)
  let (s, part) ← s.pick (partBases (scratchTaken k) y.part y.sluice)
  if y.sluice = 0 then some (s, base, part, 0)
  else
    let (s, sl) ← s.pick (scratchBases ((part, y.part) :: scratchTaken k) y.sluice)
    some (s, base, part, sl)

/-- The partition of a workgroup reads zero, and its words are sound (R210). -/
def State.zeroPartition (s : State) (c base n : Nat) : State :=
  let a := scratchBase c + base
  { s with
    mem := zeroRange s.mem a n
    poisoned := s.poisoned.filter (fun p => !(p.1 = .coreScratch && a ≤ p.2 && p.2 < a + n)) }

/-- The workgroup record at its start (R131, R218, R300). -/
def freshWg (im : Image) (g wgid n part sl region dec : Nat) (y : Need) (units : Map (List Nat)) : Wg :=
  { gang := g, wgid, n, partBase := part, partSize := y.part, sluiceBase := sl, sluiceSize := y.sluice, region,
    stride := roundUp (384 + im.privBytes) 128, privBytes := im.privBytes,
    sluices := im.sluices.foldl (fun m d => mput m d.q { depth := d.depth, allow := d.allow }) [],
    windows := (im.streams.filter (fun d => d.kind = 0)).foldl (fun m d => mput m d.port { units := mgetD units d.port [] }) [],
    chanUnits := units.filter (fun u => im.streams.any (fun d => d.kind = 2 && d.port = u.1) && !u.2.isEmpty), decBase := dec }

/-- A launch takes the lowest free launch slot of a core at its first workgroup there (R334). (log 98, DESIGN CHOICE) -/
def claimSlot (k : Core) (seq : Nat) : Map Nat :=
  if k.lslots.any (·.2 = seq) then k.lslots
  else mput k.lslots (((List.range 64).find? (fun i => (mget k.lslots i).isNone)).getD 0) seq

/-- One workgroup of a fresh gang on its core: every thread at its role's entry block (R32, R131). -/
def State.placeWg (s : State) (im : Image) (g wgid c region : Nat) (y : Need) : State × Option Member :=
  match s.takePlace c y with
  | none => (s, none)
  | some (s, base, part, sl) =>
    let s := s.zeroPartition c part y.part
    let k := s.core c
    let w := freshWg im g wgid y.n part sl region k.decision y (unitsFrom im y.n im.streams (freeUnits k))
    let entry (tid : Nat) : Nat := ((im.roles[roleAt (roleSizes im y.n) tid]?).map (·.entry)).getD 0
    let ts := (List.range y.n).foldl (fun m tid => mput m (base + tid) { st := .waiting, blk := entry tid }) k.threads
    (s.setCore c { k with wgs := mput k.wgs base w, threads := ts, lslots := claimSlot k (s.gang g).seq }, some { core := c, base })

/-- The failed condition of a Held thread holds now (R36, R37). -/
def State.heldMet (s : State) (c t : Nat) (h : HeldCond) : Bool :=
  match h with
  | .timeline ctx val => s.waitMet { ctx, val }
  | .sluice q => (s.takeSluice c t q (s.block (s.imgOf c t) (s.thread c t).blk)).isSome
  | .barrier q => s.barReady c t q
  | .lsq => s.lsqClear c t
  | .reserve r => (s.takeUnit c t r).isSome

/-- Entries that were rebuilt with an old member are urgent from the next decision's number on (R327, R347). -/
def State.refreshUrgent (s : State) (c : Nat) : State :=
  let k := s.core c
  s.setCore c { k with entries := k.entries.map (fun e =>
    if 48 ≤ s.oldestAge c e.2 && e.2.urgentSince.isNone then (e.1, { e.2 with urgentSince := some k.decision }) else e) }

/-- Threads of a placed workgroup enter their blocks, and keep the ages they have (R328, R347). A Held one stays Held
until an event of its condition, or where the condition came to hold meanwhile it returns now (R37). -/
def State.enterAll (s : State) (m : Member) : State :=
  ((List.range (s.wg m.core m.base).n).foldl (fun (st : State) i =>
    let t := m.base + i
    let x := st.thread m.core t
    match x.st with
    | .waiting => if x.yieldPending then st else
        let st := st.enterBlock m.core t
        let y := st.thread m.core t
        st.setThread m.core t { y with age := x.age }
    | .rare => st.postXpath m.core t
    | .held h => if st.heldMet m.core t h then st.enterBlock m.core t else st
    | _ => st) s).refreshUrgent m.core

/-- A fresh gang is placed (R56, R179, R344). -/
def State.placeFresh (s : State) (d : Nat) (c : Cand) (o : Nat × Nat) : State :=
  let l := s.launch c.seq
  let im := s.image l.img
  let y := freshNeed im l.desc
  match s.takeRegions d y.n (roundUp (384 + im.privBytes) 128) (c.w * c.h) with
  | none => s
  | some (s, regions) =>
    let g := mfresh s.gangs
    let gid := mgetD l.placed c.part 0
    let cores := rectangle d o.1 o.2 c.w c.h
    let s := s.setGang g { seq := c.seq, gid, die := d, x := o.1, y := o.2, w := c.w, h := c.h, args := l.args,
                           polder := if im.pipe then some c.part else none }
    let r := ((cores.zip regions).zipIdx).foldl (fun (r : State × List Member) e =>
      let p := r.1.placeWg im g e.2 e.1.1 e.1.2 y
      (p.1, r.2 ++ p.2.toList)) (s, [])
    let s := r.1.setGang g { r.1.gang g with members := r.2 }
    let l := s.launch c.seq
    let s := s.setLaunch c.seq { l with placed := mput l.placed c.part (gid + 1), overtaken := mput l.overtaken c.part 0 }
    r.2.foldl (fun (st : State) m => st.enterAll m) s

/-! ## Restoring a squashed gang (R295, R347, R415) -/

/-- Bytes back in the store of a unit, with the poison they had. -/
def State.putBack (s : State) (u : SoftUnit) (a n : Nat) (cut : Memory) (bad : List Nat) : State :=
  { s with
    mem := pasteMemory s.mem a n cut
    poisoned := s.poisoned.filter (fun p => !(p.1 = u && a ≤ p.2 && p.2 < a + n)) ++ bad.map (fun o => (u, a + o)) }

/-- Records, granules and tiles return to the new core; a record's first granule is rewritten (R295). -/
def State.restoreMatrix (s : State) (c base : Nat) (w : SavedWg) : State :=
  let s := w.recs.foldl (fun (st : State) e =>
    match freeRun (st.core c).obrecs e.2.1.granules with
    | some g =>
      let st := st.setObrec c e.1 { e.2.1 with first := g, owner := base / 128 }
      st.putBack .operandBuffer (opBufBase c + g * 4096) (e.2.1.granules * 4096) e.2.2.1 e.2.2.2
    | none => st) s
  w.tiles.foldl (fun (st : State) e =>
    let k := st.core c
    (st.setCore c { k with tiles := mput k.tiles e.1 (base / 128) }).putBack .accumulator (accBase c + e.1 * 131072) 131072 e.2.1 e.2.2) s

/-- A slot number that names a thread of the workgroup, moved with it. -/
def shiftRsv (old new : Nat) (r : Option Nat) : Option Nat := r.map (fun t => t - old + new)

/-- A sluice with the `n` sends that the parked passes of its workgroup keep reserved until they resume (R302). -/
def retaken (n : Nat) (q : Sluice) : Sluice := { q with allow := q.allow - n, allowRsv := n, pushRsv := n }

/-- A saved workgroup on its new core (R347). `old` is its former base slot. -/
def State.restoreWg (s : State) (c : Nat) (w : SavedWg) (y : Need) (old : Nat) : State × Option Member :=
  match s.takePlace c y with
  | none => (s, none)
  | some (s, base, part, sl) =>
    let s := s.putBack .coreScratch (scratchBase c + part) y.part w.scratch w.scratchBad
    let k := s.core c
    let v := w.wg
    let held (q : Nat) : Nat := w.threads.foldl (fun n e => n + ((e.2.pass.map (fun p => mgetD p.rsv q 0)).getD 0)) 0
    let im := s.image (s.launch (s.gang v.gang).seq).img
    let units := unitsFrom im v.n im.streams (freeUnits k)
    let v := { v with
      windows := v.windows.map (fun e => (e.1, { e.2 with units := mgetD units e.1 [] }))
      chanUnits := v.chanUnits.map (fun e => (e.1, mgetD units e.1 []))
      partBase := part, sluiceBase := sl, decBase := k.decision
      sluices := v.sluices.map (fun q => (q.1, retaken (held q.1) { q.2 with entries := q.2.entries.map (fun e => { e with rsv := shiftRsv old base e.rsv }) }))
      chans := v.chans.map (fun q => (q.1, q.2.map (fun e => { e with rsv := shiftRsv old base e.rsv }))) }
    -- a formed command of a parked thread moves with it (R275)
    let moved (t : Nat) (x : Thread) : Thread := { x with pass := x.pass.map (fun p => { p with
      cmds := p.cmds.map (fun q => (q.1, { q.2 with core := c, wg := base, agent := .fab c t })) }) }
    let ts := w.threads.foldl (fun m e => mput m (base + e.1) (moved (base + e.1) e.2)) k.threads
    let s := s.setCore c { k with wgs := mput k.wgs base v, threads := ts, lslots := claimSlot k (s.gang v.gang).seq }
    let s := w.images.foldl (fun (st : State) e => st.writeHome (st.imageAddr c (base + e.1)) e.2) s
    (s.restoreMatrix c base w, some { core := c, base })

/-- A stopped command goes to the context of the same kind of its thread's new core or die. -/
def State.restoreCmd (s : State) (d : Nat) (olds : List Member) (news : List Member) (e : Nat × Cmd) : State :=
  let k := e.2
  match ((olds.zip news).find? (fun p => p.1.core = k.core && p.1.base = k.wg)).map (·.2) with
  | none => s
  | some m =>
    let ctx := match e.1 / 4096 with
      | 1 => ctxCopy d (e.1 % 256)
      | 2 => ctxColl d
      | 3 => ctxSpill d
      | 4 => ctxLoad m.core
      | _ => ctxWriter m.core
    let slot := k.agent.slot.getD 0 - k.wg + m.base
    match s.context ctx with
    | some g => s.setContext ctx { g with queue := g.queue ++ [{ k with core := m.core, wg := m.base, agent := .fab m.core slot }] }
    | none => s

/-- A squashed gang is restored on a rectangle (R347). Threads that were Held test their conditions again. -/
def State.restoreGang (s : State) (d : Nat) (c : Cand) (o : Nat × Nat) (from_ : Nat) (sg : SavedGang) : State :=
  let cores := rectangle d o.1 o.2 c.w c.h
  let s := s.setDie from_ { s.die from_ with saved := (s.die from_).saved.filter (·.gang != sg.gang) }
  let r := ((cores.zip (sg.wgs.zip (s.needs c)))).foldl (fun (r : State × List Member) e =>
    let p := r.1.restoreWg e.1 e.2.1 e.2.2 e.2.1.from_.base
    (p.1, r.2 ++ p.2.toList)) (s, [])
  let s := r.1.setGang sg.gang { r.1.gang sg.gang with
    die := d, x := o.1, y := o.2, members := r.2, frozen := .no, dike := 0, drainAt := none }
  let s := sg.cmds.foldl (fun (st : State) e => st.restoreCmd d (sg.wgs.map (·.from_)) r.2 e) s
  let s := s.dieUnits d true (s.parkedPasses sg.gang)
  r.2.foldl (fun (st : State) m => st.enterAll m) s

/-- GANG_PLACEMENT: gangs whose threads are all Exited retire; then a die's supervisor places one gang, fresh or
squashed (R56, R344 to R347). -/
def execGangPlacement (die : Nat) (s : State) : Host.Outcome State Fault Refusal :=
  let s := s.gangs.foldl (fun (st : State) g => if g.2.die = die then st.tryRetire g.1 else st) s
  go (match s.nextGang die with
    | none => s
    | some (c, overtakes) =>
      match s.placeOn die c with
      | none => s
      | some o =>
        let s := match overtakes with
          | some head => s.overtake head
          | none => s
        match c.saved with
        | none => s.placeFresh die c o
        | some (k, g) => s.restoreGang die c o k g)

/-! ## DS_GANG_MAP (R345) -/

/-- The register as its die shows it. -/
def State.gangMap (s : State) (d : Nat) : Nat :=
  let busy (i : Nat) : Bool := !(s.core (d * 16 + i)).wgs.isEmpty
  let bits (f : Nat → Bool) : Nat := (List.range 16).foldl (fun n i => n + if f i then 2 ^ i else 0) 0
  match s.candidates d with
  | [] => bits busy
  | head :: _ =>
    let n := s.overtakings head
    let waits := (s.firstDie head).isNone
    bits busy + (if 4 ≤ n && waits && flag head.mask d then 2 ^ 16 * bits (fun i => !busy i) else 0)
      + 2 ^ 32 * min n 7

end Sys2Proof.Machine
end

