-- ==== Sys2Proof/Machine/Control.lean ====
section
/-! DEFINITION. Jobs of the control cores and the control-core image (R23, R24, R90, R92, R418, R451, R454). -/

namespace Sys2Proof.Machine

/-! ## Jobs (R23, R24, R451) -/

def kcJob (c : Nat) : Nat := kcReg c 0x4C0

/-- A write of KC_CC_JOB: ignored while a job is pending (R451). -/
def State.jobWrite (s : State) (c v : Nat) : State :=
  if flag (s.reg (kcJob c)) 0 then s else s.setReg (kcJob c) (bitsOf v 51 9 * 512 + 1)

/-- CC_JOB_WRITE (R451). -/
def execCcJobWrite (core v : Nat) (s : State) : Host.Outcome State Fault Refusal := go (s.jobWrite core v)

/-- The control core is idle, its die has an image and none waits for installation, and no rare block has
waited for a load already (R24, R454). (log 29, DEDUCED) -/
def State.jobReady (s : State) (c : Nat) : Option Nat :=
  let k := s.core c
  let x := s.die (dieOf c)
  if k.cc = .idle && x.ccNext.isNone && !s.rareWaited c then x.ccImage else none

/-- A job starts at the block of KC_CC_ENTRY with v0 as given and every other register zero; a block that the
image does not have faults ACCESS (R451, R454). -/
def State.startJob (s : State) (c img v0 : Nat) (eventJob : Bool) : State :=
  let a : Agent := .ctl c
  let k := s.core c
  let s := s.setCore c { k with cc := .job, waited := xpathSlots k, ctl := { k.ctl with regs := mset [] 0 (tokNat v0) 0, eventJob } }
  let entry := s.reg (kcReg c 0x4C8)
  if (s.image img).blocks.length ≤ entry then s.halt a fcAccess 0 else s.enterSeq a img entry

/-- CONTROL_JOB_START: the pending job starts, and its pending bit clears (R23, R451). -/
def execControlJobStart (core : Nat) (s : State) : Host.Outcome State Fault Refusal :=
  let v := s.reg (kcJob core)
  go (match s.jobReady core with
    | some img => if flag v 0 then (s.setReg (kcJob core) (v - 1)).startJob core img (v - 1) false else s
    | none => s)

/-- EVENT_JOB_START: an event job starts while the core's event queue holds a record that is not of type XPATH
(R23, R451). -/
def execEventJobStart (core : Nat) (s : State) : Host.Outcome State Fault Refusal :=
  go (match s.jobReady core with
    | some img => if (popRec (s.core core).evq).isSome then s.startJob core img 1 true else s
    | none => s)

/-! ## The control-core image (R90, R454) -/

def dsImageStat (d : Nat) : Nat := dsReg d 0x4D8

/-- The replacement is refused: the reason stands in DS_CC_IMAGE_STAT (R454). -/
def State.refuseImage (s : State) (d code : Nat) : State :=
  let v := s.reg (dsImageStat d)
  (s.setDie d { s.die d with ccPend := none }).setReg (dsImageStat d) (2 + v / 4 % 2 * 4 + 2 ^ 16 * (code % 2 ^ 16))

/-- The supervisor runs acceptance on the image that DS_CC_IMAGE named, with PRIV required; a halted
supervisor does not, and an image that cannot be read is refused (R90, R454); one whose digest has been accepted is
accepted with the bytes retained. (log 48, DESIGN CHOICE) -/
def State.acceptCc (s : State) (d : Nat) : State :=
  match (s.die d).ccPend with
  | none => s
  | some a =>
    let at_ := tokNat a
    if !s.supUp d then s
    else match s.ctlRead at_ 256 with
      | .wait s => s
      | .fault _ _ => s.refuseImage d Config.unreadableImage.code
      | .ok h => match headerReason s.keys h true with
        | some r => s.refuseImage d r.code
        | none =>
          let next (s : State) (n : Nat) : State := s.setDie d { s.die d with ccPend := none, ccNext := some n }
          match s.accepted (headerOf h) with
          | some n => next s n
          | none => match s.ctlRead at_ (headerOf h).len with
            | .wait s => s
            | .fault _ _ => s.refuseImage d Config.unreadableImage.code
            | .ok img => match acceptImage s.keys true img with
              | .error r => s.refuseImage d r.reason.code
              | .ok im => next (s.keepImage im).1 (s.keepImage im).2

/-- A write of DS_CC_IMAGE: ignored while a replacement is under way (R454). (log 29, DEDUCED) -/
def State.imageWrite (s : State) (d v : Nat) : State :=
  let r := s.reg (dsImageStat d)
  if flag r 0 then s
  else ((s.setReg (dsImageStat d) (r + 1)).setDie d { s.die d with ccPend := some (bitsOf v 51 4 * 16) }).acceptCc d

/-- CC_IMAGE_REPLACE (R454). -/
def execCcImageReplace (die v : Nat) (s : State) : Host.Outcome State Fault Refusal := go (s.imageWrite die v)

/-- CC_IMAGE_INSTALL: an accepted image is installed once no control core of the die runs a job (R454); the refusal bit
stays for software to clear. (log 97, DESIGN CHOICE) -/
def execCcImageInstall (die : Nat) (s : State) : Host.Outcome State Fault Refusal :=
  let s := s.acceptCc die
  let x := s.die die
  go (match x.ccNext with
    | none => s
    | some n =>
      if (List.range 16).any (fun i => (s.core (die * 16 + i)).cc = .job) then s
      else
        let v := s.reg (dsImageStat die)
        (s.setDie die { x with ccImage := some n, ccNext := none }).setReg (dsImageStat die) (v / 8 * 8 + v / 2 % 2 * 2 + 4))

end Sys2Proof.Machine
end

