-- ==== Sys2Proof/Machine/Clocks.lean ====
section
/-! DEFINITION. Clock stamps, conversions, time probes, and changes of the connection table (R12, R13, R374 to
R376, R379 to R381). -/

namespace Sys2Proof.Machine

/-! ## Conversions and stamps (R380, R381) -/

/-- The shadow offset and rate of a conversion: those in effect until a write (R380). -/
def State.shadowOf (s : State) (d j : Nat) : Nat × Nat :=
  mgetD (s.die d).shadow j (s.reg (clkReg d j 0), s.reg (clkReg d j 8))

/-- A write of DS_CLKOFS or DS_CLKRATE goes to the shadow; the die's own entries ignore it (R147, R380). -/
def State.writeShadow (s : State) (d j : Nat) (v : Nat × Nat) : State :=
  if d = j then s else s.setDie d { s.die d with shadow := mput (s.die d).shadow j v }

/-- Offset, rate and epoch take effect together (R380). -/
def State.installEpoch (s : State) (d j v : Nat) : State :=
  if d = j || 8 ≤ j then s
  else
    let x := s.shadowOf d j
    ((s.setReg (clkReg d j 0) x.1).setReg (clkReg d j 8) x.2).setReg (clkReg d j 0x10) (v % 2 ^ 64)

/-- CLKEPOCH_INSTALL (R380). -/
def execClkepochInstall (die j v : Nat) (s : State) : Host.Outcome State Fault Refusal := go (s.installEpoch die j v)

/-- Pair (d, j) is in fallback with a last error, after so many good stamps in a row (R381). -/
def State.setClkErr (s : State) (d j err : Nat) (fb : Bool) (good : Nat) : State :=
  (s.setReg (clkReg d j 0x18) (min err 0xFFFF + if fb then 2 ^ 16 else 0)).setDie d
    { s.die d with good := mset (s.die d).good j good 0 }

/-- CLOCK_STAMP: the clock-sync unit of a die receives a stamp of die `j`, to which the fixed delay is already
added: an error above 8 ns starts fallback, and two good stamps in a row end it (R381). -/
def execClockStamp (die j stamp : Nat) (s : State) : Host.Outcome State Fault Refusal :=
  go (if die = j || 8 ≤ j then s
    else
      let err := (signedOf (s.convert die j stamp + 2 ^ 64 - (s.die die).clk % 2 ^ 64) 64).natAbs
      let was := s.fallback die j
      let good := if 8 < err || !was then 0 else mgetD (s.die die).good j 0 + 1
      let fb := 8 < err || (was && good < 2)
      let s := if was then s.countDie die 0x10C none else s
      s.setClkErr die j err fb (if fb then good else 0))

/-! ## Time probes (R381) -/

/-- Times of die `j` that a home clock value has reached are done with. -/
def dropFar (j clock : Nat) (m : Map Nat) : Map Nat := m.filter (fun e => e.1 != j || clock < e.2)

/-- The same for the commands of an engine. -/
def farEngine (j clock : Nat) (e : Engine) : Engine :=
  { e with queue := e.queue.map (fun k => { k with far := dropFar j clock k.far }) }

/-- The same for the threads, the control thread and the matrix engines of a core. -/
def farCore (j clock : Nat) (k : Core) : Core :=
  { k with
    threads := k.threads.map (fun t => (t.1, { t.2 with far := dropFar j clock t.2.far }))
    ctl := { k.ctl with far := dropFar j clock k.ctl.far }
    loadPipe := farEngine j clock k.loadPipe
    writer := farEngine j clock k.writer }

/-- The same for the supervisor and the engines of a die. -/
def farDie (j clock : Nat) (x : Die) : Die :=
  { x with
    sup := { x.sup with far := dropFar j clock x.sup.far }
    copy := x.copy.map (fun e => (e.1, farEngine j clock e.2))
    coll := farEngine j clock x.coll
    spill := farEngine j clock x.spill }

/-- TIME_PROBE_REPLY: die `j` has answered a time probe of a die with its clock: completion times up to it
count as passed (R381). -/
def execTimeProbeReply (die j clock : Nat) (s : State) : Host.Outcome State Fault Refusal :=
  go ({ s with
    cores := s.cores.map (fun e => if dieOf e.1 = die then (e.1, farCore j clock e.2) else e)
    dies := s.dies.map (fun e => if e.1 = die then (e.1, farDie j clock e.2) else e)
    launches := s.launches.map (fun e => (e.1, { e.2 with far := dropFar (8 * die + j) clock e.2.far })) } : State)

/-- Every 1,000 ns of its clock a die receives a stamp of each other die (R381): the model's stamp names the
instant of its receipt exactly. (log 50, DESIGN CHOICE) -/
def stampDue (d j : Nat) (s : State) : Host.Outcome State Fault Refusal :=
  let x := s.die d
  let n := x.clk / 1000
  if d = j || n ≤ mgetD x.stamped j 0 then .next s
  else execClockStamp d j (s.die j).clk (s.setDie d { x with stamped := mput x.stamped j n })

/-- In fallback a die sends time probes (R381): the model's reply names the other clock exactly. (log 50,
DESIGN CHOICE) -/
def probeDue (d j : Nat) (s : State) : Host.Outcome State Fault Refusal :=
  if s.fallback d j then execTimeProbeReply d j (s.die j).clk s else .next s

/-! ## The connection table (R374 to R376) -/

def zpStat : Nat := 0x3002008

/-- Offset of ZP_CONN[d][j]. -/
def zpConn (d j : Nat) : Nat := 0x3000000 + 0x400 * d + 8 * j

/-- Byte of wavelength `w` of a die, in the shadow and in effect. -/
def State.shadowByte (s : State) (d w : Nat) : Nat := s.reg (zpConn d (w / 8)) / 2 ^ (8 * (w % 8)) % 256
def State.connByte (s : State) (d w : Nat) : Nat :=
  mgetD s.conn (128 * d + w / 8) (connReset d (w / 8)) / 2 ^ (8 * (w % 8)) % 256

/-- The shadow cannot be applied: a valid byte names its own die, a zero field is nonzero, or two dies send on
one wavelength to one destination (R376). -/
def State.shadowBad (s : State) : Bool :=
  (List.range 1024).any (fun w =>
    let bs := (List.range 8).map (fun d => s.shadowByte d w)
    bs.zipIdx.any (fun b => 16 ≤ b.1 || b.1 = 8 + b.2)
      || (List.range 8).any (fun t => 1 < (bs.filter (· == 8 + t)).length))

/-- Ordered pairs of dies whose wavelengths a commit changes (R13). -/
def State.changedPairs (s : State) : List Nat :=
  (List.range 64).filter (fun p => (List.range 1024).any (fun w =>
    (s.connByte (p / 8) w = 8 + p % 8) != (s.shadowByte (p / 8) w = 8 + p % 8)))

/-- The shadow takes effect: traffic of the changed pairs pauses until their circuits stand (R13, R376). -/
def State.applyConn (s : State) : State :=
  let pairs := s.changedPairs
  let conn := (List.range 1024).foldl (fun m i =>
    mset m i (s.reg (zpConn (i / 128) (i % 128))) (connReset (i / 128) (i % 128))) s.conn
  ({ s with conn, circuits := pairs } : State).setReg zpStat (s.reg zpStat + 1)

/-- A bit of ZP_STAT is set. -/
def State.zpFlag (s : State) (k : Nat) : State :=
  let v := s.reg zpStat
  if flag v k then s else s.setReg zpStat (v + 2 ^ k)

/-- A write of ZP_COMMIT with its bit set (R376). -/
def State.commitConn (s : State) : State :=
  if flag (s.reg zpStat) 0 then s.zpFlag 2
  else if s.shadowBad then s.zpFlag 1
  else s.applyConn

/-- ZP_COMMIT (R376). -/
def execZpCommit (s : State) : Host.Outcome State Fault Refusal := go s.commitConn

/-- CIRCUIT_CHANGE_COMPLETE: every changed circuit stands (R13, R376). -/
def execCircuitChangeComplete (s : State) : Host.Outcome State Fault Refusal :=
  let v := s.reg zpStat
  go (if flag v 0 then ({ s with circuits := [] } : State).setReg zpStat (v - 1) else s)

end Sys2Proof.Machine
end

