-- ==== Sys2Proof/Machine/Flow.lean ====
section
/-! DEFINITION. Class FLOW (R169 to R178): what each instruction delivers to the block sink. -/

namespace Sys2Proof.Machine

/-- The executing instruction delivers a branch (R169). -/
def State.branch (s : State) (b : Branch) (poison : Bool := false) : State :=
  s.deliver (.branch s.cur.idx b poison)

/-- A RET fires on the stack pointer and the place of the entry below it, once no owner holds its line
(R175, R225). -/
def State.readStack (s : State) (pr : Nat) (f : Nat → Nat → State → State) : State :=
  match s.ready [] pr with
  | .missing => s
  | .off => s.consumeOff [] pr
  | .on _ _ _ =>
    match s.cur.agent.slot with
    | none => s.raise fcAccess
    | some t =>
      let sp := (s.thread s.cur.agent.core t).sp
      let at_ := s.slice s.cur.agent.core t (sp - 8)
      if sp != 256 && !s.homeFree (lineOf at_) then s.recallOwner (lineOf at_)
      else f sp at_ ((s.consume [] pr).fired)

/-- BR (R170). -/
def execBr (p : Pred) (b : BitVec 18) (s : State) : Host.Outcome State Fault Refusal :=
  go (s.fire [] p.code fun _ _ _ st => st.branch (.enter b.toNat))

/-- BRI: the target is checked at the sink (R171). -/
def execBri (p : Pred) (s : State) : Host.Outcome State Fault Refusal :=
  go (s.fire [.L] p.code fun l _ _ st => st.branch (.enter l.toNat))

/-- CALL: the return block comes with opL and is checked at the sink (R174). A control thread has no
stack (R451). -/
def execCall (p : Pred) (b : BitVec 18) (s : State) : Host.Outcome State Fault Refusal :=
  go (s.fire [.L] p.code fun l _ _ st =>
    if st.cur.agent.slot.isNone then st.raise fcAccess else st.branch (.call b.toNat l.toNat))

/-- RET reads the stack entry at sp - 8 as it fires (R175). A control thread has no stack (R451). -/
def execRet (p : Pred) (s : State) : Host.Outcome State Fault Refusal :=
  go (s.readStack p.code fun sp at_ st =>
    if sp = 256 then st.branch (.ret 0) else st.branch (.ret (readLE st.mem at_ 8)) (st.poisonAt at_ 8))

/-- EXIT (R176). -/
def execExit (p : Pred) (s : State) : Host.Outcome State Fault Refusal :=
  go (s.fire [] p.code fun _ _ _ st => st.branch .exit)

/-- SWITCH: the entry of the table that opL selects, the last one by default; `n` is len - 1 (R172). -/
def execSwitch (p : Pred) (n : BitVec 5) (k : Nat) (s : State) : Host.Outcome State Fault Refusal :=
  go (s.fire [.L] p.code fun l _ _ st =>
    st.branch (.enter ((constWord st.consts (k + Nat.min l.toNat n.toNat)).toNat % 2 ^ 18)))

/-- NULL of LSID kind (R177). -/
def execNullLsid (p : Pred) (l : BitVec 5) (s : State) : Host.Outcome State Fault Refusal :=
  go (s.fire [] p.code fun _ _ _ st => st.deliver (.op l.toNat { idx := st.cur.idx, null := true }))

/-- NULL of register kind (R177). -/
def execNullRegister (p : Pred) (v : BitVec 6) (s : State) : Host.Outcome State Fault Refusal :=
  go (s.fire [] p.code fun _ _ _ st => st.deliver (.lvw st.cur.idx v.toNat none))

/-- YIELD (R170). -/
def execYield (p : Pred) (b : BitVec 18) (s : State) : Host.Outcome State Fault Refusal :=
  go (s.fire [] p.code fun _ _ _ st => st.branch (.yield b.toNat))

/-- XPATH: its target is a rare block, so the commit takes the rare path (R170). -/
def execXpath (p : Pred) (b : BitVec 18) (s : State) : Host.Outcome State Fault Refusal :=
  go (s.fire [] p.code fun _ _ _ st => st.branch (.enter b.toNat))

/-- NOP fires and changes nothing (R178). -/
def execNop (p : Pred) (s : State) : Host.Outcome State Fault Refusal :=
  go (s.fire [] p.code fun _ _ _ st => st)

end Sys2Proof.Machine
end

