-- ==== Sys2Proof/Machine/Fpu.lean ====
section
/-! DEFINITION. Classes FPU and CVT (R181 to R196). -/

namespace Sys2Proof.Machine

/-- FADD (R182, R184). -/
def execFadd (p : Pred) (f : FFmt) (r : Rnd) (lm : LMod) (ng : Bool) (t1 t0 : Target) (s : State) : Host.Outcome State Fault Refusal :=
  go (s.fire [.L, .R] p.code fun a b _ st => st.floatResult t0 t1 (fpuAdd f r lm ng a b))

/-- FSUB (R182, R184). -/
def execFsub (p : Pred) (f : FFmt) (r : Rnd) (lm : LMod) (ng : Bool) (t1 t0 : Target) (s : State) : Host.Outcome State Fault Refusal :=
  go (s.fire [.L, .R] p.code fun a b _ st => st.floatResult t0 t1 (fpuSub f r lm ng a b))

/-- FMUL (R182, R184). -/
def execFmul (p : Pred) (f : FFmt) (r : Rnd) (lm : LMod) (ng : Bool) (t1 t0 : Target) (s : State) : Host.Outcome State Fault Refusal :=
  go (s.fire [.L, .R] p.code fun a b _ st => st.floatResult t0 t1 (fpuMul f r lm ng a b))

/-- FFMA: P is the addend (R104, R182). -/
def execFfma (f : FFmt) (r : Rnd) (lm : LMod) (ng : Bool) (t1 t0 : Target) (s : State) : Host.Outcome State Fault Refusal :=
  go (s.fire [.L, .R, .P] 1 fun a b q st => st.floatResult t0 t1 (fpuFma f r lm ng a b q))

/-- FMIN: the rounding mode is ignored (R67, R185). -/
def execFmin (p : Pred) (f : FFmt) (_r : Rnd) (lm : LMod) (ng : Bool) (t1 t0 : Target) (s : State) : Host.Outcome State Fault Refusal :=
  go (s.fire [.L, .R] p.code fun a b _ st => st.floatResult t0 t1 (fpuMin f lm ng a b))

/-- FMAX: the rounding mode is ignored (R67, R185). -/
def execFmax (p : Pred) (f : FFmt) (_r : Rnd) (lm : LMod) (ng : Bool) (t1 t0 : Target) (s : State) : Host.Outcome State Fault Refusal :=
  go (s.fire [.L, .R] p.code fun a b _ st => st.floatResult t0 t1 (fpuMax f lm ng a b))

/-- FCMP (R70, R186). -/
def execFcmp (p : Pred) (f : FFmt) (c : FCond) (t1 t0 : Target) (s : State) : Host.Outcome State Fault Refusal :=
  go (s.fire [.L, .R] p.code fun a b _ st => st.floatResult t0 t1 (fpuCmp f c a b))

/-- FDIV (R68, R187). -/
def execFdiv (p : Pred) (f : SFmt) (r : Rnd) (lm : LMod) (ng : Bool) (t1 t0 : Target) (s : State) : Host.Outcome State Fault Refusal :=
  go (s.fire [.L, .R] p.code fun a b _ st => st.floatResult t0 t1 (fpuDiv f r lm ng a b))

/-- FSQRT (R68, R187). -/
def execFsqrt (p : Pred) (f : SFmt) (r : Rnd) (lm : LMod) (t1 t0 : Target) (s : State) : Host.Outcome State Fault Refusal :=
  go (s.fire [.L] p.code fun a _ _ st => st.floatResult t0 t1 (fpuSqrt f r lm a))

/-- FRCP (R68, R187). -/
def execFrcp (p : Pred) (f : SFmt) (r : Rnd) (lm : LMod) (t1 t0 : Target) (s : State) : Host.Outcome State Fault Refusal :=
  go (s.fire [.L] p.code fun a _ _ st => st.floatResult t0 t1 (fpuRcp f r lm a))

/-- FRSQ (R68, R187). -/
def execFrsq (p : Pred) (f : SFmt) (r : Rnd) (lm : LMod) (t1 t0 : Target) (s : State) : Host.Outcome State Fault Refusal :=
  go (s.fire [.L] p.code fun a _ _ st => st.floatResult t0 t1 (fpuRsq f r lm a))

/-- FEXP2 (R68, R187). -/
def execFexp2 (p : Pred) (f : SFmt) (r : Rnd) (lm : LMod) (t1 t0 : Target) (s : State) : Host.Outcome State Fault Refusal :=
  go (s.fire [.L] p.code fun a _ _ st => st.floatResult t0 t1 (fpuExp2 f r lm a))

/-- FLOG2 (R68, R187). -/
def execFlog2 (p : Pred) (f : SFmt) (r : Rnd) (lm : LMod) (t1 t0 : Target) (s : State) : Host.Outcome State Fault Refusal :=
  go (s.fire [.L] p.code fun a _ _ st => st.floatResult t0 t1 (fpuLog2 f r lm a))

/-- FSINP (R68, R187). -/
def execFsinp (p : Pred) (f : SFmt) (r : Rnd) (lm : LMod) (t1 t0 : Target) (s : State) : Host.Outcome State Fault Refusal :=
  go (s.fire [.L] p.code fun a _ _ st => st.floatResult t0 t1 (fpuSinPi f r lm a))

/-- FCOSP (R68, R187). -/
def execFcosp (p : Pred) (f : SFmt) (r : Rnd) (lm : LMod) (t1 t0 : Target) (s : State) : Host.Outcome State Fault Refusal :=
  go (s.fire [.L] p.code fun a _ _ st => st.floatResult t0 t1 (fpuCosPi f r lm a))

/-- FRND (R188). -/
def execFrnd (p : Pred) (f : SFmt) (r : Rnd) (lm : LMod) (t1 t0 : Target) (s : State) : Host.Outcome State Fault Refusal :=
  go (s.fire [.L] p.code fun a _ _ st => st.floatResult t0 t1 (fpuRnd f r lm a))

/-- FCLASS (R189). -/
def execFclass (p : Pred) (f : SFmt) (t1 t0 : Target) (s : State) : Host.Outcome State Fault Refusal :=
  go (s.fire [.L] p.code fun a _ _ st => st.floatResult t0 t1 (fpuClass f a))

/-- CVT between numeric formats (R71, R192). -/
def execCvt (p : Pred) (src dst : NumTy) (r : Rnd) (sat : Bool) (t1 t0 : Target) (s : State) : Host.Outcome State Fault Refusal :=
  go (s.fire [.L] p.code fun a _ _ st => st.floatResult t0 t1 (cvtResult src dst r sat a))

/-- CVTB to a log format (R81, R193). -/
def execCvtbToLog (p : Pred) (src : SFmt) (lf : LogFmt) (len : BlkLen) (t1 t0 : Target) (s : State) : Host.Outcome State Fault Refusal :=
  go (s.fire [.L, .R] p.code fun a b _ st => st.floatResult t0 t1 (cvtbToLogResult src lf len a b))

/-- CVTB to FP32 (R75, R195). -/
def execCvtbToF32 (p : Pred) (r : Rnd) (lf : LogFmt) (len : BlkLen) (t1 t0 : Target) (s : State) : Host.Outcome State Fault Refusal :=
  go (s.fire [.L, .R] p.code fun a b _ st => st.floatResult t0 t1 (cvtbToF32Result r lf len a b))

/-- CVTP (R196). -/
def execCvtp (p : Pred) (r : Rnd) (bf : Bool) (t1 t0 : Target) (s : State) : Host.Outcome State Fault Refusal :=
  go (s.fire [.L, .R] p.code fun a b _ st => st.floatResult t0 t1 (cvtpResult r bf a b))

end Sys2Proof.Machine
end

