-- ==== Sys2Proof/Machine/Port.lean ====
section
/-! DEFINITION. Incoming requests of the UALink ports, and their links (R14, R244, R352, R377, R378, R426, R434,
R435, R437). -/

namespace Sys2Proof.Machine

/-! ## Admission (R377, R378) -/

def ulCfg (p : Nat) : Nat := 0x30A0000 + 0x100 * p
def ulStat (p : Nat) : Nat := 0x30A0008 + 0x100 * p
def ulAdmit (p : Nat) : Nat := 0x3008000 + 0x8000 * p

/-- The lowest-indexed valid entry of a port whose source and window match (R378). Unlisted entries are
invalid. -/
def State.admissionOf (s : State) (p : Nat) (r : PeerRequest) : Option Admission :=
  let at_ := ulAdmit p
  let es := s.regs.filter (fun e => at_ ≤ e.1 && e.1 < at_ + 0x8000 && (e.1 - at_) % 32 = 0)
  (es.find? (fun e => flag e.2 31 && e.2 % 2 ^ 10 = r.source && bitsOf e.2 21 10 = r.window)).map (fun e =>
    { tenant := bitsOf e.2 27 22, read := flag e.2 28, write := flag e.2 29, atomic := flag e.2 30,
      key := bitsOf e.2 63 32, base := s.reg (e.1 + 8) % 2 ^ 57, len := s.reg (e.1 + 16) })

/-- Bytes that a request touches. -/
def accessSize : PeerAccess → Nat
  | .read n => n
  | .write d _ => d.length
  | .atomic _ n _ _ => n
  | .probe => 0

/-- A request of the accepted subset (R434): within one aligned block of 256 bytes; an atomic aligned.
(log 32, DEDUCED) -/
def requestSupported (r : PeerRequest) : Bool :=
  let n := accessSize r.acc
  match r.acc with
  | .atomic op n _ _ => (n = 4 || (n = 8 && op != .fadd32)) && op != .unsupported && r.off % n = 0
  | _ => 1 ≤ n && r.off % 256 + n ≤ 256

/-- The right of R352 for an access. -/
def accessRight : PeerAccess → Right
  | .read _ => .read
  | .write _ _ => .write
  | .atomic _ _ _ _ => .atomic
  | .probe => .read

/-- The entry gives the right. -/
def Admission.allows (e : Admission) : Right → Bool
  | .read => e.read
  | .write => e.write
  | .atomic => e.atomic && e.write

/-- Where the pieces of a request lie, or why it is refused, or the state in which it waits. -/
inductive PortAt where
  | ok (ps : List (Part × TlbEntry))
  | refused (sub : Nat)
  | wait (s : State)
  deriving Repr

/-- The refusal's subcode. -/
def PortAt.sub : PortAt → Option Nat
  | .refused n => some n
  | _ => none

/-- The state in which it waits. -/
def PortAt.waiting : PortAt → Option State
  | .wait s => some s
  | _ => none

def PortAt.parts : PortAt → List (Part × TlbEntry)
  | .ok ps => ps
  | _ => []

/-- One piece within a line, translated by the die's TLB in the entry's tenant space (R348 to R357, R378):
subcode 5 where the translation fails, 6 where it meets data poison. (log 32, DEDUCED) -/
def State.portPiece (s : State) (d tenant : Nat) (rt : Right) (x : Nat × Nat) : PortAt :=
  if scratchVa < x.1 + x.2 then .refused 5
  else match tlbFind (s.die d).tlb tenant x.1 with
    | none =>
      if !(s.die d).supFail.contains (supPage tenant x.1) then .wait (s.awaitSup d tenant x.1 rt)
      else .refused (match s.walk d tenant x.1 with | .poison _ => 6 | _ => 5)
    | some e => if e.allows rt then .ok [({ pa := e.pa + x.1 % 2 ^ e.lg, len := x.2 }, e)] else .refused 5

/-- Every piece of a request: all of them translate before any data is touched (R378). -/
def State.portPieces (s : State) (d tenant : Nat) (rt : Right) (xs : List (Nat × Nat)) : PortAt :=
  let rs := xs.map (s.portPiece d tenant rt)
  let subs := rs.filterMap PortAt.sub
  let ps := rs.flatMap PortAt.parts
  let lines := ps.map (fun q => lineOf q.1.pa)
  match rs.findSome? PortAt.waiting with
  | some s => .wait s
  | none =>
    if subs.contains 5 then .refused 5
    else if subs.contains 6 then .refused 6
    else if lines.any (fun l => !s.reaches d l) then .wait s
    else match (if rt = .atomic then none else lines.find? (fun l => !s.homeFree l)) with
      | some l => .wait (s.recallOwner l)
      | none => if rt != .write && ps.any (fun q => s.poisonAt q.1.pa q.1.len) then .refused 6 else .ok ps

/-! ## Performing (R244, R434) -/

/-- The instruction whose effect an accepted atomic has. -/
def peerInstr (op : PeerAtomic) (n : Nat) : Instr :=
  let b : BitTy := if n = 8 then .b64 else .b32
  let i : AIntTy := if n = 8 then .i64 else .i32
  let u : AIntTy := if n = 8 then .n64 else .n32
  match op with
  | .add => .aadd .always i .sys 0 0 .none
  | .smin => .amin .always i .sys 0 0 .none
  | .smax => .amax .always i .sys 0 0 .none
  | .umin => .amin .always u .sys 0 0 .none
  | .umax => .amax .always u .sys 0 0 .none
  | .and => .aand .always b .sys 0 0 .none
  | .or => .aor .always b .sys 0 0 .none
  | .xor => .axor .always b .sys 0 0 .none
  | .xchg => .axchg .always b .sys 0 0 .none
  | .cas => .acas b .sys 0 0 .none
  | .fadd32 => .afadd .always .f32 .sys 0 0 .none
  | .unsupported => .nop .always

/-- Bytes of an answer. -/
def PortReply.bytes : PortReply → Nat
  | .data bs => bs.length
  | _ => 0

/-- A port answers: the answer joins its traffic, charged to the tenant of the admission entry that matched the request,
or to tenant 0 where none did (R436). (log 17, DESIGN CHOICE) -/
def State.portAnswer (s : State) (p : Nat) (tenant : Option Nat) (x : PortReply) : State :=
  s.carry { what := .answer x, tenant := tenant.getD 0, size := 0 } [(p, packetSize x.bytes)]

/-- Key of a source at a port. -/
def peerKey (p source : Nat) : Nat := 1024 * p + source % 1024

/-- The completion time of a write that a port has accepted stands with its source (R233, R240). -/
def State.notePeer (s : State) (key line time : Nat) : State :=
  { s with portTimes := mput s.portTimes key (laterTime (mgetD s.portTimes key []) (homeDie line) time) }

/-- Bytes of a write go to their pieces. -/
def State.portWrite (s : State) (key : Nat) : List Part → List Byte → State
  | [], _ => s
  | q :: rest, bs =>
    let s := (s.touchL2 (lineOf q.pa)).writeHome q.pa (bs.take q.len)
    State.portWrite (s.notePeer key (lineOf q.pa) (s.completion (lineOf q.pa))) key rest (bs.drop q.len)

/-- What has become of a request: its port has answered it, or it waits. -/
inductive PortRun where
  | done (s : State)
  | wait (s : State)
  deriving Repr

/-- An accepted request performs (R244, R434): an atomic in the line buffer of core 0 of the port's die, once
it owns the line. -/
def State.portPerform (s : State) (p source tenant : Nat) (acc : PeerAccess) (ps : List Part) : PortRun :=
  let key := peerKey p source
  match acc, ps with
  | .read _, _ =>
    .done ((ps.foldl (fun (st : State) q => st.touchL2 (lineOf q.pa)) s).portAnswer p (some tenant)
      (.data (ps.flatMap (fun q => readBytes s.mem q.pa q.len))))
  | .write d _, _ => .done ((s.portWrite key ps d).portAnswer p (some tenant) (.data []))
  | .atomic op n a b, q :: _ =>
    let c := 16 * portDie p
    (match s.owned c (lineOf q.pa) with
      | none => .wait (s.askLine c (lineOf q.pa))
      | some l =>
        let r := s.atomicAtLine c tenant (peerInstr op n) { r := a, p := b } (fun _ => 0) q.pa n l
        .done ((r.1.notePeer key (lineOf q.pa) l.time).portAnswer p (some tenant) (.data (toLE r.2.t0.toNat n))))
  | _, _ => .done s

/-- A request is refused with a subcode: counted, and for KEY counted again (R378, R398). -/
def State.portRefuse (s : State) (p sub : Nat) (tenant : Option Nat) : State :=
  let s := s.countPort p 0x201 tenant
  (if sub = 2 then s.countPort p 0x202 tenant else s).portAnswer p tenant (.refused sub)

/-- A supported request of an enabled port, by the order of R378, against the entry that it found on its arrival. -/
def State.portAdmit (s : State) (p : Nat) (r : PeerRequest) (entry : Option Admission) : PortRun :=
  let d := portDie p
  let n := accessSize r.acc
  match entry with
  | none => .done (s.portRefuse p 1 none)
  | some e =>
    let t := some e.tenant
    if e.key != r.key then .done (s.portRefuse p 2 t)
    else if e.len < r.off + n then .done (s.portRefuse p 3 t)
    else if !e.allows (accessRight r.acc) then .done (s.portRefuse p 4 t)
    else
      let va := e.base + r.off
      let misaligned := match r.acc with | .atomic _ n _ _ => va % n != 0 | _ => false
      if misaligned then .done ((s.countPort p 0x201 t).portAnswer p t .unsupported)
      else match s.portPieces d e.tenant (accessRight r.acc) (linePieces va n) with
        | .wait s => .wait s
        | .refused sub => .done ((s.portRefuse p sub t).forgetFails d)
        | .ok ps =>
          let poisoned := match r.acc with | .write _ b => b | _ => false
          if poisoned then .done (s.portRefuse p 6 t)
          else (ps.foldl (fun (st : State) q => st.tlbTouchDie d q.2) s).portPerform p r.source e.tenant r.acc (ps.map (·.1))

/-- A request that has arrived at a port: refused while the port is disabled, unsupported outside the subset (R378,
R434, R435, R437). A visibility probe is answered once the completion times of the writes accepted from its source
have passed (R240). -/
def State.portRun (s : State) (p : Nat) (w : PortWait) : PortRun :=
  if !w.on then .done (s.portRefuse p 1 none)
  else if w.req.acc = .probe then
    if s.timesPassed (mgetD s.portTimes (peerKey p w.req.source) []) then .done (s.portAnswer p (w.entry.map (·.tenant)) (.data [])) else .wait s
  else if !requestSupported w.req then .done ((s.countPort p 0x201 (w.entry.map (·.tenant))).portAnswer p (w.entry.map (·.tenant)) .unsupported)
  else s.portAdmit p w.req w.entry

/-- The request at a place of a port's queue goes on: behind the earlier ones of its requester, and not while the
port's die is held (R244, R414). -/
def State.portServe (s : State) (p k : Nat) : State :=
  let q := mgetD s.portQ p []
  match q[k]? with
  | none => s
  | some w =>
    if (q.take k).any (fun v => v.req.source = w.req.source) || s.heldDie (portDie p) then s
    else match s.portRun p w with
      | .wait s => s
      | .done s => { s with portQ := mset s.portQ p (q.eraseIdx k) [] }

/-! ## Deficit round robin (R436) -/

/-- A port is enabled (R435). -/
def State.portOn (s : State) (p : Nat) : Bool := flag (s.reg (ulCfg p)) 31

/-- Queued traffic can move: a circuit is there and is not changing; a port's link is up, and a request leaves only an
enabled port (R13, R435). -/
def State.moves (s : State) (k : Nat) (p : Packet) : Bool :=
  if k < 16 then flag (s.reg (ulStat k)) 0 && (s.portOn k || match p.what with | .answer _ => true | _ => false)
  else s.linked ((k - 16) / 8) ((k - 16) % 8)

/-- The class of traffic on a link: its tenant, or within a circuit the system class, after tenant 63 (R436). -/
def classOn (k : Nat) (p : Packet) : Nat := if 16 ≤ k && p.system then 64 else p.tenant

/-- Weight of a class (R436). -/
def State.weightOf (s : State) (k t : Nat) : Nat :=
  if t = 64 then s.reg 0x3002140 % 256
  else s.reg ((if k < 16 then 0x30A0040 + 0x100 * k else 0x3002100) + 8 * (t / 8)) / 2 ^ (8 * (t % 8)) % 256

/-- The packets that a deficit pays for, and what is left of it (R436). -/
def payFor : Nat → List Packet → List Packet × Nat
  | d, [] => ([], d)
  | d, p :: rest => if p.size ≤ d then let r := payFor (d - p.size) rest; (p :: r.1, r.2) else ([], d)

/-- A packet leaves a link: it goes on to the next one, or has arrived. A port counts the request that it sends, and its
answer is what the peer sees (R398, R436). -/
def State.depart (s : State) (k : Nat) (p : Packet) : State :=
  let s := if k < 16 && p.counted then s.countPort k 0x203 (some p.tenant) else s
  match p.what with
  | .answer x => { s with portReplies := mput s.portReplies k x }
  | _ => s.carry p p.onward

/-- The class that a link visits next: the first with queued traffic from where the round stands, in increasing order; one
of weight 0 is skipped while another of nonzero weight has traffic (R436). -/
def State.visited (s : State) (k : Nat) : Option Nat :=
  let q := (s.link k).queue.filter (s.moves k)
  let open_ := (List.range 65).filter (fun t => q.any (fun p => classOn k p = t))
  let ok := open_.filter (fun t => s.weightOf k t != 0 || open_.all (fun u => s.weightOf k u = 0))
  (ok.find? (fun t => (s.link k).turn ≤ t)) <|> ok.head?

/-- One visit of a round: the class gets its share and sends what its deficit pays for; without queued traffic it keeps
none (R436). (log 17, DESIGN CHOICE: one visit is one step) -/
def State.serveLink (s : State) (k : Nat) : State :=
  match s.visited k with
  | none => s
  | some t =>
    let x := s.link k
    let r := payFor (mgetD x.deficit t 0 + max (s.weightOf k t) 1 * 256)
      (x.queue.filter (fun p => classOn k p = t && s.moves k p))
    let queue := r.1.foldl (fun (q : List Packet) p => q.erase p) x.queue
    let left := if queue.any (fun p => classOn k p = t) then r.2 else 0
    r.1.foldl (fun (st : State) p => st.depart k p)
      (s.setLink k { queue, deficit := mset x.deficit t left 0, turn := (t + 1) % 65 })

/-- UALINK_REQUEST: a request arrives at a port, which checks it once against its tables as they stand, counts it and
serves it, or keeps it waiting: while its die is held, for a translation, a circuit, an owner or its line (R378,
R398, R414, R434). -/
def execUalinkRequest (port : Nat) (r : PeerRequest) (s : State) : Host.Outcome State Fault Refusal :=
  go (if 12 ≤ port || !flag (s.reg (ulStat port)) 0 then s
    else
      let w : PortWait := { req := r, on := flag (s.reg (ulCfg port)) 31, entry := s.admissionOf port r }
      let q := mgetD s.portQ port []
      let s := s.countPort port 0x200 (if w.on then w.entry.map (·.tenant) else none)
      ({ s with portQ := mput s.portQ port (q ++ [w]) } : State).portServe port q.length)

/-! ## Links (R426, R435) -/

/-- Whether a request is outstanding on a port. (log 33, DEDUCED) -/
def Req.onPort (r : Req) (p : Nat) : Bool :=
  match r.kind with
  | .probe q => q = p
  | .remoteRead _ | .remoteWrite _ | .remoteAtomic _ | .remoteNr _ => remotePort r.va = p
  | _ => false

/-- UALINK_LINK_LOSS: every request outstanding on the port times out at once, and the loss is counted (R426).
(log 33, DEDUCED) -/
def execUalinkLinkLoss (port : Nat) (s : State) : Host.Outcome State Fault Refusal :=
  go (if 12 ≤ port then s
    else
      let v := s.reg (ulStat port)
      let s := (s.setReg (ulStat port) (v / 4 * 4 + 2)).countPort port 0x204 none
      (s.reqs.filter (fun e => e.2.onPort port)).foldl (fun (st : State) e =>
        match mget st.reqs e.1 with
        | some r => st.timeOut e.1 r
        | none => st) s)

/-- UALINK_LINK_UP (R435). -/
def execUalinkLinkUp (port : Nat) (s : State) : Host.Outcome State Fault Refusal :=
  let v := s.reg (ulStat port)
  go (if 12 ≤ port || flag v 0 then s else s.setReg (ulStat port) (v + 1))

end Sys2Proof.Machine
end

