-- ==== Sys2Proof/Machine/HostPort.lean ====
section
/-! DEFINITION. The device-memory aperture, the host transfer engine and attestation quotes (R14, R207, R215,
R244, R247, R386, R429 to R433, R439, R440). -/

namespace Sys2Proof.Machine

/-! ## Accesses of the host port, which is attached to die 0 (R14, R429) -/

/-- An address of a region of R207. -/
def inMemory (a : Nat) : Bool :=
  match regionOf a with
  | .dev _ => true
  | .dieScratch _ => true
  | _ => false

/-- Why an access of the host port waits: a circuit that is not there, or an owner to be recalled. -/
def State.hostWait (s : State) (lines : List Nat) : Option State :=
  if lines.any (fun l => !s.reaches 0 l) then some s
  else (lines.find? (fun l => !s.homeFree l)).map s.recallOwner

/-- The part of a host write that lies in a region performs, line by line; the rest writes nothing (R244,
R247, R429). -/
def State.hostWriteAt (s : State) (a : Nat) (bs : List Byte) : State :=
  let ps := (splitLines a bs).filter (fun p => inMemory p.1)
  match s.hostWait (ps.map (fun p => lineOf p.1)) with
  | some s => s
  | none => ps.foldl (fun (st : State) p => st.hostPut p.1 p.2) s

/-- What a host read has returned. -/
def State.hostReturns (s : State) (bs : List Byte) (poison : Bool) : State := { s with hostData := bs, hostPoison := poison }

/-- A host read completes as a whole; one that falls partly in no region returns no data (R429). -/
def State.hostReadAt (s : State) (a n : Nat) : State :=
  let ps := linePieces a n
  if ps.any (fun p => !inMemory p.1) then s.hostReturns [] false
  else match s.hostWait (ps.map (fun p => lineOf p.1)) with
    | some s => s
    | none =>
      (ps.foldl (fun (st : State) p => st.touchL2 (lineOf p.1)) s).hostReturns (readBytes s.mem a n)
        (ps.any (fun p => s.poisonAt p.1 p.2))

/-- Origin of the aperture for an access: that of its arrival (R429). -/
def State.aperOrigin (s : State) : Nat := s.aperBase.getD (s.reg 0x30C0000)

/-- Address of an aperture offset (R429). -/
def State.aperture (s : State) (off : Nat) : Nat := s.aperOrigin + off

/-- An access through the aperture keeps its origin while it waits (R429). -/
def State.atArrival (s : State) (waits : Bool) (t : State) : State :=
  { t with aperBase := if waits then some s.aperOrigin else none }

/-- An access of `n` bytes at an aperture offset waits for a circuit or an owner. -/
def State.apertureWaits (s : State) (off n : Nat) : Bool :=
  let ps := (linePieces (s.aperture off) n).filter (fun p => inMemory p.1)
  (s.hostWait (ps.map (fun p => lineOf p.1))).isSome

/-- A host write waits. -/
def State.hostWriteWaits (s : State) (off n : Nat) : Bool := off < 2 ^ 36 && s.apertureWaits off (min n (2 ^ 36 - off))

/-- A host read waits. -/
def State.hostReadWaits (s : State) (off n : Nat) : Bool :=
  off + n ≤ 2 ^ 36 && (linePieces (s.aperture off) n).all (fun p => inMemory p.1) && s.apertureWaits off n

/-- HOST_WRITE (R244, R429). -/
def execHostWrite (off : Nat) (data : List Byte) (s : State) : Host.Outcome State Fault Refusal :=
  go (s.atArrival (s.hostWriteWaits off data.length)
    (if 2 ^ 36 ≤ off then s else s.hostWriteAt (s.aperture off) (data.take (2 ^ 36 - off))))

/-- HOST_READ (R244, R429). -/
def execHostRead (off n : Nat) (s : State) : Host.Outcome State Fault Refusal :=
  go (s.atArrival (s.hostReadWaits off n) (if 2 ^ 36 < off + n then s else s.hostReadAt (s.aperture off) n))

/-! ## The host transfer engine (R431, R432) -/

def xqBase : Nat := 0x30C0100
def xqCfg : Nat := 0x30C0108
def xqTail : Nat := 0x30C0110
def xqDone : Nat := 0x30C0118
def xqStat : Nat := 0x30C0120

/-- XQ_TAIL_WRITE (R431). -/
def execXqTailWrite (v : Nat) (s : State) : Host.Outcome State Fault Refusal := go (s.setReg xqTail (v % 2 ^ 32))

/-- The engine stops: cause, bytes done, vector 72 (R431, R432). -/
def State.xferStop (s : State) (cause moved : Nat) : State :=
  (({ s with xfer := none } : State).setReg xqStat (2 + 16 * cause + 256 * (moved % 2 ^ 56))).raiseVector 72

/-- Entries of the ring. -/
def State.xqEntries (s : State) : Nat :=
  let v := s.reg xqCfg % 32
  2 ^ (if v < 4 || 16 < v then 4 else v)

/-- Fields of a descriptor; none where a field rule of R431 is broken. -/
def xferOf (b : List Byte) : Option Xfer :=
  let dev := fieldAt b 0 8
  let host := fieldAt b 8 8
  let len := fieldAt b 0x10 8
  let bits := fieldAt b 0x18 8
  if dev % 128 != 0 || host % 128 != 0 || len % 128 != 0 || len < 128 || 2 ^ 36 < len || 4 ≤ bits then none
  else some { dev, host, len, toDev := flag bits 0, side := flag bits 1 }

/-- XFER_DESCRIPTOR_START: the engine takes the next descriptor of its ring (R431, R432). (log 34, DEDUCED) -/
def execXferDescriptorStart (s : State) : Host.Outcome State Fault Refusal :=
  let stat := s.reg xqStat
  let at_ := s.reg xqBase + 32 * (s.reg xqDone % s.xqEntries)
  go (if !flag (s.reg xqCfg) 31 || flag stat 1 || s.xfer.isSome || s.reg xqTail = s.reg xqDone then s
    else if !inMemory at_ then s.xferStop 2 0
    else match s.hostWait [lineOf at_] with
      | some s => s
      | none =>
        if s.poisonAt at_ 32 then s.xferStop 4 0
        else match xferOf (readBytes s.mem at_ 32) with
          | none => s.xferStop 1 0
          | some x => ({ s with xfer := some x } : State).setReg xqStat (stat / 2 * 2 + 1))

/-- Bytes of the descriptor that one line takes on the host's side. -/
def Xfer.unit (x : Xfer) : Nat := if x.side then 8 else 128

/-- The line that the engine moves next. -/
def Xfer.line (x : Xfer) : Nat := lineOf x.dev + x.moved / x.unit

/-- Bytes arrive in host memory; a poisoned completion marks their line (R432). (log 8, DESIGN CHOICE) -/
def State.toHost (s : State) (a : Nat) (bs : List Byte) (poison : Bool) : State :=
  let bad := s.hostBad.filter (· != a / 128)
  { s with host := writeBytes s.host a bs, hostBad := if poison then bad ++ [a / 128] else bad }

/-- The sidecar entry of a line as its 8 bytes, and back (R214). -/
def sideWord (x : Side) : Nat := x.ver % 2 ^ 56 + (if x.dp then 2 ^ 56 else 0) + (if x.vp then 2 ^ 57 else 0)
def sideOfWord (v : Nat) : Side := { ver := v % 2 ^ 56, dp := flag v 56, vp := flag v 57 }

/-- A whole sidecar entry is written (R215, R386, R432). -/
def State.writeSide (s : State) (line v : Nat) : State := { s with side := mset s.side line (sideOfWord v) {} }

/-- One line, or one sidecar entry, moves (R432). (log 8, DESIGN CHOICE) -/
def State.moveLine (s : State) (x : Xfer) : State :=
  let line := x.line
  let h := (x.host + x.moved) % 2 ^ 64
  match x.side, x.toDev with
  | true, true => s.writeSide line (readLE s.host h 8)
  | true, false => s.toHost h (toLE (sideWord (s.sideOf line)) 8) false
  | false, true => s.hostPut (line * 128) (readBytes s.host h 128)
  | false, false => (s.touchL2 line).toHost h (readBytes s.mem (line * 128) 128) (s.poisonAt (line * 128) 128)

/-- Why the engine stops before a line: an address outside the regions, a die that is not frozen, a version
that cannot be read (R432). -/
def State.xferCause (s : State) (x : Xfer) : Option Nat :=
  let line := x.line
  if !inMemory (line * 128) || (x.side && !versioned line) then some 2
  else if x.side && !flag (s.reg 0x20) (homeDie line) then some 3
  else if !x.toDev && (s.sideOf line).vp then some 4
  else none

/-- The host completes the transfer of the line that the engine moves with an error (R432). (log 8, DESIGN CHOICE) -/
def State.hostError (s : State) : State :=
  match s.xfer with
  | none => s
  | some x => match s.xferCause x with
    | some c => s.xferStop c x.moved
    | none => s.xferStop 5 x.moved

/-- XFER_DESCRIPTOR_COMPLETE: the engine moves the next line of its descriptor; after the last one the descriptor is
complete (R430 to R432). (log 34, DEDUCED) -/
def execXferDescriptorComplete (s : State) : Host.Outcome State Fault Refusal :=
  go (match s.xfer with
    | none => s
    | some x =>
      match s.xferCause x with
      | some c => s.xferStop c x.moved
      | none => match s.hostWait [x.line] with
        | some s => s
        | none =>
          let s := s.moveLine x
          let moved := x.moved + x.unit
          if moved < x.len then { s with xfer := some { x with moved } }
          else
            let s : State := { s with xfer := none }
            ((s.setReg xqDone ((s.reg xqDone + 1) % 2 ^ 32)).setReg xqStat (s.reg xqStat - 1)).raiseVector 72)

/-- Writing 1 to HP_XQ_STAT [1]: the stopped descriptor starts again at its first byte (R431, R432). -/
def State.xqResume (s : State) : State := if flag (s.reg xqStat) 1 then s.setReg xqStat 0 else s

/-- XQ_RESTART (R432). -/
def execXqRestart (s : State) : Host.Outcome State Fault Refusal := go s.xqResume

/-! ## Quotes (R439, R440) -/

def attStat : Nat := 0x5040

/-- The nonce, byte 8k + b at byte b of DV_ATT_NONCE[k]. -/
def State.nonce (s : State) : List Byte := (List.range 6).flatMap (fun k => toLE (s.reg (0x5000 + 8 * k)) 8)

/-- A write of DV_ATT_CTL with its bit set: nonce and measurements are taken in one step (R440). -/
def State.quoteGo (s : State) : State :=
  let v := s.reg attStat
  if flag v 0 then s
  else ({ s with quote := some (s.nonce ++ s.meas.flatMap (fun m => toBE m 48)) } : State).setReg attStat (v + 1)

/-- ATTESTATION_GO (R440). -/
def execAttestationGo (s : State) : Host.Outcome State Fault Refusal := go s.quoteGo

/-- The 312 bytes of a quote. (log 2, DESIGN CHOICE) (log 35, DEDUCED) -/
def quoteBytes (part n : Nat) (taken : List Byte) : List Byte :=
  let body := toLE 0x4E445154 4 ++ toLE 0 4 ++ toLE part 8 ++ taken ++ toLE n 8
  body ++ toBE (Config.quoteSignature part body).toNat 96

/-- QUOTE_COMPLETE: the quote is written as one engine write and vector 73 is raised; an address outside
device memory sets DV_ATT_STAT [2] and writes nothing (R430, R440). (log 35, DEDUCED) -/
def execQuoteComplete (s : State) : Host.Outcome State Fault Refusal :=
  go (match s.quote with
    | none => s
    | some taken =>
      let at_ := s.reg 0x5030
      let v := s.reg attStat
      let ended (b : Nat) (s : State) : State :=
        ({ s with quote := none } : State).setReg attStat (let w := v - 1; if flag w b then w else w + 2 ^ b)
      match regionOf at_, regionOf (at_ + 311) with
      | .dev d, .dev e =>
        if d != e then ended 2 s
        else match s.ownedLine at_ 3 with
          | some line => s.recallOwner line
          | none =>
            let n := s.quotes + 1
            let s := (s.writeHome at_ (quoteBytes (s.reg 0) (n % 2 ^ 64) taken)).countDie d 0x10B none 3
            (ended 1 { s with quotes := n }).raiseVector 73
      | _, _ => ended 2 s)

end Sys2Proof.Machine
end

