-- ==== Sys2Proof/Machine/Package.lean ====
section
/-! DEFINITION. Power and heat, power-on, the boot scrub and the reset of a die (R3, R21, R90, R379, R381, R414,
R430, R438, R439, R441, R442, R454). -/

namespace Sys2Proof.Machine

/-! ## Throttle steps (R441, R442) -/

/-- Step at which a core runs: its own, and at least 4 while a junction of its die has reached 100 °C. -/
def State.stepOf (s : State) (c : Nat) : Nat :=
  if 100 ≤ (s.die (dieOf c)).heat then max (s.core c).throttle 4 else (s.core c).throttle

/-- Steps of every core, to see a change. -/
def State.steps (s : State) : List Nat := (List.range 128).map s.stepOf

/-- Cores that run gangs of a tenant. -/
def State.tenantCores (s : State) (t : Nat) : List Nat :=
  let gs := s.gangs.filter (fun g => (s.launch g.2.seq).desc.tenant = t)
  (List.range 128).filter (fun c => gs.any (fun g => g.2.members.any (·.core = c)))

/-- Weight of a tenant in eight registers of eight bytes from an offset on (R436, R441). -/
def State.weight (s : State) (off t : Nat) : Nat := s.reg (off + 8 * (t / 8)) / 2 ^ (8 * (t % 8)) % 256

/-- The first of two ratios, each occupied cores to weight, is greater; a weight of 0 makes it the greatest.
(log 36, DEDUCED) -/
def ratioAbove (a b : Nat × Nat) : Bool := b.2 != 0 && (a.2 = 0 || b.1 * a.2 < a.1 * b.2)

/-- Tenants that occupy cores, with their cores and weights, in increasing number. -/
def State.powerUsers (s : State) : List (List Nat × Nat) :=
  ((List.range 64).map (fun t => (s.tenantCores t, s.weight 0x5110 t))).filter (fun u => !u.1.isEmpty)

/-- The first of a list that no later one beats. -/
def bestUser (beats : Nat × Nat → Nat × Nat → Bool) : List (List Nat × Nat) → Option (List Nat × Nat)
  | [] => none
  | u :: rest => some (rest.foldl (fun best v => if beats (v.1.length, v.2) (best.1.length, best.2) then v else best) u)

/-- A core's own step changed. -/
def State.setThrottle (s : State) (c n : Nat) : State := s.setCore c { s.core c with throttle := n }

/-- What the controller does after a measurement: above the cap it raises, at least 5 % below it lowers (R441).
(log 36, DEDUCED) -/
def State.adjust (s : State) (watts : Nat) : State :=
  let cap := s.reg 0x5100
  let us := s.powerUsers
  if cap < watts then
    match bestUser ratioAbove us with
    | some u => u.1.foldl (fun (st : State) c => st.setThrottle c (min ((st.core c).throttle + 1) 7)) s
    | none => s
  else if 100 * watts ≤ 95 * cap then
    match bestUser (fun a b => ratioAbove b a) (us.filter (fun u => u.1.any (fun c => 0 < (s.core c).throttle))) with
    | some u => u.1.foldl (fun (st : State) c => st.setThrottle c ((st.core c).throttle - 1)) s
    | none => s
  else s

/-- POWER_MEASUREMENT (R430, R441). -/
def execPowerMeasurement (watts : Nat) (s : State) : Host.Outcome State Fault Refusal :=
  let t := (s.setReg 0x5108 (watts % 2 ^ 12)).adjust watts
  go (if t.steps = s.steps then t else t.raiseVector 74)

/-- THERMAL_THRESHOLD: the hottest junction of a die stands at a temperature: step 4 from 100 °C on, held from
110 °C until it has fallen to 95 °C (R414, R430, R442). -/
def execThermalThreshold (die celsius : Nat) (s : State) : Host.Outcome State Fault Refusal :=
  let x := s.die die
  let hot := if 110 ≤ celsius then true else if celsius ≤ 95 then false else x.hot
  let t := ((s.setDie die { x with heat := celsius, hot }).sendHeld).startFreezes
  go (if t.steps = s.steps && hot = x.hot && (100 ≤ celsius) = (100 ≤ x.heat) then t else t.raiseVector 74)

/-- DV_THERM (R442). -/
def State.therm (s : State) : Nat :=
  (List.range 8).foldl (fun n d =>
    n + (if (s.die d).hot then 2 ^ (8 + d) else 0)
      + 2 ^ (3 * d + 16) * ((List.range 16).foldl (fun m i => max m (s.stepOf (16 * d + i))) 0)) 0
    + min ((List.range 8).foldl (fun m d => max m (s.die d).heat) 0) 255

/-! ## Power-on and the boot scrub (R3, R438, R439, R454) -/

/-- What stays of a state through power-on: fuses, keys, host memory, and the model's own fields. -/
def State.coldStart (s : State) : State :=
  { State.reset with
    fuses := s.fuses, keys := s.keys, host := s.host, hostBad := s.hostBad
    agenda := s.agenda, cur := s.cur, freeCtr := s.freeCtr }

/-- Every die runs a control-core image. (log 27, DEDUCED) -/
def State.bootImage (s : State) (n : Nat) : State :=
  (List.range 8).foldl (fun (st : State) d => st.setDie d { st.die d with ccImage := some n }) s

/-- Verification failed: every die stays in reset (R438). -/
def State.bootRefused (s : State) : State :=
  (List.range 8).foldl (fun (st : State) d => st.setReg (dsReg d 0x18) 0) (s.setReg 0x5048 2)

/-- The bytes of an image that the package firmware store gives as words. -/
def wordBytes (ws : List W32) : List Byte := ws.flatMap (fun w => toLE w.toNat 4)

/-- POWER_ON: Exnisum verifies the package management firmware, of whose format the outside gives the verdict and the
digest, and the supervisors' and the control cores' PRIV images under the firmware key slots; each accepted image
extends M1 at its first acceptance (R90, R438, R439, R454). (log 27, DEDUCED) -/
def execPowerOn (ok : Bool) (m0 : List Byte) (sup cc : List W32) (s : State) : Host.Outcome State Fault Refusal :=
  let s := s.coldStart
  go (match ok, acceptImage s.keys true (wordBytes sup), acceptImage s.keys true (wordBytes cc) with
    | true, .ok fw, .ok im =>
      let r := (((s.measure 0 (beNat m0)).keepImage fw).1).keepImage im
      (r.1.bootImage r.2).setReg 0x5048 1
    | _, _, _ => s.bootRefused)

/-- BOOT_SCRUB_COMPLETE: every scrubbed item, device memory, its sidecars and the die scratchpads, holds zero, and
DV_SCRUB says so (R3, R146, R438). (log 30, DEDUCED) -/
def execBootScrubComplete (s : State) : Host.Outcome State Fault Refusal :=
  go (if !flag (s.reg 0x5048) 0 || flag (s.reg 0x010) 0 then s
    else
      let s := { s with
        mem := s.mem.filter (fun e => !inMemory e.1)
        side := []
        poisoned := s.poisoned.filter (fun p => p.1 != SoftUnit.dieScratch) }
      s.setReg 0x010 1)

/-! ## DIE_RESET (R2, R146, R379, R381, R418) -/

/-- A register of the block of a die or of one of its cores. -/
def inBlock (d off : Nat) : Bool :=
  (dsReg d 0 ≤ off && off < dsReg d 0 + 0x10000) || (kcReg (16 * d) 0 ≤ off && off < kcReg (16 * d) 0 + 0x100000)

/-- An engine context belongs to a die. -/
def onDie (d : Nat) (k : ReqKind) : Bool := match k with | .engine ctx => ctxDie ctx = d | _ => false

/-- A message that a reset of a die takes away: one of its own cores, or one about a line homed there that only
an owner can use. A write of another die that is on its way to it stays. -/
def goneMsg (d : Nat) : Msg → Bool
  | .write (.engine ctx) c _ _ => dieOf c = d || ctxDie ctx = d
  | .write _ c _ _ => dieOf c = d
  | .ownReq c _ => dieOf c = d
  | .grant c line _ _ _ => dieOf c = d || homeDie line = d
  | .recall c line => dieOf c = d || homeDie line = d
  | .back c line _ _ _ => dieOf c = d || homeDie line = d
  | .done _ _ c _ _ => dieOf c = d
  | .nrAck a _ _ _ _ _ _ => a.die = d

/-- A port of a die, or a circuit out of it. -/
def linkOf (d k : Nat) : Bool := if k < 16 then portDie k = d else (k - 16) / 8 = d

/-- L2 lines of a die are gone, and its cores own nothing. -/
def resetL2 (d : Nat) (m : Map L2Line) : Map L2Line :=
  (m.filter (fun e => homeDie e.1 != d)).map (fun e =>
    if (e.2.owner.map dieOf) = some d then (e.1, { e.2 with owner := none }) else e)

/-- Everything of a die at its reset value; its control-core image stays. (log 28, DEDUCED) -/
def State.clearDie (s : State) (d : Nat) : State :=
  { s with
    dies := mput s.dies d { ccImage := (s.die d).ccImage, heat := (s.die d).heat, hot := (s.die d).hot }
    cores := (s.cores.filter (fun e => dieOf e.1 != d)).map (fun e =>
      (e.1, { e.2 with alb := e.2.alb.filter (fun l => homeDie l.line != d) }))
    gangs := s.gangs.filter (fun g => g.2.die != d)
    reqs := s.reqs.filter (fun e => e.2.agent.die != d && !onDie d e.2.kind)
    late := s.late.filter (fun e => e.2.1.agent.die != d)
    msgs := s.msgs.filter (fun e => !goneMsg d e.2)
    links := (s.links.filter (fun e => !linkOf d e.1)).map (fun e => (e.1, { e.2 with queue := e.2.queue.filter (fun p =>
      match p.what with | .msg n => (mget s.msgs n).any (fun m => !goneMsg d m) | _ => true) }))
    invals := s.invals.filter (fun e => e.2.agent.die != d)
    regs := s.regs.filter (fun e => !inBlock d e.1)
    mem := s.mem.filter (fun e => dieOfPlace e.1 != d)
    side := s.side.filter (fun e => homeDie e.1 != d)
    l2 := resetL2 d s.l2
    poisoned := s.poisoned.filter (fun p => dieOfPlace p.2 != d)
    hostTimes := mdel s.hostTimes d
    portTimes := s.portTimes.map (fun e => (e.1, mdel e.2 d))
    lqEntries := s.lqEntries.map (fun e => (e.1, { e.2 with after := mdel e.2.after d }))
    pushes := s.pushes.map (fun e => { e with after := mdel e.after d })
    hostToks := s.hostToks.map (fun e => (e.1, mdel e.2 d))
    tasks := s.tasks.map (fun e => (e.1, e.2.1, { e.2.2 with after := mdel e.2.2.after d })) }

/-- DIE_RESET: the die starts again with its clock at 0, and every other die is in fallback for it (R379, R381).
Where the firmware has been refused, it stays in reset (R438). (log 28, DEDUCED) -/
def State.resetDie (s : State) (d : Nat) : State :=
  let s := s.clearDie d
  let s := (List.range 8).foldl (fun (st : State) j =>
    if j = d then st else st.setClkErr j d (st.reg (clkReg j d 0x18) % 2 ^ 16) true 0) s
  if flag (s.reg 0x5048) 1 then s.setReg (dsReg d 0x18) 0 else s

/-- DIE_RESET; a change of a throttle step raises its vector (R146, R442). -/
def execDieReset (die : Nat) (s : State) : Host.Outcome State Fault Refusal :=
  go (if 8 ≤ die then s
    else
      let t := s.resetDie die
      if t.steps = s.steps then t else t.raiseVector 74)

end Sys2Proof.Machine
end

