-- ==== Sys2Proof/Machine/Readback.lean ====
section
/-! DEFINITION. What the areas of the host state window hold that R425 names without a layout: the records that the
state cards of the spec lay out, field by field. The place of each in its area is a free value of the part (R21,
R217 to R221, R224, R300, R315, R319, R327, R334, R340, R355, R425). (log 49, DESIGN CHOICE) -/

namespace Sys2Proof.Machine

def bit (b : Bool) (k : Nat) : Nat := if b then 2 ^ k else 0

/-! ## Thread context (R459) -/

/-- Bytes 0x000 to 0x1CF of a thread's context. -/
def contextBytes (x : Thread) : List Byte :=
  let park : List Byte := match x.park with | some k => parkBytes k | none => toLE 0 32
  let slots := (List.range 8).flatMap (fun i =>
    let w := mgetD x.wait i {}
    toLE w.ctx 8 ++ toLE w.val 8)
  let remote := x.remote.foldl (fun n p => n + 2 ^ p) 0
  let arr := (List.range 16).flatMap (fun q => toLE ((mget x.arrivals q).elim (2 * mgetD x.arrRest q 0) (fun ph => 1 + 2 * (ph % 2 ^ 16))) 4)
  park ++ toLE x.blk 4 ++ toLE x.sp 4 ++ toLE (if x.ordered then 1 else 0) 1
    ++ toLE (x.skip.elim x.skipRest (fun i => i % 128 + 128)) 1 ++ toLE 0 6 ++ toLE x.horizon 8 ++ toLE remote 2 ++ toLE 0 6
    ++ slots ++ (List.range 16).flatMap (fun q => toLE (mgetD x.spos q 0) 4) ++ watchBytes x.watch
    ++ toLE (if x.watchOv then 1 else 0) 8 ++ toLE 0 8 ++ arr

/-! ## Scheduler area 0x07 with the tile holders, for which the pages of area 0x0C leave no room (R294, R327, R334) -/

/-- State code of a slot record. -/
def ThState.card : ThState → Nat
  | .empty => 0 | .waiting => 1 | .held _ => 2 | .admitted => 3 | .commit => 4 | .rare => 5 | .parked => 6 | .exited => 7

/-- A slot record: state, scheduler entry, age, yield pending, branch pending. One that is no member of an entry shows
the number of the lowest free one, which holds nothing (R327, R329). (log 49, DESIGN CHOICE) -/
def State.slotCard (s : State) (c t : Nat) : Nat :=
  let k := s.core c
  let x := s.thread c t
  let e := (k.entries.find? (fun e => (s.members c e.2).contains t)).map (·.1)
  x.st.card + e.getD ((freeEntry k).getD 255) % 256 * 2 ^ 3 + x.age % 128 * 2 ^ 11 + bit x.yieldPending 18 + bit (x.st = .commit && k.entryWait.contains t) 19

/-- A scheduler entry. -/
def State.entryCard (s : State) (c : Nat) (e : SEntry) : Nat :=
  1 + e.blk % 2 ^ 18 * 2 + e.wg % 64 * 2 ^ 19 + e.role % 4 * 2 ^ 25 + (s.members c e).length % 2 ^ 13 * 2 ^ 27
    + s.oldestAge c e % 128 * 2 ^ 40 + bit e.blocked 47 + e.urgentSince.getD 0 % 2 ^ 32 * 2 ^ 48

/-- An instance record: the origin is that of its first footprint copy, the column skip that of the copy which has
one. -/
def instCard (x : Inst) : Nat :=
  let o := x.origins.headD (0, 0, none)
  let skip := x.origins.findSome? (·.2.2)
  1 + bit x.admitting.isSome 1 + bit x.retiring 2 + x.blk % 2 ^ 18 * 2 ^ 3 + x.lslot % 64 * 2 ^ 21
    + (x.width.log2 - 2) % 8 * 2 ^ 27 + o.1 % 16 * 2 ^ 30 + o.2.1 % 16 * 2 ^ 34 + bit skip.isSome 38
    + skip.getD 0 % 16 * 2 ^ 39 + x.frames % 2 ^ 11 * 2 ^ 43 + x.lru % 2 ^ 32 * 2 ^ 54

def State.schedulerCards (s : State) (c : Nat) : List Nat :=
  let k := s.core c
  k.threads.flatMap (fun e => [e.1, s.slotCard c e.1]) ++ k.entries.flatMap (fun e => [e.1, s.entryCard c e.2])
    ++ k.wgs.flatMap (fun e => e.1 :: e.2.skips) ++ k.tiles.flatMap (fun e => [e.1, 64 + e.2]) ++ k.insts.flatMap (fun e => [e.1, instCard e.2])

/-! ## Tile area 0x08 (R21, R53, R334, R353, R421) -/

def StageState.card : StageState → Nat
  | .empty => 0 | .receiving => 1 | .checked => 2 | .rejected => 3

def placedCards (x : Placed) : List Nat :=
  [x.word.toNat, x.ext.elim 0 (·.toNat), x.col, x.row, x.station] ++ x.routes.flatMap (fun r => r.elim [0] (1 :: ·))

def stagingCards (x : Staging) : List Nat :=
  x.st.card :: x.reloc :: x.crc.toNat :: x.words.map (·.toNat) ++ x.placed.flatMap placedCards

/-- A frame: busy, generation, thread slot. -/
def frameCard (f : Frame) : Nat := bit f.slot.isSome 0 + f.gen % 512 * 2 + f.slot.getD 0 % 8192 * 2 ^ 10

/-- What a translation entry holds. -/
def tlbCards (e : TlbEntry) : List Nat :=
  [e.tenant, e.va, e.lg, e.pa, bit e.r 0 + bit e.w 1 + bit e.a 2 + e.lease * 8 + bit e.scratch 5]

/-- The tile at an index: whether it is fused off, its staging areas and active configurations, the edge pools and
frame tables that the core's instances hold on it, its micro-TLB. -/
def State.tileCards (s : State) (c idx : Nat) : List Nat :=
  let k := s.core c
  let mine (key : Nat) : Bool := key / 8 = idx
  let here (x : Inst) (i lane : Nat) : Bool :=
    let t := tileOf (s.image x.img) x i lane
    t.2 * 16 + t.1 = idx
  bit (mget s.fuses c = some (idx % 16, idx / 16)) 0
    :: ((k.staging.filter (fun e => mine e.1)).flatMap (fun e => e.1 :: stagingCards e.2)
      ++ (k.active.filter (fun e => mine e.1)).flatMap (fun e => e.1 :: stagingCards e.2)
      ++ k.insts.flatMap (fun e =>
        e.1 :: (e.2.edges.filter (fun q => q.2.any (fun tk => here e.2 (tk.dst / 4) (q.1 / 256)))).flatMap (fun q =>
            [q.1, q.2.length])
          ++ e.2.ftab.flatMap (fun f => [f.1, frameCard f.2]))
      ++ (mgetD k.microTlb idx []).flatMap tlbCards)

/-! ## Sluice area 0x06, line buffer and window area 0x0D with the core TLB (R218, R224, R300, R310, R353) -/

/-- Producer and consumer role of a declared sluice (R300). -/
def roleCards (im : Image) (q : Nat) : List Nat := (im.sluices.find? (·.q = q)).elim [] (fun d => [d.producer, d.consumer])

/-- A sluice: its pointers, its allowance and its entries. -/
def sluiceCards (x : Sluice) : List Nat :=
  let pops := (x.entries.filter (·.rsv.isSome)).length
  [x.depth, x.head, x.entries.length, pops, x.pushRsv, x.allow, x.allowRsv]
    ++ x.entries.flatMap (fun e => [e.handle.toNat, e.rsv.elim 0 (· + 1)])

/-- The sluices of a workgroup with their roles, and its barrier slots and receive barrier, for which R459 leaves no
room (R300, R387). -/
def State.sluiceArea (s : State) (c b : Nat) : List Nat :=
  let w := s.wg c b
  let im := s.image (s.launch (s.gang w.gang).seq).img
  w.sluices.flatMap (fun q => q.1 :: roleCards im q.1 ++ sluiceCards q.2)
    ++ w.barriers.flatMap (fun e => [e.1, 1 + 2 * (e.2.off / 16)]) ++ [w.recvBar.elim 0 (16 + ·)]

def byteCards (m : Map Byte) : List Nat := m.flatMap (fun b => [b.1, b.2.toNat])

def windowCards (x : Window) : List Nat :=
  x.base :: x.head :: x.tail :: (x.units ++ x.lines.flatMap (fun l =>
    [l.1, l.2.expiry, l.2.pline, bit l.2.valid 0 + bit l.2.dirty 1 + bit l.2.busy 2, l.2.rsv] ++ byteCards l.2.data))

def chanCards (e : ChEntry) : List Nat := [e.elem.elim 0 (·.toNat), e.elem.elim 0 (fun _ => 1), e.marker.elim 0 (· + 1)]

def State.lineCards (s : State) (c : Nat) : List Nat :=
  let k := s.core c
  k.alb.flatMap (fun l => [l.line, l.ver, bit l.modified 0] ++ l.data.map (·.toNat)) ++ k.tlb.flatMap tlbCards
    ++ k.wgs.flatMap (fun w => w.1 :: (w.2.windows.flatMap (fun p => p.1 :: windowCards p.2)
      ++ w.2.chans.flatMap (fun q => q.1 :: q.2.flatMap chanCards) ++ w.2.chanEnds.flatMap (fun q => q.1 :: q.2)))

/-! ## L2 area 0x20 (R217) -/

/-- The lines of a set of a slice: line, data and version, horizon and owner. -/
def State.l2Cards (s : State) (d idx : Nat) : List Nat :=
  let at_ := (idx / 16384, idx / 16 % 1024)
  (s.l2.filter (fun e => e.2.present && homeDie e.1 = d && sliceSet e.1 = at_)).flatMap (fun e =>
    [e.1, e.2.horizon, e.2.owner.elim 0 (· + 1), sideWord (s.sideOf e.1)] ++ (s.lineData e.1).map (·.toNat))

/-! ## Engines, pager, culverts (R315, R319, R353 to R355, R384) -/

/-- A context: its timeline, its issue count, its queue and its progress with the status of the command that completed
last, and for the spillway the counts of the command that runs (R364). -/
def engineCards (g : Engine) : List Nat :=
  [g.timeline, g.issued, g.last, g.rsv, g.queue.length] ++ g.done ++ g.queue.flatMap (fun k =>
    [k.no, k.tenant, k.l.toNat, k.r.toNat, bit k.running 0 + bit k.stopped 1, k.status, k.todo.length] ++ k.report)

def Right.card : Right → Nat
  | .read => 0 | .write => 1 | .atomic => 2

def agentCard : Agent → Nat
  | .fab c t => c * 8192 + t
  | .rare c t => 2 ^ 20 + c * 8192 + t
  | .ctl c => 2 ^ 21 + c
  | .sup d => 2 ^ 22 + d

/-- Requester and virtual address of a fault token. -/
def waiterCards (page : Nat) : Waiter → List Nat
  | .agent a idx va => [agentCard a, idx, va % 2 ^ 57]
  | .eng ctx va => [2 ^ 23 + ctx, 0, va]
  | .window c w p => [2 ^ 24 + c * 64 + w / 128, p, page]
  | .nr c n va => [2 ^ 25 + c, n, va]

/-- A fault token: tenant, virtual address, access kind and requester. -/
def tokenCards (f : FaultTok) : List Nat :=
  f.tenant :: f.page :: f.acc.card :: (match f.stage with | .queued => 0 | .filling .. => 1 | .escalated => 2)
    :: f.waiters.flatMap (waiterCards f.page)

/-- A walk in flight. -/
def walkCards (w : Walk) : List Nat := w.tenant :: w.va :: w.acc.card :: w.waiters.flatMap (waiterCards w.va)

/-- The fault tokens of a die, the walks of its walker and its TLB (R353, R355). -/
def State.pagerCards (s : State) (d : Nat) : List Nat :=
  let x := s.die d
  x.faults.flatMap (fun e => e.1 :: tokenCards e.2) ++ (x.walks.take 8).flatMap walkCards ++ x.tlb.flatMap tlbCards

/-- A culvert's write and read counts, its end flag and its credits. -/
def culvertCards (x : Culvert) : List Nat :=
  [x.written, x.read, bit x.ended 0, x.cap - (x.written - x.read) - x.rsv]

/-- Deficit counters of the ports of a die and of its circuits (R436). -/
def State.linkCards (s : State) (d : Nat) : List Nat :=
  [d, d + 8].flatMap (fun p => if p < 12 then (List.range 64).map (mgetD (s.link p).deficit · 0) else [])
    ++ (List.range 8).flatMap (fun b => (List.range 65).map (mgetD (s.link (circuitOf d b)).deficit · 0))

def State.engineArea (s : State) (d : Nat) : List Nat :=
  let x := s.die d
  (List.range 4).flatMap (fun e => engineCards (mgetD x.copy e {})) ++ engineCards x.coll ++ engineCards x.spill
    ++ engineCards x.pager ++ x.launchTl.flatMap (fun e => e.1 :: engineCards e.2)
    ++ (List.range 16).flatMap (fun i => engineCards (s.core (d * 16 + i)).loadPipe ++ engineCards (s.core (d * 16 + i)).writer)
    ++ s.linkCards d

/-! ## Launches, gang contexts, tasks (R340, R347, R395) -/

def descCards (x : Desc) : List Nat :=
  [x.image, x.argBlock, x.gangs, x.w, x.h, x.n, x.prio, bit x.task 0 + bit x.tval 1, x.tenant, x.dieMask, x.timeline, x.awaited,
    x.taskId, x.depA, x.depASlot, bit x.depAValid 0, x.depB, x.depBSlot, bit x.depBValid 0, x.completion]

def launchCards (d : Nat) (l : Launch) : List Nat :=
  [mgetD l.nrOut d 0, l.queue, l.tlNo, l.prio, l.retired, l.faultCount] ++ descCards l.desc ++ l.placed.flatMap (fun e => [e.1, e.2])

/-- A task entry: id, masks and flags; the slot values; the descriptor. -/
def taskCards (id : Nat) (t : Task) : List Nat :=
  (id % 2 ^ 32 + t.filled % 256 * 2 ^ 32 + t.expected % 256 * 2 ^ 40 + bit t.desc.isSome 48 + bit t.error 49)
    :: (t.values.map (·.toNat) ++ t.desc.elim [] (fun x => descCards x.1))

/-- Argument slots of the gangs of a die, and the contexts that it has saved. -/
def State.contextCards (s : State) (d : Nat) : List Nat :=
  (s.gangs.filter (fun e => e.2.die = d)).flatMap (fun e => e.1 :: (List.range 32).map (fun i => (mgetD e.2.args i 0).toNat))
    ++ (s.die d).saved.flatMap (fun g => g.gang :: g.wgs.flatMap (fun w =>
      w.threads.flatMap (fun t => t.1 :: t.2.st.card :: ((contextBytes t.2).map (·.toNat) ++ (t.2.regs.map (fun r => r.2.toNat))))
        ++ byteCards w.scratch ++ w.wg.sluices.flatMap (fun q => q.1 :: sluiceCards q.2)
        ++ w.recs.flatMap (fun r => r.1 :: (obrecBytes r.2.1).map (·.toNat) ++ byteCards r.2.2.1)
        ++ w.tiles.flatMap (fun t => t.1 :: byteCards t.2.1)))

/-! ## An area -/

/-- The records of a selected item. -/
def State.cards (s : State) (area c d idx : Nat) : List Nat :=
  match area with
  | 0x06 => s.sluiceArea c (idx * 128)
  | 0x07 => s.schedulerCards c
  | 0x08 => s.tileCards c idx
  | 0x0D => s.lineCards c
  | 0x20 => s.l2Cards d idx
  | 0x23 => s.engineArea d
  | 0x24 => s.pagerCards d
  | 0x25 => s.culverts.flatMap (fun e => e.1 :: culvertCards e.2)
  | 0x26 => s.launches.flatMap (fun e => e.1 :: launchCards d e.2)
  | 0x27 => s.contextCards d
  | _ => s.tasks.flatMap (fun e => e.1 :: taskCards e.2.1 e.2.2)

end Sys2Proof.Machine
end

