-- ==== Sys2Proof/Machine/Window.lean ====
section
/-! DEFINITION. The host state window (R133, R138, R214 to R216, R227, R386, R402, R403, R414, R416, R424, R425,
R451, R459, R460). -/

namespace Sys2Proof.Machine

/-! ## The registers (R424) -/

def hswSel : Nat := hswReg 0
def hswIndex : Nat := hswReg 8
def hswStat : Nat := hswReg 0x10

/-- A bit of HP_HSW_STAT is set. -/
def State.hswFlag (s : State) (k : Nat) : State :=
  let v := s.reg hswStat
  if flag v k then s else s.setReg hswStat (v + 2 ^ k)

/-- The selected area, core, die and index. -/
structure Pick where
  area : Nat
  core : Nat
  die : Nat
  idx : Nat
  deriving DecidableEq, Repr

def State.hswPick (s : State) : Pick :=
  let v := s.reg hswSel
  { area := v % 256, core := bitsOf v 14 8, die := bitsOf v 10 8, idx := s.reg hswIndex }

/-- Areas whose contents the spec names without a layout. -/
def freeArea (area : Nat) : Bool :=
  [0x06, 0x07, 0x08, 0x0D, 0x20, 0x23, 0x24, 0x25, 0x26, 0x27, 0x40].contains area

/-- Whether the table of R425 has the area and the index. -/
def State.hswValid (s : State) (k : Pick) : Bool :=
  match k.area with
  | 0x01 | 0x02 | 0x03 => k.idx < 8192
  | 0x04 => k.idx / 65536 < 8192
  | 0x05 | 0x0B => k.idx < 256
  | 0x06 => k.idx < 64
  | 0x08 => k.idx < 160
  | 0x0A => k.idx < 2
  | 0x0C => k.idx < 128
  | 0x0E => k.idx % 256 < 2 && k.idx < 512
  | 0x20 => k.idx < 2 ^ 20
  | 0x21 => k.idx < devBytes / 65536
  | 0x22 => k.idx < 8192
  | 0x24 => k.idx = 0
  | 0x41 => inRegion (k.idx * 4096) 4096
  | 0x09 => s.reg (dsReg k.die 0x480) != 0
  | a => freeArea a

/-! ## Thread context (R459) -/

/-- What R459 says of a byte of the context. -/
inductive CtxByte where
  | writable | fixed | zero
  deriving DecidableEq, Repr

/-- The block pointer is writable while the thread is Parked without partial commit. (log 37, DEDUCED) -/
def ctxByte (x : Thread) (o : Nat) : CtxByte :=
  let plain : Bool := match x.st, x.park with
    | .parked, some k => k.partialAt.isNone
    | _, _ => false
  if o < 0x20 then .fixed
  else if o < 0x24 then (if plain then .writable else .fixed)
  else if o < 0x28 then .writable
  else if o = 0x28 then .fixed
  else if o = 0x29 then .writable
  else if o < 0x30 then .zero
  else if o < 0x3A then .fixed
  else if o < 0x40 then .zero
  else if o < 0xC0 then (if 2 ≤ o % 16 && o % 16 < 8 then .zero else .writable)
  else if o < 0x181 then .writable
  else if o < 0x190 then .zero
  else if o < 0x1D0 then .writable
  else .zero

/-- A watch set without the invalid and zero entries at its end. -/
def trimWatch (ws : List Watch) : List Watch :=
  (ws.reverse.dropWhile (fun w => w = { line := 0, ver := 0, valid := false })).reverse

/-- A thread with a context page of new bytes, which differ from its own in writable bytes only. -/
def withContext (x : Thread) (pg : List Byte) : Thread :=
  let n (o k : Nat) : Nat := fieldAt pg o k
  let slots := (List.range 8).foldl (fun m i =>
    mset m i { ctx := n (0x40 + 16 * i) 2, val := n (0x48 + 16 * i) 8 } ({} : WaitSlot)) x.wait
  let spos := (List.range 16).foldl (fun m q => mset m q (n (0xC0 + 4 * q) 4) 0) x.spos
  let watch := trimWatch ((List.range 8).map (fun i =>
    { line := bitsOf (n (0x100 + 16 * i) 8) 56 7, ver := n (0x108 + 16 * i) 7, valid := flag (n (0x100 + 16 * i) 1) 0 }))
  let arr : Map Nat := (List.range 16).filterMap (fun q =>
    if flag (n (0x190 + 4 * q) 1) 0 then some (q, bitsOf (n (0x190 + 4 * q) 4) 16 1) else none)
  let rest := (List.range 16).foldl (fun m q =>
    mset m q (if flag (n (0x190 + 4 * q) 1) 0 then 0 else bitsOf (n (0x190 + 4 * q) 4) 16 1) 0) x.arrRest
  { x with
    blk := n 0x20 4 % 2 ^ 18
    sp := n 0x24 4
    skip := if flag (n 0x29 1) 7 then some (n 0x29 1 % 128) else none
    skipRest := if flag (n 0x29 1) 7 then 0 else n 0x29 1 % 128
    wait := slots
    spos := spos
    watch := watch
    watchOv := flag (n 0x180 1) 0
    arrivals := arr
    arrRest := rest }

/-! ## Records and progress of the matrix unit (R460) -/

/-- First row and row count of a command of the load pipe. -/
def loadRange (k : Cmd) : Nat × Nat :=
  match k.instr with
  | .mldKv .. => (0, 64)
  | _ => (k.l.toNat % 2 ^ 20, k.r.toNat % 2 ^ 20)

/-- Row of the tile, or line of the page, that a command of the writer works on next. -/
def writerNext (k : Cmd) : Nat :=
  let places := mgetD k.vals 3 []
  places.getD (places.length - k.todo.length) 0

/-- Number, state code and command of a context: 0 idle, 1 running, 2 stopped. -/
def State.progress (s : State) (ctx : Nat) : Option (Nat × Cmd) :=
  match s.headCmd ctx with
  | some k => if k.stopped then some (2, k) else if k.running then some (1, k) else none
  | none => none

/-- The page of area 0x0A, index 0. -/
def State.matrixPage (s : State) (c : Nat) : List Byte :=
  let recs := (List.range 64).flatMap (fun x => match mget (s.core c).obrecs x with
    | some r => obrecBytes r
    | none => toLE 0 32)
  let load := match s.progress (ctxLoad c) with
    | some (st, k) =>
      let rec_ := match k.instr with | .mld _ _ _ x _ => x.toNat | .mldKv _ _ x _ => x.toNat | _ => 0
      let r := loadRange k
      toLE k.no 8 ++ toLE (rec_ + 2 ^ 8 * st + 2 ^ 12 * r.1 + 2 ^ 32 * r.2) 8
    | none => toLE 0 16
  let kind (i : Instr) : Nat := match i with
    | .mst _ (.ob16 _) .. => 1
    | .mst _ (.obbf _) .. => 1
    | .amass .. => 2
    | _ => 0
  let wr := match s.progress (ctxWriter c) with
    | some (st, k) => toLE k.no 8 ++ toLE (kind k.instr + 2 ^ 8 * st + 2 ^ 12 * (writerNext k % 2 ^ 20)) 8
    | none => toLE 0 16
  recs ++ load ++ wr

/-! ## Reading (R386, R424, R425) -/

/-- Bytes `o` to `o + n - 1` of a page: units that carry poison read as zero, and are reported. (log 37, DEDUCED) -/
def unitsOf (get : Nat → Byte) (bad : Nat → Bool) (o n : Nat) : List Byte × Bool :=
  let xs := (List.range n).map (fun i => if bad (o + i) then none else some (get (o + i)))
  (xs.map (·.getD 0), xs.any (·.isNone))

/-- Bytes of memory at an address. -/
def State.shownMem (s : State) (a o n : Nat) : List Byte × Bool :=
  unitsOf (fun i => readByte s.mem (a + i)) (fun i => s.poisonAt (a + i) 1) o n

/-- Bytes of the operand buffer or the accumulator. -/
def State.shownUnit (s : State) (u : SoftUnit) (size a o n : Nat) : List Byte × Bool :=
  unitsOf (fun i => readByte s.mem (a + i)) (fun i => s.poisoned.contains (u, (a + i) / size * size)) o n

/-- Bytes of a list. -/
def shownList (bs : List Byte) (o n : Nat) : List Byte × Bool := unitsOf (fun i => bs.getD i 0) (fun _ => false) o n

/-- Address and length of the memory that a page of an area shows. -/
def State.hswMem (s : State) (k : Pick) : Option (Nat × Nat) :=
  let c := k.core
  match k.area with
  | 0x03 => some (s.imageAddr c k.idx, 2048)
  | 0x04 =>
    let t := k.idx / 65536
    let at_ := k.idx % 65536 * 4096
    if (s.thread c t).st = .empty then some (0, 0)
    else some (s.slice c t at_, min 4096 ((s.wgOf c t).stride - at_))
  | 0x05 => some (scratchBase c + k.idx * 4096, 4096)
  | 0x09 =>
    let limit := s.reg (dsReg k.die 0x488)
    let off := s.drainArea k.die + k.idx * 4096
    some (s.reg (dsReg k.die 0x480) + off, min 4096 (limit - off))
  | 0x22 => some (dieScratchBase k.die + k.idx * 4096, 4096)
  | 0x41 => some (k.idx * 4096, 4096)
  | _ => none

/-- Bytes `o` to `o + n - 1` of the selected page. -/
def State.shown (s : State) (k : Pick) (o n : Nat) : List Byte × Bool :=
  let c := k.core
  match s.hswMem k with
  | some (a, len) =>
    let m := min n (len - o)
    let r := s.shownMem a o m
    (r.1 ++ List.replicate (n - m) 0, r.2)
  | none =>
    match k.area with
    | 0x01 =>
      let x := s.liveFile c k.idx
      unitsOf (fun i => if i < 512 then (toLE (mgetD x.1 (i / 8) 0).toNat 8).getD (i % 8) 0 else 0)
        (fun i => i < 512 && x.2.contains (i / 64)) o n
    | 0x02 => shownList (contextBytes (s.thread c k.idx)) o n
    | 0x0A =>
      if k.idx = 0 then shownList (s.matrixPage c) o n
      else
        let x := (s.core c).ctl
        shownList ((List.range 64).flatMap (fun v => toLE (mgetD x.regs v 0).toNat 8) ++ toLE x.blk 8) o n
    | 0x0B =>
      -- the contents of a granule that no record holds are never delivered again (R3, R279)
      if (s.core c).obrecs.any (fun e => e.2.st != .free && e.2.first ≤ k.idx && k.idx < e.2.first + e.2.granules) then
        s.shownUnit .operandBuffer 8 (opBufBase c + k.idx * 4096) o n
      else (List.replicate n 0, false)
    | 0x0C => s.shownUnit .accumulator 4 (accBase c + k.idx * 4096) o n
    | 0x0E =>
      let q := if flag k.idx 8 then (s.die k.die).evq else (s.core c).evq
      shownList ((q.drop (k.idx % 2 * 128)).take 128 |>.flatMap recBytes) o n
    | 0x21 =>
      shownList ((List.range 512).flatMap (fun i => toLE (sideWord (s.sideOf (dieBase k.die / 128 + 512 * k.idx + i))) 8)) o n
    | a => unitsOf (Config.readback a k.idx (s.cards a c k.die k.idx)) (fun _ => false) o n

/-- Lines that must have no owner before bytes `o` to `o + n - 1` of a page are read or written (R386). -/
def State.hswLines (s : State) (k : Pick) (o n : Nat) : List Nat :=
  match s.hswMem k with
  | some (a, len) =>
    if len ≤ o || !inMemory a then [] else (linePieces (a + o) (min n (len - o))).map (fun p => lineOf p.1)
  | none =>
    if k.area = 0x21 then (List.range 512).filterMap (fun i =>
      if 8 * i < o + n && o < 8 * i + 8 then some (dieBase k.die / 128 + 512 * k.idx + i) else none)
    else []

/-- The die whose unit holds the selected item; memory is reached at the homes of its lines (R14). -/
def hswDie (k : Pick) : Nat :=
  if k.area < 0x20 then dieOf k.core else if k.area < 0x40 then k.die else 0

/-- Why an access of the window waits: a circuit that is not there, or an owner to be recalled (R14, R386). -/
def State.hswWait (s : State) (k : Pick) (o n : Nat) : Option State :=
  if !s.linkedBoth 0 (hswDie k) then some s else s.hostWait (s.hswLines k o n)

/-- The window's registers as bytes. -/
def State.hswRegByte (s : State) (o : Nat) : Byte :=
  if o < 0x18 then (toLE (s.reg (hswReg (o / 8 * 8))) 8).getD (o % 8) 0 else 0

/-- HSW_DATA_READ: a read of the window at an offset of BAR 1 (R424, R425). -/
def execHswDataRead (off n : Nat) (s : State) : Host.Outcome State Fault Refusal :=
  go (if 0x2000 < off + n then s
    else if off < 0x1000 then s.hostReturns ((List.range n).map (fun i => s.hswRegByte (off + i))) false
    else
      let k := s.hswPick
      let o := off - 0x1000
      if !s.hswValid k then (s.hswFlag 1).hostReturns (List.replicate n 0) false
      else match s.hswWait k o n with
        | some s => s
        | none =>
          let r := s.shown k o n
          let s := if r.2 then s.hswFlag 2 else s
          s.hostReturns r.1 false)

/-! ## Writing (R133, R425, R459) -/

/-- A core is frozen: held, or all its gangs are frozen by a request of KC_FREEZE (R414 to R416). -/
def State.coreFrozen (s : State) (c : Nat) : Bool :=
  s.heldCore c || (flag (s.reg (kcFreeze c)) 2 && (s.gangsOn c).all (fun g => (s.gang g).frozen != .no))

/-- A drain has frozen a gang (R416). -/
def State.gangDrained (s : State) (g : Nat) : Bool :=
  match (s.gang g).frozen with
  | .draining | .drained => true
  | _ => false

/-- The row of R425 accepts a write of the selected item. -/
def State.hswOpen (s : State) (k : Pick) : Bool :=
  let c := k.core
  let thread (t : Nat) : Bool :=
    let x := s.thread c t
    x.st != .empty && (x.st = .parked || s.coreFrozen c || s.gangDrained (s.gangOf c t))
  match k.area with
  | 0x01 => thread k.idx
  | 0x02 => thread k.idx
  | 0x03 => (s.thread c k.idx).st = .parked
  | 0x04 => thread (k.idx / 65536)
  | 0x05 => s.coreFrozen c
  | 0x06 => s.coreFrozen c || ((mget (s.core c).wgs (k.idx * 128)).isSome && s.gangDrained (s.wg c (k.idx * 128)).gang)
  | 0x0B => s.coreFrozen c
  | 0x0C => s.coreFrozen c
  | 0x21 => s.heldDie k.die
  | 0x22 => s.heldDie k.die
  | 0x41 => true
  | _ => false

/-- Bytes of a page replaced from an offset on. -/
def overlay (bs : List Byte) (o : Nat) (d : List Byte) : List Byte := bs.take o ++ d.take (bs.length - o) ++ bs.drop (o + d.length)

/-- Live values written: a register of a poisoned group writes its group afresh (R133, R138); the overflow area
follows (R136). -/
def State.writeLvs (s : State) (c t o : Nat) (d : List Byte) : State :=
  s.storeLive c t ((List.range 64).foldl (fun (y : Thread) v =>
    if 8 * v < o + d.length && o < 8 * v + 8 then
      let old : W64 := if y.poison.contains (v / 8) then 0 else mgetD y.regs v 0
      let bs := (toLE old.toNat 8).zipIdx.map (fun b => if o ≤ 8 * v + b.2 then d.getD (8 * v + b.2 - o) b.1 else b.1)
      lvwWrite y v (BitVec.ofNat 64 (leNat bs))
    else y) (s.liveThread c t))

/-- A thread context written: bytes that are not writable keep their value and are reported (R459). -/
def State.writeContext (s : State) (c t o : Nat) (d : List Byte) : State :=
  let x := s.thread c t
  let old := contextBytes x
  let new := overlay old o d
  let pg := (old.zip new).zipIdx.map (fun e => if ctxByte x e.2 = .writable then e.1.2 else e.1.1)
  let kept := (old.zip new).zipIdx.any (fun e => ctxByte x e.2 = .fixed && e.1.1 != e.1.2)
  let s := s.setThread c t (withContext x pg)
  if kept then s.hswFlag 0 else s

/-- Sidecar entries that the bytes reach are written; one that they do not cover whole keeps its version poison
(R215, R386). -/
def State.writeSides (s : State) (first o : Nat) (d : List Byte) : State :=
  (List.range 512).foldl (fun (st : State) i =>
    if 8 * i < o + d.length && o < 8 * i + 8 then
      let old := toLE (sideWord (st.sideOf (first + i))) 8
      let bs := old.zipIdx.map (fun b => if o ≤ 8 * i + b.2 then d.getD (8 * i + b.2 - o) b.1 else b.1)
      let whole : Bool := o ≤ 8 * i && 8 * i + 8 ≤ o + d.length
      let v := leNat bs
      st.writeSide (first + i) (if !whole && (st.sideOf (first + i)).vp && !flag v 57 then v + 2 ^ 57 else v)
    else st) s

/-- The sluices of a workgroup after a write whose layout is not given: what their entries hold is free. -/
def State.writeSluices (s : State) (c b : Nat) : State :=
  let w := s.wg c b
  let s := s.setWg c b { w with sluices := w.sluices.map (fun q => (q.1, { q.2 with
    entries := q.2.entries.zipIdx.map (fun e => { e.1 with handle := Config.sluiceWrite s.freeCtr q.1 e.2 }) })) }
  { s with freeCtr := s.freeCtr + 1 }

/-- An accepted write. -/
def State.hswStore (s : State) (k : Pick) (o : Nat) (d : List Byte) : State :=
  let c := k.core
  match s.hswMem k with
  | some (a, len) =>
    (splitLines (a + o) (d.take (len - o))).foldl (fun (st : State) p => st.hostPut p.1 p.2) s
  | none =>
    match k.area with
    | 0x01 => s.writeLvs c k.idx o d
    | 0x02 => s.writeContext c k.idx o d
    | 0x06 => if (mget (s.core c).wgs (k.idx * 128)).isSome then s.writeSluices c (k.idx * 128) else s
    | 0x0B => s.storeUnit (opBufBase c + k.idx * 4096 + o) d
    | 0x0C => s.storeUnit (accBase c + k.idx * 4096 + o) d
    | 0x21 => s.writeSides (dieBase k.die / 128 + 512 * k.idx) o d
    | _ => s

/-- A write of one of the window's registers: select, index, and status bits cleared by ones. -/
def State.hswRegWrite (s : State) (o : Nat) (v : Nat) : State :=
  match o with
  | 0 => s.setReg hswSel (v % 2 ^ 15)
  | 8 => s.setReg hswIndex (v % 2 ^ 48)
  | 0x10 => s.setReg hswStat ((List.range 3).foldl (fun n k => if flag v k && flag n k then n - 2 ^ k else n) (s.reg hswStat))
  | _ => s

/-- Register `o` of the window with the bytes that a write replaces; the others keep what they hold, and clear
no status bit. -/
def State.hswRegBytes (s : State) (o at_ : Nat) (d : List Byte) : Nat :=
  leNat ((List.range 8).map (fun i =>
    if at_ ≤ o + i && o + i < at_ + d.length then d.getD (o + i - at_) 0
    else if o = 0x10 then 0 else s.hswRegByte (o + i)))

/-- A read of the window waits in its place. -/
def State.hswReadWaits (s : State) (off n : Nat) : Bool :=
  off + n ≤ 0x2000 && 0x1000 ≤ off && s.hswValid s.hswPick && (s.hswWait s.hswPick (off - 0x1000) n).isSome

/-- A write of the window waits in its place. -/
def State.hswWriteWaits (s : State) (off : Nat) (data : List Byte) : Bool :=
  let o := off - 0x1000
  0x1000 ≤ off && off < 0x2000 && s.hswValid s.hswPick && s.hswOpen s.hswPick
    && (s.hswWait s.hswPick o (data.take (4096 - o)).length).isSome

/-- HSW_DATA_WRITE: a write of the window at an offset of BAR 1 (R424, R425). -/
def execHswDataWrite (off : Nat) (data : List Byte) (s : State) : Host.Outcome State Fault Refusal :=
  go (if off < 0x1000 then
      [0, 8, 0x10].foldl (fun (st : State) o =>
        if o < off + data.length && off < o + 8 then st.hswRegWrite o (st.hswRegBytes o off data) else st) s
    else if 0x2000 ≤ off then s
    else
      let k := s.hswPick
      let o := off - 0x1000
      let d := data.take (4096 - o)
      if !s.hswValid k then s.hswFlag 1
      else if !s.hswOpen k then s.hswFlag 0
      else match s.hswWait k o d.length with
        | some s => s
        | none => s.hswStore k o d)

end Sys2Proof.Machine
end

