-- ==== Sys2Proof/Machine/Registers.lean ====
section
/-! DEFINITION. Every control register of BAR 0 and the window's own, as it reads and what a write of it does (R133,
R137, R144 to R148, R283, R315, R323, R325, R326, R343, R348, R356, R357, R374, R377, R396, R397, R403, R404, R410,
R413 to R416, R424, R429 to R431, R435, R436, R440 to R442, R451, R454). -/

namespace Sys2Proof.Machine

/-! ## Reading -/

/-- Bits of a number from a predicate. -/
def bitsFrom (n : Nat) (f : Nat → Bool) : Nat := (List.range n).foldl (fun m i => m + if f i then 2 ^ i else 0) 0

/-- KC_STATE (R148): a halted control core is not busy (R418). -/
def State.kcState (s : State) (c : Nat) : Nat :=
  let k := s.core c
  let busy : Bool := match k.cc with | .rare _ => true | .job => true | _ => false
  min k.insts.length 8 + (if busy then 2 ^ 4 else 0) + (if c % 16 = 0 then 2 ^ 6 else 0) + 2 ^ 8 * min k.wgs.length 64

/-- KC_LVS_GATE: a subarray is powered while a placed workgroup has one of its rows (R137). -/
def State.lvsGate (s : State) (c : Nat) : Nat :=
  bitsFrom 8 (fun j => (s.core c).wgs.any (fun w => 0 < w.2.n && w.1 / 1024 ≤ j && j ≤ (w.1 + w.2.n - 1) / 1024))

/-- KC_FUSE (R21, R148). (log 7, DESIGN CHOICE) -/
def State.kcFuse (s : State) (c : Nat) : Nat :=
  match mget s.fuses c with
  | some (col, row) => 1 + 2 ^ 4 * col + 2 ^ 8 * row
  | none => 0

/-- KC_EVQ_STAT and DS_EVQ_STAT (R325). -/
def evqStat (q held : List Rec) : Nat := min q.length 511 + if held.isEmpty then 0 else 2 ^ 9

/-- A register of a core's block. -/
def State.kcRead (s : State) (c o : Nat) : Nat :=
  let r := s.reg (kcReg c o)
  if o = 0 then c
  else if o = 0x008 then s.kcFuse c
  else if o = 0x018 then s.kcState c
  else if o = 0x030 then s.lvsGate c
  else if o = 0x410 then evqStat (s.core c).evq (s.core c).evHeld
  else if o = 0x010 || o = 0x020 || o = 0x028 || o = 0x448 || o = 0x4C0 || o = 0x4C8 then r
  else if 0x460 ≤ o && o < 0x480 then r
  else if 0x480 ≤ o && o < 0x4B0 then r
  else if 0x500 ≤ o && o < 0x600 then r
  else 0

/-- A register of a die's block. -/
def State.dsRead (s : State) (d o : Nat) : Nat :=
  let r := s.reg (dsReg d o)
  if o = 0 then d
  else if o = 0x008 then (s.die d).clk % 2 ^ 64
  else if o = 0x010 then r % 2 ^ 16 + 2 ^ 16 * bitsFrom 16 (fun i => s.heldCore (16 * d + i))
  else if 0x040 ≤ o && o < 0x140 then (if (o - 0x40) / 0x20 = d then 0 else r)
  else if o = 0x410 then evqStat (s.die d).evq (s.die d).evHeld
  else if o = 0x420 then s.gangMap d
  else if o = 0x440 then (s.die d).freePushed + 2 ^ 32 * (s.die d).freeTaken
  else if o = 0x018 || o = 0x430 || o = 0x438 || o = 0x450 || o = 0x480 || o = 0x488 || o = 0x490 || o = 0x4D8 then r
  else if 0x460 ≤ o && o < 0x480 then r
  else if 0x500 ≤ o && o < 0x600 then r
  else 0

/-- A register of the device block. (log 7, DESIGN CHOICE) -/
def State.dvRead (s : State) (o : Nat) : Nat :=
  let r := s.reg o
  if o = 0x020 then r % 2 ^ 8 + 2 ^ 8 * bitsFrom 8 s.heldDie
  else if o = 0 || o = 0x008 || o = 0x010 then r
  else if 0x1000 ≤ o && o < 0x2000 then (if o % 0x40 = 0x10 || 0x28 ≤ o % 0x40 then 0 else r)
  else if 0x2000 ≤ o && o < 0x2800 then r
  else if o = 0x3000 then r
  else if 0x4000 ≤ o && o < 0x4800 then (if o % 0x20 = 0x18 then 0 else r)
  else if 0x5000 ≤ o && o < 0x5038 then r
  else if o = 0x5040 || o = 0x5048 || o = 0x5100 || o = 0x5108 then r
  else if 0x5110 ≤ o && o < 0x5150 then r
  else if o = 0x5150 then s.therm
  else 0

/-- MSI-X vectors pending, from a vector on (R429). -/
def State.pending (s : State) (first : Nat) : Nat := bitsFrom 64 (fun i => s.msix.contains (first + i))

/-- A register of the ZP_, UL_ and HP_ blocks. -/
def State.hpRead (s : State) (o : Nat) : Nat :=
  let r := s.reg o
  if o < 0x3002000 then r
  else if o = 0x3002008 || (0x3002100 ≤ o && o < 0x3002148) then r
  else if 0x3008000 ≤ o && o < 0x3068000 then r
  else if 0x3070000 ≤ o && o < 0x3070C00 then (if o % 0x100 < 0x80 then r else 0)
  else if 0x3080000 ≤ o && o < 0x308C000 then r
  else if 0x30A0000 ≤ o && o < 0x30A0C00 then
    (if o % 0x100 = 0 || o % 0x100 = 8 || (0x40 ≤ o % 0x100 && o % 0x100 < 0x80) then r else 0)
  else if o = 0x30C0000 || (0x30C0100 ≤ o && o ≤ 0x30C0120) then r
  else if o = 0x30C0008 then s.pending 0
  else if o = 0x30C0010 then s.pending 64
  else 0

/-- The 64 bits of the register at a multiple of 8: an offset that is not mapped reads zero (R144, R145). -/
def State.regValue (s : State) (o : Nat) : Nat :=
  if o < 0x10000 then s.dvRead o
  else if 0x1000000 ≤ o && o < 0x1080000 then s.dsRead ((o - 0x1000000) / 0x10000) (o % 0x10000)
  else if 0x2000000 ≤ o && o < 0x2800000 then s.kcRead ((o - 0x2000000) / 0x10000) (o % 0x10000)
  else if 0x3000000 ≤ o && o < 0x4000000 then s.hpRead o
  else if o = hswSel || o = hswIndex || o = hswStat then s.reg o
  else 0

/-- A read of 4 or 8 bytes (R145). -/
def State.regRead (s : State) (off n : Nat) : Nat := s.regValue (off / 8 * 8) / 2 ^ (8 * (off % 8)) % 2 ^ (8 * n)

/-! ## Writing -/

/-- What an access writes: the register's bits as they would stand, and the written bits alone, the others 0.
(log 55, DEDUCED) -/
structure Wr where
  full : Nat
  bits : Nat
  /-- the low half is written -/
  low : Bool
  deriving DecidableEq, Repr

def wrOf (old off n v : Nat) : Wr :=
  if n = 8 then { full := v % 2 ^ 64, bits := v % 2 ^ 64, low := true }
  else if off % 8 = 0 then { full := old / 2 ^ 32 * 2 ^ 32 + v % 2 ^ 32, bits := v % 2 ^ 32, low := true }
  else { full := old % 2 ^ 32 + 2 ^ 32 * (v % 2 ^ 32), bits := 2 ^ 32 * (v % 2 ^ 32), low := false }

/-- Bits [hi:lo] kept in place. (log 31, DEDUCED) -/
def keepBits (v hi lo : Nat) : Nat := bitsOf v hi lo * 2 ^ lo

/-- Bits of a W1C field cleared where ones are written (R145). -/
def clearOnes (old w : Nat) (ks : List Nat) : Nat := ks.foldl (fun n k => if flag w k && flag n k then n - 2 ^ k else n) old

/-- A log2 field outside its range is stored as a given value. -/
def logField (v lo hi d : Nat) : Nat := if lo ≤ v && v ≤ hi then v else d

/-- A monitor's select and count registers (R397). -/
def State.writeMonitor (s : State) (kind o : Nat) (w : Wr) : State :=
  if o % 16 = 0 then s.setReg o (selectOf kind w.full)
  else s.setReg o (w.full % 2 ^ 48 + if flag (s.reg o) 48 && !flag w.bits 48 then 2 ^ 48 else 0)

/-- What an event of its own does, from the register that it writes. -/
def State.via (s : State) (f : State → Host.Outcome State Fault Refusal) : State := stateOf s (f s)

/-- KC_FREEZE: a request starts a pre-emption; without one the mode is stored, unless a request stands; bits 2 and 3
are read-only (R145, R148, R415, R416). (log 13, DESIGN CHOICE) -/
def State.writeFreeze (s : State) (c v : Nat) : State :=
  if flag v 0 then s.requestFreeze c (v / 2 % 2)
  else if flag (s.reg (kcFreeze c)) 0 then s
  else s.setReg (kcFreeze c) (v / 2 % 2 * 2)

/-- KC_PARK_CTL (R404). -/
def State.writeParkCtl (s : State) (c v : Nat) : State :=
  let slot := v % 2 ^ 13
  match bitsOf v 14 13 with
  | 1 => s.via (execParkResume c slot)
  | 2 => s.via (execParkKill c slot)
  | 3 => s.via (execParkResumeSkip c slot)
  | _ => s

/-- KC_GANG_CTL (R416). -/
def State.writeGangCtl (s : State) (c v : Nat) : State :=
  match v % 4 with
  | 1 => s.via (execGangThaw c)
  | 2 => s.via (execGangSquash c)
  | 3 => s.via (execGangKill c)
  | _ => s

/-- A write in a core's block. (log 31, DEDUCED) -/
def State.kcWrite (s : State) (c o : Nat) (w : Wr) : State :=
  let at_ := kcReg c o
  if o = 0x010 then (if w.low then s.writeFreeze c w.bits else s)
  else if o = 0x020 then s.setReg at_ (max (w.full % 2 ^ 40) 0x10000)
  else if o = 0x028 then s.setReg at_ (max (w.full % 2 ^ 32) 1000)
  else if o = 0x400 then
    (if !w.low then s
      else if flag w.bits 8 then s.via (execMtxAbandon c (w.bits % 2)) else s.via (execMtxResume c (w.bits % 2)))
  else if o = 0x440 then s.writeParkCtl c w.bits
  else if o = 0x450 then s.writeGangCtl c w.bits
  else if 0x480 ≤ o && o < 0x4B0 then (if w.low && w.bits % 2 ^ 32 = 0 then s.setReg at_ 0 else s)
  else if o = 0x4C0 then s.jobWrite c w.full
  else if o = 0x4C8 then (if flag (s.kcState c) 4 then s else s.setReg at_ (w.full % 2 ^ 18))
  else if 0x500 ≤ o && o < 0x600 then s.writeMonitor 0 at_ w
  else s

/-- A conversion register of a die (R147, R380). -/
def State.writeClk (s : State) (d j k : Nat) (off n v : Nat) : State :=
  let sh := s.shadowOf d j
  match k with
  | 0 => s.writeShadow d j ((wrOf sh.1 off n v).full, sh.2)
  | 8 => s.writeShadow d j (sh.1, (wrOf sh.2 off n v).full % 2 ^ 32)
  | 0x10 => s.installEpoch d j (wrOf (s.reg (clkReg d j 0x10)) off n v).full
  | _ => s

/-- A thread of a die is Parked (R403). -/
def State.anyParked (s : State) (d : Nat) : Bool :=
  s.cores.any (fun e => dieOf e.1 = d && e.2.threads.any (fun t => t.2.st = .parked))

/-- A write in a die's block. (log 39, DEDUCED) -/
def State.dsWrite (s : State) (d o : Nat) (w : Wr) : State :=
  let at_ := dsReg d o
  if o = 0x010 then s.holdCores d w.full
  else if o = 0x018 then s.setReg at_ (w.full % 2 + keepBits (clearOnes (s.reg at_) w.bits [1]) 1 1)
  else if o = 0x400 then
    (if !w.low then s
      else if flag w.bits 8 then s.via (execEngAbandon d (w.bits % 8)) else s.via (execEngResume d (w.bits % 8)))
  else if o = 0x430 then s.setReg at_ (keepBits w.full 56 2)
  else if o = 0x438 then
    (if s.freeHeldOf d != 0 then s
      else s.setReg at_ (logField (w.full % 32) 6 20 6 + keepBits w.full 31 31))
  else if o = 0x440 then (if w.low then s.setDie d { s.die d with freePushed := w.bits % 2 ^ 32 } else s)
  else if o = 0x448 then
    (if !w.low then s
      else if flag w.bits 8 then s.via (execPagerReplyFail d (w.bits % 256)) else s.via (execPagerReplyRetry d (w.bits % 256)))
  else if o = 0x450 then (if s.anyParked d then s else s.setReg at_ (keepBits w.full 51 28))
  else if o = 0x480 then (if (s.die d).saved.isEmpty then s.setReg at_ (keepBits w.full 51 12) else s)
  else if o = 0x488 then s.setReg at_ (keepBits w.full 39 12)
  else if o = 0x4D0 then s.imageWrite d w.bits
  else if o = 0x4D8 then s.setReg at_ (clearOnes (s.reg at_) w.bits [1])
  else if 0x500 ≤ o && o < 0x600 then s.writeMonitor 1 at_ w
  else s

/-- The base or the configuration of a launch queue (R323). -/
def State.lqSetup (s : State) (q o : Nat) (w : Wr) : State :=
  if s.lqHeld q != 0 then s.lqFlag q 18
  else if o = 0 then
    let a := w.full % 2 ^ 57 / 64 * 64
    (match regionOf a with
      | .dev _ => s.setReg (lqReg q 0) a
      | _ => s.lqFlag q 18)
  else s.setReg (lqReg q 8) ((if 9 ≤ w.full % 16 then 8 else w.full % 16) + keepBits w.full 12 4 + keepBits w.full 31 31)

/-- A write of a launch queue's registers (R323). -/
def State.lqWrite (s : State) (q o : Nat) (w : Wr) : State :=
  if o = 0 || o = 8 then s.lqSetup q o w
  else if o = 0x10 then s.via (execLqPush q (w.bits % 2 ^ 57))
  else if o = 0x18 then s.setReg (lqReg q o) (clearOnes (s.reg (lqReg q o)) w.bits [16, 17, 18, 19])
  else s

/-- A write of a tenant fault queue's registers (R326). -/
def State.tfqWrite (s : State) (at_ : Nat) (w : Wr) : State :=
  match at_ % 0x20 with
  | 0 => s.setReg at_ (keepBits w.full 56 5)
  | 8 => s.setReg at_ (min (w.full % 16) 6 + keepBits w.full 31 31)
  | 0x10 => s.setReg at_ (s.reg at_ % 2 ^ 32 + keepBits w.full 63 32)
  | _ => if w.low && w.bits % 2 ^ 32 = 0 then s.setReg at_ 0 else s

/-- A write in the device block. -/
def State.dvWrite (s : State) (o : Nat) (w : Wr) : State :=
  if o = 0x018 then (List.range 8).foldl (fun (st : State) d => if flag w.bits d then st.via (execDieReset d) else st) s
  else if o = 0x020 then s.holdDies w.full
  else if 0x1000 ≤ o && o < 0x2000 then s.lqWrite ((o - 0x1000) / 0x40) (o % 0x40) w
  else if 0x2000 ≤ o && o < 0x2800 then s.tfqWrite o w
  else if o = 0x3000 then s.setReg o (w.full % 8 + keepBits w.full 8 8 + keepBits w.full 63 32)
  else if o = 0x3008 then (if w.low then s.via (execHostTaskToken (w.bits % 2 ^ 32)) else s)
  else if 0x4000 ≤ o && o < 0x4800 then
    (match o % 0x20 with
      | 0 => s.setReg o (keepBits w.full 51 14 + w.full % 2)
      | 8 => s.setReg o (keepBits w.full 56 5)
      | 0x10 => s.setReg o (w.full % 2 ^ 24)
      | _ => s)
  else if 0x5000 ≤ o && o < 0x5030 then s.setReg o w.full
  else if o = 0x5030 then s.setReg o (keepBits w.full 51 7)
  else if o = 0x5038 then (if flag w.bits 0 then s.quoteGo else s)
  else if o = 0x5040 then s.setReg o (clearOnes (s.reg o) w.bits [1, 2])
  else if o = 0x5100 then s.setReg o (min (max (w.full % 2 ^ 12) 500) 2600)
  else if 0x5110 ≤ o && o < 0x5150 then s.setReg o w.full
  else s

/-- A write of an entry of an admission table or of an outbound window table, 8 bytes of it (R377, R435). -/
def admissionMask (o v : Nat) : Nat :=
  match o % 0x20 with
  | 0 => v
  | 8 => v % 2 ^ 57
  | 0x10 => v
  | _ => 0
def outboundMask (o v : Nat) : Nat :=
  if o % 16 = 0 then v % 2 ^ 28 + keepBits v 31 31 + keepBits v 43 32 else v % 2 ^ 32

/-- A write in the ZP_, UL_ and HP_ blocks. -/
def State.hpWrite (s : State) (o : Nat) (w : Wr) : State :=
  if o < 0x3002000 then (if flag (s.reg zpStat) 0 then s.zpFlag 2 else s.setReg o w.full)
  else if o = 0x3002000 then (if flag w.bits 0 then s.commitConn else if flag (s.reg zpStat) 0 then s.zpFlag 2 else s)
  else if o = 0x3002008 then s.setReg o (clearOnes (s.reg o) w.bits [1, 2])
  else if 0x3002100 ≤ o && o < 0x3002140 then s.setReg o w.full
  else if o = 0x3002140 then s.setReg o (w.full % 2 ^ 8)
  else if 0x3008000 ≤ o && o < 0x3068000 then s.setReg o (admissionMask o w.full)
  else if 0x3070000 ≤ o && o < 0x3070C00 then (if o % 0x100 < 0x80 then s.writeMonitor 2 o w else s)
  else if 0x3080000 ≤ o && o < 0x308C000 then s.setReg o (outboundMask o w.full)
  else if 0x30A0000 ≤ o && o < 0x30A0C00 then
    (match o % 0x100 with
      | 0 => s.setReg o (w.full % 2 ^ 10 + keepBits w.full 31 31)
      | 8 => s.setReg o (clearOnes (s.reg o) w.bits [1])
      | k => if 0x40 ≤ k && k < 0x80 then s.setReg o w.full else s)
  else if o = 0x30C0000 then s.setReg o (keepBits w.full 51 36)
  else if o = xqBase then (if flag (s.reg xqStat) 0 then s else s.setReg o (keepBits w.full 56 5))
  else if o = xqCfg then s.setReg o (logField (w.full % 32) 4 16 4 + keepBits w.full 31 31)
  else if o = xqTail then s.via (execXqTailWrite (w.full % 2 ^ 32))
  else if o = xqStat then (if flag w.bits 1 then s.xqResume else s)
  else s

/-- A write of 4 or 8 bytes at an offset: a misaligned one, one of another size and one of an offset that is not
mapped change nothing (R145). (log 55, DEDUCED) -/
def State.regWrite (s : State) (off n v : Nat) : State :=
  let o := off / 8 * 8
  let w := wrOf (s.regValue o) off n v
  if !(n = 4 || n = 8) || off % n != 0 then s
  else if o < 0x10000 then s.dvWrite o w
  else if 0x1000000 ≤ o && o < 0x1080000 then
    let d := (o - 0x1000000) / 0x10000
    let r := o % 0x10000
    if 0x40 ≤ r && r < 0x140 then s.writeClk d ((r - 0x40) / 0x20) ((r - 0x40) % 0x20) off n v else s.dsWrite d r w
  else if 0x2000000 ≤ o && o < 0x2800000 then s.kcWrite ((o - 0x2000000) / 0x10000) (o % 0x10000) w
  else if 0x3000000 ≤ o && o < 0x4000000 then s.hpWrite o w
  else if o = hswStat then s.hswRegWrite 0x10 w.bits
  else if hswReg 0 ≤ o then s.hswRegWrite (o - hswReg 0) w.full
  else s

/-! ## The instructions -/

/-- The die in whose block, or in a core's block of which, a register stands (R144). -/
def regDie (off : Nat) : Option Nat :=
  if 0x1000000 ≤ off && off < 0x1080000 then some ((off - 0x1000000) / 0x10000)
  else if 0x2000000 ≤ off && off < 0x2800000 then some (dieOf ((off - 0x2000000) / 0x10000))
  else none

/-- An access from a die reaches the block of a register, over the circuit between the dies (R13, R14). -/
def State.regLinked (s : State) (d off : Nat) : Bool :=
  match regDie off with
  | some e => s.linked d e
  | none => true

/-- The same for an access that returns a value. -/
def State.regReached (s : State) (d off : Nat) : Bool :=
  match regDie off with
  | some e => s.linkedBoth d e
  | none => true

/-- An access of the host is 4 or 8 bytes at its natural alignment (R145). -/
def regAligned (off n : Nat) : Bool := (n = 4 || n = 8) && off % n = 0

/-- A register write of the host waits for its circuit. -/
def State.regWaits (s : State) (off n : Nat) : Bool := regAligned off n && !s.regLinked 0 off

/-- MIOLD (R13, R145, R413). (log 38, DEDUCED) -/
def execMiold (p : Pred) (wide : Bool) (t0 : Target) (s : State) : Host.Outcome State Fault Refusal :=
  go (s.privFire [.L] p.code fun l _ st =>
    let n := if wide then 8 else 4
    if 2 ^ 26 ≤ l.toNat then st.raise fcAccess 0 l.toNat
    else if l.toNat % n != 0 then st.raise fcAlign 0 l.toNat
    else if !s.regReached s.cur.agent.die l.toNat then s
    else st.emit t0 .none (tokNat (st.regRead l.toNat n)) 0)

/-- MIOST (R13, R145, R413): its effect stands even if the pass later faults. (log 38, DEDUCED) -/
def execMiost (p : Pred) (wide : Bool) (s : State) : Host.Outcome State Fault Refusal :=
  go (s.privFire [.L, .R] p.code fun l r st =>
    let n := if wide then 8 else 4
    if 2 ^ 26 ≤ l.toNat then st.raise fcAccess 0 l.toNat
    else if l.toNat % n != 0 then st.raise fcAlign 0 l.toNat
    else if !s.regLinked s.cur.agent.die l.toNat then s
    else st.regWrite l.toNat n r.toNat)

/-- REGISTER_WRITE: the host writes a register at an offset of BAR 0, or of BAR 1 from 2^26 on; a misaligned access
completes with a completer abort, and one of another die's block crosses the circuit from die 0 (R14, R144, R145). -/
def execRegisterWrite (off n v : Nat) (s : State) : Host.Outcome State Fault Refusal :=
  go (if s.regWaits off n then s else { s.regWrite off n v with hostAbort := (n = 4 || n = 8) && off % n != 0 })

end Sys2Proof.Machine
end

