-- ==== Sys2Proof/Machine/Dispatch.lean ====
section
/-! DEFINITION. One arm per row of the opcode table: a direct call of its meaning. -/

namespace Sys2Proof.Machine

/-- What an instruction or an event does to a state. -/
def exec (i : Instr) (s : State) : Host.Outcome State Fault Refusal :=
  match i with
  | .add p ty sat t1 t0 => Sys2Proof.Machine.execAdd p ty sat t1 t0 s
  | .sub p ty sat t1 t0 => Sys2Proof.Machine.execSub p ty sat t1 t0 s
  | .mul p ty sat t1 t0 => Sys2Proof.Machine.execMul p ty sat t1 t0 s
  | .mulh p ty t1 t0 => Sys2Proof.Machine.execMulh p ty t1 t0 s
  | .div p ty sat t1 t0 => Sys2Proof.Machine.execDiv p ty sat t1 t0 s
  | .rem p ty t1 t0 => Sys2Proof.Machine.execRem p ty t1 t0 s
  | .min p ty t1 t0 => Sys2Proof.Machine.execMin p ty t1 t0 s
  | .max p ty t1 t0 => Sys2Proof.Machine.execMax p ty t1 t0 s
  | .abs p ty sat t1 t0 => Sys2Proof.Machine.execAbs p ty sat t1 t0 s
  | .neg p ty sat t1 t0 => Sys2Proof.Machine.execNeg p ty sat t1 t0 s
  | .and p ty t1 t0 => Sys2Proof.Machine.execAnd p ty t1 t0 s
  | .or p ty t1 t0 => Sys2Proof.Machine.execOr p ty t1 t0 s
  | .xor p ty t1 t0 => Sys2Proof.Machine.execXor p ty t1 t0 s
  | .andn p ty t1 t0 => Sys2Proof.Machine.execAndn p ty t1 t0 s
  | .shl p ty sat t1 t0 => Sys2Proof.Machine.execShl p ty sat t1 t0 s
  | .shr p ty t1 t0 => Sys2Proof.Machine.execShr p ty t1 t0 s
  | .rot p ty t1 t0 => Sys2Proof.Machine.execRot p ty t1 t0 s
  | .bfx p ty t1 t0 => Sys2Proof.Machine.execBfx p ty t1 t0 s
  | .bfi ty t1 t0 => Sys2Proof.Machine.execBfi ty t1 t0 s
  | .popc p ty t1 t0 => Sys2Proof.Machine.execPopc p ty t1 t0 s
  | .clz p ty t1 t0 => Sys2Proof.Machine.execClz p ty t1 t0 s
  | .ctz p ty t1 t0 => Sys2Proof.Machine.execCtz p ty t1 t0 s
  | .brev p ty t1 t0 => Sys2Proof.Machine.execBrev p ty t1 t0 s
  | .lea p sh ix t1 t0 => Sys2Proof.Machine.execLea p sh ix t1 t0 s
  | .sel ty t1 t0 => Sys2Proof.Machine.execSel ty t1 t0 s
  | .cmpSigned p c w t1 t0 => Sys2Proof.Machine.execCmpSigned p c w t1 t0 s
  | .cmpUnsigned p c w t1 t0 => Sys2Proof.Machine.execCmpUnsigned p c w t1 t0 s
  | .pand p t1 t0 => Sys2Proof.Machine.execPand p t1 t0 s
  | .por p t1 t0 => Sys2Proof.Machine.execPor p t1 t0 s
  | .pxor p t1 t0 => Sys2Proof.Machine.execPxor p t1 t0 s
  | .pnot p t1 t0 => Sys2Proof.Machine.execPnot p t1 t0 s
  | .mov p t1 t0 => Sys2Proof.Machine.execMov p t1 t0 s
  | .movi p ty imm t0 => Sys2Proof.Machine.execMovi p ty imm t0 s
  | .const p ty k t0 => Sys2Proof.Machine.execConst p ty k t0 s
  | .addi p ty sat iv t0 => Sys2Proof.Machine.execAddi p ty sat iv t0 s
  | .andi p ty iv t0 => Sys2Proof.Machine.execAndi p ty iv t0 s
  | .ori p ty iv t0 => Sys2Proof.Machine.execOri p ty iv t0 s
  | .xori p ty iv t0 => Sys2Proof.Machine.execXori p ty iv t0 s
  | .shli p ty sat iv t0 => Sys2Proof.Machine.execShli p ty sat iv t0 s
  | .shri p ty iv t0 => Sys2Proof.Machine.execShri p ty iv t0 s
  | .cmpiSigned p c w iv t0 => Sys2Proof.Machine.execCmpiSigned p c w iv t0 s
  | .cmpiUnsigned p c w iv t0 => Sys2Proof.Machine.execCmpiUnsigned p c w iv t0 s
  | .lvr p v t0 => Sys2Proof.Machine.execLvr p v t0 s
  | .lvw p v => Sys2Proof.Machine.execLvw p v s
  | .srd p r t1 t0 => Sys2Proof.Machine.execSrd p r t1 t0 s
  | .xshuf p m t1 t0 => Sys2Proof.Machine.execXshuf p m t1 t0 s
  | .xbcast p t1 t0 => Sys2Proof.Machine.execXbcast p t1 t0 s
  | .rred p op t1 t0 => Sys2Proof.Machine.execRred p op t1 t0 s
  | .rscanInclusive p op t1 t0 => Sys2Proof.Machine.execRscanInclusive p op t1 t0 s
  | .rscanExclusive p op t1 t0 => Sys2Proof.Machine.execRscanExclusive p op t1 t0 s
  | .rvote p m t1 t0 => Sys2Proof.Machine.execRvote p m t1 t0 s
  | .fadd p f r lm ng t1 t0 => Sys2Proof.Machine.execFadd p f r lm ng t1 t0 s
  | .fsub p f r lm ng t1 t0 => Sys2Proof.Machine.execFsub p f r lm ng t1 t0 s
  | .fmul p f r lm ng t1 t0 => Sys2Proof.Machine.execFmul p f r lm ng t1 t0 s
  | .ffma f r lm ng t1 t0 => Sys2Proof.Machine.execFfma f r lm ng t1 t0 s
  | .fmin p f r lm ng t1 t0 => Sys2Proof.Machine.execFmin p f r lm ng t1 t0 s
  | .fmax p f r lm ng t1 t0 => Sys2Proof.Machine.execFmax p f r lm ng t1 t0 s
  | .fcmp p f c t1 t0 => Sys2Proof.Machine.execFcmp p f c t1 t0 s
  | .fdiv p f r lm ng t1 t0 => Sys2Proof.Machine.execFdiv p f r lm ng t1 t0 s
  | .fsqrt p f r lm t1 t0 => Sys2Proof.Machine.execFsqrt p f r lm t1 t0 s
  | .frcp p f r lm t1 t0 => Sys2Proof.Machine.execFrcp p f r lm t1 t0 s
  | .frsq p f r lm t1 t0 => Sys2Proof.Machine.execFrsq p f r lm t1 t0 s
  | .fexp2 p f r lm t1 t0 => Sys2Proof.Machine.execFexp2 p f r lm t1 t0 s
  | .flog2 p f r lm t1 t0 => Sys2Proof.Machine.execFlog2 p f r lm t1 t0 s
  | .fsinp p f r lm t1 t0 => Sys2Proof.Machine.execFsinp p f r lm t1 t0 s
  | .fcosp p f r lm t1 t0 => Sys2Proof.Machine.execFcosp p f r lm t1 t0 s
  | .frnd p f r lm t1 t0 => Sys2Proof.Machine.execFrnd p f r lm t1 t0 s
  | .fclass p f t1 t0 => Sys2Proof.Machine.execFclass p f t1 t0 s
  | .cvt p src dst r sat t1 t0 => Sys2Proof.Machine.execCvt p src dst r sat t1 t0 s
  | .cvtbToLog p src lf len t1 t0 => Sys2Proof.Machine.execCvtbToLog p src lf len t1 t0 s
  | .cvtbToF32 p r lf len t1 t0 => Sys2Proof.Machine.execCvtbToF32 p r lf len t1 t0 s
  | .cvtp p r bf t1 t0 => Sys2Proof.Machine.execCvtp p r bf t1 t0 s
  | .br p b => Sys2Proof.Machine.execBr p b s
  | .bri p => Sys2Proof.Machine.execBri p s
  | .call p b => Sys2Proof.Machine.execCall p b s
  | .ret p => Sys2Proof.Machine.execRet p s
  | .exit p => Sys2Proof.Machine.execExit p s
  | .switch p n k => Sys2Proof.Machine.execSwitch p n k s
  | .nullLsid p l => Sys2Proof.Machine.execNullLsid p l s
  | .nullRegister p v => Sys2Proof.Machine.execNullRegister p v s
  | .yield p b => Sys2Proof.Machine.execYield p b s
  | .xpath p b => Sys2Proof.Machine.execXpath p b s
  | .nop p => Sys2Proof.Machine.execNop p s
  | .ld p z sx ua l off t0 => Sys2Proof.Machine.execLd p z sx ua l off t0 s
  | .lda p z sc l off t0 => Sys2Proof.Machine.execLda p z sc l off t0 s
  | .st p z ua l off => Sys2Proof.Machine.execSt p z ua l off s
  | .stl p z sc l off => Sys2Proof.Machine.execStl p z sc l off s
  | .ldv p z w l off t1 t0 => Sys2Proof.Machine.execLdv p z w l off t1 t0 s
  | .prf p => Sys2Proof.Machine.execPrf p s
  | .sput p q l => Sys2Proof.Machine.execSput p q l s
  | .sget p q t1 t0 => Sys2Proof.Machine.execSget p q t1 t0 s
  | .smark p q l => Sys2Proof.Machine.execSmark p q l s
  | .rld p z sys l off t0 => Sys2Proof.Machine.execRld p z sys l off t0 s
  | .rst p z sys l off => Sys2Proof.Machine.execRst p z sys l off s
  | .isect p wide t1 t0 => Sys2Proof.Machine.execIsect p wide t1 t0 s
  | .union p wide t1 t0 => Sys2Proof.Machine.execUnion p wide t1 t0 s
  | .compact p wide t1 t0 => Sys2Proof.Machine.execCompact p wide t1 t0 s
  | .expand p wide t1 t0 => Sys2Proof.Machine.execExpand p wide t1 t0 s
  | .aadd p ty sc l off t0 => Sys2Proof.Machine.execAadd p ty sc l off t0 s
  | .afadd p ty sc l off t0 => Sys2Proof.Machine.execAfadd p ty sc l off t0 s
  | .amin p ty sc l off t0 => Sys2Proof.Machine.execAmin p ty sc l off t0 s
  | .amax p ty sc l off t0 => Sys2Proof.Machine.execAmax p ty sc l off t0 s
  | .aand p ty sc l off t0 => Sys2Proof.Machine.execAand p ty sc l off t0 s
  | .aor p ty sc l off t0 => Sys2Proof.Machine.execAor p ty sc l off t0 s
  | .axor p ty sc l off t0 => Sys2Proof.Machine.execAxor p ty sc l off t0 s
  | .axchg p ty sc l off t0 => Sys2Proof.Machine.execAxchg p ty sc l off t0 s
  | .acas ty sc l off t0 => Sys2Proof.Machine.execAcas ty sc l off t0 s
  | .acasw sc l base off t1 t0 => Sys2Proof.Machine.execAcasw sc l base off t1 t0 s
  | .acasv d sc l off t1 t0 => Sys2Proof.Machine.execAcasv d sc l off t1 t0 s
  | .aaddNr p ty sc l off => Sys2Proof.Machine.execAaddNr p ty sc l off s
  | .afaddNr p ty sc l off => Sys2Proof.Machine.execAfaddNr p ty sc l off s
  | .aminNr p ty sc l off => Sys2Proof.Machine.execAminNr p ty sc l off s
  | .amaxNr p ty sc l off => Sys2Proof.Machine.execAmaxNr p ty sc l off s
  | .aandNr p ty sc l off => Sys2Proof.Machine.execAandNr p ty sc l off s
  | .aorNr p ty sc l off => Sys2Proof.Machine.execAorNr p ty sc l off s
  | .axorNr p ty sc l off => Sys2Proof.Machine.execAxorNr p ty sc l off s
  | .axchgNr p ty sc l off => Sys2Proof.Machine.execAxchgNr p ty sc l off s
  | .acasNr ty sc l off => Sys2Proof.Machine.execAcasNr ty sc l off s
  | .acaswNr sc l base off => Sys2Proof.Machine.execAcaswNr sc l base off s
  | .acasvNr d sc l off => Sys2Proof.Machine.execAcasvNr d sc l off s
  | .fence p k sc l => Sys2Proof.Machine.execFence p k sc l s
  | .binit p q l => Sys2Proof.Machine.execBinit p q l s
  | .barv p masked q l => Sys2Proof.Machine.execBarv p masked q l s
  | .bwait p q t1 t0 => Sys2Proof.Machine.execBwait p q t1 t0 s
  | .bexp p q l => Sys2Proof.Machine.execBexp p q l s
  | .qpush p q l => Sys2Proof.Machine.execQpush p q l s
  | .qpop p q t1 t0 => Sys2Proof.Machine.execQpop p q t1 t0 s
  | .qtry p q t1 t0 => Sys2Proof.Machine.execQtry p q t1 t0 s
  | .qgrant p q l => Sys2Proof.Machine.execQgrant p q l s
  | .tlwait p t1 t0 => Sys2Proof.Machine.execTlwait p t1 t0 s
  | .tlrd p t1 t0 => Sys2Proof.Machine.execTlrd p t1 t0 s
  | .wsadd p => Sys2Proof.Machine.execWsadd p s
  | .wsval p l t0 => Sys2Proof.Machine.execWsval p l t0 s
  | .wsclr p => Sys2Proof.Machine.execWsclr p s
  | .mres p rec gran f k => Sys2Proof.Machine.execMres p rec gran f k s
  | .mrel p rec tile => Sys2Proof.Machine.execMrel p rec tile s
  | .mld p src l rec wait => Sys2Proof.Machine.execMld p src l rec wait s
  | .mldKv p l rec wait => Sys2Proof.Machine.execMldKv p l rec wait s
  | .mzero p tile => Sys2Proof.Machine.execMzero p tile s
  | .mma p a b tile col n => Sys2Proof.Machine.execMma p a b tile col n s
  | .mmag p a b tile col n rg2 => Sys2Proof.Machine.execMmag p a b tile col n rg2 s
  | .mscale p exp2 tile col n => Sys2Proof.Machine.execMscale p exp2 tile col n s
  | .mred p op tile col n t1 t0 => Sys2Proof.Machine.execMred p op tile col n t1 t0 s
  | .mst p f l wait tile col n => Sys2Proof.Machine.execMst p f l wait tile col n s
  | .msort p asc mag ixt tile col n => Sys2Proof.Machine.execMsort p asc mag ixt tile col n s
  | .mtopk p k mag ixt tile col n t1 t0 => Sys2Proof.Machine.execMtopk p k mag ixt tile col n t1 t0 s
  | .ascore p causal q k tile col => Sys2Proof.Machine.execAscore p causal q k tile col s
  | .amass p exp2 l k wait tile col => Sys2Proof.Machine.execAmass p exp2 l k wait tile col s
  | .cpy p sc l wait e k => Sys2Proof.Machine.execCpy p sc l wait e k s
  | .cpySend p sc l wait e cv => Sys2Proof.Machine.execCpySend p sc l wait e cv s
  | .cpyRecv p sc l wait e cv => Sys2Proof.Machine.execCpyRecv p sc l wait e cv s
  | .cpyt p sc l wait e => Sys2Proof.Machine.execCpyt p sc l wait e s
  | .coll p sc l wait => Sys2Proof.Machine.execColl p sc l wait s
  | .tsend p sc l => Sys2Proof.Machine.execTsend p sc l s
  | .launch p sc l lq => Sys2Proof.Machine.execLaunch p sc l lq s
  | .splev p sc l wait => Sys2Proof.Machine.execSplev p sc l wait s
  | .splcmp p sc l wait => Sys2Proof.Machine.execSplcmp p sc l wait s
  | .spldcy p sc l wait => Sys2Proof.Machine.execSpldcy p sc l wait s
  | .rmaprd p sc l wait => Sys2Proof.Machine.execRmaprd p sc l wait s
  | .rmapwr p sc l wait => Sys2Proof.Machine.execRmapwr p sc l wait s
  | .trap p c => Sys2Proof.Machine.execTrap p c s
  | .brk p c => Sys2Proof.Machine.execBrk p c s
  | .assert p c => Sys2Proof.Machine.execAssert p c s
  | .clkrd p t1 t0 => Sys2Proof.Machine.execClkrd p t1 t0 s
  | .pmrd p n t1 t0 => Sys2Proof.Machine.execPmrd p n t1 t0 s
  | .kset p a l => Sys2Proof.Machine.execKset p a l s
  | .pmcfg p n => Sys2Proof.Machine.execPmcfg p n s
  | .evqpop p t1 t0 => Sys2Proof.Machine.execEvqpop p t1 t0 s
  | .evqput p => Sys2Proof.Machine.execEvqput p s
  | .taskrel p t1 t0 => Sys2Proof.Machine.execTaskrel p t1 t0 s
  | .cfgput p t1 t0 => Sys2Proof.Machine.execCfgput p t1 t0 s
  | .cfgcrcCheck p t1 t0 => Sys2Proof.Machine.execCfgcrcCheck p t1 t0 s
  | .cfgcrcDiscard p t1 t0 => Sys2Proof.Machine.execCfgcrcDiscard p t1 t0 s
  | .cfgcrcAct p t1 t0 => Sys2Proof.Machine.execCfgcrcAct p t1 t0 s
  | .sigchk p t1 t0 => Sys2Proof.Machine.execSigchk p t1 t0 s
  | .miold p wide t0 => Sys2Proof.Machine.execMiold p wide t0 s
  | .miost p wide => Sys2Proof.Machine.execMiost p wide s
  | .tlbinv p g t1 t0 => Sys2Proof.Machine.execTlbinv p g t1 t0 s
  | .freeze p => Sys2Proof.Machine.execFreeze p s
  | .drain p => Sys2Proof.Machine.execDrain p s
  | .halt p => Sys2Proof.Machine.execHalt p s
  | .schedulingDecision core => Sys2Proof.Machine.execSchedulingDecision core s
  | .configurationLoad core => Sys2Proof.Machine.execConfigurationLoad core s
  | .switchToken core inst idx lane => Sys2Proof.Machine.execSwitchToken core inst idx lane s
  | .threadAdmission core inst lane => Sys2Proof.Machine.execThreadAdmission core inst lane s
  | .tokenAccept core elem t => Sys2Proof.Machine.execTokenAccept core elem t s
  | .sinkOutput core slot n => Sys2Proof.Machine.execSinkOutput core slot n s
  | .phaseTwoPerform core slot => Sys2Proof.Machine.execPhaseTwoPerform core slot s
  | .roundSeal core round => Sys2Proof.Machine.execRoundSeal core round s
  | .sealExecute core => Sys2Proof.Machine.execSealExecute core s
  | .mmagExecute gang => Sys2Proof.Machine.execMmagExecute gang s
  | .rarePassStart core => Sys2Proof.Machine.execRarePassStart core s
  | .launchEnd seq => Sys2Proof.Machine.execLaunchEnd seq s
  | .homeWrite msg => Sys2Proof.Machine.execHomeWrite msg s
  | .coalescerAgeExpiry core tile line => Sys2Proof.Machine.execCoalescerAgeExpiry core tile line s
  | .ownershipRequest msg => Sys2Proof.Machine.execOwnershipRequest msg s
  | .ownershipGrant msg => Sys2Proof.Machine.execOwnershipGrant msg s
  | .ownerRecall msg => Sys2Proof.Machine.execOwnerRecall msg s
  | .lineWriteBack msg => Sys2Proof.Machine.execLineWriteBack msg s
  | .memoryReply req peer => Sys2Proof.Machine.execMemoryReply req peer s
  | .completionReturn msg => Sys2Proof.Machine.execCompletionReturn msg s
  | .nrAcknowledge msg => Sys2Proof.Machine.execNrAcknowledge msg s
  | .requestTimeout req => Sys2Proof.Machine.execRequestTimeout req s
  | .windowFill core wg port line => Sys2Proof.Machine.execWindowFill core wg port line s
  | .leaseExpiry core wg port line => Sys2Proof.Machine.execLeaseExpiry core wg port line s
  | .visibilityProbeAnswer core slot port => Sys2Proof.Machine.execVisibilityProbeAnswer core slot port s
  | .pageWalk die n => Sys2Proof.Machine.execPageWalk die n s
  | .pagerToken die n => Sys2Proof.Machine.execPagerToken die n s
  | .pagerFillComplete die n => Sys2Proof.Machine.execPagerFillComplete die n s
  | .pagerReplyRetry die n => Sys2Proof.Machine.execPagerReplyRetry die n s
  | .pagerReplyFail die n => Sys2Proof.Machine.execPagerReplyFail die n s
  | .tlbinvComplete n => Sys2Proof.Machine.execTlbinvComplete n s
  | .softError u addr corrected => Sys2Proof.Machine.execSoftError u addr corrected s
  | .engineCommandStart ctx => Sys2Proof.Machine.execEngineCommandStart ctx s
  | .engineCommandComplete ctx => Sys2Proof.Machine.execEngineCommandComplete ctx s
  | .collectiveMatch group seq => Sys2Proof.Machine.execCollectiveMatch group seq s
  | .splcmpSwitch die => Sys2Proof.Machine.execSplcmpSwitch die s
  | .spillwayRetire die pool => Sys2Proof.Machine.execSpillwayRetire die pool s
  | .launchDispatch q => Sys2Proof.Machine.execLaunchDispatch q s
  | .gangPlacement die => Sys2Proof.Machine.execGangPlacement die s
  | .taskToken die => Sys2Proof.Machine.execTaskToken die s
  | .dikewatchFire gang => Sys2Proof.Machine.execDikewatchFire gang s
  | .clockStamp die j stamp => Sys2Proof.Machine.execClockStamp die j stamp s
  | .ualinkRequest port r => Sys2Proof.Machine.execUalinkRequest port r s
  | .ualinkLinkLoss port => Sys2Proof.Machine.execUalinkLinkLoss port s
  | .hostWrite off data => Sys2Proof.Machine.execHostWrite off data s
  | .hostRead off n => Sys2Proof.Machine.execHostRead off n s
  | .xqTailWrite v => Sys2Proof.Machine.execXqTailWrite v s
  | .xferDescriptorStart => Sys2Proof.Machine.execXferDescriptorStart s
  | .xferDescriptorComplete => Sys2Proof.Machine.execXferDescriptorComplete s
  | .xqRestart => Sys2Proof.Machine.execXqRestart s
  | .lqPush q va => Sys2Proof.Machine.execLqPush q va s
  | .hostTaskToken task => Sys2Proof.Machine.execHostTaskToken task s
  | .parkResume core slot => Sys2Proof.Machine.execParkResume core slot s
  | .parkKill core slot => Sys2Proof.Machine.execParkKill core slot s
  | .parkResumeSkip core slot => Sys2Proof.Machine.execParkResumeSkip core slot s
  | .freezeSquash core => Sys2Proof.Machine.execFreezeSquash core s
  | .squashSave gang => Sys2Proof.Machine.execSquashSave gang s
  | .freezeDrain core => Sys2Proof.Machine.execFreezeDrain core s
  | .drainComplete gang => Sys2Proof.Machine.execDrainComplete gang s
  | .gangThaw core => Sys2Proof.Machine.execGangThaw core s
  | .gangSquash core => Sys2Proof.Machine.execGangSquash core s
  | .gangKill core => Sys2Proof.Machine.execGangKill core s
  | .dvFreeze v => Sys2Proof.Machine.execDvFreeze v s
  | .dsFreeze die v => Sys2Proof.Machine.execDsFreeze die v s
  | .dieReset die => Sys2Proof.Machine.execDieReset die s
  | .powerOn ok m0 sup cc => Sys2Proof.Machine.execPowerOn ok m0 sup cc s
  | .bootScrubComplete => Sys2Proof.Machine.execBootScrubComplete s
  | .mtxResume core ctx => Sys2Proof.Machine.execMtxResume core ctx s
  | .mtxAbandon core ctx => Sys2Proof.Machine.execMtxAbandon core ctx s
  | .engResume die ctx => Sys2Proof.Machine.execEngResume die ctx s
  | .engAbandon die ctx => Sys2Proof.Machine.execEngAbandon die ctx s
  | .ccJobWrite core v => Sys2Proof.Machine.execCcJobWrite core v s
  | .controlJobStart core => Sys2Proof.Machine.execControlJobStart core s
  | .eventJobStart core => Sys2Proof.Machine.execEventJobStart core s
  | .ccImageReplace die v => Sys2Proof.Machine.execCcImageReplace die v s
  | .ccImageInstall die => Sys2Proof.Machine.execCcImageInstall die s
  | .zpCommit => Sys2Proof.Machine.execZpCommit s
  | .circuitChangeComplete => Sys2Proof.Machine.execCircuitChangeComplete s
  | .clkepochInstall die j v => Sys2Proof.Machine.execClkepochInstall die j v s
  | .attestationGo => Sys2Proof.Machine.execAttestationGo s
  | .quoteComplete => Sys2Proof.Machine.execQuoteComplete s
  | .powerMeasurement watts => Sys2Proof.Machine.execPowerMeasurement watts s
  | .thermalThreshold die celsius => Sys2Proof.Machine.execThermalThreshold die celsius s
  | .hswDataWrite off data => Sys2Proof.Machine.execHswDataWrite off data s
  | .hswDataRead off n => Sys2Proof.Machine.execHswDataRead off n s
  | .registerWrite off n v => Sys2Proof.Machine.execRegisterWrite off n v s
  | .completionTimePassed core slot => Sys2Proof.Machine.execCompletionTimePassed core slot s
  | .timeProbeReply die j clock => Sys2Proof.Machine.execTimeProbeReply die j clock s
  | .ualinkLinkUp port => Sys2Proof.Machine.execUalinkLinkUp port s

end Sys2Proof.Machine
end

