-- ==== Sys2Proof/Machine/Elapse.lean ====
section
/-! DEFINITION. Time: the die clocks, the ages of requests and the dikewatch counts (R379, R414, R419, R420). -/

namespace Sys2Proof.Machine

/-- A gang has a thread that dikewatch counts for (R419). -/
def State.gangLive (s : State) (g : Nat) : Bool :=
  (s.gangThreads g).any (fun t => match (s.thread t.1 t.2).st with
    | .waiting | .admitted | .commit | .rare => true
    | .held _ => true
    | _ => false)

/-- A command waits for its partner without bound: a COLL for the other participants, a receive for an entry or for
the end of its culvert (R320, R321). -/
def State.awaitsPeer (s : State) (k : Cmd) : Bool :=
  match k.instr with
  | .coll .. => k.todo = [.decide 2] || k.todo = [.decide 3]
  | .cpyRecv _ _ _ _ _ cv =>
    let x := s.culvert (culvertKey k.seq cv.toNat)
    k.running && k.todo = [.decide 0] && !x.busy && x.written ≤ x.read && !x.ended
  | _ => false

/-- A command of a gang is in flight in a context: the engine works on the command at the head, which has neither
stopped nor waits for a partner (R29, R283, R315, R419). (log 69, DEDUCED) -/
def State.cmdInFlight (s : State) (g ctx : Nat) : Bool :=
  match ((s.context ctx).map (·.queue)).getD [] with
  | [] => false
  | k :: rest => !k.stopped && !s.awaitsPeer k && (k :: rest).any (fun k => k.gang = g && k.agent.slot.isSome)

/-- A gang has a request outstanding: a memory, remote or engine request in flight, or a TLWAIT; a stopped
command is none (R283, R385, R419). -/
def State.gangWaits (s : State) (g : Nat) : Bool :=
  let mine (a : Agent) : Bool := match a.slot with | some t => s.gangOf a.core t = g | none => false
  s.writesOut g
    || s.reqs.any (fun e => mine e.2.agent)
    || s.msgs.any (fun e => match e.2 with
      | .nrAck _ k _ _ _ _ _ => k = g
      | _ => false)
    || (s.gang g).members.any (fun m => (s.core m.core).nrOps.any (fun e => e.2.gang = g))
    || (s.gangContexts g).any (s.cmdInFlight g)

/-- A gang's dikewatch count after `ns` nanoseconds without an act of it, in fortieths of a cycle: a core at
throttle step k runs 7 · (8 - k) of them in a nanosecond (R5, R419, R441). A held gang keeps its count (R414). -/
def State.dikeAfter (s : State) (g ns : Nat) : Nat :=
  let x := s.gang g
  if x.frozen != .no then 0
  else if s.gangHeld g then x.dike
  else if !s.gangLive g || s.gangWaits g then 0
  else x.dike + 7 * (8 - s.stepOf ((x.members.head?.map (·.core)).getD 0)) * ns

/-- Cores with a monitor that counts fabric cycles. -/
def State.cycleCores (s : State) : List Nat :=
  (s.regs.filterMap (fun e =>
    let o := e.1 % 0x10000
    if kcReg 0 0 ≤ e.1 && e.1 < kcReg 128 0 && 0x500 ≤ o && o < 0x600 && o % 16 = 0 && e.2 % 1024 = 1
    then some ((e.1 - kcReg 0 0) / 0x10000) else none)).eraseDups

/-- The fabric cycles of `ns` nanoseconds count on every core: seven in five nanoseconds (R5, R398). A throttled cycle is
one of them. (log 83, DESIGN CHOICE) -/
def State.countCycles (s : State) (ns : Nat) : State :=
  s.cycleCores.foldl (fun (st : State) c =>
    let t := (s.die (dieOf c)).clk
    st.count c 0x001 none ((t + ns) * 7 / 5 - t * 7 / 5)) s

/-- `ns` nanoseconds pass: every die clock advances, the ages of requests with them but for those of a held unit,
and the dikewatch counts (R379, R398, R414, R419, R420). (log 63, DESIGN CHOICE) -/
def State.elapse (s : State) (ns : Nat) : State :=
  let s := s.countCycles ns
  let gangs := s.gangs.map (fun e => (e.1, { e.2 with dike := s.dikeAfter e.1 ns }))
  let reqs := s.reqs.map (fun e => if s.reqHeld e.2 then (e.1, { e.2 with start := e.2.start + ns }) else e)
  let dies := (List.range 8).foldl (fun (m : Map Die) d =>
    let x := mgetD m d {}
    mput m d { x with clk := (x.clk + ns) % 2 ^ 64 }) s.dies
  { s with gangs, reqs, dies }

end Sys2Proof.Machine
end

