-- ==== Sys2Proof/Machine/Run.lean ====
section
/-! DEFINITION. How a coming step of the machine runs, and where an instruction is placed to be the next one. -/

namespace Sys2Proof.Machine

/-- The instruction that an agent's pass has at an index. -/
def State.instrOf (s : State) (a : Agent) (idx : Nat) : Option Instr :=
  match s.passOf a with
  | some p => instrAt (s.block p.img p.blk) idx
  | none => none

/-- What follows a firing: where no fabric carries the outputs, the pass may have completed phase one (R22, R45). -/
def State.afterFire (s : State) (a : Agent) : State :=
  match a with
  | .fab _ _ => s
  | a => s.checkPhaseOne a

/-- An instruction of an agent's pass is executed in phase one (R44, R22). -/
def runFire (a : Agent) (idx : Nat) (i : Instr) (s : State) : Host.Outcome State Fault Refusal :=
  match exec i { s with cur := { agent := a, idx, phase := .one } } with
  | .next t => .next (t.afterFire a)
  | .fault r => .fault r
  | .refused r => .refused r

/-- One coming step: an event, a firing, the next committing operation of a pass, or time. -/
def runAct (act : Act) (s : State) : Host.Outcome State Fault Refusal :=
  match act with
  | .event i => exec i s
  | .fire a idx =>
    match s.instrOf a idx with
    | some i => runFire a idx i s
    | none => .next s
  | .perform a => .next (s.performTwo a)
  | .elapse ns => .next (s.elapse ns)
  | .mask v masked => .next (s.maskVector v masked)
  | .hostError => .next s.hostError

/-- A block of the one instruction of these bits: a header, an MTX, SYS or other clause of its class, and the
instruction's words (R93, R98). -/
def oneBlock (c : Cls) (w : Nat) : List W32 :=
  [BitVec.ofNat 32 (2 ^ 16), 0, 0, 0, BitVec.ofNat 32 (c.code * 2 ^ 20 + 2 ^ 24), BitVec.ofNat 32 (w % 2 ^ 32)]
    ++ (if isX c (bitsOf w 31 25) then [BitVec.ofNat 32 (w / 2 ^ 32)] else [])

/-- The state with that block as an image, a pass of it in thread slot 0 of core 0, every input an operand of
zero and a true predicate where one is asked for, and its firing as the next step. (log 9, DESIGN CHOICE) -/
def State.placeInstr (s : State) (c : Cls) (i : Instr) (w : Nat) : State :=
  let a : Agent := .fab 0 0
  let ops : Map W64 := (allInputs i).foldl (fun m f => mput m (opKey 0 f) (if f = .P && prOf i = 2 then 1 else 0)) []
  let p : Pass := { opnd := ops, inst := some 0 }
  let t : Thread := { st := .admitted, pass := some p }
  let s := { s with images := mput s.images 0 { s.image 0 with blocks := [oneBlock c w] } }
  let s := s.setInst 0 0 { frames := 1, origins := [(0, 0, none)] }
  let s := s.setThread 0 0 t
  { s with agenda := .fire a 0 :: s.agenda }

end Sys2Proof.Machine
end

