-- ==== Sys2Proof/Machine/Idle.lean ====
section
/-! DEFINITION. What the machine may do of itself: the steps that the agenda need not name (log 50). The outside,
which is no part of this list, acts through the agenda alone. -/

namespace Sys2Proof.Machine

/-- A step that the machine may take of itself. -/
abbrev Own := State → Host.Outcome State Fault Refusal

/-- Instructions of an agent's pass that have not fired: with the agent, by index. -/
def State.unfired (s : State) (a : Agent) (p : Pass) : List (Nat × Agent) :=
  ((instrsOf (s.block p.img p.blk)).filter (fun e => !p.fired.contains e.1)).map (fun e => (e.1, a))

/-- Passes of a core: of its threads and of its control thread. -/
def State.corePasses (s : State) (c : Nat) (k : Core) : List (Agent × Pass) :=
  k.threads.filterMap (fun e => e.2.pass.map (fun p => (s.threadAgent c e.1, p))) ++ (k.ctl.pass.map (fun p => (Agent.ctl c, p))).toList

/-- Firings of some passes, the highest index first: a consumer on an element goes before its producer, whose next
token would find the edge full (R142, R298). -/
def State.fireActs (s : State) (ps : List (Agent × Pass)) : List Own :=
  let xs := ps.flatMap (fun e => s.unfired e.1 e.2)
  (List.range 128).reverse.flatMap (fun i => (xs.filter (fun e => e.1 = i)).map (fun e => runAct (.fire e.2 i)))

/-- The other steps of an agent's pass: its sink and its phase two. -/
def passActs (a : Agent) (p : Pass) : List Own :=
  let sink := match a, p.outs with
    | .fab c t, _ :: _ => [execSinkOutput c t 0]
    | _, _ => []
  let two := if !p.two then [] else match a.slot with
    | some t => [execPhaseTwoPerform a.core t]
    | none => [runAct (.perform a)]
  sink ++ two

/-- Steps of an instance: admissions in its lanes, and its switch tokens. -/
def State.instActs (s : State) (c i : Nat) (x : Inst) : List Own :=
  let lanes := List.range x.width
  let adm := if x.admitting.isSome then lanes.map (fun l => (execThreadAdmission c i l)) else []
  let sw := if x.retiring || !x.eosDue.isEmpty
    then (stationCodes (s.image x.img) x).map (fun q => execSwitchToken c i (q / 128) (q % 128)) else []
  adm ++ sw

/-- Steps of a workgroup's stream windows. -/
def State.windowActs (s : State) (c : Nat) (b : Nat) (w : Wg) : List Own :=
  let im := s.image (s.launch (s.gang w.gang).seq).img
  w.windows.flatMap (fun q =>
    let held := q.2.lines.map (fun l => (execLeaseExpiry c b q.1 l.1))
      ++ (q.2.lines.filter (·.2.due)).map (fun l s => .next (s.retryBack c b q.1 l.1))
    let n := match streamDecl im q.1 with | some d => windowLines d | none => 0
    let first := (q.2.base + q.2.tail) / 128
    held ++ (List.range n).map (fun k => (execWindowFill c b q.1 (first + k))))

/-- Steps of an engine context. -/
def State.engineActs (s : State) (ctx : Nat) : List Own :=
  match s.headCmd ctx with
  | some _ => [(execEngineCommandStart ctx), (execEngineCommandComplete ctx)]
  | none => []

/-- Steps of a core's fabric and of its programs: tokens, firings, outputs, phase two. -/
def State.fabricActs (s : State) (c : Nat) (k : Core) : List Own :=
  let ps := s.corePasses c k
  k.latch.map (fun e => execTokenAccept c (e.1 / 2) (e.1 % 2)) ++ s.fireActs ps
    ++ ps.flatMap (fun e => passActs e.1 e.2)

/-- Steps of a core's scheduler and of its control core. -/
def State.schedActs (s : State) (c : Nat) (k : Core) : List Own :=
  k.insts.flatMap (fun e => s.instActs c e.1 e.2)
    ++ [execSchedulingDecision c, execConfigurationLoad c, execRarePassStart c, execControlJobStart c, execEventJobStart c]

/-- Steps of a core's matrix unit and memory tiles. -/
def State.unitActs (s : State) (c : Nat) (k : Core) : List Own :=
  k.rounds.map (fun e => execRoundSeal c e.1) ++ [execSealExecute c]
    ++ (k.threads.filter (fun e => !e.2.far.isEmpty)).map (fun e => execCompletionTimePassed c e.1)
    ++ k.nrOps.map (fun e s => .next (s.serveNr c e.1))
    ++ k.coal.flatMap (fun e => e.2.map (fun x => execCoalescerAgeExpiry c e.1 x.line))
    ++ k.wgs.flatMap (fun e => s.windowActs c e.1 e.2)
    ++ s.engineActs (ctxLoad c) ++ s.engineActs (ctxWriter c)

/-- Steps of a die: its walker, its pager, its engines and its supervisor. -/
def State.dieActs (s : State) (d : Nat) (x : Die) : List Own :=
  let sup := match x.sup.pass with | some p => s.fireActs [(.sup d, p)] ++ passActs (.sup d) p | none => []
  let walks := (List.range (min 8 x.walks.length)).map (fun n => (execPageWalk d n))
  let faults := x.faults.flatMap (fun e => [(execPagerToken d e.1), (execPagerFillComplete d e.1)])
  let joins := match s.headCmd (ctxColl d) with
    | some k => let v := mgetD k.vals 2 []; [(execCollectiveMatch (v.getD 3 0) (v.getD 4 0))]
    | none => []
  let clocks := (List.range 8).flatMap (fun j => [stampDue d j, probeDue d j])
  clocks ++ sup ++ walks ++ faults
    ++ (List.range 4).flatMap (fun e => s.engineActs (ctxCopy d e)) ++ s.engineActs (ctxColl d) ++ s.engineActs (ctxSpill d)
    ++ joins ++ [execSplcmpSwitch d]
    ++ (List.range x.pools.length).map (fun n => (execSpillwayRetire d n))
    ++ [(execGangPlacement d), (execTaskToken d), (execCcImageInstall d)]

/-- The step in which a message arrives. -/
def msgAct (n : Nat) : Msg → Own
  | .write .. => execHomeWrite n
  | .ownReq .. => execOwnershipRequest n
  | .grant .. => execOwnershipGrant n
  | .recall .. => execOwnerRecall n
  | .back .. => execLineWriteBack n
  | .done .. => execCompletionReturn n
  | .nrAck .. => execNrAcknowledge n

/-- Steps of an outstanding request. -/
def reqActs (n : Nat) (r : Req) : List Own :=
  match r.kind with
  | .probe port => [(execVisibilityProbeAnswer r.agent.core (r.agent.slot.getD 0xFFFF) port), (execRequestTimeout n)]
  | _ => [(execMemoryReply n .none), (execRequestTimeout n)]

/-- Cores that may have something to do: those that are not as reset left them, and those with a job. -/
def State.busyCores (s : State) : List (Nat × Core) :=
  ((List.range 128).filter (fun c => (mget s.cores c).isSome || flag (s.reg (kcJob c)) 0)).map (fun c => (c, s.core c))

/-- The steps that the machine may take of itself, by unit. -/
def State.ownSteps (s : State) : List (List Own) :=
  let cores := s.busyCores
  cores.map (fun e => s.fabricActs e.1 e.2) ++ cores.map (fun e => s.schedActs e.1 e.2)
    ++ cores.map (fun e => s.unitActs e.1 e.2) ++ s.dies.map (fun e => s.dieActs e.1 e.2)
    ++ [s.msgs.map (fun e => msgAct e.1 e.2), s.reqs.flatMap (fun e => reqActs e.1 e.2), s.late.map (fun e => execMemoryReply e.1 .none),
        s.invals.map (fun e => execTlbinvComplete e.1),
        s.links.map (fun e s => .next (s.serveLink e.1)),
        s.portQ.flatMap (fun e => (List.range e.2.length).map (fun k s => .next (s.portServe e.1 k))),
        (List.range 64).map (fun q => execLaunchDispatch q) ++ s.launches.map (fun e => execLaunchEnd e.1),
        s.gangs.flatMap (fun e => [execMmagExecute e.1, execSquashSave e.1, execDrainComplete e.1, execDikewatchFire e.1]),
        [execCircuitChangeComplete, execXferDescriptorStart, execXferDescriptorComplete, execQuoteComplete,
         execBootScrubComplete]]

/-- The first of some steps that does anything. -/
def State.firstOf (s : State) : List Own → Option State
  | [] => none
  | act :: rest => match act s with
    | .next t => if { t with cur := s.cur } = s then s.firstOf rest else some t
    | _ => s.firstOf rest

/-- With nothing on its agenda the machine goes on by itself: one of its own steps that does anything, of the units
in turn as the clock of die 0 counts, and a nanosecond passes. (log 50, DESIGN CHOICE) -/
def State.idle (s : State) : State :=
  let units := s.ownSteps
  let n := (s.die 0).clk % max 1 units.length
  ((s.firstOf (units.drop n ++ units.take n).flatten).getD s).elapse 1

/-- An access from outside waits in its place, and what follows it waits behind it (R244). -/
def State.waitsOn (s : State) : Act → Bool
  | .event (.hostWrite off data) => s.hostWriteWaits off data.length
  | .event (.hostRead off n) => s.hostReadWaits off n
  | .event (.hswDataWrite off data) => s.hswWriteWaits off data
  | .event (.hswDataRead off n) => s.hswReadWaits off n
  | .event (.registerWrite off n _) => s.regWaits off n
  | _ => false

/-- An access from outside that waits has started what it waits for, and the machine goes on by itself. -/
def State.await (s : State) (act : Act) : State :=
  match runAct act s with
  | .next t => t.idle
  | _ => s.idle

/-- The next step: the head of the agenda, or a step of the machine's own. (log 50, DESIGN CHOICE) -/
def State.advance (s : State) : Host.Outcome State Fault Refusal :=
  match s.agenda with
  | act :: rest => if s.waitsOn act then .next (s.await act) else runAct act { s with agenda := rest }
  | [] => .next s.idle

end Sys2Proof.Machine
end

