-- ==== Sys2Proof/Machine/Step.lean ====
section
/-! DEFINITION. One step of the machine, and the placing of one instruction where the next step fetches it. -/

namespace Sys2Proof.Machine

/-- One step. -/
def step (s : State) : Host.Outcome State Fault Refusal := s.advance

/-- `s` with the instruction of bits `w` as the whole of a block that a pass of core 0 has admitted,
and its firing as the next step. (log 9, DESIGN CHOICE) -/
def State.withFetchWord (s : State) (_nbits w : Nat) : State :=
  match classOfWord w with
  | none => s
  | some (c, i) => s.placeInstr c i w

end Sys2Proof.Machine
end

