-- ==== Sys2Proof/Safety.lean ====
section
/-! DEFINITION. What counts as a safe state: device and host memory in canonical form. -/

namespace Sys2Proof

/-- The memories of a state are in canonical form, so equal contents are equal data. -/
def Machine.State.memoryOk (s : Machine.State) : Prop := s.mem.wf = true ∧ s.host.wf = true

end Sys2Proof
end

