-- ==== Sys2Proof/Certificates/Slice0/Obligations.lean ====
section
/-! DEFINITION. The statements about the LH-9800 for the provers, one `def Obligations.<Name> : Prop` each,
with the vocabulary they share: reading a token as a number, extending a result, and the shape of a firing. -/

namespace Sys2Proof.Claims
open Sys2Proof.Machine

/-! ## Firings -/

/-- The executing instruction holds every input it reads, its clause is open, its latches are free and its
predicate lets it act, on operands `l`, `r` and `q` (R44, R99, R104, R142). -/
def Fires (s : State) (ins : List Field) (pr : Nat) (l r q : W64) : Prop := s.ready ins pr = .on l r q

/-- The state whose operands the executing instruction has taken, its firing counted (R103, R104). -/
def took (s : State) (ins : List Field) (pr : Nat) : State := (s.consume ins pr).fired

/-- The operands are taken and two values leave on T0 and T1 (R142, R149). -/
def sends2 (s : State) (ins : List Field) (pr : Nat) (t0 t1 : Target) (v0 v1 : W64) : Host.Outcome State Fault Refusal :=
  .next ((took s ins pr).emit t0 t1 v0 v1)

/-- The operands are taken and one value leaves on T0, with a second copy on T1 (R102, R149). -/
def sends (s : State) (ins : List Field) (pr : Nat) (t0 t1 : Target) (v : W64) : Host.Outcome State Fault Refusal :=
  sends2 s ins pr t0 t1 v v

/-! ## Numbers, as R61, R62, R101 and R151 read and extend them -/

/-- The integer that the low bits of a token stand for under a type. -/
def readInt (ty : IntTy) (x : W64) : Int :=
  if ty.signed then (x.setWidth ty.width).toInt else ((x.setWidth ty.width).toNat : Int)

/-- The least integer of a type. -/
def lowest (ty : IntTy) : Int := if ty.signed then -2 ^ (ty.width - 1) else 0

/-- The greatest integer of a type. -/
def highest (ty : IntTy) : Int := if ty.signed then 2 ^ (ty.width - 1) - 1 else 2 ^ ty.width - 1

/-- An exact result saturated or wrapped to the type and extended to a token. -/
def finish (ty : IntTy) (sat : Bool) (x : Int) : W64 :=
  let y := BitVec.ofInt ty.width (if sat then max (lowest ty) (min (highest ty) x) else x)
  if ty.signed then y.signExtend 64 else y.setWidth 64

/-- A bit type cut from a token, zero above. -/
def cut (ty : BitTy) (x : W64) : W64 :=
  match ty with
  | .b32 => (x.setWidth 32).setWidth 64
  | .b64 => x

/-- Bits of a bit type. -/
def bits : BitTy → Nat
  | .b32 => 32
  | .b64 => 64

/-- A constant word of the executing pass, or the pair that begins with it. -/
def constTok (s : State) (pair : Bool) (k : Nat) : W64 :=
  if pair then s.consts.getD (k + 1) 0 ++ s.consts.getD k 0 else (s.consts.getD k 0).setWidth 64

/-- The second operand of a bitwise I form. -/
def bitField (s : State) (ty : BitTy) : IField → W64
  | .imm v => BitVec.ofInt 64 v
  | .const k => constTok s (ty == .b64) k

/-- The second operand of ADDI. -/
def intField (s : State) (ty : IntTy) : IField → Int
  | .imm v => v
  | .const k => readInt ty (constTok s (ty.width == 64) k)

/-- The count of SHLI and SHRI. -/
def countField (s : State) : IField → Nat
  | .imm v => v.toNat
  | .const k => (s.consts.getD k 0).toNat

/-- Bits of a compare width. -/
def cmpBits : CWidth → Nat
  | .w8 => 8 | .w16 => 16 | .w32 => 32 | .w64 => 64

/-- A compare operand: the low bits of a token. -/
def readCmp (signed : Bool) (w : CWidth) (x : W64) : Int :=
  if signed then (x.setWidth (cmpBits w)).toInt else ((x.setWidth (cmpBits w)).toNat : Int)

/-- The second operand of CMPI. -/
def cmpField (s : State) (signed : Bool) (w : CWidth) : IField → Int
  | .imm v => if signed then v else ((BitVec.ofInt (cmpBits w) v).toNat : Int)
  | .const k => readCmp signed w (constTok s (w == .w64) k)

/-- A condition of CMP on two integers. -/
def holds (c : Cond) (a b : Int) : Bool :=
  match c with
  | .eq => a = b
  | .ne => a ≠ b
  | .lt => a < b
  | .le => a ≤ b
  | .gt => a > b
  | .ge => a ≥ b

/-- The XI type of a signed type. -/
def wide : SIntTy → IntTy
  | .i8 => .i8 | .i16 => .i16 | .i32 => .i32 | .i64 => .i64

end Sys2Proof.Claims

open Sys2Proof Sys2Proof.Machine Sys2Proof.Claims

namespace Sys2Proof.Claims
open Sys2Proof.Machine

/-- The instructions whose firing touches nothing but their own pass: integer, float, conversion and flow
instructions, without the readers of other threads' tokens, LVR and RET. -/
def localFiring : Instr → Bool
  | .add .. | .sub .. | .mul .. | .mulh .. | .div .. | .rem .. | .min .. | .max .. | .abs .. | .neg .. => true
  | .and .. | .or .. | .xor .. | .andn .. | .shl .. | .shr .. | .rot .. | .bfx .. | .bfi .. => true
  | .popc .. | .clz .. | .ctz .. | .brev .. | .lea .. | .sel .. | .cmpSigned .. | .cmpUnsigned .. => true
  | .pand .. | .por .. | .pxor .. | .pnot .. | .mov .. | .movi .. | .const .. | .addi .. => true
  | .andi .. | .ori .. | .xori .. | .shli .. | .shri .. | .cmpiSigned .. | .cmpiUnsigned .. | .lvw .. | .srd .. => true
  | .fadd .. | .fsub .. | .fmul .. | .ffma .. | .fmin .. | .fmax .. | .fcmp .. | .fdiv .. | .fsqrt .. => true
  | .frcp .. | .frsq .. | .fexp2 .. | .flog2 .. | .fsinp .. | .fcosp .. | .frnd .. | .fclass .. => true
  | .cvt .. | .cvtbToLog .. | .cvtbToF32 .. | .cvtp .. => true
  | .br .. | .bri .. | .call .. | .exit .. | .switch .. | .nullLsid .. | .nullRegister .. | .yield .. | .xpath .. => true
  | .nop .. => true
  | _ => false

/-- Every thread slot of a core is listed once, in order. -/
def Keyed (s : State) (c : Nat) : Prop := (s.core c).threads.Pairwise (fun e f => e.1 < f.1)

/-- The executing agent is a thread on the fabric, in instance `n` with pass `p`, and no token stands on an edge
of that instance. -/
structure OnFabric (s : State) (c t n : Nat) (p : Pass) : Prop where
  agent : s.cur.agent = .fab c t
  pass : s.passOf (.fab c t) = some p
  inst : p.inst = some n
  quiet : (s.inst c n).edges = []

end Sys2Proof.Claims

namespace Sys2Proof.Claims
open Sys2Proof.Machine

/-- The slot of a lane group's lane, where the lane lies inside it (R197, R198). -/
def groupSlot (w t : Nat) : Option Nat → Option Nat
  | some l => if l < w then some (t - t % w + l) else none
  | none => none

/-- The source lane that XSHUF names (R198). -/
def namedLane (m : ShufMode) (lane d : Nat) : Option Nat :=
  match m with
  | .idx => some d
  | .up => if lane < d then none else some (lane - d)
  | .down => some (lane + d)
  | .xor => some (lane ^^^ d)

/-- A source by slot, unusable outside the group (R197, R199). -/
def sourceAt (s : State) (c rk : Nat) : Option Nat → Source
  | some u => s.source c rk s.cur.idx u
  | none => .unusable

/-- A reader takes its operands, keeps its L token for its own readers and sends a value with its mark (R197). -/
def reads (s : State) (pr : Nat) (t0 t1 : Target) (l v ok : W64) : Host.Outcome State Fault Refusal :=
  .next ((took (s.holdL l) [.L, .R] pr).emit t0 t1 v ok).freeAfter

/-- What a reader does with the verdict on its source (R197). -/
def readerActs (s : State) (pr : Nat) (t0 t1 : Target) (l : W64) : Source → Host.Outcome State Fault Refusal
  | .undecided => .next s
  | .usable v => reads s pr t0 t1 l v 1
  | .unusable => reads s pr t0 t1 l l 0

/-- The four collectives with one predicate and one pair of targets (R201). -/
def collectives (p : Pred) (op : Red) (m : Vote) (t1 t0 : Target) : List Instr :=
  [.rred p op t1 t0, .rscanInclusive p op t1 t0, .rscanExclusive p op t1 t0, .rvote p m t1 t0]

/-- A round after every instruction of a ROUND clause has been computed for its members (R201). -/
def clauseComputed (s : State) (c rk k : Nat) (is : List (Nat × Instr)) : State :=
  let u := is.foldl (fun st e => st.computeRed c rk is e) s
  u.setRound c rk { u.round c rk with clauses := (u.round c rk).clauses ++ [k] }

/-- The merge of two key lists by the steps of R312, each key with the lists it came from. -/
inductive Merged (union : Bool) : List Nat → List Nat → List (Nat × Nat) → Prop
  | noA (bs) : Merged union [] bs (if union then bs.map (fun b => (b, 2)) else [])
  | noB (xs) : Merged union xs [] (if union then xs.map (fun a => (a, 1)) else [])
  | onlyA (a b xs bs out) : a < b → Merged union xs (b :: bs) out →
      Merged union (a :: xs) (b :: bs) ((if union then [(a, 1)] else []) ++ out)
  | onlyB (a b xs bs out) : b < a → Merged union (a :: xs) bs out →
      Merged union (a :: xs) (b :: bs) ((if union then [(b, 2)] else []) ++ out)
  | both (a xs bs out) : Merged union xs bs out → Merged union (a :: xs) (a :: bs) ((a, 3) :: out)

/-- The stream node instructions with what each makes of its members' operands (R312, R313). -/
def nodes (p : Pred) (w : Bool) (t1 t0 : Target) : List (Instr × (List (W64 × W64) → List (W64 × W64))) :=
  [(.isect p w t1 t0, mergeOut false w), (.union p w t1 t0, mergeOut true w),
   (.compact p w t1 t0, compactOut w), (.expand p w t1 t0, expandOut w)]

/-- The operands of the members of a lane group, where every slot of it is decided (R197, R311). -/
def groupMembers (s : State) (c rk pr t w : Nat) : List (Nat × (W64 × W64)) :=
  ((List.range w).map (fun m => t - t % w + m)).filterMap (fun u =>
    match s.nodeMember c rk s.cur.idx pr u with
    | some (some x) => some (u, x)
    | _ => none)

end Sys2Proof.Claims

namespace Sys2Proof.Claims
open Sys2Proof.Machine

/-- The three binary formats (R63). -/
def formats : List Fmt := [.f32, .f16, .bf16]

/-- A code of a format is a NaN, an infinity, or finite (R63). -/
def isNan (F : Fmt) (n : Nat) : Prop := n / 2 ^ F.fb % 2 ^ F.eb = 2 ^ F.eb - 1 ∧ n % 2 ^ F.fb ≠ 0
def isInf (F : Fmt) (n : Nat) : Prop := n / 2 ^ F.fb % 2 ^ F.eb = 2 ^ F.eb - 1 ∧ n % 2 ^ F.fb = 0
def isFinite (F : Fmt) (n : Nat) : Prop := n / 2 ^ F.fb % 2 ^ F.eb ≠ 2 ^ F.eb - 1
def isZero (F : Fmt) (n : Nat) : Prop := n % 2 ^ (F.eb + F.fb) = 0
def isNegative (F : Fmt) (n : Nat) : Prop := n / 2 ^ (F.eb + F.fb) % 2 = 1

/-- The exact value of a finite code (R63, R64). -/
def value (F : Fmt) (n : Nat) : ℚ :=
  let s : ℚ := if n / 2 ^ (F.eb + F.fb) % 2 = 1 then -1 else 1
  let x := n / 2 ^ F.fb % 2 ^ F.eb
  let f := n % 2 ^ F.fb
  let bias : Int := 2 ^ (F.eb - 1) - 1
  if x = 0 then s * f * 2 ^ (1 - bias - (F.fb : Int)) else s * (2 ^ F.fb + f) * 2 ^ ((x : Int) - bias - (F.fb : Int))

/-- Two-operand float instructions with what each computes (R182 to R187). -/
def floats2 (p : Pred) (f : FFmt) (sf : SFmt) (rm : Rnd) (lm : LMod) (ng : Bool) (c : FCond) (t1 t0 : Target) (l r : W64) :
    List (Instr × FireRes) :=
  [(.fadd p f rm lm ng t1 t0, fpuAdd f rm lm ng l r), (.fsub p f rm lm ng t1 t0, fpuSub f rm lm ng l r),
   (.fmul p f rm lm ng t1 t0, fpuMul f rm lm ng l r), (.fmin p f rm lm ng t1 t0, fpuMin f lm ng l r),
   (.fmax p f rm lm ng t1 t0, fpuMax f lm ng l r), (.fcmp p f c t1 t0, fpuCmp f c l r),
   (.fdiv p sf rm lm ng t1 t0, fpuDiv sf rm lm ng l r)]

/-- One-operand float instructions with what each computes (R187 to R189). -/
def floats1 (p : Pred) (f : SFmt) (rm : Rnd) (lm : LMod) (t1 t0 : Target) (l : W64) : List (Instr × FireRes) :=
  [(.fsqrt p f rm lm t1 t0, fpuSqrt f rm lm l), (.frcp p f rm lm t1 t0, fpuRcp f rm lm l),
   (.frsq p f rm lm t1 t0, fpuRsq f rm lm l), (.fexp2 p f rm lm t1 t0, fpuExp2 f rm lm l),
   (.flog2 p f rm lm t1 t0, fpuLog2 f rm lm l), (.fsinp p f rm lm t1 t0, fpuSinPi f rm lm l),
   (.fcosp p f rm lm t1 t0, fpuCosPi f rm lm l), (.frnd p f rm lm t1 t0, fpuRnd f rm lm l),
   (.fclass p f t1 t0, fpuClass f l)]

/-- Conversions of two operands with what each computes (R193, R195, R196). -/
def converts2 (p : Pred) (src : SFmt) (lf : LogFmt) (len : BlkLen) (rm : Rnd) (bf : Bool) (t1 t0 : Target) (l r : W64) :
    List (Instr × FireRes) :=
  [(.cvtbToLog p src lf len t1 t0, cvtbToLogResult src lf len l r),
   (.cvtbToF32 p rm lf len t1 t0, cvtbToF32Result rm lf len l r), (.cvtp p rm bf t1 t0, cvtpResult rm bf l r)]

end Sys2Proof.Claims

namespace Sys2Proof.Claims
open Sys2Proof.Machine

/-- The instructions that have an effect at their LSID in phase two (R47). -/
def commits : Instr → Bool
  | .st .. | .stl .. | .rst .. | .sput .. | .smark .. | .fence .. | .binit .. | .barv .. | .bexp .. | .qpush .. | .qgrant .. => true
  | .aadd .. | .afadd .. | .amin .. | .amax .. | .aand .. | .aor .. | .axor .. | .axchg .. | .acas .. | .acasw .. | .acasv .. => true
  | .aaddNr .. | .afaddNr .. | .aminNr .. | .amaxNr .. | .aandNr .. | .aorNr .. | .axorNr .. | .axchgNr .. => true
  | .acasNr .. | .acaswNr .. | .acasvNr .. | .mld .. | .mldKv .. | .mst .. | .amass .. => true
  | .cpy .. | .cpySend .. | .cpyRecv .. | .cpyt .. | .coll .. | .splev .. | .splcmp .. | .spldcy .. | .rmaprd .. | .rmapwr .. => true
  | .tsend .. | .launch .. | .kset .. => true
  | _ => false

/-- A block that a branch of a thread may name (R171). -/
def legal (s : State) (c t n : Nat) : Prop :=
  let im := s.image (s.imgOf c t)
  n < 2 ^ 18 ∧ n < im.blocks.length ∧
    ∀ q, (s.gang (s.gangOf c t)).polder = some q → ∃ d, im.polders.find? (·.id = q) = some d ∧ d.first ≤ n ∧ n < d.first + d.count

/-- A pass of a thread on the fabric that may deliver an output to the sink. -/
structure AtSink (s : State) (c t : Nat) (p : Pass) : Prop where
  pass : s.passOf (.fab c t) = some p
  fabric : p.inst.isSome = true
  runs : s.stopped (.fab c t) = false
  live : (s.thread c t).st ≠ .parked

/-- The pass without the output that has reached the sink. -/
def shown (s : State) (c t n : Nat) (p : Pass) : State := s.setPass (.fab c t) { p with outs := p.outs.eraseIdx n }

end Sys2Proof.Claims

namespace Sys2Proof.Claims
open Sys2Proof.Machine

/-- The rows of spec/opcode_table.json that are events, without an encoding (spec/95_what_each_step_holds.md). -/
def isEvent : Instr → Bool
  | .schedulingDecision .. | .configurationLoad .. | .switchToken .. | .threadAdmission .. | .tokenAccept .. | .sinkOutput .. => true
  | .phaseTwoPerform .. | .roundSeal .. | .sealExecute .. | .mmagExecute .. | .rarePassStart .. | .launchEnd .. => true
  | .homeWrite .. | .coalescerAgeExpiry .. | .ownershipRequest .. | .ownershipGrant .. | .ownerRecall .. | .lineWriteBack .. => true
  | .memoryReply .. | .completionReturn .. | .nrAcknowledge .. | .requestTimeout .. | .windowFill .. | .leaseExpiry .. => true
  | .visibilityProbeAnswer .. | .pageWalk .. | .pagerToken .. | .pagerFillComplete .. | .pagerReplyRetry .. | .pagerReplyFail .. => true
  | .tlbinvComplete .. | .softError .. | .engineCommandStart .. | .engineCommandComplete .. | .collectiveMatch .. | .splcmpSwitch .. => true
  | .spillwayRetire .. | .launchDispatch .. | .gangPlacement .. | .taskToken .. | .dikewatchFire .. | .clockStamp .. => true
  | .ualinkRequest .. | .ualinkLinkLoss .. | .hostWrite .. | .hostRead .. | .xqTailWrite .. | .xferDescriptorStart => true
  | .xferDescriptorComplete | .xqRestart | .lqPush .. | .hostTaskToken .. | .parkResume .. | .parkKill .. => true
  | .parkResumeSkip .. | .freezeSquash .. | .squashSave .. | .freezeDrain .. | .drainComplete .. | .gangThaw .. => true
  | .gangSquash .. | .gangKill .. | .dvFreeze .. | .dsFreeze .. | .dieReset .. | .powerOn .. => true
  | .bootScrubComplete | .mtxResume .. | .mtxAbandon .. | .engResume .. | .engAbandon .. | .ccJobWrite .. => true
  | .controlJobStart .. | .eventJobStart .. | .ccImageReplace .. | .ccImageInstall .. | .zpCommit | .circuitChangeComplete => true
  | .clkepochInstall .. | .attestationGo | .quoteComplete | .powerMeasurement .. | .thermalThreshold .. | .hswDataWrite .. => true
  | .hswDataRead .. | .registerWrite .. | .completionTimePassed .. | .timeProbeReply .. | .ualinkLinkUp .. => true
  | _ => false

end Sys2Proof.Claims

namespace Sys2Proof.Claims
open Sys2Proof.Machine

/-- The effective address: base and scaled offset modulo 2^57 (R250). -/
def ea57 (l : W64) (off : Int) (n : Nat) : Nat := (l.setWidth 57 + BitVec.ofInt 57 (off * n)).toNat

/-- Bytes of a memory size (R107). -/
def sizeOfAccess : Size → Nat
  | .s1 => 1 | .s2 => 2 | .s4 => 4 | .s8 => 8

/-- The record of a read all of whose bytes come from memory (R46). -/
def plainRead (lsid pa n : Nat) : LoadRec := { lsid, bytes := (List.range n).map (fun k => (pa + k, none)) }

/-- A read of the bytes `vs` with LSID `j` issues: no acquire holds it back, and no store of a lower LSID (R46, R239). -/
def clearRead (s : State) (a : Agent) (p : Pass) (j : Nat) (fwd rem : Bool) (vs : List (Nat × Nat)) : Prop :=
  s.readBlocked a p j = false ∧ s.storeAhead a p j fwd rem vs = false

/-- A loaded value as a token (R254). -/
def loaded (n : Nat) (sx : Bool) (v : Nat) : W64 :=
  if sx then (BitVec.ofNat (8 * n) v).signExtend 64 else (BitVec.ofNat (8 * n) v).setWidth 64

/-- The returning atomics with their inputs and their pr field (R264 to R269). -/
def atomics (p : Pred) (ty : AIntTy) (ft : AFltTy) (bt : BitTy) (d : VData) (sc : Scope) (l : BitVec 5) (off : BitVec 4)
    (base : BitVec 6) (t1 t0 : Target) : List (Instr × List Field × Nat) :=
  [(.aadd p ty sc l off t0, [.L, .R], p.code), (.afadd p ft sc l off t0, [.L, .R], p.code),
   (.amin p ty sc l off t0, [.L, .R], p.code), (.amax p ty sc l off t0, [.L, .R], p.code),
   (.aand p bt sc l off t0, [.L, .R], p.code), (.aor p bt sc l off t0, [.L, .R], p.code),
   (.axor p bt sc l off t0, [.L, .R], p.code), (.axchg p bt sc l off t0, [.L, .R], p.code),
   (.acas bt sc l off t0, [.L, .R, .P], 1), (.acasw sc l base (off.signExtend 5) t1 t0, [.L, .R, .P], 1),
   (.acasv d sc l (off.signExtend 5) t1 t0, vdataIns d, vdataPr d)]

/-- The non-returning reductions with their inputs and their pr field (R267). -/
def reductions (p : Pred) (ty : AIntTy) (ft : AFltTy) (bt : BitTy) (d : VData) (sc : Scope) (l : BitVec 5) (off : BitVec 4)
    (base : BitVec 6) : List (Instr × List Field × Nat) :=
  [(.aaddNr p ty sc l off, [.L, .R], p.code), (.afaddNr p ft sc l off, [.L, .R], p.code),
   (.aminNr p ty sc l off, [.L, .R], p.code), (.amaxNr p ty sc l off, [.L, .R], p.code),
   (.aandNr p bt sc l off, [.L, .R], p.code), (.aorNr p bt sc l off, [.L, .R], p.code),
   (.axorNr p bt sc l off, [.L, .R], p.code), (.axchgNr p bt sc l off, [.L, .R], p.code),
   (.acasNr bt sc l off, [.L, .R, .P], 1), (.acaswNr sc l base (off.signExtend 5), [.L, .R, .P], 1),
   (.acasvNr d sc l (off.signExtend 5), vdataIns d, vdataPr d)]

/-- The executing agent is in phase two at an operation that has not performed: LSID `k`, operation `o`. -/
structure AtLsid (s : State) (k : Nat) (o : Op) : Prop where
  two : s.cur.phase = .two
  op : s.curOp = some (k, o)
  keyed : ((s.passOf s.cur.agent).bind (fun p => mget p.ops k)) = some o
  fresh : o.stale = false

/-- The operation at an LSID of the executing agent's pass. -/
def opAt (s : State) (a : Agent) (k : Nat) : Option Op := (s.passOf a).bind (fun p => mget p.ops k)

/-- Every byte of memory outside a range is as it was. -/
def sameOutside (s t : State) (a n : Nat) : Prop := ∀ x, x < a ∨ a + n ≤ x → readByte t.mem x = readByte s.mem x

end Sys2Proof.Claims

namespace Sys2Proof.Claims
open Sys2Proof.Machine

/-- Every key of a map is listed once, in order. -/
def keyed {α : Type} (m : Map α) : Prop := m.Pairwise (fun e f => e.1 < f.1)

/-- The operations of a pass that may stand are in the order of their LSIDs. -/
def opsKeyed (p : Option Pass) : Prop := ∀ q, p = some q → keyed q.ops

/-- The windows of a workgroup and their lines are in order. -/
def windowsKeyed (w : Wg) : Prop := keyed w.windows ∧ ∀ e ∈ w.windows, keyed e.2.lines

/-- Every table of a state lists its entries once, in the order of their keys. -/
structure Ordered (s : State) : Prop where
  tables : keyed s.regs ∧ keyed s.cores ∧ keyed s.dies ∧ keyed s.gangs ∧ keyed s.launches ∧ keyed s.tasks ∧ keyed s.reqs ∧ keyed s.late ∧ keyed s.msgs ∧
    keyed s.links ∧ keyed s.portQ
  cores : ∀ e ∈ s.cores, keyed e.2.threads ∧ keyed e.2.entries ∧ keyed e.2.wgs ∧ keyed e.2.rounds ∧ keyed e.2.insts
  passes : ∀ e ∈ s.cores, opsKeyed e.2.ctl.pass ∧ ∀ t ∈ e.2.threads, opsKeyed t.2.pass
  windows : ∀ e ∈ s.cores, ∀ w ∈ e.2.wgs, windowsKeyed w.2
  dies : ∀ e ∈ s.dies, opsKeyed e.2.sup.pass ∧ ∀ g ∈ e.2.saved, ∀ w ∈ g.wgs, windowsKeyed w.wg ∧ ∀ t ∈ w.threads, opsKeyed t.2.pass

end Sys2Proof.Claims

/-- Words written out in the spec decode to the instructions they stand for: one or more of each class, with the
extension words of format X. -/
def Obligations.SpecWordsDecode : Prop :=
  decode ⟨.alu, 0x44200282, none⟩ = .ok (.addi .always .i32 false (.imm 1) (.to .L 2)) ∧
  decode ⟨.alu, 0x2E200086, none⟩ = .ok (.lea .always 2 .i32 .none (.to .L 6)) ∧
  decode ⟨.alu, 0x32280187, none⟩ = .ok (.cmpSigned .always .lt .w32 .none (.to .P 7)) ∧
  decode ⟨.alu, 0x70430E86, none⟩ = .ok (.xshuf .always .down (.to .P 7) (.to .L 6)) ∧
  decode ⟨.fpu, 0x06800085, none⟩ = .ok (.ffma .f32 .rne .none false .none (.to .L 5)) ∧
  decode ⟨.fpu, 0x82700104, none⟩ = .ok (.fsub .always .bf16 .rdn .absl false .none (.to .R 4)) ∧
  decode ⟨.cvt, 0x3C200085, none⟩ = .ok (.cvt .always .i32 .f32 .rtz false .none (.to .L 5)) ∧
  decode ⟨.flow, 0x0400002A, none⟩ = .ok (.call .always 42) ∧
  decode ⟨.mem, 0x00404486, none⟩ = .ok (.ld .always .s4 false false 2 2 (.to .L 6)) ∧
  decode ⟨.mem, 0x0468BE00, none⟩ = .ok (.st .always .s8 true 5 15) ∧
  decode ⟨.mem, 0x08710C85, some 0x18020000⟩ = .ok (.ldv .always .s8 true 3 2 (.to .L 6) (.to .L 5)) ∧
  decode ⟨.sync, 0x10B06088, none⟩ = .ok (.acas .b64 .dev 3 0 (.to .L 8)) ∧
  decode ⟨.sync, 0x40308000, none⟩ = .ok (.fence .always .rel .dev 4) ∧
  decode ⟨.mtx, 0x08000000, some 0x0041A700⟩ = .ok (.mma .always 2 3 1 0 7) ∧
  decode ⟨.eng, 0x00100000, some 0x1D200800⟩ = .ok (.cpy .always .dev 3 (some 2) 1 4) ∧
  decode ⟨.sys, 0x00140000, none⟩ = .ok (.trap .always 5) ∧
  decode ⟨.sys, 0x08140084, none⟩ = .ok (.pmrd .always 5 .none (.to .L 4))

/-- Every well-formed instruction that is no event has words, and they decode to it, every operand kept. -/
def Obligations.DecodeInvertsEncode : Prop :=
  ∀ i : Instr, i.wf = true → isEvent i = false → ∃ c, encode i = some c ∧ decode c = .ok i

/-- A step whose agenda begins with a firing runs the instruction that its agent's pass holds at that index: the
instruction its block's words decode to, executed in phase one, after which a program without a fabric looks at its
sink.
The model's choice where the spec is silent: log 50. -/
def Sys2Proof.Claims.StepRunsTheDecodedFiring : Prop :=
  ∀ (s : State) (a : Agent) (idx : Nat) (rest : List Act) (p : Pass) (k : Code) (i : Instr),
    s.agenda = .fire a idx :: rest → s.passOf a = some p → codeAt (s.block p.img p.blk) idx = some k → decode k = .ok i →
    let u : State := { s with agenda := rest, cur := { agent := a, idx := idx, phase := .one } }
    ∀ t, exec i u = .next t →
      step s = .next (match a with
        | .fab _ _ => t
        | _ => t.checkPhaseOne a)

/-- A step whose agenda begins with an event is that event's execution, unless the event is an access from outside that
has to wait in its place.
The model's choice where the spec is silent: log 50. -/
def Sys2Proof.Claims.StepRunsTheEvent : Prop :=
  ∀ (s : State) (i : Instr) (rest : List Act), s.agenda = .event i :: rest → s.waitsOn (.event i) = false →
    step s = exec i { s with agenda := rest }

/-- Nothing stops the machine: every instruction and event, and every step, answers a next state. -/
def Sys2Proof.Claims.EveryStepAnswersANextState : Prop :=
  (∀ (i : Instr) (s : State), ∃ t, exec i s = .next t) ∧ ∀ s : State, ∃ t, step s = .next t

/-- Every step keeps device memory and host memory in their canonical form. -/
def Obligations.StepsKeepMemoryCanonical : Prop :=
  ∀ s t : State, s.memoryOk → step s = .next t → t.memoryOk

/-- Every step keeps the tables of the machine in the order of their keys: each register, core, die, gang, launch, task, request,
message, link and port, each thread, entry, workgroup, round, instance, window and window line, and each operation of a pass, is listed once. -/
def Obligations.StepsKeepTablesOrdered : Prop :=
  ∀ s t : State, Ordered s → step s = .next t → Ordered t

/-- Memory is in its canonical form after reset. -/
def Sys2Proof.Claims.ResetMemoryCanonical : Prop := State.reset.memoryOk

/-- The tables are in order after reset. -/
def Sys2Proof.Claims.ResetTablesOrdered : Prop := Ordered State.reset

/-- R3, R144 to R148, R379, R384, R397: after reset every byte of memory reads zero, clocks and timelines stand at 0,
versions at 0, registers at the reset values of their cards, and no thread, launch or request is there.
The model's choice where the spec is silent: logs 6, 7 and 10. -/
def Sys2Proof.Claims.ResetValues : Prop :=
  let s := State.reset
  (∀ a, readByte s.mem a = 0) ∧ (∀ d, (s.die d).clk = 0) ∧ (∀ l, (s.sideOf l).ver = 0) ∧
  (∀ c t, (s.thread c t).st = .empty ∧ ∀ v, mgetD (s.thread c t).regs v 0 = 0) ∧
  (∀ ctx, s.timeline ctx = 0) ∧ s.launches = [] ∧ s.gangs = [] ∧ s.reqs = [] ∧ s.seq = 0 ∧
  s.reg 0x0 = 0x4C489800 ∧
  (∀ c, c < 128 → s.reg (kcReg c 0x0) = c ∧ s.reg (kcReg c 0x20) = 0x1000000 ∧ s.reg (kcReg c 0x28) = 1000000 ∧
    ∀ i, i < 16 → s.reg (kcReg c (0x500 + 16 * i)) = 0 ∧ s.reg (kcReg c (0x508 + 16 * i)) = 0) ∧
  (∀ d, d < 8 → s.reg (dsReg d 0x0) = d ∧ s.reg (dsReg d 0x18) = 1)

/-- R151, R152: the two-operand and one-operand integer arithmetic reads its operands as integers of the type,
forms the exact result, saturates or wraps it and sends its extension. -/
def Obligations.IntegerArithmeticResults : Prop :=
  ∀ (s : State) (p : Pred) (ty : IntTy) (sat : Bool) (t1 t0 : Target) (l r q : W64),
    (Fires s [.L, .R] p.code l r q →
      let a := readInt ty l
      let b := readInt ty r
      exec (.add p ty sat t1 t0) s = sends s [.L, .R] p.code t0 t1 (finish ty sat (a + b)) ∧
      exec (.sub p ty sat t1 t0) s = sends s [.L, .R] p.code t0 t1 (finish ty sat (a - b)) ∧
      exec (.mul p ty sat t1 t0) s = sends s [.L, .R] p.code t0 t1 (finish ty sat (a * b)) ∧
      exec (.mulh p ty t1 t0) s = sends s [.L, .R] p.code t0 t1 (finish ty false (Int.fdiv (a * b) (2 ^ ty.width))) ∧
      exec (.div p ty sat t1 t0) s = sends s [.L, .R] p.code t0 t1
        (finish ty sat (if b = 0 then (if a < 0 then lowest ty else highest ty) else Int.tdiv a b)) ∧
      exec (.rem p ty t1 t0) s = sends s [.L, .R] p.code t0 t1
        (finish ty false (if b = 0 then a else a - b * Int.tdiv a b)) ∧
      exec (.min p ty t1 t0) s = sends s [.L, .R] p.code t0 t1 (finish ty false (if a ≤ b then a else b)) ∧
      exec (.max p ty t1 t0) s = sends s [.L, .R] p.code t0 t1 (finish ty false (if a ≤ b then b else a))) ∧
    (∀ z : SIntTy, Fires s [.L] p.code l r q →
      let a := readInt (wide z) l
      exec (.abs p z sat t1 t0) s = sends s [.L] p.code t0 t1 (finish (wide z) sat (if a < 0 then -a else a)) ∧
      exec (.neg p z sat t1 t0) s = sends s [.L] p.code t0 t1 (finish (wide z) sat (-a)))

/-- R154: AND, OR, XOR, ANDN and their immediate forms compute their result bit by bit, zero above the width. -/
def Sys2Proof.Claims.BitwiseResults : Prop :=
  ∀ (s : State) (p : Pred) (ty : BitTy) (f : IField) (t1 t0 : Target) (l r q : W64),
    (Fires s [.L, .R] p.code l r q →
      ∃ a o x n : W64,
        exec (.and p ty t1 t0) s = sends s [.L, .R] p.code t0 t1 a ∧
        exec (.or p ty t1 t0) s = sends s [.L, .R] p.code t0 t1 o ∧
        exec (.xor p ty t1 t0) s = sends s [.L, .R] p.code t0 t1 x ∧
        exec (.andn p ty t1 t0) s = sends s [.L, .R] p.code t0 t1 n ∧
        ∀ i, i < 64 →
          a.getLsbD i = (decide (i < bits ty) && l.getLsbD i && r.getLsbD i) ∧
          o.getLsbD i = (decide (i < bits ty) && (l.getLsbD i || r.getLsbD i)) ∧
          x.getLsbD i = (decide (i < bits ty) && (l.getLsbD i ^^ r.getLsbD i)) ∧
          n.getLsbD i = (decide (i < bits ty) && l.getLsbD i && !r.getLsbD i)) ∧
    (Fires s [.L] p.code l r q →
      ∃ a o x : W64,
        exec (.andi p ty f t0) s = sends s [.L] p.code t0 .none a ∧
        exec (.ori p ty f t0) s = sends s [.L] p.code t0 .none o ∧
        exec (.xori p ty f t0) s = sends s [.L] p.code t0 .none x ∧
        ∀ i, i < 64 →
          a.getLsbD i = (decide (i < bits ty) && l.getLsbD i && (bitField s ty f).getLsbD i) ∧
          o.getLsbD i = (decide (i < bits ty) && (l.getLsbD i || (bitField s ty f).getLsbD i)) ∧
          x.getLsbD i = (decide (i < bits ty) && (l.getLsbD i ^^ (bitField s ty f).getLsbD i)))

/-- R155, R156: shifts multiply by a power of two or divide toward minus infinity, with any count; ROT moves bit
j to bit (j + n) mod w. -/
def Sys2Proof.Claims.ShiftAndRotateResults : Prop :=
  ∀ (s : State) (p : Pred) (ty : IntTy) (sat : Bool) (f : IField) (bt : BitTy) (t1 t0 : Target) (l r q : W64),
    (Fires s [.L, .R] p.code l r q →
      let n := (r.setWidth ty.width).toNat
      exec (.shl p ty sat t1 t0) s = sends s [.L, .R] p.code t0 t1 (finish ty sat (readInt ty l * 2 ^ n)) ∧
      exec (.shr p ty t1 t0) s = sends s [.L, .R] p.code t0 t1 (finish ty false (Int.fdiv (readInt ty l) (2 ^ n))) ∧
      ∃ v : W64, exec (.rot p bt t1 t0) s = sends s [.L, .R] p.code t0 t1 v ∧
        (∀ j, j < bits bt → v.getLsbD ((j + r.toNat) % bits bt) = l.getLsbD j) ∧
        (∀ j, bits bt ≤ j → v.getLsbD j = false)) ∧
    (Fires s [.L] p.code l r q →
      let n := countField s f
      exec (.shli p ty sat f t0) s = sends s [.L] p.code t0 .none (finish ty sat (readInt ty l * 2 ^ n)) ∧
      exec (.shri p ty f t0) s = sends s [.L] p.code t0 .none (finish ty false (Int.fdiv (readInt ty l) (2 ^ n))))

/-- R157, R158, R159: the field and bit-count instructions. -/
def Sys2Proof.Claims.BitFieldResults : Prop :=
  ∀ (s : State) (p : Pred) (ty : IntTy) (bt : BitTy) (t1 t0 : Target) (l r q : W64),
    (Fires s [.L, .R] p.code l r q →
      let a := readInt ty l
      let pos := (r.extractLsb' 0 7).toNat
      let m := min (r.extractLsb' 8 7).toNat ty.width
      let f := Int.fdiv a (2 ^ pos) % 2 ^ m
      exec (.bfx p ty t1 t0) s = sends s [.L, .R] p.code t0 t1
        (finish ty false (if m = 0 then 0 else if ty.signed ∧ 2 ^ (m - 1) ≤ f then f - 2 ^ m else f))) ∧
    (Fires s [.L, .R, .P] 1 l r q →
      let pos := (q.extractLsb' 0 7).toNat
      let n := (q.extractLsb' 8 7).toNat
      ∃ v : W64, exec (.bfi bt t1 t0) s = sends s [.L, .R, .P] 1 t0 t1 v ∧
        ∀ i, i < 64 → v.getLsbD i =
          (decide (i < bits bt) && if pos ≤ i ∧ i < pos + n then l.getLsbD (i - pos) else r.getLsbD i)) ∧
    (Fires s [.L] p.code l r q →
      exec (.popc p bt t1 t0) s = sends s [.L] p.code t0 t1
        (BitVec.ofNat 64 ((List.range (bits bt)).filter (fun i => l.getLsbD i)).length) ∧
      (∃ n, exec (.clz p bt t1 t0) s = sends s [.L] p.code t0 t1 (BitVec.ofNat 64 n) ∧ n ≤ bits bt ∧
        (∀ i, bits bt - n ≤ i → i < bits bt → l.getLsbD i = false) ∧
        (n < bits bt → l.getLsbD (bits bt - 1 - n) = true)) ∧
      (∃ n, exec (.ctz p bt t1 t0) s = sends s [.L] p.code t0 t1 (BitVec.ofNat 64 n) ∧ n ≤ bits bt ∧
        (∀ i, i < n → l.getLsbD i = false) ∧
        (n < bits bt → l.getLsbD n = true)) ∧
      ∃ v : W64, exec (.brev p bt t1 t0) s = sends s [.L] p.code t0 t1 v ∧
        ∀ i, v.getLsbD i = (decide (i < bits bt) && l.getLsbD (bits bt - 1 - i)))

/-- R160, R161, R162: address, select and compare. -/
def Sys2Proof.Claims.AddressSelectCompareResults : Prop :=
  ∀ (s : State) (p : Pred) (sh : BitVec 3) (c : Cond) (w : CWidth) (f : IField) (bt : BitTy) (t1 t0 : Target)
    (l r q : W64),
    (Fires s [.L, .R] p.code l r q →
      exec (.lea p sh .i32 t1 t0) s = sends s [.L, .R] p.code t0 t1 (l + ((r.setWidth 32).signExtend 64) <<< sh.toNat) ∧
      exec (.lea p sh .n32 t1 t0) s = sends s [.L, .R] p.code t0 t1 (l + ((r.setWidth 32).setWidth 64) <<< sh.toNat) ∧
      exec (.lea p sh .i64 t1 t0) s = sends s [.L, .R] p.code t0 t1 (l + r <<< sh.toNat) ∧
      exec (.cmpSigned p c w t1 t0) s = sends s [.L, .R] p.code t0 t1
        (if holds c (readCmp true w l) (readCmp true w r) then 1 else 0) ∧
      exec (.cmpUnsigned p c w t1 t0) s = sends s [.L, .R] p.code t0 t1
        (if holds c (readCmp false w l) (readCmp false w r) then 1 else 0)) ∧
    (Fires s [.L, .R, .P] 1 l r q →
      exec (.sel bt t1 t0) s = sends s [.L, .R, .P] 1 t0 t1 (cut bt (if q.getLsbD 0 then l else r))) ∧
    (Fires s [.L] p.code l r q →
      exec (.cmpiSigned p c w f t0) s = sends s [.L] p.code t0 .none
        (if holds c (readCmp true w l) (cmpField s true w f) then 1 else 0) ∧
      exec (.cmpiUnsigned p c w f t0) s = sends s [.L] p.code t0 .none
        (if holds c (readCmp false w l) (cmpField s false w f) then 1 else 0))

/-- R153, R163, R164, R165: predicate instructions, moves, constants and ADDI. -/
def Sys2Proof.Claims.PredicateMoveConstantResults : Prop :=
  ∀ (s : State) (p : Pred) (ty : IntTy) (sat : Bool) (bt : BitTy) (imm : Int) (k : Nat) (f : IField) (t1 t0 : Target)
    (l r q : W64),
    (Fires s [.L, .R] p.code l r q →
      exec (.pand p t1 t0) s = sends s [.L, .R] p.code t0 t1 (if l.getLsbD 0 ∧ r.getLsbD 0 then 1 else 0) ∧
      exec (.por p t1 t0) s = sends s [.L, .R] p.code t0 t1 (if l.getLsbD 0 ∨ r.getLsbD 0 then 1 else 0) ∧
      exec (.pxor p t1 t0) s = sends s [.L, .R] p.code t0 t1 (if l.getLsbD 0 = r.getLsbD 0 then 0 else 1)) ∧
    (Fires s [.L] p.code l r q →
      exec (.pnot p t1 t0) s = sends s [.L] p.code t0 t1 (if l.getLsbD 0 then 0 else 1) ∧
      exec (.mov p t1 t0) s = sends s [.L] p.code t0 t1 l ∧
      exec (.addi p ty sat f t0) s = sends s [.L] p.code t0 .none (finish ty sat (readInt ty l + intField s ty f))) ∧
    (Fires s [] p.code l r q →
      exec (.movi p ty imm t0) s = sends s [] p.code t0 .none (finish ty false imm) ∧
      exec (.const p bt k t0) s = sends s [] p.code t0 .none (constTok s (bt == .b64) k))

/-- R44, R51, R99, R103, R104, R142, R222: an instruction of a pass fires exactly when phase one of its pass goes on, it has
not fired, its thread runs, its element's latches are free, its clause is open, no earlier configuration holds its station,
every input it reads has its operand, and its predicate holds; the operands are those it finds.
The model's choice where the spec is silent: log 57. -/
def Sys2Proof.Claims.WhenAnInstructionFires : Prop :=
  ∀ (s : State) (ins : List Field) (pr : Nat) (l r q : W64) (p : Pass), s.passOf s.cur.agent = some p →
    let a := s.cur.agent
    let i := s.cur.idx
    let reads (f : Field) (x : W64) : Prop :=
      (f ∈ ins → s.operand a p (opKey i f) = some x) ∧ (f ∉ ins → x = 0)
    (Fires s ins pr l r q ↔
      p.two = false ∧ i ∉ p.fired ∧ s.stopped a = false ∧ s.inOrder a p i = true ∧
      s.latchFree a p i = true ∧ s.clauseOpen a p i = true ∧ s.stationHeld a p i = false ∧
      reads .L l ∧ reads .R r ∧
      (if pr = 2 ∨ pr = 3 then s.operand a p (opKey i .P) = some q else reads .P q) ∧
      (pr = 2 → q.getLsbD 0 = true) ∧ (pr = 3 → q.getLsbD 0 = false) ∧ s.skips a i = false)

/-- R104: an instruction of these that is predicated off takes its operands and emits nothing: no latch, no output
and no register of its thread changes, and it counts as fired. -/
def Sys2Proof.Claims.PredicatedOffEmitsNothing : Prop :=
  ∀ (s : State) (i : Instr) (c t n : Nat) (p : Pass), localFiring i = true → OnFabric s c t n p →
    s.ready (inputsOf i) (prOf i) = .off →
    ∃ s' p', exec i s = .next s' ∧ s'.passOf (.fab c t) = some p' ∧
      p'.fired = p.fired ++ [s.cur.idx] ∧ p'.outs = p.outs ∧
      (s'.core c).latch = (s.core c).latch ∧ s'.mem = s.mem ∧
      (s'.thread c t).regs = (s.thread c t).regs ∧
      ∀ f ∈ allInputs i, s'.operand (.fab c t) p' (opKey s.cur.idx f) = none

/-- R103: an instruction that cannot fire yet changes nothing. -/
def Sys2Proof.Claims.UnreadyChangesNothing : Prop :=
  ∀ (s : State) (i : Instr), localFiring i = true → s.ready (inputsOf i) (prOf i) = .missing → exec i s = .next s

/-- R102, R142, R149: the values a firing on the fabric sends stand in the two latches of its element, tagged with
its thread, frame and generation and with the input they go to; a target none leaves its latch empty. -/
def Sys2Proof.Claims.SentTokensStandInLatches : Prop :=
  ∀ (s : State) (ins : List Field) (pr : Nat) (l r q v0 v1 : W64) (t0 t1 : Target) (c t n : Nat) (p : Pass),
    OnFabric s c t n p → Fires s ins pr l r q →
    ∃ s', sends2 s ins pr t0 t1 v0 v1 = .next s' ∧
      let e := s.element c n s.cur.idx p.lane
      let tok (k : Nat) (v : W64) : Target → Option Tok
        | .none => none
        | .to f i => some { slot := t, frame := p.frame, gen := p.gen, data := v,
                            dst := opKey i.toNat f, edge := 2 * s.cur.idx + k, inst := n }
      mget (s'.core c).latch (2 * e) = tok 0 v0 t0 ∧
      mget (s'.core c).latch (2 * e + 1) = tok 1 v1 t1 ∧
      ∀ k, k ≠ 2 * e → k ≠ 2 * e + 1 → mget (s'.core c).latch k = mget (s.core c).latch k

/-- R22: where no fabric carries a token, a program's result reaches its input at once. -/
def Sys2Proof.Claims.SequentialTokensReachTheirInput : Prop :=
  ∀ (s : State) (pr : Nat) (l r q v : W64) (ins : List Field) (f : Field) (j : BitVec 7) (c : Nat) (p : Pass),
    s.cur.agent = .ctl c → s.passOf (.ctl c) = some p → Fires s ins pr l r q →
    mget p.opnd (opKey j.toNat f) = none →
    ∃ s' p', sends s ins pr (.to f j) .none v = .next s' ∧ s'.passOf (.ctl c) = some p' ∧
      mget p'.opnd (opKey j.toNat f) = some v ∧ p'.fired = p.fired ++ [s.cur.idx] ∧ s'.mem = s.mem

/-- The frame of the local firings, for every agent: memory, versions, the registers, stack pointer and wait slots of
every thread, the images, the launches and the messages on their way stay as they are. -/
def Sys2Proof.Claims.LocalFiringsKeepMemoryAndRegisters : Prop :=
  ∀ (s s' : State) (i : Instr), localFiring i = true → exec i s = .next s' →
    s'.mem = s.mem ∧ (∀ a, readByte s'.mem a = readByte s.mem a) ∧ s'.side = s.side ∧ s'.l2 = s.l2 ∧
    s'.host = s.host ∧ s'.msgs = s.msgs ∧ s'.images = s.images ∧ s'.launches = s.launches ∧
    ∀ c t, (s'.thread c t).regs = (s.thread c t).regs ∧ (s'.thread c t).sp = (s.thread c t).sp ∧
      (s'.thread c t).wait = (s.thread c t).wait ∧ (s'.thread c t).poison = (s.thread c t).poison

/-- The frame of the local firings on the fabric: the pass takes note of the firing, the element's own latches take
the tokens, and every other thread, die, request and queue stays as it is. -/
def Sys2Proof.Claims.LocalFiringsOnTheFabricTouchTheirPassOnly : Prop :=
  ∀ (s s' : State) (i : Instr) (c t n : Nat) (p : Pass) (l r q : W64), localFiring i = true → OnFabric s c t n p →
    Fires s (inputsOf i) (prOf i) l r q → exec i s = .next s' →
    let e := s.element c n s.cur.idx p.lane
    (∃ p', s'.thread c t = { s.thread c t with pass := some p' } ∧ p'.fired = p.fired ++ [s.cur.idx] ∧
      p'.offs = p.offs ∧ p'.lvw = p.lvw ∧ p'.ops = p.ops ∧ p'.branch = p.branch ∧
      (p'.outs = p.outs ∨ ∃ o, p'.outs = p.outs ++ [o])) ∧
    (∀ d u, (d, u) ≠ (c, t) → s'.thread d u = s.thread d u) ∧
    (∀ d, d ≠ c → s'.core d = s.core d) ∧
    s'.dies = s.dies ∧ s'.reqs = s.reqs ∧ s'.culverts = s.culverts ∧ s'.agenda = s.agenda ∧
    (∀ k, k ≠ 2 * e → k ≠ 2 * e + 1 → mget (s'.core c).latch k = mget (s.core c).latch k) ∧
    (s'.core c).rounds = (s.core c).rounds ∧ (s'.core c).entries = (s.core c).entries ∧
    (s'.core c).evq = (s.core c).evq

/-- R132, R138, R143, R166, R167, R168, of a thread on the fabric: LVR delivers the register as the pass sees it, which is
its value at admission, or parks its thread where its group is poisoned; LVW sends its token to the sink, SRD delivers the
special register. -/
def Obligations.LiveAndSpecialRegisters : Prop :=
  ∀ (s : State) (p : Pred) (v : BitVec 6) (sr : SReg) (t0 t1 : Target) (l r q : W64) (c t : Nat) (x : Pass),
    s.cur.agent = .fab c t → s.passOf (.fab c t) = some x →
    (Fires s [] p.code l r q →
      let view := (took s [] p.code).liveView (.fab c t)
      (∀ m n, x.live = some m → x.inst = some n → (s.inst c n).edges = [] → view.1 = m.1) ∧
      (v.toNat / 8 ∈ view.2 → exec (.lvr p v t0) s = .next ((took s [] p.code).raise fcPoison)) ∧
      (v.toNat / 8 ∉ view.2 →
        ∃ u, (u = took s [] p.code ∨ ∃ ten, u = (took s [] p.code).count c 0x00B ten) ∧
          exec (.lvr p v t0) s = .next (u.emit t0 .none (mgetD view.1 v.toNat 0) (mgetD view.1 v.toNat 0))) ∧
      exec (.srd p sr t1 t0) s = sends s [] p.code t0 t1 (BitVec.ofNat 64
        (let w := s.wgOf c t
         let g := s.gang w.gang
         match sr with
         | .tid => t - s.base c t
         | .wgid => w.wgid
         | .gid => g.gid
         | .role => roleAt (roleSizes (s.image (s.launch g.seq).img) w.n) (t - s.base c t)
         | .lane => x.lane
         | .width => x.width
         | .round => x.roundNo
         | .wgsz => w.n
         | .ggsz => g.members.length
         | .core => c
         | .die => c / 16
         | .launch => g.seq % 2 ^ 32
         | .tenant => (s.launch g.seq).desc.tenant))) ∧
    (Fires s [.L] p.code l r q →
      exec (.lvw p v) s = .next ((took s [.L] p.code).deliver (.lvw s.cur.idx v.toNat (some l))))

/-- R197, R198, R199: XSHUF and XBCAST deliver the L token of a usable source with 1, their own with 0 where the
source is unusable, and wait while it is undecided; a program that is no pass of a round finds every source unusable. -/
def Sys2Proof.Claims.CrossLaneReaders : Prop :=
  ∀ (s : State) (p : Pred) (m : ShufMode) (t1 t0 : Target) (l d q : W64), Fires s [.L, .R] p.code l d q →
    (∀ c t x, s.cur.agent = .fab c t → s.passOf (.fab c t) = some x →
      exec (.xshuf p m t1 t0) s = readerActs s p.code t0 t1 l
        (sourceAt s c x.round (groupSlot x.width t (namedLane m x.lane d.toNat))) ∧
      exec (.xbcast p t1 t0) s = readerActs s p.code t0 t1 l
        (sourceAt s c x.round ((s.round c x.round).snapshot.find?
          (fun u => u % x.width = d.toNat ∧ u ∉ (s.round c x.round).missed)))) ∧
    ((∀ c t, s.cur.agent ≠ .fab c t) →
      exec (.xshuf p m t1 t0) s = sends2 s [.L, .R] p.code t0 t1 l 0 ∧
      exec (.xbcast p t1 t0) s = sends2 s [.L, .R] p.code t0 t1 l 0)

/-- R197: a source is usable exactly when it is in the snapshot and the active set and its L token has reached the
instruction; it is undecided only while it is in the active set, unadmitted or without its token, and neither it nor
its pass is past the instruction. -/
def Sys2Proof.Claims.UsableSources : Prop :=
  ∀ (s : State) (c rk idx u : Nat),
    (∀ v, s.source c rk idx u = .usable v ↔
      u ∈ (s.round c rk).snapshot ∧ u ∉ (s.round c rk).left ∧
      (mget (mgetD (s.round c rk).held idx []) u = some v ∨
        (mget (mgetD (s.round c rk).held idx []) u = none ∧ u ∉ (s.round c rk).pending ∧ u ∉ (s.round c rk).done ∧
          ∃ p, s.roundPass c rk u = some p ∧ s.operand (.fab c u) p (opKey idx .L) = some v))) ∧
    (s.source c rk idx u = .undecided ↔
      u ∈ (s.round c rk).snapshot ∧ u ∉ (s.round c rk).left ∧
      mget (mgetD (s.round c rk).held idx []) u = none ∧
      (u ∈ (s.round c rk).pending ∨
        ∃ p, s.roundPass c rk u = some p ∧ s.operand (.fab c u) p (opKey idx .L) = none ∧
          u ∉ (s.round c rk).done ∧ idx ∉ p.fired))

/-- R55, R201: a member of a ROUND clause that has been computed takes its result; the first firing computes the
clause once every thread of the active set has reached it; until then nothing happens; alone in a program that is no
pass of a round, a thread is its own active set. -/
def Sys2Proof.Claims.RoundCollectives : Prop :=
  ∀ (s : State) (p : Pred) (op : Red) (m : Vote) (t1 t0 : Target) (l r q : W64), Fires s [.L] p.code l r q →
    ∀ i ∈ collectives p op m t1 t0,
      (∀ c t x k cl, s.cur.agent = .fab c t → s.passOf (.fab c t) = some x →
        clauseAt (s.block x.img x.blk) s.cur.idx = some (k, cl) →
        (k ∈ (s.round c x.round).clauses → ∀ v,
          mget (s.round c x.round).results (resKey s.cur.idx t) = some v →
          exec i s = sends2 s [.L] p.code t0 t1 v.1 v.2) ∧
        (k ∉ (s.round c x.round).clauses → s.clauseReached c x.round (clauseInstrs cl) = true → ∀ v,
          let u := clauseComputed s c x.round k (clauseInstrs cl)
          mget (u.round c x.round).results (resKey s.cur.idx t) = some v →
          exec i s = sends2 u [.L] p.code t0 t1 v.1 v.2) ∧
        (k ∉ (s.round c x.round).clauses → s.clauseReached c x.round (clauseInstrs cl) = false → exec i s = .next s)) ∧
      ((∀ c t, s.cur.agent ≠ .fab c t) →
        exec i s = .next (((took s [.L] p.code).countFlag (collective i [l]).2).result t0 t1 ((collective i [l]).1.headD 0)))

/-- R202, R203: what a collective delivers to its members, given their L values in slot order: the fold from the left
from the identity, its prefixes, and the votes on bit 0. -/
def Sys2Proof.Claims.CollectiveValues : Prop :=
  ∀ (p : Pred) (op : Red) (t1 t0 : Target) (vs : List W64),
    let fold (xs : List W64) : W64 := xs.foldl (fun a v => (redStep op a v).1) (redIdentity op)
    (collective (.rred p op t1 t0) vs).1 = vs.map (fun _ => fold vs) ∧
    (collective (.rscanInclusive p op t1 t0) vs).1 = (List.range vs.length).map (fun j => fold (vs.take (j + 1))) ∧
    (collective (.rscanExclusive p op t1 t0) vs).1 = (List.range vs.length).map (fun j => fold (vs.take j)) ∧
    (collective (.rvote p .all t1 t0) vs).1 = vs.map (fun _ => if ∀ v ∈ vs, v.getLsbD 0 = true then 1 else 0) ∧
    (collective (.rvote p .any t1 t0) vs).1 = vs.map (fun _ => if ∃ v ∈ vs, v.getLsbD 0 = true then 1 else 0) ∧
    (collective (.rvote p .cnt t1 t0) vs).1 = vs.map (fun _ => BitVec.ofNat 64 (vs.countP (fun v => v.getLsbD 0))) ∧
    (∀ ty a b, (redStep (.add ty) a b).1 = finish (rIntTy ty) false (readInt (rIntTy ty) a + readInt (rIntTy ty) b) ∧
      (redStep (.min ty) a b).1 = finish (rIntTy ty) false (min (readInt (rIntTy ty) a) (readInt (rIntTy ty) b)) ∧
      (redStep (.max ty) a b).1 = finish (rIntTy ty) false (max (readInt (rIntTy ty) a) (readInt (rIntTy ty) b)) ∧
      redIdentity (.add ty) = 0 ∧ redIdentity (.min ty) = finish (rIntTy ty) false (highest (rIntTy ty)) ∧
      redIdentity (.max ty) = finish (rIntTy ty) false (lowest (rIntTy ty))) ∧
    (∀ ty a b, (redStep (.and ty) a b).1 = cut ty (a &&& b) ∧ (redStep (.or ty) a b).1 = cut ty (a ||| b) ∧
      (redStep (.xor ty) a b).1 = cut ty (a ^^^ b) ∧
      redIdentity (.and ty) = cut ty (BitVec.allOnes 64) ∧ redIdentity (.or ty) = 0 ∧ redIdentity (.xor ty) = 0) ∧
    redIdentity .fadd = 0x80000000 ∧ redIdentity .fmax = 0x7FC00000

/-- R311: a stream node's member takes its outputs; the first member that fires once every slot of its group is
decided computes them for the group; before that nothing happens; in a program that is no pass of a round the only
member is the thread itself. -/
def Sys2Proof.Claims.StreamNodes : Prop :=
  ∀ (s : State) (p : Pred) (w : Bool) (t1 t0 : Target) (l r q : W64), Fires s [.L, .R] p.code l r q →
    ∀ e ∈ nodes p w t1 t0,
      (∀ c t x, s.cur.agent = .fab c t → s.passOf (.fab c t) = some x →
        let key := resKey s.cur.idx t
        let ms := groupMembers s c x.round p.code t x.width
        let rd := s.round c x.round
        let u := s.setRound c x.round { rd with
          results := (ms.zip (e.2 (ms.map (·.2)))).foldl (fun m y => mput m (resKey s.cur.idx y.1.1) y.2) rd.results }
        (∀ v, mget rd.results key = some v → exec e.1 s = sends2 s [.L, .R] p.code t0 t1 v.1 v.2) ∧
        (mget rd.results key = none →
          (∀ j, j < x.width → s.nodeMember c x.round s.cur.idx p.code (t - t % x.width + j) ≠ none) →
          ∀ v, mget (u.round c x.round).results key = some v → exec e.1 s = sends2 u [.L, .R] p.code t0 t1 v.1 v.2) ∧
        (mget rd.results key = none → ∀ j, j < x.width →
          s.nodeMember c x.round s.cur.idx p.code (t - t % x.width + j) = none → exec e.1 s = .next s)) ∧
      ((∀ c t, s.cur.agent ≠ .fab c t) → ∀ v, e.2 [(l, r)] = [v] →
        exec e.1 s = sends2 s [.L, .R] p.code t0 t1 v.1 v.2)

/-- R312, R313: what a stream node delivers to its n members, in slot order. -/
def Sys2Proof.Claims.StreamNodeValues : Prop :=
  ∀ (union w : Bool) (ms : List (W64 × W64)) (j : Nat), j < ms.length →
    let key (x : W64) : Nat := if w then x.toNat else (x.setWidth 32).toNat
    let val (x : W64) : W64 := if w then x else cut .b32 x
    let sel := (ms.filter (fun e => e.2.getLsbD 0)).map (·.1)
    (∀ out, Merged union (ms.map (fun e => key e.1)) (ms.map (fun e => key e.2)) out →
      (mergeOut union w ms)[j]? =
        some (match out[j]? with
          | some (k, f) => (BitVec.ofNat 64 k, BitVec.ofNat 64 (f + 4 + if ms.length < out.length ∧ j + 1 = ms.length then 8 else 0))
          | none => (0, 0))) ∧
    (compactOut w ms)[j]? =
      (match sel[j]? with
        | some v => some (val v, 1)
        | none => (ms[j]?).map (fun e => (val e.1, 0))) ∧
    (∀ e, ms[j]? = some e →
      (e.2.getLsbD 0 = true →
        (expandOut w ms)[j]? = some (val ((ms.map (·.1)).getD (((ms.take j).filter (fun e => e.2.getLsbD 0)).length) 0), 1)) ∧
      (e.2.getLsbD 0 = false → (expandOut w ms)[j]? = some (val e.1, 0)))

/-- R181, R191: every float and conversion instruction that fires takes its operands, counts its exceptions and flushes,
and sends its result on both targets. -/
def Obligations.FloatAndConversionFirings : Prop :=
  ∀ (s : State) (p : Pred) (f : FFmt) (sf : SFmt) (rm : Rnd) (lm : LMod) (ng sat bf : Bool) (c : FCond) (src dst : NumTy)
    (lf : LogFmt) (len : BlkLen) (t1 t0 : Target) (l r q : W64),
    (Fires s [.L, .R] p.code l r q →
      ∀ e ∈ floats2 p f sf rm lm ng c t1 t0 l r ++ converts2 p sf lf len rm bf t1 t0 l r,
        exec e.1 s = .next ((took s [.L, .R] p.code).floatResult t0 t1 e.2)) ∧
    (Fires s [.L] p.code l r q →
      ∀ e ∈ floats1 p sf rm lm t1 t0 l ++ [(.cvt p src dst rm sat t1 t0, cvtResult src dst rm sat l)],
        exec e.1 s = .next ((took s [.L] p.code).floatResult t0 t1 e.2)) ∧
    (Fires s [.L, .R, .P] 1 l r q →
      exec (.ffma f rm lm ng t1 t0) s = .next ((took s [.L, .R, .P] 1).floatResult t0 t1 (fpuFma f rm lm ng l r q)))

/-- R64, R65: the one rounding of a nonzero exact value m × 2^e to a format. Where the result is finite it is the best
finite value of the format in the mode: toward zero, toward either infinity, or nearest with ties to even. -/
def Obligations.RoundingPicksTheModesValue : Prop :=
  ∀ F ∈ formats, ∀ (s : Bool) (m : Nat) (e : Int), 0 < m →
    let x : ℚ := (if s then -1 else 1) * m * 2 ^ e
    let y (r : Rnd) : Nat := (F.round r s m e).bits
    (isFinite F (y .rdn) → value F (y .rdn) ≤ x ∧ ∀ n, isFinite F n → value F n ≤ x → value F n ≤ value F (y .rdn)) ∧
    (isFinite F (y .rup) → x ≤ value F (y .rup) ∧ ∀ n, isFinite F n → x ≤ value F n → value F (y .rup) ≤ value F n) ∧
    (isFinite F (y .rtz) ∧ |value F (y .rtz)| ≤ |x| ∧
      ∀ n, isFinite F n → |value F n| ≤ |x| → |value F n| ≤ |value F (y .rtz)|) ∧
    (isFinite F (y .rne) → ∀ n, isFinite F n →
      |x - value F (y .rne)| ≤ |x - value F n| ∧
      (|x - value F (y .rne)| = |x - value F n| → value F n ≠ value F (y .rne) → y .rne % 2 = 0))

/-- R64, R67, R68, R184: the results of NaN operands, invalid operations and zeros of the float operations. -/
def Sys2Proof.Claims.FloatSpecialResults : Prop :=
  ∀ F ∈ formats, ∀ (r : Rnd) (a b c : Nat),
    (isNan F a ∨ isNan F b →
      (F.add r a b).bits = F.nan ∧ (F.sub r a b).bits = F.nan ∧ (F.mul r a b).bits = F.nan ∧ (F.div r a b).bits = F.nan ∧
      (F.fma r a b c).bits = F.nan) ∧
    (isNan F a →
      (F.sqrt r a).bits = F.nan ∧ (F.rcp r a).bits = F.nan ∧ (F.rsq r a).bits = F.nan ∧ (F.exp2 r a).bits = F.nan ∧
      (F.log2 r a).bits = F.nan ∧ (F.sinPi r a).bits = F.nan ∧ (F.cosPi r a).bits = F.nan ∧ (F.rint r a).bits = F.nan) ∧
    (isNan F c → (F.fma r a b c).bits = F.nan) ∧
    (isInf F a → isInf F b → (isNegative F a ↔ ¬ isNegative F b) →
      (F.add r a b).bits = F.nan ∧ (F.add r a b).fl.invalid = true) ∧
    (isInf F a → isZero F b → (F.mul r a b).bits = F.nan ∧ (F.mul r a b).fl.invalid = true ∧
      (F.fma r a b c).bits = F.nan ∧ (F.fma r a b c).fl.invalid = true) ∧
    (isFinite F a → ¬ isZero F a → isZero F b → isInf F (F.div r a b).bits ∧ (F.div r a b).fl.divZero = true) ∧
    (isZero F a → isZero F b → (F.div r a b).bits = F.nan ∧ (F.div r a b).fl.invalid = true) ∧
    (isFinite F a → ¬ isZero F a → isNegative F a →
      (F.sqrt r a).bits = F.nan ∧ (F.rsq r a).bits = F.nan ∧ (F.log2 r a).bits = F.nan) ∧
    (isZero F a → isInf F (F.rcp r a).bits ∧ isInf F (F.rsq r a).bits ∧ (F.log2 r a).bits = F.inf true ∧
      (F.rcp r a).fl.divZero = true ∧ (F.rsq r a).fl.divZero = true ∧ (F.log2 r a).fl.divZero = true) ∧
    (isNan F a → ¬ isNan F b → (F.minNum a b).bits = b % 2 ^ F.width ∧ (F.maxNum a b).bits = b % 2 ^ F.width) ∧
    (isNan F a → isNan F b → (F.minNum a b).bits = F.nan ∧ (F.maxNum a b).bits = F.nan) ∧
    (isFinite F a → isFinite F b → value F a < value F b →
      (F.minNum a b).bits = a % 2 ^ F.width ∧ (F.maxNum a b).bits = b % 2 ^ F.width)

/-- R186: FCMP's conditions by the values of two finite operands, and its answers where an operand is a NaN. -/
def Sys2Proof.Claims.FloatCompareConditions : Prop :=
  ∀ F ∈ formats, ∀ (a b : Nat),
    (isFinite F a → isFinite F b →
      (F.cmp .eq a b).1 = decide (value F a = value F b) ∧ (F.cmp .ne a b).1 = decide (value F a ≠ value F b) ∧
      (F.cmp .lt a b).1 = decide (value F a < value F b) ∧ (F.cmp .le a b).1 = decide (value F a ≤ value F b) ∧
      (F.cmp .gt a b).1 = decide (value F a > value F b) ∧ (F.cmp .ge a b).1 = decide (value F a ≥ value F b) ∧
      (F.cmp .un a b).1 = false ∧ (F.cmp .ord a b).1 = true) ∧
    (isNan F a ∨ isNan F b →
      (F.cmp .eq a b).1 = false ∧ (F.cmp .ne a b).1 = true ∧ (F.cmp .lt a b).1 = false ∧ (F.cmp .le a b).1 = false ∧
      (F.cmp .gt a b).1 = false ∧ (F.cmp .ge a b).1 = false ∧ (F.cmp .un a b).1 = true ∧ (F.cmp .ord a b).1 = false)

/-- R71, R192: conversions to an integer type: an integer saturates or wraps; an FP32 NaN gives 0 with invalid, a finite FP32
value more than 1 outside the bounds gives the nearest bound, and one that is an integer within the bounds stays exact. -/
def Sys2Proof.Claims.IntegerConversions : Prop :=
  ∀ (a b : IntTy) (sa sb : NumTy) (rm : Rnd) (sat : Bool) (l : W64), numInt sa = some a → numInt sb = some b →
    cvtResult sa sb rm sat l = { val := finish b sat (readInt a l), fls := [], flush := 0 } ∧
    (∀ x : Nat, isNan .f32 x → x < 2 ^ 32 → ∀ u : W64, u.setWidth 32 = BitVec.ofNat 32 x →
      (cvtResult .f32 sb rm false u).val = 0 ∧ (cvtResult .f32 sb rm false u).fls = [{ invalid := true }]) ∧
    (∀ x : Nat, isFinite .f32 x → x < 2 ^ 32 → ∀ u : W64, u.setWidth 32 = BitVec.ofNat 32 x →
      (value .f32 x < lowest b - 1 → (cvtResult .f32 sb rm false u).val = finish b false (lowest b)) ∧
      (highest b + 1 < value .f32 x → (cvtResult .f32 sb rm false u).val = finish b false (highest b)) ∧
      (∀ n : Int, lowest b ≤ n → n ≤ highest b → value .f32 x = n →
        cvtResult .f32 sb rm false u = { val := finish b false n, fls := [{}], flush := 0 }))

/-- R169 to R178, R451: what each FLOW instruction that fires delivers to the block sink; NOP delivers nothing; a
control program has no stack, so its CALL and RET fault. -/
def Sys2Proof.Claims.FlowInstructionsDeliver : Prop :=
  ∀ (s : State) (p : Pred) (b : BitVec 18) (n : BitVec 5) (k : Nat) (lsid : BitVec 5) (v : BitVec 6) (l r q : W64),
    (Fires s [] p.code l r q →
      (∀ e ∈ [((.br p b : Instr), Out.branch s.cur.idx (.enter b.toNat) false), (.exit p, .branch s.cur.idx .exit false),
          (.yield p b, .branch s.cur.idx (.yield b.toNat) false), (.xpath p b, .branch s.cur.idx (.enter b.toNat) false),
          (.nullLsid p lsid, .op lsid.toNat { idx := s.cur.idx, null := true }), (.nullRegister p v, .lvw s.cur.idx v.toNat none)],
        exec e.1 s = .next ((took s [] p.code).deliver e.2)) ∧
      exec (.nop p) s = .next (took s [] p.code) ∧
      (s.cur.agent.slot = none → exec (.ret p) s = .next (s.raise fcAccess)) ∧
      ∀ t, s.cur.agent.slot = some t →
        let sp := (s.thread s.cur.agent.core t).sp
        let at_ := s.slice s.cur.agent.core t (sp - 8)
        (sp = 256 → exec (.ret p) s = .next ((took s [] p.code).deliver (.branch s.cur.idx (.ret 0) false))) ∧
        (sp ≠ 256 → s.homeFree (lineOf at_) = true → exec (.ret p) s = .next ((took s [] p.code).deliver
          (.branch s.cur.idx (.ret (readLE s.mem at_ 8)) (s.poisonAt at_ 8)))) ∧
        (sp ≠ 256 → s.homeFree (lineOf at_) = false → exec (.ret p) s = .next (s.recallOwner (lineOf at_)))) ∧
    (Fires s [.L] p.code l r q →
      exec (.bri p) s = .next ((took s [.L] p.code).deliver (.branch s.cur.idx (.enter l.toNat) false)) ∧
      exec (.switch p n k) s = .next ((took s [.L] p.code).deliver (.branch s.cur.idx
        (.enter (((took s [.L] p.code).consts.getD (k + min l.toNat n.toNat) 0).setWidth 18).toNat) false)) ∧
      (s.cur.agent.slot ≠ none →
        exec (.call p b) s = .next ((took s [.L] p.code).deliver (.branch s.cur.idx (.call b.toNat l.toNat) false))) ∧
      (s.cur.agent.slot = none → exec (.call p b) s = .next ((took s [.L] p.code).raise fcAccess)))

/-- R45: an output of a pass on the fabric reaches the sink; the first of its kind is kept, a second one of the same
register, LSID or branch is a DUPOUT fault. -/
def Sys2Proof.Claims.SinkKeepsTheFirstOutput : Prop :=
  ∀ (s : State) (c t n : Nat) (p : Pass) (o : Out), AtSink s c t p → p.outs[n]? = some o →
    let u := shown s c t n p
    let a : Agent := .fab c t
    let p' : Pass := { p with outs := p.outs.eraseIdx n }
    (∀ idx v x, o = .lvw idx v x →
      exec (.sinkOutput c t n) s = .next (if mget p.lvw v = none
        then (u.setPass a { p' with lvw := mput p.lvw v x }).checkPhaseOne a else u.fault a (some idx) fcDupout)) ∧
    (∀ k x, o = .op k x → (x.null = true ∨ ∀ pr sc l lq, instrAt (s.block p.img p.blk) x.idx ≠ some (.launch pr sc l lq)) →
      exec (.sinkOutput c t n) s = .next (if mget p.ops k = none
        then (u.setPass a { p' with ops := mput p.ops k x }).checkPhaseOne a else u.fault a (some x.idx) fcDupout)) ∧
    (∀ idx b ps, o = .branch idx b ps → p.branch ≠ none →
      exec (.sinkOutput c t n) s = .next (u.fault a (some idx) fcDupout))

/-- R171, R174, R175: the checks of BRI, CALL and RET at the sink: a branch that passes them is the pass's branch, the
others are phase-one faults that name the stack entry. -/
def Sys2Proof.Claims.BranchChecksAtTheSink : Prop :=
  ∀ (s : State) (c t n idx : Nat) (p : Pass) (i : Instr) (b : Branch) (ps : Bool), AtSink s c t p →
    p.outs[n]? = some (.branch idx b ps) → p.branch = none → instrAt (s.block p.img p.blk) idx = some i →
    let u := shown s c t n p
    let a : Agent := .fab c t
    let sp := (s.thread c t).sp
    let entry (o : Nat) : Nat := 0x1FFF10000000000 + o
    let faults (code addr : Nat) : Prop := exec (.sinkOutput c t n) s = .next (u.fault a (some idx) code 0 addr)
    let accepts : Prop := exec (.sinkOutput c t n) s =
      .next ((u.setPass a { p with outs := p.outs.eraseIdx n, branch := some b }).checkPhaseOne a)
    (∀ pr m, i = .bri pr → b = .enter m → (legal s c t m → accepts) ∧ (¬ legal s c t m → faults fcBlock 0)) ∧
    (∀ pr tgt m r, i = .call pr tgt → b = .call m r →
      (¬ legal s c t r → faults fcBlock (entry sp)) ∧
      (legal s c t r → 256 + (s.wgOf c t).privBytes < sp + 8 → faults fcStackOvf (entry sp)) ∧
      (legal s c t r → sp + 8 ≤ 256 + (s.wgOf c t).privBytes → accepts)) ∧
    (∀ pr m, i = .ret pr → b = .ret m →
      (sp = 256 → faults fcStackUnf (entry sp)) ∧
      (sp ≠ 256 → ps = true → faults fcPoison (entry (sp - 8))) ∧
      (sp ≠ 256 → ps = false → ¬ legal s c t m → faults fcBlock (entry (sp - 8))) ∧
      (sp ≠ 256 → ps = false → legal s c t m → accepts)) ∧
    (∀ pr tgt m, i = .br pr tgt → b = .enter m → accepts)

/-- R47: in phase two the unperformed operation of the lowest LSID performs, by its instruction's own effect at that
LSID; a NULL performs at its place without an effect.
The model's choice where the spec is silent: log 86, of an operation that an edited commit image names. -/
def Obligations.PhaseTwoPerformsInLsidOrder : Prop :=
  ∀ (s : State) (c t k : Nat) (p : Pass) (o : Op), s.threadAgent c t = .fab c t → s.passOf (.fab c t) = some p →
    s.twoStopped (.fab c t) = false → passClosed (s.block p.img p.blk) p = true → nextOp p = some (k, o) →
    let u : State := { s with cur := { agent := .fab c t, idx := o.idx, phase := .two } }
    (o.null = true → exec (.phaseTwoPerform c t) s = .next (u.setPerformed k)) ∧
    (o.null = false → ∀ i, opInstr (s.block p.img p.blk) o = some i → commits i = true →
      exec (.phaseTwoPerform c t) s = exec i u) ∧
    (List.Pairwise (· < ·) (p.ops.map (·.1)) → ∀ j x, mget p.ops j = some x → x.performed = false → k ≤ j)

/-- R47, R132, R167, R169, R177: with every operation performed, the phase two of a pass that branches to a block ends in one
step: the LVW values stand in the thread's registers, the others keep what its row and its overflow area hold, and the
thread stands at that block, without a pass; no group of the thread is poisoned before.
The model's choice where the spec is silent: log 57. -/
def Sys2Proof.Claims.CommitWritesRegistersAndBranches : Prop :=
  ∀ (s : State) (c t b : Nat) (p : Pass), s.threadAgent c t = .fab c t → s.passOf (.fab c t) = some p →
    s.twoStopped (.fab c t) = false → passClosed (s.block p.img p.blk) p = true → nextOp p = none →
    p.branch = some (.enter b) → (s.liveFile c t).2 = [] → (p.lvw.map (·.1)).Nodup →
    ∃ s', exec (.phaseTwoPerform c t) s = .next s' ∧
      (∀ v w, mget p.lvw v = some (some w) → mgetD (s'.thread c t).regs v 0 = w) ∧
      (∀ v, mget p.lvw v = none ∨ mget p.lvw v = some none → mgetD (s'.thread c t).regs v 0 =
        mgetD (if p.lvw.all (·.2.isNone) then (s.thread c t).regs else (s.liveFile c t).1) v 0) ∧
      (s'.thread c t).blk = b ∧ (s'.thread c t).pass = none ∧ (s'.thread c t).ordered = false ∧
      (s'.thread c t).sp = (s.thread c t).sp

/-- R170, R174, R175: what CALL, RET and YIELD add at commit: CALL stores the return block at the stack pointer and
raises it by 8 where no owner and no posted write holds its line, RET lowers it by 8, and each thread stands at the block
the branch names. -/
def Sys2Proof.Claims.CallReturnAndYieldAtCommit : Prop :=
  ∀ (s : State) (c t n r : Nat), s.memoryOk → r < 2 ^ 18 →
    let sp := (s.thread c t).sp
    ((∀ a, s.slice c t sp ≤ a → a < s.slice c t sp + 8 → s.homeFree (lineOf a) = true) → ∀ u, u = s.takeBranch c t (.call n r) →
      readLE u.mem (s.slice c t sp) 8 = r ∧
      (∀ a, a < s.slice c t sp ∨ s.slice c t sp + 8 ≤ a → readByte u.mem a = readByte s.mem a) ∧
      (u.thread c t).sp = sp + 8 ∧ (u.thread c t).blk = n ∧ (u.thread c t).regs = (s.thread c t).regs) ∧
    (∀ u, u = s.takeBranch c t (.ret r) →
      u.mem = s.mem ∧ (u.thread c t).sp = sp - 8 ∧ (u.thread c t).blk = r ∧ (u.thread c t).regs = (s.thread c t).regs) ∧
    (isRare (s.block (s.imgOf c t) n) = false → ∀ u, u = s.takeBranch c t (.yield n) →
      u.mem = s.mem ∧ (u.thread c t).blk = n ∧ (u.thread c t).st = .waiting ∧ (u.thread c t).age = 0 ∧
      (u.thread c t).yieldPending = true)

/-- R46, R250, R252, R254, R257: LD, LDA and LDV of an aligned address that translates issue where no acquire and no store of
a lower LSID holds them back: the pass notes the read, and of an LDV the lower stores that have their address; a request for
its bytes is outstanding, and memory stays as it is.
The model's choice where the spec is silent: logs 53 and 67. -/
def Sys2Proof.Claims.LoadsIssueARequest : Prop :=
  ∀ (s : State) (p : Pred) (z : Size) (sx w : Bool) (sc : Scope) (l : BitVec 5) (off : BitVec 4) (voff : BitVec 11)
    (t1 t0 : Target) (x r q : W64) (c t n pa : Nat) (pp : Pass),
    OnFabric s c t n pp → Fires s [.L] p.code x r q → pp.ops = [] → pp.outs = [] → pp.violated = false →
    let size := sizeOfAccess z
    let ea := ea57 x off.toInt size
    let issues (i : Instr) (a : Nat) (k : ReqKind) (ks : List Nat) : Prop :=
      ∃ s' p' m, exec i s = .next s' ∧ s'.passOf (.fab c t) = some p' ∧ p'.fired = pp.fired ++ [s.cur.idx] ∧
        p'.loads = pp.loads ++ [{ plainRead l.toNat pa size with known := ks }] ∧ s'.mem = s.mem ∧ (s'.core c).latch = (s.core c).latch ∧
        mget s.reqs m = none ∧
        mget s'.reqs m = some { agent := .fab c t, idx := s.cur.idx, lsid := l.toNat, kind := k, va := a,
                                parts := [{ pa, len := size }], start := (s.die (dieOf c)).clk }
    (ea % size = 0 → s.resolve (.fab c t) s.cur.idx ea size .read false = .ok pa →
      clearRead s (.fab c t) pp l.toNat true false [(ea, size)] →
      issues (.ld p z sx false l off t0) ea (.load size sx 0) [] ∧ issues (.lda p z sc l off t0) ea (.load size false 0) []) ∧
    (ea % 16 + size ≤ 16 → s.resolve (.fab c t) s.cur.idx ea size .read false = .ok pa →
      clearRead s (.fab c t) pp l.toNat true false [(ea, size)] →
      issues (.ld p z sx true l off t0) ea (.load size sx 0) []) ∧
    (let va := ea57 x voff.toInt size
     va % size = 0 → clearRead s (.fab c t) pp l.toNat false false [(va, size)] → s.resolve (.fab c t) s.cur.idx va size .read true = .ok pa →
      issues (.ldv p z w l voff t1 t0) va (.ldv size w) (s.placedStores (.fab c t) pp l.toNat))

/-- R252, R256, R264: a misaligned access faults with ALIGN at its effective address, before anything of it happens. -/
def Sys2Proof.Claims.MisalignedAccessesFault : Prop :=
  ∀ (s : State) (p : Pred) (z : Size) (sx : Bool) (sc : Scope) (l : BitVec 5) (off : BitVec 4) (voff : BitVec 11)
    (t1 t0 : Target) (x r q : W64) (a : Agent) (pp : Pass), s.cur.phase = .one → s.cur.agent = a → s.passOf a = some pp →
    let size := sizeOfAccess z
    let ea := ea57 x off.toInt size
    (Fires s [.L] p.code x r q →
      (clearRead s a pp l.toNat true false [(ea, size)] → ea % size ≠ 0 →
        exec (.ld p z sx false l off t0) s = .next (s.raise 0x01 0 ea) ∧
        exec (.lda p z sc l off t0) s = .next (s.raise 0x01 0 ea)) ∧
      (clearRead s a pp l.toNat false false [(ea57 x voff.toInt size, size)] → a.slot ≠ none → ea57 x voff.toInt size % size ≠ 0 →
        exec (.ldv p z sx l voff t1 t0) s = .next (s.raise 0x01 0 (ea57 x voff.toInt size)))) ∧
    (Fires s [.L, .R] p.code x r q → ea % size ≠ 0 →
      exec (.st p z false l off) s = .next (s.raise 0x01 0 ea) ∧ exec (.stl p z sc l off) s = .next (s.raise 0x01 0 ea))

/-- R205, R206, R252: an aligned LD or ST of a thread faults with ACCESS at its address where it leaves the partition or the
private slice of its thread, or touches the reserved space. -/
def Sys2Proof.Claims.ForbiddenAccessesFault : Prop :=
  ∀ (s : State) (p : Pred) (z : Size) (sx : Bool) (l : BitVec 5) (off : BitVec 4)
    (t0 : Target) (x r q : W64) (a : Agent) (t : Nat) (pp : Pass), s.cur.phase = .one → s.cur.agent = a → a.slot = some t →
    s.passOf a = some pp →
    let size := sizeOfAccess z
    let ea := ea57 x off.toInt size
    let w := s.wgOf a.core t
    ea % size = 0 →
    ((0x1FFF00000000000 ≤ ea ∧ ea < 0x1FFF10000000000 ∧ w.partSize < ea - 0x1FFF00000000000 + size) ∨
      (0x1FFF10000000000 ≤ ea ∧ ea < 0x1FFF20000000000 ∧
        (ea - 0x1FFF10000000000 < 256 ∨ 256 + w.privBytes < ea - 0x1FFF10000000000 + size)) ∨
      0x1FFF20000000000 ≤ ea) →
    (Fires s [.L] p.code x r q → clearRead s a pp l.toNat true false [(ea, size)] →
      exec (.ld p z sx false l off t0) s = .next (s.raise 0x02 0 ea)) ∧
    (Fires s [.L, .R] p.code x r q → exec (.st p z false l off) s = .next (s.raise 0x02 0 ea))

/-- R13, R37, R223, R235, R237, R254: the reply to a load that has crossed to its home, none of its station in front of it,
takes its bytes from memory and delivers them, zero- or sign-extended, on T0; phase one may be complete with it, and a thread held for its last operation wakes. -/
def Sys2Proof.Claims.LoadRepliesDeliverMemory : Prop :=
  ∀ (s : State) (c t n m idx lsid pa len va start : Nat) (sx : Bool) (p : Pass) (i : Instr),
    s.passOf (.fab c t) = some p → p.inst = some n → instrAt (s.block p.img p.blk) idx = some i → 0 < len →
    let r : Req := { agent := .fab c t, idx, lsid, kind := .load len sx 0, va, parts := [{ pa, len }], start }
    mget s.reqs m = some r → s.sent (.req m) = true → s.readBehind m r = false →
    (∀ e ∈ s.reqs, e.1 ≠ m → e.2.agent = .fab c t → e.2.idx ≠ idx) →
    p.loads.find? (·.lsid = lsid) = some (plainRead lsid pa len) → mget p.got (2 * idx + 1) = none →
    s.stopped (.fab c t) = false → s.latchFree (.fab c t) p idx = true →
    s.homeFree (lineOf pa) = true → (∀ k, k < len → s.poisonAt (pa + k) 1 = false) →
    let u := ((s.touchL2 (lineOf pa)).dropReq m).updPass (.fab c t)
      (fun p => { p with got := mput p.got (2 * idx) (readBytes s.mem pa len) })
    exec (.memoryReply m .none) s = .next
      (((u.emitAt (.fab c t) idx 0 ((targetsOf i).headD .none) (loaded len sx (readLE s.mem pa len))).checkPhaseOne
        (.fab c t)).wakeLsq (.fab c t))

/-- R214, R257: the reply to LDV delivers the bytes on T0 and the version of their line on T1; poison faults instead. -/
def Sys2Proof.Claims.VersionedRepliesDeliverDataAndVersion : Prop :=
  ∀ (s : State) (c t n m idx lsid pa len va start : Nat) (w : Bool) (p : Pass),
    s.passOf (.fab c t) = some p → p.inst = some n → 0 < len →
    let r : Req := { agent := .fab c t, idx, lsid, kind := .ldv len w, va, parts := [{ pa, len }], start }
    mget s.reqs m = some r → s.sent (.req m) = true → s.readBehind m r = false →
    s.stopped (.fab c t) = false → s.latchFree (.fab c t) p idx = true →
    s.homeFree (lineOf pa) = true →
    let x := s.sideOf (lineOf pa)
    let u := (s.touchL2 (lineOf pa)).dropReq m
    let ends (v : State) : State := (v.checkPhaseOne (.fab c t)).wakeLsq (.fab c t)
    (x.dp = false → x.vp = false →
      exec (.memoryReply m .none) s = .next (ends ((u.updPass (.fab c t) (fun p =>
        if w then { p with watchIns := mput p.watchIns (lsid * 128 + idx) { line := va / 128, ver := x.ver } } else p)).replyTo r
          (BitVec.ofNat 64 (readLE s.mem pa len)) (BitVec.ofNat 64 x.ver)))) ∧
    (x.dp = true ∨ x.vp = true → exec (.memoryReply m .none) s = .next (ends (u.fault (.fab c t) (some idx) fcPoison 0 va)))

/-- R46, R255: ST and STL in phase one put their operands and place in the store buffer of their pass and change no byte
of memory; the pass is violated where a load of a higher LSID has taken one of the bytes from memory or from an earlier
store, but by an LDV that knew of the store.
The model's choice where the spec is silent: log 56. -/
def Sys2Proof.Claims.StoresWaitInTheStoreBuffer : Prop :=
  ∀ (s : State) (p : Pred) (z : Size) (sc : Scope) (l : BitVec 5) (off : BitVec 4) (x y q : W64) (c t n pa : Nat) (pp : Pass),
    OnFabric s c t n pp → s.cur.phase = .one → Fires s [.L, .R] p.code x y q →
    let size := sizeOfAccess z
    let ea := ea57 x off.toInt size
    let o : Op := { idx := s.cur.idx, l := x, r := y, va := ea, parts := [{ pa, len := size }] }
    ea % size = 0 → s.resolve (.fab c t) s.cur.idx ea size .write false = .ok pa →
    ∀ i ∈ [(.st p z false l off : Instr), .stl p z sc l off],
      ∃ s' p', exec i s = .next s' ∧ s'.passOf (.fab c t) = some p' ∧ p'.fired = pp.fired ++ [s.cur.idx] ∧
        p'.outs = pp.outs ++ [.op l.toNat o] ∧ s'.mem = s.mem ∧ s'.side = s.side ∧
        (p'.violated = true ↔ pp.violated = true ∨ ∃ ld ∈ pp.loads, l.toNat < ld.lsid ∧ l.toNat ∉ ld.known ∧
          ∃ b ∈ ld.bytes, (∀ k, b.2 = some k → k < l.toNat) ∧ pa ≤ b.1 ∧ b.1 < pa + size)

/-- R232, R255: a store to the core's scratchpad performs at its LSID: the bytes stand at its place, in little-endian
order, and every other byte is as it was. -/
def Sys2Proof.Claims.ScratchStoresPerform : Prop :=
  ∀ (s : State) (p : Pred) (z : Size) (sc : Scope) (l : BitVec 5) (off : BitVec 4) (k pa core : Nat) (o : Op),
    AtLsid s k o → o.started = false → o.parts = [{ pa, len := sizeOfAccess z }] → regionOf pa = .scratch core → s.memoryOk →
    (∀ ua, ∃ s', exec (.st p z ua l off) s = .next s' ∧
      readLE s'.mem pa (sizeOfAccess z) = o.r.toNat % 2 ^ (8 * sizeOfAccess z) ∧ sameOutside s s' pa (sizeOfAccess z) ∧
      ∃ o', opAt s' s.cur.agent k = some o' ∧ o'.performed = true) ∧
    (s.releaseMet s.cur.agent sc = true → ∃ s', exec (.stl p z sc l off) s = .next s' ∧
      readLE s'.mem pa (sizeOfAccess z) = o.r.toNat % 2 ^ (8 * sizeOfAccess z) ∧ sameOutside s s' pa (sizeOfAccess z) ∧
      ∃ o', opAt s' s.cur.agent k = some o' ∧ o'.performed = true) ∧
    (s.releaseMet s.cur.agent sc = false → exec (.stl p z sc l off) s = .next (s.startRelease s.cur.agent sc k))

/-- R221, R232, R255: a store to device memory or to a die's scratchpad, split or not, and an STL whose release condition
holds, leave for their homes: no byte of memory changes at the LSID, and the operation waits for a completion time of each
part. -/
def Sys2Proof.Claims.DeviceStoresLeaveForTheirHome : Prop :=
  ∀ (s : State) (p : Pred) (z : Size) (sc : Scope) (ua : Bool) (l : BitVec 5) (off : BitVec 4) (k : Nat) (o : Op),
    AtLsid s k o → o.started = false → o.parts ≠ [] →
    (∀ q ∈ o.parts, ∃ d, regionOf q.pa = .dev d ∨ regionOf q.pa = .dieScratch d) →
    let leaves (i : Instr) : Prop :=
      ∃ s' o', exec i s = .next s' ∧ s'.mem = s.mem ∧ s'.side = s.side ∧
        opAt s' s.cur.agent k = some o' ∧ o'.started = true ∧ o'.performed = false ∧ o'.waiting = o.parts.length
    leaves (.st p z ua l off) ∧ (s.releaseMet s.cur.agent sc = true → leaves (.stl p z sc l off))

/-- R249, R265, R266, R268, R269: what each atomic leaves at its location and returns, from the bytes that stood there;
a non-returning form computes as its returning form does. -/
def Obligations.AtomicValues : Prop :=
  ∀ (p : Pred) (ty : AIntTy) (ft : AFltTy) (bt : BitTy) (sc : Scope) (l : BitVec 5) (off : BitVec 4) (voff : BitVec 5)
    (base : BitVec 6) (t1 t0 : Target) (o : Op) (reg : Nat → W64) (old : List Byte) (ver : Nat) (vp : Bool),
    let v : W64 := BitVec.ofNat 64 (leNat old)
    let run (i : Instr) : AtomicRes := atomicRun i o reg old ver vp
    let it := aIntTy ty
    let int (x : Int) : AtomicRes :=
      { new := toLE (finish it false x).toNat (it.width / 8), wrote := true, t0 := finish it false (readInt it v), t1 := 0, fls := [] }
    let bit (x : W64) : AtomicRes :=
      { new := toLE x.toNat (bits bt / 8), wrote := true, t0 := cut bt v, t1 := 0, fls := [] }
    (run (.aadd p ty sc l off t0) = int (readInt it v + readInt it o.r) ∧
      run (.amin p ty sc l off t0) = int (min (readInt it v) (readInt it o.r)) ∧
      run (.amax p ty sc l off t0) = int (max (readInt it v) (readInt it o.r)) ∧
      run (.aand p bt sc l off t0) = bit (v &&& o.r) ∧ run (.aor p bt sc l off t0) = bit (v ||| o.r) ∧
      run (.axor p bt sc l off t0) = bit (v ^^^ o.r) ∧ run (.axchg p bt sc l off t0) = bit o.r) ∧
    (run (.afadd p ft sc l off t0) =
      { new := toLE (fpuAdd (aFltTy ft) .rne .none false v o.r).val.toNat 4, wrote := true, t0 := v, t1 := 0,
        fls := (fpuAdd (aFltTy ft) .rne .none false v o.r).fls }) ∧
    (run (.acas bt sc l off t0) =
      { new := if cut bt v = cut bt o.r then toLE o.p.toNat (bits bt / 8) else old, wrote := true, t0 := cut bt v, t1 := 0,
        fls := [] }) ∧
    (old.length = 16 →
      run (.acasw sc l base voff t1 t0) =
        { new := if old = toLE (reg base.toNat).toNat 8 ++ toLE (reg (base.toNat + 1)).toNat 8
            then toLE o.r.toNat 8 ++ toLE o.p.toNat 8 else old,
          wrote := true, t0 := BitVec.ofNat 64 (leNat (old.take 8)), t1 := BitVec.ofNat 64 (leNat (old.drop 8)), fls := [] }) ∧
    (∀ d : VData,
      let data : List Byte := match d with
        | .op4 => toLE o.p.toNat 4
        | .op8 => toLE o.p.toNat 8
        | .pair _ b => toLE (reg b.toNat).toNat 8 ++ toLE (reg (b.toNat + 1)).toNat 8
      let seen := if vp then 2 ^ 56 - 1 else ver
      let ok : Bool := !vp && seen = (o.r.setWidth 56).toNat
      run (.acasv d sc l voff t1 t0) =
        { new := if ok then data else old, wrote := ok, t0 := BitVec.ofNat 64 seen, t1 := if ok then 1 else 0, fls := [] } ∧
      run (.acasvNr d sc l voff) = run (.acasv d sc l voff t1 t0)) ∧
    run (.aaddNr p ty sc l off) = run (.aadd p ty sc l off t0) ∧ run (.aminNr p ty sc l off) = run (.amin p ty sc l off t0) ∧
    run (.amaxNr p ty sc l off) = run (.amax p ty sc l off t0) ∧ run (.afaddNr p ft sc l off) = run (.afadd p ft sc l off t0) ∧
    run (.aandNr p bt sc l off) = run (.aand p bt sc l off t0) ∧ run (.aorNr p bt sc l off) = run (.aor p bt sc l off t0) ∧
    run (.axorNr p bt sc l off) = run (.axor p bt sc l off t0) ∧ run (.axchgNr p bt sc l off) = run (.axchg p bt sc l off t0) ∧
    run (.acasNr bt sc l off) = run (.acas bt sc l off t0) ∧ run (.acaswNr sc l base voff) = run (.acasw sc l base voff t1 t0)

/-- R264, R267: in phase one an atomic or a reduction of an aligned place that translates puts its operands and place in
the sink's way and changes no byte of memory; a reduction whose page does not translate yet goes on without its place;
a misaligned one faults with ALIGN. -/
def Sys2Proof.Claims.AtomicsWaitForTheirLsid : Prop :=
  ∀ (s : State) (p : Pred) (ty : AIntTy) (ft : AFltTy) (bt : BitTy) (d : VData) (sc : Scope) (l : BitVec 5) (off : BitVec 4)
    (base : BitVec 6) (t1 t0 : Target) (x y q : W64) (c t n : Nat) (pp : Pass), sc ≠ .sys →
    OnFabric s c t n pp → s.cur.phase = .one →
    ∀ e ∈ atomics p ty ft bt d sc l off base t1 t0 ++ reductions p ty ft bt d sc l off base,
      Fires s e.2.1 e.2.2 x y q →
      let size := atomicSize e.1
      let ea := ea57 x off.toInt size
      let delivers (ps : List Part) : Prop :=
        ∃ s' p', exec e.1 s = .next s' ∧ s'.passOf (.fab c t) = some p' ∧ p'.fired = pp.fired ++ [s.cur.idx] ∧
          p'.outs = pp.outs ++ [.op l.toNat { idx := s.cur.idx, l := x, r := y, p := q, va := ea, parts := ps }] ∧
          s'.mem = s.mem ∧ s'.side = s.side
      (ea % size ≠ 0 → exec e.1 s = .next (s.raise 0x01 0 ea)) ∧
      (ea % size = 0 → ∀ pa, s.resolve (.fab c t) s.cur.idx ea size .atomic (isCasv e.1) = .ok pa →
        delivers [{ pa, len := size }]) ∧
      (ea % size = 0 → e ∈ reductions p ty ft bt d sc l off base →
        s.resolve (.fab c t) s.cur.idx ea size .atomic (isCasv e.1) = .miss → delivers [])

/-- R224, R264, R267: at its LSID an atomic on the core's scratchpad changes just its own bytes, in one step, and returns
its results; a reduction does the same, is counted as outstanding, and its acknowledgement is on its way. -/
def Sys2Proof.Claims.AtomicsPerformAtTheBank : Prop :=
  ∀ (s : State) (p : Pred) (ty : AIntTy) (ft : AFltTy) (bt : BitTy) (d : VData) (sc : Scope) (l : BitVec 5) (off : BitVec 4)
    (base : BitVec 6) (t1 t0 : Target) (k pa core : Nat) (o : Op), sc ≠ .sys → d.wf = true → base.toNat % 2 = 0 →
    AtLsid s k o → o.started = false → s.releaseMet s.cur.agent sc = true → regionOf pa = .scratch core → s.memoryOk →
    ∀ e ∈ atomics p ty ft bt d sc l off base t1 t0 ++ reductions p ty ft bt d sc l off base,
      let n := atomicSize e.1
      let a := s.cur.agent
      let x := atomicRun e.1 o (s.liveReg a) (readBytes s.mem pa n) 0 false
      o.parts = [{ pa, len := n }] → s.atomicPoison e.1 pa n = false →
      (∀ t, a.slot = some t → mgetD (s.launchOf a.core t).nrOut a.die 0 < 2 ^ 32 - 1) →
      ∃ s' o', exec e.1 s = .next s' ∧ readBytes s'.mem pa n = (if x.wrote then x.new else readBytes s.mem pa n) ∧
        sameOutside s s' pa n ∧ opAt s' a k = some o' ∧ o'.performed = true ∧
        (e ∈ atomics p ty ft bt d sc l off base t1 t0 → o'.l = x.t0 ∧ o'.p = x.t1) ∧
        (e ∈ reductions p ty ft bt d sc l off base →
          (∀ t, a.slot = some t → (s'.thread a.core t).nrOut = (s.thread a.core t).nrOut + 1) ∧
          ∃ m g w u v tm die, mget s.msgs m = none ∧ mget s'.msgs m = some (.nrAck a g w u v tm die))

/-- R225, R226, R264, R265: at its LSID an atomic on a device line that its core owns changes that line of the atomic line
buffer and its version in one step, and no byte of memory; without the line it asks for ownership and waits,
an outstanding request.
The model's choice where the spec is silent: log 16. -/
def Sys2Proof.Claims.AtomicsPerformAtTheOwner : Prop :=
  ∀ (s : State) (p : Pred) (ty : AIntTy) (ft : AFltTy) (bt : BitTy) (dd : VData) (sc : Scope) (l : BitVec 5) (off : BitVec 4)
    (base : BitVec 6) (t1 t0 : Target) (k pa d : Nat) (o : Op), sc ≠ .sys →
    AtLsid s k o → o.started = false → s.releaseMet s.cur.agent sc = true → regionOf pa = .dev d →
    ∀ e ∈ atomics p ty ft bt dd sc l off base t1 t0,
      let n := atomicSize e.1
      let a := s.cur.agent
      o.parts = [{ pa, len := n }] → pa % 128 + n ≤ 128 →
      (∀ ln, s.owned a.core (lineOf pa) = some ln → ln.data.length = 128 → s.atomicPoison e.1 pa n = false →
        let x := atomicRun e.1 o (s.liveReg a) ((ln.data.drop (pa % 128)).take n) ln.ver (s.sideOf (lineOf pa)).vp
        ∃ s' o' ln', exec e.1 s = .next s' ∧ s'.mem = s.mem ∧ s'.owned a.core (lineOf pa) = some ln' ∧
          (ln'.data.drop (pa % 128)).take n = (if x.wrote then x.new else (ln.data.drop (pa % 128)).take n) ∧
          ln'.data.take (pa % 128) = ln.data.take (pa % 128) ∧ ln'.data.drop (pa % 128 + n) = ln.data.drop (pa % 128 + n) ∧
          ln'.ver = (if x.wrote then (ln.ver + 1) % 2 ^ 56 else ln.ver) ∧
          opAt s' a k = some o' ∧ o'.performed = true ∧ o'.l = x.t0 ∧ o'.p = x.t1) ∧
      (s.owned a.core (lineOf pa) = none →
        exec e.1 s = .next (((s.updOp a k (fun o => { o with started := true })).askLine a.core (lineOf pa)).lineReq k o.va pa))

/-- R241, R262, R264: an atomic at scope .sys checks its remote address in phase one, takes the key of its window with it, and
at its LSID, once the release condition holds, goes to its port as a request, the port joining the remote-write set.
The model's choice where the spec is silent: log 16. -/
def Sys2Proof.Claims.RemoteAtomicsCheckAndSend : Prop :=
  ∀ (s : State) (p : Pred) (ty : AIntTy) (ft : AFltTy) (bt : BitTy) (d : VData) (l : BitVec 5) (off : BitVec 4)
    (base : BitVec 6) (t1 t0 : Target) (x y q : W64) (a : Agent) (pp : Pass), s.cur.agent = a → s.passOf a = some pp →
    ∀ e ∈ atomics p ty ft bt d .sys l off base t1 t0,
      let n := atomicSize e.1
      let ra := (x.extractLsb' 48 16 ++ (x.setWidth 48 + BitVec.ofInt 48 (off.toInt * n))).toNat
      let key := s.outbound (ra / 2 ^ 60) (s.tenantOf a) (ra / 2 ^ 48 % 2 ^ 12)
      let code : Option Nat := if ra % n ≠ 0 then some 0x01 else if 12 ≤ ra / 2 ^ 60 ∨ key = none then some 0x02 else none
      (s.cur.phase = .one → Fires s e.2.1 e.2.2 x y q →
        (∀ k, code = some k → exec e.1 s = .next (s.raise k 0 ra)) ∧
        (code = none → ∀ c t m, OnFabric s c t m pp →
          ∃ s' p' o, exec e.1 s = .next s' ∧ s'.mem = s.mem ∧ s'.passOf a = some p' ∧ p'.outs = pp.outs ++ [.op l.toNat o] ∧
            o.idx = s.cur.idx ∧ o.va = ra ∧ o.l = x ∧ o.r = y ∧ o.p = q ∧ o.remote = key)) ∧
      (∀ k o, AtLsid s k o → o.started = false → s.releaseMet a .sys = true →
        ∃ s' o' r rq, exec e.1 s = .next s' ∧ s'.mem = s.mem ∧ opAt s' a k = some o' ∧ o'.started = true ∧
          o'.performed = false ∧ mget s.reqs r = none ∧ mget s'.reqs r = some rq ∧ rq.kind = .remoteAtomic k ∧
          rq.va = o.va ∧ rq.remote = o.remote ∧ o.va / 2 ^ 60 % 16 ∈ (s'.relState a).2.2.2)

/-- R239, R240, R270: a fence is a committing operation of its LSID; an acquire performs there, a release sends the
coalescer entries of its thread and performs once the release condition of its scope holds. -/
def Sys2Proof.Claims.FencesActAtTheirLsid : Prop :=
  ∀ (s : State) (p : Pred) (k : FenceKind) (sc : Scope) (l : BitVec 5) (x y q : W64) (j : Nat) (o : Op),
    (s.cur.phase = .one → Fires s [] p.code x y q →
      exec (.fence p k sc l) s = .next ((took s [] p.code).deliverOp l.toNat {})) ∧
    (AtLsid s j o →
      exec (.fence p .acq sc l) s = .next (s.setPerformed j) ∧
      (k ≠ .acq →
        let a := s.cur.agent
        let u := s.sendEntries a.core (fun e => e.stores.any (·.agent = a))
        (u.releaseMet a sc = true → exec (.fence p k sc l) s = .next (u.setPerformed j)) ∧
        (u.releaseMet a sc = false → exec (.fence p k sc l) s = .next (u.startRelease a sc j))))

/-- R258: PRF fetches a line of device memory into a free way of its set, or is dropped and counted. -/
def Sys2Proof.Claims.PrefetchesFillOrDrop : Prop :=
  ∀ (s : State) (p : Pred) (x r q : W64), Fires s [.L] p.code x r q →
    let u := took s [.L] p.code
    let a := u.cur.agent
    let va := (x.setWidth 57).toNat
    let line := u.prefetchLine a u.cur.idx va
    let dropped := exec (.prf p) s = .next (u.countBy a 0x00D (some (u.tenantOf a)))
    (line = none → dropped) ∧
    (∀ n, line = some n → (mgetD u.l2 n {}).owner ≠ none → dropped) ∧
    (∀ n, line = some n → (mgetD u.l2 n {}).owner = none → (mgetD u.l2 n {}).present = false →
      ((u.setLines n).length < 16 → exec (.prf p) s =
        .next { u.touchVa a u.cur.idx va with l2 := mput u.l2 n { mgetD u.l2 n {} with present := true } }) ∧
      (16 ≤ (u.setLines n).length → dropped))

/-- R262, R263: a remote access checks its alignment, its port and its outbound window, RLD sends its request in phase one
and RST at its LSID, once the release condition holds where it is .sys; each with the place and the key of its window. -/
def Sys2Proof.Claims.RemoteAccessesCheckAndSend : Prop :=
  ∀ (s : State) (p : Pred) (z : Size) (sys : Bool) (l : BitVec 5) (off : BitVec 4) (t0 : Target) (x y q : W64)
    (a : Agent) (pp : Pass), s.cur.agent = a → s.passOf a = some pp →
    let n := sizeOfAccess z
    let ra := (x.extractLsb' 48 16 ++ (x.setWidth 48 + BitVec.ofInt 48 (off.toInt * n))).toNat
    let code : Option Nat := if ra % n ≠ 0 then some 0x01 else if 12 ≤ ra / 2 ^ 60 then some 0x02
      else if s.outbound (ra / 2 ^ 60) (s.tenantOf a) (ra / 2 ^ 48 % 2 ^ 12) = none then some 0x02 else none
    (s.cur.phase = .one → ∀ k, code = some k →
      (Fires s [.L] p.code x y q → clearRead s a pp l.toNat true true [(ra, n)] →
        exec (.rld p z sys l off t0) s = .next (s.raise k 0 ra)) ∧
      (Fires s [.L, .R] p.code x y q → exec (.rst p z sys l off) s = .next (s.raise k 0 ra))) ∧
    (s.cur.phase = .one → code = none → ∀ c t m, OnFabric s c t m pp →
      (Fires s [.L] p.code x y q → clearRead s a pp l.toNat true true [(ra, n)] → pp.ops = [] → pp.outs = [] →
        ∃ s' r, exec (.rld p z sys l off t0) s = .next s' ∧ s'.mem = s.mem ∧ mget s.reqs r = none ∧
          ∃ rq, mget s'.reqs r = some rq ∧ rq.agent = a ∧ rq.idx = s.cur.idx ∧ rq.kind = .remoteRead n ∧ rq.va = ra ∧
            rq.remote = s.outbound (ra / 2 ^ 60) (s.tenantOf a) (ra / 2 ^ 48 % 2 ^ 12)) ∧
      (Fires s [.L, .R] p.code x y q →
        ∃ s' p' o, exec (.rst p z sys l off) s = .next s' ∧ s'.mem = s.mem ∧ s'.passOf a = some p' ∧
          p'.outs = pp.outs ++ [.op l.toNat o] ∧ o.idx = s.cur.idx ∧ o.va = ra ∧ o.r = y ∧
          o.remote = s.outbound (ra / 2 ^ 60) (s.tenantOf a) (ra / 2 ^ 48 % 2 ^ 12))) ∧
    (∀ k o, AtLsid s k o → o.started = false → s.releaseMet a (if sys then .sys else .th) = true →
      ∃ s' o' r rq, exec (.rst p z sys l off) s = .next s' ∧ s'.mem = s.mem ∧ opAt s' a k = some o' ∧ o'.started = true ∧
        o'.performed = false ∧ mget s.reqs r = none ∧ mget s'.reqs r = some rq ∧ rq.kind = .remoteWrite k ∧ rq.va = o.va ∧
        rq.remote = o.remote ∧ o.va / 2 ^ 60 % 16 ∈ (s'.relState a).2.2.2)

namespace Sys2Proof.Claims
open Sys2Proof.Machine

/-- No request of the executing instruction is outstanding. -/
def noRequest (s : State) : Prop := ∀ e ∈ s.reqs, e.2.agent = s.cur.agent → e.2.idx ≠ s.cur.idx

/-- A request of the executing instruction, sent now. -/
def asks (s : State) (k : ReqKind) (va : Nat) (ps : List Part) : Req :=
  { agent := s.cur.agent, idx := s.cur.idx, kind := k, va, parts := ps, start := (s.die s.cur.agent.die).clk }

/-- The pass of the executing instruction counts one more element of a stream port. -/
def oneMore (s : State) (port : Nat) : State :=
  s.updPass s.cur.agent (fun p => { p with streamTaken := mput p.streamTaken port (mgetD p.streamTaken port 0 + 1) })

/-- The element of a port that a thread's next access takes: e = k × N + tid (R306). -/
def elementOf (s : State) (c t : Nat) (p : Pass) (port : Nat) : Nat :=
  (mgetD (s.thread c t).spos port 0 + mgetD p.streamTaken port 0) % 2 ^ 32 * (s.wgOf c t).n + (t - s.base c t)

/-- A context a thread may name: kind 0 with code 0, or kinds 1 to 7 with their index in range (R383, R385). -/
def contextValid (x : W64) : Prop :=
  x.toNat < 2 ^ 16 ∧ (x.toNat = 0 ∨ (x.toNat / 2 ^ 11 % 2 = 0 ∧
    (x.toNat / 4096 = 1 ∧ x.toNat % 256 < 4 ∨ x.toNat / 4096 ∈ [2, 3, 6] ∧ x.toNat % 256 = 0 ∨
      x.toNat / 4096 ∈ [4, 5] ∧ x.toNat % 256 < 16 ∨ x.toNat / 4096 = 7)))

/-- The arrival of BARV at a barrier object, as R390 writes it: whether the phase ends poisoned, and the object. -/
def arrival (o : BarObj) (record : Option Nat) (role : Nat) (masked : Bool) (m : Nat) : Bool × BarObj :=
  let done (x : BarObj) : BarObj := { x with arrivals := 0, isOpen := false, mask := 0, phase := (x.phase + 1) % 2 ^ 16 }
  if record = some o.phase ∨ o.expected = 0 ∨ 4096 < o.expected ∨ o.expected ≤ o.arrivals ∨
      (masked = true ∧ (m = 0 ∨ m / 2 ^ role % 2 = 0)) ∨
      (0 < o.arrivals ∧ (masked ≠ o.isOpen ∨ (masked = true ∧ m ≠ o.mask))) then
    (true, done { o with tag := o.phase, tagValid := true })
  else
    let x := if o.arrivals = 0 then { o with isOpen := masked, mask := if masked then m else 0 } else o
    let x := { x with arrivals := x.arrivals + 1 }
    (false, if x.arrivals = x.expected ∧ x.pending = 0 then done x else x)

/-- Insertion of a line into a watch set of at most eight lines with an overflow flag: over the valid entry of the line, in
the first invalid place, or behind the others (R371, R372). -/
def inserted (w : List Watch × Bool) (x : Watch) : List Watch × Bool :=
  if ∃ e ∈ w.1, e.valid = true ∧ e.line = x.line then
    (w.1.map (fun e => if e.valid = true ∧ e.line = x.line then x else e), w.2)
  else match w.1.findIdx? (fun e => !e.valid) with
    | some i => (w.1.set i x, w.2)
    | none => if w.1.length < 8 then (w.1 ++ [x], w.2) else (w.1, true)

end Sys2Proof.Claims

/-- R301 to R305: QPUSH, QPOP, QTRY and QGRANT at their firing, and the performs of QPUSH and QGRANT: QPOP takes the first
entry that its clause's SLU has reserved for its thread, or without one the oldest that nobody has reserved; a program that
is no thread has no sluice. -/
def Sys2Proof.Claims.SluiceInstructions : Prop :=
  ∀ (s : State) (p : Pred) (q : BitVec 4) (l : BitVec 5) (t1 t0 : Target) (x y z : W64),
    (s.cur.phase = .one → Fires s [.L] p.code x y z →
      ∀ i ∈ [(.qpush p q l : Instr), .qgrant p q l],
        (s.cur.agent.slot = none → exec i s = .next ((took s [.L] p.code).raise 0x02)) ∧
        (s.cur.agent.slot ≠ none → exec i s = .next ((took s [.L] p.code).deliverOp l.toNat { l := x }))) ∧
    (Fires s [] p.code x y z → ∀ t, s.cur.agent.slot = some t →
      let c := s.cur.agent.core
      let u := took s [] p.code
      let sl := u.sluice c t q.toNat
      (sl.entries.find? (·.rsv.isNone) = none → exec (.qtry p q t1 t0) s = .next (u.emit t0 t1 0 0)) ∧
      (∀ a b e, sl.entries = a ++ e :: b → (∀ f ∈ a, f.rsv ≠ none) → e.rsv = none →
        let gone := u.setSluice c t q.toNat { sl with entries := a ++ { e with rsv := some t, delivered := true } :: b }
        exec (.qtry p q t1 t0) s = .next (gone.emit t0 t1 (e.handle.setWidth 64) 1) ∧
        (noRequest s → ∀ n pp, OnFabric s c t n pp → popClause (s.block pp.img pp.blk) s.cur.idx q.toNat = none →
          exec (.qpop p q t1 t0) s = .next (gone.emit t0 t1 (e.handle.setWidth 64) (e.handle.setWidth 64)))) ∧
      (noRequest s → ∀ n pp, OnFabric s c t n pp →
        (popClause (s.block pp.img pp.blk) s.cur.idx q.toNat = none → (∀ f ∈ sl.entries, f.rsv ≠ none) →
          exec (.qpop p q t1 t0) s = .next s) ∧
        ∀ j, popClause (s.block pp.img pp.blk) s.cur.idx q.toNat = some j →
          let its (f : SlEntry) : Prop := f.rsv = some t ∧ f.clause = j ∧ f.delivered = false
          (∀ a b e, sl.entries = a ++ e :: b → (∀ f ∈ a, ¬ its f) → its e →
            exec (.qpop p q t1 t0) s = .next ((u.setSluice c t q.toNat
              { sl with entries := a ++ { e with delivered := true } :: b }).emit t0 t1 (e.handle.setWidth 64) (e.handle.setWidth 64))) ∧
          ((∀ f ∈ sl.entries, ¬ its f) → exec (.qpop p q t1 t0) s = .next s))) ∧
    (∀ k o t, AtLsid s k o → s.cur.agent.slot = some t →
      let c := s.cur.agent.core
      let sl := s.sluice c t q.toNat
      exec (.qpush p q l) s = .next ((((s.setSluice c t q.toNat { sl with
        entries := sl.entries ++ [{ handle := o.l.setWidth 32 }], pushRsv := sl.pushRsv - 1, allowRsv := sl.allowRsv - 1
        }).useRsv s.cur.agent q.toNat).setPerformed k).wakeWg c (s.base c t) (· == .sluice q.toNat)) ∧
      exec (.qgrant p q l) s = .next (((s.setSluice c t q.toNat { sl with allow := min (sl.allow + o.l.toNat) 0xFFFF
        }).setPerformed k).wakeWg c (s.base c t) (· == .sluice q.toNat)))

/-- R388 to R391, R393: BINIT, BARV, BEXP and BWAIT: the checks of phase one, the arrival, what each leaves in the barrier
object in the partition and in the thread's arrival record, and what BWAIT delivers. -/
def Sys2Proof.Claims.BarrierInstructions : Prop :=
  ∀ (s : State) (p : Pred) (q : BitVec 4) (l : BitVec 5) (m : Bool) (t1 t0 : Target) (x y z : W64) (c t n : Nat) (pp : Pass),
    s.passOf (.fab c t) = some pp →
    let w := s.wgOf c t
    let b := s.base c t
    let ins : List Field := if m then [.L] else []
    let va := (x.setWidth 57).toNat
    (s.cur.phase = .one → OnFabric s c t n pp → noRequest s →
      (Fires s [.L, .R] p.code x y z →
        (va % 16 ≠ 0 → exec (.binit p q l) s = .next (s.raise 0x01 0 va)) ∧
        (va % 16 = 0 → (va < 0x1FFF00000000000 ∨ 0x1FFF10000000000 ≤ va ∨ w.partSize < va - 0x1FFF00000000000 + 16
            ∨ y.toNat = 0 ∨ 4096 < y.toNat) → exec (.binit p q l) s = .next (s.raise 0x02 0 va)) ∧
        (va % 16 = 0 → 0x1FFF00000000000 ≤ va → va < 0x1FFF10000000000 → va - 0x1FFF00000000000 + 16 ≤ w.partSize →
          0 < y.toNat → y.toNat ≤ 4096 →
          exec (.binit p q l) s = .next ((took s [.L, .R] p.code).deliverOp l.toNat { l := x, r := y, va }))) ∧
      (Fires s ins p.code x y z → (mget w.barriers q.toNat).isSome = true →
        exec (.barv p m q l) s = .next ((took s ins p.code).deliverOp l.toNat { l := x })) ∧
      (Fires s [.L] p.code x y z → (mget w.barriers q.toNat).isSome = true →
        exec (.bexp p q l) s = .next ((took s [.L] p.code).deliverOp l.toNat { l := x })) ∧
      (Fires s [] p.code x y z →
        (mget w.barriers q.toNat = none → exec (.bwait p q t1 t0) s = .next (s.raise 0x02)) ∧
        ∀ o, s.barrier c t q.toNat = some o →
          (mget (s.thread c t).arrivals q.toNat = some o.phase → exec (.bwait p q t1 t0) s = .next s) ∧
          (mget (s.thread c t).arrivals q.toNat ≠ some o.phase → exec (.bwait p q t1 t0) s = sends s [] p.code t0 t1
            (if o.tagValid = true ∧ mget (s.thread c t).arrivals q.toNat = some o.tag then 0 else 1)))) ∧
    (∀ k o, s.cur.agent = .fab c t → AtLsid s k o →
      (let a := partAddr c w (o.va - 0x1FFF00000000000)
       let old := barOf s.mem a
       let fresh : BarObj := { arrivals := 0, expected := o.r.toNat, mask := 0, isOpen := false, pending := 0,
                               phase := (old.phase + 1) % 2 ^ 16, tagValid := old.tagValid || decide (0 < old.arrivals),
                               tag := if 0 < old.arrivals then old.phase else old.tag }
       let u := s.setWg c b { w with barriers := mput w.barriers q.toNat { off := o.va - 0x1FFF00000000000 } }
       exec (.binit p q l) s =
         .next ((({ u with mem := writeBytes u.mem a (barBytes fresh) } : State).wakeWg c b (· == .barrier q.toNat)).setPerformed k)) ∧
      (∀ bo, s.barrier c t q.toNat = some bo →
        (s.releaseMet (.fab c t) .wg = false → exec (.barv p m q l) s = .next (s.startRelease (.fab c t) .wg k)) ∧
        (s.releaseMet (.fab c t) .wg = true →
          let r := arrival bo (mget (s.thread c t).arrivals q.toNat) (s.roleOf c t) m (o.l.toNat % 16)
          let u := (s.setThread c t { s.thread c t with arrivals := mput (s.thread c t).arrivals q.toNat bo.phase }).setBarrier c b q.toNat r.2
          (r.1 = false → exec (.barv p m q l) s = .next (u.setPerformed k)) ∧
          (r.1 = true → ∃ e, exec (.barv p m q l) s = .next ((u.postCore c e).setPerformed k) ∧ e.toNat % 256 = 4)) ∧
        (let x : BarObj := { bo with pending := (bo.pending + o.l.toNat) % 2 ^ 64 }
         exec (.bexp p q l) s = .next (((s.setWg c b { w with recvBar := some q.toNat }).setBarrier c b q.toNat
           (if x.arrivals = x.expected ∧ x.pending = 0
            then { x with arrivals := 0, isOpen := false, mask := 0, phase := (x.phase + 1) % 2 ^ 16 } else x)).setPerformed k))))

/-- R385, R372, R373: TLWAIT and TLRD read the timeline of a valid context and fault on any other; WSADD notes its line for
the pass's working set, WSCLR empties it, and WSVAL delivers 0 with overflow, 1 on an empty set, and else sends one check
for each line. -/
def Sys2Proof.Claims.TimelinesAndWatchSets : Prop :=
  ∀ (s : State) (p : Pred) (l : BitVec 5) (t1 t0 : Target) (x y z : W64),
    (Fires s [.L, .R] p.code x y z →
      let u := took s [.L, .R] p.code
      (¬ contextValid x → exec (.tlwait p t1 t0) s = .next (u.raise 0x02)) ∧
      (contextValid x → y.toNat ≤ u.timeline x.toNat → exec (.tlwait p t1 t0) s = .next (u.emit t0 t1 1 1)) ∧
      (contextValid x → u.timeline x.toNat < y.toNat →
        exec (.tlwait p t1 t0) s = .next (u.addReq (asks u (.tlwait x.toNat y.toNat) 0 [])))) ∧
    (Fires s [.L] p.code x y z →
      let u := took s [.L] p.code
      (¬ contextValid x → exec (.tlrd p t1 t0) s = .next (u.raise 0x02)) ∧
      (contextValid x → exec (.tlrd p t1 t0) s =
        .next (u.emit t0 t1 (BitVec.ofNat 64 (u.timeline x.toNat)) (BitVec.ofNat 64 (u.timeline x.toNat))))) ∧
    (Fires s [] p.code x y z → ∀ t, s.cur.agent.slot = some t →
      exec (.wsclr p) s = .next ((took s [] p.code).updPass s.cur.agent (fun w => { w with watchClr := true }))) ∧
    (∀ c t n pp, OnFabric s c t n pp → noRequest s →
      (Fires s [.L, .R] p.code x y z →
        let va := (x.setWidth 57).toNat
        (∀ e, s.resolve (.fab c t) s.cur.idx va 1 .read true = .fault e → exec (.wsadd p) s = .next (s.raise e 0 va)) ∧
        (∀ pa, s.resolve (.fab c t) s.cur.idx va 1 .read true = .ok pa → ∃ s' p', exec (.wsadd p) s = .next s' ∧
          s'.passOf (.fab c t) = some p' ∧ p'.fired = pp.fired ++ [s.cur.idx] ∧
          mget p'.watchIns (4096 + s.cur.idx) = some { line := va / 128, ver := y.toNat % 2 ^ 56 } ∧
          s'.mem = s.mem ∧ (s'.thread c t).watch = (s.thread c t).watch)) ∧
      (Fires s [] p.code x y z → s.watchReady (.fab c t) pp l.toNat = true → s.readBlocked (.fab c t) pp l.toNat = false →
        let set := pp.watchIns.foldl (fun w e => inserted w e.2)
          (if pp.watchClr then ([], false) else ((s.thread c t).watch, (s.thread c t).watchOv))
        let watched := set.1.filter (·.valid)
        (set.2 = true → exec (.wsval p l t0) s = .next ((took s [] p.code).emit t0 .none 0 0)) ∧
        (set.2 = false → watched = [] → exec (.wsval p l t0) s = .next ((took s [] p.code).emit t0 .none 1 0)) ∧
        (∀ w pa, set.2 = false → watched = [w] → s.resolve (.fab c t) s.cur.idx (w.line * 128) 1 .read true = .ok pa →
          ∃ s' r rq, exec (.wsval p l t0) s = .next s' ∧ s'.mem = s.mem ∧ mget s.reqs r = none ∧ mget s'.reqs r = some rq ∧
            rq.agent = .fab c t ∧ rq.idx = s.cur.idx ∧ rq.kind = .watch w.line w.ver)))

/-- R218, R235, R259 to R261, R306 to R310: SGET, SPUT and SMARK at their firing: the element a thread takes is
e = k × N + tid, a usable window line or a radix entry is delivered at once, any other element is read at its home;
SPUT and SMARK leave for the sink, and a rank above the port's faults. -/
def Sys2Proof.Claims.StreamInstructionsFire : Prop :=
  ∀ (s : State) (p : Pred) (q : BitVec 4) (l : BitVec 5) (t1 t0 : Target) (x y z : W64) (c t n : Nat) (pp : Pass),
    OnFabric s c t n pp → s.cur.phase = .one → noRequest s →
    let port := q.toNat
    let d := s.portDecl c t port
    let e := elementOf s c t pp port
    let win := mgetD (s.wgOf c t).windows port {}
    let va := (win.base + e * d.elem) % 2 ^ 57
    let turn : Prop := streamTurn (s.block pp.img pp.blk) pp s.cur.idx port = true
    (Fires s [] p.code x y z → turn → d.kind = 0 →
      (va % d.elem ≠ 0 → exec (.sget p q t1 t0) s = .next (s.raise 0x01 0 va)) ∧
      (va % d.elem = 0 → win.tail ≤ e * d.elem → s.lineUsable c (mgetD win.lines (va / 128) {}) = true →
        exec (.sget p q t1 t0) s = .next ((oneMore (took s [] p.code) port).emit t0 t1 (BitVec.ofNat 64
          (leNat ((List.range d.elem).map (fun i => mgetD (mgetD win.lines (va / 128) {}).data (va % 128 + i) 0)))) 0)) ∧
      (va % d.elem = 0 → (e * d.elem < win.tail ∨ s.lineUsable c (mgetD win.lines (va / 128) {}) = false) →
        ∀ pa, s.resolve (.fab c t) s.cur.idx va d.elem .read false = .ok pa →
        ∃ s' r rq, exec (.sget p q t1 t0) s = .next s' ∧ s'.mem = s.mem ∧ mget s.reqs r = none ∧ mget s'.reqs r = some rq ∧
          rq.kind = .stream port ∧ rq.va = va ∧ rq.parts = [{ pa, len := d.elem }])) ∧
    (Fires s [] p.code x y z → turn → d.kind = 1 → ∀ pc pb, s.peerAt (s.wgOf c t) d.dx d.dy = some (pc, pb) →
      let o := argOf (s.gang (s.gangOf c t)) d.slot + e * d.elem
      let pa := partAddr pc (s.wg pc pb) o
      ((s.wg pc pb).partSize < o + d.elem → exec (.sget p q t1 t0) s = .next (s.raise 0x02 0 o)) ∧
      (o + d.elem ≤ (s.wg pc pb).partSize → pa % d.elem ≠ 0 → exec (.sget p q t1 t0) s = .next (s.raise 0x01 0 o)) ∧
      (o + d.elem ≤ (s.wg pc pb).partSize → pa % d.elem = 0 → exec (.sget p q t1 t0) s =
        .next (let u := oneMore (took s [] p.code) port
               u.addReq (asks u (.stream port) 0 [{ pa, len := d.elem }])))) ∧
    (Fires s [] p.code x y z → turn → d.kind = 2 →
      (s.radixGet c t port = none → exec (.sget p q t1 t0) s = .next s) ∧
      ∀ v mk k, s.radixGet c t port = some (v, mk, k) → ∃ u : State, exec (.sget p q t1 t0) s = .next (u.emit t0 t1 v mk) ∧
        u.mem = s.mem ∧ (∀ p', u.passOf (.fab c t) = some p' → mget p'.streamTaken port = some (mgetD pp.streamTaken port 0 + 1)) ∧
        (let key := port * 4096 + (t - s.base c t)
         mgetD (u.wgOf c t).chans key [] = takeCh t k (mgetD (s.wgOf c t).chans key []))) ∧
    (Fires s [.L] p.code x y z →
      (d.rank < x.toNat → exec (.smark p q l) s = .next ((took s [.L] p.code).raise 0x02)) ∧
      (x.toNat ≤ d.rank → exec (.smark p q l) s = .next ((took s [.L] p.code).deliverOp l.toNat { l := x })) ∧
      (turn → d.kind = 0 → va % d.elem = 0 → ∀ pa, s.resolve (.fab c t) s.cur.idx va d.elem .write false = .ok pa →
        ∃ s' p', exec (.sput p q l) s = .next s' ∧ s'.passOf (.fab c t) = some p' ∧ s'.mem = s.mem ∧
          p'.outs = pp.outs ++ [.op l.toNat { idx := s.cur.idx, l := x, r := x, va, parts := [{ pa, len := d.elem }] }] ∧
          mget p'.streamTaken port = some (mgetD pp.streamTaken port 0 + 1)) ∧
      (turn → d.kind = 1 → ∀ pc pb, s.peerAt (s.wgOf c t) d.dx d.dy = some (pc, pb) →
        let o := argOf (s.gang (s.gangOf c t)) d.slot + e * d.elem
        let pa := partAddr pc (s.wg pc pb) o
        o + d.elem ≤ (s.wg pc pb).partSize → pa % d.elem = 0 → exec (.sput p q l) s =
          .next ((oneMore (took s [.L] p.code) port).deliverOp l.toNat { l := x, r := x, va := o, parts := [{ pa, len := d.elem }] })) ∧
      (turn → d.kind = 2 → exec (.sput p q l) s =
        .next ((oneMore (took s [.L] p.code) port).deliverOp l.toNat { l := x, r := x })) ∧
      (¬ turn → exec (.sput p q l) s = .next s)) ∧
    (Fires s [] p.code x y z → ¬ turn → exec (.sget p q t1 t0) s = .next s)

/-- R219, R261, R307 to R309: at its LSID SPUT writes its element into a line inside the window and marks the line dirty, or sends it into the channel of its receiver; SMARK's marker follows there, and raises a marker that stands last. -/
def Sys2Proof.Claims.StreamInstructionsPerform : Prop :=
  ∀ (s : State) (p : Pred) (q : BitVec 4) (l : BitVec 5) (k : Nat) (o : Op) (c t : Nat) (pp : Pass),
    s.cur.agent = .fab c t → AtLsid s k o → s.passOf (.fab c t) = some pp →
    let port := q.toNat
    let d := s.portDecl c t port
    let b := s.base c t
    let win := mgetD (s.wg c b).windows port {}
    let old := mgetD win.lines (o.va / 128) {}
    (d.kind = 0 → o.started = false → ∀ pa, o.parts = [{ pa, len := d.elem }] → (win.base + win.tail) % 2 ^ 57 ≤ o.va →
      win.holds (windowBytes d) (o.va / 128) = true → o.va % 128 + d.elem ≤ 128 →
      ∃ s' o', exec (.sput p q l) s = .next s' ∧ s'.mem = s.mem ∧ opAt s' (.fab c t) k = some o' ∧ o'.performed = true ∧
        let line := mgetD (mgetD (s'.wg c b).windows port {}).lines (o.va / 128) {}
        line.dirty = true ∧ line.valid = false ∧ line.pline = pa / 128 ∧
        (∀ j, j < d.elem → mget line.data (o.va % 128 + j) = some (o.l.extractLsb' (8 * j) 8)) ∧
        (old.dirty = true → ∀ j, j < o.va % 128 ∨ o.va % 128 + d.elem ≤ j → mget line.data j = mget old.data j)) ∧
    (∀ rc rb rp rt, s.receiver c t port = some (rc, rb, rp, rt) →
      let key := rp * 4096 + rt
      let fifo (u : State) : List ChEntry := mgetD (u.wg rc rb).chans key []
      (d.kind = 2 → ∃ s' o', exec (.sput p q l) s = .next s' ∧ s'.mem = s.mem ∧
        fifo s' = fifo s ++ [{ elem := some (BitVec.ofNat 64 (o.l.toNat % 2 ^ (8 * d.elem))) }] ∧
        opAt s' (.fab c t) k = some o' ∧ o'.performed = true) ∧
      (∃ s' o', exec (.smark p q l) s = .next s' ∧ s'.mem = s.mem ∧ opAt s' (.fab c t) k = some o' ∧ o'.performed = true ∧
        (∀ es m r, fifo s = es ++ [m] → m.elem = none → m.marker = some r →
          fifo s' = es ++ [{ m with marker := some (max r (o.l.toNat % 8)) }]) ∧
        (((fifo s).getLast?).any (fun e => e.elem = none && e.marker.isSome) = false →
          fifo s' = fifo s ++ [{ marker := some (o.l.toNat % 8) }])))
namespace Sys2Proof.Claims
open Sys2Proof.Machine

/-- An MTX instruction at the seal of its round, its check passed: seal `x`, members `ms`, records and tiles `m` as the
check leaves them (R271 to R273). -/
structure Sealed (s : State) (i : Instr) (x : SealAt) (ms : List Mtm) (m : Mtx) : Prop where
  phase : s.cur.phase = .seal
  named : s.curSeal i = some (x, ms)
  plan : (s.planMtx x (fun c => s.mtx c) (s.mtx x.core) i ms).1 = m
  passes : ∀ k, 1 ≤ k → k ≤ 6 → k ∉ (s.planMtx x (fun c => s.mtx c) (s.mtx x.core) i ms).2

/-- The members' rows: each row below 128 that a member names, in increasing row, with its lowest member (R272). -/
def maskOf (ms : List Mtm) : List (Nat × Mtm) :=
  (List.range 128).filterMap (fun r => (ms.find? (fun m => m.r.toNat = r)).map (fun m => (r, m)))

/-- Every row of the mask changes in increasing row; the exception kinds of the whole instruction count once (R69, R288). -/
def eachRowOf (s : State) (ms : List Mtm) (f : Nat → Mtm → State → State × FFlags) : Host.Outcome State Fault Refusal :=
  let r := (maskOf ms).foldl (fun (a : State × FFlags) e => let y := f e.1 e.2 a.1; (y.1, a.2.or y.2)) (s, {})
  .next (r.1.countFlag r.2)

/-- The columns of a width field. -/
def width (n : BitVec 5) : Nat := 8 * (n.toNat + 1)

/-- Rows of an A record on core `ca` times rows of a B record, added to the tile (R285, R286). -/
def products (s : State) (c ca : Nat) (ra rb : ObRec) (tile col n : Nat) (ms : List Mtm) : Host.Outcome State Fault Refusal :=
  let bs := (List.range n).map (fun j => s.orow c rb j)
  .next ((maskOf ms).foldl (fun (st : State) e =>
    let sums := (List.range n).map (fun j =>
      matrixSum ra rb (st.orow ca ra e.2.l.toNat) (bs.getD j { elems := [], scales := [], bad := false }) (st.acc c tile e.1 (col + j)))
    (sums.foldl (fun (v : State) m => v.countSum m) st).setAccRow c tile e.1 col (sums.map (·.acc))) (s.countRows ms))

/-- The bytes that MST stores of a row of a tile (R71, R289). -/
def stored (s : State) (f : StFmt) (c tile row col n : Nat) : List Byte :=
  (List.range n).flatMap (fun j =>
    let v := s.acc c tile row (col + j)
    match f with
    | .f32 => toLE v 4
    | .f16 | .ob16 _ => toLE (Fmt.f32.convert .f16 .rne v).bits 2
    | .bf16 | .obbf _ => toLE (Fmt.f32.convert .bf16 .rne v).bits 2)

/-- One order of columns (R290): numbers before NaNs; numbers by key; equal keys and NaNs by index. -/
def orderedAs (asc mag : Bool) (a b : Nat × Nat) : Prop :=
  let key (v : Nat) : ℚ := if mag then |value .f32 v| else value .f32 v
  (isNan .f32 a.1 → isNan .f32 b.1 ∧ a.2 < b.2) ∧
  (isFinite .f32 a.1 → isFinite .f32 b.1 →
    (if asc then key a.1 ≤ key b.1 else key b.1 ≤ key a.1) ∧ (key a.1 = key b.1 → a.2 < b.2))

end Sys2Proof.Claims

/-- R271, R451: an MTX instruction of a thread does nothing before its seal; in a program without a matrix unit it faults. -/
def Sys2Proof.Claims.MatrixInstructionsWaitForTheSeal : Prop :=
  ∀ (s : State) (i : Instr) (f : Fields), encodeFields i = some f → f.cls = .mtx → s.cur.phase = .one →
    (s.cur.agent.slot ≠ none → exec i s = .next s) ∧
    (s.cur.agent.slot = none → ∀ l r q, Fires s (inputsOf i) (prOf i) l r q → exec i s = .next (s.raise 0x02))

/-- R278, R279: at the seal MRES claims the lowest free run of granules, writes its record and zeroes the granules;
MREL frees its record and its tile. -/
def Sys2Proof.Claims.MatrixReservations : Prop :=
  ∀ (s : State) (p : Pred) (rec : BitVec 6) (gran : BitVec 8) (f : RecFmt) (k : BitVec 6) (orec : Option (BitVec 6))
    (otile : Option (BitVec 2)) (x : SealAt) (ms : List Mtm) (m : Mtx),
    (Sealed s (.mres p rec gran f k) x ms m →
      ∃ e rest g t, ms = e :: rest ∧ exec (.mres p rec gran f k) s = .next t ∧
        freeRun (s.core x.core).obrecs (gran.toNat + 1) = some g ∧
        t.obrec x.core rec.toNat =
          { st := .reserved, first := g, granules := gran.toNat + 1, fmt := recFmtCode f, blk := recBlkCode f, owner := x.wg / 128,
            scaleOff := (e.r.extractLsb' 48 8).toInt, rowLen := (e.r.extractLsb' 32 16).toNat,
            src := (e.l.extractLsb' 0 57).toNat, stride := (e.r.extractLsb' 0 32).toNat,
            scaleVa := (match f with
              | .l6 _ | .l8 _ => (x.consts.getD k.toNat 0).toNat + 2 ^ 32 * (x.consts.getD (k.toNat + 1) 0).toNat
              | _ => 0) % 2 ^ 57 } ∧
        (∀ a, opBufBase x.core + g * 4096 ≤ a → a < opBufBase x.core + (g + gran.toNat + 1) * 4096 → readByte t.mem a = 0) ∧
        (∀ a, a < opBufBase x.core + g * 4096 ∨ opBufBase x.core + (g + gran.toNat + 1) * 4096 ≤ a →
          readByte t.mem a = readByte s.mem a) ∧
        (∀ c, c ≠ rec.toNat → (s.obrec x.core c).st ≠ .free → t.obrec x.core c = s.obrec x.core c)) ∧
    (Sealed s (.mrel p orec otile) x ms m →
      ∃ t, exec (.mrel p orec otile) s = .next t ∧ t.mem = s.mem ∧
        (∀ r, orec = some r → (s.obrec x.core r.toNat).owner = x.wg / 128 ∧ (t.obrec x.core r.toNat).st = .free) ∧
        (∀ n, otile = some n → mget (t.core x.core).tiles n.toNat = none))

/-- R284: at its seal MZERO writes +0 to every column of each row in its mask; its workgroup holds the tile, and no other byte
changes. -/
def Obligations.MzeroWritesZero : Prop :=
  ∀ (s : State) (p : Pred) (tile : BitVec 2) (x : SealAt) (ms : List Mtm) (m : Mtx), Sealed s (.mzero p tile) x ms m →
    ∃ t, exec (.mzero p tile) s = .next t ∧ mget (t.core x.core).tiles tile.toNat = some (x.wg / 128) ∧
      (∀ e ∈ maskOf ms, ∀ j, j < 256 → t.acc x.core tile.toNat e.1 j = 0) ∧
      ∀ a, (∀ e ∈ maskOf ms, a < accAt x.core tile.toNat e.1 0 ∨ accAt x.core tile.toNat e.1 0 + 1024 ≤ a) →
        readByte t.mem a = readByte s.mem a

/-- R285 to R288, R290, R291: what the computing MTX instructions leave in the rows of their mask at the seal, row by row in
increasing row, and what MRED and MTOPK deliver to each row's owner.
The model's choice where the spec is silent: logs 75 and 76, of the exceptions that a product and ASCORE count. -/
def Obligations.MatrixRowOperations : Prop :=
  ∀ (s : State) (p : Pred) (a b q k : BitVec 6) (tile : BitVec 2) (col n kk : BitVec 5) (col64 : BitVec 2) (g2 fl mag : Bool)
    (op : MRedOp) (ixt : Option (BitVec 2)) (t1 t0 : Target) (x : SealAt) (ms : List Mtm) (m : Mtx),
    let c := x.core
    let u := s.setMtx c m
    let w := width n
    let c0 := 8 * col.toNat
    (Sealed s (.mma p a b tile col n) x ms m →
      exec (.mma p a b tile col n) s = products u c c (u.obrec c a.toNat) (u.obrec c b.toNat) tile.toNat c0 w ms) ∧
    (Sealed s (.mmag p a b tile col n g2) x ms m → ∀ peer,
      (u.gang (u.wg c x.wg).gang).members[(u.wg c x.wg).wgid % (if g2 then 2 else 1)]? = some peer →
      exec (.mmag p a b tile col n g2) s =
        products u c peer.core (mgetD (u.core peer.core).obrecs a.toNat {}) (u.obrec c b.toNat) tile.toNat c0 w ms) ∧
    (Sealed s (.mscale p fl tile col n) x ms m →
      exec (.mscale p fl tile col n) s = eachRowOf (u.countRows ms) ms fun row e st =>
        let fa := (e.l.extractLsb' 0 32).toNat
        let fb := (e.l.extractLsb' 32 32).toNat
        let vs := (List.range w).map (fun j =>
          let v := st.acc c tile.toNat row (c0 + j)
          if fl then
            let y := Fmt.f32.fma .rne v fa (Nat.xor fb 0x80000000)
            ((Fmt.f32.exp2 .rne y.bits).bits, y.fl.or (Fmt.f32.exp2 .rne y.bits).fl)
          else ((Fmt.f32.mul .rne v fa).bits, (Fmt.f32.mul .rne v fa).fl))
        (st.setAccRow c tile.toNat row c0 (vs.map (·.1)), vs.foldl (fun f v => f.or v.2) {})) ∧
    (Sealed s (.mred p op tile col n t1 t0) x ms m →
      exec (.mred p op tile col n t1 t0) s = eachRowOf (u.countRows ms) ms fun row e st =>
        let v := ((List.range w).map (fun j => st.acc c tile.toNat row (c0 + j))).foldl (fun (r : Nat × FFlags) v =>
          let y := match op with
            | .fadd => Fmt.f32.add .rne r.1 v
            | .fmax => Fmt.f32.maxNum r.1 v
            | .fmin => Fmt.f32.minNum r.1 v
          (y.bits, r.2.or y.fl)) (match op with | .fadd => 0x80000000 | _ => 0x7FC00000, {})
        let me := st.threadAgent c e.slot
        ((st.feedLvw me s.cur.idx 0 (BitVec.ofNat 64 v.1)).feedLvw me s.cur.idx 1 (BitVec.ofNat 64 v.1), v.2)) ∧
    (Sealed s (.msort p fl mag ixt tile col n) x ms m →
      exec (.msort p fl mag ixt tile col n) s = .next ((maskOf ms).foldl (fun (st : State) e =>
        let o := sortRow fl mag ((List.range w).map (fun j => st.acc c tile.toNat e.1 (c0 + j)))
        let v := st.setAccRow c tile.toNat e.1 c0 (o.map (·.1))
        match ixt with
        | some ix => v.setAccRow c ix.toNat e.1 c0 (o.map (·.2))
        | none => v) (u.countRows ms))) ∧
    (Sealed s (.mtopk p kk mag ixt tile col n t1 t0) x ms m →
      exec (.mtopk p kk mag ixt tile col n t1 t0) s = .next ((maskOf ms).foldl (fun (st : State) e =>
        let o := (sortRow false mag ((List.range w).map (fun j => st.acc c tile.toNat e.1 (c0 + j)))).take (kk.toNat + 1)
        let v := st.setAccRow c tile.toNat e.1 c0 (o.map (·.1))
        let y : State := match ixt with
          | some ix => v.setAccRow c ix.toNat e.1 c0 (o.map (·.2))
          | none => v
        let r : W64 := BitVec.ofNat 64 ((o.getLast?.map (·.1)).getD 0)
        let me := y.threadAgent c e.2.slot
        (y.feedLvw me s.cur.idx 0 r).feedLvw me s.cur.idx 1 r) (u.countRows ms))) ∧
    (Sealed s (.ascore p fl q k tile col64) x ms m →
      exec (.ascore p fl q k tile col64) s = eachRowOf (u.countRows ms) ms fun row e st =>
        let rq := u.obrec c q.toNat
        let rk := u.obrec c k.toNat
        let out := (List.range 64).map (fun j =>
          if u.posBad c rk fl j = true then (0x7FC00000, ({} : FFlags), ({ acc := 0 } : MSum))
          else if u.posValid c rk j = false ∨ (fl = true ∧ (e.l.extractLsb' 0 32).toNat < u.posOf c rk j) then
            (0xFF800000, ({} : FFlags), ({ acc := 0 } : MSum))
          else
            let d := matrixSum rq rk (st.orow c rq row) (u.orow c rk j) 0
            let y := Fmt.f32.mul .rne d.acc (e.l.extractLsb' 32 32).toNat
            (y.bits, y.fl, d))
        ((out.foldl (fun (v : State) o => v.countSum o.2.2) st).setAccRow c tile.toNat row (64 * col64.toNat) (out.map (·.1)),
          out.foldl (fun f o => f.or o.2.1) {}))

/-- R271, R273, R275, R281, R286, R289, R292: where the matrix forms complete. MLD, MLD.kv, MST and AMASS leave their operands with
every member at the seal and their command with the lowest; at its LSID, once the release condition of .dev holds, the command
takes the next number of its context and stands last there. A round whose members are ready seals; a seal, and the seals of a
gang, that fail no check take effect and are over. -/
def Sys2Proof.Claims.MatrixFormsComplete : Prop :=
  (∀ (s : State) (p : Pred) (src : LdSrc) (l : BitVec 5) (rec kr : BitVec 6) (w : Option (BitVec 3)) (f : StFmt) (tile : BitVec 2)
    (col n : BitVec 5) (col64 : BitVec 2) (x2 : Bool) (i : Instr),
    let c := s.cur.agent.core
    let loads : Prop := i = .mld p src l rec w ∨ i = .mldKv p l rec w
    let writes : Prop := i = .mst p f l w tile col n ∨ i = .amass p x2 l kr w tile col64
    loads ∨ writes →
    (∀ x ms m, Sealed s i x ms m → ∃ t, exec i s = .next t ∧ t.mem = s.mem ∧
      (∀ e ∈ ms, ∃ q, t.passOf (s.threadAgent x.core e.slot) = some q ∧
        mget q.ops l.toNat = some { idx := s.cur.idx, l := e.l, r := e.r }) ∧
      ∀ e, ms.head? = some e → ∃ q cmd, t.passOf (s.threadAgent x.core e.slot) = some q ∧ mget q.cmds l.toNat = some cmd ∧
        cmd.instr = i ∧ cmd.l = e.l ∧ cmd.r = e.r) ∧
    (∀ k o q cmd ctx g, AtLsid s k o → s.passOf s.cur.agent = some q → mget q.cmds k = some cmd →
      s.releaseMet s.cur.agent .dev = true → (loads ∧ ctx = ctxLoad c ∨ writes ∧ ctx = ctxWriter c) →
      s.context ctx = some g → g.issued < 2 ^ 64 - 1 →
      ∃ t cmd', exec i s = .next t ∧ t.mem = s.mem ∧
        t.context ctx = some { g with issued := g.issued + 1, queue := g.queue ++ [cmd'] } ∧
        cmd'.no = g.issued + 1 ∧ cmd'.instr = cmd.instr ∧ cmd'.l = cmd.l ∧ cmd'.r = cmd.r ∧
        ∃ o', opAt t s.cur.agent k = some o' ∧ o'.performed = true)) ∧
  (∀ (s : State) (c rk : Nat),
    let r := s.round c rk
    let x := s.inst c r.inst
    let ws := s.block x.img x.blk
    s.heldCore c = false → r.activeSet ≠ [] → r.pending = [] → x.admitting ≠ some rk → hasMtx ws = true →
    (∀ u ∈ r.activeSet, (s.gang (s.gangOf c u)).frozen = .no ∧ ∃ p, s.roundPass c rk u = some p ∧ p.two = false ∧ p.violated = false ∧
      s.outputsDone (.fab c u) ws p (s.mtxFeeds c r.activeSet ws u p) = true ∧ s.readsBack (.fab c u) ws p = true ∧
      s.mtxDecided (.fab c u) p = true ∧ lvwTwice p (lvwFeeds ws p ++ s.mtxFeeds c r.activeSet ws u p) = none) →
    ∃ t : State, exec (.roundSeal c rk) s = .next t ∧ t.mem = s.mem ∧
      (t.core c).seals = (s.core c).seals ++ [{ round := rk, members := r.activeSet }] ∧
      ∀ u ∈ r.activeSet, (t.thread c u).st = .commit ∧ ∃ q, (t.thread c u).pass = some q ∧ q.two = true) ∧
  (∀ (s : State) (c : Nat) (x : SealAt), s.sealAt c = some x → s.heldCore c = false → mmagsOf (s.sealItems x) = [] →
    s.sealFails x (fun d => s.mtx d) (s.mtx c) (s.sealItems x) = none →
    exec (.sealExecute c) s = .next (((s.sealItems x).foldl (fun (st : State) e => st.runSealItem x e) s).endSeal x (s.sealItems x))) ∧
  (∀ (s : State) (g : Nat) (xs : List SealAt) (l : List Nat),
    let ms := (s.gang g).members
    ms ≠ [] → ms.map (fun m => s.sealAt m.core) = xs.map some → (∀ e ∈ ms.zip xs, e.2.wg = e.1.base) → l ≠ [] →
    (∀ x ∈ xs, mmagsOf (s.sealItems x) = l) → (∀ m ∈ ms, s.heldCore m.core = false) →
    (∀ x ∈ xs, s.sealFails x (fun d => s.mtx d) (s.mtx x.core) (s.sealItems x) = none) →
    exec (.mmagExecute g) s = .next (xs.foldl (fun st x => st.endSeal x (s.sealItems x))
      ((List.range 128).foldl (fun st idx => xs.foldl (fun (v : State) x =>
        match (s.sealItems x).find? (fun e => e.1 = idx) with
        | some e => v.runSealItem x e
        | none => v) st) s)))

/-- R77 to R80, R290: the sums and orders of the matrix unit: a log product adds its blocks in order and an IEEE product its
chunks of four, each chunk the exact sum of its products rounded once to nearest even; a sort permutes the columns into the
order of R290. -/
def Obligations.MatrixValues : Prop :=
  (∀ (ra rb : ObRec) (a b : ORow) (v : Nat), a.bad = false → b.bad = false →
    (a.elems = [] → b.elems = [] → (matrixSum ra rb a b v).acc = v) ∧
    (∀ xs ys : List Nat, 2 ≤ ra.fmt → xs.length = recBlk ra → ys.length = recBlk ra → a.scales.length = b.scales.length →
      a.elems.length = a.scales.length * recBlk ra → b.elems.length = a.elems.length → ∀ ea eb : Int,
      (matrixSum ra rb { a with elems := xs ++ a.elems, scales := ea :: a.scales }
          { b with elems := ys ++ b.elems, scales := eb :: b.scales } v).acc =
        (matrixSum ra rb a b (Fmt.f32.add .rne v (logBlock (recLogFmt ra) (logSum (recLogFmt ra) (xs.zip ys)) ea eb).bits).bits).acc) ∧
    (∀ xs ys : List Nat, ra.fmt < 2 → xs.length = 4 → ys.length = 4 → a.elems.length = b.elems.length →
      (matrixSum ra rb { a with elems := xs ++ a.elems } { b with elems := ys ++ b.elems } v).acc =
        (matrixSum ra rb a b (Fmt.f32.add .rne v (chunkSum ((xs.zip ys).map (fun e =>
          mulExact ((recIeee ra).decode e.1) ((recIeee rb).decode e.2))))).bits).acc)) ∧
  (∀ F ∈ [Fmt.bf16, Fmt.f16], ∀ G ∈ [Fmt.bf16, Fmt.f16], ∀ es : List (Nat × Nat),
    (∀ e ∈ es, isFinite F e.1 ∧ isFinite G e.2 ∧ e.1 < 2 ^ 16 ∧ e.2 < 2 ^ 16) →
    let sum : ℚ := (es.map (fun e => value F e.1 * value G e.2)).sum
    let y := chunkSum (es.map (fun e => mulExact (F.decode e.1) (G.decode e.2)))
    (sum = 0 → isZero .f32 y) ∧
    (isFinite .f32 y → ∀ n, isFinite .f32 n → |sum - value .f32 y| ≤ |sum - value .f32 n| ∧
      (|sum - value .f32 y| = |sum - value .f32 n| → value .f32 n ≠ value .f32 y → y % 2 = 0))) ∧
  (∀ (asc mag : Bool) (vs : List Nat), (∀ v ∈ vs, v < 2 ^ 32) →
    (sortRow asc mag vs).Perm vs.zipIdx ∧ (sortRow asc mag vs).Pairwise (orderedAs asc mag))

/-- R273: a seal takes effect only where every check passes: the first instruction that fails parks every member with
MATRIX, its subcode and its index, and nothing of the seal takes effect; else the instructions execute in clause and index
order and the seal is over. -/
def Sys2Proof.Claims.SealsAreAllOrNothing : Prop :=
  ∀ (s : State) (c : Nat) (x : SealAt), s.sealAt c = some x → s.heldCore c = false → mmagsOf (s.sealItems x) = [] →
    (∀ idx sub, s.sealFails x (fun d => s.mtx d) (s.mtx c) (s.sealItems x) = some (idx, sub) →
      exec (.sealExecute c) s = .next (s.parkSeal x idx sub) ∧ 1 ≤ sub ∧ sub ≤ 6 ∧
      (∀ t, x.members = [t] → (s.thread c t).st = .commit → t ∉ (s.core c).entryWait → Keyed s c → ∃ pk, ((s.parkSeal x idx sub).thread c t).park = some pk ∧ pk.code = 0x0E ∧ pk.sub = sub ∧
        pk.idx = some idx ∧ pk.partialAt = none ∧ ((s.parkSeal x idx sub).thread c t).st = .parked)) ∧
    (s.sealFails x (fun d => s.mtx d) (s.mtx c) (s.sealItems x) = none →
      exec (.sealExecute c) s = .next (((s.sealItems x).foldl (fun (st : State) e =>
        match exec e.2.1 { st with cur := { agent := st.threadAgent c ((e.2.2.head?.map (·.slot)).getD 0), idx := e.1, phase := .seal } } with
        | .next t => t
        | _ => st) s).endSeal x (s.sealItems x)))

/-- R275, R281, R289, R292: MLD, MST and AMASS form their command at the seal and perform at their LSID: the elected member's
command enters its context once the release condition of .dev holds, any other member's operation has no effect.
The model's choice where the spec is silent: log 75, of the rounding of MST. -/
def Sys2Proof.Claims.MatrixCommands : Prop :=
  ∀ (s : State) (p : Pred) (src : LdSrc) (l : BitVec 5) (rec kr : BitVec 6) (w : Option (BitVec 3)) (f : StFmt) (tile : BitVec 2)
    (col n : BitVec 5) (col64 : BitVec 2) (x2 : Bool),
    let forms : List Instr := [.mld p src l rec w, .mldKv p l rec w, .mst p f l w tile col n, .amass p x2 l kr w tile col64]
    (∀ i ∈ forms, ∀ x e rest m, Sealed s i x (e :: rest) m → ∃ t p' cmd, exec i s = .next t ∧ t.mem = s.mem ∧
      (∀ f ∈ e :: rest, ∃ q, t.passOf (s.threadAgent x.core f.slot) = some q ∧
        mget q.ops l.toNat = some { idx := s.cur.idx, l := f.l, r := f.r }) ∧
      t.passOf (s.threadAgent x.core e.slot) = some p' ∧
      mget p'.cmds l.toNat = some cmd ∧ cmd.instr = i ∧ cmd.l = e.l ∧ cmd.r = e.r) ∧
    (∀ k o pp, AtLsid s k o → s.passOf s.cur.agent = some pp →
      let c := s.cur.agent.core
      (mget pp.cmds k = none → ∀ i ∈ forms, exec i s = .next (s.setPerformed k)) ∧
      (∀ cmd, mget pp.cmds k = some cmd →
        (s.releaseMet s.cur.agent .dev = false → ∀ i ∈ forms, exec i s = .next (s.startRelease s.cur.agent .dev k)) ∧
        (s.releaseMet s.cur.agent .dev = true →
          let enters (u : State) (ctx : Nat) (cm : Cmd) : Host.Outcome State Fault Refusal :=
            .next (((u.updPass cmd.agent (fun q => { q with cmds := mdel q.cmds k })).enqueue ctx w cm).setPerformed k)
          let r := s.obrec c rec.toNat
          exec (.mld p src l rec w) s = enters (s.setObrec c rec.toNat { r with st := .loading, pins := r.pins - 1, kv := false })
            (ctxLoad c) { cmd with todo := [.decide (2 * (cmd.l.toNat % 2 ^ 20))] } ∧
          exec (.mldKv p l rec w) s = enters (s.setObrec c rec.toNat { r with st := .loading, pins := r.pins - 1, kv := true })
            (ctxLoad c) { cmd with todo := [.decide 0] } ∧
          (∀ ob, f = .ob16 ob ∨ f = .obbf ob →
            let r := s.obrec c ob.toNat
            exec (.mst p f l w tile col n) s = enters (s.setObrec c ob.toNat { r with kv := false }) (ctxWriter c)
              { cmd with
                todo := cmd.rows.map (fun e => .fill ob.toNat (e.2.toNat % 2 ^ 20) (stored s f c tile.toNat e.1 (8 * col.toNat) (width n)))
                vals := mput cmd.vals 3 (cmd.rows.map (·.1)) }) ∧
          (f = .f32 ∨ f = .f16 ∨ f = .bf16 →
            exec (.mst p f l w tile col n) s = enters s (ctxWriter c)
              { cmd with
                todo := cmd.rows.map (fun e => .row (e.2.toNat % 2 ^ 57) (stored s f c tile.toNat e.1 (8 * col.toNat) (width n)))
                vals := mput cmd.vals 3 (cmd.rows.map (·.1)) }) ∧
          (let rk := s.obrec c kr.toNat
           let mass (j : Nat) : Nat :=
             if s.posBad c rk false j = true then cmd.rows.length * massOf 0x7FC00000
             else if s.posValid c rk j = false then 0 else
             (cmd.rows.map (fun e =>
               let d := (Fmt.f32.sub .rne (s.acc c tile.toNat e.1 (64 * col64.toNat + j)) (e.2.extractLsb' 0 32).toNat).bits
               let ex := (if x2 then Fmt.f32.exp2 .rne d else Fmt.f32.expE .rne d).bits
               massOf (Fmt.f32.div .rne ex (e.2.extractLsb' 32 32).toNat).bits)).sum
           ∃ u, u.mem = s.mem ∧ exec (.amass p x2 l kr w tile col64) s = enters u (ctxWriter c)
             { cmd with
               todo := (List.range 8).filterMap (fun a =>
                 let ops := (List.range 8).filterMap (fun b => if mass (8 * a + b) = 0 then none else some (16 * b, WordOp.addSat (mass (8 * a + b))))
                 if ops = [] then none else some (EOp.line (rk.src + 128 * a) ops))
               vals := mput cmd.vals 3 ((List.range 8).filter (fun a => (List.range 8).any (fun b => mass (8 * a + b) != 0))) }))))
namespace Sys2Proof.Claims
open Sys2Proof.Machine

/-- A command enters the queue of engine `e` of its die and takes the next number; a thread uses the entry that its
admission reserved (R36, R245, R314). -/
def entered (s : State) (k e : Nat) (w : Option (BitVec 3)) (c : Cmd) : Host.Outcome State Fault Refusal :=
  let a := s.cur.agent
  let g := s.engine a.die e
  let u := if a.slot = none then s else (s.setEngine a.die e { g with rsv := g.rsv - 1 }).useRsv a (100 + e)
  .next ((u.enqueue (engCtx a.die e) w c).setPerformed k)

/-- An entry of the queue is there for the command: reserved at a thread's admission, or free (R36, R314). -/
def hasRoom (s : State) (e cap : Nat) : Prop :=
  s.cur.agent.slot ≠ none ∨ (s.engine s.cur.agent.die e).queue.length + (s.engine s.cur.agent.die e).rsv < cap

/-- An address of the private aperture. -/
def inPrivateAperture (va : Nat) : Prop := 0x1FFF10000000000 ≤ va ∧ va < 0x1FFF20000000000

/-- A descriptor of `n` bytes within one line that can be read at its home. -/
structure Readable (s : State) (o : Op) (n align pa : Nat) : Prop where
  aligned : (o.l.setWidth 57).toNat % align = 0
  inLine : (o.l.setWidth 57).toNat % 128 + n ≤ 128
  outside : ¬ inPrivateAperture (o.l.setWidth 57).toNat
  place : s.resolve s.cur.agent s.cur.idx (o.l.setWidth 57).toNat n .read false = .ok pa
  home : s.lineOpen s.cur.agent.die (lineOf pa) = true
  clean : s.poisonAt pa n = false
  first : o.waiting = 0

/-- The levels of translation have noted the read of a descriptor, and its request is over (R353, R420). -/
def readOver (s : State) (va n : Nat) : State :=
  (s.touchAll s.cur.agent s.cur.idx [(va, n)]).endXlate s.cur.agent s.cur.idx

/-- The spillway instructions (R363). -/
def spills (p : Pred) (sc : Scope) (l : BitVec 5) (w : Option (BitVec 3)) : List Instr :=
  [.splev p sc l w, .splcmp p sc l w, .spldcy p sc l w, .rmaprd p sc l w, .rmapwr p sc l w]

/-- The codes of the engine contexts: copy, collective and spillway of a die, load pipe and writer of a core (R383). -/
def isEngine (ctx : Nat) : Prop :=
  ∃ d, d < 8 ∧ ((∃ e, e < 4 ∧ ctx = 0x1000 + 0x100 * d + e) ∨ ctx = 0x2000 + 0x100 * d ∨ ctx = 0x3000 + 0x100 * d ∨
    ∃ i, i < 16 ∧ (ctx = 0x4000 + 0x100 * d + i ∨ ctx = 0x5000 + 0x100 * d + i))

/-- The command at the head of an engine's queue runs, and no hold covers the engine. -/
structure Works (s : State) (ctx : Nat) (k : Cmd) : Prop where
  engine : isEngine ctx
  head : s.headCmd ctx = some k
  runs : k.running = true
  goes : k.stopped = false
  free : s.engHeld ctx = false

end Sys2Proof.Claims

/-- R105, R316 to R318, R320 to R322, R324, R363: in phase one every ENG instruction delivers its operation with its
operands; CPY checks the first and the last byte of its ranges, and the private aperture is no place for an engine. -/
def Sys2Proof.Claims.EngineInstructionsFire : Prop :=
  ∀ (s : State) (p : Pred) (sc : Scope) (l : BitVec 5) (w : Option (BitVec 3)) (e : BitVec 2) (k cv lq : BitVec 6) (x y q : W64),
    s.cur.phase = .one →
    (Fires s [.L] p.code x y q →
      ∀ i ∈ ([.cpyt p sc l w e, .coll p sc l w, .launch p sc l lq] : List Instr) ++ spills p sc l w,
        exec i s = .next ((took s [.L] p.code).deliverOp l.toNat { l := x, r := y })) ∧
    (Fires s [.L, .R] p.code x y q →
      exec (.tsend p sc l) s = .next ((took s [.L, .R] p.code).deliverOp l.toNat { l := x, r := y })) ∧
    (∀ c t n pp, OnFabric s c t n pp → noRequest s →
      let len := (s.consts.getD k.toNat 0).toNat
      let first (v : W64) : Nat := (v.setWidth 57).toNat
      let last (v : W64) (n : Nat) : Nat := (v.toNat + n - 1) % 2 ^ 57
      let good (i : Instr) (y : W64) : Prop := ∃ s' p', exec i s = .next s' ∧ s'.passOf (.fab c t) = some p' ∧ s'.mem = s.mem ∧
        p'.outs = pp.outs ++ [.op l.toNat { idx := s.cur.idx, l := x, r := y }]
      let reach (va : Nat) (rt : Right) : Prop := ¬ inPrivateAperture va ∧ ∃ pa, s.resolve (.fab c t) s.cur.idx va 1 rt false = .ok pa
      (Fires s [.L, .R] p.code x y q →
        (len = 0 → good (.cpy p sc l w e k) y) ∧
        (0 < len → reach (first x) .read → reach (last x len) .read → reach (first y) .write → reach (last y len) .write →
          good (.cpy p sc l w e k) y) ∧
        (0 < len → inPrivateAperture (first x) → exec (.cpy p sc l w e k) s = .next (s.raise 0x02 0 (first x))) ∧
        (0 < len → ¬ inPrivateAperture (first x) → ∀ f, s.resolve (.fab c t) s.cur.idx (first x) 1 .read false = .fault f →
          ¬ inPrivateAperture (last x len) → ¬ inPrivateAperture (first y) → ¬ inPrivateAperture (last y len) →
          exec (.cpy p sc l w e k) s = .next (s.raise f 0 (first x)))) ∧
      (Fires s [.L] p.code x y q →
        let entry := (mgetD s.culverts (s.seqOf c t * 64 + cv.toNat) {}).entry
        (0 < entry → reach (first x) .read → reach (last x entry) .read → good (.cpySend p sc l w e cv) 0) ∧
        (reach (first x) .write → reach (last x (entry + 8)) .write → good (.cpyRecv p sc l w e cv) 0)))

/-- R245, R314, R317, R318, R320 to R322, R324, R364: at its LSID, once the release condition of its scope holds, a command
enters the queue of its engine with the work it begins with; CPYT and the spillway commands read their descriptor then, and
one that cannot be read completes with FAULT; TSEND's token enters its die's queue; LAUNCH appends the 64 bytes it reads to
the launch queue.
The model's choice where the spec is silent: logs 20 and 40, and log 74, of the moment at which CPY.send has performed. -/
def Sys2Proof.Claims.EngineInstructionsPerform : Prop :=
  ∀ (s : State) (p : Pred) (sc : Scope) (l : BitVec 5) (w : Option (BitVec 3)) (e : BitVec 2) (k cv lq : BitVec 6) (j : Nat) (o : Op),
    AtLsid s j o →
    let a := s.cur.agent
    let n := (s.consts.getD k.toNat 0).toNat
    let va := (o.l.setWidth 57).toNat
    let cmd (i : Instr) : Cmd := s.newCmd i o.l o.r
    (s.releaseMet a sc = false →
      ∀ i ∈ ([.cpy p sc l w e k, .cpySend p sc l w e cv, .cpyRecv p sc l w e cv, .cpyt p sc l w e, .coll p sc l w,
        .tsend p sc l, .launch p sc l lq] : List Instr) ++ spills p sc l w, exec i s = .next (s.startRelease a sc j)) ∧
    (s.releaseMet a sc = true →
      (hasRoom s e.toNat 64 →
        exec (.cpy p sc l w e k) s = entered s j e.toNat w { cmd (.cpy p sc l w e k) with
          todo := if n = 0 then [] else readOps va n ++ [.decide 0] } ∧
        exec (.cpyRecv p sc l w e cv) s = entered s j e.toNat w { cmd (.cpyRecv p sc l w e cv) with todo := [.decide 0] } ∧
        (va % 16 ≠ 0 ∨ inPrivateAperture va → o.waiting = 0 →
          exec (.cpyt p sc l w e) s = entered s j e.toNat w { cmd (.cpyt p sc l w e) with status := 1, todo := [.decide (2 ^ 64)] }) ∧
        (∀ pa, Readable s o 32 16 pa → exec (.cpyt p sc l w e) s =
          entered (readOver s va 32) j e.toNat w { cmd (.cpyt p sc l w e) with buf := readBytes s.mem pa 32, todo := [.decide 1] })) ∧
      (a.slot ≠ none → exec (.cpySend p sc l w e cv) s =
        entered (s.useRsv a (200 + cv.toNat)) j e.toNat w { cmd (.cpySend p sc l w e cv) with
          todo := readOps va (s.culvertBytes a cv.toNat) ++ [.decide 0] }) ∧
      (hasRoom s 4 16 →
        (va % 64 ≠ 0 ∨ inPrivateAperture va →
          exec (.coll p sc l w) s = entered s j 4 w { cmd (.coll p sc l w) with status := 1, todo := [.decide (2 ^ 64)] }) ∧
        (va % 64 = 0 → ¬ inPrivateAperture va →
          exec (.coll p sc l w) s = entered s j 4 w { cmd (.coll p sc l w) with todo := readOps va 64 ++ [.decide 1] })) ∧
      (hasRoom s 5 16 → ∀ i ∈ spills p sc l w,
        (va % 64 ≠ 0 ∨ inPrivateAperture va → o.waiting = 0 →
          exec i s = entered s j 5 w { cmd i with status := 1, todo := [.decide (2 ^ 64)] }) ∧
        (∀ pa, Readable s o 64 64 pa → exec i s = entered (readOver s va 64) j 5 w { cmd i with buf := readBytes s.mem pa 64, todo := [.decide 1] })) ∧
      (a.slot ≠ none → ∃ s', exec (.tsend p sc l) s = .next s' ∧
        (s'.die a.die).taskq = (s.die a.die).taskq ++
          [{ id := (o.l.extractLsb' 0 32).toNat, slot := (o.r.extractLsb' 0 8).toNat, val := o.r.extractLsb' 32 32, err := false }] ∧
        (s'.die a.die).taskRsv = (s.die a.die).taskRsv - 1 ∧ s'.mem = s.mem) ∧
      (∀ pa, a.slot ≠ none → Readable s o 64 64 pa → (∀ x ∈ s.pushes, x.q ≠ lq.toNat) →
        (∀ x, s.lqTail lq.toNat ≤ x → x < s.lqTail lq.toNat + 64 → s.lineOpen a.die (lineOf x) = true) → s.memoryOk →
        ∃ s', exec (.launch p sc l lq) s = .next s' ∧
          s'.reg (0x1018 + 0x40 * lq.toNat) = s.reg (0x1018 + 0x40 * lq.toNat) + 1 ∧
          readBytes s'.mem (s.lqTail lq.toNat) 64 = readBytes s.mem pa 64 ∧ sameOutside s s' (s.lqTail lq.toNat) 64))

/-- R134, R245, R384: a command that enters a context takes the next number there, stands last in its queue, and the wait
slot that it names takes context and number; the counter does not pass 2^64 − 1. -/
def Sys2Proof.Claims.CommandsTakeNumbers : Prop :=
  ∀ (s : State) (ctx : Nat) (w : Option (BitVec 3)) (k : Cmd) (g : Engine), isEngine ctx → s.context ctx = some g →
    (g.issued < 2 ^ 64 - 1 →
      (s.enqueue ctx w k).context ctx = some { g with issued := g.issued + 1, queue := g.queue ++ [{ k with no := g.issued + 1 }] } ∧
      (∀ n c t, w = some n → k.agent = .fab c t →
        mget ((s.enqueue ctx w k).thread c t).wait n.toNat = some { ctx, val := g.issued + 1 })) ∧
    (2 ^ 64 - 1 ≤ g.issued → (s.enqueue ctx w k).context ctx = some { g with last := 1 })

/-- R281, R283, R315, R317, R369: the engine of a context starts its oldest command, and then does one piece of its work at
each further event: it reads a line at its home, checks or writes one, waits for its writes, counts what it has done, or stops at
a piece it cannot do, posting an engine fault and leaving its timeline.
The model's choice where the spec is silent: log 58. -/
def Sys2Proof.Claims.EnginesWorkPieceByPiece : Prop :=
  ∀ (s : State) (ctx : Nat),
    (∀ k, isEngine ctx → s.headCmd ctx = some k → k.stopped = false → s.engHeld ctx = false → k.running = false →
      ∃ t, exec (.engineCommandStart ctx) s = .next t ∧ t.headCmd ctx = some { k with running := true } ∧ t.mem = s.mem) ∧
    (∀ k op rest, Works s ctx k → k.todo = op :: rest →
      let next (m : State → Cmd → Prop) : Prop := ∃ t k', exec (.engineCommandStart ctx) s = .next t ∧ t.headCmd ctx = some k' ∧
        k'.instr = k.instr ∧ k'.no = k.no ∧ m t k'
      (∀ va n pa, op = .read va n ∨ op = .desc va n → s.engAt ctx k va n .read = .ok pa →
        next (fun t k' => k' = { k with todo := rest, buf := k.buf ++ readBytes s.mem pa n } ∧ t.mem = s.mem)) ∧
      (∀ va n pa, op = .check va n → s.engResolve ctx k va n .write = .ok pa →
        next (fun t k' => k' = { k with todo := rest } ∧ t.mem = s.mem)) ∧
      (∀ va bs pa, op = .write va bs → s.engAt ctx k va bs.length .write = .ok pa →
        next (fun t k' => k' = { k with todo := rest, pending := k.pending + 1 } ∧ t.mem = s.mem ∧
          ∃ m, mget s.msgs m = none ∧ mget t.msgs m = some (.write (.engine ctx) k.core (lineOf pa) (lineBytes pa bs)))) ∧
      (∀ va o n pa, op = .line va [(o, .addSat n)] → s.engAt ctx k (va / 128 * 128) 128 .write = .ok pa →
        (∀ f, s.engResolve ctx k (va / 128 * 128) 128 .read ≠ .fault f) → s.poisonAt pa 128 = false → s.memoryOk → o + 4 ≤ 128 →
        next (fun t k' => k'.todo = rest ∧ readLE t.mem (pa + o) 4 = min (readLE s.mem (pa + o) 4 + n) (2 ^ 32 - 1) ∧
          sameOutside s t (pa + o) 4)) ∧
      (∀ va bs ps, op = .row va bs → s.engRow ctx k (linePieces va bs.length) = .ok ps →
        next (fun t k' => k' = { k with todo := rest, pending := k.pending + ((splitLines va bs).zip ps).length } ∧ t.mem = s.mem)) ∧
      (∀ ns, op = .tally ns → next (fun t k' => k' = { k with todo := rest, report := List.zipWith (· + ·) k.report ns } ∧ t.mem = s.mem)) ∧
      (op = .drain → k.pending = 0 → next (fun t k' => k' = { k with todo := rest } ∧ t.mem = s.mem)) ∧
      (op = .drain → k.pending ≠ 0 → exec (.engineCommandStart ctx) s = .next s) ∧
      (op = .release → s.cmdReleased ctx k (cmdScope k) = true → next (fun t k' => k' = { k with todo := rest } ∧ t.mem = s.mem)) ∧
      (op = .release → s.cmdReleased ctx k (cmdScope k) = false → exec (.engineCommandStart ctx) s = .next s) ∧
      (∀ m pr sc l w e cx, op = .decide m → k.instr = .cpy pr sc l w e cx → m < 2 ^ 64 →
        next (fun t k' => k' = { k with buf := [], todo := writeOps ((k.r.setWidth 57).toNat) k.buf ++ rest } ∧ t.mem = s.mem)) ∧
      (∀ va n code, op = .read va n → s.engAt ctx k va n .read = .stop code →
        next (fun t k' => k' = { k with stopped := true } ∧ t.mem = s.mem ∧ t.timeline ctx = s.timeline ctx ∧
          ∃ r, r.toNat % 2 ^ 16 = 3 + 256 * (code % 256) ∧
            (match ctxCore ctx with
             | some c => (t.core c).evq = (s.core c).evq ++ [r] ∨ (t.core c).evHeld = (s.core c).evHeld ++ [r]
             | none => (t.die (ctxDie ctx)).evq = (s.die (ctxDie ctx)).evq ++ [r] ∨
                 (t.die (ctxDie ctx)).evHeld = (s.die (ctxDie ctx)).evHeld ++ [r]))))

/-- R245, R281, R283, R314, R315, R384: a command completes once its work is done and the release condition of its scope
holds for its writes: its entry frees, its status stays in the progress and its timeline takes its number; a stopped one goes
on by RESUME, and after ABANDON does no more and completes with FAULT once its writes are released; without a stopped command
both are ignored. -/
def Sys2Proof.Claims.CommandsComplete : Prop :=
  ∀ (s : State) (ctx : Nat) (k : Cmd) (g : Engine) (rest : List Cmd),
    isEngine ctx → s.context ctx = some g → g.queue = k :: rest → s.engHeld ctx = false →
    let advances (t : State) (st : Nat) : Prop := ∃ g', t.context ctx = some g' ∧ g'.queue = rest ∧ g'.last = st ∧
      (k.home = none → g.done = [] → k.no = g.timeline + 1 → g'.timeline = k.no)
    let named (i : Instr) : Prop := (∃ d n, i = .engResume d n ∧ n < 6 ∧ ctx = engCtx d n) ∨
      ∃ c n, i = .mtxResume c n ∧ n < 2 ∧ ctx = if n = 0 then ctxLoad c else ctxWriter c
    let abandons (i : Instr) : Prop := (∃ d n, i = .engAbandon d n ∧ n < 6 ∧ ctx = engCtx d n) ∨
      ∃ c n, i = .mtxAbandon c n ∧ n < 2 ∧ ctx = if n = 0 then ctxLoad c else ctxWriter c
    (k.running = true → k.stopped = false → k.todo = [] →
      (s.cmdReleased ctx k (cmdScope k) = true → ∃ t, exec (.engineCommandComplete ctx) s = .next t ∧ t.mem = s.mem ∧ advances t k.status) ∧
      (s.cmdReleased ctx k (cmdScope k) = false → exec (.engineCommandComplete ctx) s = .next s)) ∧
    (k.stopped = false → ∀ i, named i ∨ abandons i → exec i s = .next s) ∧
    (k.stopped = true → ∀ i, named i → ∃ t, exec i s = .next t ∧ t.headCmd ctx = some { k with stopped := false } ∧ t.mem = s.mem) ∧
    (k.stopped = true → ∀ i, abandons i →
      (∃ p sc l w e n, k.instr = .cpy p sc l w e n) ∨ (∃ p sc l w e, k.instr = .cpyt p sc l w e) ∨
        (∃ p sc l w, k.instr = .coll p sc l w) ∨ (∃ p src l r w, k.instr = .mld p src l r w) →
      ∃ t, exec i s = .next t ∧ t.mem = s.mem ∧
        (s.cmdReleased ctx k (cmdScope k) = true → advances t 1) ∧
        (s.cmdReleased ctx k (cmdScope k) = false →
          t.headCmd ctx = some { k with stopped := false, running := true, status := 1, todo := [], buf := [] }))

/-- R13, R321: once every die that a participant names has joined with an equal descriptor and circuits join them, the results are on their way to every
destination: a reduction in die order, the root's data, or the sources one after another.
The model's choice where the spec is silent: log 41. -/
def Sys2Proof.Claims.CollectivesMatch : Prop :=
  (∀ (s : State) (group seq : Nat) (ds : List Nat) (cmds : Nat → Cmd) (op root mask count : Nat) (src dst : Nat → Nat),
    ds ≠ [] → ds.Pairwise (· < ·) → (∀ d, d < 8 → (d ∈ ds ↔ mask / 2 ^ d % 2 = 1)) → (∀ d ∈ ds, d < 8) →
    (∀ d ∈ ds, s.headCmd (0x2000 + 0x100 * d) = some (cmds d) ∧ (cmds d).todo = [.decide 2] ∧ (cmds d).stopped = false ∧
      mgetD (cmds d).vals 2 [] = [op, root, mask, group, seq, count, src d, dst d] ∧ s.heldDie d = false ∧
      ∃ g, s.context (0x2000 + 0x100 * d) = some g ∧ g.queue = [cmds d]) →
    (∀ d, d < 8 → d ∉ ds → s.headCmd (0x2000 + 0x100 * d) = none) → (∀ d ∈ ds, ∀ e ∈ ds, s.linked d e = true) →
    ∃ t, exec (.collectiveMatch group seq) s = .next t ∧ t.mem = s.mem ∧
      ∀ d ∈ ds, ∀ data, data = collResult op count ((ds.filter (fun e => op ≠ 4 ∨ e = root)).map (fun e => (cmds e).buf)) →
        t.headCmd (0x2000 + 0x100 * d) = some { cmds d with buf := [], todo := writeOps (dst d) data }) ∧
  (∀ (n : Nat) (srcs : List (List Byte)) (i : Nat), i < n →
    leNat (((collResult 2 n srcs).drop (4 * i)).take 4) = (srcs.map (fun b => leNat ((b.drop (4 * i)).take 4))).sum % 2 ^ 32) ∧
  (∀ (n : Nat) (srcs : List (List Byte)), collResult 5 n srcs = srcs.flatten)

/-- R249, R365, R367, R369: SPLCMP's switch writes the new view address where the record's version is the kept one, and ends
in CONFLICT where it is not; the spillway moves the record of a retire ring that holds one, where its grace value is not above
the grace timeline, into the free-page ring, and leaves any other. -/
def Sys2Proof.Claims.SpillwaySwitchAndRetire : Prop :=
  (∀ (s : State) (d : Nat) (k : Cmd) (rest : List EOp) (pa : Nat), d < 8 → s.headCmd (0x3000 + 0x100 * d) = some k →
    k.todo = .decide 30 :: rest → k.stopped = false → s.heldDie d = false → s.memoryOk →
    s.engAt (0x3000 + 0x100 * d) k (recVa k) 32 .write = .ok pa → s.engAt (0x3000 + 0x100 * d) k (recVa k) 32 .read = .ok pa → regionOf pa = .dev (pa / 2 ^ 37) →
    ∃ t k', exec (.splcmpSwitch d) s = .next t ∧ t.headCmd (0x3000 + 0x100 * d) = some k' ∧
      ((s.sideOf (pa / 128)).ver = (mgetD k.vals 1 []).getD 0 0 →
        readLE t.mem pa 8 = (blockOf k).getD 3 0 % 2 ^ 64 ∧ sameOutside s t pa 8 ∧
        (t.sideOf (pa / 128)).ver = ((s.sideOf (pa / 128)).ver + 1) % 2 ^ 56 ∧ k'.report = k.report ∧
        k'.todo = .tally [0, 0, (tokensOf k).length, 0] :: .decide 31 :: rest) ∧
      ((s.sideOf (pa / 128)).ver ≠ (mgetD k.vals 1 []).getD 0 0 →
        t.mem = s.mem ∧ k'.status = 3 ∧ k'.todo = .decide 40 :: rest ∧ k'.report = k.report)) ∧
  (∀ (s : State) (d n tenant va pa ra fa : Nat), (s.die d).pools[n]? = some (tenant, va) → s.heldDie d = false →
    s.poolAt d tenant va 128 .read = .ok pa → s.poolAt d tenant va 128 .write = .ok pa → s.memoryOk →
    (∀ e ∈ (s.die d).tlb, ∀ f ∈ (s.die d).tlb, ∀ v, e.covers tenant v = true → f.covers tenant v = true → e = f) →
    let x := poolOf (readBytes s.mem pa 128)
    x.retN ≠ 0 → x.freeN ≠ 0 → x.retPushed = x.retired + 1 →
    s.poolAt d tenant ((x.retRing + 16 * (x.retired % x.retN)) % 2 ^ 57) 16 .read = .ok ra →
    s.poolAt d tenant ((x.freeRing + 4 * (x.pushed % x.freeN)) % 2 ^ 57) 4 .write = .ok fa →
    (fa + 4 ≤ pa ∨ pa + 128 ≤ fa) →
    (s.timeline x.grace < readLE s.mem (ra + 8) 8 → exec (.spillwayRetire d n) s = .next s) ∧
    (readLE s.mem (ra + 8) 8 ≤ s.timeline x.grace → ∃ t, exec (.spillwayRetire d n) s = .next t ∧
      readLE t.mem fa 4 = readLE s.mem ra 4 ∧ readLE t.mem (pa + 0x28) 8 = (x.pushed + 1) % 2 ^ 64 ∧
      readLE t.mem (pa + 0x58) 8 = (x.retired + 1) % 2 ^ 64))
namespace Sys2Proof.Claims
open Sys2Proof.Machine

/-- A record with its fields in the frame of R405. -/
def recordOf (ty code sub tenant core slot seq a clk b : Nat) : Rec :=
  BitVec.ofNat 64 b ++ BitVec.ofNat 64 clk ++ BitVec.ofNat 32 a ++ BitVec.ofNat 32 seq ++ BitVec.ofNat 16 slot ++
    BitVec.ofNat 16 core ++ BitVec.ofNat 8 (tenant % 64) ++ BitVec.ofNat 8 sub ++ BitVec.ofNat 8 code ++ BitVec.ofNat 8 ty

/-- A thread of the executing agent that may park: in its pass, waiting for no scheduler entry. -/
structure MayPark (s : State) (a : Agent) (c t : Nat) : Prop where
  agent : a = .fab c t ∨ a = .rare c t
  state : (s.thread c t).st = .admitted ∨ (s.thread c t).st = .commit ∨ (s.thread c t).st = .rare
  entry : t ∉ (s.core c).entryWait
  inPass : (s.thread c t).pass ≠ none
  keyed : Keyed s c

/-- The pass of a thread is in phase one. -/
def inPhaseOne (s : State) (c t : Nat) : Prop := ∀ p, (s.thread c t).pass = some p → p.two = false

/-- What a park leaves of a thread besides its state, its record and its pass. -/
def keepsThread (x y : Thread) : Prop :=
  y.regs = x.regs ∧ y.poison = x.poison ∧ y.wait = x.wait ∧ y.blk = x.blk ∧ y.sp = x.sp ∧ y.spos = x.spos ∧
    y.watch = x.watch ∧ y.arrivals = x.arrivals ∧ y.horizon = x.horizon

end Sys2Proof.Claims

namespace Sys2Proof.Claims
open Sys2Proof.Machine

/-- The privileged instructions with their inputs (R92, R399, R410 to R413, R417, R418, R422, R423, R358). -/
def privileged (p : Pred) (n : BitVec 4) (wd : Bool) (g : Gran) (t1 t0 : Target) : List (Instr × List Field) :=
  [(.pmcfg p n, [.L, .R]), (.evqpop p t1 t0, []), (.evqput p, [.L]), (.taskrel p t1 t0, [.L]), (.cfgput p t1 t0, [.L, .R]),
   (.cfgcrcCheck p t1 t0, [.L, .R]), (.cfgcrcDiscard p t1 t0, [.L, .R]), (.cfgcrcAct p t1 t0, [.L, .R]),
   (.sigchk p t1 t0, [.L, .R]), (.miold p wd t0, [.L]), (.miost p wd, [.L, .R]), (.tlbinv p g t1 t0, [.L, .R]),
   (.freeze p, [.L]), (.drain p, [.L]), (.halt p, [])]

/-- Bits [hi:lo] of an operand. -/
def fieldOf (x : W64) (hi lo : Nat) : Nat := x.toNat / 2 ^ lo % 2 ^ (hi + 1 - lo)

/-- The sources of a core monitor and of a die monitor (R398). -/
def listed (a : Agent) (src : Nat) : Prop :=
  match a with
  | .sup _ => src = 0 ∨ 0x101 ≤ src ∧ src ≤ 0x10D
  | _ => src ≤ 0x00D ∨ 0x010 ≤ src ∧ src ≤ 0x014 ∨ 0x018 ≤ src ∧ src ≤ 0x01B ∨ 0x020 ≤ src ∧ src ≤ 0x024

/-- Registers by their address in the block of the executing program: its core's, or its die's (R148). -/
def blockReg (a : Agent) (o : Nat) : Nat :=
  match a with
  | .sup d => dsReg d o
  | _ => kcReg a.core o

/-- The event queue a program serves, with the records held by their sources (R325, R410). -/
def queueOf (s : State) (a : Agent) : List Rec × List Rec :=
  match a with
  | .sup d => ((s.die d).evq, (s.die d).evHeld)
  | _ => ((s.core a.core).evq, (s.core a.core).evHeld)

/-- The bytes of a physical range of one line that a PRIV program may read (R451). -/
def physical (s : State) (x : W64) (n pa : Nat) : Prop :=
  pa = x.toNat % 2 ^ 57 ∧ pa % 128 + n ≤ 128 ∧ 0 < n ∧ pa < scratchVa ∧ inRegion pa n = true ∧
    s.lineOpen s.cur.agent.die (lineOf pa) = true ∧ s.poisonAt pa n = false

end Sys2Proof.Claims

/-- R180, R379, R400, R408: TRAP, BRK and a failing ASSERT park with their subcode; CLKRD delivers the die clock; PMRD
delivers a count, 0 to a thread whose tenant the monitor does not name; KSET sends its value to the sink and performs into
the slot of its gang, of every member core at once. -/
def Obligations.SystemInstructions : Prop :=
  ∀ (s : State) (p : Pred) (n : BitVec 5) (m : BitVec 4) (l : BitVec 5) (t1 t0 : Target) (x y q : W64),
    let a := s.cur.agent
    (Fires s [] p.code x y q →
      exec (.trap p n) s = .next ((took s [] p.code).raise 0x0F n.toNat) ∧
      exec (.brk p n) s = .next ((took s [] p.code).raise 0x10 n.toNat) ∧
      exec (.clkrd p t1 t0) s = sends s [] p.code t0 t1 (BitVec.ofNat 64 (s.die a.die).clk) ∧
      (let sel := s.reg (blockReg a (0x500 + 16 * m.toNat))
       let mine : Prop := a.slot = none ∨ (sel / 2 ^ 17 % 2 = 1 ∧ sel / 2 ^ 18 % 64 = s.tenantOf a)
       (mine → exec (.pmrd p m t1 t0) s =
         sends s [] p.code t0 t1 (BitVec.ofNat 64 (s.reg (blockReg a (0x508 + 16 * m.toNat)) % 2 ^ 48))) ∧
       (¬ mine → exec (.pmrd p m t1 t0) s = sends s [] p.code t0 t1 0))) ∧
    (Fires s [.L] p.code x y q →
      (x.getLsbD 0 = true → exec (.assert p n) s = .next (took s [.L] p.code)) ∧
      (x.getLsbD 0 = false → exec (.assert p n) s = .next ((took s [.L] p.code).raise 0x11 n.toNat)) ∧
      (s.cur.phase = .one → a.slot ≠ none →
        exec (.kset p n l) s = .next ((took s [.L] p.code).deliverOp l.toNat { l := x })) ∧
      (s.cur.phase = .one → a.slot = none → exec (.kset p n l) s = .next ((took s [.L] p.code).raise 0x02))) ∧
    (∀ k o t, AtLsid s k o → a.slot = some t → ∃ u : State, exec (.kset p n l) s = .next u ∧
      u.mem = s.mem ∧ (opAt u a k).map (·.performed) = some true ∧
      mgetD (u.gang (s.gangOf a.core t)).args n.toNat 0 = o.l ∧
      (∀ j, j ≠ n.toNat → mgetD (u.gang (s.gangOf a.core t)).args j 0 = mgetD (s.gang (s.gangOf a.core t)).args j 0) ∧
      ∀ g, g ≠ s.gangOf a.core t → u.gang g = s.gang g)

/-- R409: a privileged instruction (SYS 0x40 to 0x4C) of a thread, on the fabric or in a rare pass, parks the thread with PRIV in
phase one and has no other effect: no byte, version, message, launch or task changes, and the thread keeps its registers.
The model's choice where the spec is silent: log 53. -/
def Obligations.PrivilegedInstructionsPark : Prop :=
  ∀ (s : State) (i : Instr) (f : Fields) (x y q : W64) (c t : Nat), encodeFields i = some f → f.cls = .sys → 0x40 ≤ f.op → f.op ≤ 0x4C →
    MayPark s s.cur.agent c t → noRequest s → Fires s (inputsOf i) (prOf i) x y q →
      ∃ u pk, exec i s = .next u ∧ (u.thread c t).st = .parked ∧ (u.thread c t).park = some pk ∧ pk.code = 0x07 ∧ pk.sub = 0 ∧
        pk.idx = some s.cur.idx ∧ pk.partialAt = none ∧ pk.phase = 1 ∧ (u.thread c t).pass = none ∧
        keepsThread (s.thread c t) (u.thread c t) ∧ u.mem = s.mem ∧ u.side = s.side ∧ u.msgs = s.msgs ∧ u.invals = s.invals ∧
        u.launches = s.launches ∧ u.tasks = s.tasks ∧ u.images = s.images

/-- R397 to R399, R410, R411, R412: PMCFG sets a monitor; EVQPOP takes the oldest record that is not of type XPATH into the
mailbox and lets a held record in; EVQPUT posts a software record to its die; TASKREL releases or cancels a task entry.
The model's choice where the spec is silent: log 53. -/
def Sys2Proof.Claims.MonitorQueueAndTaskInstructions : Prop :=
  ∀ (s : State) (p : Pred) (n : BitVec 4) (t1 t0 : Target) (x y q : W64),
    let a := s.cur.agent
    ((∃ c, a = .ctl c) ∨ ∃ d, a = .sup d) →
    (Fires s [.L, .R] p.code x y q →
      let o := blockReg a (0x500 + 16 * n.toNat)
      let src := x.toNat % 1024
      let en := y.toNat % 2
      let rest := 2 ^ 17 * (y.toNat / 4 % 2) + 2 ^ 18 * (y.toNat / 8 % 64)
      ∃ u : State, exec (.pmcfg p n) s = .next u ∧ u.mem = s.mem ∧
        (listed a src → u.reg o = src + 2 ^ 16 * en + rest) ∧
        (¬ listed a src → u.reg o = rest) ∧
        (y.getLsbD 1 = true → u.reg (o + 8) % 2 ^ 48 = 0) ∧
        (y.getLsbD 1 = false → u.reg (o + 8) = (took s [.L, .R] p.code).reg (o + 8))) ∧
    (Fires s [] p.code x y q →
      ((∀ r ∈ (queueOf s a).1, r.setWidth 8 = 1) → exec (.evqpop p t1 t0) s = sends2 s [] p.code t0 t1 0 0) ∧
      (∀ xs r ys, (queueOf s a).1 = xs ++ r :: ys → (∀ e ∈ xs, e.setWidth 8 = 1) → r.setWidth 8 ≠ 1 →
        ∃ u : State, exec (.evqpop p t1 t0) s = .next (u.emit t0 t1 (r.setWidth 64) 1) ∧ u.mem = s.mem ∧
          (∀ i, i < 4 → u.reg (blockReg a (0x460 + 8 * i)) = (r.extractLsb' (64 * i) 64).toNat) ∧
          (∀ h hs, (queueOf s a).2 = h :: hs → (xs ++ ys).length < 256 → queueOf u a = (xs ++ ys ++ [h], hs)) ∧
          ((queueOf s a).2 = [] → queueOf u a = (xs ++ ys, [])))) ∧
    (Fires s [.L] p.code x y q →
      let va := x.toNat % 2 ^ 57
      (x.toNat % 32 ≠ 0 → exec (.evqput p) s = .next (s.raise 0x01 0 va)) ∧
      (∀ pa r, x.toNat % 32 = 0 → physical s x 32 pa →
        r = BitVec.ofNat 256 (readLE s.mem pa 32 / 256 * 256 + 0x80 + readLE s.mem pa 1 % 128) →
        exec (.evqput p) s = .next ((took s [.L] p.code).postDie a.die r)) ∧
      (2 ^ 33 ≤ x.toNat → exec (.taskrel p t1 t0) s = .next (s.raise 0x02)) ∧
      (x.toNat < 2 ^ 33 →
        let id := x.toNat % 2 ^ 32
        (∀ i e, s.taskAt id = some i → mget s.tasks i = some e → e.2.desc = none →
          ∃ u : State, exec (.taskrel p t1 t0) s = .next (u.emit t0 t1 1 1) ∧ u.mem = s.mem ∧
            (x.toNat < 2 ^ 32 → mget u.tasks i = some (id, { e.2 with
              filled := 255, values := (List.range 8).map (fun j => if e.2.filled / 2 ^ j % 2 = 1 then e.2.values.getD j 0 else 0) })) ∧
            (2 ^ 32 ≤ x.toNat → mget u.tasks i = none)) ∧
        (s.taskAt id = none →
          (2 ^ 32 ≤ x.toNat → exec (.taskrel p t1 t0) s = sends2 s [.L] p.code t0 t1 0 0) ∧
          (x.toNat < 2 ^ 32 → ∃ u : State, exec (.taskrel p t1 t0) s = .next (u.emit t0 t1 0 0) ∧ u.mem = s.mem ∧
            (∀ i, s.freeTask = some i → mget u.tasks i = some (id, { filled := 255 })) ∧
            (s.freeTask = none → u.tasks = s.tasks ∧
              (u.die a.die).taskq = (s.die a.die).taskq ++ [{ id, slot := 0, val := 0, err := false, release := true }])))))

/-- R90, R421 to R423, R438: CFGPUT appends words to a staging area and runs its CRC, or writes nothing; CFGCRC checks an area
and places its stations under the relocation word, discards one, or makes the areas of a slot its configuration in place of
the one before; SIGCHK reads the header, and the image where the header passes, and delivers the reason.
The model's choice where the spec is silent: log 87. -/
def Sys2Proof.Claims.ConfigurationInstructions : Prop :=
  ∀ (s : State) (p : Pred) (t1 t0 : Target) (x y q : W64) (c : Nat), s.cur.agent = .ctl c → Fires s [.L, .R] p.code x y q →
    let col := fieldOf y 3 0
    let row := fieldOf y 7 4
    let slot := fieldOf y 10 8
    let n := fieldOf y 18 11
    let key := (row * 16 + col) * 8 + slot
    let area (s : State) (k : Nat) : Staging := mgetD (s.core c).staging k {}
    let others (u : State) : Prop := u.mem = s.mem ∧ ∀ k, k ≠ key → area u k = area s k
    let refused : Prop := n = 0 ∨ 128 < n ∨ (area s key).st ∈ [.checked, .rejected] ∨ (mget (s.core c).insts slot).isSome = true ∨
      9 < row ∨ mget s.fuses c = some (col, row) ∨ (c % 16 = 0 ∧ 12 ≤ col ∧ (row = 7 ∨ row = 8)) ∨ 128 < (area s key).words.length + n
    (2 ^ 19 ≤ y.toNat → exec (.cfgput p t1 t0) s = .next (s.raise 0x02)) ∧
    (y.toNat < 2 ^ 19 → x.toNat % 4 ≠ 0 → exec (.cfgput p t1 t0) s = .next (s.raise 0x01 0 (x.toNat % 2 ^ 57))) ∧
    (y.toNat < 2 ^ 19 → x.toNat % 4 = 0 → refused → exec (.cfgput p t1 t0) s = sends s [.L, .R] p.code t0 t1 0) ∧
    (∀ pa, y.toNat < 2 ^ 19 → x.toNat % 4 = 0 → ¬ refused → physical s x (4 * n) pa →
      ∃ u : State, exec (.cfgput p t1 t0) s = .next (u.emit t0 t1 (BitVec.ofNat 64 n) (BitVec.ofNat 64 n)) ∧ others u ∧
        area u key = { area s key with
          words := (area s key).words ++ (List.range n).map (fun i => BitVec.ofNat 32 (readLE s.mem (pa + 4 * i) 4))
          st := .receiving
          crc := BitVec.ofNat 32 (crcRun (area s key).crc.toNat (readBytes s.mem pa (4 * n))) }) ∧
    (2 ^ 11 ≤ y.toNat → ∀ i ∈ [(.cfgcrcCheck p t1 t0 : Instr), .cfgcrcDiscard p t1 t0, .cfgcrcAct p t1 t0],
      exec i s = .next ((took s [.L, .R] p.code).raise 0x02)) ∧
    (y.toNat < 2 ^ 11 →
      let good := (area s key).crc ^^^ 0xFFFFFFFF = x.setWidth 32
      ((area s key).st ≠ .receiving → exec (.cfgcrcCheck p t1 t0) s = sends s [.L, .R] p.code t0 t1 0) ∧
      ((area s key).st = .receiving → good → ∃ u : State, exec (.cfgcrcCheck p t1 t0) s = .next (u.emit t0 t1 1 1) ∧ others u ∧
        ∃ pl, area u key = { area s key with st := .checked, reloc := fieldOf x 63 32, placed := pl } ∧
          ∀ w e, (area s key).words = [w, e] → entryOn col row e.toNat = true → onEdge e.toNat = false →
            routed e.toNat 0 = false → routed e.toNat 1 = false →
            let at_ := x.toNat / 2 ^ 32 % 16 + e.toNat / 2 ^ 27 % 16
            pl = [{ word := w, ext := none, row := x.toNat / 2 ^ 36 % 16 + e.toNat / 2 ^ 24 % 8, routes := [none, none],
                    station := e.toNat / 2 ^ 20 % 16,
                    col := if x.getLsbD 44 = true ∧ x.toNat / 2 ^ 40 % 16 ≤ at_ then at_ + 1 else at_ }]) ∧
      ((area s key).st = .receiving → ¬ good → ∃ (u : State) (r : Rec), exec (.cfgcrcCheck p t1 t0) s = .next (u.emit t0 t1 0 0) ∧
        others u ∧ area u key = { area s key with st := .rejected } ∧ r.toNat % 256 = 7 ∧
        r.toNat / 2 ^ 96 % 2 ^ 32 = y.toNat ∧ queueOf u (.ctl c) = (if (s.core c).evq.length < 256 ∧ (s.core c).evHeld = []
          then ((s.core c).evq ++ [r], (s.core c).evHeld) else ((s.core c).evq, (s.core c).evHeld ++ [r]))) ∧
      (∃ u : State, exec (.cfgcrcDiscard p t1 t0) s = .next (u.emit t0 t1 1 1) ∧ others u ∧ area u key = {}) ∧
      (let active (e : Nat × Staging) : Prop := e.1 % 8 = slot
       let ok : Prop := (∀ e ∈ (s.core c).staging, active e → e.2.st ≠ .receiving ∧ e.2.st ≠ .rejected) ∧
         ∃ e ∈ (s.core c).staging, active e ∧ e.2.st = .checked
       (¬ ok → exec (.cfgcrcAct p t1 t0) s = sends s [.L, .R] p.code t0 t1 0) ∧
       (ok → ∃ u : State, exec (.cfgcrcAct p t1 t0) s = .next (u.emit t0 t1 1 1) ∧ u.mem = s.mem ∧
         (∀ k, k % 8 = slot → area u k = {}) ∧ (∀ k, k % 8 ≠ slot → area u k = area s k ∧
           mget (u.core c).active k = mget (s.core c).active k) ∧
         (∀ k, k % 8 = slot → (∀ e ∈ (s.core c).staging, e.1 ≠ k) → mget (u.core c).active k = none) ∧
         ((s.core c).staging.Pairwise (fun e f => e.1 ≠ f.1) → ∀ e ∈ (s.core c).staging, active e → e.2.st = .checked →
           mget (u.core c).active e.1 = some e.2)))) ∧
    (x.toNat % 16 ≠ 0 → exec (.sigchk p t1 t0) s = .next (s.raise 0x01 0 (x.toNat % 2 ^ 57))) ∧
    (x.toNat % 16 = 0 →
      let need := y.getLsbD 0
      ∀ h, s.ctlRead x 256 = .ok h →
        (∀ r, headerReason s.keys h need = some r →
          exec (.sigchk p t1 t0) s = sends s [.L, .R] p.code t0 t1 (BitVec.ofNat 64 r.code)) ∧
        (∀ img, headerReason s.keys h need = none → s.ctlRead x (headerOf h).len = .ok img →
          let good : Prop := (headerOf img).digest = imageDigest img ∧
            ∃ k, mget s.keys (headerOf img).key = some k ∧ ecdsaOk k (imageDigest img) (headerOf img).r (headerOf img).s = true
          (headerReason s.keys img need = none → good → exec (.sigchk p t1 t0) s = sends s [.L, .R] p.code t0 t1 0) ∧
          (headerReason s.keys img need = none → ¬ good →
            exec (.sigchk p t1 t0) s = sends s [.L, .R] p.code t0 t1 (BitVec.ofNat 64 Reason.sigfail.code))))

/-- R13, R358, R413, R417, R418: MIOLD and MIOST act on a register of BAR 0 once a circuit reaches its die; TLBINV drops every entry of its tenant that overlaps
the range and completes later; FREEZE sets or clears a hold bit; DRAIN acts as a write of KC_FREEZE or KC_GANG_CTL, and waits
for the pre-emption of its own core; HALT stops its program.
The model's choice where the spec is silent: log 38. -/
def Sys2Proof.Claims.RegisterAndFreezeInstructions : Prop :=
  ∀ (s : State) (p : Pred) (wd : Bool) (g : Gran) (t1 t0 : Target) (x y q : W64),
    let a := s.cur.agent
    let n := if wd then 8 else 4
    ((∃ c, a = .ctl c) ∨ ∃ d, a = .sup d) →
    (Fires s [.L] p.code x y q →
      let u := took s [.L] p.code
      (2 ^ 26 ≤ x.toNat → exec (.miold p wd t0) s = .next (u.raise 0x02 0 x.toNat)) ∧
      (x.toNat < 2 ^ 26 → x.toNat % n ≠ 0 → exec (.miold p wd t0) s = .next (u.raise 0x01 0 x.toNat)) ∧
      (x.toNat < 2 ^ 26 → x.toNat % n = 0 → s.regReached a.die x.toNat = false → exec (.miold p wd t0) s = .next s) ∧
      (x.toNat < 2 ^ 26 → x.toNat % n = 0 → s.regReached a.die x.toNat = true → exec (.miold p wd t0) s =
        .next (u.emit t0 .none (BitVec.ofNat 64 (u.regValue (x.toNat / 8 * 8) / 2 ^ (8 * (x.toNat % 8)) % 2 ^ (8 * n))) 0)) ∧
      (2 ^ 9 ≤ x.toNat ∨ (x.getLsbD 7 = true ∧ 8 ≤ x.toNat % 128) → exec (.freeze p) s = .next (u.raise 0x02)) ∧
      (x.toNat < 2 ^ 9 → x.getLsbD 7 = true → x.toNat % 128 < 8 → ∃ t : State, exec (.freeze p) s = .next t ∧ t.mem = s.mem ∧
        ∀ j, j < 8 → (t.reg 0x20).testBit j = if j = x.toNat % 8 then !x.getLsbD 8 else (s.reg 0x20).testBit j) ∧
      (x.toNat < 2 ^ 9 → x.getLsbD 7 = false → ∃ t : State, exec (.freeze p) s = .next t ∧ t.mem = s.mem ∧
        ∀ j, j < 16 → (t.reg (dsReg (x.toNat % 128 / 16) 0x10)).testBit j =
          if j = x.toNat % 16 then !x.getLsbD 8 else (s.reg (dsReg (x.toNat % 128 / 16) 0x10)).testBit j) ∧
      (2 ^ 10 ≤ x.toNat ∨ x.getLsbD 7 = true → exec (.drain p) s = .next (s.raise 0x02)) ∧
      (x.toNat < 2 ^ 10 → x.getLsbD 7 = false →
        let c := x.toNat % 128
        let acts (i : Instr) : Prop := ∃ t, exec i s = .next t ∧ exec (.drain p) s = .next (took t [.L] p.code)
        (x.toNat / 256 = 2 → acts (.gangThaw c)) ∧
        (x.toNat / 256 = 3 → acts (.gangKill c)) ∧
        (a ≠ .ctl c → (∀ pp, s.passOf a = some pp → mget pp.got (2 * s.cur.idx) = none) →
          (x.toNat / 256 = 0 → acts (.freezeSquash c)) ∧ (x.toNat / 256 = 1 → acts (.freezeDrain c))) ∧
        (∀ t pp, a = .ctl c → s.passOf a = some pp → mget pp.got (2 * s.cur.idx) = none →
          (x.toNat / 256 = 0 ∧ exec (.freezeSquash c) s = .next t ∨ x.toNat / 256 = 1 ∧ exec (.freezeDrain c) s = .next t) →
          (t.reg (kcReg c 0x10) % 2 = 0 ∨ t.reg (kcReg c 0x10) / 8 % 2 = 1 → exec (.drain p) s = .next (took t [.L] p.code)) ∧
          (t.reg (kcReg c 0x10) % 2 = 1 → t.reg (kcReg c 0x10) / 8 % 2 = 0 →
            ∃ v pv, exec (.drain p) s = .next v ∧ v.passOf a = some pv ∧ pv.opnd = pp.opnd ∧ pv.fired = pp.fired)))) ∧
    (Fires s [.L, .R] p.code x y q →
      let u := took s [.L, .R] p.code
      (2 ^ 26 ≤ x.toNat → exec (.miost p wd) s = .next (u.raise 0x02 0 x.toNat)) ∧
      (x.toNat < 2 ^ 26 → x.toNat % n ≠ 0 → exec (.miost p wd) s = .next (u.raise 0x01 0 x.toNat)) ∧
      (x.toNat < 2 ^ 26 → x.toNat % n = 0 → s.regLinked a.die x.toNat = false → exec (.miost p wd) s = .next s) ∧
      (x.toNat < 2 ^ 26 → x.toNat % n = 0 → s.regLinked a.die x.toNat = true →
        exec (.miost p wd) s = .next (u.regWrite x.toNat n y.toNat)) ∧
      (x.toNat < 2 ^ 26 → x.toNat % n = 0 → u.regLinked 0 x.toNat = true →
        exec (.registerWrite x.toNat n y.toNat) u = .next { u.regWrite x.toNat n y.toNat with hostAbort := false }) ∧
      (y = 0 → exec (.tlbinv p g t1 t0) s = sends s [.L, .R] p.code t0 t1 1) ∧
      (y ≠ 0 →
        let lg := match g with | .g64k => 16 | .g2m => 21 | .g512m => 29 | .g32g => 35
        let tenant := fieldOf x 62 57
        let lo := x.toNat % 2 ^ 57 / 2 ^ lg * 2 ^ lg
        let hi := min ((x.toNat % 2 ^ 57 + y.toNat + 2 ^ lg - 1) / 2 ^ lg * 2 ^ lg) (2 ^ 57)
        let clear (e : TlbEntry) : Prop := e.tenant ≠ tenant ∨ hi ≤ e.va ∨ e.va + 2 ^ e.lg ≤ lo
        ∃ t : State, exec (.tlbinv p g t1 t0) s = .next t ∧ t.mem = s.mem ∧
          (∀ d, ∀ e ∈ (t.die d).tlb, clear e) ∧ (∀ c, ∀ e ∈ (t.core c).tlb, clear e) ∧
          (∀ c, ∀ m ∈ (t.core c).microTlb, ∀ e ∈ m.2, clear e) ∧
          (∃ k, mget s.invals k = none ∧ mget t.invals k = some { agent := a, idx := s.cur.idx, tenant, lo, hi }))) ∧
    (Fires s [] p.code x y q → exec (.halt p) s = .next ((took s [] p.code).halt a 0 0))
namespace Sys2Proof.Claims
open Sys2Proof.Machine

/-- The event queue of a core or a die, or the records held for it, hold a record. -/
def posted (s : State) (a : Agent) (r : Rec) : Prop := r ∈ (queueOf s a).1 ∨ r ∈ (queueOf s a).2

end Sys2Proof.Claims

/-- R46, R271, R402, R405, R406: a precise fault in phase one parks its thread without partial commit: its record holds code,
subcode, block, instruction, phase 1, launch, address and clock; its pass is discarded and nothing of it has performed; a
PARK record is posted to its core. No such fault discards a pass whose phase one is complete. -/
def Sys2Proof.Claims.FaultsInPhaseOnePark : Prop :=
  ∀ (s : State) (c t code sub addr : Nat) (p : Pass), MayPark s s.cur.agent c t → (s.thread c t).pass = some p → code < 256 → sub < 256 →
    let u := s.raise code sub addr
    (p.two = true → u = s) ∧
    (p.two = false →
    let k : Park := { code, sub, partialAt := none, blk := (s.thread c t).blk, idx := some s.cur.idx, phase := 1,
                      seq := s.seqOf c t % 2 ^ 32, addr := addr % 2 ^ 64, clock := (s.die (c / 16)).clk }
    (u.thread c t).st = .parked ∧ (u.thread c t).park = some k ∧ (u.thread c t).pass = none ∧ (u.thread c t).skip = none ∧
    keepsThread (s.thread c t) (u.thread c t) ∧ u.mem = s.mem ∧ u.side = s.side ∧ u.msgs = s.msgs ∧
    (∀ e ∈ u.reqs, e ∈ s.reqs) ∧ (∀ f tk, mget (u.core c).latch f = some tk → tk.kind = .data → tk.slot ≠ t) ∧
    posted u (.ctl c) (recordOf 2 code sub (s.tenantOf (.fab c t)) c t k.seq
      (k.blk + 2 ^ 18 * s.cur.idx + 2 ^ 25) k.clock k.addr))

/-- R48, R247, R402, R403, R406: a fault of a returning operation at LSID k in phase two parks its thread with partial
commit: the pass stays, its LVW values, its branch and its operations from k on stand in the commit image of its slot, where
no core owns a line of the image, and the versions of the lines of the image advance.
The model's choice where the spec is silent: log 86, of an operation that an edited commit image names. -/
def Sys2Proof.Claims.FaultsInPhaseTwoKeepACommitImage : Prop :=
  ∀ (s : State) (a : Agent) (c t code sub addr j : Nat) (p : Pass), MayPark s a c t → (s.thread c t).pass = some p → s.memoryOk →
    let u := s.faultTwo a code sub addr j
    let A := s.reg (dsReg (c / 16) 0x450) + (c % 16 * 8192 + t) * 2048
    let home : Prop := ∀ x, A ≤ x → x < A + 2048 → s.homeFree (x / 128) = true
    (u.thread c t).st = .parked ∧ (u.thread c t).pass = some p ∧ keepsThread (s.thread c t) (u.thread c t) ∧
    (u.thread c t).park = some { code, sub, partialAt := some j, blk := (s.thread c t).blk, idx := (mget p.ops j).map (·.idx),
                                 phase := 2, seq := s.seqOf c t % 2 ^ 32, addr := addr % 2 ^ 64, clock := (s.die (c / 16)).clk } ∧
    sameOutside s u A 2048 ∧
    (home →
    (∀ v w, v < 64 → mget p.lvw v = some (some w) → readLE u.mem (A + 8 * v) 8 = w.toNat) ∧
    (readLE u.mem (A + 0x208) 8 = match p.branch with
      | none => 0
      | some (.enter b) => b % 2 ^ 64
      | some .exit => 2 ^ 18
      | some (.call b r) => (b + 2 ^ 19 + r * 2 ^ 20) % 2 ^ 64
      | some (.yield b) => (b + 2 ^ 38) % 2 ^ 64
      | some (.ret b) => (b + 2 ^ 39) % 2 ^ 64) ∧
    (∀ k, k < 32 → let e := A + 0x210 + 32 * k
      (mget p.ops k = none → readLE u.mem e 1 = 0) ∧
      ∀ o i f, mget p.ops k = some o → opInstr (s.block p.img p.blk) o = some i → encodeFields i = some f →
        readLE u.mem e 1 = (if o.performed then 1 else 2) ∧ readLE u.mem (e + 1) 1 = f.op % 256 ∧
        readLE u.mem (e + 3) 1 = f.cls.code ∧
        (o.va ≠ 0 → o.va < 2 ^ 64 → readLE u.mem (e + 8) 8 = o.va) ∧
        (o.performed = false → readLE u.mem (e + 16) 8 = o.r.toNat ∧ readLE u.mem (e + 24) 8 = o.p.toNat)) ∧
    (∀ k, k < 16 → A % 128 = 0 → versioned (A / 128 + k) = true →
      (u.sideOf (A / 128 + k)).ver = ((s.sideOf (A / 128 + k)).ver + 1) % 2 ^ 56))

/-- R406, R418: a fault of a control thread or of a supervisor, and HALT, stop the program: its pass is gone, the control
core serves nothing more, DS_SUPV shows a stopped supervisor, and a HALT record is posted to the die. -/
def Sys2Proof.Claims.FaultsHaltPrivilegedPrograms : Prop :=
  ∀ (s : State) (c d code sub addr : Nat), code < 256 → addr < 2 ^ 64 →
    (s.cur.agent = .ctl c →
      let u := s.raise code sub addr
      u.mem = s.mem ∧ (u.core c).cc = .halted ∧ u.passOf (.ctl c) = none ∧ (c < 128 → u.regValue (kcReg c 0x18) / 16 % 2 = 0) ∧
      posted u (.sup (c / 16)) (recordOf 8 code 0 0 c 0xFFFF 0 0 (s.die (c / 16)).clk addr) ∧
      exec (.rarePassStart c) u = .next u) ∧
    (s.cur.agent = .sup d →
      let u := s.raise code sub addr
      u.mem = s.mem ∧ u.passOf (.sup d) = none ∧ u.reg (dsReg d 0x18) % 4 = 2 ∧
      posted u (.sup d) (recordOf 8 code 0 0 0xFFFF 0xFFFF 0 0 (s.die d).clk addr))

/-- R33, R48, R177, R178, R403, R404: commands to parked threads: their order of checks and their results in KC_PARK_STAT;
resume enters the block again or restarts phase two from the commit image; a skip is taken only after TRAP, BRK or ASSERT;
a kill makes the thread Exited and adds a KILLED entry to its launch.
The model's choice where the spec is silent: log 86. -/
def Sys2Proof.Claims.CommandsToParkedThreads : Prop :=
  ∀ (s : State) (c t : Nat),
    let forms : List Instr := [.parkResume c t, .parkKill c t, .parkResumeSkip c t]
    let busy : Prop := ∃ g ∈ s.gangsOn c, (s.gang g).frozen = .squashing ∨ (s.gang g).frozen = .draining
    let stat (u : State) (r : Nat) : Prop := u.reg (kcReg c 0x448) = t % 2 ^ 13 + 2 ^ 13 * r
    let refused (i : Instr) (r : Nat) : Prop := ∃ u : State, exec i s = .next u ∧ stat u r ∧ u.mem = s.mem ∧ u.cores = s.cores ∧ u.gangs = s.gangs
    (busy → ∀ i ∈ forms, refused i 2) ∧
    (¬ busy → (s.thread c t).st ≠ .parked → ∀ i ∈ forms, refused i 1) ∧
    (∀ k, ¬ busy → (s.thread c t).st = .parked → (s.thread c t).park = some k →
      let skips : Prop := k.code = 0x0F ∨ k.code = 0x10 ∨ k.code = 0x11
      (¬ skips → refused (.parkResumeSkip c t) 3) ∧
      (∀ i skip, (i = .parkResume c t ∧ skip = (s.thread c t).skip ∨ i = .parkResumeSkip c t ∧ skips ∧ skip = k.idx) →
        k.partialAt = none → isRare (s.block (s.imgOf c t) (s.thread c t).blk) = false →
        findEntry (s.core c) (s.triple c t) ≠ none ∨ freeEntry (s.core c) ≠ none →
        ∃ u : State, exec i s = .next u ∧ stat u 0 ∧ u.mem = s.mem ∧
          u.thread c t = { s.thread c t with st := .waiting, park := none, skip, age := 0, yieldPending := false }) ∧
      (∀ j p, k.partialAt = some j → (s.thread c t).pass = some p →
        ∃ u p', exec (.parkResume c t) s = .next u ∧ stat u 0 ∧ u.mem = s.mem ∧ (u.thread c t).st = .commit ∧
          (u.thread c t).park = none ∧ (u.thread c t).pass = some p' ∧ p'.img = p.img ∧ p'.blk = p.blk ∧
          (∀ v w, flag (readLE s.postedMem (s.imageAddr c t + 0x200) 8) v = true → mget p.lvw v = some (some w) →
            mget p'.lvw v = some (some (BitVec.ofNat 64 (readLE s.postedMem (s.imageAddr c t + 8 * v) 8)))) ∧
          (∀ b, readLE s.postedMem (s.imageAddr c t + 0x208) 8 = b → b < 2 ^ 18 → p'.branch = some (.enter b)) ∧
          (∀ v, v < 64 → flag (readLE s.postedMem (s.imageAddr c t + 0x200) 8) v = false → ∀ w, mget p'.lvw v ≠ some (some w)) ∧
          (∀ n o, mget p.ops n = some o → (o.performed = true → mget p'.ops n = some o) ∧
            (o.performed = false → ∃ o', mget p'.ops n = some o' ∧
              let e := s.imageAddr c t + 0x210 + 32 * n
              (o'.performed = true ↔ readLE s.postedMem e 1 ≠ 2) ∧
              (o'.performed = false → o.null = false →
                o'.r.toNat = readLE s.postedMem (e + 16) 8 ∧ o'.p.toNat = readLE s.postedMem (e + 24) 8 ∧
                (o.va ≠ 0 → o'.va = readLE s.postedMem (e + 8) 8))))) ∧
      (∀ pm, s.gang (s.gangOf c t) = pm → (∃ m ∈ pm.members, ∃ i, i < (s.wg m.core m.base).n ∧
          (m.core, m.base + i) ≠ (c, t) ∧ (s.thread m.core (m.base + i)).st ≠ .exited) →
        Keyed s c → t ∉ (s.core c).entryWait →
        ∃ u : State, exec (.parkKill c t) s = .next u ∧ stat u 0 ∧ u.mem = s.mem ∧ (u.thread c t).st = .exited ∧
          (u.thread c t).pass = none ∧
          (u.launch (s.seqOf c t)).faultCount = min ((s.launch (s.seqOf c t)).faultCount + 1) (2 ^ 32 - 1) ∧
          ((s.launch (s.seqOf c t)).faults.length < 16 → ∃ r : Rec, r.toNat % 256 = 0x0C ∧ r.toNat / 2 ^ 32 % 2 ^ 32 = c % 2 ^ 16 + 2 ^ 16 * (t % 2 ^ 16) ∧
            r.toNat / 2 ^ 96 % 2 ^ 32 = (s.thread c t).blk % 2 ^ 18 ∧
            (u.launch (s.seqOf c t)).faults = (s.launch (s.seqOf c t)).faults ++ [r])))
/-- R211, R216, R221, R226, R232, R233, R247: a write performs at its home as one unit: its bytes change and no other, the
version of its line advances by one, and its completion time, not below the line's lease horizon, goes back; until it has crossed the circuit, and while
an owner or an earlier message of its way keeps it away it waits. A dirty window line with an error leaves its line poisoned. -/
def Sys2Proof.Claims.WritesPerformAtTheirHome : Prop :=
  ∀ (s : State) (m c line : Nat) (src : WriteSrc) (bytes : List (Nat × Byte)),
    mget s.msgs m = some (.write src c line bytes) → s.memoryOk → bytes.Pairwise (fun e f => e.1 ≠ f.1) → (∀ e ∈ bytes, e.1 < 128) →
    let d := homeDie line
    let time := if versioned line = true then max (s.die d).clk (mgetD s.l2 line {}).horizon else (s.die d).clk
    let behind : Bool := s.writeBehind m src c line bytes
    let free : Bool := match src with | .posted => s.unowned line | .spoiled _ => s.unowned line | _ => s.homeFree line
    (s.sent (.msg m) = false ∨ behind = true → exec (.homeWrite m) s = .next s) ∧
    (s.sent (.msg m) = true → behind = false → free = false →
      ∃ u : State, exec (.homeWrite m) s = .next u ∧ u.mem = s.mem ∧ mget u.msgs m = mget s.msgs m ∧
        ∀ o, (mgetD s.l2 line {}).owner = some o → ∃ e ∈ u.msgs, e.2 = .recall o line ∨ ∃ k x v f, e.2 = .back k line x v f ∨ e.2 = .recall k line) ∧
    (s.sent (.msg m) = true → behind = false → free = true → s.partitionOf (line * 128) = none →
      ∃ u : State, exec (.homeWrite m) s = .next u ∧
        (∀ e ∈ bytes, readByte u.mem (line * 128 + e.1) = e.2) ∧
        (∀ a, (∀ e ∈ bytes, a ≠ line * 128 + e.1) → readByte u.mem a = readByte s.mem a) ∧
        (versioned line = true → (u.sideOf line).ver = ((s.sideOf line).ver + 1) % 2 ^ 56) ∧
        (∀ l, l ≠ line → (u.sideOf l).ver = (s.sideOf l).ver) ∧
        (∀ refs wins, src = .stores refs wins → ∃ k, mget u.msgs k = some (.done refs wins c time d)) ∧
        (∀ wins, src = .spoiled wins → (∃ k, mget u.msgs k = some (.done [] wins c time d)) ∧
          ∀ x, regionOf (line * 128) = .dev x → (u.sideOf line).dp = true) ∧
        (∀ ctx k, src = .engine ctx → isEngine ctx → s.headCmd ctx = some k →
          ∃ k', u.headCmd ctx = some k' ∧ k'.pending = k.pending - 1 ∧
            k'.horizon = max k.horizon (s.convert (ctx / 256 % 8) d time + (if ctx / 256 % 8 = d then 0 else 10)) ∧
            k'.todo = k.todo ∧ k'.status = k.status) ∧
        (∀ x b port, src = .cluster x b port →
          mgetD (u.wg x b).clusterUsed port 0 = mgetD (s.wg x b).clusterUsed port 0 - 1))

/-- R219, R221, R234, R241, R414: completion times come back to the stores of their entry, which count as performed, and raise the
horizons of their threads; a window line that has been written back is free, and its time raises every horizon of its
workgroup; what a hold covers waits; an entry open for 16 cycles leaves its coalescer; a horizon passes with its die's clock. -/
def Sys2Proof.Claims.CompletionsReturn : Prop :=
  (∀ (s : State) (m c0 time d : Nat) (refs : List StoreRef), mget s.msgs m = some (.done refs [] c0 time d) →
    (∀ r ∈ refs, ∃ c t, r.agent = .fab c t ∧ (s.thread c t).st ≠ .exited ∧ mget s.reqs r.req ≠ none) →
    refs.Pairwise (fun x y => (x.agent, x.lsid) ≠ (y.agent, y.lsid) ∧ x.req ≠ y.req) →
    (s.sent (.msg m) = false ∨ (s.heldCore c0 = true ∧ refs ≠ []) → exec (.completionReturn m) s = .next s) ∧
    (s.sent (.msg m) = true → s.heldCore c0 = false →
      ∃ u : State, exec (.completionReturn m) s = .next u ∧ u.mem = s.mem ∧ mget u.msgs m = none ∧
        ∀ r ∈ refs, ∀ c t, r.agent = .fab c t →
          (u.thread c t).horizon = max (s.thread c t).horizon (s.convert (c / 16) d time + (if c / 16 = d then 0 else 10)) ∧
          ∀ o, opAt s r.agent r.lsid = some o → opAt u r.agent r.lsid =
            some { o with waiting := o.waiting - 1, performed := o.performed || decide (o.waiting ≤ 1) })) ∧
  (∀ (s : State) (m c time d : Nat) (x : WinRef), mget s.msgs m = some (.done [] [x] c time d) →
    let l := mgetD (mgetD (s.wg c x.wg).windows x.port {}).lines x.line {}
    (s.sent (.msg m) = false ∨ s.heldCore c = true → exec (.completionReturn m) s = .next s) ∧
    (s.sent (.msg m) = true → s.heldCore c = false → ∃ u : State, exec (.completionReturn m) s = .next u ∧ u.mem = s.mem ∧ mget u.msgs m = none ∧
      (l.rsv = 0 → l.dirty = false → mget (mgetD (u.wg c x.wg).windows x.port {}).lines x.line = none) ∧
      (0 < l.rsv ∨ l.dirty = true → mget (mgetD (u.wg c x.wg).windows x.port {}).lines x.line = some { l with busy := false }) ∧
      ∀ i, i < (s.wg c x.wg).n → (s.thread c (x.wg + i)).st ≠ .exited → (u.thread c (x.wg + i)).horizon =
        max (s.thread c (x.wg + i)).horizon (s.convert (c / 16) d time + (if c / 16 = d then 0 else 10)))) ∧
  (∀ (s : State) (c tile line : Nat),
    ((∀ e ∈ s.coal c tile, e.line ≠ line) → exec (.coalescerAgeExpiry c tile line) s = .next s) ∧
    (∀ a e b, s.coal c tile = a ++ e :: b → (∀ f ∈ a, f.line ≠ line) → e.line = line →
      let age := (s.die (c / 16)).clk - e.opened
      (7 * age < 16 * 5 → exec (.coalescerAgeExpiry c tile line) s = .next s) ∧
      (16 * 5 ≤ 7 * age → ∃ u k, exec (.coalescerAgeExpiry c tile line) s = .next u ∧ u.mem = s.mem ∧ mget s.msgs k = none ∧
        mget u.msgs k = some (.write (.stores e.stores e.wins) c line e.bytes) ∧ ∀ f ∈ u.coal c tile, f.line ≠ line))) ∧
  (∀ (s : State) (c t : Nat),
    let x := s.thread c t
    (x.horizon ≤ (s.die (c / 16)).clk → (∀ e ∈ x.far, s.fallback (c / 16) e.1 = false) →
      ∃ u : State, exec (.completionTimePassed c t) s = .next u ∧ u.thread c t = { x with far := [] } ∧ u.mem = s.mem) ∧
    ((s.die (c / 16)).clk < x.horizon → exec (.completionTimePassed c t) s = .next s) ∧
    ((∃ e ∈ x.far, s.fallback (c / 16) e.1 = true) → exec (.completionTimePassed c t) s = .next s))

/-- R224 to R226, R232, R233, R433: a home without another owner grants a line with its data, version and time; the core keeps
it in its buffer, a held core too; a recalled owner gives it back, modified data and version with it, and one that has sent the
line back already, or asks for it anew, answers with that; the home installs data and version without advancing it.
The model's choice where the spec is silent: log 80, of the owner of a line whose set has no free way, and log 81. -/
def Sys2Proof.Claims.LinesMoveBetweenHomeAndOwner : Prop :=
  (∀ (s : State) (m c line : Nat), mget s.msgs m = some (.ownReq c line) →
    let d := homeDie line
    let own := (mgetD s.l2 line {}).owner
    let free : Prop := (own = none ∨ own = some c) ∧ s.postedOn line = false ∧
      ∀ e ∈ s.msgs, ∀ k data ver modified, e.2 ≠ .recall k line ∧ e.2 ≠ .back k line data ver modified
    (s.sent (.msg m) = false ∨ s.lineBehind m c line = true → exec (.ownershipRequest m) s = .next s) ∧
    (s.sent (.msg m) = true → s.lineBehind m c line = false → ¬ free → ∃ u : State, exec (.ownershipRequest m) s = .next u ∧
      u.mem = s.mem ∧ mget u.msgs m = mget s.msgs m ∧
      (mgetD u.l2 line {}).owner = (if own = some c then none else own)) ∧
    (s.sent (.msg m) = true → s.lineBehind m c line = false → free → ∃ u k, exec (.ownershipRequest m) s = .next u ∧ u.mem = s.mem ∧
      u.side = s.side ∧ (mgetD u.l2 line {}).owner = some c ∧
      mget u.msgs k = some (.grant c line (readBytes s.mem (line * 128) 128) (s.sideOf line).ver
        (if versioned line = true then max (s.die d).clk (mgetD s.l2 line {}).horizon else (s.die d).clk)))) ∧
  (∀ (s : State) (m c line ver time : Nat) (data : List Byte), mget s.msgs m = some (.grant c line data ver time) →
    let behind : Prop := ∃ e ∈ s.msgs, e.1 < m ∧ e.2 = .recall c line
    let kept (u : State) (fresh : Bool) : Prop := u.mem = s.mem ∧ { line, data, ver, time, modified := false, fresh } ∈ (u.core c).alb ∧
      ∀ e ∈ (u.core c).alb, e.line = line → e = { line, data, ver, time, modified := false, fresh }
    (s.sent (.msg m) = false ∨ behind → exec (.ownershipGrant m) s = .next s) ∧
    (s.sent (.msg m) = true → ¬ behind → s.heldCore c = true → ∃ u : State, exec (.ownershipGrant m) s = .next u ∧ kept u true) ∧
    (s.sent (.msg m) = true → ¬ behind → s.heldCore c = false → s.lineWaiters c line = [] →
      (∀ e ∈ (s.core c).nrOps, s.nrOn e.2 line = false) → ∃ u : State, exec (.ownershipGrant m) s = .next u ∧ kept u false)) ∧
  (∀ (s : State) (m c line : Nat), mget s.msgs m = some (.recall c line) →
    let behind : Prop := ∃ e ∈ s.msgs, ∃ data ver time, e.1 < m ∧ e.2 = .grant c line data ver time
    let underWay : Prop := ∃ e ∈ s.msgs, e.2 = .ownReq c line ∨ (∃ data ver time, e.2 = .grant c line data ver time) ∨
      ∃ data ver modified, e.2 = .back c line data ver modified
    (s.sent (.msg m) = false ∨ behind → exec (.ownerRecall m) s = .next s) ∧
    (s.sent (.msg m) = true → ¬ behind → (∀ e ∈ (s.core c).alb, e.line ≠ line) →
      (underWay → exec (.ownerRecall m) s = .next { s with msgs := mdel s.msgs m }) ∧
      (¬ underWay → ∃ u k, exec (.ownerRecall m) s = .next u ∧ u.mem = s.mem ∧ mget u.msgs k = some (.back c line [] 0 false))) ∧
    (s.sent (.msg m) = true → ¬ behind → ∀ a e b, (s.core c).alb = a ++ e :: b → (∀ f ∈ a, f.line ≠ line) → e.line = line →
      let needed : Prop := e.fresh = true ∧ s.heldCore c = false ∧
        (s.lineWaiters c line ≠ [] ∨ ∃ x ∈ (s.core c).nrOps, s.nrOn x.2 line = true)
      (needed → exec (.ownerRecall m) s = .next s) ∧
      (¬ needed → ∃ u k, exec (.ownerRecall m) s = .next u ∧ u.mem = s.mem ∧
        mget u.msgs k = some (.back c line e.data e.ver e.modified) ∧ ∀ f ∈ (u.core c).alb, f.line ≠ line))) ∧
  (∀ (s : State) (m c line ver : Nat) (data : List Byte) (modified : Bool), mget s.msgs m = some (.back c line data ver modified) →
    (s.sent (.msg m) = false ∨ s.backBehind m c line = true → exec (.lineWriteBack m) s = .next s) ∧
    (s.sent (.msg m) = true → s.backBehind m c line = false → s.memoryOk → data.length = 128 →
    ∃ u : State, exec (.lineWriteBack m) s = .next u ∧ mget u.msgs m = none ∧
      (mgetD u.l2 line {}).owner = (if (mgetD s.l2 line {}).owner = some c then none else (mgetD s.l2 line {}).owner) ∧
      (modified = false → u.mem = s.mem ∧ u.side = s.side) ∧
      (modified = true → readBytes u.mem (line * 128) 128 = data ∧ sameOutside s u (line * 128) 128 ∧
        (versioned line = true → (u.sideOf line).ver = ver) ∧ ∀ l, l ≠ line → u.sideOf l = s.sideOf l)))
namespace Sys2Proof.Claims
open Sys2Proof.Machine

/-- What comes back for a request: an answer that has crossed from its port to its die, or the one that a live port now
receives on that die, the request having left it (R13, R14, R436). -/
def comesBack (s : State) (m : Nat) (r : Req) (peer x : PeerReply) : Prop :=
  s.sent (.req m) = true ∧ (r.back = some x ∨ (r.back = none ∧ peer = x ∧ x ≠ .none ∧ s.portLive (remotePort r.va) = true ∧
    remotePort r.va % 8 = r.agent.die))

/-- Nothing comes back: the request or its answer is on its way, or no live port has received an answer. -/
def nothingBack (s : State) (m : Nat) (r : Req) (peer : PeerReply) : Prop :=
  s.sent (.req m) = false ∨ (r.back = none ∧ (peer = .none ∨ s.portLive (remotePort r.va) = false))

/-- An answer that a live port of another die receives begins its way to the issuer. -/
def answerCrosses (s : State) (m : Nat) (r : Req) (peer : PeerReply) : Prop :=
  s.sent (.req m) = true ∧ r.back = none ∧ peer ≠ .none ∧ s.portLive (remotePort r.va) = true ∧ remotePort r.va % 8 ≠ r.agent.die

end Sys2Proof.Claims

/-- R13, R14, R253, R262, R263, R267, R402, R437: the answer that a live port has received, come to the issuer's die, performs
the operation of a write or an atomic; a refusal parks the thread with REMOTE and a poisoned answer with POISON, in phase one
for a read and with partial commit else; an answer received on another die begins its way, and without one nothing comes back.
The model's choice where the spec is silent: log 54. -/
def Sys2Proof.Claims.RemoteAnswers : Prop :=
  ∀ (s : State) (m c t : Nat) (r : Req) (peer : PeerReply), mget s.reqs m = some r → r.agent = .fab c t →
    let back (x : PeerReply) : Prop := comesBack s m r peer x
    let begun (u : State) : Prop := mget u.reqs m = some { r with back := some peer } ∧ u.mem = s.mem
    (nothingBack s m r peer → (∃ k, r.kind = .remoteWrite k ∨ r.kind = .remoteAtomic k) → exec (.memoryReply m peer) s = .next s) ∧
    (∀ k, nothingBack s m r peer → r.kind = .remoteNr k → exec (.memoryReply m peer) s = .next (s.wakeLsq (.fab c t))) ∧
    (answerCrosses s m r peer →
      (s.twoStopped (.fab c t) = false → (∃ k, r.kind = .remoteWrite k ∨ r.kind = .remoteAtomic k) →
        ∃ u : State, exec (.memoryReply m peer) s = .next u ∧ begun u) ∧
      (∀ k, r.kind = .remoteNr k → ∃ u : State, exec (.memoryReply m peer) s = .next u ∧ begun u) ∧
      (∀ z, s.replyOpen r = true → r.kind = .remoteRead z →
        ∃ u : State, begun u ∧ exec (.memoryReply m peer) s = .next ((u.checkPhaseOne (.fab c t)).wakeLsq (.fab c t)))) ∧
    (s.twoStopped (.fab c t) = false →
      (∀ k o v, back (.data v) → r.kind = .remoteWrite k → opAt s (.fab c t) k = some o → ∃ u : State, exec (.memoryReply m peer) s = .next u ∧
        mget u.reqs m = none ∧ u.mem = s.mem ∧ opAt u (.fab c t) k = some { o with performed := true, waiting := 0 }) ∧
      (∀ k sub code, (back (.refused sub) ∧ code = 5 ∧ (r.kind = .remoteWrite k ∨ r.kind = .remoteAtomic k) ∨
          back .poisoned ∧ sub = 0 ∧ code = 4 ∧ r.kind = .remoteAtomic k) → MayPark s (.fab c t) c t → s.memoryOk → sub < 256 →
        ∃ u pk, exec (.memoryReply m peer) s = .next u ∧ (u.thread c t).st = .parked ∧ (u.thread c t).park = some pk ∧
          pk.code = code ∧ pk.sub = sub ∧ pk.partialAt = some k ∧ pk.addr = r.va % 2 ^ 64)) ∧
    (s.replyOpen r = true →
      ∀ size, r.kind = .remoteRead size →
        (∀ v, back (.data v) → exec (.memoryReply m peer) s = .next (((((s.dropReq m).updPass (.fab c t)
          (fun p => { p with got := mput p.got (2 * r.idx) (toLE v.toNat size) })).finishLoad (.fab c t) r.idx r.lsid size
            false).checkPhaseOne (.fab c t)).wakeLsq (.fab c t))) ∧
        (∀ sub code, (back (.refused sub) ∧ code = 5 ∨ back .poisoned ∧ sub = 0 ∧ code = 4) → MayPark s (.fab c t) c t →
          inPhaseOne s c t → sub < 256 →
          ∃ u pk, exec (.memoryReply m peer) s = .next u ∧ (u.thread c t).st = .parked ∧ (u.thread c t).park = some pk ∧
            pk.code = code ∧ pk.sub = sub ∧ pk.partialAt = none ∧ pk.addr = r.va % 2 ^ 64 ∧ (u.thread c t).pass = none)) ∧
    (∀ n x, r.kind = .remoteNr n → mget (s.core c).nrOps n = some x →
      (∀ v, back (.data v) → ∃ u : State, exec (.memoryReply m peer) s = .next u ∧ mget (u.core c).nrOps n = none ∧ u.mem = s.mem ∧
        (x.agent.slot ≠ none → mgetD (u.launch x.seq).nrOut x.agent.die 0 = mgetD (s.launch x.seq).nrOut x.agent.die 0 - 1)) ∧
      (∀ sub, back (.refused sub) → x.agent.slot ≠ none → ∃ u : State, exec (.memoryReply m peer) s = .next u ∧
        mget (u.core c).nrOps n = none ∧ mgetD (u.launch x.seq).nrOut x.agent.die 0 = mgetD (s.launch x.seq).nrOut x.agent.die 0 - 1 ∧
        (u.launch x.seq).faultCount = min ((s.launch x.seq).faultCount + 1) (2 ^ 32 - 1)))

/-- R148, R253, R267, R385, R395, R420, R426: a request abandoned at KC_REQ_TIMEOUT: a read parks its thread with TIMEOUT in
phase one, a write, an atomic or a probe of phase two with partial commit, TLWAIT delivers whether its value has been reached, a
reduction becomes a DEFERRED entry; below the limit, or while its unit is held, the request goes on. A reply that comes later is discarded and counted.
The model's choice where the spec is silent: logs 16, 52 and 65. -/
def Sys2Proof.Claims.RequestsTimeOut : Prop :=
  (∀ (s : State) (m c t ten size part : Nat) (sx : Bool) (r : Req), mget s.reqs m = none → mget s.late m = some (r, ten) →
    r.agent = .fab c t → s.heldCore c = false →
    r.kind = .load size sx part ∨ (∃ z w, r.kind = .ldv z w) ∨ (∃ l v, r.kind = .watch l v) ∨ (∃ q, r.kind = .stream q) →
    exec (.memoryReply m .none) s = .next ({ s with late := mdel s.late m }.count c 0x023 (some ten))) ∧
  ∀ (s : State) (m c t : Nat) (r : Req), mget s.reqs m = some r → r.agent = .fab c t →
    let age := (s.die (c / 16)).clk - r.start
    let limit := s.reg (kcReg c 0x28)
    (age < limit → exec (.requestTimeout m) s = .next s) ∧
    (s.heldCore c = true → (∀ ctx, r.kind ≠ .engine ctx) → exec (.requestTimeout m) s = .next s) ∧
    (limit ≤ age → s.heldCore c = false →
      ((∃ z x i, r.kind = .load z x i) ∨ (∃ z w, r.kind = .ldv z w) ∨ (∃ l v, r.kind = .watch l v) ∨ (∃ q, r.kind = .stream q) ∨
          (∃ z, r.kind = .remoteRead z) → MayPark s (.fab c t) c t → inPhaseOne s c t →
        ∃ u pk, exec (.requestTimeout m) s = .next u ∧ ((∀ z, r.kind ≠ .remoteRead z) → u.mem = s.mem) ∧ mget u.reqs m = none ∧
          (u.thread c t).st = .parked ∧ (u.thread c t).park = some pk ∧ pk.code = 0x06 ∧ pk.partialAt = none ∧ pk.idx = some r.idx ∧ pk.addr = r.va % 2 ^ 64 ∧
          (r.taken = none → mget u.late m = some (r, s.tenantOf (.fab c t)))) ∧
      (∀ k, r.kind = .store k ∨ r.kind = .atomic k ∨ r.kind = .remoteWrite k ∨ r.kind = .remoteAtomic k →
          MayPark s (.fab c t) c t → s.memoryOk →
        ∃ u pk, exec (.requestTimeout m) s = .next u ∧ mget u.reqs m = none ∧ (u.thread c t).st = .parked ∧
          (u.thread c t).park = some pk ∧ pk.code = 0x06 ∧ pk.partialAt = some k ∧ pk.addr = r.va % 2 ^ 64) ∧
      (∀ port, r.kind = .probe port → r.idx ≠ 0xFFFF → s.nrAt (.fab c t) r.lsid = false → MayPark s (.fab c t) c t → s.memoryOk →
        ∃ u pk, exec (.requestTimeout m) s = .next u ∧ mget u.reqs m = none ∧ (u.thread c t).st = .parked ∧
          (u.thread c t).park = some pk ∧ pk.code = 0x06 ∧ pk.partialAt = some r.lsid ∧ pk.addr = r.va % 2 ^ 64) ∧
      (∀ ctx v p n i tg1 j1 f1, r.kind = .tlwait ctx v → s.replyOpen r = true → s.passOf (.fab c t) = some p → p.inst = some n →
        instrAt (s.block p.img p.blk) r.idx = some i → targetsOf i = [.to f1 j1, tg1] →
        ∃ u tk, exec (.requestTimeout m) s = .next u ∧ u.mem = s.mem ∧ mget u.reqs m = none ∧
          mget (u.core c).latch (2 * s.element c n r.idx p.lane) = some tk ∧
          tk.data = (if v ≤ s.timeline ctx then 1 else 0) ∧ tk.slot = t ∧ tk.dst = opKey j1.toNat f1) ∧
      (∀ n x, r.kind = .nr n ∨ r.kind = .remoteNr n → mget (s.core c).nrOps n = some x → x.agent.slot ≠ none →
        ∃ u : State, exec (.requestTimeout m) s = .next u ∧ (r.kind = .nr n → u.mem = s.mem) ∧ mget (u.core c).nrOps n = none ∧
          mgetD (u.launch x.seq).nrOut x.agent.die 0 = mgetD (s.launch x.seq).nrOut x.agent.die 0 - 1 ∧
          (u.launch x.seq).faultCount = min ((s.launch x.seq).faultCount + 1) (2 ^ 32 - 1) ∧
          ((s.launch x.seq).faults.length < 16 → ∃ d : Rec, (u.launch x.seq).faults = (s.launch x.seq).faults ++ [d] ∧
            d.toNat % 2 ^ 16 = 0x060B ∧ d.toNat / 2 ^ 64 % 2 ^ 64 = x.op.r.toNat)))

/-- R240, R241, R358, R359, R395, R414: an acknowledged reduction lowers its launch's count and raises the horizon of its thread,
or of its launch once the thread is gone, and waits while the thread is held; a port whose answer to a probe has come leaves the
remote-write set, one on another die first sends the answer on; a TLBINV whose writes
have landed delivers 1 and is over. -/
def Sys2Proof.Claims.AcknowledgementsAndProbes : Prop :=
  (∀ (s : State) (m gang wgid tid seq time d : Nat) (a : Agent), mget s.msgs m = some (.nrAck a gang wgid tid seq time d) →
    (s.sent (.msg m) = false ∨ s.ackHeld a (s.nrHome a gang wgid tid) = true → exec (.nrAcknowledge m) s = .next s) ∧
    (s.sent (.msg m) = true → s.ackHeld a (s.nrHome a gang wgid tid) = false → a.slot ≠ none → ∃ u : State, exec (.nrAcknowledge m) s = .next u ∧ u.mem = s.mem ∧ mget u.msgs m = none ∧
      mgetD (u.launch seq).nrOut a.die 0 = mgetD (s.launch seq).nrOut a.die 0 - 1 ∧
      (∀ c t, s.nrHome a gang wgid tid = some (.fab c t) →
        (u.thread c t).nrOut = (s.thread c t).nrOut - 1 ∧
        (u.thread c t).horizon = max (s.thread c t).horizon (s.convert (c / 16) d time + (if c / 16 = d then 0 else 10))) ∧
      (s.nrHome a gang wgid tid = none →
        mgetD (u.launch seq).horizon a.die 0 =
          max (mgetD (s.launch seq).horizon a.die 0) (s.convert a.die d time + (if a.die = d then 0 else 10))))) ∧
  (∀ (s : State) (c t port : Nat),
    let probes (e : Nat × Req) : Prop := e.2.kind = .probe port ∧ (e.2.agent = .fab c t ∨ e.2.agent = .rare c t)
    (s.portLive port = false → t ≠ 0xFFFF → (∀ e ∈ s.reqs, probes e → e.2.back = none) →
      exec (.visibilityProbeAnswer c t port) s = .next s) ∧
    (∀ n r, mget s.reqs n = some r → probes (n, r) → keyed s.reqs → r.back = none → s.portLive port = true → s.heldCore c = false →
      s.sent (.req n) = true → port % 8 ≠ c / 16 → ∃ u : State, exec (.visibilityProbeAnswer c t port) s = .next u ∧ u.mem = s.mem ∧
        mget u.reqs n = some { r with back := some (.data 0) }) ∧
    (s.portLive port = true → s.heldCore c = false →
      (∀ e ∈ s.reqs, probes e → s.sent (.req e.1) = true ∧ (e.2.back ≠ none ∨ port % 8 = c / 16)) →
      (∃ e ∈ s.reqs, probes e) → t ≠ 0xFFFF →
      ∃ u : State, exec (.visibilityProbeAnswer c t port) s = .next u ∧ u.mem = s.mem ∧ port ∉ (u.thread c t).remote ∧
        (∀ q, q ≠ port → (q ∈ (u.thread c t).remote ↔ q ∈ (s.thread c t).remote)) ∧
        ∀ e ∈ u.reqs, e.2.kind = .probe port → e.2.agent ≠ .fab c t ∧ e.2.agent ≠ .rare c t)) ∧
  (∀ (s : State) (n : Nat) (v : Inval), mget s.invals n = some v →
    (s.writesLanded v = false → exec (.tlbinvComplete n) s = .next s) ∧
    (s.writesLanded v = true → ∃ u : State, exec (.tlbinvComplete n) s = .next u ∧ mget u.invals n = none ∧ u.mem = s.mem ∧
      ∀ c p i f j tg, v.agent = .ctl c → s.passOf (.ctl c) = some p → instrAt (s.block p.img p.blk) v.idx = some i →
        targetsOf i = [.to f j, tg] → tg = .none → mget p.opnd (opKey j.toNat f) = none →
        ∃ p', u.passOf (.ctl c) = some p' ∧ mget p'.opnd (opKey j.toNat f) = some 1))

/-- R217 to R219, R234, R307, R382: a fill puts a line of a read window in place with its home's bytes and the lease of its
page's class, which the line's horizon at the home does not fall below, where the window's size from its tail on takes it; a
line whose lease is over leaves its window. -/
def Sys2Proof.Claims.WindowLinesFillAndExpire : Prop :=
  ∀ (s : State) (c b port line : Nat),
    let w := s.wg c b
    let x := mgetD w.windows port {}
    (∀ d e pl, streamDecl (s.image (s.launch (s.gang w.gang).seq).img) port = some d → d.kind = 0 → x.baseSet = true →
      portWritten (s.image (s.launch (s.gang w.gang).seq).img) port = false →
      s.heldCore c = false → mget x.lines line = none → x.base + x.tail < line * 128 + 128 →
      line * 128 + 128 ≤ x.base + x.tail + 1024 * d.kib → line * 128 ≤ x.base + x.head →
      s.tlbLookup c 0 (s.launch (s.gang w.gang).seq).desc.tenant (line * 128) = some e → e.r = true → e.scratch = false →
      pl = (e.pa + line * 128 % 2 ^ e.lg) / 128 → s.poisonAt (pl * 128) 128 = false → s.lineOpen (c / 16) pl = true →
      e.lease ∈ [1, 2, 3] → versioned pl = true → (mgetD s.l2 pl {}).present = true →
      ∃ u l, exec (.windowFill c b port line) s = .next u ∧ u.mem = s.mem ∧
        (mgetD (u.wg c b).windows port {}).head = max x.head (line * 128 + 128 - x.base) ∧
        mget (mgetD (u.wg c b).windows port {}).lines line = some l ∧ l.valid = true ∧ l.dirty = false ∧ l.pline = pl ∧
        l.expiry = (s.die (homeDie pl)).clk + (if e.lease = 1 then 250 else if e.lease = 2 then 2000 else 16000) ∧
        (∀ k, k < 128 → mget l.data k = some (readByte s.mem (pl * 128 + k))) ∧
        (mgetD u.l2 pl {}).horizon = max (mgetD s.l2 pl {}).horizon l.expiry) ∧
    (∀ l, mget x.lines line = some l → l.valid = true →
      let usable : Prop := s.fallback (c / 16) l.homeDie = false ∧
        (s.die (c / 16)).clk + (if c / 16 = l.homeDie then 0 else 10) < s.convert (c / 16) l.homeDie l.expiry
      (usable → exec (.leaseExpiry c b port line) s = .next s) ∧
      (¬ usable → ∃ u : State, exec (.leaseExpiry c b port line) s = .next u ∧ u.mem = s.mem ∧
        ∀ l', mget (mgetD (u.wg c b).windows port {}).lines line = some l' → l'.valid = false))
namespace Sys2Proof.Claims
open Sys2Proof.Machine

/-- Index of an address in a table of a level (R349). -/
def indexAt (level va : Nat) : Nat :=
  if level = 0 then va / 2 ^ 46 % 2 ^ 11 else if level = 1 then va / 2 ^ 35 % 2 ^ 11
  else if level = 2 then va / 2 ^ 29 % 2 ^ 6 else if level = 3 then va / 2 ^ 21 % 2 ^ 8 else va / 2 ^ 16 % 2 ^ 5

/-- log2 of the page of a leaf of a level (R349). -/
def pageLg (level : Nat) : Nat := if level = 1 then 35 else if level = 2 then 29 else if level = 3 then 21 else 16

/-- An entry that the walker refuses at a level (R350, R351). -/
def refusedEntry (level e : Nat) : Prop :=
  let base := e / 2 ^ 12 % 2 ^ 40 * 2 ^ 12
  let leaf := e.testBit 1 = true
  let size := 2 ^ pageLg level
  let toScratch : Prop := ∃ d, regionOf base = .dieScratch d
  e / 2 ^ 9 % 8 ≠ 0 ∨ e / 2 ^ 52 % 16 ≠ 0 ∨ (level = 0 ∧ leaf) ∨ (level = 4 ∧ ¬ leaf) ∨
    (leaf ∧ (base % size ≠ 0 ∨ inRegion base size = false ∨ (e.testBit 7 = false ∧ toScratch) ∨
      (e.testBit 7 = true ∧ (¬ toScratch ∨ (pageLg level ≠ 16 ∧ pageLg level ≠ 21) ∨ 28 * 2 ^ 20 < base % 2 ^ 25 + size)))) ∨
    (¬ leaf ∧ (e / 4 % 8 ≠ 0 ∨ e / 32 % 8 ≠ 0 ∨ (level = 0 ∧ base % 2 ^ 14 ≠ 0) ∨ ∀ d, regionOf base ≠ .dev d))

/-- How a walk of an address ends, from a table of a level (R348 to R352). -/
inductive Ends where
  | leaf (level entry : Nat)
  | missing
  | refused
  | poison (a : Nat)

/-- A walk from a table of a level of a die reads entries of lines that it can access until it ends. -/
inductive Walks (s : State) (d va : Nat) : Nat → Nat → Ends → Prop
  | poisoned (table level a) : a = table + 8 * indexAt level va → s.lineOpen d (a / 128) = true → (s.sideOf (a / 128)).dp = true → Walks s d va table level (.poison a)
  | invalid (table level a) : a = table + 8 * indexAt level va → s.lineOpen d (a / 128) = true → (s.sideOf (a / 128)).dp = false → (readLE s.mem a 8).testBit 0 = false →
      Walks s d va table level .missing
  | refused (table level a) : a = table + 8 * indexAt level va → s.lineOpen d (a / 128) = true → (s.sideOf (a / 128)).dp = false → (readLE s.mem a 8).testBit 0 = true →
      refusedEntry level (readLE s.mem a 8) → Walks s d va table level .refused
  | leaf (table level a) : a = table + 8 * indexAt level va → s.lineOpen d (a / 128) = true → (s.sideOf (a / 128)).dp = false → (readLE s.mem a 8).testBit 0 = true →
      ¬ refusedEntry level (readLE s.mem a 8) → (readLE s.mem a 8).testBit 1 = true →
      Walks s d va table level (.leaf level (readLE s.mem a 8))
  | down (table level a e) : a = table + 8 * indexAt level va → s.lineOpen d (a / 128) = true → (s.sideOf (a / 128)).dp = false → (readLE s.mem a 8).testBit 0 = true →
      ¬ refusedEntry level (readLE s.mem a 8) → (readLE s.mem a 8).testBit 1 = false →
      Walks s d va (readLE s.mem a 8 / 2 ^ 12 % 2 ^ 40 * 2 ^ 12) (level + 1) e → Walks s d va table level e

/-- A fault of a code at an address parks the thread of a lone requester in phase one. -/
def failsAlone (s : State) (i : Instr) (ws : List Waiter) (code addr : Nat) : Prop :=
  ∀ c t idx va p, ws = [.agent (.fab c t) idx va] → MayPark s (.fab c t) c t → s.passOf (.fab c t) = some p →
    p.two = false → idx ≠ 0xFFFF →
    (∃ e ∈ s.reqs, e.2.agent = .fab c t ∧ e.2.idx = idx ∧ e.2.kind = .xlate) →
    ∃ u pk, exec i s = .next u ∧ u.mem = s.mem ∧ (u.thread c t).st = .parked ∧ (u.thread c t).park = some pk ∧
      pk.code = code ∧ pk.idx = some idx ∧ pk.partialAt = none ∧ pk.addr = addr % 2 ^ 64

/-- Every requester of a page walks again on a die (R354, R357). -/
def walking (u : State) (d tenant page : Nat) (ws : List Waiter) : Prop :=
  ∀ w ∈ ws, (∃ k ∈ (u.die d).walks, k.tenant = tenant ∧ k.va = page ∧ w ∈ k.waiters) ∨
    ∃ f ∈ (u.die d).faults, f.2.tenant = tenant ∧ f.2.page = page ∧ w ∈ f.2.waiters

end Sys2Proof.Claims

/-- R348 to R355: a walk in flight ends with the leaf in the die TLB and its requesters going on, with a fault token for a
missing or a refused entry (which waits while the queue is full), or with POISON where an entry's line is poisoned.
The model's choice where the spec is silent: log 60. -/
def Sys2Proof.Claims.WalksFollowTheTables : Prop :=
  ∀ (s : State) (d n : Nat) (w : Walk), (s.die d).walks[n]? = some w → d < 8 → n < 8 → s.heldDie d = false →
    let root := s.reg (0x4000 + 0x20 * w.tenant)
    let ends (e : Ends) : Prop := (root.testBit 0 = true ∧ Walks s d w.va (root / 2 ^ 14 % 2 ^ 38 * 2 ^ 14) 0 e) ∨
      (root.testBit 0 = false ∧ e = .missing)
    let gone (u : State) : Prop := (u.die d).walks = (s.die d).walks.eraseIdx n
    (∀ lv e, ends (.leaf lv e) → (∀ x ∈ w.waiters, ∃ a i v, x = .agent a i v) →
      ∃ u : State, exec (.pageWalk d n) s = .next u ∧ u.mem = s.mem ∧ gone u ∧
        (∀ a i v, Waiter.agent a i v ∈ w.waiters → ∀ r ∈ u.reqs, r.2.kind = .xlate → r.2.agent = a → r.2.idx ≠ i) ∧
        ∃ x : TlbEntry, (u.die d).tlb.head? = some x ∧ x.tenant = w.tenant ∧ x.va = w.va / 2 ^ pageLg lv * 2 ^ pageLg lv ∧
          x.lg = pageLg lv ∧ x.pa = e / 2 ^ 12 % 2 ^ 40 * 2 ^ 12 ∧ x.r = e.testBit 2 ∧ x.w = e.testBit 3 ∧ x.a = e.testBit 4 ∧
          x.lease = (if e.testBit 7 then 0 else e / 32 % 4) ∧ x.scratch = e.testBit 7) ∧
    (∀ e, e = .missing ∨ e = .refused → ends e →
      (freeToken (s.die d) = none → exec (.pageWalk d n) s = .next s) ∧
      (∀ i, freeToken (s.die d) = some i → ∃ u f, exec (.pageWalk d n) s = .next u ∧ u.mem = s.mem ∧ gone u ∧
        mget (u.die d).faults i = some f ∧ f.tenant = w.tenant ∧ f.page = w.va ∧ f.waiters = w.waiters ∧ f.acc = w.acc ∧ f.stage = .queued ∧
        f.no = min ((s.die d).pager.issued + 1) (2 ^ 64 - 1))) ∧
    (∀ a, ends (.poison a) → failsAlone s (.pageWalk d n) w.waiters 0x04 a)

/-- R354 to R357: a token joins an earlier one of its tenant and page; else the pager searches the backing map of its tenant: a refusing entry faults XLATE; no entry, an entry
that escalates, and an empty free-frame queue post ESCALATE; else a frame is taken and its fill begins.
The model's choice where the spec is silent: log 22. -/
def Sys2Proof.Claims.PagerTokensAreServed : Prop :=
  ∀ (s : State) (d n h : Nat) (f : FaultTok), mget (s.die d).faults n = some f → f.stage = .queued → s.heldDie d = false →
    (∀ m g, mergeWith (s.die d) n f = some (m, g) → mget (s.die d).faults m = some g → m ≠ n →
      ∃ u ws, exec (.pagerToken d n) s = .next u ∧ u.mem = s.mem ∧ mget (u.die d).faults n = none ∧
        mget (u.die d).faults m = some { g with waiters := ws } ∧ ∀ w, w ∈ ws ↔ w ∈ g.waiters ∨ w ∈ f.waiters) ∧
    (mergeWith (s.die d) n f = none →
    let map := s.reg (0x4008 + 0x20 * f.tenant) / 32 % 2 ^ 52 * 32
    let count := s.reg (0x4010 + 0x20 * f.tenant) % 2 ^ 24
    let base (k : Nat) : Nat := readLE s.mem (map + 32 * k) 8
    let len (k : Nat) : Nat := readLE s.mem (map + 32 * k + 8) 8
    let bits (k : Nat) : Nat := readLE s.mem (map + 32 * k + 16) 2
    let src (k : Nat) : Nat := readLE s.mem (map + 32 * k + 24) 8
    let good (k : Nat) : Prop := base k % 65536 = 0 ∧ len k % 65536 = 0 ∧ bits k < 2 ^ 10 ∧ readLE s.mem (map + 32 * k + 18) 6 = 0 ∧
      (if bits k % 4 = 1 then src k % 65536 = 0 else src k = 0)
    let contains (k : Nat) : Prop := k < count ∧ base k ≤ f.page ∧ f.page < base k + len k
    let escalates : Prop := ∃ u : State, exec (.pagerToken d n) s = .next u ∧ u.mem = s.mem ∧
      mget (u.die d).faults n = some { f with stage := .escalated } ∧
      ∃ va, posted u (.sup d) (recordOf 5 0 0 f.tenant 0xFFFF 0xFFFF 0 n (s.die d).clk va)
    0 < count → regionOf map = .dev h → regionOf (map + 32 * count - 1) = .dev h →
    (∀ i j, i < j → j < count → base i + len i ≤ base j) → (∀ k, k < count → s.lineOpen d (lineOf (map + 32 * k)) = true) →
    ((∀ k, ¬ contains k) → escalates) ∧
    (∀ k, contains k → ¬ good k ∨ bits k % 4 = 2 → escalates) ∧
    (∀ k, contains k → good k → bits k % 4 = 3 → failsAlone s (.pagerToken d n) f.waiters 0x03
      ((f.waiters.head?.map (fun w => s.waiterVa w f.page)).getD 0)) ∧
    (∀ k at_, contains k → good k → bits k % 4 < 2 → s.leafPlace d f.tenant f.page = .place at_ →
      let q := bits k / 128 % 8
      (s.freeFramesOf q = 0 → escalates) ∧
      (let ring := s.reg (dsReg q 0x430) + 4 * ((s.die q).freeTaken % s.freeRing q)
       let frame := readLE s.mem ring 4
       s.freeFramesOf q ≠ 0 → s.lineOpen d (lineOf ring) = true → inRegion (frame * 65536) 65536 = true →
        ∃ (u : State) (leaf : Nat) (from_ : Option Nat), exec (.pagerToken d n) s = .next u ∧ u.mem = s.mem ∧
          (u.die q).freeTaken = ((s.die q).freeTaken + 1) % 2 ^ 32 ∧
          leaf = 3 + 4 * (bits k / 16 % 8) + 32 * (bits k / 4 % 4) + frame * 65536 ∧
          from_ = (if bits k % 4 = 1 then some (src k + (f.page - base k)) else none) ∧
          mget (u.die d).faults n = some { f with stage := .filling frame q at_ leaf from_ })))

/-- R247, R356, R357: a completed fill leaves zeros or the copied page in its frame, each line's version advanced; the
level-4 entry is written only where it is still invalid, else a FRAME record names the frame; the requesters walk again. A
reply to an escalated token has them walk again, or fault XLATE.
The model's choice where the spec is silent: log 22. -/
def Sys2Proof.Claims.PagerFillsAndReplies : Prop :=
  ∀ (s : State) (d n : Nat) (f : FaultTok), mget (s.die d).faults n = some f → f.page % 65536 = 0 →
    (∀ frame home at_ leaf src, f.stage = .filling frame home at_ leaf src → s.heldDie d = false → s.heldDie home = false →
      (∀ i, i < 512 → s.lineOpen d (512 * frame + i) = true) → (∀ a, src = some a → ∀ i, i < 512 → s.lineOpen d (a / 128 + i) = true) →
      s.lineOpen d (at_ / 128) = true → (∀ a, src = some a → s.poisonAt a 65536 = false) → s.memoryOk → leaf < 2 ^ 64 → at_ % 8 = 0 →
      at_ < frame * 65536 ∨ (frame + 1) * 65536 ≤ at_ →
      let invalid : Prop := readLE s.mem at_ 8 % 2 = 0
      ∃ u : State, exec (.pagerFillComplete d n) s = .next u ∧ mget (u.die d).faults n = none ∧ walking u d f.tenant f.page f.waiters ∧
        (readBytes u.mem (frame * 65536) 65536 = match src with
          | some a => readBytes s.mem a 65536
          | none => List.replicate 65536 0) ∧
        (invalid → readLE u.mem at_ 8 = leaf) ∧
        (¬ invalid → readLE u.mem at_ 8 = readLE s.mem at_ 8 ∧
          posted u (.sup d) (recordOf 9 0 0 f.tenant 0xFFFF 0xFFFF 0 0 (s.die d).clk frame)) ∧
        (∀ x, (x < frame * 65536 ∨ (frame + 1) * 65536 ≤ x) → (x < at_ ∨ at_ + 8 ≤ x) → readByte u.mem x = readByte s.mem x) ∧
        ∀ i, i < 512 → versioned (512 * frame + i) = true →
          (u.sideOf (512 * frame + i)).ver = ((s.sideOf (512 * frame + i)).ver + 1) % 2 ^ 56) ∧
    (f.stage = .escalated →
      (∃ u : State, exec (.pagerReplyRetry d n) s = .next u ∧ u.mem = s.mem ∧ mget (u.die d).faults n = none ∧
        walking u d f.tenant f.page f.waiters) ∧
      failsAlone s (.pagerReplyFail d n) f.waiters 0x03 ((f.waiters.head?.map (fun w => s.waiterVa w f.page)).getD 0)) ∧
    (f.stage ≠ .escalated → exec (.pagerReplyRetry d n) s = .next s ∧ exec (.pagerReplyFail d n) s = .next s)

/-- R135, R138, R216, R296: a corrected error changes nothing but its count, and where the row's descriptor reads as a code that is
not produced, its group is poisoned; an uncorrectable one poisons the data or the version
of its line, its word, unit or element, or its register group; a clean window line leaves; a line of an atomic line buffer
goes back poisoned.
The model's choice where the spec is silent: log 23. -/
def Obligations.SoftErrorsPoison : Prop :=
  ∀ (s : State) (u : SoftUnit) (a : Nat),
    (u ≠ .lvsRow → ∃ t : State, exec (.softError u a true) s = .next t ∧ t.mem = s.mem ∧ t.side = s.side ∧ t.poisoned = s.poisoned ∧ t.cores = s.cores) ∧
    (let c := a / 2 ^ 45
     let sl := a / 2 ^ 32 % 8192
     (s.thread c sl).st ≠ .empty → ∃ t : State, exec (.softError .lvsRow a true) s = .next t ∧ t.mem = s.mem ∧
       (t.thread c sl).regs = (s.thread c sl).regs ∧ (t.thread c sl).poison = (s.thread c sl).poison ∧
       ∀ g, g < 8 → 4 < a / 16 ^ g % 16 → a % 2 ^ 32 ≠ lvsDescriptor (s.thread c sl).regs → g ∈ (t.liveFile c sl).2) ∧
    (let c := a / 2 ^ 45
     let sl := a / 2 ^ 32 % 8192
     (s.thread c sl).st ≠ .empty → ∃ t : State, exec (.softError .lvsRow a false) s = .next t ∧ t.mem = s.mem ∧
       (t.thread c sl).regs = (s.thread c sl).regs ∧ ∀ g, g < 8 → g ∈ (t.thread c sl).poison) ∧
    (versioned (a / 128) = true →
      (∃ t : State, exec (.softError .hbmData a false) s = .next t ∧ t.mem = s.mem ∧ t.sideOf (a / 128) = { s.sideOf (a / 128) with dp := true }) ∧
      (∃ t : State, exec (.softError .sidecar a false) s = .next t ∧ t.mem = s.mem ∧ t.sideOf (a / 128) = { s.sideOf (a / 128) with vp := true })) ∧
    (∀ e ∈ [(SoftUnit.coreScratch, 4), (.dieScratch, 16), (.operandBuffer, 8), (.accumulator, 4)],
      ∃ t : State, exec (.softError e.1 a false) s = .next t ∧ t.mem = s.mem ∧ t.side = s.side ∧
        ∀ x, x ∈ t.poisoned ↔ x ∈ s.poisoned ∨ x = (e.1, a / e.2 * e.2)) ∧
    (let c := a / 65536
     let sl := a / 8 % 8192
     (s.thread c sl).st ≠ .empty → ∃ t : State, exec (.softError .lvs a false) s = .next t ∧ a % 8 ∈ (t.thread c sl).poison ∧
       (t.thread c sl).regs = (s.thread c sl).regs ∧ t.mem = s.mem) ∧
    (∀ c b port vl l, keyed s.cores → keyed (s.core c).wgs → keyed (s.wg c b).windows →
      keyed (mgetD (s.wg c b).windows port {}).lines → mget s.cores c ≠ none → mget (s.core c).wgs b ≠ none →
      mget (mgetD (s.wg c b).windows port {}).lines vl = some l → l.pline = a / 128 → l.dirty = false →
      ∃ t : State, exec (.softError .window a false) s = .next t ∧
        ∀ l', mget (mgetD (t.wg c b).windows port {}).lines vl = some l' → l'.valid = false) ∧
    (∀ c l xs ys, keyed s.cores → mget s.cores c ≠ none → (s.core c).alb = xs ++ l :: ys → (∀ m ∈ xs, m.line ≠ l.line) →
      l.line = a / 128 → l.data.length = 128 → (∀ e ∈ s.cores, e.1 ≠ c → ∀ m ∈ e.2.alb, m.line ≠ l.line) → s.memoryOk →
      ∃ t : State, exec (.softError .lineBuffer a false) s = .next t ∧ readBytes t.mem (l.line * 128) 128 = l.data ∧
        sameOutside s t (l.line * 128) 128 ∧ (mgetD t.l2 l.line {}).owner = none ∧ (∀ m ∈ (t.core c).alb, m.line ≠ l.line) ∧
        (versioned l.line = true → t.sideOf l.line = { s.sideOf l.line with ver := l.ver, dp := true }))
/-- R43, R44, R103, R120, R140, R297, R298, R311: a latch's data token enters its edge while the edge has a free entry, an edge
that every copy shares where its consumer stands on an edge tile; it waits in its operand slot, at a stream node in a group
entry of the tile's compaction queue, stays at the head where it completes its match or that queue is full, and is a tag error
or a second token of its input where it does not belong. -/
def Sys2Proof.Claims.TokensReachTheirStations : Prop :=
  ∀ (s : State) (c el k : Nat) (tk : Tok), mget (s.core c).latch (2 * el + k) = some tk → tk.kind = .data →
    let x := s.inst c tk.inst
    let lane := tk.slot % x.width
    let idx := tk.dst / 4
    let key := (if edgeEntry (s.image x.img) x.blk idx = true then lane % 8 else lane) * 256 + tk.edge
    let depth := edgeDepth (s.image x.img) x.blk (tk.edge / 2) (tk.edge % 2)
    let a : Agent := .fab c tk.slot
    let enters (m : State → Prop) : Prop := ∃ u, exec (.tokenAccept c el k) s = .next u ∧ mget (u.core c).latch (2 * el + k) = none ∧
      u.mem = s.mem ∧ m u
    (s.stopped a = true ∨ depth ≤ (mgetD x.edges key []).length → exec (.tokenAccept c el k) s = .next s) ∧
    (∀ p, s.stopped a = false → 0 < depth → mgetD x.edges key [] = [] → tk.edge < 256 → (s.thread c tk.slot).pass = some p →
      p.inst = some tk.inst → p.lane = lane → p.frame = tk.frame → p.gen = tk.gen →
      let gen := (mgetD x.ftab (lane * 1024 + tk.frame) {}).gen
      let others : Prop := ∃ e ∈ x.edges, e.1 ≠ key ∧ ∃ v rest, e.2 = v :: rest ∧ v.kind = .data ∧ v.slot = tk.slot ∧ v.dst = tk.dst
      (∀ i, gen = tk.gen → ¬ others → idx ∉ p.fired → mget p.opnd tk.dst = none → instrAt (s.block p.img p.blk) idx = some i →
        isNode i = true →
        let tile := tileOf (s.image x.img) x idx lane
        let entry := takeGroup (s.core c) (tile.2 * 16 + tile.1) { inst := tk.inst, round := p.round, idx, base := tk.slot - tk.slot % p.width }
        (entry = none → enters fun u => mgetD (u.inst c tk.inst).edges key [] = [tk] ∧ (u.thread c tk.slot).pass = some p) ∧
        (∀ m, entry = some m → enters fun u => mgetD (u.inst c tk.inst).edges key [] = [] ∧ (u.core c).compact = m ∧
          (u.thread c tk.slot).pass = some { p with opnd := mput p.opnd tk.dst tk.data })) ∧
      (∀ i, gen = tk.gen → ¬ others → idx ∉ p.fired → mget p.opnd tk.dst = none → instrAt (s.block p.img p.blk) idx = some i →
        isNode i = false →
        let waits : Prop := ∃ f ∈ allInputs i, opKey idx f ≠ tk.dst ∧ s.operand a p (opKey idx f) = none
        (waits → enters fun u => mgetD (u.inst c tk.inst).edges key [] = [] ∧
          (u.thread c tk.slot).pass = some { p with opnd := mput p.opnd tk.dst tk.data }) ∧
        (¬ waits → enters fun u => mgetD (u.inst c tk.inst).edges key [] = [tk] ∧ (u.thread c tk.slot).pass = some p)) ∧
      (MayPark s a c tk.slot → p.two = false → gen ≠ tk.gen → enters fun u => (u.thread c tk.slot).st = .parked ∧
        ∃ pk, (u.thread c tk.slot).park = some pk ∧ pk.code = 0x08 ∧ pk.idx = none ∧ pk.partialAt = none ∧ pk.addr = 0) ∧
      (MayPark s a c tk.slot → p.two = false → gen = tk.gen → idx ∈ p.fired ∨ mget p.opnd tk.dst ≠ none ∨ others →
        enters fun u => (u.thread c tk.slot).st = .parked ∧
          ∃ pk, (u.thread c tk.slot).park = some pk ∧ pk.code = 0x0A ∧ pk.idx = some idx ∧ pk.partialAt = none ∧ pk.addr = 0))

/-- R50 to R52, R59, R333: a station of a retiring instance emits the switch, a token for every consumer, once every input holds
it and nothing of the old configuration is left to fire there; with the last station's switch, no token on its way and no held
frame the instance is gone and every blocked bit of its core is clear. A station that holds an end-of-stream token on every
input passes it on.
The model's choice where the spec is silent: log 68. -/
def Sys2Proof.Claims.SwitchTokensRetireInstances : Prop :=
  ∀ (s : State) (c i idx lane : Nat),
    let x := s.inst c i
    let ws := s.block x.img x.blk
    let stations := stationCodes (s.image x.img) x
    let may : Prop := 128 * idx + lane ∉ x.switched ∧ 128 * idx + lane ∈ stations ∧ s.switchReady c i idx lane = true
    let idle : Prop := (∀ f ∈ x.ftab, f.2.slot = none) ∧ (∀ e ∈ (s.core c).latch, e.2.inst ≠ i) ∧
      ∀ e ∈ x.edges, e.1 ∈ inputKeys ws idx lane ∧ e.2.length = 1
    let sent (u : State) (ins : Instr) (kind : TokKind) : Prop := ∀ n f j, n < 2 → (targetsOf ins).getD n .none = .to f j →
      ∃ tk, mget (u.core c).latch (2 * s.element c i idx lane + n) = some tk ∧ tk.kind = kind ∧ tk.dst = opKey j.toNat f ∧
        tk.edge = 2 * idx + n ∧ tk.inst = i
    (s.heldCore c = true → exec (.switchToken c i idx lane) s = .next s) ∧
    (s.eosReady c i idx lane = none → x.retiring = false → exec (.switchToken c i idx lane) s = .next s) ∧
    (s.eosReady c i idx lane = none → s.heldCore c = false → ¬ may → x.switched.length ≠ stations.length →
      exec (.switchToken c i idx lane) s = .next s) ∧
    (∀ ins tag, s.eosReady c i idx lane = some tag → s.heldCore c = false → x.retiring = false → instrAt ws idx = some ins →
      ∃ u : State, exec (.switchToken c i idx lane) s = .next u ∧ u.mem = s.mem ∧ sent u ins (.eos tag) ∧
        ∀ e ∈ (u.inst c i).eosDue, e.1 = tag → 128 * idx + lane ∉ e.2) ∧
    (∀ ins, s.eosReady c i idx lane = none → x.retiring = true → s.heldCore c = false → may → instrAt ws idx = some ins →
      (x.switched.length + 1 ≠ stations.length → ∃ u : State, exec (.switchToken c i idx lane) s = .next u ∧ u.mem = s.mem ∧
        (u.inst c i).switched = x.switched ++ [128 * idx + lane] ∧ sent u ins .switch ∧
        ∀ j, j ≠ i → (u.inst c j).switched = (s.inst c j).switched) ∧
      (x.switched.length + 1 = stations.length → idle → (∀ tg ∈ targetsOf ins, tg = .none) → ∃ u : State, exec (.switchToken c i idx lane) s = .next u ∧ u.mem = s.mem ∧
        mget (u.core c).insts i = none ∧ ∀ e ∈ (u.core c).entries, e.2.blocked = false))

/-- R36: the conditions of admission in their order: the first that fails names what the thread waits for.
The model's choice where the spec is silent: log 19. -/
def Sys2Proof.Claims.AdmissionConditions : Prop :=
  ∀ (s : State) (c t : Nat) (ws : List W32),
    let hdr := ((clausesOf ws).head?.map (·.hdr)).getD 0
    let q := hdr % 16
    let open_ (n : Nat) : Prop := (mgetD (s.thread c t).wait n {}).val ≤ s.timeline (mgetD (s.thread c t).wait n {}).ctx
    let waits : Prop := ∀ n, n < 8 → hdr / 2 ^ (8 + n) % 2 = 1 → open_ n
    let sl := s.sluice c t q
    let pushes := pushesOf (instrsOf ws) q
    let pops := popsOf (instrsOf ws) q
    let sluiceOk : Prop := hdr / 2 ^ 7 % 2 = 1 → pushes ≤ sl.allow ∧ sl.entries.length + sl.pushRsv + pushes ≤ sl.depth ∧
      pops ≤ (sl.entries.filter (·.rsv.isNone)).length
    let lsqOk : Prop := hdr / 2 ^ 5 % 2 = 1 → s.lsqClear c t = true
    let barOk : Prop := hdr / 2 ^ 4 % 2 = 1 → ∀ o, s.barrier c t q = some o → mget (s.thread c t).arrivals q ≠ some o.phase
    (¬ waits → ∃ n, n < 8 ∧ hdr / 2 ^ (8 + n) % 2 = 1 ∧ ¬ open_ n ∧ s.admission c t ws =
      .held s (.timeline (mgetD (s.thread c t).wait n {}).ctx (mgetD (s.thread c t).wait n {}).val)) ∧
    (waits → ¬ sluiceOk → s.admission c t ws = .held s (.sluice q)) ∧
    (waits → sluiceOk → ¬ barOk → s.admission c t ws = .held s (.barrier q)) ∧
    (waits → sluiceOk → barOk → ¬ lsqOk → s.admission c t ws = .held s .lsq) ∧
    (waits → barOk → lsqOk → hdr / 2 ^ 7 % 2 = 0 → s.sendsOf c t ws = [] → s.admission c t ws = .ok s []) ∧
    (∀ u rsv, waits → sluiceOk → barOk → lsqOk → hdr / 2 ^ 7 % 2 = 1 → s.sendsOf c t ws = [] → s.admission c t ws = .ok u rsv →
      mgetD rsv q 0 = pushes ∧ (u.sluice c t q).allow = sl.allow - pushes ∧ (u.sluice c t q).pushRsv = sl.pushRsv + pushes ∧
      ((u.sluice c t q).entries.map (·.handle)) = sl.entries.map (·.handle) ∧
      ((u.sluice c t q).entries.filter (·.rsv.isNone)).length + pops = (sl.entries.filter (·.rsv.isNone)).length) ∧
    (∀ r rest, waits → barOk → lsqOk → hdr / 2 ^ 7 % 2 = 0 → s.sendsOf c t ws = r :: rest → s.takeUnit c t r = none → r < 100000 →
      s.admission c t ws = .held s (.reserve r))

/-- R34 to R39, R43, R53, R132, R143: the next thread of a round in its lane takes the lowest free frame, whose generation goes up, and
begins its pass with the round's constants; where a condition fails it becomes Held with that condition and leaves the round;
without a free frame, or while retiring instances still hold the lane on every tile of its copy, its lane stalls.
The model's choice where the spec is silent: logs 18 and 19. -/
def Sys2Proof.Claims.ThreadsAreAdmitted : Prop :=
  ∀ (s : State) (c i lane rk t : Nat) (rest : List Nat),
    let x := s.inst c i
    let r := s.round c rk
    x.admitting = some rk → r.pending.filter (fun t => t % x.width = lane) = t :: rest → t ∉ (s.core c).entryWait → Keyed s c →
    let next (m : State → Prop) : Prop := ∃ u : State, exec (.threadAdmission c i lane) s = .next u ∧
      (∀ r', mget (u.core c).rounds rk = some r' → t ∉ r'.pending) ∧ m u
    (s.heldCore c = true ∨ (s.gang (s.gangOf c t)).frozen ≠ .no ∨ s.laneOpen c i lane = false →
      exec (.threadAdmission c i lane) s = .next s) ∧
    (s.heldCore c = false → (s.gang (s.gangOf c t)).frozen = .no → s.laneOpen c i lane = true →
      ((s.thread c t).st ≠ .waiting → next fun u => u.mem = s.mem ∧
        ∀ r', mget (u.core c).rounds rk = some r' → t ∈ r'.left ∧ t ∈ r'.missed) ∧
      ((s.thread c t).st = .waiting → (∀ f, f < x.frames → (mgetD x.ftab (lane * 1024 + f) {}).slot ≠ none) →
        exec (.threadAdmission c i lane) s = .next s) ∧
      (∀ f, (s.thread c t).st = .waiting → f < x.frames → (mgetD x.ftab (lane * 1024 + f) {}).slot = none →
        (∀ g, g < f → (mgetD x.ftab (lane * 1024 + g) {}).slot ≠ none) →
        (∀ u h, s.admission c t (s.block x.img x.blk) = .held u h → next fun u =>
          (u.thread c t).st = .held h ∧ (u.thread c t).age = 0 ∧ (u.thread c t).pass = (s.thread c t).pass ∧
          ∀ r', mget (u.core c).rounds rk = some r' → t ∈ r'.left ∧ t ∈ r'.missed) ∧
        (∀ u rsv, s.admission c t (s.block x.img x.blk) = .ok u rsv → next fun u =>
          let gen := ((mgetD x.ftab (lane * 1024 + f) {}).gen + 1) % 512
          u.mem = s.mem ∧ mget (u.inst c i).ftab (lane * 1024 + f) = some { gen, slot := some t, round := rk } ∧
          (u.thread c t).st = .admitted ∧ ∃ p, (u.thread c t).pass = some p ∧ p.img = x.img ∧ p.blk = x.blk ∧ p.inst = some i ∧
            p.round = rk ∧ p.roundNo = r.number ∧ p.width = x.width ∧ p.lane = lane ∧ p.frame = f ∧ p.gen = gen ∧
            p.consts = r.consts ∧ p.live = some (s.liveFile c t) ∧ p.fired = [] ∧ p.opnd = [] ∧ p.ops = [] ∧ p.lvw = [] ∧ p.branch = none ∧ p.rsv = rsv)))

/-- R327, R331, R332: the entry a decision chooses is a candidate: among urgent ones the first to become so, else one of the
greatest score, ties going to the lower index; and some role of a workgroup stays nameable, the one skipped most.
The model's choice where the spec is silent: log 51. -/
def Sys2Proof.Claims.DecisionsChooseTheRightEntry : Prop :=
  (∀ (s : State) (c : Nat),
    let age (e : SEntry) : Nat := s.oldestAge c e
    let since (e : SEntry) : Nat := e.urgentSince.getD (s.core c).decision
    let score (e : SEntry) : Nat := (s.members c e).length * (1 + age e) * (if (s.resident c e).isSome then 2 else 1)
    let cand (e : Nat × SEntry) : Prop := e ∈ (s.core c).entries ∧ s.members c e.2 ≠ [] ∧ e.2.blocked = false ∧
      (s.gang (s.wg c (e.2.wg * 128)).gang).frozen = .no ∧ (∀ x ∈ s.instsOf c e.2, x.2.admitting = none) ∧
      skipsOk (skipsAfter (s.waitingRoles c e.2.wg) (s.wg c (e.2.wg * 128)).skips e.2.role) = true
    (s.core c).entries.Pairwise (fun e f => e.1 < f.1) →
    (s.choose c = none ↔ ∀ e, ¬ cand e) ∧
    (∀ i e urgent, s.choose c = some (i, e, urgent) → cand (i, e) ∧
      (urgent = true → 48 ≤ age e ∧ ∀ f, cand f → 48 ≤ age f.2 → since e ≤ since f.2 ∧ (since e = since f.2 → i ≤ f.1)) ∧
      (urgent = false → ∀ f, cand f → age f.2 < 48 ∧ score f.2 ≤ score e ∧ (score f.2 = score e → i ≤ f.1)))) ∧
  (∀ (n : List Nat) (waiting : List Nat) (x : Nat), n.length = 4 → skipsOk n = true → x < 4 → x ∈ waiting →
    (∀ r, r < 4 → r ∈ waiting → n.getD r 0 ≤ n.getD x 0) →
    skipsOk (skipsAfter waiting n x) = true ∧ (skipsAfter waiting n x).length = 4 ∧
      ∀ r, r < 4 → (skipsAfter waiting n x).getD r 0 = if r = x ∨ r ∉ waiting then 0 else n.getD r 0 + 1)

/-- R34, R40, R143, R200, R330, R331, R333: a decision for a resident block forms a round of its entry's members, of which a
round-collective block takes the lowest F of each lane, numbers it, begins its admission with the constants as they stand,
and ages the threads it leaves behind. An entry whose block has no place, where no instance makes room for it, is blocked. -/
def Sys2Proof.Claims.DecisionsFormRounds : Prop :=
  ∀ (s : State) (c : Nat),
    (s.heldCore c = true ∨ (s.core c).cfgReq ≠ none → exec (.schedulingDecision c) s = .next s) ∧
    (∀ i e urgent, s.heldCore c = false → (s.core c).cfgReq = none → s.sweepEntries c = s → s.choose c = some (i, e, urgent) →
      s.resident c e = none → (s.core c).entries.Pairwise (fun e f => e.1 < f.1) →
      let im := s.image (s.launch (s.entrySeq c e)).img
      s.instancePlace c im e.blk = none → s.roomSoon c im e.blk = false → s.victim c urgent = none →
      ∃ u : State, exec (.schedulingDecision c) s = .next u ∧ u.mem = s.mem ∧ (u.core c).decision = (s.core c).decision ∧
        mget (u.core c).entries i = some { e with blocked := true }) ∧
    (∀ i e urgent n, s.heldCore c = false → (s.core c).cfgReq = none → s.sweepEntries c = s → s.choose c = some (i, e, urgent) →
      s.resident c e = some n → Keyed s c → (s.core c).entries.Pairwise (fun e f => e.1 < f.1) → (∀ y ∈ (s.core c).threads, y.2.yieldPending = false) →
      let im := s.image (s.launch (s.entrySeq c e)).img
      let ms := s.members c e
      let rk := (s.core c).decision
      let wd := (im.places.getD e.blk {}).width
      ∃ (u : State) (r : Round), exec (.schedulingDecision c) s = .next u ∧ u.mem = s.mem ∧ (u.core c).decision = rk + 1 ∧
        mget (u.core c).rounds rk = some r ∧ r.wg = e.wg ∧ r.role = e.role ∧ r.inst = n ∧ r.pending = r.snapshot ∧
        r.number = (rk - (s.wg c (e.wg * 128)).decBase) % 2 ^ 32 ∧
        (blockFlag (im.blocks.getD e.blk []) 1 = false → r.snapshot = ms) ∧
        (blockFlag (im.blocks.getD e.blk []) 1 = true → ∀ t, t ∈ r.snapshot ↔ t ∈ ms ∧
          (ms.filter (fun v => v % wd = t % wd && v < t)).length < frameCount im e.blk) ∧
        r.consts = boundConsts (s.image (s.inst c n).img) (s.gang (s.wg c (e.wg * 128)).gang) (s.inst c n).blk ∧
        (u.inst c n).admitting = some rk ∧ (u.inst c n).lru = rk ∧
        (∀ t, (s.thread c t).st = .waiting → t ∈ r.snapshot → (u.thread c t).age = (s.thread c t).age) ∧
        (∀ f ∈ (s.core c).entries, ∀ t ∈ s.members c f.2, t ∉ r.snapshot → (u.thread c t).age = min 127 ((s.thread c t).age + 1)))

/-- R20, R23, R24, R51, R120, R121, R123, R333, R335: the origin of an instance is the first in row-major order at which every
tile is an ALU tile that no instance holds but a retiring one; the idle control core stages and checks the instance a decision
waits for, and its round begins; a tile that rejects its words posts CFGREJECT, and the decision counts as none; without a
place the least recently admitted instance retires.
The model's choice where the spec is silent: logs 18 and 51. -/
def Sys2Proof.Claims.InstancesAreConfigured : Prop :=
  (∀ (s : State) (c blk : Nat) (im : Image), (placeOf im blk).fw ≠ 0 →
    let p := placeOf im blk
    let taken := ((s.core c).insts.filter (fun e => !e.2.retiring)).flatMap (fun e => instTiles (s.image e.2.img) e.2)
    let free (t : Nat × Nat) : Prop := t.1 < 16 ∧ 1 ≤ t.2 ∧ t.2 ≤ 8 ∧ mget s.fuses c ≠ some t ∧ t ∉ taken ∧
      ¬ (c % 16 = 0 ∧ 12 ≤ t.1 ∧ 7 ≤ t.2)
    let fits (n : Nat) : Prop := ∀ o ∈ bandsFrom p (mget s.fuses c) (n % 16, n / 16 + 1), ∀ t ∈ copyTiles p o, free t
    (s.findOrigin c im blk = none ↔ ∀ n, n < 128 → ¬ fits n) ∧
    ∀ os, s.findOrigin c im blk = some os → ∃ n, n < 128 ∧ fits n ∧ (∀ m, m < n → ¬ fits m) ∧
      os = bandsFrom p (mget s.fuses c) (n % 16, n / 16 + 1)) ∧
  (∀ (s : State) (c rk j : Nat) (e : SEntry), (s.core c).cfgReq = some rk → (s.core c).entries.find? (fun e => e.2.snap = some rk) = some (j, e) →
    let seq := (s.gang (s.wg c (e.wg * 128)).gang).seq
    let im := s.image (s.launch seq).img
    let rejects (slot : Nat) (os : List (Nat × Nat × Option Nat)) : Prop :=
      ∃ a ∈ stageAreas c slot im { blk := e.blk, origins := os }, a.2.st = .rejected
    let none_ (u : State) : Prop := (u.core c).insts = (s.core c).insts ∧ (u.core c).decision = rk ∧ (u.core c).cfgReq = none ∧
      mget (u.core c).rounds rk = none ∧ (∃ e', mget (u.core c).entries j = some e' ∧ e'.snap = none ∧ e'.blocked = true ∧ e'.blk = e.blk) ∧
      ∀ t n, mget (s.core c).cfgWait.ages t = some n → (s.thread c t).st = .waiting → (s.thread c t).age = min 127 (n + 1) →
        (u.thread c t).age = n
    (s.heldCore c = true ∨ (s.core c).cc ≠ .idle ∨ s.rareWaited c = true → exec (.configurationLoad c) s = .next s) ∧
    (s.heldCore c = false → (s.core c).cc = .idle → s.rareWaited c = false →
      (∀ slot os st, s.instancePlace c im e.blk = some (slot, os, st) → rejects slot os → (s.core c).entries.Pairwise (fun e f => e.1 < f.1) →
        ∃ (u : State) (r : Rec), exec (.configurationLoad c) s = .next u ∧ u.mem = s.mem ∧ none_ u ∧ r.toNat % 256 = 7 ∧ posted u (.ctl c) r) ∧
      (∀ slot os st, s.instancePlace c im e.blk = some (slot, os, st) → ¬ rejects slot os →
        (∃ (u : State) (x : Inst), exec (.configurationLoad c) s = .next u ∧ u.mem = s.mem ∧ mget (s.core c).insts slot = none ∧
          mget (u.core c).insts slot = some x ∧ x.img = (s.launch seq).img ∧ x.blk = e.blk ∧ x.width = (placeOf im e.blk).width ∧
          x.frames = frameCount im e.blk ∧ x.origins = os ∧ x.stations = st ∧ x.seq = seq ∧ x.admitting = some rk ∧
          x.retiring = false ∧ (u.core c).cfgReq = none ∧
          ∀ q ∈ instPlaces x (crcWords im e.blk), ∃ a, mget (u.core c).active ((q.2.2.2 * 16 + q.2.2.1) * 8 + slot) = some a ∧ a.st = .checked)) ∧
      (s.instancePlace c im e.blk = none → s.roomSoon c im e.blk = true → exec (.configurationLoad c) s = .next s) ∧
      (∀ v, s.instancePlace c im e.blk = none → s.roomSoon c im e.blk = false →
        s.victim c (s.core c).cfgWait.urgent = some v → ∃ u : State, exec (.configurationLoad c) s = .next u ∧ u.mem = s.mem ∧
          u.inst c v = { s.inst c v with retiring := true } ∧ ∀ k, k ≠ v → u.inst c k = s.inst c k) ∧
      (s.instancePlace c im e.blk = none → s.roomSoon c im e.blk = false →
        s.victim c (s.core c).cfgWait.urgent = none → (s.core c).entries.Pairwise (fun e f => e.1 < f.1) →
        ∃ u : State, exec (.configurationLoad c) s = .next u ∧ u.mem = s.mem ∧ none_ u)))

/-- R23, R54, R55: an idle control core starts the rare pass of the oldest XPATH record whose gang is not frozen, once the
conditions of R36 hold for its thread, or leaves the thread Held. -/
def Sys2Proof.Claims.RarePassesStart : Prop :=
  ∀ (s : State) (c : Nat),
    ((s.core c).cc ≠ .idle → exec (.rarePassStart c) s = .next s) ∧
    (∀ xs r ys, (s.core c).cc = .idle → (s.core c).evq = xs ++ r :: ys → (s.core c).evHeld = [] → r.toNat % 256 = 1 →
      (∀ e ∈ xs, e.toNat % 256 = 1 → (s.gang (s.gangOf c (e.toNat / 2 ^ 48 % 2 ^ 16))).frozen ≠ .no) →
      let t := r.toNat / 2 ^ 48 % 2 ^ 16
      (s.gang (s.gangOf c t)).frozen = .no →
      ((s.thread c t).st ≠ .rare → ∃ u : State, exec (.rarePassStart c) s = .next u ∧ (u.core c).evq = xs ++ ys ∧ u.mem = s.mem ∧
        (u.core c).cc = .idle ∧ u.thread c t = s.thread c t) ∧
      ((s.thread c t).st = .rare → ∀ v, v = (s.setCore c { s.core c with
          evq := xs ++ ys, evHeld := [], waited := (s.core c).waited.filter (· != t) }).setWindows c (s.base c t) →
        let ws := s.block (s.imgOf c t) (s.thread c t).blk
        (∀ w h, v.admission c t ws = .held w h → ∃ u : State, exec (.rarePassStart c) s = .next u ∧ (u.thread c t).st = .held h ∧
          (u.thread c t).age = 0 ∧ (u.core c).cc = .idle) ∧
        (∀ w rsv, v.admission c t ws = .ok w rsv → ∃ u p, exec (.rarePassStart c) s = .next u ∧ (u.core c).cc = .rare t ∧ u.mem = s.mem ∧
          (u.thread c t).st = .rare ∧ (u.thread c t).pass = some p ∧ p.inst = none ∧ p.img = s.imgOf c t ∧
          p.blk = (s.thread c t).blk ∧ p.live = some (s.liveFile c t) ∧ p.rsv = rsv ∧ p.fired = [] ∧ p.opnd = [])))
/-- R197, R201, R271: a round with an MTX clause seals once every member of its active set has its outputs but the matrix
unit's and a decided part in every MTX instruction: every member enters phase two, and the seal joins the core's, behind those
before it. Before that, a member that is ready and not violated has completed phase one, and what has not reached its stations
is decided for the others. -/
def Sys2Proof.Claims.RoundsSealOnce : Prop :=
  ∀ (s : State) (c rk : Nat),
    let r := s.round c rk
    let x := s.inst c r.inst
    let ws := s.block x.img x.blk
    let gives (u : Nat) (p : Pass) := s.mtxFeeds c r.activeSet ws u p
    let ready (u : Nat) : Prop := ∃ p, s.roundPass c rk u = some p ∧ p.two = false ∧
      s.outputsDone (.fab c u) ws p (gives u p) = true ∧ s.readsBack (.fab c u) ws p = true ∧
      s.mtxDecided (.fab c u) p = true ∧ (s.gang (s.gangOf c u)).frozen = .no
    let may : Prop := s.heldCore c = false ∧ r.activeSet ≠ [] ∧ hasMtx ws = true
    let all : Prop := may ∧ r.pending = [] ∧ x.admitting ≠ some rk ∧ ∀ u ∈ r.activeSet, ready u
    (¬ may → exec (.roundSeal c rk) s = .next s) ∧
    (may → ¬ all → ∃ u : State, exec (.roundSeal c rk) s = .next u ∧ u.mem = s.mem ∧ u.regs = s.regs ∧
      (u.core c).seals = (s.core c).seals ∧ (∀ t, u.thread c t = s.thread c t) ∧ (∀ d, d ≠ c → u.core d = s.core d) ∧
      ∀ t, t ∈ (u.round c rk).done ↔ t ∈ r.done ∨ t ∈ r.activeSet ∧ ready t ∧ ∀ p, s.roundPass c rk t = some p → p.violated = false) ∧
    (all → (∀ u ∈ r.activeSet, ∀ p, s.roundPass c rk u = some p → p.violated = false ∧
        lvwTwice p (lvwFeeds ws p ++ gives u p) = none) →
      ∃ u : State, exec (.roundSeal c rk) s = .next u ∧ u.mem = s.mem ∧ u.regs = s.regs ∧
        (u.core c).seals = (s.core c).seals ++ [{ round := rk, members := r.activeSet }] ∧
        (∀ t, t ∈ (u.round c rk).done ↔ t ∈ r.done ∨ t ∈ r.activeSet) ∧
        (∀ t ∈ r.activeSet, (u.thread c t).st = .commit ∧ ∃ p, (s.thread c t).pass = some p ∧
          (u.thread c t).pass = some { p with two := true }) ∧
        (∀ t, t ∉ r.activeSet → u.thread c t = s.thread c t) ∧ ∀ d, d ≠ c → u.core d = s.core d)

/-- R286: seals with MMAG take effect together: once each member core of the gang has its first seal for the gang, with MMAG at
the same indices, the first check that fails parks every member of every seal; else the instructions execute index by index
over the workgroups in increasing wgid, and every seal is over. -/
def Sys2Proof.Claims.GangSealsExecuteTogether : Prop :=
  ∀ (s : State) (g : Nat),
    let ms := (s.gang g).members
    let runs (st : State) (x : SealAt) (e : Nat × Instr × List Mtm) : State :=
      match exec e.2.1 { st with cur := { agent := st.threadAgent x.core ((e.2.2.head?.map (·.slot)).getD 0), idx := e.1, phase := .seal } } with
      | .next t => t
      | _ => st
    ((∃ m ∈ ms, s.heldCore m.core = true ∨ ∀ x, s.sealAt m.core = some x → x.wg = m.base → mmagsOf (s.sealItems x) = []) →
      exec (.mmagExecute g) s = .next s) ∧
    (∀ (xs : List SealAt) (l : List Nat), ms ≠ [] → ms.map (fun m => s.sealAt m.core) = xs.map some →
      (∀ e ∈ ms.zip xs, e.2.wg = e.1.base) → l ≠ [] → (∀ x ∈ xs, mmagsOf (s.sealItems x) = l) →
      (∀ m ∈ ms, s.heldCore m.core = false) →
      let check (x : SealAt) := s.sealFails x (fun d => s.mtx d) (s.mtx x.core) (s.sealItems x)
      (∀ ys x zs idx sub, xs = ys ++ x :: zs → (∀ y ∈ ys, check y = none) → check x = some (idx, sub) →
        exec (.mmagExecute g) s = .next (xs.foldl (fun st y => st.parkSeal y idx sub) s)) ∧
      ((∀ x ∈ xs, check x = none) →
        exec (.mmagExecute g) s = .next (xs.foldl (fun st x => st.endSeal x (s.sealItems x))
          ((List.range 128).foldl (fun st idx => xs.foldl (fun (v : State) x =>
            match (s.sealItems x).find? (fun e => e.1 = idx) with
            | some e => runs v x e
            | none => v) st) s))))

namespace Sys2Proof.Claims
open Sys2Proof.Machine

/-- The completion record of a launch at a physical address (R91, R338, R407). -/
def recordIs (m : Memory) (a : Nat) (x : Desc) (seq clk : Nat) (e : Ending) : Prop :=
  readLE m a 1 = 0x20 ∧
  readLE m (a + 1) 1 = (match e.status with
    | .ok => 0 | .empty => 1 | .deferred => 2 | .reject => 3 | .range => 4 | .tenant => 5 | .depfail => 6) ∧
  readLE m (a + 2) 1 = x.tenant % 256 ∧ readLE m (a + 3) 1 = 0 ∧ readLE m (a + 4) 4 = seq % 2 ^ 32 ∧
  readLE m (a + 16) 8 = clk % 2 ^ 64 ∧
  (e.rej = none → readLE m (a + 8) 4 = e.gangs % 2 ^ 32 ∧ readLE m (a + 12) 4 = min e.faults (2 ^ 32 - 1) ∧
    readLE m (a + 24) 8 = e.extra % 2 ^ 64) ∧
  (∀ r, e.rej = some r → readLE m (a + 8) 2 = r.reason.code % 2 ^ 16 ∧ readLE m (a + 10) 2 = r.sect % 2 ^ 16 ∧
    readLE m (a + 12) 4 = r.blk % 2 ^ 32 ∧ readLE m (a + 24) 1 = r.idx % 256 ∧ readLE m (a + 25) 1 = r.col % 256 ∧
    readLE m (a + 26) 1 = r.row % 256 ∧ readLE m (a + 27) 5 = 0)

/-- The tokens of an ended launch's dependants: normal for OK, EMPTY and DEFERRED_FAULT, else an error (R338). -/
def dependants (x : Desc) (st : LStatus) : List TaskTok :=
  let err := decide (st ≠ .ok ∧ st ≠ .empty ∧ st ≠ .deferred)
  let code : W32 := match st with
    | .ok => 0 | .empty => 1 | .deferred => 2 | .reject => 3 | .range => 4 | .tenant => 5 | .depfail => 6
  (if x.depAValid then [{ id := x.depA, slot := x.depASlot, val := code, err := err }] else []) ++
    (if x.depBValid then [{ id := x.depB, slot := x.depBSlot, val := code, err := err }] else [])

/-- The place of a record is known: an address, or none where it cannot be written. -/
def placed (s : State) (x : Desc) (pa : Option Nat) : Prop :=
  (∃ a, s.recordAt x = .ok a ∧ pa = some a) ∨ (s.recordAt x = .bad ∧ pa = none)

/-- A launch has ended before anything of it ran: its record stands, its timeline has counted it, its dependants have their
tokens, and no other byte and no dispatched launch has changed (R337 to R339). -/
structure EndsEarly (s u : State) (x : Desc) (e : Ending) (pa : Option Nat) : Prop where
  number : u.seq = s.seq + 1
  record : ∀ a, pa = some a → s.memoryOk → recordIs u.mem a x s.seq (s.die x.die).clk e ∧ sameOutside s u a 32
  silent : pa = none → u.mem = s.mem
  tokens : (u.die x.die).taskq = (s.die x.die).taskq ++ dependants x e.status
  kept : u.dispatched = s.dispatched
  timeline : x.timelineOk = true → (mgetD (s.die x.die).launchTl (x.timeline % 256) {}).issued < 2 ^ 64 - 1 →
    let g := mgetD (s.die x.die).launchTl (x.timeline % 256) {}
    let g' := mgetD (u.die x.die).launchTl (x.timeline % 256) {}
    g'.issued = g.issued + 1 ∧ (g.done = [] → g.timeline = g.issued → g'.timeline = g.timeline + 1)

/-- A launch is dispatched: it holds its number on its timeline, its image and its priority (R323, R337, R345). -/
structure Dispatched (s u : State) (x : Desc) (q : Nat) (im : Image) : Prop where
  number : u.seq = s.seq + 1
  listed : u.dispatched = s.dispatched ++ [s.seq]
  desc : (u.launch s.seq).desc = x
  queue : (u.launch s.seq).queue = q
  image : u.image (u.launch s.seq).img = im
  prio : (u.launch s.seq).prio = min x.prio (s.reg (lqReg q 8) / 2 ^ 10 % 8)
  mem : u.mem = s.mem
  fresh : (u.launch s.seq).placed = [] ∧ (u.launch s.seq).retired = 0 ∧ (u.launch s.seq).faultCount = 0

/-- A descriptor stands at the head of a launch queue, its line free of owners and its supervisor running; the host writes before
it have their completion times passed for the supervisor (R234, R243), a circuit joins it to the ring where that lies on another
die (R13), and no other queue's head goes first (R60). -/
structure AtHead (s : State) (q : Nat) (x : Desc) : Prop where
  queue : q < 64
  pushes : s.pushes = []
  held : s.reg (lqReg q 0x18) % 2 ^ 13 ≠ 0
  free : s.homeFree ((s.reg (lqReg q 0) + 64 * (s.reg (lqReg q 0x20) % s.lqDepth q)) / 128) = true
  desc : x = descOf (readBytes s.mem (s.reg (lqReg q 0) + 64 * (s.reg (lqReg q 0x20) % s.lqDepth q)) 64)
  runs : s.reg (dsReg x.die 0x18) % 2 = 1
  after : s.timesSeen x.die (s.headEntry q).after = true
  link : s.linkedBoth x.die (homeDie ((s.reg (lqReg q 0) + 64 * (s.reg (lqReg q 0x20) % s.lqDepth q)) / 128)) = true
  first : ∀ p, p < 64 → s.headReady p = true → (s.headDesc p).die = x.die →
    s.reg (lqReg p 8) / 2 ^ 10 % 8 < s.reg (lqReg q 8) / 2 ^ 10 % 8 ∨
    s.reg (lqReg p 8) / 2 ^ 10 % 8 = s.reg (lqReg q 8) / 2 ^ 10 % 8 ∧ (s.headEntry q).no ≤ (s.headEntry p).no

/-- The step takes the descriptor from its queue (R323). -/
def takes (s : State) (q : Nat) (m : State → Prop) : Prop :=
  ∃ u : State, exec (.launchDispatch q) s = .next u ∧ u.reg (lqReg q 0x20) = (s.reg (lqReg q 0x20) + 1) % 2 ^ 32 ∧
    u.reg (lqReg q 0x18) = s.reg (lqReg q 0x18) - 1 ∧ m u

/-- An image that the device does not hold yet, or holds as it stands (R90). -/
def isKept (s : State) (im : Image) : Prop := s.findImage im.digest = none ∨ ∃ n, s.findImage im.digest = some n ∧ s.image n = im

/-- The image that a launch's header stands for: one accepted before under its digest, or the bytes now read and accepted
(R90). -/
def imageIs (s : State) (x : Desc) (h : List Byte) (im : Image) : Prop :=
  (∃ n, s.accepted (headerOf h) = some n ∧ s.image n = im) ∨
  (s.accepted (headerOf h) = none ∧ ∃ bs, s.supRead x.die x.tenant x.image (headerOf h).len = .ok bs ∧
    acceptImage s.keys false bs = .ok im ∧ isKept s im)

/-- The checks of an image that has been read, with the launch's own checks after it (R339, steps 6 and 7): how it ends, or
the image it runs. -/
inductive Verdict (s : State) (x : Desc) : Except Ending Image → Prop
  | empty : x.gangs = 0 → Verdict s x (.error { status := .empty })
  | many : 2 ^ 32 ≤ x.gangs → Verdict s x (.error { status := .range, extra := 5 })
  | unread : 0 < x.gangs → x.gangs < 2 ^ 32 → s.supRead x.die x.tenant x.image 256 = .bad →
      Verdict s x (.error { status := .range, extra := 6 })
  | header (h r) : 0 < x.gangs → x.gangs < 2 ^ 32 → s.supRead x.die x.tenant x.image 256 = .ok h →
      headerReason s.keys h false = some r → Verdict s x (.error { status := .reject, rej := some { reason := r } })
  | refused (h bs r) : 0 < x.gangs → x.gangs < 2 ^ 32 → s.supRead x.die x.tenant x.image 256 = .ok h →
      headerReason s.keys h false = none → s.accepted (headerOf h) = none →
      s.supRead x.die x.tenant x.image (headerOf h).len = .ok bs → acceptImage s.keys false bs = .error r → Verdict s x (.error { status := .reject, rej := some r })
  | badArgs (h im) : 0 < x.gangs → x.gangs < 2 ^ 32 → s.supRead x.die x.tenant x.image 256 = .ok h →
      headerReason s.keys h false = none → imageIs s x h im → im.priv = false →
      (s.stepSevenBad im x = true ∨ 2 ^ 57 ≤ x.argBlock) → Verdict s x (.error { status := .range, extra := 7 })
  | privileged (h im) : 0 < x.gangs → x.gangs < 2 ^ 32 → s.supRead x.die x.tenant x.image 256 = .ok h →
      headerReason s.keys h false = none → imageIs s x h im → im.priv = true →
      Verdict s x (.error { status := .reject, rej := some { reason := .privimg } })
  | runs (h im args) : 0 < x.gangs → x.gangs < 2 ^ 32 → s.supRead x.die x.tenant x.image 256 = .ok h →
      headerReason s.keys h false = none → imageIs s x h im → im.priv = false → s.stepSevenBad im x = false →
      x.argBlock < 2 ^ 57 → s.supRead x.die x.tenant x.argBlock im.argBytes = .ok args → im.culverts = [] → im.datas = [] →
      s.launchHeld im x = false →
      Verdict s x (.ok im)

end Sys2Proof.Claims

/-- R323, R337 to R339: the supervisor takes the descriptor at a queue's head and its checks decide in their order: step 1 and a
tenant mismatch end it, a TASK descriptor goes to the matching store, the rest ends with its record or is dispatched while no
die of it is held.
The model's choice where the spec is silent: logs 24, 25, 61 and 84. -/
def Sys2Proof.Claims.DescriptorsAreChecked : Prop :=
  ∀ (s : State) (q : Nat) (x : Desc), AtHead s q x →
    let named : Prop := x.dieMask / 2 ^ x.die % 2 = 1 ∨
      ∃ h, s.supRead x.die x.tenant x.image 16 = .ok h ∧ fieldAt h 6 2 / 2 % 2 = 1
    let owner := s.reg (lqReg q 8) / 2 ^ 4 % 64
    (∀ pa, x.stepOneBad = true → placed s x pa → takes s q fun u => EndsEarly s u x { status := .range, extra := 1 } pa) ∧
    (∀ pa, x.stepOneBad = false → ¬ named → (∀ v, s.supRead x.die x.tenant x.image 16 ≠ .wait v) → placed s x pa →
      takes s q fun u => EndsEarly s u x { status := .range, extra := 1 } pa) ∧
    (∀ pa, x.stepOneBad = false → named → x.tenant ≠ owner → placed s x pa → takes s q fun u => EndsEarly s u x { status := .tenant } pa) ∧
    (x.stepOneBad = false → named → x.tenant = owner → x.task = true → takes s q fun u => u.mem = s.mem ∧ u.seq = s.seq ∧
      u.dispatched = s.dispatched ∧ (u.die x.die).taskq = (s.die x.die).taskq ++
        [{ id := x.taskId, slot := 0, val := 0, err := false, desc := some (x, q) }]) ∧
    (x.stepOneBad = false → named → x.tenant = owner → x.task = false →
      (∀ e pa, Verdict s x (.error e) → placed s x pa → takes s q fun u => EndsEarly s u x e pa) ∧
      (∀ im, Verdict s x (.ok im) → takes s q fun u => Dispatched s u x q im))

/-- R13, R323, R438: a push reads its descriptor in the queue's tenant and appends it to the ring once the line of its entry is
free and die 0 has a circuit to it; a closed queue, a full one and an address that cannot be read set their status bit and leave
the ring.
The model's choice where the spec is silent: log 61. -/
def Sys2Proof.Claims.PushesFillTheRing : Prop :=
  ∀ (s : State) (q va : Nat), q < 64 → s.pushes = [] → s.reg (lqReg q 0) % 64 = 0 →
    let waits (u : State) (at_ : Nat) : Prop := u.pushes = [{ q := q, va := at_, after := s.hostTimes }] ∧ u.mem = s.mem
    let cfg := s.reg (lqReg q 8)
    let used := s.reg (lqReg q 0x18) % 2 ^ 13
    let at_ := va % 2 ^ 57 / 64 * 64
    let full : Prop := 2 ^ (min (cfg % 16) 8 + 4) ≤ used + mgetD s.lqRsv q 0
    let closed : Prop := cfg / 2 ^ 31 % 2 = 0 ∨ s.reg 0x010 % 2 = 0
    let tail := s.reg (lqReg q 0) + 64 * ((s.reg (lqReg q 0x20) + used) % 2 ^ (min (cfg % 16) 8 + 4))
    let turned (k : Nat) : Prop := ∃ u : State, exec (.lqPush q va) s = .next u ∧ u.pushes = [] ∧ u.mem = s.mem ∧
      u.reg (lqReg q 0x18) / 2 ^ k % 2 = 1 ∧ ∀ o, o ≠ lqReg q 0x18 → u.reg o = s.reg o
    (closed → turned 17) ∧
    (¬ closed → full → turned 16) ∧
    (¬ closed → ¬ full → s.supRead 0 (cfg / 2 ^ 4 % 64) at_ 64 = .bad → turned 19) ∧
    (∀ bs, ¬ closed → ¬ full → s.supRead 0 (cfg / 2 ^ 4 % 64) at_ 64 = .ok bs →
      (s.lineOpen 0 (tail / 128) = true → s.memoryOk → bs.length = 64 → ∃ u : State, exec (.lqPush q va) s = .next u ∧ u.pushes = [] ∧
        u.reg (lqReg q 0x18) = s.reg (lqReg q 0x18) + 1 ∧ readBytes u.mem tail 64 = bs ∧ sameOutside s u tail 64 ∧
        mget u.lqEntries (lqKey q (s.reg (lqReg q 0x20) + used)) = some { no := s.lqCount, after := s.hostTimes } ∧
        u.lqCount = s.lqCount + 1) ∧
      (s.lineOpen 0 (tail / 128) = false → ∃ u : State, exec (.lqPush q va) s = .next u ∧ waits u at_)) ∧
    (∀ v, ¬ closed → ¬ full → s.supRead 0 (cfg / 2 ^ 4 % 64) at_ 64 = .wait v → ∃ u : State, exec (.lqPush q va) s = .next u ∧
      waits u at_)

/-- R340 to R343: the oldest token of a die's queue joins the entry of its task or opens the lowest free one: a slot takes its
value once, an error marks the entry, a descriptor says what is awaited, a release fills every slot; without a free entry the
token waits, and a second descriptor of a task waits for the first and lets the tokens behind it pass. A fired entry with an error ends DEPFAIL; one that is complete goes on with step 4 once the times of its value
writes have passed. A token of the host goes behind the completion times of the host's earlier writes.
The model's choice where the spec is silent: logs 25 and 82. -/
def Sys2Proof.Claims.TokensMatchTasks : Prop :=
  ∀ (s : State) (d : Nat),
    let up (x : Desc) : Prop := s.reg (dsReg x.die 0x18) % 2 = 1
    let complete (t : Task) : Prop := ∀ j, j < 8 → t.expected / 2 ^ j % 2 = 1 → t.filled / 2 ^ j % 2 = 1
    let fired (t : Task) (x : Desc) (q : Nat) : Prop := t.desc = some (x, q) ∧ (t.error = true ∨ complete t) ∧ up x
    let late : Prop := ∀ e, s.hostToks.head? = some e → s.timesSeen 0 e.2 = false
    let second (k : TaskTok) : Prop := k.desc ≠ none ∧ ∃ i t, s.tasks.find? (fun e => e.2.1 = k.id) = some (i, k.id, t) ∧ t.desc ≠ none
    (late → (∀ e ∈ s.tasks, s.fireTask e.1 = s) → s.tasks.Pairwise (fun e f => e.1 < f.1) → (∀ k ∈ (s.die d).taskq, second k) →
      exec (.taskToken d) s = .next s) ∧
    (∀ ks k rest, late → (∀ e ∈ s.tasks, s.fireTask e.1 = s) → s.tasks.Pairwise (fun e f => e.1 < f.1) →
      (s.die d).taskq = ks ++ k :: rest → (∀ o ∈ ks, second o) → ¬ second k →
      let joins (i : Nat) (t : Task) : Prop := (∀ x q, ¬ fired t x q) → ∃ u : State, exec (.taskToken d) s = .next u ∧
        mget u.tasks i = some (k.id, t) ∧ (u.die d).taskq = ks ++ rest ∧ u.mem = s.mem ∧ ∀ j, j ≠ i → mget u.tasks j = mget s.tasks j
      let with_ (t : Task) : Task :=
        if k.release then { t with filled := 255, values := (List.range 8).map (fun j => if t.filled / 2 ^ j % 2 = 1 then t.values.getD j 0 else 0) }
        else match k.desc with
          | some x => { t with desc := some x, expected := 2 ^ x.1.awaited - 1 }
          | none =>
            if 8 ≤ k.slot ∨ t.filled / 2 ^ k.slot % 2 = 1 then t
            else { t with filled := t.filled + 2 ^ k.slot, error := t.error || k.err, values := t.values.set k.slot k.val }
      (∀ i t, s.tasks.find? (fun e => e.2.1 = k.id) = some (i, k.id, t) → joins i (with_ t)) ∧
      (∀ i, (∀ e ∈ s.tasks, e.2.1 ≠ k.id) → i < 4096 → mget s.tasks i = none → (∀ j, j < i → mget s.tasks j ≠ none) → joins i (with_ {})) ∧
      ((∀ e ∈ s.tasks, e.2.1 ≠ k.id) → (∀ j, j < 4096 → mget s.tasks j ≠ none) → exec (.taskToken d) s = .next s)) ∧
    (∀ xs i id t ys x q, s.tasks = xs ++ (i, id, t) :: ys → s.tasks.Pairwise (fun e f => e.1 < f.1) →
      (∀ e ∈ xs ++ ys, ∀ x' q', ¬ fired e.2.2 x' q') → fired t x q → late →
      -- the entry is handled, and then the oldest token of the die's queue as in the state `v` so reached
      let goes (m : State → Prop) : Prop := ∃ u v : State, exec (.taskToken d) s = .next u ∧ exec (.taskToken d) v = .next u ∧
        mget v.tasks i = none ∧ m v
      (∀ pa, t.error = true → placed s x pa → goes fun v => EndsEarly s v x { status := .depfail, extra := id } pa) ∧
      (∀ e pa, t.error = false → x.tval = false → s.timesSeen x.die t.after = true → Verdict s x (.error e) → placed s x pa →
        goes fun v => EndsEarly s v x e pa) ∧
      (∀ im, t.error = false → x.tval = false → s.timesSeen x.die t.after = true → Verdict s x (.ok im) →
        goes fun v => Dispatched s v x q im) ∧
      (t.error = false → x.tval = false → s.timesSeen x.die t.after = false → (s.die d).taskq = [] → exec (.taskToken d) s = .next s)) ∧
    (∀ id, let v := s.reg 0x3000
      let k : TaskTok := { id := id % 2 ^ 32, slot := v % 8, val := BitVec.ofNat 32 (v / 2 ^ 32), err := v / 2 ^ 8 % 2 = 1 }
      ∃ u : State, exec (.hostTaskToken id) s = .next u ∧ u.mem = s.mem ∧ u.regs = s.regs ∧
        (s.hostToks = [] → s.timesSeen 0 s.hostTimes = true → u.hostToks = [] ∧ (u.die 0).taskq = (s.die 0).taskq ++ [k]) ∧
        (late → s.hostToks ≠ [] ∨ s.timesSeen 0 s.hostTimes = false →
          u.hostToks = s.hostToks ++ [(k, s.hostTimes)] ∧ (u.die 0).taskq = (s.die 0).taskq)) ∧
    (∀ k m, d ≠ 0 → s.tasks = [] → (s.die d).taskq = [] → s.hostToks = [(k, m)] → s.timesSeen 0 m = true →
      ∃ u : State, exec (.taskToken d) s = .next u ∧ u.mem = s.mem ∧ u.hostToks = [] ∧ (u.die 0).taskq = (s.die 0).taskq ++ [k])

/-- R58, R59, R243, R407: a launch ends once all its gangs have retired, no end-of-stream token of it is still to be passed on,
its reductions and culverts are done and its writes have arrived and are released; OK without a fault entry, DEFERRED_FAULT with them, the entries behind its record; before that it waits.
The model's choice where the spec is silent: log 24. -/
def Sys2Proof.Claims.LaunchesEnd : Prop :=
  ∀ (s : State) (seq : Nat) (l : Launch), (∀ g ∈ s.gangs, g.2.seq ≠ seq) → mget s.launches seq = some l →
    s.launches.Pairwise (fun e f => e.1 < f.1) →
    let im := s.image l.img
    let x := l.desc
    let parts := if im.pipe then im.polders.map (·.id) else [0]
    let retired : Prop := ∀ p ∈ parts, x.gangs ≤ mgetD l.retiredBy p 0
    let counted : Prop := ∀ e ∈ l.nrOut, e.2 = 0
    let released : Prop := s.streamsEnded seq = true ∧ s.storesOut seq = false ∧
      ∀ d, d < 8 → s.passed d (mgetD l.horizon d 0) (l.far.filterMap (fun e => if e.1 / 8 = d then some (e.1 % 8, e.2) else none)) = true
    im.culverts = [] →
    (¬ (retired ∧ counted ∧ released) → exec (.launchEnd seq) s = .next s) ∧
    (∀ e pa, retired → counted → released → l.remote = [] → placed s x pa →
      (l.faultCount = 0 ∧ l.faults = [] ∧ e = { status := .ok, gangs := l.retired } ∨
        pa = none ∧ 0 < l.faultCount ∧ e = { status := .deferred, gangs := l.retired, faults := l.faultCount }) →
      ∃ u : State, exec (.launchEnd seq) s = .next u ∧ mget u.launches seq = none ∧ seq ∉ u.dispatched ∧
        (u.die x.die).taskq = (s.die x.die).taskq ++ dependants x e.status ∧ (pa = none → u.mem = s.mem) ∧
        ∀ a, pa = some a → s.memoryOk → recordIs u.mem a x seq (s.die x.die).clk e ∧ sameOutside s u a 32) ∧
    (∀ f a b, retired → counted → released → l.remote = [] → l.faultCount = 1 → l.faults = [f] → s.memoryOk → s.recordAt x = .ok a →
      s.supAt x.die x.tenant (x.completion + 32) 32 .write = .ok b → (a + 32 ≤ b ∨ b + 32 ≤ a) →
      ∃ u : State, exec (.launchEnd seq) s = .next u ∧ mget u.launches seq = none ∧ readLE u.mem b 32 = f.toNat ∧
        recordIs u.mem a x seq (s.die x.die).clk { status := .deferred, gangs := l.retired, faults := 1 } ∧
        (u.die x.die).taskq = (s.die x.die).taskq ++ dependants x .deferred)

namespace Sys2Proof.Claims
open Sys2Proof.Machine

/-- A gang has a workgroup on a core. -/
def onCore (s : State) (c g : Nat) : Prop := ∃ m ∈ (s.gang g).members, m.core = c

/-- A drain has begun for a gang or has ended (R416). -/
def isDrained (s : State) (g : Nat) : Prop := (s.gang g).frozen = .draining ∨ (s.gang g).frozen = .drained

/-- A step raises an MSI-X vector: its message leaves where the vector is unmasked, else it is pending (R430). -/
def raised (s u : State) (v : Nat) : Prop :=
  if v ∈ s.msixOpen then mgetD s.msixSent v 0 < mgetD u.msixSent v 0 else v ∈ u.msix

end Sys2Proof.Claims

/-- R209, R210, R344: device memory that a supervisor takes is aligned, of the die, and free of everything it has taken.
The model's choice where the spec is silent: log 43. -/
def Sys2Proof.Claims.TakenMemoryIsFree : Prop :=
  ∀ (s u : State) (d n al b : Nat), s.takeMemory d n al = some (u, b) →
    b % al = 0 ∧ dieBase d ≤ b ∧ b + n ≤ dieBase d + devBytes ∧ (u.die d).regions = (b, n) :: (s.die d).regions ∧ u.mem = s.mem ∧
    ∀ r, r ∈ (s.die d).regions ∨ r = (s.reg (dsReg d 0x450), 2 ^ 28) ∨ r = (s.reg (dsReg d 0x480), s.reg (dsReg d 0x488)) →
      b + n ≤ r.1 ∨ r.1 + r.2 ≤ b

/-- R31, R32, R56, R143, R179, R210, R344, R345: the head gang goes to the lowest origin of the lowest die of its mask with room
for it and its slices: workgroup i on the core at its place, on free slots of a multiple of 128, every thread at its role's entry block with
registers at zero, its partition at zero, and its gang index in order. While it fits nowhere, a smaller gang goes in its stead,
at most four times, a squashed gang by a count of its own; a polder's gang waits only behind gangs of its own die.
The model's choice where the spec is silent: logs 26 and 43. -/
def Sys2Proof.Claims.GangsArePlaced : Prop :=
  ∀ (s : State) (d : Nat), (∀ g ∈ s.gangs, g.2.die = d → s.tryRetire g.1 = s) → ∀ (head : Cand) (rest : List Cand),
    s.candidates d = head :: rest →
    let fits (c : Cand) (e : Nat) : Prop := let l := s.launch c.seq
      c.saved.isSome = true ∨ s.slicesFit e (l.desc.n * roundUp (384 + (s.image l.img).privBytes) 128) (c.w * c.h) = true
    let room (c : Cand) (e : Nat) : Prop := c.mask / 2 ^ e % 2 = 1 ∧ s.reg (dsReg e 0x18) % 2 = 1 ∧ fits c e ∧
      (s.findRect e c.w c.h (s.needs c)).isSome = true
    let behind : Prop := ∀ c ∈ rest, s.ofPolder c = true → head.mask / 2 ^ d % 2 = 1
    let lowest (c : Cand) (e : Nat) : Prop := e < 8 ∧ room c e ∧ ∀ k, k < e → ¬ room c k
    let nowhere (c : Cand) : Prop := ∀ e, e < 8 → ¬ room c e
    let passed := match head.saved with
      | some e => e.2.overtaken
      | none => mgetD (s.launch head.seq).overtaken head.part 0
    let stays : Prop := exec (.gangPlacement d) s = .next s
    let goes (c : Cand) (more : State → Prop) : Prop := ∀ x y, s.findRect d c.w c.h (s.needs c) = some (x, y) →
      let l := s.launch c.seq
      let im := s.image l.img
      let n := l.desc.n
      (s.takeRegions d n (roundUp (384 + im.privBytes) 128) (c.w * c.h)).isSome = true →
      ∃ (u : State) (g : Nat), exec (.gangPlacement d) s = .next u ∧ mget s.gangs g = none ∧ more u ∧
        (u.gang g).seq = c.seq ∧ (u.gang g).gid = mgetD l.placed c.part 0 ∧ (u.gang g).die = d ∧ (u.gang g).x = x ∧ (u.gang g).y = y ∧
        (u.gang g).args = l.args ∧ (u.gang g).frozen = .no ∧ (u.gang g).members.length = c.w * c.h ∧
        mgetD (u.launch c.seq).placed c.part 0 = mgetD l.placed c.part 0 + 1 ∧
        (∀ a, readByte u.mem a ≠ 0 → readByte u.mem a = readByte s.mem a) ∧
        ∀ i, i < c.w * c.h → ∃ b, (u.gang g).members[i]? = some { core := d * 16 + (y + i / c.w) * 4 + x + i % c.w, base := b } ∧
          let k := d * 16 + (y + i / c.w) * 4 + x + i % c.w
          b % 128 = 0 ∧ b + roundUp n 128 ≤ 8192 ∧ (u.wg k b).gang = g ∧ (u.wg k b).wgid = i ∧ (u.wg k b).n = n ∧
          (u.wg k b).partSize = im.scratch ∧ (u.wg k b).skips = [0, 0, 0, 0] ∧
          (∀ e ∈ (s.core k).wgs, 0 < e.2.n → 0 < n → e.1 + roundUp e.2.n 128 ≤ b ∨ b + roundUp n 128 ≤ e.1) ∧
          (∀ a, a < im.scratch → readByte u.mem (scratchBase k + (u.wg k b).partBase + a) = 0) ∧
          ∀ t, t < n → let v := u.thread k (b + t)
            v.regs = ({} : Thread).regs ∧ v.pass = none ∧
              v.blk = ((im.roles[roleAt (roleSizes im n) t]?).map (·.entry)).getD 0
    (head.saved = none → lowest head d → goes head fun _ => True) ∧
    (∀ e, e ≠ d → behind → lowest head e → stays) ∧
    (nowhere head → 4 ≤ passed → head.mask / 2 ^ d % 2 = 1 → stays) ∧
    (nowhere head → behind → (∀ c ∈ rest, c.w * c.h < head.w * head.h → ¬ lowest c d) → stays) ∧
    (∀ xs c ys, head :: rest = xs ++ c :: ys → s.ofPolder c = true → c.saved = none → lowest c d →
      (∀ e ∈ xs, e.mask / 2 ^ d % 2 = 0) → goes c fun _ => True) ∧
    (∀ xs c ys, nowhere head → behind → (passed < 4 ∨ head.mask / 2 ^ d % 2 = 0) → rest = xs ++ c :: ys → c.saved = none →
      (head.saved = none → (c.seq, c.part) ≠ (head.seq, head.part)) → c.w * c.h < head.w * head.h → lowest c d →
      (∀ e ∈ xs, e.w * e.h < head.w * head.h → ¬ lowest e d) →
      goes c fun u => match head.saved with
        | some e => ∀ y ∈ (s.die e.1).saved, y.gang = e.2.gang → { y with overtaken := y.overtaken + 1 } ∈ (u.die e.1).saved
        | none => mgetD (u.launch head.seq).overtaken head.part 0 = passed + 1)

/-- R347, R415: a squashed gang is restored on a free rectangle: it runs again, and each saved thread stands at its new slot with
the registers, poison, block and watch set it was saved with; its partition holds the saved bytes.
The model's choice where the spec is silent: log 14. -/
def Sys2Proof.Claims.SquashedGangsReturn : Prop :=
  ∀ (s : State) (d : Nat) (c : Cand) (rest : List Cand) (from_ : Nat) (sg : SavedGang) (x y : Nat),
    (∀ g ∈ s.gangs, g.2.die = d → s.tryRetire g.1 = s) → s.candidates d = c :: rest → c.saved = some (from_, sg) →
    s.firstDie c = some d → s.findRect d c.w c.h (s.needs c) = some (x, y) → sg.wgs.length = c.w * c.h →
    (∀ w ∈ sg.wgs, w.wg.n = (s.launch c.seq).desc.n ∧ keyed w.threads ∧ ∀ e ∈ w.threads, e.1 < w.wg.n) →
    ∃ u : State, exec (.gangPlacement d) s = .next u ∧ (u.gang sg.gang).frozen = .no ∧ (u.gang sg.gang).die = d ∧
      (u.gang sg.gang).x = x ∧ (u.gang sg.gang).y = y ∧ (∀ g ∈ (u.die from_).saved, g.gang ≠ sg.gang) ∧
      ∀ i w, sg.wgs[i]? = some w → ∃ b, (u.gang sg.gang).members[i]? = some { core := d * 16 + (y + i / c.w) * 4 + x + i % c.w, base := b } ∧
        let k := d * 16 + (y + i / c.w) * 4 + x + i % c.w
        (∀ e ∈ w.threads, let v := u.thread k (b + e.1)
          v.regs = e.2.regs ∧ v.poison = e.2.poison ∧ v.blk = e.2.blk ∧ v.watch = e.2.watch) ∧
        (s.memoryOk → (∀ z ∈ sg.wgs, z.images = [] ∧ z.recs = [] ∧ z.tiles = [] ∧ keyed z.scratch ∧
          ∀ e ∈ z.scratch, e.1 < (s.image (s.launch c.seq).img).scratch) →
          ∀ a, a < (s.image (s.launch c.seq).img).scratch →
            readByte u.mem (scratchBase k + (u.wg k b).partBase + a) = mgetD w.scratch a 0)

/-- R219, R221, R414: a write of the hold bits holds the fabrics it names: their coalescers send what they hold, dirty window lines
with it, and no thread changes;
without a pre-emption that waits no gang changes.
The model's choice where the spec is silent: log 12. -/
def Sys2Proof.Claims.HoldsStopCores : Prop :=
  ∀ (s : State) (v d : Nat),
    let held (u : State) (c : Nat) : Prop := u.heldCore c = true ∧ ∀ k, mgetD (u.core c).coal k [] = []
    let kept (u : State) : Prop := u.mem = s.mem ∧ (∀ c t, u.thread c t = s.thread c t) ∧
      ((∀ c, c < 128 → s.reg (kcReg c 0x10) % 2 = 0) → u.gangs = s.gangs)
    (∃ u : State, exec (.dvFreeze v) s = .next u ∧ u.reg 0x20 = v % 256 ∧ kept u ∧
      ∀ c, c < 128 → v / 2 ^ (c / 16) % 2 = 1 → held u c) ∧
    (d < 8 → ∃ u : State, exec (.dsFreeze d v) s = .next u ∧ u.reg (dsReg d 0x10) = v % 2 ^ 16 ∧ kept u ∧
      ∀ c, c / 16 = d → v / 2 ^ (c % 16) % 2 = 1 → held u c)

/-- R148, R415, R416: a request freezes every running gang of its core that no hold covers, to be squashed or drained, and
KC_FREEZE shows what is still to do, and in bit 2 whether every gang of the core is frozen; the gangs of other cores go on. A
core whose drained gangs wait for their command takes no request.
The model's choice where the spec is silent: log 13. -/
def Sys2Proof.Claims.RequestsFreezeGangs : Prop :=
  ∀ (s : State) (c : Nat), keyed s.gangs →
    let kind (u : State) (f : FrozenKind) : Prop := ∀ g,
      let now : Prop := onCore s c g ∧ (s.gang g).frozen = .no ∧ s.gangHeld g = false
      (now → (u.gang g).frozen = f) ∧ (¬ now → (u.gang g).frozen = (s.gang g).frozen)
    let left (u : State) (f : FrozenKind) : Prop := ∃ g, onCore s c g ∧ ((u.gang g).frozen = .no ∨ (u.gang g).frozen = f)
    let kept (u : State) : Prop := u.mem = s.mem ∧ ∀ d t, u.thread d t = s.thread d t
    let all (u : State) : Prop := ∀ g, onCore s c g → (u.gang g).frozen ≠ .no
    let drained (u : State) : Prop := ∀ g, onCore s c g → (u.gang g).frozen = .drained
    let waits : Prop := s.reg (kcReg c 0x10) / 2 ^ 3 % 2 = 1 ∧ ∃ g, onCore s c g
    (waits → exec (.freezeSquash c) s = .next s ∧ exec (.freezeDrain c) s = .next s) ∧
    (¬ waits → ∃ u : State, exec (.freezeSquash c) s = .next u ∧ kind u .squashing ∧ kept u ∧
      (left u .squashing → (all u → u.reg (kcReg c 0x10) = 5) ∧ (¬ all u → u.reg (kcReg c 0x10) = 1)) ∧
      (¬ left u .squashing → u.reg (kcReg c 0x10) = 0)) ∧
    (¬ waits → ∃ u : State, exec (.freezeDrain c) s = .next u ∧ kind u .draining ∧ kept u ∧
      (drained u → u.reg (kcReg c 0x10) = 15) ∧
      (¬ drained u → (all u → u.reg (kcReg c 0x10) = 7) ∧ (¬ all u → u.reg (kcReg c 0x10) = 3)))

/-- R286, R295, R347, R415: a squash saves its gang once phase two, its commands and its writes have finished: the registers of
every thread, on its die, and its cores are released; the context takes the lowest pages of its die's context region that are
free and are written there; rounds that wait at an MMAG for other workgroups are discarded; without room in the context region
the gang waits and DS_CTX_NEED says how much.
The model's choice where the spec is silent: logs 14, 15 and 44. -/
def Sys2Proof.Claims.SquashesSaveTheGang : Prop :=
  ∀ (s : State) (g : Nat),
    let d := (s.gang g).die
    let seals := s.mmagSeals g
    let met (m : Member) : Prop := ∃ e ∈ seals, e.1 = m ∧ e.2.2 = (seals.map (·.2.2)).headD []
    let v := s.dropMmags g
    let begun : Prop := (s.gang g).frozen = .squashing ∧ (s.gang g).members ≠ [] ∧ s.gangHeld g = false
    let ready : Prop := begun ∧ v.squashQuiet g = true
    let need := s.contextNeed g
    let base := s.reg (dsReg d 0x480)
    let room (o : Nat) : Prop := o % 4096 = 0 ∧ o + need ≤ s.reg (dsReg d 0x488) ∧
      ∀ r ∈ s.contextTaken d, 0 < r.2 → 0 < need → r.1 + r.2 ≤ o ∨ o + need ≤ r.1
    (¬ begun → exec (.squashSave g) s = .next s) ∧ (begun → ¬ ready → exec (.squashSave g) s = .next v) ∧
    ((∀ m ∈ (s.gang g).members, met m) → v = s) ∧
    ((∃ m ∈ (s.gang g).members, ¬ met m) → ∀ e ∈ seals, (∀ z ∈ (v.core e.2.1.core).seals, z.members ≠ e.2.1.members) ∧
      ∀ t ∈ e.2.1.members, (s.thread e.2.1.core t).st ≠ .parked → (v.thread e.2.1.core t).pass = none) ∧
    (ready → v.squashReleased g = false → ∃ u : State, exec (.squashSave g) s = .next u ∧ u.mem = s.mem ∧ u.gangs = v.gangs) ∧
    (ready → v.squashReleased g = true → (∀ o, ¬ room o) → ∃ u : State, exec (.squashSave g) s = .next u ∧
      u.mem = s.mem ∧ u.gang g = s.gang g ∧ u.reg (dsReg d 0x490) = 1 + 2 ^ 32 * ((need + 4095) / 4096 % 2 ^ 32)) ∧
    (∀ o, ready → v.squashReleased g = true → room o → (∀ n, n < o → ¬ room n) → ∃ (u : State) (sg : SavedGang),
      exec (.squashSave g) s = .next u ∧ u.reg (dsReg d 0x490) = 0 ∧ (u.die d).saved = (s.die d).saved ++ [sg] ∧ sg.gang = g ∧
      sg.bytes = need ∧ sg.at_ = o ∧ (s.memoryOk → ∃ n, readBytes u.postedMem (base + o) need = (List.range need).map (Config.contextByte n)) ∧
      u.gang g = { s.gang g with members := [] } ∧ sg.wgs.length = (s.gang g).members.length ∧
      (∀ m ∈ (s.gang g).members, mget (u.core m.core).wgs m.base = none) ∧
      ∀ (i : Nat) (m : Member) (w : SavedWg), (s.gang g).members[i]? = some m → sg.wgs[i]? = some w → ∀ t, t < (s.wg m.core m.base).n → ∃ x, (t, x) ∈ w.threads ∧
        let v := s.thread m.core (m.base + t)
        x.regs = v.regs ∧ x.poison = v.poison ∧ x.blk = v.blk ∧ x.watch = v.watch ∧ x.park = v.park ∧ x.horizon = 0 ∧ x.remote = [] ∧
        (m.base + t ∈ (s.core m.core).entryWait → v.pass = none → x.st = .waiting ∧ x.yieldPending = false))

/-- R416: the drain chain copies every token of its gang into the drain area, behind the words of its die's other drained gangs,
every token stays in place, and the gang is drained;
a drained gang is thawed, squashed or killed by KC_GANG_CTL: killed, every thread of it is Exited and the fault record of its
launch takes one entry.
The model's choice where the spec is silent: logs 45, 46 and 47. -/
def Sys2Proof.Claims.DrainsCopyAndResolve : Prop :=
  (∀ (s : State) (g : Nat),
    let x := s.gang g
    let limit := s.reg (dsReg x.die 0x488)
    let off := Config.drainPage % (max 1 (limit / 4096)) * 4096 + s.drainEnd x.die
    let a := s.reg (dsReg x.die 0x480) + off
    let bytes := ((x.members.flatMap s.drainWords).flatMap DrainWord.bytes).take (limit - off)
    (x.frozen ≠ .draining ∨ s.gangHeld g = true → exec (.drainComplete g) s = .next s) ∧
    (x.frozen = .draining → s.gangHeld g = false → ∃ u : State, exec (.drainComplete g) s = .next u ∧
      u.gang g = { x with frozen := .drained, drainAt := some (s.drainEnd x.die, ((x.members.flatMap s.drainWords).flatMap DrainWord.bytes).length) } ∧
      (∀ e ∈ s.gangs, ∀ r, e.2.die = x.die → e.2.drainAt = some r → r.1 + r.2 ≤ s.drainEnd x.die) ∧ u.cores = s.cores ∧
      (s.memoryOk → readBytes u.postedMem a bytes.length = bytes ∧
        ∀ o, o < a ∨ a + bytes.length ≤ o → readByte u.postedMem o = readByte s.postedMem o) ∧
      ((∀ i, i < bytes.length → s.homeFree ((a + i) / 128) = true) → u.msgs = s.msgs ∧
        (s.memoryOk → readBytes u.mem a bytes.length = bytes ∧ sameOutside s u a bytes.length)))) ∧
  (∀ (s : State) (c : Nat), keyed s.gangs →
    (∃ u : State, exec (.gangThaw c) s = .next u ∧ u.cores = s.cores ∧ u.mem = s.mem ∧
      ∀ g, (onCore s c g ∧ isDrained s g → u.gang g = { s.gang g with frozen := .no, dike := 0, drainAt := none }) ∧
        (¬ (onCore s c g ∧ isDrained s g) → u.gang g = s.gang g)) ∧
    (∃ u : State, exec (.gangSquash c) s = .next u ∧ u.mem = s.mem ∧ (∀ d t, u.thread d t = s.thread d t) ∧
      ∀ g, (onCore s c g ∧ isDrained s g → u.gang g = { s.gang g with frozen := .squashing, drainAt := none }) ∧
        (¬ (onCore s c g ∧ isDrained s g) → u.gang g = s.gang g))) ∧
  (∀ (s : State) (c g : Nat), keyed s.gangs → onCore s c g → isDrained s g → (∀ h, onCore s c h → isDrained s h → h = g) →
    (∀ d t, t ∈ (s.core d).entryWait → (s.thread d t).st ≠ .exited) →
    ∃ u : State, exec (.gangKill c) s = .next u ∧ u.mem = s.mem ∧
      (u.launch (s.gang g).seq).faultCount = min ((s.launch (s.gang g).seq).faultCount + 1) 0xFFFFFFFF ∧
      (mget u.gangs g = none ∨ (u.gang g).frozen = .no ∧ ∀ m ∈ (s.gang g).members, ∀ t, t < (s.wg m.core m.base).n →
        (u.thread m.core (m.base + t)).st = .exited))

/-- R406, R419: a gang that has made no progress for the cycles of KC_DIKE_LIMIT of its first core is drained, and NOPROGRESS is
posted to its die.
The model's choice where the spec is silent: log 12. -/
def Sys2Proof.Claims.DikewatchDrains : Prop :=
  ∀ (s : State) (g : Nat) (m : Member) (rest : List Member), (s.gang g).members = m :: rest →
    let x := s.gang g
    let limit := s.reg (kcReg m.core 0x20)
    (x.frozen ≠ .no ∨ s.gangHeld g = true ∨ x.dike < 40 * limit → exec (.dikewatchFire g) s = .next s) ∧
    (x.frozen = .no → s.gangHeld g = false → 40 * limit ≤ x.dike → ∃ u : State, exec (.dikewatchFire g) s = .next u ∧
        (u.gang g).frozen = .draining ∧ u.mem = s.mem ∧ (∀ c t, u.thread c t = s.thread c t) ∧
        posted u (.sup x.die) (recordOf 6 0 0 (s.launch x.seq).desc.tenant m.core 0xFFFF (x.seq % 2 ^ 32)
          (m.core + 2 ^ 7 * (x.w - 1) + 2 ^ 10 * (x.h - 1)) (s.die x.die).clk limit))

/-- R2, R146, R379, R381, R418, R442: a reset die starts again: its clock, its cores, its registers, its engines and its memory
stand as at reset, its gangs are gone, every other die is in fallback for it, and nothing of another die's memory has changed; a
change of a throttle step raises vector 74.
The model's choice where the spec is silent: log 28. -/
def Sys2Proof.Claims.DieResetClearsOneDie : Prop :=
  ∀ (s : State) (d : Nat),
    (8 ≤ d → exec (.dieReset d) s = .next s) ∧
    (d < 8 → s.memoryOk → ∃ u : State, exec (.dieReset d) s = .next u ∧
      u.die d = { ccImage := (s.die d).ccImage, heat := (s.die d).heat, hot := (s.die d).hot } ∧
      (∀ c, c / 16 = d → u.core c = {}) ∧ (∀ g, g ∈ u.gangs ↔ g ∈ s.gangs ∧ g.2.die ≠ d) ∧
      (∀ j, j < 8 → j ≠ d → u.fallback j d = true ∧ (u.die j).clk = (s.die j).clk) ∧
      (u.steps ≠ s.steps → raised s u 74) ∧ (∀ o, inBlock d o = true → o ≠ dsReg d 0x18 → u.reg o = regReset o) ∧
      u.reg (dsReg d 0x18) = (if s.reg 0x5048 / 2 % 2 = 1 then 0 else regReset (dsReg d 0x18)) ∧
      ∀ a, readByte u.mem a = if dieOfPlace a = d then 0 else readByte s.mem a)

/-- R23, R24, R451, R454: a job is accepted while none is pending; an idle control core with an installed image starts it at the
block of KC_CC_ENTRY with v0 as given and every other register zero, and an event job with v0 = 1 while a record other than
XPATH waits; a block that the image lacks halts the program.
The model's choice where the spec is silent: log 29. -/
def Sys2Proof.Claims.JobsStart : Prop :=
  ∀ (s : State) (c v : Nat),
    let job := s.reg (kcReg c 0x4C0)
    let entry := s.reg (kcReg c 0x4C8)
    let k := s.core c
    let ready (img : Nat) : Prop := k.cc = .idle ∧ (s.die (c / 16)).ccImage = some img ∧ (s.die (c / 16)).ccNext = none ∧
      s.rareWaited c = false
    let event : Prop := ∃ r ∈ k.evq, r.toNat % 256 ≠ 1
    let begins (i : Instr) (img v0 : Nat) (ev : Bool) (more : State → Prop) : Prop :=
      ∃ u : State, exec i s = .next u ∧ u.mem = s.mem ∧ more u ∧ (u.core c).threads = k.threads ∧
        (u.core c).waited = xpathSlots k ∧
        (∀ n, mgetD (u.core c).ctl.regs n 0 = if n = 0 then BitVec.ofNat 64 v0 else 0) ∧ (u.core c).ctl.eventJob = ev ∧
        (entry < (s.image img).blocks.length → (u.core c).cc = .job ∧ ∃ p, (u.core c).ctl.pass = some p ∧ p.img = img ∧
          p.blk = entry ∧ p.inst = none ∧ p.fired = [] ∧ p.opnd = [] ∧ p.ops = []) ∧
        ((s.image img).blocks.length ≤ entry → (u.core c).cc = .halted ∧ (u.core c).ctl.pass = none ∧
          posted u (.sup (c / 16)) (recordOf 8 0x02 0 0 c 0xFFFF 0 0 (s.die (c / 16)).clk 0))
    (exec (.ccJobWrite c v) s = .next (if job % 2 = 1 then s else s.setReg (kcReg c 0x4C0) (v / 2 ^ 9 % 2 ^ 43 * 2 ^ 9 + 1))) ∧
    (job % 2 = 0 ∨ (∀ img, ¬ ready img) → exec (.controlJobStart c) s = .next s) ∧
    (¬ event ∨ (∀ img, ¬ ready img) → exec (.eventJobStart c) s = .next s) ∧
    (∀ img, ready img → job % 2 = 1 → begins (.controlJobStart c) img (job - 1) false fun u => u.reg (kcReg c 0x4C0) = job - 1) ∧
    (∀ img, ready img → event → begins (.eventJobStart c) img 1 true fun _ => True)

/-- R90, R454: a replacement of the control-core image is accepted or refused by its bytes, or accepted under the digest of an
image accepted before: refused, its reason stands in
DS_CC_IMAGE_STAT and the old image stays; accepted, it waits until no control core of the die runs a job and is then installed,
and the bit of an earlier refusal stays.
The model's choice where the spec is silent: logs 29, 48 and 97. -/
def Sys2Proof.Claims.ImagesAreReplaced : Prop :=
  ∀ (s : State) (d v : Nat),
    let stat := s.reg (dsReg d 0x4D8)
    let a : W64 := BitVec.ofNat 64 (v / 16 % 2 ^ 48 * 16)
    let up : Prop := s.reg (dsReg d 0x18) % 2 = 1
    let refused (code : Nat) : Prop := ∃ u : State, exec (.ccImageReplace d v) s = .next u ∧ u.mem = s.mem ∧
      (u.die d).ccPend = none ∧ (u.die d).ccImage = (s.die d).ccImage ∧ (u.die d).ccNext = (s.die d).ccNext ∧
      u.reg (dsReg d 0x4D8) = 2 + (stat + 1) / 4 % 2 * 4 + 2 ^ 16 * (code % 2 ^ 16)
    (stat % 2 = 1 → exec (.ccImageReplace d v) s = .next s) ∧
    (stat % 2 = 0 →
      (¬ up → ∃ u : State, exec (.ccImageReplace d v) s = .next u ∧ (u.die d).ccPend = some a.toNat ∧
        u.reg (dsReg d 0x4D8) = stat + 1 ∧ (u.die d).ccImage = (s.die d).ccImage) ∧
      (up → ∀ h r, s.ctlRead a 256 = .ok h → headerReason s.keys h true = some r → refused r.code) ∧
      (up → ∀ code sub, s.ctlRead a 256 = .fault code sub → refused Config.unreadableImage.code) ∧
      (up → ∀ h bs r, s.ctlRead a 256 = .ok h → headerReason s.keys h true = none → s.accepted (headerOf h) = none →
        s.ctlRead a (headerOf h).len = .ok bs → acceptImage s.keys true bs = .error r → refused r.reason.code) ∧
      (up → ∀ h im, s.ctlRead a 256 = .ok h → headerReason s.keys h true = none →
        ((∃ n, s.accepted (headerOf h) = some n ∧ s.image n = im) ∨ (s.accepted (headerOf h) = none ∧
          ∃ bs, s.ctlRead a (headerOf h).len = .ok bs ∧ acceptImage s.keys true bs = .ok im ∧ isKept s im)) → ∃ (u : State) (n : Nat), exec (.ccImageReplace d v) s = .next u ∧
          u.mem = s.mem ∧ (u.die d).ccNext = some n ∧ u.image n = im ∧ (u.die d).ccPend = none ∧
          (u.die d).ccImage = (s.die d).ccImage ∧ u.reg (dsReg d 0x4D8) = stat + 1)) ∧
    ((s.die d).ccPend = none →
      ((s.die d).ccNext = none → exec (.ccImageInstall d) s = .next s) ∧
      (∀ i, i < 16 → (s.core (d * 16 + i)).cc = .job → exec (.ccImageInstall d) s = .next s) ∧
      (∀ n, (s.die d).ccNext = some n → (∀ i, i < 16 → (s.core (d * 16 + i)).cc ≠ .job) → ∃ u : State,
        exec (.ccImageInstall d) s = .next u ∧ u.mem = s.mem ∧ u.cores = s.cores ∧
        u.die d = { s.die d with ccImage := some n, ccNext := none } ∧
        u.reg (dsReg d 0x4D8) % 2 = 0 ∧ u.reg (dsReg d 0x4D8) / 4 % 2 = 1 ∧ u.reg (dsReg d 0x4D8) / 2 % 2 = stat / 2 % 2))

/-- R3, R90, R438, R439, R454: power-on leaves memory, registers, dies, cores, gangs, launches, tasks and requests as at reset, and
fuses, keys and host memory as they were. With the firmware verified and both PRIV images accepted under the firmware key slots
it measures the firmware and each image once, and every die runs the control-core image; else every die stays in reset. The boot
scrub then leaves zero in every byte of device memory and of the die scratchpads, and DV_SCRUB says so.
The model's choice where the spec is silent: logs 27 and 30. -/
def Sys2Proof.Claims.PowerOnAndScrub : Prop :=
  (∀ (s : State) (ok : Bool) (m0 : List Byte) (sup cc : List W32),
    let image (ws : List W32) := acceptImage s.keys true (ws.flatMap (fun w => toLE w.toNat 4))
    let cold (u : State) : Prop := exec (.powerOn ok m0 sup cc) s = .next u ∧ u.mem = [] ∧ u.side = [] ∧ u.cores = State.reset.cores ∧
      (∀ d, u.die d = { State.reset.die d with ccImage := (u.die d).ccImage }) ∧
      u.gangs = [] ∧ u.launches = [] ∧ u.dispatched = [] ∧ u.tasks = [] ∧ u.reqs = [] ∧ u.msgs = [] ∧
      (∀ o, o ≠ 0x5048 → (∀ d, d < 8 → o ≠ dsReg d 0x18) → u.reg o = regReset o) ∧
      u.fuses = s.fuses ∧ u.keys = s.keys ∧ u.host = s.host
    (∀ fw im, ok = true → image sup = .ok fw → image cc = .ok im → (fw.digest = im.digest → fw = im) → fw.priv = true → im.priv = true →
      ∃ (u : State) (n : Nat), cold u ∧ u.reg 0x5048 = 1 ∧ u.image n = im ∧ (∃ e ∈ u.images, e.2 = fw) ∧
        (∀ d, d < 8 → (u.die d).ccImage = some n ∧ u.reg (dsReg d 0x18) = regReset (dsReg d 0x18)) ∧
        u.meas.getD 0 0 = sha384 (toBE 0 48 ++ toBE (beNat m0) 48) ∧
        let one := sha384 (toBE 0 48 ++ toBE fw.digest 48)
        u.meas.getD 1 0 = if im.digest = fw.digest then one else sha384 (toBE one 48 ++ toBE im.digest 48)) ∧
    (ok = false ∨ (∀ fw, image sup ≠ .ok fw) ∨ (∀ im, image cc ≠ .ok im) → ∃ u : State, cold u ∧ u.reg 0x5048 = 2 ∧
      ∀ d, d < 8 → u.reg (dsReg d 0x18) = 0 ∧ (u.die d).ccImage = none)) ∧
  (∀ s : State,
    (s.reg 0x5048 % 2 = 0 ∨ s.reg 0x010 % 2 = 1 → exec .bootScrubComplete s = .next s) ∧
    (s.reg 0x5048 % 2 = 1 → s.reg 0x010 % 2 = 0 → ∃ u : State, exec .bootScrubComplete s = .next u ∧ u.reg 0x010 = 1 ∧
      (∀ o, o ≠ 0x010 → u.reg o = s.reg o) ∧ (∀ line, u.sideOf line = {}) ∧
      ∀ a, readByte u.mem a = if inMemory a then 0 else readByte s.mem a))

/-- R380: a time of another die is converted with the offset, the rate and the epoch in effect: the distance from the epoch as a
signed number, times the signed rate, floored at 2^40; a time of the own die stays. -/
def Sys2Proof.Claims.TimesAreConverted : Prop :=
  ∀ (s : State) (d j t : Nat),
    s.convert d d t = t ∧
    (d ≠ j → ∀ dist rate : Int, -2 ^ 63 ≤ dist → dist < 2 ^ 63 → (dist - ((t : Int) - s.reg (clkReg d j 0x10))) % 2 ^ 64 = 0 →
      -2 ^ 31 ≤ rate → rate < 2 ^ 31 → (rate - s.reg (clkReg d j 8)) % 2 ^ 32 = 0 →
      ((s.convert d j t : Nat) : Int) = ((t : Int) + s.reg (clkReg d j 0) + ⌊((dist * rate : Int) : ℚ) / 2 ^ 40⌋) % 2 ^ 64)

/-- R380, R381: a stamp's error above 8 ns puts its pair into fallback, and two good stamps in a row end it; the error stands in
DS_CLKERR; a write of the epoch installs the shadow offset and rate with it; a time probe's answer clears the completion times
of that die up to it, and no later one.
The model's choice where the spec is silent: log 54. -/
def Sys2Proof.Claims.ClocksAreCompared : Prop :=
  (∀ (s : State) (d j stamp : Nat), (d = j ∨ 8 ≤ j → exec (.clockStamp d j stamp) s = .next s) ∧
    (d ≠ j → j < 8 → d < 8 → ∀ e : Int, -2 ^ 63 ≤ e → e < 2 ^ 63 →
      (e - ((s.convert d j stamp : Nat) - ((s.die d).clk : Int))) % 2 ^ 64 = 0 →
      let was := s.fallback d j
      let good := mgetD (s.die d).good j 0
      let bad : Prop := 8 < e.natAbs
      let stays : Prop := bad ∨ (was = true ∧ good = 0)
      ∃ u : State, exec (.clockStamp d j stamp) s = .next u ∧ u.mem = s.mem ∧ u.cores = s.cores ∧
        u.reg (clkReg d j 0x18) % 2 ^ 16 = min e.natAbs 0xFFFF ∧ (u.fallback d j = true ↔ stays) ∧
        (bad → mgetD (u.die d).good j 0 = 0) ∧ (¬ bad → was = true → good = 0 → mgetD (u.die d).good j 0 = 1) ∧
        ∀ k, k < 8 → k ≠ j → u.fallback d k = s.fallback d k)) ∧
  (∀ (s : State) (d j v : Nat),
    (d = j ∨ 8 ≤ j → exec (.clkepochInstall d j v) s = .next s) ∧
    (d ≠ j → j < 8 → ∃ u : State, exec (.clkepochInstall d j v) s = .next u ∧ u.mem = s.mem ∧ u.dies = s.dies ∧
      (u.reg (clkReg d j 0), u.reg (clkReg d j 8)) = mgetD (s.die d).shadow j (s.reg (clkReg d j 0), s.reg (clkReg d j 8)) ∧
      u.reg (clkReg d j 0x10) = v % 2 ^ 64)) ∧
  (∀ (s : State) (d j clock : Nat), ∃ u : State, exec (.timeProbeReply d j clock) s = .next u ∧ u.mem = s.mem ∧ u.regs = s.regs ∧
    (∀ c, c / 16 ≠ d → u.core c = s.core c) ∧
    (∀ c t, c / 16 = d → u.thread c t = { s.thread c t with far := (u.thread c t).far } ∧
      ∀ e, e ∈ (u.thread c t).far ↔ e ∈ (s.thread c t).far ∧ (e.1 ≠ j ∨ clock < e.2)) ∧
    ∀ n e, e ∈ (u.launch n).far ↔ e ∈ (s.launch n).far ∧ (e.1 ≠ 8 * d + j ∨ clock < e.2))

/-- R13, R374 to R376: a commit of the connection table is refused while a change is under way or where its shadow names its own
die, has a nonzero zero field, or sends twice on one wavelength to one die; else every byte of the shadow is in effect and the
circuits of the pairs whose wavelengths change pause until the change is complete. -/
def Sys2Proof.Claims.CircuitsChange : Prop :=
  ∀ s : State,
    let stat := s.reg 0x3002008
    let shadow (d w : Nat) : Nat := s.reg (0x3000000 + 0x400 * d + 8 * (w / 8)) / 2 ^ (8 * (w % 8)) % 256
    let bad : Prop := ∃ w, w < 1024 ∧ ((∃ d, d < 8 ∧ (16 ≤ shadow d w ∨ shadow d w = 8 + d)) ∨
      ∃ t a b, t < 8 ∧ a < b ∧ b < 8 ∧ shadow a w = 8 + t ∧ shadow b w = 8 + t)
    let flagged (k : Nat) : Prop := ∃ u : State, exec .zpCommit s = .next u ∧ u.conn = s.conn ∧ u.circuits = s.circuits ∧
      u.reg 0x3002008 / 2 ^ k % 2 = 1 ∧ ∀ o, o ≠ 0x3002008 → u.reg o = s.reg o
    (stat % 2 = 1 → flagged 2) ∧
    (stat % 2 = 0 → bad → flagged 1) ∧
    (stat % 2 = 0 → ¬ bad → ∃ u : State, exec .zpCommit s = .next u ∧ u.reg 0x3002008 = stat + 1 ∧ u.mem = s.mem ∧
      (∀ d w, d < 8 → w < 1024 → u.connByte d w = shadow d w) ∧
      ∀ p, p ∈ u.circuits ↔ p < 64 ∧ ∃ w, w < 1024 ∧ ¬ (s.connByte (p / 8) w = 8 + p % 8 ↔ shadow (p / 8) w = 8 + p % 8)) ∧
    (stat % 2 = 0 → exec .circuitChangeComplete s = .next s) ∧
    (stat % 2 = 1 → ∃ u : State, exec .circuitChangeComplete s = .next u ∧ u.circuits = [] ∧ u.conn = s.conn ∧
      u.reg 0x3002008 = stat - 1)

/-- R439, R440: a quote takes nonce and measurements in one step; when it is complete its 312 bytes stand at the address of
DV_ATT_ADDR and the status says so; an address outside one die's device memory gets nothing and sets DV_ATT_STAT [2].
The model's choice where the spec is silent: logs 2 and 35. -/
def Sys2Proof.Claims.QuotesAreWritten : Prop :=
  ∀ s : State,
    let stat := s.reg 0x5040
    let nonce := (List.range 6).flatMap (fun k => toLE (s.reg (0x5000 + 8 * k)) 8)
    let a := s.reg 0x5030
    (stat % 2 = 1 → exec .attestationGo s = .next s) ∧
    (stat % 2 = 0 → ∃ u : State, exec .attestationGo s = .next u ∧ u.mem = s.mem ∧ u.reg 0x5040 = stat + 1 ∧
      u.quote = some (nonce ++ s.meas.flatMap (fun m => toBE m 48))) ∧
    (s.quote = none → exec .quoteComplete s = .next s) ∧
    (∀ taken, s.quote = some taken → stat % 2 = 1 →
      ((∀ d, ¬ (regionOf a = .dev d ∧ regionOf (a + 311) = .dev d)) → ∃ u : State, exec .quoteComplete s = .next u ∧ u.mem = s.mem ∧
        u.quote = none ∧ u.quotes = s.quotes ∧ u.reg 0x5040 % 2 = 0 ∧ u.reg 0x5040 / 4 % 2 = 1) ∧
      (∀ d, regionOf a = .dev d → regionOf (a + 311) = .dev d → (∀ i, i < 3 → s.homeFree (a / 128 + i) = true) →
        s.memoryOk → taken.length = 192 → ∃ u : State, exec .quoteComplete s = .next u ∧ u.quote = none ∧ u.quotes = s.quotes + 1 ∧
          u.reg 0x5040 % 2 = 0 ∧ u.reg 0x5040 / 2 % 2 = 1 ∧ raised s u 73 ∧ sameOutside s u a 312 ∧
          readLE u.mem a 4 = 0x4E445154 ∧ readLE u.mem (a + 4) 4 = 0 ∧ readLE u.mem (a + 8) 8 = s.reg 0 % 2 ^ 64 ∧
          readBytes u.mem (a + 16) 192 = taken ∧ readLE u.mem (a + 208) 8 = (s.quotes + 1) % 2 ^ 64))

/-- R430, R441, R442: above the power cap every core of the tenant with the most cores per weight goes up one step, and at least
5 % below it the throttled tenant with the fewest goes down one; ties go to the lower tenant. A die at 100 °C runs at step 4 or
higher, at 110 °C it is held until 95 °C. Every change raises vector 74.
The model's choice where the spec is silent: log 36. -/
def Sys2Proof.Claims.PowerAndHeat : Prop :=
  (∀ (s : State) (watts : Nat),
    let cap := s.reg 0x5100
    let cores (t : Nat) : List Nat := s.tenantCores t
    let weight (t : Nat) : Nat := s.reg (0x5110 + 8 * (t / 8)) / 2 ^ (8 * (t % 8)) % 256
    let above (t u : Nat) : Prop := weight u ≠ 0 ∧ (weight t = 0 ∨ (cores u).length * weight t < (cores t).length * weight u)
    let first (ok : Nat → Prop) (beats : Nat → Nat → Prop) (t : Nat) : Prop := t < 64 ∧ ok t ∧
      (∀ u, u < 64 → ok u → ¬ beats u t) ∧ ∀ u, u < t → ok u → beats t u
    let uses (t : Nat) : Prop := cores t ≠ []
    let slowed (t : Nat) : Prop := ∃ c ∈ cores t, 0 < (s.core c).throttle
    ∃ u : State, exec (.powerMeasurement watts) s = .next u ∧ u.mem = s.mem ∧ u.reg 0x5108 = watts % 2 ^ 12 ∧
      (u.steps ≠ s.steps → raised s u 74) ∧
      (∀ t, cap < watts → first uses above t → ∀ c,
        u.core c = if c ∈ cores t then { s.core c with throttle := min ((s.core c).throttle + 1) 7 } else s.core c) ∧
      (∀ t, watts ≤ cap → 100 * watts ≤ 95 * cap → first slowed (fun a b => above b a) t → ∀ c,
        u.core c = if c ∈ cores t then { s.core c with throttle := (s.core c).throttle - 1 } else s.core c) ∧
      (watts ≤ cap → 95 * cap < 100 * watts → u.cores = s.cores)) ∧
  (∀ (s : State) (d celsius : Nat),
    let hot := 110 ≤ celsius ∨ 95 < celsius ∧ (s.die d).hot = true
    ∃ u : State, exec (.thermalThreshold d celsius) s = .next u ∧ u.mem = s.mem ∧ (u.die d).heat = celsius ∧
      ((u.die d).hot = true ↔ hot) ∧ (u.steps ≠ s.steps ∨ ¬ ((u.die d).hot = (s.die d).hot) → raised s u 74) ∧
      (∀ c, c / 16 = d → u.stepOf c = if 100 ≤ celsius then max (s.core c).throttle 4 else (s.core c).throttle) ∧
      (hot → ∀ c, c / 16 = d → u.heldCore c = true) ∧ ∀ c t, u.thread c t = s.thread c t)

/-- R378: the admission entry of a request is the lowest valid one of its port whose source and window match. -/
def Sys2Proof.Claims.LowestEntryAdmits : Prop :=
  ∀ (s : State) (p : Nat) (r : PeerRequest), keyed s.regs → p < 12 →
    let e (k : Nat) : Nat := s.reg (0x3008000 + 0x8000 * p + 32 * k)
    let fits (k : Nat) : Prop := k < 1024 ∧ e k / 2 ^ 31 % 2 = 1 ∧ e k % 2 ^ 10 = r.source ∧ e k / 2 ^ 10 % 2 ^ 12 = r.window
    (s.admissionOf p r = none ↔ ∀ k, ¬ fits k) ∧
    ∀ a, s.admissionOf p r = some a ↔ ∃ k, fits k ∧ (∀ j, j < k → ¬ fits j) ∧
      a = { tenant := e k / 2 ^ 22 % 2 ^ 6, read := e k / 2 ^ 28 % 2 = 1, write := e k / 2 ^ 29 % 2 = 1, atomic := e k / 2 ^ 30 % 2 = 1,
            key := e k / 2 ^ 32 % 2 ^ 32, base := s.reg (0x3008000 + 0x8000 * p + 32 * k + 8) % 2 ^ 57,
            len := s.reg (0x3008000 + 0x8000 * p + 32 * k + 16) }

/-- R240, R244, R378, R414, R426, R434 to R437: an incoming request finds no port while its link is down; it waits while its die is
held or an earlier one of its requester waits; a disabled port and a failing check refuse it with their subcode and change no
byte; an admitted read answers the bytes, a write leaves its data at its place, an atomic performs in a line buffer that owns the
line. The answer joins the port's traffic, charged to the tenant of the entry. A lost link times every request of its port out:
a read parks its thread in phase one and a write, an atomic or a probe with partial commit, a reduction becomes a DEFERRED entry,
and the requester's tenant takes a record.
The model's choice where the spec is silent: logs 17, 32 and 33. -/
def Sys2Proof.Claims.PortsServeTheirPeers : Prop :=
  (∀ (s : State) (p : Nat) (r : PeerRequest), keyed s.portQ →
    let d := p % 8
    let up : Prop := p < 12 ∧ s.reg (0x30A0008 + 0x100 * p) % 2 = 1
    let q := mgetD s.portQ p []
    let serves : Prop := s.heldDie d = false ∧ ∀ w ∈ q, w.req.source ≠ r.source
    let on := decide (s.reg (0x30A0000 + 0x100 * p) / 2 ^ 31 % 2 = 1)
    let n := match r.acc with | .read n => n | .write b _ => b.length | .atomic _ n _ _ => n | .probe => 0
    let lies : Prop := match r.acc with
      | .atomic op n _ _ => (n = 4 ∨ n = 8 ∧ op ≠ .fadd32) ∧ op ≠ .unsupported ∧ r.off % n = 0
      | _ => 1 ≤ n ∧ r.off % 256 + n ≤ 256
    let right (a : Admission) : Prop := match r.acc with
      | .read _ => a.read = true
      | .write _ _ => a.write = true
      | .atomic _ _ _ _ => a.atomic = true ∧ a.write = true
      | .probe => False
    let payer := ((s.admissionOf p r).map (·.tenant)).getD 0
    let gives (u : State) (t : Nat) (x : PortReply) : Prop := mgetD u.portQ p [] = q ∧
      ∃ k, (u.link p).queue = (s.link p).queue ++ [k] ∧ k.what = .answer x ∧ k.tenant = t
    let answers (t : Nat) (x : PortReply) : Prop := ∃ u : State, exec (.ualinkRequest p r) s = .next u ∧ gives u t x ∧ u.mem = s.mem
    let waits : Prop := ∃ u : State, exec (.ualinkRequest p r) s = .next u ∧ u.mem = s.mem ∧ (u.link p).queue = (s.link p).queue ∧
      mgetD u.portQ p [] = q ++ [{ req := r, on, entry := s.admissionOf p r }]
    (¬ up → exec (.ualinkRequest p r) s = .next s) ∧
    (up → ¬ serves → waits) ∧
    (up → serves → on = false → answers 0 (.refused 1)) ∧
    (up → serves → on = true → r.acc = .probe → let passed := s.timesPassed (mgetD s.portTimes (1024 * p + r.source % 1024) [])
      (passed = true → answers payer (.data [])) ∧ (passed = false → waits)) ∧
    (up → serves → on = true → r.acc ≠ .probe → ¬ lies → answers payer .unsupported) ∧
    (up → serves → on = true → lies → s.admissionOf p r = none → answers 0 (.refused 1)) ∧
    (∀ a, up → serves → on = true → lies → s.admissionOf p r = some a →
      (a.key ≠ r.key → answers a.tenant (.refused 2)) ∧
      (a.key = r.key → a.len < r.off + n → answers a.tenant (.refused 3)) ∧
      (a.key = r.key → r.off + n ≤ a.len → ¬ right a → answers a.tenant (.refused 4)) ∧
      (a.key = r.key → r.off + n ≤ a.len → right a →
        (∀ op k v w, r.acc = .atomic op k v w → (a.base + r.off) % k ≠ 0 → answers a.tenant .unsupported) ∧
        ((∀ op k v w, r.acc = .atomic op k v w → (a.base + r.off) % k = 0) →
        let rt : Right := match r.acc with | .read _ => .read | .write _ _ => .write | .atomic _ _ _ _ => .atomic | .probe => .read
        let at_ := s.portPieces d a.tenant rt (linePieces (a.base + r.off) n)
        (∀ v, at_ = .wait v → waits) ∧
        (∀ k, at_ = .refused k → answers a.tenant (.refused k)) ∧
        (∀ ps, at_ = .ok ps → (∀ k, r.acc = .read k → answers a.tenant (.data (ps.flatMap (fun q => readBytes s.mem q.1.pa q.1.len)))) ∧
          (∀ b, r.acc = .write b true → answers a.tenant (.refused 6))) ∧
        (∀ x b, at_ = .ok [x] → r.acc = .write b false → x.1.len = b.length → s.memoryOk → ∃ u : State,
          exec (.ualinkRequest p r) s = .next u ∧ gives u a.tenant (.data []) ∧ readBytes u.mem x.1.pa b.length = b ∧
            sameOutside s u x.1.pa b.length) ∧
        (∀ x op k v w, at_ = .ok [x] → r.acc = .atomic op k v w → s.owned (16 * d) (x.1.pa / 128) = none → waits) ∧
        (∀ x op k v w l, at_ = .ok [x] → r.acc = .atomic op k v w → s.owned (16 * d) (x.1.pa / 128) = some l →
          let y := atomicRun (peerInstr op k) { r := v, p := w } (fun _ => 0) ((l.data.drop (x.1.pa % 128)).take k) l.ver (s.sideOf (x.1.pa / 128)).vp
          ∃ u : State, exec (.ualinkRequest p r) s = .next u ∧ u.mem = s.mem ∧ gives u a.tenant (.data (toLE y.t0.toNat k)) ∧
            ∃ l', l' ∈ (u.core (16 * d)).alb ∧ l'.line = l.line ∧ (y.wrote = true → l'.modified = true ∧
              l'.data = l.data.take (x.1.pa % 128) ++ y.new ++ l.data.drop (x.1.pa % 128 + k) ∧ l'.ver = (l.ver + 1) % 2 ^ 56)))))) ∧
  (∀ (s : State) (p : Nat), p < 12 →
    let at_ := 0x30A0008 + 0x100 * p
    (keyed s.reqs → ∃ u : State, exec (.ualinkLinkLoss p) s = .next u ∧ u.reg at_ % 4 = 2 ∧ ∀ e ∈ u.reqs, e.2.onPort p = false) ∧
    (∃ u : State, exec (.ualinkLinkUp p) s = .next u ∧ u.mem = s.mem ∧ u.reg at_ % 2 = 1 ∧ ∀ o, o ≠ at_ → u.reg o = s.reg o)) ∧
  (∀ (s : State) (p n c t : Nat) (r : Req), p < 12 → keyed s.reqs → mget s.reqs n = some r → r.onPort p = true →
    (∀ e ∈ s.reqs, e.2.onPort p = true → e.1 = n) → r.agent = .fab c t → s.memoryOk →
    let own (tenant : Nat) (u : State) : Prop := tenant < 64 →
      let b := 0x2000 + 0x20 * tenant
      let size := 2 ^ (min (s.reg (b + 8) % 16) 6 + 6)
      let used := (s.reg (b + 16) % 2 ^ 32 + 2 ^ 32 - s.reg (b + 16) / 2 ^ 32) % 2 ^ 32
      if s.reg (b + 8) / 2 ^ 31 % 2 = 1 ∧ used < size then u.reg (b + 16) % 2 ^ 32 = (s.reg (b + 16) + 1) % 2 ^ 32
      else u.reg (b + 24) = min (s.reg (b + 24) + 1) (2 ^ 32 - 1)
    let parks (op : Option Nat) : Prop := ∃ u pk, exec (.ualinkLinkLoss p) s = .next u ∧ mget u.reqs n = none ∧
      (u.thread c t).st = .parked ∧ (u.thread c t).park = some pk ∧ pk.code = 0x06 ∧ pk.sub = 0 ∧ pk.partialAt = op ∧
      pk.addr = r.va % 2 ^ 64 ∧ own (s.tenantOf (.fab c t)) u
    (∀ z, r.kind = .remoteRead z → MayPark s (.fab c t) c t → inPhaseOne s c t → parks none) ∧
    (∀ k, r.kind = .remoteWrite k ∨ r.kind = .remoteAtomic k → MayPark s (.fab c t) c t → parks (some k)) ∧
    (∀ q, r.kind = .probe q → r.idx ≠ 0xFFFF → s.nrAt (.fab c t) r.lsid = false → MayPark s (.fab c t) c t → parks (some r.lsid)) ∧
    (∀ m x, r.kind = .remoteNr m → mget (s.core c).nrOps m = some x → x.agent.slot ≠ none → ∃ u : State,
      exec (.ualinkLinkLoss p) s = .next u ∧ mget (u.core c).nrOps m = none ∧ own x.tenant u ∧
      mgetD (u.launch x.seq).nrOut x.agent.die 0 = mgetD (s.launch x.seq).nrOut x.agent.die 0 - 1 ∧
      (u.launch x.seq).faultCount = min ((s.launch x.seq).faultCount + 1) (2 ^ 32 - 1) ∧
      ((s.launch x.seq).faults.length < 16 → ∃ e : Rec, (u.launch x.seq).faults = (s.launch x.seq).faults ++ [e] ∧
        e.toNat % 2 ^ 16 = 0x060B ∧ e.toNat / 2 ^ 64 % 2 ^ 64 = x.op.r.toNat)))

/-- R14, R244, R247, R429: a host write through the aperture leaves its bytes in device memory and the die scratchpads, and nothing
elsewhere; a read returns the bytes as a whole, with the poison among them, or no data where a byte lies in no region. An access
that waits for a circuit or an owner keeps the origin of its arrival. -/
def Sys2Proof.Claims.TheApertureReachesMemory : Prop :=
  ∀ (s : State) (off n : Nat) (bs : List Byte),
    let o := s.aperBase.getD (s.reg 0x30C0000)
    let a := o + off
    let gone : State := { s with aperBase := none }
    let waits (i : Instr) : Prop := ∃ u : State, exec i s = .next u ∧ u.mem = s.mem ∧ u.aperBase = some o
    let inside (m : Nat) : Prop := ∀ x, a ≤ x → x < a + m → inMemory x = true
    let ready (m : Nat) : Prop := ∀ x, a ≤ x → x < a + m → s.reaches 0 (x / 128) = true ∧ s.homeFree (x / 128) = true
    (2 ^ 36 ≤ off → exec (.hostWrite off bs) s = .next gone) ∧
    (0 < bs.length → off + bs.length ≤ 2 ^ 36 → (∀ x, a ≤ x → x < a + bs.length → inMemory x = false) →
      exec (.hostWrite off bs) s = .next gone) ∧
    (off + bs.length ≤ 2 ^ 36 → (∃ x, a ≤ x ∧ x < a + bs.length ∧ inMemory x = true ∧
      (s.reaches 0 (x / 128) = false ∨ s.homeFree (x / 128) = false)) → waits (.hostWrite off bs)) ∧
    (0 < bs.length → off + bs.length ≤ 2 ^ 36 → inside bs.length → ready bs.length → s.memoryOk → ∃ u : State, exec (.hostWrite off bs) s = .next u ∧
      readBytes u.mem a bs.length = bs ∧ sameOutside s u a bs.length ∧ u.aperBase = none ∧
      ∀ l, (u.sideOf l).ver = if versioned l ∧ a < l * 128 + 128 ∧ l * 128 < a + bs.length
        then ((s.sideOf l).ver + 1) % 2 ^ 56 else (s.sideOf l).ver) ∧
    (2 ^ 36 < off + n → exec (.hostRead off n) s = .next gone) ∧
    (off + n ≤ 2 ^ 36 → 0 < n →
      (inside n → ¬ ready n → waits (.hostRead off n)) ∧
      (inside n → ready n → ∃ u : State, exec (.hostRead off n) s = .next u ∧ u.mem = s.mem ∧ u.hostData = readBytes s.mem a n ∧
        (u.hostPoison = true ↔ ∃ p ∈ linePieces a n, s.poisonAt p.1 p.2 = true)) ∧
      (¬ inside n → ∃ u : State, exec (.hostRead off n) s = .next u ∧ u.mem = s.mem ∧ u.hostData = [] ∧ u.hostPoison = false))

/-- R386, R431, R432: the transfer engine takes the descriptor at its done count, refuses one outside memory, poisoned or ill formed
with its cause and vector 72, and moves a line or a sidecar entry a step; after the last it counts the descriptor as done. A
poisoned line reaches the host with a poisoned completion, and a completion error of the host stops the engine with cause 5.
The model's choice where the spec is silent: logs 8 and 34; host memory is the model's own. -/
def Sys2Proof.Claims.TransfersMoveLines : Prop :=
  ∀ (s : State) (v : Nat),
    let stat := s.reg 0x30C0120
    let cfg := s.reg 0x30C0108
    let size := if cfg % 32 < 4 ∨ 16 < cfg % 32 then 16 else 2 ^ (cfg % 32)
    let a := s.reg 0x30C0100 + 32 * (s.reg 0x30C0118 % size)
    let runs : Prop := cfg / 2 ^ 31 % 2 = 1 ∧ stat / 2 % 2 = 0 ∧ s.xfer = none ∧ s.reg 0x30C0110 ≠ s.reg 0x30C0118
    let stops (i : Instr) (cause moved : Nat) : Prop := ∃ u : State, exec i s = .next u ∧ u.xfer = none ∧ u.mem = s.mem ∧
      u.host = s.host ∧ u.side = s.side ∧ u.reg 0x30C0120 = 2 + 16 * cause + 256 * (moved % 2 ^ 56) ∧ raised s u 72 ∧
      u.reg 0x30C0118 = s.reg 0x30C0118
    let f (o : Nat) : Nat := readLE s.mem (a + o) 8
    let formed : Prop := f 0 % 128 = 0 ∧ f 8 % 128 = 0 ∧ f 16 % 128 = 0 ∧ 128 ≤ f 16 ∧ f 16 ≤ 2 ^ 36 ∧ f 24 < 4
    (exec (.xqTailWrite v) s = .next (s.setReg 0x30C0110 (v % 2 ^ 32))) ∧
    (stat / 2 % 2 = 0 → exec .xqRestart s = .next s) ∧
    (stat / 2 % 2 = 1 → exec .xqRestart s = .next (s.setReg 0x30C0120 0)) ∧
    (¬ runs → exec .xferDescriptorStart s = .next s) ∧
    (runs → inMemory a = false → stops .xferDescriptorStart 2 0) ∧
    (runs → inMemory a = true → s.reaches 0 (a / 128) = true → s.homeFree (a / 128) = true →
      (s.poisonAt a 32 = true → stops .xferDescriptorStart 4 0) ∧
      (s.poisonAt a 32 = false → ¬ formed → stops .xferDescriptorStart 1 0) ∧
      (s.poisonAt a 32 = false → formed → ∃ u : State, exec .xferDescriptorStart s = .next u ∧ u.mem = s.mem ∧ u.reg 0x30C0120 % 2 = 1 ∧
        u.xfer = some { dev := f 0, host := f 8, len := f 16, toDev := f 24 % 2 = 1, side := f 24 / 2 % 2 = 1 })) ∧
    (s.xfer = none → exec .xferDescriptorComplete s = .next s) ∧
    (∀ x, s.xfer = some x →
      let step := if x.side then 8 else 128
      let line := x.dev / 128 + x.moved / step
      let h := (x.host + x.moved) % 2 ^ 64
      let out : Prop := inMemory (line * 128) = false ∨ (x.side = true ∧ versioned line = false)
      let thawed : Prop := x.side = true ∧ s.reg 0x20 / 2 ^ (homeDie line) % 2 = 0
      let lost : Prop := x.toDev = false ∧ (s.sideOf line).vp = true
      (¬ out → ¬ thawed → ¬ lost → let u := s.hostError
        u.xfer = none ∧ u.mem = s.mem ∧ u.host = s.host ∧ u.side = s.side ∧ u.reg 0x30C0120 = 2 + 16 * 5 + 256 * (x.moved % 2 ^ 56) ∧
          raised s u 72 ∧ u.reg 0x30C0118 = s.reg 0x30C0118) ∧
      (out → stops .xferDescriptorComplete 2 x.moved) ∧
      (¬ out → thawed → stops .xferDescriptorComplete 3 x.moved) ∧
      (¬ out → ¬ thawed → lost → stops .xferDescriptorComplete 4 x.moved) ∧
      (¬ out → ¬ thawed → ¬ lost → s.reaches 0 line = true → s.homeFree line = true → s.memoryOk →
        ∃ u : State, exec .xferDescriptorComplete s = .next u ∧
          (x.moved + step < x.len → u.xfer = some { x with moved := x.moved + step }) ∧
          (x.len ≤ x.moved + step → u.xfer = none ∧ u.reg 0x30C0118 = (s.reg 0x30C0118 + 1) % 2 ^ 32 ∧ u.reg 0x30C0120 = stat - 1 ∧ raised s u 72) ∧
          (x.side = false → x.toDev = true → u.host = s.host ∧ readBytes u.mem (line * 128) 128 = readBytes s.host h 128 ∧
            sameOutside s u (line * 128) 128) ∧
          (x.side = false → x.toDev = false → u.mem = s.mem ∧ (Memory.wf s.host = true → readBytes u.host h 128 = readBytes s.mem (line * 128) 128) ∧
            ∀ b, b ∈ u.hostBad ↔ if b = h / 128 then s.poisonAt (line * 128) 128 = true else b ∈ s.hostBad) ∧
          (x.side = true → x.toDev = true → u.mem = s.mem ∧ (u.sideOf line).ver = readLE s.host h 8 % 2 ^ 56 ∧
            (u.sideOf line).dp = (readLE s.host h 8).testBit 56 ∧ (u.sideOf line).vp = (readLE s.host h 8).testBit 57) ∧
          (x.side = true → x.toDev = false → u.mem = s.mem ∧ u.side = s.side ∧ (Memory.wf s.host = true →
            readLE u.host h 8 = (s.sideOf line).ver % 2 ^ 56 + (if (s.sideOf line).dp then 2 ^ 56 else 0)))))

/-- R144, R145, R147, R323, R343, R376, R380, R404, R414 to R416, R431, R440, R441, R451, R454: a register write is one of 4 or 8
bytes at its natural alignment, a misaligned one completes with an abort, and one of another die's block waits for the circuit of
die 0 to it; one whose register starts something does what its event does, others store their field's bits; four bytes leave the
other half.
The model's choice where the spec is silent: logs 31 and 55, and for KC_FREEZE log 13. -/
def Sys2Proof.Claims.RegisterWritesAct : Prop :=
  ∀ (s : State) (v off n : Nat), v < 2 ^ 64 →
    let w (o : Nat) : Host.Outcome State Fault Refusal := exec (.registerWrite o 8 v) s
    (n ≠ 4 ∧ n ≠ 8 → exec (.registerWrite off n v) s = .next { s with hostAbort := false }) ∧
    (n = 4 ∨ n = 8 → off % n ≠ 0 → exec (.registerWrite off n v) s = .next { s with hostAbort := true }) ∧
    (s.hostAbort = false →
    (w 0x020 = exec (.dvFreeze v) s ∧ w 0x3008 = exec (.hostTaskToken (v % 2 ^ 32)) s ∧ w 0x30C0110 = exec (.xqTailWrite v) s) ∧
    (∀ d, d < 8 → v = 2 ^ d → w 0x018 = exec (.dieReset d) s) ∧
    (w 0x018 = .next ((List.range 8).foldl (fun (st : State) d => if v / 2 ^ d % 2 = 1 then
      (match exec (.dieReset d) st with
        | .next u => u
        | _ => st) else st) s)) ∧
    (∀ q, q < 64 → w (0x1010 + 0x40 * q) = exec (.lqPush q v) s) ∧
    (v % 2 = 1 → w 0x3002000 = exec .zpCommit s ∧ w 0x5038 = exec .attestationGo s) ∧
    (v / 2 % 2 = 1 → w 0x30C0120 = exec .xqRestart s) ∧
    (∀ d, d < 8 → s.linked 0 d = true → w (dsReg d 0x10) = exec (.dsFreeze d v) s ∧ w (dsReg d 0x4D0) = exec (.ccImageReplace d v) s ∧
      (∀ j, j < 8 → w (clkReg d j 0x10) = exec (.clkepochInstall d j v) s)) ∧
    (∀ c, c < 128 → s.linked 0 (c / 16) = true → w (kcReg c 0x4C0) = exec (.ccJobWrite c v) s ∧
      exec (.registerWrite (kcReg c 0x14) 4 v) s = .next s ∧
      (v % 2 = 0 → w (kcReg c 0x10) = .next (if s.reg (kcReg c 0x10) % 2 = 1 then s else s.setReg (kcReg c 0x10) (v / 2 % 2 * 2))) ∧
      (v % 4 = 1 → w (kcReg c 0x10) = exec (.freezeSquash c) s) ∧ (v % 4 = 3 → w (kcReg c 0x10) = exec (.freezeDrain c) s) ∧
      (v % 4 = 1 → w (kcReg c 0x450) = exec (.gangThaw c) s) ∧ (v % 4 = 2 → w (kcReg c 0x450) = exec (.gangSquash c) s) ∧
      (v % 4 = 3 → w (kcReg c 0x450) = exec (.gangKill c) s) ∧
      (v / 2 ^ 13 % 4 = 1 → w (kcReg c 0x440) = exec (.parkResume c (v % 2 ^ 13)) s) ∧
      (v / 2 ^ 13 % 4 = 2 → w (kcReg c 0x440) = exec (.parkKill c (v % 2 ^ 13)) s) ∧
      (v / 2 ^ 13 % 4 = 3 → w (kcReg c 0x440) = exec (.parkResumeSkip c (v % 2 ^ 13)) s) ∧
      w (kcReg c 0x20) = .next (s.setReg (kcReg c 0x20) (max (v % 2 ^ 40) 0x10000)) ∧
      w (kcReg c 0x28) = .next (s.setReg (kcReg c 0x28) (max (v % 2 ^ 32) 1000))) ∧
    w 0x5100 = .next (s.setReg 0x5100 (min (max (v % 2 ^ 12) 500) 2600)) ∧
    (∀ k, k < 8 → let o := 0x5110 + 8 * k
      w o = .next (s.setReg o v) ∧
      exec (.registerWrite o 4 v) s = .next (s.setReg o (s.reg o / 2 ^ 32 * 2 ^ 32 + v % 2 ^ 32)) ∧
      exec (.registerWrite (o + 4) 4 v) s = .next (s.setReg o (s.reg o % 2 ^ 32 + 2 ^ 32 * (v % 2 ^ 32)))) ∧
    (∀ d o, d < 8 → o < 0x10000 → s.linked 0 d = false → n = 4 ∨ n = 8 → o % n = 0 →
      exec (.registerWrite (dsReg d o) n v) s = .next s ∧
      ∀ i, i < 16 → exec (.registerWrite (kcReg (16 * d + i) o) n v) s = .next s) ∧
    (∀ d, d < 8 → s.linked 0 d = true → w (dsReg d 0x18) = .next (s.setReg (dsReg d 0x18)
      (v % 2 + (if v / 2 % 2 = 1 then 0 else s.reg (dsReg d 0x18) / 2 % 2) * 2))) ∧
    (∀ t, t < 64 → w (0x4000 + 0x20 * t) = .next (s.setReg (0x4000 + 0x20 * t) (v / 2 ^ 14 % 2 ^ 38 * 2 ^ 14 + v % 2))))

/-- R133, R138, R144, R215, R386, R424, R425, R459: the host state window reads the item its select and index name, and takes a
write of an item that is open: live values, a commit image, a slice, a scratchpad line, a sidecar entry; an index that does not
exist sets HP_HSW_STAT [1] and reads zero, live values are those that the row and its overflow area hold, a write of a closed item
sets [0] and changes nothing; an access waits for the circuit of die 0 to the item's die.
The model's choice where the spec is silent: logs 37 and 49. -/
def Sys2Proof.Claims.TheWindowShowsState : Prop :=
  ∀ (s : State) (off n : Nat) (bs : List Byte),
    let sel := s.reg 0x4000000
    let idx := s.reg 0x4000008
    let area := sel % 256
    let c := sel / 2 ^ 8 % 2 ^ 7
    let d := sel / 2 ^ 8 % 2 ^ 3
    let k : Pick := { area, core := c, die := d, idx }
    let o := off - 0x1000
    let inPage (m : Nat) : Prop := 0x1000 ≤ off ∧ off + m ≤ 0x2000
    let flagged (i : Instr) (b : Nat) (more : State → Prop) : Prop := ∃ u : State, exec i s = .next u ∧ u.mem = s.mem ∧ u.cores = s.cores ∧
      u.reg 0x4000010 / 2 ^ b % 2 = 1 ∧ more u
    let reads (xs : List Byte) : Prop := ∃ u : State, exec (.hswDataRead off n) s = .next u ∧ u.mem = s.mem ∧ u.cores = s.cores ∧ u.hostData = xs
    let frozen : Prop := s.heldCore c = true ∨ s.reg (kcReg c 0x10) / 4 % 2 = 1 ∧ ∀ g ∈ s.gangsOn c, (s.gang g).frozen ≠ .no
    let live := s.liveFile c idx
    let near (e : Nat) : Prop := s.linkedBoth 0 e = true
    let ready (a m : Nat) : Prop := ∀ x, a ≤ x → x < a + m → s.reaches 0 (x / 128) = true ∧ s.homeFree (x / 128) = true
    let stopped (t : Nat) : Prop := (s.thread c t).st = .parked ∨ frozen ∨
      (s.gang (s.gangOf c t)).frozen = .draining ∨ (s.gang (s.gangOf c t)).frozen = .drained
    (inPage n → s.hswValid k = false → flagged (.hswDataRead off n) 1 fun u => u.hostData = List.replicate n 0) ∧
    (0 < bs.length → inPage bs.length → s.hswValid k = false → flagged (.hswDataWrite off bs) 1 fun _ => True) ∧
    (0 < bs.length → inPage bs.length → s.hswValid k = true → s.hswOpen k = false → flagged (.hswDataWrite off bs) 0 fun _ => True) ∧
    (area < 0x20 → ¬ near (c / 16) → s.hswValid k = true → (inPage n → exec (.hswDataRead off n) s = .next s) ∧
      (inPage bs.length → 0 < bs.length → s.hswOpen k = true → exec (.hswDataWrite off bs) s = .next s)) ∧
    (inPage n → area = 1 → idx < 8192 → near (c / 16) → ∀ v, o = 8 * v → n = 8 → v < 64 → v / 8 ∉ live.2 →
      reads (toLE (mgetD live.1 v 0).toNat 8)) ∧
    (inPage n → area = 2 → idx < 8192 → near (c / 16) → o = 0x20 → n = 8 →
      reads (toLE (s.thread c idx).blk 4 ++ toLE (s.thread c idx).sp 4)) ∧
    (inPage n → area = 5 → idx < 256 → near (c / 16) → (∀ i, i < n → s.poisonAt (scratchBase c + idx * 4096 + o + i) 1 = false) →
      reads (readBytes s.mem (scratchBase c + idx * 4096 + o) n)) ∧
    (inPage bs.length → area = 1 → idx < 8192 → near (c / 16) → (s.thread c idx).st ≠ .empty → stopped idx → ∀ v, o = 8 * v → bs.length = 8 → v < 64 →
      v / 8 ∉ live.2 → ∃ u : State, exec (.hswDataWrite off bs) s = .next u ∧
        ∀ j, j < 64 → mgetD (u.thread c idx).regs j 0 = if j = v then BitVec.ofNat 64 (leNat bs) else mgetD live.1 j 0) ∧
    (inPage bs.length → area = 3 → idx < 8192 → near (c / 16) → (s.thread c idx).st = .parked → o + bs.length ≤ 2048 →
      ready (s.imageAddr c idx + o) bs.length → s.memoryOk → ∃ u : State, exec (.hswDataWrite off bs) s = .next u ∧
        readBytes u.mem (s.imageAddr c idx + o) bs.length = bs ∧ sameOutside s u (s.imageAddr c idx + o) bs.length) ∧
    (inPage bs.length → area = 4 → ∀ t p, idx = 65536 * t + p → t < 8192 → p < 65536 → near (c / 16) → (s.thread c t).st ≠ .empty →
      stopped t → p * 4096 + o + bs.length ≤ (s.wgOf c t).stride → ready (s.slice c t (p * 4096) + o) bs.length → s.memoryOk →
      ∃ u : State, exec (.hswDataWrite off bs) s = .next u ∧
        readBytes u.mem (s.slice c t (p * 4096) + o) bs.length = bs ∧ sameOutside s u (s.slice c t (p * 4096) + o) bs.length) ∧
    (inPage bs.length → area = 0x21 → idx < devBytes / 65536 → near d → s.heldDie d = true → ∀ i, i < 512 → o = 8 * i → bs.length = 8 →
      let line := dieBase d / 128 + 512 * idx + i
      ready (line * 128) 128 → ∃ u : State, exec (.hswDataWrite off bs) s = .next u ∧ u.mem = s.mem ∧ u.cores = s.cores ∧
        u.sideOf line = { ver := leNat bs % 2 ^ 56, dp := (leNat bs).testBit 56, vp := (leNat bs).testBit 57 } ∧
        ∀ l, l ≠ line → u.sideOf l = s.sideOf l) ∧
    (inPage bs.length → area = 5 → idx < 256 → near (c / 16) → frozen → s.memoryOk →
      ∃ u : State, exec (.hswDataWrite off bs) s = .next u ∧ u.cores = s.cores ∧
        readBytes u.mem (scratchBase c + idx * 4096 + o) bs.length = bs ∧ sameOutside s u (scratchBase c + idx * 4096 + o) bs.length) ∧
    (off = 0 → bs.length = 8 → exec (.hswDataWrite off bs) s = .next (s.setReg 0x4000000 (leNat bs % 2 ^ 15))) ∧
    (off = 8 → bs.length = 8 → exec (.hswDataWrite off bs) s = .next (s.setReg 0x4000008 (leNat bs % 2 ^ 48)))

/-- R249, R321, R367, R369: where the events of the collective engine and the spillway complete: a collective of one die, joined,
has its result on its way; a switch at the kept version writes the new view address; a retire-ring head whose grace has passed
goes into the free-page ring. -/
def Sys2Proof.Claims.EngineEventsComplete : Prop :=
  (∀ (s : State) (d group seq op root mask count src dst : Nat) (k : Cmd) (g : Engine), d < 8 → mask % 2 ^ 8 = 2 ^ d →
    (op ≠ 4 ∨ root = d) →
    s.context (0x2000 + 0x100 * d) = some g → g.queue = [k] → k.todo = [.decide 2] → k.stopped = false → s.heldDie d = false →
    mgetD k.vals 2 [] = [op, root, mask, group, seq, count, src, dst] →
    (∀ e, e < 8 → e ≠ d → s.headCmd (0x2000 + 0x100 * e) = none) →
    ∃ t, exec (.collectiveMatch group seq) s = .next t ∧ t.mem = s.mem ∧
      t.headCmd (0x2000 + 0x100 * d) = some { k with buf := [], todo := writeOps dst (collResult op count [k.buf]) }) ∧
  (∀ (s : State) (d pa : Nat) (k : Cmd) (rest : List EOp), d < 8 → s.headCmd (0x3000 + 0x100 * d) = some k →
    k.todo = .decide 30 :: rest → k.stopped = false → s.heldDie d = false → s.memoryOk →
    s.engAt (0x3000 + 0x100 * d) k (recVa k) 32 .write = .ok pa → s.engAt (0x3000 + 0x100 * d) k (recVa k) 32 .read = .ok pa → regionOf pa = .dev (pa / 2 ^ 37) →
    (s.sideOf (pa / 128)).ver = (mgetD k.vals 1 []).getD 0 0 →
    ∃ t, exec (.splcmpSwitch d) s = .next t ∧ readLE t.mem pa 8 = (blockOf k).getD 3 0 % 2 ^ 64 ∧ sameOutside s t pa 8) ∧
  (∀ (s : State) (d n tenant va pa ra fa : Nat), (s.die d).pools[n]? = some (tenant, va) → s.heldDie d = false →
    s.poolAt d tenant va 128 .read = .ok pa → s.poolAt d tenant va 128 .write = .ok pa → s.memoryOk →
    (∀ e ∈ (s.die d).tlb, ∀ f ∈ (s.die d).tlb, ∀ v, e.covers tenant v = true → f.covers tenant v = true → e = f) →
    let x := poolOf (readBytes s.mem pa 128)
    x.retN ≠ 0 → x.freeN ≠ 0 → x.retPushed = x.retired + 1 →
    s.poolAt d tenant ((x.retRing + 16 * (x.retired % x.retN)) % 2 ^ 57) 16 .read = .ok ra →
    s.poolAt d tenant ((x.freeRing + 4 * (x.pushed % x.freeN)) % 2 ^ 57) 4 .write = .ok fa →
    (fa + 4 ≤ pa ∨ pa + 128 ≤ fa) → readLE s.mem (ra + 8) 8 ≤ s.timeline x.grace →
    ∃ t, exec (.spillwayRetire d n) s = .next t ∧ readLE t.mem fa 4 = readLE s.mem ra 4)

/-- R59, R341, R343, R407: where the events of tasks and launches complete: a token opens an entry of the empty store; a token of the
host goes to die 0; a launch without a fault and without culverts whose gangs and writes are done ends. -/
def Sys2Proof.Claims.LaunchEventsComplete : Prop :=
  (∀ (s : State) (d : Nat) (k : TaskTok) (rest : List TaskTok), s.tasks = [] → s.hostToks = [] → (s.die d).taskq = k :: rest →
    k.release = false → k.desc = none → k.slot < 8 → ∃ u t, exec (.taskToken d) s = .next u ∧ u.mem = s.mem ∧
      (u.die d).taskq = rest ∧ mget u.tasks 0 = some (k.id, t) ∧ t.filled = 2 ^ k.slot ∧ t.error = k.err ∧
      t.values.getD k.slot 0 = k.val ∧ t.desc = none) ∧
  (∀ (s : State) (id : Nat), s.hostToks = [] → s.timesSeen 0 s.hostTimes = true →
    ∃ u k, exec (.hostTaskToken id) s = .next u ∧ u.mem = s.mem ∧ u.regs = s.regs ∧ (u.die 0).taskq = (s.die 0).taskq ++ [k] ∧
      k.id = id % 2 ^ 32 ∧ k.slot = s.reg 0x3000 % 8) ∧
  (∀ (s : State) (seq : Nat) (l : Launch) (pa : Option Nat), s.gangs = [] → mget s.launches seq = some l →
    s.launches.Pairwise (fun e f => e.1 < f.1) → (s.image l.img).culverts = [] → (s.image l.img).pipe = false →
    l.desc.gangs ≤ mgetD l.retiredBy 0 0 → l.nrOut = [] → l.remote = [] → l.faultCount = 0 → l.faults = [] →
    s.streamsEnded seq = true → s.launchReleased seq l = true → placed s l.desc pa →
    ∃ u : State, exec (.launchEnd seq) s = .next u ∧ mget u.launches seq = none ∧ seq ∉ u.dispatched ∧
      (u.die l.desc.die).taskq = (s.die l.desc.die).taskq ++ dependants l.desc .ok)

/-- R404: where the commands to a parked thread complete: outside phase two, on a core that neither squashes nor drains. -/
def Sys2Proof.Claims.ParkCommandsComplete : Prop :=
  ∀ (s : State) (c t : Nat) (k : Park), (s.thread c t).st = .parked → (s.thread c t).park = some k → k.partialAt = none →
    (∀ g ∈ s.gangsOn c, (s.gang g).frozen ≠ .squashing ∧ (s.gang g).frozen ≠ .draining) →
    (isRare (s.block (s.imgOf c t) (s.thread c t).blk) = false →
      findEntry (s.core c) (s.triple c t) ≠ none ∨ freeEntry (s.core c) ≠ none →
      (∃ u : State, exec (.parkResume c t) s = .next u ∧ u.reg (kcReg c 0x448) = t % 2 ^ 13 ∧ u.mem = s.mem ∧
        (u.thread c t).st = .waiting ∧ (u.thread c t).park = none ∧ (u.thread c t).skip = (s.thread c t).skip) ∧
      (k.code = 0x0F ∨ k.code = 0x10 ∨ k.code = 0x11 →
        ∃ u : State, exec (.parkResumeSkip c t) s = .next u ∧ u.reg (kcReg c 0x448) = t % 2 ^ 13 ∧ u.mem = s.mem ∧
          (u.thread c t).st = .waiting ∧ (u.thread c t).park = none ∧ (u.thread c t).skip = k.idx)) ∧
    ((∃ m ∈ (s.gang (s.gangOf c t)).members, ∃ i, i < (s.wg m.core m.base).n ∧
        (m.core, m.base + i) ≠ (c, t) ∧ (s.thread m.core (m.base + i)).st ≠ .exited) →
      Keyed s c → t ∉ (s.core c).entryWait →
      ∃ u : State, exec (.parkKill c t) s = .next u ∧ u.reg (kcReg c 0x448) = t % 2 ^ 13 ∧ u.mem = s.mem ∧
        (u.thread c t).st = .exited ∧ (u.thread c t).pass = none)

/-- R144, R386, R424, R425: where accesses of the host to the state window and to registers complete: the window's own registers, a
core's scratchpad through it, and a register of the device block. -/
def Sys2Proof.Claims.WindowAccessesComplete : Prop :=
  ∀ (s : State) (v : Nat) (bs : List Byte),
    let c := s.reg 0x4000000 / 2 ^ 8 % 2 ^ 7
    let a := scratchBase c + s.reg 0x4000008 * 4096
    let scratch : Prop := s.reg 0x4000000 % 2 ^ 8 = 5 ∧ s.reg 0x4000008 < 256
    (∃ u : State, exec (.hswDataRead 0 8) s = .next u ∧ u.mem = s.mem ∧ u.regs = s.regs ∧ u.hostData = toLE (s.reg 0x4000000) 8) ∧
    (exec (.hswDataWrite 0 (toLE v 8)) s = .next (s.setReg 0x4000000 (v % 2 ^ 15))) ∧
    (exec (.registerWrite 0x5100 8 v) s = .next { s.setReg 0x5100 (min (max (v % 2 ^ 12) 500) 2600) with hostAbort := false }) ∧
    (scratch → s.linkedBoth 0 (c / 16) = true → (∀ i, i < 8 → s.poisonAt (a + i) 1 = false) →
      ∃ u : State, exec (.hswDataRead 0x1000 8) s = .next u ∧ u.mem = s.mem ∧ u.hostData = readBytes s.mem a 8) ∧
    (scratch → s.linkedBoth 0 (c / 16) = true → s.heldCore c = true → s.memoryOk → bs.length = 8 →
      ∃ u : State, exec (.hswDataWrite 0x1000 bs) s = .next u ∧ u.cores = s.cores ∧ readBytes u.mem a 8 = bs ∧ sameOutside s u a 8)

/-- A step whose agenda begins with a firing runs the instruction that its words decode to, a step whose agenda begins with an
event that event; nothing stops the machine. -/
def Obligations.StepRunsTheDecodedInstruction : Prop :=
  Sys2Proof.Claims.StepRunsTheDecodedFiring ∧
    Sys2Proof.Claims.StepRunsTheEvent ∧
    Sys2Proof.Claims.EveryStepAnswersANextState

/-- The two invariants hold at reset, and its values are those of the cards (R3, R144 to R148, R379, R384, R397). -/
def Obligations.ResetMeetsTheInvariants : Prop :=
  Sys2Proof.Claims.ResetMemoryCanonical ∧
    Sys2Proof.Claims.ResetTablesOrdered ∧
    Sys2Proof.Claims.ResetValues

/-- The results of the bitwise, shift, rotate and bit-field instructions (R153 to R158). -/
def Obligations.BitAndShiftResults : Prop :=
  Sys2Proof.Claims.BitwiseResults ∧
    Sys2Proof.Claims.ShiftAndRotateResults ∧
    Sys2Proof.Claims.BitFieldResults

/-- The results of LEA, SEL, the compares, the predicate operations, MOV, MOVI and CONST (R159 to R167). -/
def Obligations.SelectCompareMoveResults : Prop :=
  Sys2Proof.Claims.AddressSelectCompareResults ∧ Sys2Proof.Claims.PredicateMoveConstantResults

/-- When an instruction fires, and what one that does not fire leaves (R44, R99, R103, R104, R142). -/
def Obligations.WhenInstructionsFire : Prop :=
  Sys2Proof.Claims.WhenAnInstructionFires ∧
    Sys2Proof.Claims.PredicatedOffEmitsNothing ∧
    Sys2Proof.Claims.UnreadyChangesNothing

/-- Tokens sent stand in the latches of their element, and a program without a fabric passes them at once (R43, R102, R149). -/
def Obligations.TokensReachTheirInputs : Prop :=
  Sys2Proof.Claims.SentTokensStandInLatches ∧ Sys2Proof.Claims.SequentialTokensReachTheirInput

/-- The frame of the instructions that touch no more than their pass (R44, R45). -/
def Obligations.LocalFiringsTouchTheirPassOnly : Prop :=
  Sys2Proof.Claims.LocalFiringsKeepMemoryAndRegisters ∧ Sys2Proof.Claims.LocalFiringsOnTheFabricTouchTheirPassOnly

/-- What the readers of other threads deliver, and which sources they may use (R190 to R199). -/
def Obligations.CrossLaneReads : Prop :=
  Sys2Proof.Claims.CrossLaneReaders ∧ Sys2Proof.Claims.UsableSources

/-- When a round collective delivers, and its value (R200 to R203). -/
def Obligations.RoundCollectiveResults : Prop :=
  Sys2Proof.Claims.RoundCollectives ∧ Sys2Proof.Claims.CollectiveValues

/-- When ISECT and COMPACT deliver, and their values (R204). -/
def Obligations.StreamNodeResults : Prop :=
  Sys2Proof.Claims.StreamNodes ∧ Sys2Proof.Claims.StreamNodeValues

/-- The special results of the float instructions, their compares, and the integer conversions (R61 to R70). -/
def Obligations.FloatSpecialValues : Prop :=
  Sys2Proof.Claims.FloatSpecialResults ∧
    Sys2Proof.Claims.FloatCompareConditions ∧
    Sys2Proof.Claims.IntegerConversions

/-- Flow instructions deliver their output, and the sink keeps the first and checks a branch (R45, R172 to R178). -/
def Obligations.FlowAndTheSink : Prop :=
  Sys2Proof.Claims.FlowInstructionsDeliver ∧
    Sys2Proof.Claims.SinkKeepsTheFirstOutput ∧
    Sys2Proof.Claims.BranchChecksAtTheSink

/-- What a commit writes, and the block its thread enters (R47, R172 to R177). -/
def Obligations.CommitsEnterTheNextBlock : Prop :=
  Sys2Proof.Claims.CommitWritesRegistersAndBranches ∧ Sys2Proof.Claims.CallReturnAndYieldAtCommit

/-- A load of a reachable place issues its request; a misaligned or a forbidden one faults (R250 to R255). -/
def Obligations.LoadsIssueOrFault : Prop :=
  Sys2Proof.Claims.LoadsIssueARequest ∧
    Sys2Proof.Claims.MisalignedAccessesFault ∧
    Sys2Proof.Claims.ForbiddenAccessesFault

/-- What the reply of a load delivers (R250 to R254). -/
def Obligations.LoadRepliesDeliver : Prop :=
  Sys2Proof.Claims.LoadRepliesDeliverMemory ∧ Sys2Proof.Claims.VersionedRepliesDeliverDataAndVersion

/-- A store waits for its LSID and then performs in the scratchpad or leaves for its home (R221, R253, R256 to R259). -/
def Obligations.StoresWaitAndPerform : Prop :=
  Sys2Proof.Claims.StoresWaitInTheStoreBuffer ∧
    Sys2Proof.Claims.ScratchStoresPerform ∧
    Sys2Proof.Claims.DeviceStoresLeaveForTheirHome

/-- An atomic waits for its LSID and performs at its bank or at the owner of its line; one of .sys scope on a remote address goes
to its port (R224 to R226, R262, R264 to R267, R435). -/
def Obligations.AtomicsWaitAndPerform : Prop :=
  Sys2Proof.Claims.AtomicsWaitForTheirLsid ∧
    Sys2Proof.Claims.AtomicsPerformAtTheBank ∧
    Sys2Proof.Claims.AtomicsPerformAtTheOwner ∧
    Sys2Proof.Claims.RemoteAtomicsCheckAndSend

/-- Fences, prefetches and accesses of other packages (R240 to R243, R260 to R263). -/
def Obligations.FencesPrefetchesAndRemoteAccesses : Prop :=
  Sys2Proof.Claims.FencesActAtTheirLsid ∧
    Sys2Proof.Claims.PrefetchesFillOrDrop ∧
    Sys2Proof.Claims.RemoteAccessesCheckAndSend

/-- The instructions of sluices, barriers, timelines and watch sets (R300 to R305, R360, R384, R385, R387 to R394). -/
def Obligations.SynchronisingInstructions : Prop :=
  Sys2Proof.Claims.SluiceInstructions ∧
    Sys2Proof.Claims.BarrierInstructions ∧
    Sys2Proof.Claims.TimelinesAndWatchSets

/-- The instructions of stream ports, as they fire and as they perform (R306 to R312). -/
def Obligations.StreamInstructions : Prop :=
  Sys2Proof.Claims.StreamInstructionsFire ∧ Sys2Proof.Claims.StreamInstructionsPerform

/-- MTX instructions wait for their seal; MRES and MREL claim and free; where the other matrix forms, the seal of a round and the
execution of seals complete (R271, R273, R275, R278, R279, R281, R286, R289, R292). -/
def Obligations.MatrixInstructionsReserve : Prop :=
  Sys2Proof.Claims.MatrixInstructionsWaitForTheSeal ∧
    Sys2Proof.Claims.MatrixReservations ∧
    Sys2Proof.Claims.MatrixFormsComplete

/-- Rounds seal, seals take effect whole or park their members, alone or with their gang, and matrix commands enter their
context (R271 to R275, R286). -/
def Obligations.SealsTakeEffectWhole : Prop :=
  Sys2Proof.Claims.SealsAreAllOrNothing ∧
    Sys2Proof.Claims.MatrixCommands ∧
    Sys2Proof.Claims.RoundsSealOnce ∧
    Sys2Proof.Claims.GangSealsExecuteTogether

/-- The ENG instructions, as they fire and as they perform, and the numbers of their commands (R313 to R318). -/
def Obligations.EngineInstructions : Prop :=
  Sys2Proof.Claims.EngineInstructionsFire ∧
    Sys2Proof.Claims.EngineInstructionsPerform ∧
    Sys2Proof.Claims.CommandsTakeNumbers

/-- Engines work piece by piece, and their commands complete, as do matches, switches and retires (R245, R314 to R318, R321,
R367, R369). -/
def Obligations.EnginesWork : Prop :=
  Sys2Proof.Claims.EnginesWorkPieceByPiece ∧ Sys2Proof.Claims.CommandsComplete ∧ Sys2Proof.Claims.EngineEventsComplete

/-- Collectives match, and spillways switch and retire (R320, R321, R361 to R373). -/
def Obligations.CollectivesAndSpillways : Prop := Sys2Proof.Claims.CollectivesMatch ∧ Sys2Proof.Claims.SpillwaySwitchAndRetire

/-- What the privileged instructions do in a PRIV program (R358, R397 to R399, R410 to R413, R417, R418, R422, R423). -/
def Obligations.PrivilegedPrograms : Prop :=
  Sys2Proof.Claims.MonitorQueueAndTaskInstructions ∧
    Sys2Proof.Claims.ConfigurationInstructions ∧
    Sys2Proof.Claims.RegisterAndFreezeInstructions

/-- A fault parks its thread, in phase one without partial commit and in phase two with its commit image, and the commands to a
parked thread complete (R46 to R48, R402 to R406). -/
def Obligations.FaultsPark : Prop :=
  Sys2Proof.Claims.FaultsInPhaseOnePark ∧
    Sys2Proof.Claims.FaultsInPhaseTwoKeepACommitImage ∧
    Sys2Proof.Claims.ParkCommandsComplete

/-- A fault halts a privileged program; the commands of KC_PARK_CTL to a parked thread (R404, R418). -/
def Obligations.HaltsAndParkCommands : Prop :=
  Sys2Proof.Claims.FaultsHaltPrivilegedPrograms ∧ Sys2Proof.Claims.CommandsToParkedThreads

/-- Writes perform at their home and their completions return; lines move between home and owner; windows fill and expire (R217
to R226, R233, R234, R241, R382). -/
def Obligations.HomesOwnersAndWindows : Prop :=
  Sys2Proof.Claims.WritesPerformAtTheirHome ∧
    Sys2Proof.Claims.CompletionsReturn ∧
    Sys2Proof.Claims.LinesMoveBetweenHomeAndOwner ∧
    Sys2Proof.Claims.WindowLinesFillAndExpire

/-- Answers of ports, requests that time out, acknowledgements and probes (R240, R241, R262, R263, R358, R359, R395, R420). -/
def Obligations.AnswersAndTimeouts : Prop :=
  Sys2Proof.Claims.RemoteAnswers ∧
    Sys2Proof.Claims.RequestsTimeOut ∧
    Sys2Proof.Claims.AcknowledgementsAndProbes

/-- Walks follow the tables, and the pager fills and answers (R348 to R357). -/
def Obligations.WalksAndThePager : Prop :=
  Sys2Proof.Claims.WalksFollowTheTables ∧
    Sys2Proof.Claims.PagerTokensAreServed ∧
    Sys2Proof.Claims.PagerFillsAndReplies

/-- Tokens reach their stations, instances retire, and threads are admitted (R34 to R44, R50 to R52, R298). -/
def Obligations.TokensAndAdmission : Prop :=
  Sys2Proof.Claims.TokensReachTheirStations ∧
    Sys2Proof.Claims.SwitchTokensRetireInstances ∧
    Sys2Proof.Claims.AdmissionConditions ∧
    Sys2Proof.Claims.ThreadsAreAdmitted

/-- A decision chooses its entry, forms a round and configures an instance; rare passes start (R20, R23, R34, R40, R54, R55,
R327 to R335). -/
def Obligations.SchedulingDecisions : Prop :=
  Sys2Proof.Claims.DecisionsChooseTheRightEntry ∧
    Sys2Proof.Claims.DecisionsFormRounds ∧
    Sys2Proof.Claims.InstancesAreConfigured ∧
    Sys2Proof.Claims.RarePassesStart

/-- Pushes fill a launch queue, its descriptors are checked and dispatched, memory taken for them is free, and the events of tasks
and launches complete (R59, R209, R323, R337 to R339, R341, R343, R407, R438). -/
def Obligations.LaunchesAreDispatched : Prop :=
  Sys2Proof.Claims.PushesFillTheRing ∧
    Sys2Proof.Claims.DescriptorsAreChecked ∧
    Sys2Proof.Claims.TakenMemoryIsFree ∧
    Sys2Proof.Claims.LaunchEventsComplete

/-- Tokens match tasks, and launches end (R58, R59, R243, R340 to R343, R407). -/
def Obligations.TasksMatchAndLaunchesEnd : Prop :=
  Sys2Proof.Claims.TokensMatchTasks ∧ Sys2Proof.Claims.LaunchesEnd

/-- Gangs are placed, and squashed ones restored (R31, R32, R56, R344, R345, R347). -/
def Obligations.GangsArePlacedAndRestored : Prop :=
  Sys2Proof.Claims.GangsArePlaced ∧ Sys2Proof.Claims.SquashedGangsReturn

/-- Holds, squashes and drains of gangs (R221, R295, R347, R414 to R416). -/
def Obligations.FreezesAndPreemption : Prop :=
  Sys2Proof.Claims.HoldsStopCores ∧
    Sys2Proof.Claims.RequestsFreezeGangs ∧
    Sys2Proof.Claims.SquashesSaveTheGang ∧
    Sys2Proof.Claims.DrainsCopyAndResolve

/-- The dikewatch drains a gang without progress; a die reset clears one die (R2, R146, R379, R381, R406, R418, R419). -/
def Obligations.DikewatchAndDieReset : Prop :=
  Sys2Proof.Claims.DikewatchDrains ∧ Sys2Proof.Claims.DieResetClearsOneDie

/-- Jobs of control cores, their image, power-on and the boot scrub (R3, R23, R24, R90, R438, R439, R451, R454). -/
def Obligations.ControlJobsAndImages : Prop :=
  Sys2Proof.Claims.JobsStart ∧
    Sys2Proof.Claims.ImagesAreReplaced ∧
    Sys2Proof.Claims.PowerOnAndScrub

/-- Times are converted, clocks compared, and circuits changed (R13, R374 to R376, R380, R381). -/
def Obligations.ClocksAndCircuits : Prop :=
  Sys2Proof.Claims.TimesAreConverted ∧
    Sys2Proof.Claims.ClocksAreCompared ∧
    Sys2Proof.Claims.CircuitsChange

/-- Quotes are written, and power and heat throttle and hold (R430, R439 to R442). -/
def Obligations.QuotesAndPower : Prop :=
  Sys2Proof.Claims.QuotesAreWritten ∧ Sys2Proof.Claims.PowerAndHeat

/-- Incoming requests of peers: the entry that admits them and what their port answers (R244, R377, R378, R414, R426, R434, R435). -/
def Obligations.PortsServePeers : Prop := Sys2Proof.Claims.LowestEntryAdmits ∧ Sys2Proof.Claims.PortsServeTheirPeers

/-- The aperture of the host, its transfer engine, and its accesses to window and registers (R14, R144, R244, R247, R424, R425, R429
to R432). -/
def Obligations.HostAccessAndTransfers : Prop :=
  Sys2Proof.Claims.TheApertureReachesMemory ∧ Sys2Proof.Claims.TransfersMoveLines ∧ Sys2Proof.Claims.WindowAccessesComplete

/-- Register writes and the host state window (R144, R145, R424, R425, R459). -/
def Obligations.RegistersAndTheWindow : Prop :=
  Sys2Proof.Claims.RegisterWritesAct ∧ Sys2Proof.Claims.TheWindowShowsState
end

