-- ==== Sys2Proof/Laws/Maps.lean ====
section
/-! SUPPORT. The sorted association lists: what a key reads after an update. -/

namespace Sys2Proof.Machine

variable {α : Type}

@[simp] theorem mget_nil (k : Nat) : mget ([] : Map α) k = none := rfl

@[simp] theorem mget_mput_same (m : Map α) (k : Nat) (v : α) : mget (mput m k v) k = some v := by
  induction m with
  | nil => simp [mput, mget]
  | cons e m ih =>
    obtain ⟨j, w⟩ := e
    unfold mput
    split
    · simp [mget]
    · split
      · simp [mget]
      · simp_all [mget]

theorem mget_mput_ne (m : Map α) (k k' : Nat) (v : α) (h : k' ≠ k) : mget (mput m k v) k' = mget m k' := by
  induction m with
  | nil => simp [mput, mget, h.symm]
  | cons e m ih =>
    obtain ⟨j, w⟩ := e
    unfold mput
    split
    · simp [mget, h.symm]
    · split
      · next hj => subst hj; simp [mget, h.symm]
      · simp [mget, ih]

theorem mget_mput (m : Map α) (k k' : Nat) (v : α) :
    mget (mput m k v) k' = if k' = k then some v else mget m k' := by
  split
  · next h => subst h; simp
  · next h => exact mget_mput_ne m k k' v h

@[simp] theorem mget_mdel_same (m : Map α) (k : Nat) : mget (mdel m k) k = none := by
  induction m with
  | nil => rfl
  | cons e m ih =>
    obtain ⟨j, w⟩ := e
    by_cases h : j = k
    · simpa [mdel, h] using ih
    · simpa [mdel, h, mget] using ih

theorem mget_mdel_ne (m : Map α) (k k' : Nat) (h : k' ≠ k) : mget (mdel m k) k' = mget m k' := by
  induction m with
  | nil => rfl
  | cons e m ih =>
    obtain ⟨j, w⟩ := e
    by_cases hj : j = k
    · subst hj; simpa [mdel, mget, h.symm] using ih
    · by_cases h' : j = k'
      · subst h'; simp [mdel, hj, mget]
      · simpa [mdel, hj, mget, h'] using ih

theorem mget_mdel (m : Map α) (k k' : Nat) : mget (mdel m k) k' = if k' = k then none else mget m k' := by
  split
  · next h => subst h; simp
  · next h => exact mget_mdel_ne m k k' h

@[simp] theorem mgetD_mput_same (m : Map α) (k : Nat) (v d : α) : mgetD (mput m k v) k d = v := by simp [mgetD]

theorem mgetD_mput_ne (m : Map α) (k k' : Nat) (v d : α) (h : k' ≠ k) : mgetD (mput m k v) k' d = mgetD m k' d := by
  simp [mgetD, mget_mput_ne m k k' v h]

@[simp] theorem mgetD_mset_same [DecidableEq α] (m : Map α) (k : Nat) (v d : α) : mgetD (mset m k v d) k d = v := by
  unfold mset; split
  · next h => subst h; simp [mgetD]
  · simp

theorem mgetD_mset_ne [DecidableEq α] (m : Map α) (k k' : Nat) (v d : α) (h : k' ≠ k) :
    mgetD (mset m k v d) k' d = mgetD m k' d := by
  unfold mset; split
  · simp [mgetD, mget_mdel_ne m k k' h]
  · exact mgetD_mput_ne m k k' v d h

/-- A fresh key stands above every key of its map. -/
theorem mget_of_fresh_le (m : Map α) (n k : Nat) (h : m.foldl (fun n e => max n (e.1 + 1)) n ≤ k) : mget m k = none := by
  induction m generalizing n with
  | nil => rfl
  | cons e m ih =>
    obtain ⟨j, w⟩ := e
    have hm : ∀ (l : Map α) (a : Nat), a ≤ l.foldl (fun n e => max n (e.1 + 1)) a := by
      intro l
      induction l with
      | nil => intro a; exact le_refl a
      | cons x l ihl => intro a; exact le_trans (le_max_left a (x.1 + 1)) (ihl _)
    have h1 : max n (j + 1) ≤ k := le_trans (hm m _) h
    have hj : j ≠ k := by omega
    simpa [mget, hj] using ih (max n (j + 1)) h

@[simp] theorem mget_mfresh (m : Map α) : mget m (mfresh m) = none := mget_of_fresh_le m 0 _ (le_refl _)

end Sys2Proof.Machine
end

