-- ==== Sys2Proof/Laws/Memory.lean ====
section
/-! SUPPORT. Byte memory: reads after writes, and the canonical form that every operation keeps. -/

namespace Sys2Proof.Machine

theorem Memory.above_mono {n n' : Nat} (h : n' ≤ n) : ∀ {m : Memory}, Memory.above n m = true → Memory.above n' m = true
  | [], _ => rfl
  | (a, b) :: m, hm => by
    simp only [Memory.above, Bool.and_eq_true, decide_eq_true_eq] at hm ⊢
    exact ⟨⟨le_trans h hm.1.1, hm.1.2⟩, hm.2⟩

theorem readByte_below {n a : Nat} (h : a < n) : ∀ {m : Memory}, Memory.above n m = true → readByte m a = 0
  | [], _ => rfl
  | (j, b) :: m, hm => by
    simp only [Memory.above, Bool.and_eq_true, decide_eq_true_eq] at hm
    have hj : j ≠ a := by omega
    simp only [readByte, hj, if_false]
    exact readByte_below (n := j + 1) (by omega) hm.2

theorem putByte_above {n a : Nat} {b : Byte} (hb : b ≠ 0) (h : n ≤ a) :
    ∀ {m : Memory}, Memory.above n m = true → Memory.above n (putByte m a b) = true
  | [], _ => by simpa [putByte, Memory.above, h] using hb
  | (j, c) :: m, hm => by
    simp only [Memory.above, Bool.and_eq_true, decide_eq_true_eq] at hm
    unfold putByte
    split
    · next hj =>
      simp only [Memory.above, Bool.and_eq_true, decide_eq_true_eq]
      exact ⟨⟨h, by simpa using hb⟩, ⟨by omega, hm.1.2⟩, hm.2⟩
    · split
      · next hj =>
        subst hj
        simp only [Memory.above, Bool.and_eq_true, decide_eq_true_eq]
        exact ⟨⟨h, by simpa using hb⟩, hm.2⟩
      · simp only [Memory.above, Bool.and_eq_true, decide_eq_true_eq]
        exact ⟨hm.1, putByte_above hb (by omega) hm.2⟩

theorem dropByte_above {n a : Nat} : ∀ {m : Memory}, Memory.above n m = true → Memory.above n (dropByte m a) = true
  | [], _ => rfl
  | (j, c) :: m, hm => by
    have hm' := hm
    simp only [Memory.above, Bool.and_eq_true, decide_eq_true_eq] at hm
    unfold dropByte
    split
    · exact hm'
    · split
      · exact Memory.above_mono (by omega) hm.2
      · simp only [Memory.above, Bool.and_eq_true, decide_eq_true_eq]
        exact ⟨hm.1, dropByte_above hm.2⟩

/-- Every write of a byte keeps the canonical form. -/
theorem writeByte_wf {m : Memory} {a : Nat} {b : Byte} (h : m.wf = true) : (writeByte m a b).wf = true := by
  unfold writeByte
  split
  · exact dropByte_above h
  · next hb => exact putByte_above hb (Nat.zero_le a) h

/-- Every write of bytes keeps the canonical form. -/
theorem writeBytes_wf {bs : List Byte} : ∀ {m : Memory} {a : Nat}, m.wf = true → (writeBytes m a bs).wf = true := by
  induction bs with
  | nil => exact fun h => h
  | cons b bs ih => exact fun h => ih (writeByte_wf h)

theorem writeLE_wf {m : Memory} {a n v : Nat} (h : m.wf = true) : (writeLE m a n v).wf = true := writeBytes_wf h

theorem filter_above (q : Host.Cell → Bool) : ∀ {n : Nat} {m : Memory}, Memory.above n m = true → Memory.above n (m.filter q) = true
  | _, [], _ => rfl
  | n, (j, c) :: m, hm => by
    simp only [Memory.above, Bool.and_eq_true, decide_eq_true_eq] at hm
    have ih := filter_above q hm.2
    by_cases hq : q (j, c)
    · simp only [List.filter_cons, hq, if_true, Memory.above, Bool.and_eq_true, decide_eq_true_eq]
      exact ⟨hm.1, ih⟩
    · simp only [List.filter_cons, hq, Bool.false_eq_true, if_false]
      exact Memory.above_mono (by omega) ih

/-- Memory with some cells taken away keeps the canonical form. -/
theorem filter_wf {m : Memory} (q : Host.Cell → Bool) (h : m.wf = true) : Memory.wf (m.filter q) = true := filter_above q h

theorem zeroRange_wf {m : Memory} {a n : Nat} (h : m.wf = true) : (zeroRange m a n).wf = true := filter_wf _ h

theorem foldl_wf {β : Type} (f : Memory → β → Memory) (hf : ∀ m x, m.wf = true → (f m x).wf = true) :
    ∀ (xs : List β) (m : Memory), m.wf = true → (xs.foldl f m).wf = true
  | [], _, h => h
  | x :: xs, m, h => foldl_wf f hf xs (f m x) (hf m x h)

theorem pasteMemory_wf {m cut : Memory} {a n : Nat} (h : m.wf = true) : (pasteMemory m a n cut).wf = true :=
  foldl_wf _ (fun m e hm => by split <;> [exact writeByte_wf hm; exact hm]) cut _ (zeroRange_wf h)

theorem cut_above (a n : Nat) : ∀ {k : Nat} {m : Memory}, Memory.above k m = true →
    Memory.above (k - a) ((m.filter (fun e => a ≤ e.1 && e.1 < a + n)).map (fun e => (e.1 - a, e.2))) = true
  | _, [], _ => rfl
  | k, (j, c) :: m, hm => by
    simp only [Memory.above, Bool.and_eq_true, decide_eq_true_eq] at hm
    have ih := cut_above a n hm.2
    by_cases hq : a ≤ j ∧ j < a + n
    · simp only [List.filter_cons, hq.1, hq.2, decide_true, Bool.and_self, if_true, List.map_cons, Memory.above,
        Bool.and_eq_true, decide_eq_true_eq]
      exact ⟨⟨by omega, hm.1.2⟩, Memory.above_mono (by omega) ih⟩
    · have hq' : (decide (a ≤ j) && decide (j < a + n)) = false := by
        simp only [Bool.and_eq_false_iff, decide_eq_false_iff_not]; omega
      simp only [List.filter_cons, hq', Bool.false_eq_true, if_false]
      exact Memory.above_mono (by omega) ih

theorem cutMemory_wf {m : Memory} {a n : Nat} (h : m.wf = true) : (cutMemory m a n).wf = true :=
  Memory.above_mono (Nat.zero_le _) (cut_above a n h)

/-! ## Reads after writes -/

theorem readByte_putByte_same (m : Memory) (a : Nat) (b : Byte) : readByte (putByte m a b) a = b := by
  induction m with
  | nil => simp [putByte, readByte]
  | cons e m ih =>
    obtain ⟨j, c⟩ := e
    unfold putByte
    split
    · simp [readByte]
    · split
      · simp [readByte]
      · next hj => simp only [readByte, hj, if_false]; exact ih

theorem readByte_putByte_ne (m : Memory) (a a' : Nat) (b : Byte) (h : a' ≠ a) :
    readByte (putByte m a b) a' = readByte m a' := by
  induction m with
  | nil => simp [putByte, readByte, h.symm]
  | cons e m ih =>
    obtain ⟨j, c⟩ := e
    unfold putByte
    split
    · simp [readByte, h.symm]
    · split
      · next hj => subst hj; simp [readByte, h.symm]
      · simp only [readByte]; split <;> [rfl; exact ih]

theorem readByte_dropByte_ne (m : Memory) (a a' : Nat) (h : a' ≠ a) : readByte (dropByte m a) a' = readByte m a' := by
  induction m with
  | nil => rfl
  | cons e m ih =>
    obtain ⟨j, c⟩ := e
    unfold dropByte
    split
    · rfl
    · split
      · next hj => subst hj; simp [readByte, h.symm]
      · simp only [readByte]; split <;> [rfl; exact ih]

theorem readByte_dropByte_same {n : Nat} {m : Memory} (a : Nat) (hm : Memory.above n m = true) :
    readByte (dropByte m a) a = 0 := by
  induction m generalizing n with
  | nil => rfl
  | cons e m ih =>
    obtain ⟨j, c⟩ := e
    simp only [Memory.above, Bool.and_eq_true, decide_eq_true_eq] at hm
    unfold dropByte
    split
    · next hj =>
      have : j ≠ a := by omega
      simp only [readByte, this, if_false]
      exact readByte_below (n := j + 1) (by omega) hm.2
    · split
      · next hj => subst hj; exact readByte_below (n := j + 1) (by omega) hm.2
      · next hj => simp only [readByte, hj, if_false]; exact ih hm.2

/-- A byte written is the byte read. -/
theorem readByte_writeByte_same {m : Memory} (a : Nat) (b : Byte) (h : m.wf = true) : readByte (writeByte m a b) a = b := by
  unfold writeByte
  split
  · next hb => rw [hb]; exact readByte_dropByte_same a h
  · exact readByte_putByte_same m a b

/-- Every other byte is as before. -/
theorem readByte_writeByte_ne (m : Memory) (a a' : Nat) (b : Byte) (h : a' ≠ a) :
    readByte (writeByte m a b) a' = readByte m a' := by
  unfold writeByte
  split
  · exact readByte_dropByte_ne m a a' h
  · exact readByte_putByte_ne m a a' b h

/-- Bytes outside the written range are as before. -/
theorem readByte_writeBytes_out {bs : List Byte} : ∀ {m : Memory} {a : Nat} (x : Nat), x < a ∨ a + bs.length ≤ x →
    readByte (writeBytes m a bs) x = readByte m x := by
  induction bs with
  | nil => exact fun _ _ => rfl
  | cons b bs ih =>
    intro m a x h
    simp only [List.length_cons] at h
    simp only [writeBytes]
    rw [ih x (by omega), readByte_writeByte_ne m a x b (by omega)]

/-- Byte `i` of what was written is read at its place. -/
theorem readByte_writeBytes_in {bs : List Byte} : ∀ {m : Memory} {a : Nat} (i : Nat), m.wf = true → i < bs.length →
    readByte (writeBytes m a bs) (a + i) = bs.getD i 0 := by
  induction bs with
  | nil => intro m a i _ h; simp at h
  | cons b bs ih =>
    intro m a i hm h
    simp only [writeBytes]
    cases i with
    | zero =>
      rw [readByte_writeBytes_out _ (by omega)]
      simpa using readByte_writeByte_same a b hm
    | succ i =>
      have := ih (m := writeByte m a b) (a := a + 1) i (writeByte_wf hm) (by simpa using h)
      rw [show a + (i + 1) = a + 1 + i by omega, this]
      simp

end Sys2Proof.Machine
end

