-- ==== Sys2Proof/Laws/State.lean ====
section
/-! SUPPORT. What each setter of the state leaves alone, and what its getter then answers. -/

namespace Sys2Proof.Machine

@[simp] theorem State.setReg_cores (s : State) (o v : Nat) : (s.setReg o v).cores = s.cores := rfl
@[simp] theorem State.setReg_dies (s : State) (o v : Nat) : (s.setReg o v).dies = s.dies := rfl
@[simp] theorem State.setReg_gangs (s : State) (o v : Nat) : (s.setReg o v).gangs = s.gangs := rfl
@[simp] theorem State.setReg_launches (s : State) (o v : Nat) : (s.setReg o v).launches = s.launches := rfl
@[simp] theorem State.setReg_images (s : State) (o v : Nat) : (s.setReg o v).images = s.images := rfl
@[simp] theorem State.setReg_tasks (s : State) (o v : Nat) : (s.setReg o v).tasks = s.tasks := rfl
@[simp] theorem State.setReg_reqs (s : State) (o v : Nat) : (s.setReg o v).reqs = s.reqs := rfl
@[simp] theorem State.setReg_late (s : State) (o v : Nat) : (s.setReg o v).late = s.late := rfl
@[simp] theorem State.setReg_msgs (s : State) (o v : Nat) : (s.setReg o v).msgs = s.msgs := rfl
@[simp] theorem State.setReg_culverts (s : State) (o v : Nat) : (s.setReg o v).culverts = s.culverts := rfl
@[simp] theorem State.setReg_invals (s : State) (o v : Nat) : (s.setReg o v).invals = s.invals := rfl
@[simp] theorem State.setReg_mem (s : State) (o v : Nat) : (s.setReg o v).mem = s.mem := rfl
@[simp] theorem State.setReg_side (s : State) (o v : Nat) : (s.setReg o v).side = s.side := rfl
@[simp] theorem State.setReg_l2 (s : State) (o v : Nat) : (s.setReg o v).l2 = s.l2 := rfl
@[simp] theorem State.setReg_poisoned (s : State) (o v : Nat) : (s.setReg o v).poisoned = s.poisoned := rfl
@[simp] theorem State.setReg_seq (s : State) (o v : Nat) : (s.setReg o v).seq = s.seq := rfl
@[simp] theorem State.setReg_dispatched (s : State) (o v : Nat) : (s.setReg o v).dispatched = s.dispatched := rfl
@[simp] theorem State.setReg_pushes (s : State) (o v : Nat) : (s.setReg o v).pushes = s.pushes := rfl
@[simp] theorem State.setReg_lqRsv (s : State) (o v : Nat) : (s.setReg o v).lqRsv = s.lqRsv := rfl
@[simp] theorem State.setReg_reqNo (s : State) (o v : Nat) : (s.setReg o v).reqNo = s.reqNo := rfl
@[simp] theorem State.setReg_lqEntries (s : State) (o v : Nat) : (s.setReg o v).lqEntries = s.lqEntries := rfl
@[simp] theorem State.setReg_lqCount (s : State) (o v : Nat) : (s.setReg o v).lqCount = s.lqCount := rfl
@[simp] theorem State.setReg_hostTimes (s : State) (o v : Nat) : (s.setReg o v).hostTimes = s.hostTimes := rfl
@[simp] theorem State.setReg_portTimes (s : State) (o v : Nat) : (s.setReg o v).portTimes = s.portTimes := rfl
@[simp] theorem State.setReg_hostToks (s : State) (o v : Nat) : (s.setReg o v).hostToks = s.hostToks := rfl
@[simp] theorem State.setReg_hostAbort (s : State) (o v : Nat) : (s.setReg o v).hostAbort = s.hostAbort := rfl
@[simp] theorem State.setReg_fuses (s : State) (o v : Nat) : (s.setReg o v).fuses = s.fuses := rfl
@[simp] theorem State.setReg_keys (s : State) (o v : Nat) : (s.setReg o v).keys = s.keys := rfl
@[simp] theorem State.setReg_meas (s : State) (o v : Nat) : (s.setReg o v).meas = s.meas := rfl
@[simp] theorem State.setReg_quote (s : State) (o v : Nat) : (s.setReg o v).quote = s.quote := rfl
@[simp] theorem State.setReg_quotes (s : State) (o v : Nat) : (s.setReg o v).quotes = s.quotes := rfl
@[simp] theorem State.setReg_msix (s : State) (o v : Nat) : (s.setReg o v).msix = s.msix := rfl
@[simp] theorem State.setReg_xfer (s : State) (o v : Nat) : (s.setReg o v).xfer = s.xfer := rfl
@[simp] theorem State.setReg_host (s : State) (o v : Nat) : (s.setReg o v).host = s.host := rfl
@[simp] theorem State.setReg_links (s : State) (o v : Nat) : (s.setReg o v).links = s.links := rfl
@[simp] theorem State.setReg_msixOpen (s : State) (o v : Nat) : (s.setReg o v).msixOpen = s.msixOpen := rfl
@[simp] theorem State.setReg_msixSent (s : State) (o v : Nat) : (s.setReg o v).msixSent = s.msixSent := rfl
@[simp] theorem State.setReg_aperBase (s : State) (o v : Nat) : (s.setReg o v).aperBase = s.aperBase := rfl
@[simp] theorem State.setReg_portQ (s : State) (o v : Nat) : (s.setReg o v).portQ = s.portQ := rfl
@[simp] theorem State.setReg_conn (s : State) (o v : Nat) : (s.setReg o v).conn = s.conn := rfl
@[simp] theorem State.setReg_circuits (s : State) (o v : Nat) : (s.setReg o v).circuits = s.circuits := rfl
@[simp] theorem State.setReg_hostData (s : State) (o v : Nat) : (s.setReg o v).hostData = s.hostData := rfl
@[simp] theorem State.setReg_hostPoison (s : State) (o v : Nat) : (s.setReg o v).hostPoison = s.hostPoison := rfl
@[simp] theorem State.setReg_hostBad (s : State) (o v : Nat) : (s.setReg o v).hostBad = s.hostBad := rfl
@[simp] theorem State.setReg_portReplies (s : State) (o v : Nat) : (s.setReg o v).portReplies = s.portReplies := rfl
@[simp] theorem State.setReg_agenda (s : State) (o v : Nat) : (s.setReg o v).agenda = s.agenda := rfl
@[simp] theorem State.setReg_cur (s : State) (o v : Nat) : (s.setReg o v).cur = s.cur := rfl
@[simp] theorem State.setReg_freeCtr (s : State) (o v : Nat) : (s.setReg o v).freeCtr = s.freeCtr := rfl

@[simp] theorem State.setCore_dies (s : State) (c : Nat) (k : Core) : (s.setCore c k).dies = s.dies := rfl
@[simp] theorem State.setCore_gangs (s : State) (c : Nat) (k : Core) : (s.setCore c k).gangs = s.gangs := rfl
@[simp] theorem State.setCore_launches (s : State) (c : Nat) (k : Core) : (s.setCore c k).launches = s.launches := rfl
@[simp] theorem State.setCore_images (s : State) (c : Nat) (k : Core) : (s.setCore c k).images = s.images := rfl
@[simp] theorem State.setCore_tasks (s : State) (c : Nat) (k : Core) : (s.setCore c k).tasks = s.tasks := rfl
@[simp] theorem State.setCore_reqs (s : State) (c : Nat) (k : Core) : (s.setCore c k).reqs = s.reqs := rfl
@[simp] theorem State.setCore_late (s : State) (c : Nat) (k : Core) : (s.setCore c k).late = s.late := rfl
@[simp] theorem State.setCore_msgs (s : State) (c : Nat) (k : Core) : (s.setCore c k).msgs = s.msgs := rfl
@[simp] theorem State.setCore_culverts (s : State) (c : Nat) (k : Core) : (s.setCore c k).culverts = s.culverts := rfl
@[simp] theorem State.setCore_invals (s : State) (c : Nat) (k : Core) : (s.setCore c k).invals = s.invals := rfl
@[simp] theorem State.setCore_regs (s : State) (c : Nat) (k : Core) : (s.setCore c k).regs = s.regs := rfl
@[simp] theorem State.setCore_mem (s : State) (c : Nat) (k : Core) : (s.setCore c k).mem = s.mem := rfl
@[simp] theorem State.setCore_side (s : State) (c : Nat) (k : Core) : (s.setCore c k).side = s.side := rfl
@[simp] theorem State.setCore_l2 (s : State) (c : Nat) (k : Core) : (s.setCore c k).l2 = s.l2 := rfl
@[simp] theorem State.setCore_poisoned (s : State) (c : Nat) (k : Core) : (s.setCore c k).poisoned = s.poisoned := rfl
@[simp] theorem State.setCore_seq (s : State) (c : Nat) (k : Core) : (s.setCore c k).seq = s.seq := rfl
@[simp] theorem State.setCore_dispatched (s : State) (c : Nat) (k : Core) : (s.setCore c k).dispatched = s.dispatched := rfl
@[simp] theorem State.setCore_pushes (s : State) (c : Nat) (k : Core) : (s.setCore c k).pushes = s.pushes := rfl
@[simp] theorem State.setCore_lqRsv (s : State) (c : Nat) (k : Core) : (s.setCore c k).lqRsv = s.lqRsv := rfl
@[simp] theorem State.setCore_reqNo (s : State) (c : Nat) (k : Core) : (s.setCore c k).reqNo = s.reqNo := rfl
@[simp] theorem State.setCore_lqEntries (s : State) (c : Nat) (k : Core) : (s.setCore c k).lqEntries = s.lqEntries := rfl
@[simp] theorem State.setCore_lqCount (s : State) (c : Nat) (k : Core) : (s.setCore c k).lqCount = s.lqCount := rfl
@[simp] theorem State.setCore_hostTimes (s : State) (c : Nat) (k : Core) : (s.setCore c k).hostTimes = s.hostTimes := rfl
@[simp] theorem State.setCore_portTimes (s : State) (c : Nat) (k : Core) : (s.setCore c k).portTimes = s.portTimes := rfl
@[simp] theorem State.setCore_hostToks (s : State) (c : Nat) (k : Core) : (s.setCore c k).hostToks = s.hostToks := rfl
@[simp] theorem State.setCore_hostAbort (s : State) (c : Nat) (k : Core) : (s.setCore c k).hostAbort = s.hostAbort := rfl
@[simp] theorem State.setCore_fuses (s : State) (c : Nat) (k : Core) : (s.setCore c k).fuses = s.fuses := rfl
@[simp] theorem State.setCore_keys (s : State) (c : Nat) (k : Core) : (s.setCore c k).keys = s.keys := rfl
@[simp] theorem State.setCore_meas (s : State) (c : Nat) (k : Core) : (s.setCore c k).meas = s.meas := rfl
@[simp] theorem State.setCore_quote (s : State) (c : Nat) (k : Core) : (s.setCore c k).quote = s.quote := rfl
@[simp] theorem State.setCore_quotes (s : State) (c : Nat) (k : Core) : (s.setCore c k).quotes = s.quotes := rfl
@[simp] theorem State.setCore_msix (s : State) (c : Nat) (k : Core) : (s.setCore c k).msix = s.msix := rfl
@[simp] theorem State.setCore_xfer (s : State) (c : Nat) (k : Core) : (s.setCore c k).xfer = s.xfer := rfl
@[simp] theorem State.setCore_host (s : State) (c : Nat) (k : Core) : (s.setCore c k).host = s.host := rfl
@[simp] theorem State.setCore_links (s : State) (c : Nat) (k : Core) : (s.setCore c k).links = s.links := rfl
@[simp] theorem State.setCore_msixOpen (s : State) (c : Nat) (k : Core) : (s.setCore c k).msixOpen = s.msixOpen := rfl
@[simp] theorem State.setCore_msixSent (s : State) (c : Nat) (k : Core) : (s.setCore c k).msixSent = s.msixSent := rfl
@[simp] theorem State.setCore_aperBase (s : State) (c : Nat) (k : Core) : (s.setCore c k).aperBase = s.aperBase := rfl
@[simp] theorem State.setCore_portQ (s : State) (c : Nat) (k : Core) : (s.setCore c k).portQ = s.portQ := rfl
@[simp] theorem State.setCore_conn (s : State) (c : Nat) (k : Core) : (s.setCore c k).conn = s.conn := rfl
@[simp] theorem State.setCore_circuits (s : State) (c : Nat) (k : Core) : (s.setCore c k).circuits = s.circuits := rfl
@[simp] theorem State.setCore_hostData (s : State) (c : Nat) (k : Core) : (s.setCore c k).hostData = s.hostData := rfl
@[simp] theorem State.setCore_hostPoison (s : State) (c : Nat) (k : Core) : (s.setCore c k).hostPoison = s.hostPoison := rfl
@[simp] theorem State.setCore_hostBad (s : State) (c : Nat) (k : Core) : (s.setCore c k).hostBad = s.hostBad := rfl
@[simp] theorem State.setCore_portReplies (s : State) (c : Nat) (k : Core) : (s.setCore c k).portReplies = s.portReplies := rfl
@[simp] theorem State.setCore_agenda (s : State) (c : Nat) (k : Core) : (s.setCore c k).agenda = s.agenda := rfl
@[simp] theorem State.setCore_cur (s : State) (c : Nat) (k : Core) : (s.setCore c k).cur = s.cur := rfl
@[simp] theorem State.setCore_freeCtr (s : State) (c : Nat) (k : Core) : (s.setCore c k).freeCtr = s.freeCtr := rfl

@[simp] theorem State.setDie_cores (s : State) (d : Nat) (x : Die) : (s.setDie d x).cores = s.cores := rfl
@[simp] theorem State.setDie_gangs (s : State) (d : Nat) (x : Die) : (s.setDie d x).gangs = s.gangs := rfl
@[simp] theorem State.setDie_launches (s : State) (d : Nat) (x : Die) : (s.setDie d x).launches = s.launches := rfl
@[simp] theorem State.setDie_images (s : State) (d : Nat) (x : Die) : (s.setDie d x).images = s.images := rfl
@[simp] theorem State.setDie_tasks (s : State) (d : Nat) (x : Die) : (s.setDie d x).tasks = s.tasks := rfl
@[simp] theorem State.setDie_reqs (s : State) (d : Nat) (x : Die) : (s.setDie d x).reqs = s.reqs := rfl
@[simp] theorem State.setDie_late (s : State) (d : Nat) (x : Die) : (s.setDie d x).late = s.late := rfl
@[simp] theorem State.setDie_msgs (s : State) (d : Nat) (x : Die) : (s.setDie d x).msgs = s.msgs := rfl
@[simp] theorem State.setDie_culverts (s : State) (d : Nat) (x : Die) : (s.setDie d x).culverts = s.culverts := rfl
@[simp] theorem State.setDie_invals (s : State) (d : Nat) (x : Die) : (s.setDie d x).invals = s.invals := rfl
@[simp] theorem State.setDie_regs (s : State) (d : Nat) (x : Die) : (s.setDie d x).regs = s.regs := rfl
@[simp] theorem State.setDie_mem (s : State) (d : Nat) (x : Die) : (s.setDie d x).mem = s.mem := rfl
@[simp] theorem State.setDie_side (s : State) (d : Nat) (x : Die) : (s.setDie d x).side = s.side := rfl
@[simp] theorem State.setDie_l2 (s : State) (d : Nat) (x : Die) : (s.setDie d x).l2 = s.l2 := rfl
@[simp] theorem State.setDie_poisoned (s : State) (d : Nat) (x : Die) : (s.setDie d x).poisoned = s.poisoned := rfl
@[simp] theorem State.setDie_seq (s : State) (d : Nat) (x : Die) : (s.setDie d x).seq = s.seq := rfl
@[simp] theorem State.setDie_dispatched (s : State) (d : Nat) (x : Die) : (s.setDie d x).dispatched = s.dispatched := rfl
@[simp] theorem State.setDie_pushes (s : State) (d : Nat) (x : Die) : (s.setDie d x).pushes = s.pushes := rfl
@[simp] theorem State.setDie_lqRsv (s : State) (d : Nat) (x : Die) : (s.setDie d x).lqRsv = s.lqRsv := rfl
@[simp] theorem State.setDie_reqNo (s : State) (d : Nat) (x : Die) : (s.setDie d x).reqNo = s.reqNo := rfl
@[simp] theorem State.setDie_lqEntries (s : State) (d : Nat) (x : Die) : (s.setDie d x).lqEntries = s.lqEntries := rfl
@[simp] theorem State.setDie_lqCount (s : State) (d : Nat) (x : Die) : (s.setDie d x).lqCount = s.lqCount := rfl
@[simp] theorem State.setDie_hostTimes (s : State) (d : Nat) (x : Die) : (s.setDie d x).hostTimes = s.hostTimes := rfl
@[simp] theorem State.setDie_portTimes (s : State) (d : Nat) (x : Die) : (s.setDie d x).portTimes = s.portTimes := rfl
@[simp] theorem State.setDie_hostToks (s : State) (d : Nat) (x : Die) : (s.setDie d x).hostToks = s.hostToks := rfl
@[simp] theorem State.setDie_hostAbort (s : State) (d : Nat) (x : Die) : (s.setDie d x).hostAbort = s.hostAbort := rfl
@[simp] theorem State.setDie_fuses (s : State) (d : Nat) (x : Die) : (s.setDie d x).fuses = s.fuses := rfl
@[simp] theorem State.setDie_keys (s : State) (d : Nat) (x : Die) : (s.setDie d x).keys = s.keys := rfl
@[simp] theorem State.setDie_meas (s : State) (d : Nat) (x : Die) : (s.setDie d x).meas = s.meas := rfl
@[simp] theorem State.setDie_quote (s : State) (d : Nat) (x : Die) : (s.setDie d x).quote = s.quote := rfl
@[simp] theorem State.setDie_quotes (s : State) (d : Nat) (x : Die) : (s.setDie d x).quotes = s.quotes := rfl
@[simp] theorem State.setDie_msix (s : State) (d : Nat) (x : Die) : (s.setDie d x).msix = s.msix := rfl
@[simp] theorem State.setDie_xfer (s : State) (d : Nat) (x : Die) : (s.setDie d x).xfer = s.xfer := rfl
@[simp] theorem State.setDie_host (s : State) (d : Nat) (x : Die) : (s.setDie d x).host = s.host := rfl
@[simp] theorem State.setDie_links (s : State) (d : Nat) (x : Die) : (s.setDie d x).links = s.links := rfl
@[simp] theorem State.setDie_msixOpen (s : State) (d : Nat) (x : Die) : (s.setDie d x).msixOpen = s.msixOpen := rfl
@[simp] theorem State.setDie_msixSent (s : State) (d : Nat) (x : Die) : (s.setDie d x).msixSent = s.msixSent := rfl
@[simp] theorem State.setDie_aperBase (s : State) (d : Nat) (x : Die) : (s.setDie d x).aperBase = s.aperBase := rfl
@[simp] theorem State.setDie_portQ (s : State) (d : Nat) (x : Die) : (s.setDie d x).portQ = s.portQ := rfl
@[simp] theorem State.setDie_conn (s : State) (d : Nat) (x : Die) : (s.setDie d x).conn = s.conn := rfl
@[simp] theorem State.setDie_circuits (s : State) (d : Nat) (x : Die) : (s.setDie d x).circuits = s.circuits := rfl
@[simp] theorem State.setDie_hostData (s : State) (d : Nat) (x : Die) : (s.setDie d x).hostData = s.hostData := rfl
@[simp] theorem State.setDie_hostPoison (s : State) (d : Nat) (x : Die) : (s.setDie d x).hostPoison = s.hostPoison := rfl
@[simp] theorem State.setDie_hostBad (s : State) (d : Nat) (x : Die) : (s.setDie d x).hostBad = s.hostBad := rfl
@[simp] theorem State.setDie_portReplies (s : State) (d : Nat) (x : Die) : (s.setDie d x).portReplies = s.portReplies := rfl
@[simp] theorem State.setDie_agenda (s : State) (d : Nat) (x : Die) : (s.setDie d x).agenda = s.agenda := rfl
@[simp] theorem State.setDie_cur (s : State) (d : Nat) (x : Die) : (s.setDie d x).cur = s.cur := rfl
@[simp] theorem State.setDie_freeCtr (s : State) (d : Nat) (x : Die) : (s.setDie d x).freeCtr = s.freeCtr := rfl

@[simp] theorem State.setThread_dies (s : State) (c t : Nat) (x : Thread) : (s.setThread c t x).dies = s.dies := rfl
@[simp] theorem State.setThread_gangs (s : State) (c t : Nat) (x : Thread) : (s.setThread c t x).gangs = s.gangs := rfl
@[simp] theorem State.setThread_launches (s : State) (c t : Nat) (x : Thread) : (s.setThread c t x).launches = s.launches := rfl
@[simp] theorem State.setThread_images (s : State) (c t : Nat) (x : Thread) : (s.setThread c t x).images = s.images := rfl
@[simp] theorem State.setThread_tasks (s : State) (c t : Nat) (x : Thread) : (s.setThread c t x).tasks = s.tasks := rfl
@[simp] theorem State.setThread_reqs (s : State) (c t : Nat) (x : Thread) : (s.setThread c t x).reqs = s.reqs := rfl
@[simp] theorem State.setThread_late (s : State) (c t : Nat) (x : Thread) : (s.setThread c t x).late = s.late := rfl
@[simp] theorem State.setThread_msgs (s : State) (c t : Nat) (x : Thread) : (s.setThread c t x).msgs = s.msgs := rfl
@[simp] theorem State.setThread_culverts (s : State) (c t : Nat) (x : Thread) : (s.setThread c t x).culverts = s.culverts := rfl
@[simp] theorem State.setThread_invals (s : State) (c t : Nat) (x : Thread) : (s.setThread c t x).invals = s.invals := rfl
@[simp] theorem State.setThread_regs (s : State) (c t : Nat) (x : Thread) : (s.setThread c t x).regs = s.regs := rfl
@[simp] theorem State.setThread_mem (s : State) (c t : Nat) (x : Thread) : (s.setThread c t x).mem = s.mem := rfl
@[simp] theorem State.setThread_side (s : State) (c t : Nat) (x : Thread) : (s.setThread c t x).side = s.side := rfl
@[simp] theorem State.setThread_l2 (s : State) (c t : Nat) (x : Thread) : (s.setThread c t x).l2 = s.l2 := rfl
@[simp] theorem State.setThread_poisoned (s : State) (c t : Nat) (x : Thread) : (s.setThread c t x).poisoned = s.poisoned := rfl
@[simp] theorem State.setThread_seq (s : State) (c t : Nat) (x : Thread) : (s.setThread c t x).seq = s.seq := rfl
@[simp] theorem State.setThread_dispatched (s : State) (c t : Nat) (x : Thread) : (s.setThread c t x).dispatched = s.dispatched := rfl
@[simp] theorem State.setThread_pushes (s : State) (c t : Nat) (x : Thread) : (s.setThread c t x).pushes = s.pushes := rfl
@[simp] theorem State.setThread_lqRsv (s : State) (c t : Nat) (x : Thread) : (s.setThread c t x).lqRsv = s.lqRsv := rfl
@[simp] theorem State.setThread_reqNo (s : State) (c t : Nat) (x : Thread) : (s.setThread c t x).reqNo = s.reqNo := rfl
@[simp] theorem State.setThread_lqEntries (s : State) (c t : Nat) (x : Thread) : (s.setThread c t x).lqEntries = s.lqEntries := rfl
@[simp] theorem State.setThread_lqCount (s : State) (c t : Nat) (x : Thread) : (s.setThread c t x).lqCount = s.lqCount := rfl
@[simp] theorem State.setThread_hostTimes (s : State) (c t : Nat) (x : Thread) : (s.setThread c t x).hostTimes = s.hostTimes := rfl
@[simp] theorem State.setThread_portTimes (s : State) (c t : Nat) (x : Thread) : (s.setThread c t x).portTimes = s.portTimes := rfl
@[simp] theorem State.setThread_hostToks (s : State) (c t : Nat) (x : Thread) : (s.setThread c t x).hostToks = s.hostToks := rfl
@[simp] theorem State.setThread_hostAbort (s : State) (c t : Nat) (x : Thread) : (s.setThread c t x).hostAbort = s.hostAbort := rfl
@[simp] theorem State.setThread_fuses (s : State) (c t : Nat) (x : Thread) : (s.setThread c t x).fuses = s.fuses := rfl
@[simp] theorem State.setThread_keys (s : State) (c t : Nat) (x : Thread) : (s.setThread c t x).keys = s.keys := rfl
@[simp] theorem State.setThread_meas (s : State) (c t : Nat) (x : Thread) : (s.setThread c t x).meas = s.meas := rfl
@[simp] theorem State.setThread_quote (s : State) (c t : Nat) (x : Thread) : (s.setThread c t x).quote = s.quote := rfl
@[simp] theorem State.setThread_quotes (s : State) (c t : Nat) (x : Thread) : (s.setThread c t x).quotes = s.quotes := rfl
@[simp] theorem State.setThread_msix (s : State) (c t : Nat) (x : Thread) : (s.setThread c t x).msix = s.msix := rfl
@[simp] theorem State.setThread_xfer (s : State) (c t : Nat) (x : Thread) : (s.setThread c t x).xfer = s.xfer := rfl
@[simp] theorem State.setThread_host (s : State) (c t : Nat) (x : Thread) : (s.setThread c t x).host = s.host := rfl
@[simp] theorem State.setThread_links (s : State) (c t : Nat) (x : Thread) : (s.setThread c t x).links = s.links := rfl
@[simp] theorem State.setThread_msixOpen (s : State) (c t : Nat) (x : Thread) : (s.setThread c t x).msixOpen = s.msixOpen := rfl
@[simp] theorem State.setThread_msixSent (s : State) (c t : Nat) (x : Thread) : (s.setThread c t x).msixSent = s.msixSent := rfl
@[simp] theorem State.setThread_aperBase (s : State) (c t : Nat) (x : Thread) : (s.setThread c t x).aperBase = s.aperBase := rfl
@[simp] theorem State.setThread_portQ (s : State) (c t : Nat) (x : Thread) : (s.setThread c t x).portQ = s.portQ := rfl
@[simp] theorem State.setThread_conn (s : State) (c t : Nat) (x : Thread) : (s.setThread c t x).conn = s.conn := rfl
@[simp] theorem State.setThread_circuits (s : State) (c t : Nat) (x : Thread) : (s.setThread c t x).circuits = s.circuits := rfl
@[simp] theorem State.setThread_hostData (s : State) (c t : Nat) (x : Thread) : (s.setThread c t x).hostData = s.hostData := rfl
@[simp] theorem State.setThread_hostPoison (s : State) (c t : Nat) (x : Thread) : (s.setThread c t x).hostPoison = s.hostPoison := rfl
@[simp] theorem State.setThread_hostBad (s : State) (c t : Nat) (x : Thread) : (s.setThread c t x).hostBad = s.hostBad := rfl
@[simp] theorem State.setThread_portReplies (s : State) (c t : Nat) (x : Thread) : (s.setThread c t x).portReplies = s.portReplies := rfl
@[simp] theorem State.setThread_agenda (s : State) (c t : Nat) (x : Thread) : (s.setThread c t x).agenda = s.agenda := rfl
@[simp] theorem State.setThread_cur (s : State) (c t : Nat) (x : Thread) : (s.setThread c t x).cur = s.cur := rfl
@[simp] theorem State.setThread_freeCtr (s : State) (c t : Nat) (x : Thread) : (s.setThread c t x).freeCtr = s.freeCtr := rfl

@[simp] theorem State.setGang_cores (s : State) (g : Nat) (x : Gang) : (s.setGang g x).cores = s.cores := rfl
@[simp] theorem State.setGang_dies (s : State) (g : Nat) (x : Gang) : (s.setGang g x).dies = s.dies := rfl
@[simp] theorem State.setGang_launches (s : State) (g : Nat) (x : Gang) : (s.setGang g x).launches = s.launches := rfl
@[simp] theorem State.setGang_images (s : State) (g : Nat) (x : Gang) : (s.setGang g x).images = s.images := rfl
@[simp] theorem State.setGang_tasks (s : State) (g : Nat) (x : Gang) : (s.setGang g x).tasks = s.tasks := rfl
@[simp] theorem State.setGang_reqs (s : State) (g : Nat) (x : Gang) : (s.setGang g x).reqs = s.reqs := rfl
@[simp] theorem State.setGang_late (s : State) (g : Nat) (x : Gang) : (s.setGang g x).late = s.late := rfl
@[simp] theorem State.setGang_msgs (s : State) (g : Nat) (x : Gang) : (s.setGang g x).msgs = s.msgs := rfl
@[simp] theorem State.setGang_culverts (s : State) (g : Nat) (x : Gang) : (s.setGang g x).culverts = s.culverts := rfl
@[simp] theorem State.setGang_invals (s : State) (g : Nat) (x : Gang) : (s.setGang g x).invals = s.invals := rfl
@[simp] theorem State.setGang_regs (s : State) (g : Nat) (x : Gang) : (s.setGang g x).regs = s.regs := rfl
@[simp] theorem State.setGang_mem (s : State) (g : Nat) (x : Gang) : (s.setGang g x).mem = s.mem := rfl
@[simp] theorem State.setGang_side (s : State) (g : Nat) (x : Gang) : (s.setGang g x).side = s.side := rfl
@[simp] theorem State.setGang_l2 (s : State) (g : Nat) (x : Gang) : (s.setGang g x).l2 = s.l2 := rfl
@[simp] theorem State.setGang_poisoned (s : State) (g : Nat) (x : Gang) : (s.setGang g x).poisoned = s.poisoned := rfl
@[simp] theorem State.setGang_seq (s : State) (g : Nat) (x : Gang) : (s.setGang g x).seq = s.seq := rfl
@[simp] theorem State.setGang_dispatched (s : State) (g : Nat) (x : Gang) : (s.setGang g x).dispatched = s.dispatched := rfl
@[simp] theorem State.setGang_pushes (s : State) (g : Nat) (x : Gang) : (s.setGang g x).pushes = s.pushes := rfl
@[simp] theorem State.setGang_lqRsv (s : State) (g : Nat) (x : Gang) : (s.setGang g x).lqRsv = s.lqRsv := rfl
@[simp] theorem State.setGang_reqNo (s : State) (g : Nat) (x : Gang) : (s.setGang g x).reqNo = s.reqNo := rfl
@[simp] theorem State.setGang_lqEntries (s : State) (g : Nat) (x : Gang) : (s.setGang g x).lqEntries = s.lqEntries := rfl
@[simp] theorem State.setGang_lqCount (s : State) (g : Nat) (x : Gang) : (s.setGang g x).lqCount = s.lqCount := rfl
@[simp] theorem State.setGang_hostTimes (s : State) (g : Nat) (x : Gang) : (s.setGang g x).hostTimes = s.hostTimes := rfl
@[simp] theorem State.setGang_portTimes (s : State) (g : Nat) (x : Gang) : (s.setGang g x).portTimes = s.portTimes := rfl
@[simp] theorem State.setGang_hostToks (s : State) (g : Nat) (x : Gang) : (s.setGang g x).hostToks = s.hostToks := rfl
@[simp] theorem State.setGang_hostAbort (s : State) (g : Nat) (x : Gang) : (s.setGang g x).hostAbort = s.hostAbort := rfl
@[simp] theorem State.setGang_fuses (s : State) (g : Nat) (x : Gang) : (s.setGang g x).fuses = s.fuses := rfl
@[simp] theorem State.setGang_keys (s : State) (g : Nat) (x : Gang) : (s.setGang g x).keys = s.keys := rfl
@[simp] theorem State.setGang_meas (s : State) (g : Nat) (x : Gang) : (s.setGang g x).meas = s.meas := rfl
@[simp] theorem State.setGang_quote (s : State) (g : Nat) (x : Gang) : (s.setGang g x).quote = s.quote := rfl
@[simp] theorem State.setGang_quotes (s : State) (g : Nat) (x : Gang) : (s.setGang g x).quotes = s.quotes := rfl
@[simp] theorem State.setGang_msix (s : State) (g : Nat) (x : Gang) : (s.setGang g x).msix = s.msix := rfl
@[simp] theorem State.setGang_xfer (s : State) (g : Nat) (x : Gang) : (s.setGang g x).xfer = s.xfer := rfl
@[simp] theorem State.setGang_host (s : State) (g : Nat) (x : Gang) : (s.setGang g x).host = s.host := rfl
@[simp] theorem State.setGang_links (s : State) (g : Nat) (x : Gang) : (s.setGang g x).links = s.links := rfl
@[simp] theorem State.setGang_msixOpen (s : State) (g : Nat) (x : Gang) : (s.setGang g x).msixOpen = s.msixOpen := rfl
@[simp] theorem State.setGang_msixSent (s : State) (g : Nat) (x : Gang) : (s.setGang g x).msixSent = s.msixSent := rfl
@[simp] theorem State.setGang_aperBase (s : State) (g : Nat) (x : Gang) : (s.setGang g x).aperBase = s.aperBase := rfl
@[simp] theorem State.setGang_portQ (s : State) (g : Nat) (x : Gang) : (s.setGang g x).portQ = s.portQ := rfl
@[simp] theorem State.setGang_conn (s : State) (g : Nat) (x : Gang) : (s.setGang g x).conn = s.conn := rfl
@[simp] theorem State.setGang_circuits (s : State) (g : Nat) (x : Gang) : (s.setGang g x).circuits = s.circuits := rfl
@[simp] theorem State.setGang_hostData (s : State) (g : Nat) (x : Gang) : (s.setGang g x).hostData = s.hostData := rfl
@[simp] theorem State.setGang_hostPoison (s : State) (g : Nat) (x : Gang) : (s.setGang g x).hostPoison = s.hostPoison := rfl
@[simp] theorem State.setGang_hostBad (s : State) (g : Nat) (x : Gang) : (s.setGang g x).hostBad = s.hostBad := rfl
@[simp] theorem State.setGang_portReplies (s : State) (g : Nat) (x : Gang) : (s.setGang g x).portReplies = s.portReplies := rfl
@[simp] theorem State.setGang_agenda (s : State) (g : Nat) (x : Gang) : (s.setGang g x).agenda = s.agenda := rfl
@[simp] theorem State.setGang_cur (s : State) (g : Nat) (x : Gang) : (s.setGang g x).cur = s.cur := rfl
@[simp] theorem State.setGang_freeCtr (s : State) (g : Nat) (x : Gang) : (s.setGang g x).freeCtr = s.freeCtr := rfl

@[simp] theorem State.setLaunch_cores (s : State) (q : Nat) (x : Launch) : (s.setLaunch q x).cores = s.cores := rfl
@[simp] theorem State.setLaunch_dies (s : State) (q : Nat) (x : Launch) : (s.setLaunch q x).dies = s.dies := rfl
@[simp] theorem State.setLaunch_gangs (s : State) (q : Nat) (x : Launch) : (s.setLaunch q x).gangs = s.gangs := rfl
@[simp] theorem State.setLaunch_images (s : State) (q : Nat) (x : Launch) : (s.setLaunch q x).images = s.images := rfl
@[simp] theorem State.setLaunch_tasks (s : State) (q : Nat) (x : Launch) : (s.setLaunch q x).tasks = s.tasks := rfl
@[simp] theorem State.setLaunch_reqs (s : State) (q : Nat) (x : Launch) : (s.setLaunch q x).reqs = s.reqs := rfl
@[simp] theorem State.setLaunch_late (s : State) (q : Nat) (x : Launch) : (s.setLaunch q x).late = s.late := rfl
@[simp] theorem State.setLaunch_msgs (s : State) (q : Nat) (x : Launch) : (s.setLaunch q x).msgs = s.msgs := rfl
@[simp] theorem State.setLaunch_culverts (s : State) (q : Nat) (x : Launch) : (s.setLaunch q x).culverts = s.culverts := rfl
@[simp] theorem State.setLaunch_invals (s : State) (q : Nat) (x : Launch) : (s.setLaunch q x).invals = s.invals := rfl
@[simp] theorem State.setLaunch_regs (s : State) (q : Nat) (x : Launch) : (s.setLaunch q x).regs = s.regs := rfl
@[simp] theorem State.setLaunch_mem (s : State) (q : Nat) (x : Launch) : (s.setLaunch q x).mem = s.mem := rfl
@[simp] theorem State.setLaunch_side (s : State) (q : Nat) (x : Launch) : (s.setLaunch q x).side = s.side := rfl
@[simp] theorem State.setLaunch_l2 (s : State) (q : Nat) (x : Launch) : (s.setLaunch q x).l2 = s.l2 := rfl
@[simp] theorem State.setLaunch_poisoned (s : State) (q : Nat) (x : Launch) : (s.setLaunch q x).poisoned = s.poisoned := rfl
@[simp] theorem State.setLaunch_seq (s : State) (q : Nat) (x : Launch) : (s.setLaunch q x).seq = s.seq := rfl
@[simp] theorem State.setLaunch_dispatched (s : State) (q : Nat) (x : Launch) : (s.setLaunch q x).dispatched = s.dispatched := rfl
@[simp] theorem State.setLaunch_pushes (s : State) (q : Nat) (x : Launch) : (s.setLaunch q x).pushes = s.pushes := rfl
@[simp] theorem State.setLaunch_lqRsv (s : State) (q : Nat) (x : Launch) : (s.setLaunch q x).lqRsv = s.lqRsv := rfl
@[simp] theorem State.setLaunch_reqNo (s : State) (q : Nat) (x : Launch) : (s.setLaunch q x).reqNo = s.reqNo := rfl
@[simp] theorem State.setLaunch_lqEntries (s : State) (q : Nat) (x : Launch) : (s.setLaunch q x).lqEntries = s.lqEntries := rfl
@[simp] theorem State.setLaunch_lqCount (s : State) (q : Nat) (x : Launch) : (s.setLaunch q x).lqCount = s.lqCount := rfl
@[simp] theorem State.setLaunch_hostTimes (s : State) (q : Nat) (x : Launch) : (s.setLaunch q x).hostTimes = s.hostTimes := rfl
@[simp] theorem State.setLaunch_portTimes (s : State) (q : Nat) (x : Launch) : (s.setLaunch q x).portTimes = s.portTimes := rfl
@[simp] theorem State.setLaunch_hostToks (s : State) (q : Nat) (x : Launch) : (s.setLaunch q x).hostToks = s.hostToks := rfl
@[simp] theorem State.setLaunch_hostAbort (s : State) (q : Nat) (x : Launch) : (s.setLaunch q x).hostAbort = s.hostAbort := rfl
@[simp] theorem State.setLaunch_fuses (s : State) (q : Nat) (x : Launch) : (s.setLaunch q x).fuses = s.fuses := rfl
@[simp] theorem State.setLaunch_keys (s : State) (q : Nat) (x : Launch) : (s.setLaunch q x).keys = s.keys := rfl
@[simp] theorem State.setLaunch_meas (s : State) (q : Nat) (x : Launch) : (s.setLaunch q x).meas = s.meas := rfl
@[simp] theorem State.setLaunch_quote (s : State) (q : Nat) (x : Launch) : (s.setLaunch q x).quote = s.quote := rfl
@[simp] theorem State.setLaunch_quotes (s : State) (q : Nat) (x : Launch) : (s.setLaunch q x).quotes = s.quotes := rfl
@[simp] theorem State.setLaunch_msix (s : State) (q : Nat) (x : Launch) : (s.setLaunch q x).msix = s.msix := rfl
@[simp] theorem State.setLaunch_xfer (s : State) (q : Nat) (x : Launch) : (s.setLaunch q x).xfer = s.xfer := rfl
@[simp] theorem State.setLaunch_host (s : State) (q : Nat) (x : Launch) : (s.setLaunch q x).host = s.host := rfl
@[simp] theorem State.setLaunch_links (s : State) (q : Nat) (x : Launch) : (s.setLaunch q x).links = s.links := rfl
@[simp] theorem State.setLaunch_msixOpen (s : State) (q : Nat) (x : Launch) : (s.setLaunch q x).msixOpen = s.msixOpen := rfl
@[simp] theorem State.setLaunch_msixSent (s : State) (q : Nat) (x : Launch) : (s.setLaunch q x).msixSent = s.msixSent := rfl
@[simp] theorem State.setLaunch_aperBase (s : State) (q : Nat) (x : Launch) : (s.setLaunch q x).aperBase = s.aperBase := rfl
@[simp] theorem State.setLaunch_portQ (s : State) (q : Nat) (x : Launch) : (s.setLaunch q x).portQ = s.portQ := rfl
@[simp] theorem State.setLaunch_conn (s : State) (q : Nat) (x : Launch) : (s.setLaunch q x).conn = s.conn := rfl
@[simp] theorem State.setLaunch_circuits (s : State) (q : Nat) (x : Launch) : (s.setLaunch q x).circuits = s.circuits := rfl
@[simp] theorem State.setLaunch_hostData (s : State) (q : Nat) (x : Launch) : (s.setLaunch q x).hostData = s.hostData := rfl
@[simp] theorem State.setLaunch_hostPoison (s : State) (q : Nat) (x : Launch) : (s.setLaunch q x).hostPoison = s.hostPoison := rfl
@[simp] theorem State.setLaunch_hostBad (s : State) (q : Nat) (x : Launch) : (s.setLaunch q x).hostBad = s.hostBad := rfl
@[simp] theorem State.setLaunch_portReplies (s : State) (q : Nat) (x : Launch) : (s.setLaunch q x).portReplies = s.portReplies := rfl
@[simp] theorem State.setLaunch_agenda (s : State) (q : Nat) (x : Launch) : (s.setLaunch q x).agenda = s.agenda := rfl
@[simp] theorem State.setLaunch_cur (s : State) (q : Nat) (x : Launch) : (s.setLaunch q x).cur = s.cur := rfl
@[simp] theorem State.setLaunch_freeCtr (s : State) (q : Nat) (x : Launch) : (s.setLaunch q x).freeCtr = s.freeCtr := rfl

@[simp] theorem State.setInst_dies (s : State) (c i : Nat) (x : Inst) : (s.setInst c i x).dies = s.dies := rfl
@[simp] theorem State.setInst_gangs (s : State) (c i : Nat) (x : Inst) : (s.setInst c i x).gangs = s.gangs := rfl
@[simp] theorem State.setInst_launches (s : State) (c i : Nat) (x : Inst) : (s.setInst c i x).launches = s.launches := rfl
@[simp] theorem State.setInst_images (s : State) (c i : Nat) (x : Inst) : (s.setInst c i x).images = s.images := rfl
@[simp] theorem State.setInst_tasks (s : State) (c i : Nat) (x : Inst) : (s.setInst c i x).tasks = s.tasks := rfl
@[simp] theorem State.setInst_reqs (s : State) (c i : Nat) (x : Inst) : (s.setInst c i x).reqs = s.reqs := rfl
@[simp] theorem State.setInst_late (s : State) (c i : Nat) (x : Inst) : (s.setInst c i x).late = s.late := rfl
@[simp] theorem State.setInst_msgs (s : State) (c i : Nat) (x : Inst) : (s.setInst c i x).msgs = s.msgs := rfl
@[simp] theorem State.setInst_culverts (s : State) (c i : Nat) (x : Inst) : (s.setInst c i x).culverts = s.culverts := rfl
@[simp] theorem State.setInst_invals (s : State) (c i : Nat) (x : Inst) : (s.setInst c i x).invals = s.invals := rfl
@[simp] theorem State.setInst_regs (s : State) (c i : Nat) (x : Inst) : (s.setInst c i x).regs = s.regs := rfl
@[simp] theorem State.setInst_mem (s : State) (c i : Nat) (x : Inst) : (s.setInst c i x).mem = s.mem := rfl
@[simp] theorem State.setInst_side (s : State) (c i : Nat) (x : Inst) : (s.setInst c i x).side = s.side := rfl
@[simp] theorem State.setInst_l2 (s : State) (c i : Nat) (x : Inst) : (s.setInst c i x).l2 = s.l2 := rfl
@[simp] theorem State.setInst_poisoned (s : State) (c i : Nat) (x : Inst) : (s.setInst c i x).poisoned = s.poisoned := rfl
@[simp] theorem State.setInst_seq (s : State) (c i : Nat) (x : Inst) : (s.setInst c i x).seq = s.seq := rfl
@[simp] theorem State.setInst_dispatched (s : State) (c i : Nat) (x : Inst) : (s.setInst c i x).dispatched = s.dispatched := rfl
@[simp] theorem State.setInst_pushes (s : State) (c i : Nat) (x : Inst) : (s.setInst c i x).pushes = s.pushes := rfl
@[simp] theorem State.setInst_lqRsv (s : State) (c i : Nat) (x : Inst) : (s.setInst c i x).lqRsv = s.lqRsv := rfl
@[simp] theorem State.setInst_reqNo (s : State) (c i : Nat) (x : Inst) : (s.setInst c i x).reqNo = s.reqNo := rfl
@[simp] theorem State.setInst_lqEntries (s : State) (c i : Nat) (x : Inst) : (s.setInst c i x).lqEntries = s.lqEntries := rfl
@[simp] theorem State.setInst_lqCount (s : State) (c i : Nat) (x : Inst) : (s.setInst c i x).lqCount = s.lqCount := rfl
@[simp] theorem State.setInst_hostTimes (s : State) (c i : Nat) (x : Inst) : (s.setInst c i x).hostTimes = s.hostTimes := rfl
@[simp] theorem State.setInst_portTimes (s : State) (c i : Nat) (x : Inst) : (s.setInst c i x).portTimes = s.portTimes := rfl
@[simp] theorem State.setInst_hostToks (s : State) (c i : Nat) (x : Inst) : (s.setInst c i x).hostToks = s.hostToks := rfl
@[simp] theorem State.setInst_hostAbort (s : State) (c i : Nat) (x : Inst) : (s.setInst c i x).hostAbort = s.hostAbort := rfl
@[simp] theorem State.setInst_fuses (s : State) (c i : Nat) (x : Inst) : (s.setInst c i x).fuses = s.fuses := rfl
@[simp] theorem State.setInst_keys (s : State) (c i : Nat) (x : Inst) : (s.setInst c i x).keys = s.keys := rfl
@[simp] theorem State.setInst_meas (s : State) (c i : Nat) (x : Inst) : (s.setInst c i x).meas = s.meas := rfl
@[simp] theorem State.setInst_quote (s : State) (c i : Nat) (x : Inst) : (s.setInst c i x).quote = s.quote := rfl
@[simp] theorem State.setInst_quotes (s : State) (c i : Nat) (x : Inst) : (s.setInst c i x).quotes = s.quotes := rfl
@[simp] theorem State.setInst_msix (s : State) (c i : Nat) (x : Inst) : (s.setInst c i x).msix = s.msix := rfl
@[simp] theorem State.setInst_xfer (s : State) (c i : Nat) (x : Inst) : (s.setInst c i x).xfer = s.xfer := rfl
@[simp] theorem State.setInst_host (s : State) (c i : Nat) (x : Inst) : (s.setInst c i x).host = s.host := rfl
@[simp] theorem State.setInst_links (s : State) (c i : Nat) (x : Inst) : (s.setInst c i x).links = s.links := rfl
@[simp] theorem State.setInst_msixOpen (s : State) (c i : Nat) (x : Inst) : (s.setInst c i x).msixOpen = s.msixOpen := rfl
@[simp] theorem State.setInst_msixSent (s : State) (c i : Nat) (x : Inst) : (s.setInst c i x).msixSent = s.msixSent := rfl
@[simp] theorem State.setInst_aperBase (s : State) (c i : Nat) (x : Inst) : (s.setInst c i x).aperBase = s.aperBase := rfl
@[simp] theorem State.setInst_portQ (s : State) (c i : Nat) (x : Inst) : (s.setInst c i x).portQ = s.portQ := rfl
@[simp] theorem State.setInst_conn (s : State) (c i : Nat) (x : Inst) : (s.setInst c i x).conn = s.conn := rfl
@[simp] theorem State.setInst_circuits (s : State) (c i : Nat) (x : Inst) : (s.setInst c i x).circuits = s.circuits := rfl
@[simp] theorem State.setInst_hostData (s : State) (c i : Nat) (x : Inst) : (s.setInst c i x).hostData = s.hostData := rfl
@[simp] theorem State.setInst_hostPoison (s : State) (c i : Nat) (x : Inst) : (s.setInst c i x).hostPoison = s.hostPoison := rfl
@[simp] theorem State.setInst_hostBad (s : State) (c i : Nat) (x : Inst) : (s.setInst c i x).hostBad = s.hostBad := rfl
@[simp] theorem State.setInst_portReplies (s : State) (c i : Nat) (x : Inst) : (s.setInst c i x).portReplies = s.portReplies := rfl
@[simp] theorem State.setInst_agenda (s : State) (c i : Nat) (x : Inst) : (s.setInst c i x).agenda = s.agenda := rfl
@[simp] theorem State.setInst_cur (s : State) (c i : Nat) (x : Inst) : (s.setInst c i x).cur = s.cur := rfl
@[simp] theorem State.setInst_freeCtr (s : State) (c i : Nat) (x : Inst) : (s.setInst c i x).freeCtr = s.freeCtr := rfl

@[simp] theorem State.setWg_dies (s : State) (c b : Nat) (x : Wg) : (s.setWg c b x).dies = s.dies := rfl
@[simp] theorem State.setWg_gangs (s : State) (c b : Nat) (x : Wg) : (s.setWg c b x).gangs = s.gangs := rfl
@[simp] theorem State.setWg_launches (s : State) (c b : Nat) (x : Wg) : (s.setWg c b x).launches = s.launches := rfl
@[simp] theorem State.setWg_images (s : State) (c b : Nat) (x : Wg) : (s.setWg c b x).images = s.images := rfl
@[simp] theorem State.setWg_tasks (s : State) (c b : Nat) (x : Wg) : (s.setWg c b x).tasks = s.tasks := rfl
@[simp] theorem State.setWg_reqs (s : State) (c b : Nat) (x : Wg) : (s.setWg c b x).reqs = s.reqs := rfl
@[simp] theorem State.setWg_late (s : State) (c b : Nat) (x : Wg) : (s.setWg c b x).late = s.late := rfl
@[simp] theorem State.setWg_msgs (s : State) (c b : Nat) (x : Wg) : (s.setWg c b x).msgs = s.msgs := rfl
@[simp] theorem State.setWg_culverts (s : State) (c b : Nat) (x : Wg) : (s.setWg c b x).culverts = s.culverts := rfl
@[simp] theorem State.setWg_invals (s : State) (c b : Nat) (x : Wg) : (s.setWg c b x).invals = s.invals := rfl
@[simp] theorem State.setWg_regs (s : State) (c b : Nat) (x : Wg) : (s.setWg c b x).regs = s.regs := rfl
@[simp] theorem State.setWg_mem (s : State) (c b : Nat) (x : Wg) : (s.setWg c b x).mem = s.mem := rfl
@[simp] theorem State.setWg_side (s : State) (c b : Nat) (x : Wg) : (s.setWg c b x).side = s.side := rfl
@[simp] theorem State.setWg_l2 (s : State) (c b : Nat) (x : Wg) : (s.setWg c b x).l2 = s.l2 := rfl
@[simp] theorem State.setWg_poisoned (s : State) (c b : Nat) (x : Wg) : (s.setWg c b x).poisoned = s.poisoned := rfl
@[simp] theorem State.setWg_seq (s : State) (c b : Nat) (x : Wg) : (s.setWg c b x).seq = s.seq := rfl
@[simp] theorem State.setWg_dispatched (s : State) (c b : Nat) (x : Wg) : (s.setWg c b x).dispatched = s.dispatched := rfl
@[simp] theorem State.setWg_pushes (s : State) (c b : Nat) (x : Wg) : (s.setWg c b x).pushes = s.pushes := rfl
@[simp] theorem State.setWg_lqRsv (s : State) (c b : Nat) (x : Wg) : (s.setWg c b x).lqRsv = s.lqRsv := rfl
@[simp] theorem State.setWg_reqNo (s : State) (c b : Nat) (x : Wg) : (s.setWg c b x).reqNo = s.reqNo := rfl
@[simp] theorem State.setWg_lqEntries (s : State) (c b : Nat) (x : Wg) : (s.setWg c b x).lqEntries = s.lqEntries := rfl
@[simp] theorem State.setWg_lqCount (s : State) (c b : Nat) (x : Wg) : (s.setWg c b x).lqCount = s.lqCount := rfl
@[simp] theorem State.setWg_hostTimes (s : State) (c b : Nat) (x : Wg) : (s.setWg c b x).hostTimes = s.hostTimes := rfl
@[simp] theorem State.setWg_portTimes (s : State) (c b : Nat) (x : Wg) : (s.setWg c b x).portTimes = s.portTimes := rfl
@[simp] theorem State.setWg_hostToks (s : State) (c b : Nat) (x : Wg) : (s.setWg c b x).hostToks = s.hostToks := rfl
@[simp] theorem State.setWg_hostAbort (s : State) (c b : Nat) (x : Wg) : (s.setWg c b x).hostAbort = s.hostAbort := rfl
@[simp] theorem State.setWg_fuses (s : State) (c b : Nat) (x : Wg) : (s.setWg c b x).fuses = s.fuses := rfl
@[simp] theorem State.setWg_keys (s : State) (c b : Nat) (x : Wg) : (s.setWg c b x).keys = s.keys := rfl
@[simp] theorem State.setWg_meas (s : State) (c b : Nat) (x : Wg) : (s.setWg c b x).meas = s.meas := rfl
@[simp] theorem State.setWg_quote (s : State) (c b : Nat) (x : Wg) : (s.setWg c b x).quote = s.quote := rfl
@[simp] theorem State.setWg_quotes (s : State) (c b : Nat) (x : Wg) : (s.setWg c b x).quotes = s.quotes := rfl
@[simp] theorem State.setWg_msix (s : State) (c b : Nat) (x : Wg) : (s.setWg c b x).msix = s.msix := rfl
@[simp] theorem State.setWg_xfer (s : State) (c b : Nat) (x : Wg) : (s.setWg c b x).xfer = s.xfer := rfl
@[simp] theorem State.setWg_host (s : State) (c b : Nat) (x : Wg) : (s.setWg c b x).host = s.host := rfl
@[simp] theorem State.setWg_links (s : State) (c b : Nat) (x : Wg) : (s.setWg c b x).links = s.links := rfl
@[simp] theorem State.setWg_msixOpen (s : State) (c b : Nat) (x : Wg) : (s.setWg c b x).msixOpen = s.msixOpen := rfl
@[simp] theorem State.setWg_msixSent (s : State) (c b : Nat) (x : Wg) : (s.setWg c b x).msixSent = s.msixSent := rfl
@[simp] theorem State.setWg_aperBase (s : State) (c b : Nat) (x : Wg) : (s.setWg c b x).aperBase = s.aperBase := rfl
@[simp] theorem State.setWg_portQ (s : State) (c b : Nat) (x : Wg) : (s.setWg c b x).portQ = s.portQ := rfl
@[simp] theorem State.setWg_conn (s : State) (c b : Nat) (x : Wg) : (s.setWg c b x).conn = s.conn := rfl
@[simp] theorem State.setWg_circuits (s : State) (c b : Nat) (x : Wg) : (s.setWg c b x).circuits = s.circuits := rfl
@[simp] theorem State.setWg_hostData (s : State) (c b : Nat) (x : Wg) : (s.setWg c b x).hostData = s.hostData := rfl
@[simp] theorem State.setWg_hostPoison (s : State) (c b : Nat) (x : Wg) : (s.setWg c b x).hostPoison = s.hostPoison := rfl
@[simp] theorem State.setWg_hostBad (s : State) (c b : Nat) (x : Wg) : (s.setWg c b x).hostBad = s.hostBad := rfl
@[simp] theorem State.setWg_portReplies (s : State) (c b : Nat) (x : Wg) : (s.setWg c b x).portReplies = s.portReplies := rfl
@[simp] theorem State.setWg_agenda (s : State) (c b : Nat) (x : Wg) : (s.setWg c b x).agenda = s.agenda := rfl
@[simp] theorem State.setWg_cur (s : State) (c b : Nat) (x : Wg) : (s.setWg c b x).cur = s.cur := rfl
@[simp] theorem State.setWg_freeCtr (s : State) (c b : Nat) (x : Wg) : (s.setWg c b x).freeCtr = s.freeCtr := rfl

@[simp] theorem State.setRound_dies (s : State) (c r : Nat) (x : Round) : (s.setRound c r x).dies = s.dies := rfl
@[simp] theorem State.setRound_gangs (s : State) (c r : Nat) (x : Round) : (s.setRound c r x).gangs = s.gangs := rfl
@[simp] theorem State.setRound_launches (s : State) (c r : Nat) (x : Round) : (s.setRound c r x).launches = s.launches := rfl
@[simp] theorem State.setRound_images (s : State) (c r : Nat) (x : Round) : (s.setRound c r x).images = s.images := rfl
@[simp] theorem State.setRound_tasks (s : State) (c r : Nat) (x : Round) : (s.setRound c r x).tasks = s.tasks := rfl
@[simp] theorem State.setRound_reqs (s : State) (c r : Nat) (x : Round) : (s.setRound c r x).reqs = s.reqs := rfl
@[simp] theorem State.setRound_late (s : State) (c r : Nat) (x : Round) : (s.setRound c r x).late = s.late := rfl
@[simp] theorem State.setRound_msgs (s : State) (c r : Nat) (x : Round) : (s.setRound c r x).msgs = s.msgs := rfl
@[simp] theorem State.setRound_culverts (s : State) (c r : Nat) (x : Round) : (s.setRound c r x).culverts = s.culverts := rfl
@[simp] theorem State.setRound_invals (s : State) (c r : Nat) (x : Round) : (s.setRound c r x).invals = s.invals := rfl
@[simp] theorem State.setRound_regs (s : State) (c r : Nat) (x : Round) : (s.setRound c r x).regs = s.regs := rfl
@[simp] theorem State.setRound_mem (s : State) (c r : Nat) (x : Round) : (s.setRound c r x).mem = s.mem := rfl
@[simp] theorem State.setRound_side (s : State) (c r : Nat) (x : Round) : (s.setRound c r x).side = s.side := rfl
@[simp] theorem State.setRound_l2 (s : State) (c r : Nat) (x : Round) : (s.setRound c r x).l2 = s.l2 := rfl
@[simp] theorem State.setRound_poisoned (s : State) (c r : Nat) (x : Round) : (s.setRound c r x).poisoned = s.poisoned := rfl
@[simp] theorem State.setRound_seq (s : State) (c r : Nat) (x : Round) : (s.setRound c r x).seq = s.seq := rfl
@[simp] theorem State.setRound_dispatched (s : State) (c r : Nat) (x : Round) : (s.setRound c r x).dispatched = s.dispatched := rfl
@[simp] theorem State.setRound_pushes (s : State) (c r : Nat) (x : Round) : (s.setRound c r x).pushes = s.pushes := rfl
@[simp] theorem State.setRound_lqRsv (s : State) (c r : Nat) (x : Round) : (s.setRound c r x).lqRsv = s.lqRsv := rfl
@[simp] theorem State.setRound_reqNo (s : State) (c r : Nat) (x : Round) : (s.setRound c r x).reqNo = s.reqNo := rfl
@[simp] theorem State.setRound_lqEntries (s : State) (c r : Nat) (x : Round) : (s.setRound c r x).lqEntries = s.lqEntries := rfl
@[simp] theorem State.setRound_lqCount (s : State) (c r : Nat) (x : Round) : (s.setRound c r x).lqCount = s.lqCount := rfl
@[simp] theorem State.setRound_hostTimes (s : State) (c r : Nat) (x : Round) : (s.setRound c r x).hostTimes = s.hostTimes := rfl
@[simp] theorem State.setRound_portTimes (s : State) (c r : Nat) (x : Round) : (s.setRound c r x).portTimes = s.portTimes := rfl
@[simp] theorem State.setRound_hostToks (s : State) (c r : Nat) (x : Round) : (s.setRound c r x).hostToks = s.hostToks := rfl
@[simp] theorem State.setRound_hostAbort (s : State) (c r : Nat) (x : Round) : (s.setRound c r x).hostAbort = s.hostAbort := rfl
@[simp] theorem State.setRound_fuses (s : State) (c r : Nat) (x : Round) : (s.setRound c r x).fuses = s.fuses := rfl
@[simp] theorem State.setRound_keys (s : State) (c r : Nat) (x : Round) : (s.setRound c r x).keys = s.keys := rfl
@[simp] theorem State.setRound_meas (s : State) (c r : Nat) (x : Round) : (s.setRound c r x).meas = s.meas := rfl
@[simp] theorem State.setRound_quote (s : State) (c r : Nat) (x : Round) : (s.setRound c r x).quote = s.quote := rfl
@[simp] theorem State.setRound_quotes (s : State) (c r : Nat) (x : Round) : (s.setRound c r x).quotes = s.quotes := rfl
@[simp] theorem State.setRound_msix (s : State) (c r : Nat) (x : Round) : (s.setRound c r x).msix = s.msix := rfl
@[simp] theorem State.setRound_xfer (s : State) (c r : Nat) (x : Round) : (s.setRound c r x).xfer = s.xfer := rfl
@[simp] theorem State.setRound_host (s : State) (c r : Nat) (x : Round) : (s.setRound c r x).host = s.host := rfl
@[simp] theorem State.setRound_links (s : State) (c r : Nat) (x : Round) : (s.setRound c r x).links = s.links := rfl
@[simp] theorem State.setRound_msixOpen (s : State) (c r : Nat) (x : Round) : (s.setRound c r x).msixOpen = s.msixOpen := rfl
@[simp] theorem State.setRound_msixSent (s : State) (c r : Nat) (x : Round) : (s.setRound c r x).msixSent = s.msixSent := rfl
@[simp] theorem State.setRound_aperBase (s : State) (c r : Nat) (x : Round) : (s.setRound c r x).aperBase = s.aperBase := rfl
@[simp] theorem State.setRound_portQ (s : State) (c r : Nat) (x : Round) : (s.setRound c r x).portQ = s.portQ := rfl
@[simp] theorem State.setRound_conn (s : State) (c r : Nat) (x : Round) : (s.setRound c r x).conn = s.conn := rfl
@[simp] theorem State.setRound_circuits (s : State) (c r : Nat) (x : Round) : (s.setRound c r x).circuits = s.circuits := rfl
@[simp] theorem State.setRound_hostData (s : State) (c r : Nat) (x : Round) : (s.setRound c r x).hostData = s.hostData := rfl
@[simp] theorem State.setRound_hostPoison (s : State) (c r : Nat) (x : Round) : (s.setRound c r x).hostPoison = s.hostPoison := rfl
@[simp] theorem State.setRound_hostBad (s : State) (c r : Nat) (x : Round) : (s.setRound c r x).hostBad = s.hostBad := rfl
@[simp] theorem State.setRound_portReplies (s : State) (c r : Nat) (x : Round) : (s.setRound c r x).portReplies = s.portReplies := rfl
@[simp] theorem State.setRound_agenda (s : State) (c r : Nat) (x : Round) : (s.setRound c r x).agenda = s.agenda := rfl
@[simp] theorem State.setRound_cur (s : State) (c r : Nat) (x : Round) : (s.setRound c r x).cur = s.cur := rfl
@[simp] theorem State.setRound_freeCtr (s : State) (c r : Nat) (x : Round) : (s.setRound c r x).freeCtr = s.freeCtr := rfl

@[simp] theorem State.setLink_cores (s : State) (k : Nat) (x : Link) : (s.setLink k x).cores = s.cores := rfl
@[simp] theorem State.setLink_dies (s : State) (k : Nat) (x : Link) : (s.setLink k x).dies = s.dies := rfl
@[simp] theorem State.setLink_gangs (s : State) (k : Nat) (x : Link) : (s.setLink k x).gangs = s.gangs := rfl
@[simp] theorem State.setLink_launches (s : State) (k : Nat) (x : Link) : (s.setLink k x).launches = s.launches := rfl
@[simp] theorem State.setLink_images (s : State) (k : Nat) (x : Link) : (s.setLink k x).images = s.images := rfl
@[simp] theorem State.setLink_tasks (s : State) (k : Nat) (x : Link) : (s.setLink k x).tasks = s.tasks := rfl
@[simp] theorem State.setLink_reqs (s : State) (k : Nat) (x : Link) : (s.setLink k x).reqs = s.reqs := rfl
@[simp] theorem State.setLink_reqNo (s : State) (k : Nat) (x : Link) : (s.setLink k x).reqNo = s.reqNo := rfl
@[simp] theorem State.setLink_late (s : State) (k : Nat) (x : Link) : (s.setLink k x).late = s.late := rfl
@[simp] theorem State.setLink_msgs (s : State) (k : Nat) (x : Link) : (s.setLink k x).msgs = s.msgs := rfl
@[simp] theorem State.setLink_culverts (s : State) (k : Nat) (x : Link) : (s.setLink k x).culverts = s.culverts := rfl
@[simp] theorem State.setLink_invals (s : State) (k : Nat) (x : Link) : (s.setLink k x).invals = s.invals := rfl
@[simp] theorem State.setLink_regs (s : State) (k : Nat) (x : Link) : (s.setLink k x).regs = s.regs := rfl
@[simp] theorem State.setLink_mem (s : State) (k : Nat) (x : Link) : (s.setLink k x).mem = s.mem := rfl
@[simp] theorem State.setLink_side (s : State) (k : Nat) (x : Link) : (s.setLink k x).side = s.side := rfl
@[simp] theorem State.setLink_l2 (s : State) (k : Nat) (x : Link) : (s.setLink k x).l2 = s.l2 := rfl
@[simp] theorem State.setLink_poisoned (s : State) (k : Nat) (x : Link) : (s.setLink k x).poisoned = s.poisoned := rfl
@[simp] theorem State.setLink_seq (s : State) (k : Nat) (x : Link) : (s.setLink k x).seq = s.seq := rfl
@[simp] theorem State.setLink_dispatched (s : State) (k : Nat) (x : Link) : (s.setLink k x).dispatched = s.dispatched := rfl
@[simp] theorem State.setLink_pushes (s : State) (k : Nat) (x : Link) : (s.setLink k x).pushes = s.pushes := rfl
@[simp] theorem State.setLink_lqEntries (s : State) (k : Nat) (x : Link) : (s.setLink k x).lqEntries = s.lqEntries := rfl
@[simp] theorem State.setLink_lqCount (s : State) (k : Nat) (x : Link) : (s.setLink k x).lqCount = s.lqCount := rfl
@[simp] theorem State.setLink_hostTimes (s : State) (k : Nat) (x : Link) : (s.setLink k x).hostTimes = s.hostTimes := rfl
@[simp] theorem State.setLink_portTimes (s : State) (k : Nat) (x : Link) : (s.setLink k x).portTimes = s.portTimes := rfl
@[simp] theorem State.setLink_hostToks (s : State) (k : Nat) (x : Link) : (s.setLink k x).hostToks = s.hostToks := rfl
@[simp] theorem State.setLink_lqRsv (s : State) (k : Nat) (x : Link) : (s.setLink k x).lqRsv = s.lqRsv := rfl
@[simp] theorem State.setLink_fuses (s : State) (k : Nat) (x : Link) : (s.setLink k x).fuses = s.fuses := rfl
@[simp] theorem State.setLink_keys (s : State) (k : Nat) (x : Link) : (s.setLink k x).keys = s.keys := rfl
@[simp] theorem State.setLink_meas (s : State) (k : Nat) (x : Link) : (s.setLink k x).meas = s.meas := rfl
@[simp] theorem State.setLink_quote (s : State) (k : Nat) (x : Link) : (s.setLink k x).quote = s.quote := rfl
@[simp] theorem State.setLink_quotes (s : State) (k : Nat) (x : Link) : (s.setLink k x).quotes = s.quotes := rfl
@[simp] theorem State.setLink_msix (s : State) (k : Nat) (x : Link) : (s.setLink k x).msix = s.msix := rfl
@[simp] theorem State.setLink_msixOpen (s : State) (k : Nat) (x : Link) : (s.setLink k x).msixOpen = s.msixOpen := rfl
@[simp] theorem State.setLink_msixSent (s : State) (k : Nat) (x : Link) : (s.setLink k x).msixSent = s.msixSent := rfl
@[simp] theorem State.setLink_xfer (s : State) (k : Nat) (x : Link) : (s.setLink k x).xfer = s.xfer := rfl
@[simp] theorem State.setLink_host (s : State) (k : Nat) (x : Link) : (s.setLink k x).host = s.host := rfl
@[simp] theorem State.setLink_conn (s : State) (k : Nat) (x : Link) : (s.setLink k x).conn = s.conn := rfl
@[simp] theorem State.setLink_circuits (s : State) (k : Nat) (x : Link) : (s.setLink k x).circuits = s.circuits := rfl
@[simp] theorem State.setLink_hostData (s : State) (k : Nat) (x : Link) : (s.setLink k x).hostData = s.hostData := rfl
@[simp] theorem State.setLink_hostPoison (s : State) (k : Nat) (x : Link) : (s.setLink k x).hostPoison = s.hostPoison := rfl
@[simp] theorem State.setLink_hostAbort (s : State) (k : Nat) (x : Link) : (s.setLink k x).hostAbort = s.hostAbort := rfl
@[simp] theorem State.setLink_aperBase (s : State) (k : Nat) (x : Link) : (s.setLink k x).aperBase = s.aperBase := rfl
@[simp] theorem State.setLink_hostBad (s : State) (k : Nat) (x : Link) : (s.setLink k x).hostBad = s.hostBad := rfl
@[simp] theorem State.setLink_portReplies (s : State) (k : Nat) (x : Link) : (s.setLink k x).portReplies = s.portReplies := rfl
@[simp] theorem State.setLink_portQ (s : State) (k : Nat) (x : Link) : (s.setLink k x).portQ = s.portQ := rfl
@[simp] theorem State.setLink_agenda (s : State) (k : Nat) (x : Link) : (s.setLink k x).agenda = s.agenda := rfl
@[simp] theorem State.setLink_cur (s : State) (k : Nat) (x : Link) : (s.setLink k x).cur = s.cur := rfl
@[simp] theorem State.setLink_freeCtr (s : State) (k : Nat) (x : Link) : (s.setLink k x).freeCtr = s.freeCtr := rfl

/-! ## Getters after setters -/

@[simp] theorem State.reg_setReg_same (s : State) (o v : Nat) : (s.setReg o v).reg o = v := by
  simp [State.reg, State.setReg, mgetD]
theorem State.reg_setReg_ne (s : State) (o o' v : Nat) (h : o' ≠ o) : (s.setReg o v).reg o' = s.reg o' := by
  simp [State.reg, State.setReg, mgetD, mget_mput_ne _ _ _ _ h]
@[simp] theorem State.core_setCore_same (s : State) (c : Nat) (k : Core) : (s.setCore c k).core c = k := by
  simp [State.core, State.setCore, mgetD]
theorem State.core_setCore_ne (s : State) (c c' : Nat) (k : Core) (h : c' ≠ c) : (s.setCore c k).core c' = s.core c' := by
  simp [State.core, State.setCore, mgetD, mget_mput_ne _ _ _ _ h]
@[simp] theorem State.die_setDie_same (s : State) (d : Nat) (x : Die) : (s.setDie d x).die d = x := by
  simp [State.die, State.setDie, mgetD]
theorem State.die_setDie_ne (s : State) (d d' : Nat) (x : Die) (h : d' ≠ d) : (s.setDie d x).die d' = s.die d' := by
  simp [State.die, State.setDie, mgetD, mget_mput_ne _ _ _ _ h]
@[simp] theorem State.thread_setThread_same (s : State) (c t : Nat) (x : Thread) : (s.setThread c t x).thread c t = x := by
  simp [State.thread, State.setThread, mgetD]
@[simp] theorem State.gang_setGang_same (s : State) (g : Nat) (x : Gang) : (s.setGang g x).gang g = x := by
  simp [State.gang, State.setGang, mgetD]
@[simp] theorem State.launch_setLaunch_same (s : State) (q : Nat) (x : Launch) : (s.setLaunch q x).launch q = x := by
  simp [State.launch, State.setLaunch, mgetD]
@[simp] theorem State.inst_setInst_same (s : State) (c i : Nat) (x : Inst) : (s.setInst c i x).inst c i = x := by
  simp [State.inst, State.setInst, mgetD]
@[simp] theorem State.wg_setWg_same (s : State) (c b : Nat) (x : Wg) : (s.setWg c b x).wg c b = x := by
  simp [State.wg, State.setWg, mgetD]
@[simp] theorem State.round_setRound_same (s : State) (c r : Nat) (x : Round) : (s.setRound c r x).round c r = x := by
  simp [State.round, State.setRound, mgetD]

@[simp] theorem State.link_setLink_same (s : State) (k : Nat) (x : Link) : (s.setLink k x).link k = x := by
  simp [State.link, State.setLink]

theorem State.thread_setThread (s : State) (c t c' t' : Nat) (x : Thread) :
    (s.setThread c t x).thread c' t' = if c' = c ∧ t' = t then x else s.thread c' t' := by
  unfold State.thread State.setThread
  by_cases hc : c' = c
  · subst hc
    by_cases ht : t' = t
    · subst ht; simp [mgetD]
    · simp [ht, mgetD, mget_mput_ne _ _ _ _ ht]
  · simp [hc, State.core_setCore_ne _ _ _ _ hc]

/-! ## Counting events changes the monitors alone (R397, R398) -/

theorem countAt_eq (s : State) (sel src : Nat) (t : Option Nat) (n : Nat) :
    ∃ m, countAt s sel src t n = { s with regs := m } := by
  unfold countAt
  dsimp only
  split
  · exact ⟨_, rfl⟩
  · exact ⟨s.regs, rfl⟩

theorem countFold_eq (f : Nat → Nat) (src : Nat) (t : Option Nat) (n : Nat) (l : List Nat) (s : State) :
    ∃ m, l.foldl (fun st i => countAt st (f i) src t n) s = { s with regs := m } := by
  induction l generalizing s with
  | nil => exact ⟨s.regs, rfl⟩
  | cons i l ih =>
    obtain ⟨m, h⟩ := countAt_eq s (f i) src t n
    obtain ⟨m', h'⟩ := ih { s with regs := m }
    exact ⟨m', by rw [List.foldl_cons, h, h']⟩

theorem State.count_eq (s : State) (c src : Nat) (t : Option Nat) (n : Nat) : ∃ m, s.count c src t n = { s with regs := m } :=
  countFold_eq _ _ _ _ _ _
theorem State.countDie_eq (s : State) (d src : Nat) (t : Option Nat) (n : Nat) : ∃ m, s.countDie d src t n = { s with regs := m } :=
  countFold_eq _ _ _ _ _ _
theorem State.countPort_eq (s : State) (p src : Nat) (t : Option Nat) (n : Nat) : ∃ m, s.countPort p src t n = { s with regs := m } :=
  countFold_eq _ _ _ _ _ _

@[simp] theorem State.count_cores (s : State) (c src : Nat) (t : Option Nat) (n : Nat) : (s.count c src t n).cores = s.cores := by
  obtain ⟨m, h⟩ := s.count_eq c src t n; rw [h]
@[simp] theorem State.count_dies (s : State) (c src : Nat) (t : Option Nat) (n : Nat) : (s.count c src t n).dies = s.dies := by
  obtain ⟨m, h⟩ := s.count_eq c src t n; rw [h]
@[simp] theorem State.count_gangs (s : State) (c src : Nat) (t : Option Nat) (n : Nat) : (s.count c src t n).gangs = s.gangs := by
  obtain ⟨m, h⟩ := s.count_eq c src t n; rw [h]
@[simp] theorem State.count_launches (s : State) (c src : Nat) (t : Option Nat) (n : Nat) : (s.count c src t n).launches = s.launches := by
  obtain ⟨m, h⟩ := s.count_eq c src t n; rw [h]
@[simp] theorem State.count_images (s : State) (c src : Nat) (t : Option Nat) (n : Nat) : (s.count c src t n).images = s.images := by
  obtain ⟨m, h⟩ := s.count_eq c src t n; rw [h]
@[simp] theorem State.count_tasks (s : State) (c src : Nat) (t : Option Nat) (n : Nat) : (s.count c src t n).tasks = s.tasks := by
  obtain ⟨m, h⟩ := s.count_eq c src t n; rw [h]
@[simp] theorem State.count_reqs (s : State) (c src : Nat) (t : Option Nat) (n : Nat) : (s.count c src t n).reqs = s.reqs := by
  obtain ⟨m, h⟩ := s.count_eq c src t n; rw [h]
@[simp] theorem State.count_late (s : State) (c src : Nat) (t : Option Nat) (n : Nat) : (s.count c src t n).late = s.late := by
  obtain ⟨m, h⟩ := s.count_eq c src t n; rw [h]
@[simp] theorem State.count_msgs (s : State) (c src : Nat) (t : Option Nat) (n : Nat) : (s.count c src t n).msgs = s.msgs := by
  obtain ⟨m, h⟩ := s.count_eq c src t n; rw [h]
@[simp] theorem State.count_culverts (s : State) (c src : Nat) (t : Option Nat) (n : Nat) : (s.count c src t n).culverts = s.culverts := by
  obtain ⟨m, h⟩ := s.count_eq c src t n; rw [h]
@[simp] theorem State.count_invals (s : State) (c src : Nat) (t : Option Nat) (n : Nat) : (s.count c src t n).invals = s.invals := by
  obtain ⟨m, h⟩ := s.count_eq c src t n; rw [h]
@[simp] theorem State.count_mem (s : State) (c src : Nat) (t : Option Nat) (n : Nat) : (s.count c src t n).mem = s.mem := by
  obtain ⟨m, h⟩ := s.count_eq c src t n; rw [h]
@[simp] theorem State.count_side (s : State) (c src : Nat) (t : Option Nat) (n : Nat) : (s.count c src t n).side = s.side := by
  obtain ⟨m, h⟩ := s.count_eq c src t n; rw [h]
@[simp] theorem State.count_l2 (s : State) (c src : Nat) (t : Option Nat) (n : Nat) : (s.count c src t n).l2 = s.l2 := by
  obtain ⟨m, h⟩ := s.count_eq c src t n; rw [h]
@[simp] theorem State.count_poisoned (s : State) (c src : Nat) (t : Option Nat) (n : Nat) : (s.count c src t n).poisoned = s.poisoned := by
  obtain ⟨m, h⟩ := s.count_eq c src t n; rw [h]
@[simp] theorem State.count_seq (s : State) (c src : Nat) (t : Option Nat) (n : Nat) : (s.count c src t n).seq = s.seq := by
  obtain ⟨m, h⟩ := s.count_eq c src t n; rw [h]
@[simp] theorem State.count_dispatched (s : State) (c src : Nat) (t : Option Nat) (n : Nat) : (s.count c src t n).dispatched = s.dispatched := by
  obtain ⟨m, h⟩ := s.count_eq c src t n; rw [h]
@[simp] theorem State.count_pushes (s : State) (c src : Nat) (t : Option Nat) (n : Nat) : (s.count c src t n).pushes = s.pushes := by
  obtain ⟨m, h⟩ := s.count_eq c src t n; rw [h]
@[simp] theorem State.count_lqRsv (s : State) (c src : Nat) (t : Option Nat) (n : Nat) : (s.count c src t n).lqRsv = s.lqRsv := by
  obtain ⟨m, h⟩ := s.count_eq c src t n; rw [h]
@[simp] theorem State.count_reqNo (s : State) (c src : Nat) (t : Option Nat) (n : Nat) : (s.count c src t n).reqNo = s.reqNo := by
  obtain ⟨m, h⟩ := s.count_eq c src t n; rw [h]
@[simp] theorem State.count_lqEntries (s : State) (c src : Nat) (t : Option Nat) (n : Nat) : (s.count c src t n).lqEntries = s.lqEntries := by
  obtain ⟨m, h⟩ := s.count_eq c src t n; rw [h]
@[simp] theorem State.count_lqCount (s : State) (c src : Nat) (t : Option Nat) (n : Nat) : (s.count c src t n).lqCount = s.lqCount := by
  obtain ⟨m, h⟩ := s.count_eq c src t n; rw [h]
@[simp] theorem State.count_hostTimes (s : State) (c src : Nat) (t : Option Nat) (n : Nat) : (s.count c src t n).hostTimes = s.hostTimes := by
  obtain ⟨m, h⟩ := s.count_eq c src t n; rw [h]
@[simp] theorem State.count_portTimes (s : State) (c src : Nat) (t : Option Nat) (n : Nat) : (s.count c src t n).portTimes = s.portTimes := by
  obtain ⟨m, h⟩ := s.count_eq c src t n; rw [h]
@[simp] theorem State.count_hostToks (s : State) (c src : Nat) (t : Option Nat) (n : Nat) : (s.count c src t n).hostToks = s.hostToks := by
  obtain ⟨m, h⟩ := s.count_eq c src t n; rw [h]
@[simp] theorem State.count_hostAbort (s : State) (c src : Nat) (t : Option Nat) (n : Nat) : (s.count c src t n).hostAbort = s.hostAbort := by
  obtain ⟨m, h⟩ := s.count_eq c src t n; rw [h]
@[simp] theorem State.count_fuses (s : State) (c src : Nat) (t : Option Nat) (n : Nat) : (s.count c src t n).fuses = s.fuses := by
  obtain ⟨m, h⟩ := s.count_eq c src t n; rw [h]
@[simp] theorem State.count_keys (s : State) (c src : Nat) (t : Option Nat) (n : Nat) : (s.count c src t n).keys = s.keys := by
  obtain ⟨m, h⟩ := s.count_eq c src t n; rw [h]
@[simp] theorem State.count_meas (s : State) (c src : Nat) (t : Option Nat) (n : Nat) : (s.count c src t n).meas = s.meas := by
  obtain ⟨m, h⟩ := s.count_eq c src t n; rw [h]
@[simp] theorem State.count_quote (s : State) (c src : Nat) (t : Option Nat) (n : Nat) : (s.count c src t n).quote = s.quote := by
  obtain ⟨m, h⟩ := s.count_eq c src t n; rw [h]
@[simp] theorem State.count_quotes (s : State) (c src : Nat) (t : Option Nat) (n : Nat) : (s.count c src t n).quotes = s.quotes := by
  obtain ⟨m, h⟩ := s.count_eq c src t n; rw [h]
@[simp] theorem State.count_msix (s : State) (c src : Nat) (t : Option Nat) (n : Nat) : (s.count c src t n).msix = s.msix := by
  obtain ⟨m, h⟩ := s.count_eq c src t n; rw [h]
@[simp] theorem State.count_xfer (s : State) (c src : Nat) (t : Option Nat) (n : Nat) : (s.count c src t n).xfer = s.xfer := by
  obtain ⟨m, h⟩ := s.count_eq c src t n; rw [h]
@[simp] theorem State.count_host (s : State) (c src : Nat) (t : Option Nat) (n : Nat) : (s.count c src t n).host = s.host := by
  obtain ⟨m, h⟩ := s.count_eq c src t n; rw [h]
@[simp] theorem State.count_links (s : State) (c src : Nat) (t : Option Nat) (n : Nat) : (s.count c src t n).links = s.links := by
  obtain ⟨m, h⟩ := s.count_eq c src t n; rw [h]
@[simp] theorem State.count_msixOpen (s : State) (c src : Nat) (t : Option Nat) (n : Nat) : (s.count c src t n).msixOpen = s.msixOpen := by
  obtain ⟨m, h⟩ := s.count_eq c src t n; rw [h]
@[simp] theorem State.count_msixSent (s : State) (c src : Nat) (t : Option Nat) (n : Nat) : (s.count c src t n).msixSent = s.msixSent := by
  obtain ⟨m, h⟩ := s.count_eq c src t n; rw [h]
@[simp] theorem State.count_aperBase (s : State) (c src : Nat) (t : Option Nat) (n : Nat) : (s.count c src t n).aperBase = s.aperBase := by
  obtain ⟨m, h⟩ := s.count_eq c src t n; rw [h]
@[simp] theorem State.count_portQ (s : State) (c src : Nat) (t : Option Nat) (n : Nat) : (s.count c src t n).portQ = s.portQ := by
  obtain ⟨m, h⟩ := s.count_eq c src t n; rw [h]
@[simp] theorem State.count_conn (s : State) (c src : Nat) (t : Option Nat) (n : Nat) : (s.count c src t n).conn = s.conn := by
  obtain ⟨m, h⟩ := s.count_eq c src t n; rw [h]
@[simp] theorem State.count_circuits (s : State) (c src : Nat) (t : Option Nat) (n : Nat) : (s.count c src t n).circuits = s.circuits := by
  obtain ⟨m, h⟩ := s.count_eq c src t n; rw [h]
@[simp] theorem State.count_hostData (s : State) (c src : Nat) (t : Option Nat) (n : Nat) : (s.count c src t n).hostData = s.hostData := by
  obtain ⟨m, h⟩ := s.count_eq c src t n; rw [h]
@[simp] theorem State.count_hostPoison (s : State) (c src : Nat) (t : Option Nat) (n : Nat) : (s.count c src t n).hostPoison = s.hostPoison := by
  obtain ⟨m, h⟩ := s.count_eq c src t n; rw [h]
@[simp] theorem State.count_hostBad (s : State) (c src : Nat) (t : Option Nat) (n : Nat) : (s.count c src t n).hostBad = s.hostBad := by
  obtain ⟨m, h⟩ := s.count_eq c src t n; rw [h]
@[simp] theorem State.count_portReplies (s : State) (c src : Nat) (t : Option Nat) (n : Nat) : (s.count c src t n).portReplies = s.portReplies := by
  obtain ⟨m, h⟩ := s.count_eq c src t n; rw [h]
@[simp] theorem State.count_agenda (s : State) (c src : Nat) (t : Option Nat) (n : Nat) : (s.count c src t n).agenda = s.agenda := by
  obtain ⟨m, h⟩ := s.count_eq c src t n; rw [h]
@[simp] theorem State.count_cur (s : State) (c src : Nat) (t : Option Nat) (n : Nat) : (s.count c src t n).cur = s.cur := by
  obtain ⟨m, h⟩ := s.count_eq c src t n; rw [h]
@[simp] theorem State.count_freeCtr (s : State) (c src : Nat) (t : Option Nat) (n : Nat) : (s.count c src t n).freeCtr = s.freeCtr := by
  obtain ⟨m, h⟩ := s.count_eq c src t n; rw [h]

@[simp] theorem State.countDie_cores (s : State) (d src : Nat) (t : Option Nat) (n : Nat) : (s.countDie d src t n).cores = s.cores := by
  obtain ⟨m, h⟩ := s.countDie_eq d src t n; rw [h]
@[simp] theorem State.countDie_dies (s : State) (d src : Nat) (t : Option Nat) (n : Nat) : (s.countDie d src t n).dies = s.dies := by
  obtain ⟨m, h⟩ := s.countDie_eq d src t n; rw [h]
@[simp] theorem State.countDie_gangs (s : State) (d src : Nat) (t : Option Nat) (n : Nat) : (s.countDie d src t n).gangs = s.gangs := by
  obtain ⟨m, h⟩ := s.countDie_eq d src t n; rw [h]
@[simp] theorem State.countDie_launches (s : State) (d src : Nat) (t : Option Nat) (n : Nat) : (s.countDie d src t n).launches = s.launches := by
  obtain ⟨m, h⟩ := s.countDie_eq d src t n; rw [h]
@[simp] theorem State.countDie_images (s : State) (d src : Nat) (t : Option Nat) (n : Nat) : (s.countDie d src t n).images = s.images := by
  obtain ⟨m, h⟩ := s.countDie_eq d src t n; rw [h]
@[simp] theorem State.countDie_tasks (s : State) (d src : Nat) (t : Option Nat) (n : Nat) : (s.countDie d src t n).tasks = s.tasks := by
  obtain ⟨m, h⟩ := s.countDie_eq d src t n; rw [h]
@[simp] theorem State.countDie_reqs (s : State) (d src : Nat) (t : Option Nat) (n : Nat) : (s.countDie d src t n).reqs = s.reqs := by
  obtain ⟨m, h⟩ := s.countDie_eq d src t n; rw [h]
@[simp] theorem State.countDie_late (s : State) (d src : Nat) (t : Option Nat) (n : Nat) : (s.countDie d src t n).late = s.late := by
  obtain ⟨m, h⟩ := s.countDie_eq d src t n; rw [h]
@[simp] theorem State.countDie_msgs (s : State) (d src : Nat) (t : Option Nat) (n : Nat) : (s.countDie d src t n).msgs = s.msgs := by
  obtain ⟨m, h⟩ := s.countDie_eq d src t n; rw [h]
@[simp] theorem State.countDie_culverts (s : State) (d src : Nat) (t : Option Nat) (n : Nat) : (s.countDie d src t n).culverts = s.culverts := by
  obtain ⟨m, h⟩ := s.countDie_eq d src t n; rw [h]
@[simp] theorem State.countDie_invals (s : State) (d src : Nat) (t : Option Nat) (n : Nat) : (s.countDie d src t n).invals = s.invals := by
  obtain ⟨m, h⟩ := s.countDie_eq d src t n; rw [h]
@[simp] theorem State.countDie_mem (s : State) (d src : Nat) (t : Option Nat) (n : Nat) : (s.countDie d src t n).mem = s.mem := by
  obtain ⟨m, h⟩ := s.countDie_eq d src t n; rw [h]
@[simp] theorem State.countDie_side (s : State) (d src : Nat) (t : Option Nat) (n : Nat) : (s.countDie d src t n).side = s.side := by
  obtain ⟨m, h⟩ := s.countDie_eq d src t n; rw [h]
@[simp] theorem State.countDie_l2 (s : State) (d src : Nat) (t : Option Nat) (n : Nat) : (s.countDie d src t n).l2 = s.l2 := by
  obtain ⟨m, h⟩ := s.countDie_eq d src t n; rw [h]
@[simp] theorem State.countDie_poisoned (s : State) (d src : Nat) (t : Option Nat) (n : Nat) : (s.countDie d src t n).poisoned = s.poisoned := by
  obtain ⟨m, h⟩ := s.countDie_eq d src t n; rw [h]
@[simp] theorem State.countDie_seq (s : State) (d src : Nat) (t : Option Nat) (n : Nat) : (s.countDie d src t n).seq = s.seq := by
  obtain ⟨m, h⟩ := s.countDie_eq d src t n; rw [h]
@[simp] theorem State.countDie_dispatched (s : State) (d src : Nat) (t : Option Nat) (n : Nat) : (s.countDie d src t n).dispatched = s.dispatched := by
  obtain ⟨m, h⟩ := s.countDie_eq d src t n; rw [h]
@[simp] theorem State.countDie_pushes (s : State) (d src : Nat) (t : Option Nat) (n : Nat) : (s.countDie d src t n).pushes = s.pushes := by
  obtain ⟨m, h⟩ := s.countDie_eq d src t n; rw [h]
@[simp] theorem State.countDie_lqRsv (s : State) (d src : Nat) (t : Option Nat) (n : Nat) : (s.countDie d src t n).lqRsv = s.lqRsv := by
  obtain ⟨m, h⟩ := s.countDie_eq d src t n; rw [h]
@[simp] theorem State.countDie_reqNo (s : State) (d src : Nat) (t : Option Nat) (n : Nat) : (s.countDie d src t n).reqNo = s.reqNo := by
  obtain ⟨m, h⟩ := s.countDie_eq d src t n; rw [h]
@[simp] theorem State.countDie_lqEntries (s : State) (d src : Nat) (t : Option Nat) (n : Nat) : (s.countDie d src t n).lqEntries = s.lqEntries := by
  obtain ⟨m, h⟩ := s.countDie_eq d src t n; rw [h]
@[simp] theorem State.countDie_lqCount (s : State) (d src : Nat) (t : Option Nat) (n : Nat) : (s.countDie d src t n).lqCount = s.lqCount := by
  obtain ⟨m, h⟩ := s.countDie_eq d src t n; rw [h]
@[simp] theorem State.countDie_hostTimes (s : State) (d src : Nat) (t : Option Nat) (n : Nat) : (s.countDie d src t n).hostTimes = s.hostTimes := by
  obtain ⟨m, h⟩ := s.countDie_eq d src t n; rw [h]
@[simp] theorem State.countDie_portTimes (s : State) (d src : Nat) (t : Option Nat) (n : Nat) : (s.countDie d src t n).portTimes = s.portTimes := by
  obtain ⟨m, h⟩ := s.countDie_eq d src t n; rw [h]
@[simp] theorem State.countDie_hostToks (s : State) (d src : Nat) (t : Option Nat) (n : Nat) : (s.countDie d src t n).hostToks = s.hostToks := by
  obtain ⟨m, h⟩ := s.countDie_eq d src t n; rw [h]
@[simp] theorem State.countDie_hostAbort (s : State) (d src : Nat) (t : Option Nat) (n : Nat) : (s.countDie d src t n).hostAbort = s.hostAbort := by
  obtain ⟨m, h⟩ := s.countDie_eq d src t n; rw [h]
@[simp] theorem State.countDie_fuses (s : State) (d src : Nat) (t : Option Nat) (n : Nat) : (s.countDie d src t n).fuses = s.fuses := by
  obtain ⟨m, h⟩ := s.countDie_eq d src t n; rw [h]
@[simp] theorem State.countDie_keys (s : State) (d src : Nat) (t : Option Nat) (n : Nat) : (s.countDie d src t n).keys = s.keys := by
  obtain ⟨m, h⟩ := s.countDie_eq d src t n; rw [h]
@[simp] theorem State.countDie_meas (s : State) (d src : Nat) (t : Option Nat) (n : Nat) : (s.countDie d src t n).meas = s.meas := by
  obtain ⟨m, h⟩ := s.countDie_eq d src t n; rw [h]
@[simp] theorem State.countDie_quote (s : State) (d src : Nat) (t : Option Nat) (n : Nat) : (s.countDie d src t n).quote = s.quote := by
  obtain ⟨m, h⟩ := s.countDie_eq d src t n; rw [h]
@[simp] theorem State.countDie_quotes (s : State) (d src : Nat) (t : Option Nat) (n : Nat) : (s.countDie d src t n).quotes = s.quotes := by
  obtain ⟨m, h⟩ := s.countDie_eq d src t n; rw [h]
@[simp] theorem State.countDie_msix (s : State) (d src : Nat) (t : Option Nat) (n : Nat) : (s.countDie d src t n).msix = s.msix := by
  obtain ⟨m, h⟩ := s.countDie_eq d src t n; rw [h]
@[simp] theorem State.countDie_xfer (s : State) (d src : Nat) (t : Option Nat) (n : Nat) : (s.countDie d src t n).xfer = s.xfer := by
  obtain ⟨m, h⟩ := s.countDie_eq d src t n; rw [h]
@[simp] theorem State.countDie_host (s : State) (d src : Nat) (t : Option Nat) (n : Nat) : (s.countDie d src t n).host = s.host := by
  obtain ⟨m, h⟩ := s.countDie_eq d src t n; rw [h]
@[simp] theorem State.countDie_links (s : State) (d src : Nat) (t : Option Nat) (n : Nat) : (s.countDie d src t n).links = s.links := by
  obtain ⟨m, h⟩ := s.countDie_eq d src t n; rw [h]
@[simp] theorem State.countDie_msixOpen (s : State) (d src : Nat) (t : Option Nat) (n : Nat) : (s.countDie d src t n).msixOpen = s.msixOpen := by
  obtain ⟨m, h⟩ := s.countDie_eq d src t n; rw [h]
@[simp] theorem State.countDie_msixSent (s : State) (d src : Nat) (t : Option Nat) (n : Nat) : (s.countDie d src t n).msixSent = s.msixSent := by
  obtain ⟨m, h⟩ := s.countDie_eq d src t n; rw [h]
@[simp] theorem State.countDie_aperBase (s : State) (d src : Nat) (t : Option Nat) (n : Nat) : (s.countDie d src t n).aperBase = s.aperBase := by
  obtain ⟨m, h⟩ := s.countDie_eq d src t n; rw [h]
@[simp] theorem State.countDie_portQ (s : State) (d src : Nat) (t : Option Nat) (n : Nat) : (s.countDie d src t n).portQ = s.portQ := by
  obtain ⟨m, h⟩ := s.countDie_eq d src t n; rw [h]
@[simp] theorem State.countDie_conn (s : State) (d src : Nat) (t : Option Nat) (n : Nat) : (s.countDie d src t n).conn = s.conn := by
  obtain ⟨m, h⟩ := s.countDie_eq d src t n; rw [h]
@[simp] theorem State.countDie_circuits (s : State) (d src : Nat) (t : Option Nat) (n : Nat) : (s.countDie d src t n).circuits = s.circuits := by
  obtain ⟨m, h⟩ := s.countDie_eq d src t n; rw [h]
@[simp] theorem State.countDie_hostData (s : State) (d src : Nat) (t : Option Nat) (n : Nat) : (s.countDie d src t n).hostData = s.hostData := by
  obtain ⟨m, h⟩ := s.countDie_eq d src t n; rw [h]
@[simp] theorem State.countDie_hostPoison (s : State) (d src : Nat) (t : Option Nat) (n : Nat) : (s.countDie d src t n).hostPoison = s.hostPoison := by
  obtain ⟨m, h⟩ := s.countDie_eq d src t n; rw [h]
@[simp] theorem State.countDie_hostBad (s : State) (d src : Nat) (t : Option Nat) (n : Nat) : (s.countDie d src t n).hostBad = s.hostBad := by
  obtain ⟨m, h⟩ := s.countDie_eq d src t n; rw [h]
@[simp] theorem State.countDie_portReplies (s : State) (d src : Nat) (t : Option Nat) (n : Nat) : (s.countDie d src t n).portReplies = s.portReplies := by
  obtain ⟨m, h⟩ := s.countDie_eq d src t n; rw [h]
@[simp] theorem State.countDie_agenda (s : State) (d src : Nat) (t : Option Nat) (n : Nat) : (s.countDie d src t n).agenda = s.agenda := by
  obtain ⟨m, h⟩ := s.countDie_eq d src t n; rw [h]
@[simp] theorem State.countDie_cur (s : State) (d src : Nat) (t : Option Nat) (n : Nat) : (s.countDie d src t n).cur = s.cur := by
  obtain ⟨m, h⟩ := s.countDie_eq d src t n; rw [h]
@[simp] theorem State.countDie_freeCtr (s : State) (d src : Nat) (t : Option Nat) (n : Nat) : (s.countDie d src t n).freeCtr = s.freeCtr := by
  obtain ⟨m, h⟩ := s.countDie_eq d src t n; rw [h]

@[simp] theorem State.countPort_cores (s : State) (p src : Nat) (t : Option Nat) (n : Nat) : (s.countPort p src t n).cores = s.cores := by
  obtain ⟨m, h⟩ := s.countPort_eq p src t n; rw [h]
@[simp] theorem State.countPort_dies (s : State) (p src : Nat) (t : Option Nat) (n : Nat) : (s.countPort p src t n).dies = s.dies := by
  obtain ⟨m, h⟩ := s.countPort_eq p src t n; rw [h]
@[simp] theorem State.countPort_gangs (s : State) (p src : Nat) (t : Option Nat) (n : Nat) : (s.countPort p src t n).gangs = s.gangs := by
  obtain ⟨m, h⟩ := s.countPort_eq p src t n; rw [h]
@[simp] theorem State.countPort_launches (s : State) (p src : Nat) (t : Option Nat) (n : Nat) : (s.countPort p src t n).launches = s.launches := by
  obtain ⟨m, h⟩ := s.countPort_eq p src t n; rw [h]
@[simp] theorem State.countPort_images (s : State) (p src : Nat) (t : Option Nat) (n : Nat) : (s.countPort p src t n).images = s.images := by
  obtain ⟨m, h⟩ := s.countPort_eq p src t n; rw [h]
@[simp] theorem State.countPort_tasks (s : State) (p src : Nat) (t : Option Nat) (n : Nat) : (s.countPort p src t n).tasks = s.tasks := by
  obtain ⟨m, h⟩ := s.countPort_eq p src t n; rw [h]
@[simp] theorem State.countPort_reqs (s : State) (p src : Nat) (t : Option Nat) (n : Nat) : (s.countPort p src t n).reqs = s.reqs := by
  obtain ⟨m, h⟩ := s.countPort_eq p src t n; rw [h]
@[simp] theorem State.countPort_late (s : State) (p src : Nat) (t : Option Nat) (n : Nat) : (s.countPort p src t n).late = s.late := by
  obtain ⟨m, h⟩ := s.countPort_eq p src t n; rw [h]
@[simp] theorem State.countPort_msgs (s : State) (p src : Nat) (t : Option Nat) (n : Nat) : (s.countPort p src t n).msgs = s.msgs := by
  obtain ⟨m, h⟩ := s.countPort_eq p src t n; rw [h]
@[simp] theorem State.countPort_culverts (s : State) (p src : Nat) (t : Option Nat) (n : Nat) : (s.countPort p src t n).culverts = s.culverts := by
  obtain ⟨m, h⟩ := s.countPort_eq p src t n; rw [h]
@[simp] theorem State.countPort_invals (s : State) (p src : Nat) (t : Option Nat) (n : Nat) : (s.countPort p src t n).invals = s.invals := by
  obtain ⟨m, h⟩ := s.countPort_eq p src t n; rw [h]
@[simp] theorem State.countPort_mem (s : State) (p src : Nat) (t : Option Nat) (n : Nat) : (s.countPort p src t n).mem = s.mem := by
  obtain ⟨m, h⟩ := s.countPort_eq p src t n; rw [h]
@[simp] theorem State.countPort_side (s : State) (p src : Nat) (t : Option Nat) (n : Nat) : (s.countPort p src t n).side = s.side := by
  obtain ⟨m, h⟩ := s.countPort_eq p src t n; rw [h]
@[simp] theorem State.countPort_l2 (s : State) (p src : Nat) (t : Option Nat) (n : Nat) : (s.countPort p src t n).l2 = s.l2 := by
  obtain ⟨m, h⟩ := s.countPort_eq p src t n; rw [h]
@[simp] theorem State.countPort_poisoned (s : State) (p src : Nat) (t : Option Nat) (n : Nat) : (s.countPort p src t n).poisoned = s.poisoned := by
  obtain ⟨m, h⟩ := s.countPort_eq p src t n; rw [h]
@[simp] theorem State.countPort_seq (s : State) (p src : Nat) (t : Option Nat) (n : Nat) : (s.countPort p src t n).seq = s.seq := by
  obtain ⟨m, h⟩ := s.countPort_eq p src t n; rw [h]
@[simp] theorem State.countPort_dispatched (s : State) (p src : Nat) (t : Option Nat) (n : Nat) : (s.countPort p src t n).dispatched = s.dispatched := by
  obtain ⟨m, h⟩ := s.countPort_eq p src t n; rw [h]
@[simp] theorem State.countPort_pushes (s : State) (p src : Nat) (t : Option Nat) (n : Nat) : (s.countPort p src t n).pushes = s.pushes := by
  obtain ⟨m, h⟩ := s.countPort_eq p src t n; rw [h]
@[simp] theorem State.countPort_lqRsv (s : State) (p src : Nat) (t : Option Nat) (n : Nat) : (s.countPort p src t n).lqRsv = s.lqRsv := by
  obtain ⟨m, h⟩ := s.countPort_eq p src t n; rw [h]
@[simp] theorem State.countPort_reqNo (s : State) (p src : Nat) (t : Option Nat) (n : Nat) : (s.countPort p src t n).reqNo = s.reqNo := by
  obtain ⟨m, h⟩ := s.countPort_eq p src t n; rw [h]
@[simp] theorem State.countPort_lqEntries (s : State) (p src : Nat) (t : Option Nat) (n : Nat) : (s.countPort p src t n).lqEntries = s.lqEntries := by
  obtain ⟨m, h⟩ := s.countPort_eq p src t n; rw [h]
@[simp] theorem State.countPort_lqCount (s : State) (p src : Nat) (t : Option Nat) (n : Nat) : (s.countPort p src t n).lqCount = s.lqCount := by
  obtain ⟨m, h⟩ := s.countPort_eq p src t n; rw [h]
@[simp] theorem State.countPort_hostTimes (s : State) (p src : Nat) (t : Option Nat) (n : Nat) : (s.countPort p src t n).hostTimes = s.hostTimes := by
  obtain ⟨m, h⟩ := s.countPort_eq p src t n; rw [h]
@[simp] theorem State.countPort_portTimes (s : State) (p src : Nat) (t : Option Nat) (n : Nat) : (s.countPort p src t n).portTimes = s.portTimes := by
  obtain ⟨m, h⟩ := s.countPort_eq p src t n; rw [h]
@[simp] theorem State.countPort_hostToks (s : State) (p src : Nat) (t : Option Nat) (n : Nat) : (s.countPort p src t n).hostToks = s.hostToks := by
  obtain ⟨m, h⟩ := s.countPort_eq p src t n; rw [h]
@[simp] theorem State.countPort_hostAbort (s : State) (p src : Nat) (t : Option Nat) (n : Nat) : (s.countPort p src t n).hostAbort = s.hostAbort := by
  obtain ⟨m, h⟩ := s.countPort_eq p src t n; rw [h]
@[simp] theorem State.countPort_fuses (s : State) (p src : Nat) (t : Option Nat) (n : Nat) : (s.countPort p src t n).fuses = s.fuses := by
  obtain ⟨m, h⟩ := s.countPort_eq p src t n; rw [h]
@[simp] theorem State.countPort_keys (s : State) (p src : Nat) (t : Option Nat) (n : Nat) : (s.countPort p src t n).keys = s.keys := by
  obtain ⟨m, h⟩ := s.countPort_eq p src t n; rw [h]
@[simp] theorem State.countPort_meas (s : State) (p src : Nat) (t : Option Nat) (n : Nat) : (s.countPort p src t n).meas = s.meas := by
  obtain ⟨m, h⟩ := s.countPort_eq p src t n; rw [h]
@[simp] theorem State.countPort_quote (s : State) (p src : Nat) (t : Option Nat) (n : Nat) : (s.countPort p src t n).quote = s.quote := by
  obtain ⟨m, h⟩ := s.countPort_eq p src t n; rw [h]
@[simp] theorem State.countPort_quotes (s : State) (p src : Nat) (t : Option Nat) (n : Nat) : (s.countPort p src t n).quotes = s.quotes := by
  obtain ⟨m, h⟩ := s.countPort_eq p src t n; rw [h]
@[simp] theorem State.countPort_msix (s : State) (p src : Nat) (t : Option Nat) (n : Nat) : (s.countPort p src t n).msix = s.msix := by
  obtain ⟨m, h⟩ := s.countPort_eq p src t n; rw [h]
@[simp] theorem State.countPort_xfer (s : State) (p src : Nat) (t : Option Nat) (n : Nat) : (s.countPort p src t n).xfer = s.xfer := by
  obtain ⟨m, h⟩ := s.countPort_eq p src t n; rw [h]
@[simp] theorem State.countPort_host (s : State) (p src : Nat) (t : Option Nat) (n : Nat) : (s.countPort p src t n).host = s.host := by
  obtain ⟨m, h⟩ := s.countPort_eq p src t n; rw [h]
@[simp] theorem State.countPort_links (s : State) (p src : Nat) (t : Option Nat) (n : Nat) : (s.countPort p src t n).links = s.links := by
  obtain ⟨m, h⟩ := s.countPort_eq p src t n; rw [h]
@[simp] theorem State.countPort_msixOpen (s : State) (p src : Nat) (t : Option Nat) (n : Nat) : (s.countPort p src t n).msixOpen = s.msixOpen := by
  obtain ⟨m, h⟩ := s.countPort_eq p src t n; rw [h]
@[simp] theorem State.countPort_msixSent (s : State) (p src : Nat) (t : Option Nat) (n : Nat) : (s.countPort p src t n).msixSent = s.msixSent := by
  obtain ⟨m, h⟩ := s.countPort_eq p src t n; rw [h]
@[simp] theorem State.countPort_aperBase (s : State) (p src : Nat) (t : Option Nat) (n : Nat) : (s.countPort p src t n).aperBase = s.aperBase := by
  obtain ⟨m, h⟩ := s.countPort_eq p src t n; rw [h]
@[simp] theorem State.countPort_portQ (s : State) (p src : Nat) (t : Option Nat) (n : Nat) : (s.countPort p src t n).portQ = s.portQ := by
  obtain ⟨m, h⟩ := s.countPort_eq p src t n; rw [h]
@[simp] theorem State.countPort_conn (s : State) (p src : Nat) (t : Option Nat) (n : Nat) : (s.countPort p src t n).conn = s.conn := by
  obtain ⟨m, h⟩ := s.countPort_eq p src t n; rw [h]
@[simp] theorem State.countPort_circuits (s : State) (p src : Nat) (t : Option Nat) (n : Nat) : (s.countPort p src t n).circuits = s.circuits := by
  obtain ⟨m, h⟩ := s.countPort_eq p src t n; rw [h]
@[simp] theorem State.countPort_hostData (s : State) (p src : Nat) (t : Option Nat) (n : Nat) : (s.countPort p src t n).hostData = s.hostData := by
  obtain ⟨m, h⟩ := s.countPort_eq p src t n; rw [h]
@[simp] theorem State.countPort_hostPoison (s : State) (p src : Nat) (t : Option Nat) (n : Nat) : (s.countPort p src t n).hostPoison = s.hostPoison := by
  obtain ⟨m, h⟩ := s.countPort_eq p src t n; rw [h]
@[simp] theorem State.countPort_hostBad (s : State) (p src : Nat) (t : Option Nat) (n : Nat) : (s.countPort p src t n).hostBad = s.hostBad := by
  obtain ⟨m, h⟩ := s.countPort_eq p src t n; rw [h]
@[simp] theorem State.countPort_portReplies (s : State) (p src : Nat) (t : Option Nat) (n : Nat) : (s.countPort p src t n).portReplies = s.portReplies := by
  obtain ⟨m, h⟩ := s.countPort_eq p src t n; rw [h]
@[simp] theorem State.countPort_agenda (s : State) (p src : Nat) (t : Option Nat) (n : Nat) : (s.countPort p src t n).agenda = s.agenda := by
  obtain ⟨m, h⟩ := s.countPort_eq p src t n; rw [h]
@[simp] theorem State.countPort_cur (s : State) (p src : Nat) (t : Option Nat) (n : Nat) : (s.countPort p src t n).cur = s.cur := by
  obtain ⟨m, h⟩ := s.countPort_eq p src t n; rw [h]
@[simp] theorem State.countPort_freeCtr (s : State) (p src : Nat) (t : Option Nat) (n : Nat) : (s.countPort p src t n).freeCtr = s.freeCtr := by
  obtain ⟨m, h⟩ := s.countPort_eq p src t n; rw [h]

/-! ## Traffic changes the queues of the links alone, and a message the messages too (R436) -/

theorem State.carry_eq (s : State) (p : Packet) (way : List (Nat × Nat)) : ∃ l, s.carry p way = { s with links := l } := by
  cases way with
  | nil => exact ⟨s.links, rfl⟩
  | cons x rest => exact ⟨_, rfl⟩

theorem State.send_eq (s : State) (m : Msg) :
    ∃ l, s.send m = { s with msgs := mput s.msgs (mfresh s.msgs) m, links := l } := by
  unfold State.send
  dsimp only
  exact State.carry_eq _ _ _

@[simp] theorem State.carry_cores (s : State) (p : Packet) (way : List (Nat × Nat)) : (s.carry p way).cores = s.cores := by
  obtain ⟨l, h⟩ := s.carry_eq p way; rw [h]
@[simp] theorem State.carry_dies (s : State) (p : Packet) (way : List (Nat × Nat)) : (s.carry p way).dies = s.dies := by
  obtain ⟨l, h⟩ := s.carry_eq p way; rw [h]
@[simp] theorem State.carry_gangs (s : State) (p : Packet) (way : List (Nat × Nat)) : (s.carry p way).gangs = s.gangs := by
  obtain ⟨l, h⟩ := s.carry_eq p way; rw [h]
@[simp] theorem State.carry_launches (s : State) (p : Packet) (way : List (Nat × Nat)) : (s.carry p way).launches = s.launches := by
  obtain ⟨l, h⟩ := s.carry_eq p way; rw [h]
@[simp] theorem State.carry_tasks (s : State) (p : Packet) (way : List (Nat × Nat)) : (s.carry p way).tasks = s.tasks := by
  obtain ⟨l, h⟩ := s.carry_eq p way; rw [h]
@[simp] theorem State.carry_reqs (s : State) (p : Packet) (way : List (Nat × Nat)) : (s.carry p way).reqs = s.reqs := by
  obtain ⟨l, h⟩ := s.carry_eq p way; rw [h]
@[simp] theorem State.carry_regs (s : State) (p : Packet) (way : List (Nat × Nat)) : (s.carry p way).regs = s.regs := by
  obtain ⟨l, h⟩ := s.carry_eq p way; rw [h]
@[simp] theorem State.carry_mem (s : State) (p : Packet) (way : List (Nat × Nat)) : (s.carry p way).mem = s.mem := by
  obtain ⟨l, h⟩ := s.carry_eq p way; rw [h]
@[simp] theorem State.carry_side (s : State) (p : Packet) (way : List (Nat × Nat)) : (s.carry p way).side = s.side := by
  obtain ⟨l, h⟩ := s.carry_eq p way; rw [h]
@[simp] theorem State.carry_l2 (s : State) (p : Packet) (way : List (Nat × Nat)) : (s.carry p way).l2 = s.l2 := by
  obtain ⟨l, h⟩ := s.carry_eq p way; rw [h]
@[simp] theorem State.carry_poisoned (s : State) (p : Packet) (way : List (Nat × Nat)) : (s.carry p way).poisoned = s.poisoned := by
  obtain ⟨l, h⟩ := s.carry_eq p way; rw [h]
@[simp] theorem State.carry_msgs (s : State) (p : Packet) (way : List (Nat × Nat)) : (s.carry p way).msgs = s.msgs := by
  obtain ⟨l, h⟩ := s.carry_eq p way; rw [h]
@[simp] theorem State.send_cores (s : State) (m : Msg) : (s.send m).cores = s.cores := by
  obtain ⟨l, h⟩ := s.send_eq m; rw [h]
@[simp] theorem State.send_dies (s : State) (m : Msg) : (s.send m).dies = s.dies := by
  obtain ⟨l, h⟩ := s.send_eq m; rw [h]
@[simp] theorem State.send_gangs (s : State) (m : Msg) : (s.send m).gangs = s.gangs := by
  obtain ⟨l, h⟩ := s.send_eq m; rw [h]
@[simp] theorem State.send_launches (s : State) (m : Msg) : (s.send m).launches = s.launches := by
  obtain ⟨l, h⟩ := s.send_eq m; rw [h]
@[simp] theorem State.send_tasks (s : State) (m : Msg) : (s.send m).tasks = s.tasks := by
  obtain ⟨l, h⟩ := s.send_eq m; rw [h]
@[simp] theorem State.send_reqs (s : State) (m : Msg) : (s.send m).reqs = s.reqs := by
  obtain ⟨l, h⟩ := s.send_eq m; rw [h]
@[simp] theorem State.send_regs (s : State) (m : Msg) : (s.send m).regs = s.regs := by
  obtain ⟨l, h⟩ := s.send_eq m; rw [h]
@[simp] theorem State.send_mem (s : State) (m : Msg) : (s.send m).mem = s.mem := by
  obtain ⟨l, h⟩ := s.send_eq m; rw [h]
@[simp] theorem State.send_side (s : State) (m : Msg) : (s.send m).side = s.side := by
  obtain ⟨l, h⟩ := s.send_eq m; rw [h]
@[simp] theorem State.send_l2 (s : State) (m : Msg) : (s.send m).l2 = s.l2 := by
  obtain ⟨l, h⟩ := s.send_eq m; rw [h]
@[simp] theorem State.send_poisoned (s : State) (m : Msg) : (s.send m).poisoned = s.poisoned := by
  obtain ⟨l, h⟩ := s.send_eq m; rw [h]

/-! ## Passes -/

@[simp] theorem State.setPass_mem (s : State) (a : Agent) (p : Pass) : (s.setPass a p).mem = s.mem := by cases a <;> rfl
@[simp] theorem State.setCtl_mem (s : State) (a : Agent) (x : Ctl) : (s.setCtl a x).mem = s.mem := by cases a <;> rfl
@[simp] theorem State.updPass_mem (s : State) (a : Agent) (f : Pass → Pass) : (s.updPass a f).mem = s.mem := by
  unfold State.updPass; split <;> simp
@[simp] theorem State.passOf_setPass (s : State) (a : Agent) (p : Pass) : (s.setPass a p).passOf a = some p := by
  cases a <;> simp [State.setPass, State.passOf, State.setCtl, State.thread, State.setThread, mgetD]

end Sys2Proof.Machine
end

