-- ==== Sys2Proof/Tests/Slice0.lean ====
section
/-! SUPPORT. The package's own tests: words of the spec's chapters decode, ill-formed terms are refused, tables of
borderline results, one step, and for each statement that has hypotheses a state and operands that meet them. -/

namespace Sys2Proof.Tests
set_option Elab.async false
open Sys2Proof.Machine Sys2Proof.Claims

/-! ## Small states -/

/-- Operands 5, 3 and 1 in the slots of instruction 0. -/
def operands : Map W64 := [(1, 5), (2, 3), (3, 1)]

/-- A pass of instance 0 whose instruction 0 holds those operands. -/
def open0 : Pass := { inst := some 0, opnd := operands }

/-- A state with one thread, in slot 0 of core 0, and one image whose block 0 is the one instruction of these bits;
its gang 0 and its workgroup have that thread alone, with 4 KiB of scratchpad. -/
def lone (t : Thread) (cls : Cls) (w : Nat) : State :=
  { State.reset with
    images := [(0, { blocks := [oneBlock cls w] })]
    gangs := [(0, { members := [{ core := 0, base := 0 }] })]
    cores := [(0, { threads := [(0, t)], insts := [(0, { width := 1, frames := 1, origins := [(0, 0, none)] })],
                    wgs := [(0, { n := 1, partSize := 4096 })] })]
    cur := { agent := .fab 0 0, idx := 0, phase := .one } }

/-- The thread is in that pass on the fabric. -/
def small (cls : Cls) (w : Nat) (p : Pass) : State := lone { st := .admitted, pass := some p } cls w

/-- A pass in phase two with one operation, at LSID 1, of instruction 0. -/
def closed0 (o : Op) : Pass := { inst := some 0, opnd := operands, two := true, sealed := true, fired := [0], ops := [(1, o)] }

/-- The thread is in phase two at that operation. -/
def late (cls : Cls) (w : Nat) (o : Op) : State :=
  { lone { st := .commit, pass := some (closed0 o) } cls w with cur := { agent := .fab 0 0, idx := 0, phase := .two } }

/-- The control core of core 0 runs a program of the one instruction of these bits. -/
def control (cls : Cls) (w : Nat) (ops : Map W64) : State :=
  { State.reset with
    images := [(0, { blocks := [oneBlock cls w], priv := true })]
    cores := [(0, { cc := .job, ctl := { pass := some { opnd := ops } } })]
    cur := { agent := .ctl 0, idx := 0, phase := .one } }

/-! ## Decoding: words written out in the spec's chapters -/

/-- R165: `movi.i32 -5 -> i2.r`. -/
theorem test_decode_movi : decode ⟨.alu, 0x4023F702, none⟩ = .ok (.movi .always .i32 (-5) (.to .R 2)) := by decide +kernel

/-- R166: `lvr v9 -> i4.l`. -/
theorem test_decode_lvr : decode ⟨.alu, 0x60009084, none⟩ = .ok (.lvr .always 9 (.to .L 4)) := by decide +kernel

/-- R180: `kset m3, SCALE` with SCALE in slot 2. -/
theorem test_decode_kset : decode ⟨.sys, 0x0A086000, none⟩ = .ok (.kset .always 2 3) := by decide +kernel

/-- R303, R304: `qpush m2, q3` and `qpop q3 -> i6.l`. -/
theorem test_decode_sluice : decode ⟨.sync, 0x500C4000, none⟩ = .ok (.qpush .always 3 2) ∧
    decode ⟨.sync, 0x520C0086, none⟩ = .ok (.qpop .always 3 .none (.to .L 6)) := by decide +kernel

/-- R388, R390: `binit m1, bar3` and `barv m2, bar3, mask`. -/
theorem test_decode_barrier : decode ⟨.sync, 0x420C2000, none⟩ = .ok (.binit .always 3 1) ∧
    decode ⟨.sync, 0x444C4000, none⟩ = .ok (.barv .always true 3 2) := by decide +kernel

/-- R408, R379, R411: `assert 3`, `clkrd -> i3.l` and `evqput`. -/
theorem test_decode_sys : decode ⟨.sys, 0x040C0000, none⟩ = .ok (.assert .always 3) ∧
    decode ⟨.sys, 0x06000083, none⟩ = .ok (.clkrd .always .none (.to .L 3)) ∧
    decode ⟨.sys, 0x84000000, none⟩ = .ok (.evqput .always) := by decide +kernel

/-- R202: `rred.fadd.f32 -> i9.l`. -/
theorem test_decode_rred : decode ⟨.alu, 0x74600089, none⟩ = .ok (.rred .always .fadd .none (.to .L 9)) := by decide +kernel

/-! ## Well-formedness: an ill-formed term for each check -/

theorem test_wf_immediates :
    (Instr.movi .always .i32 256 .none).wf = false ∧ (Instr.const .always .b32 63 .none).wf = false ∧
    (Instr.addi .always .i32 false (.imm (-193)) .none).wf = false ∧ (Instr.andi .always .b32 (.const 63) .none).wf = false ∧
    (Instr.ori .always .b32 (.imm 256) .none).wf = false ∧ (Instr.xori .always .b32 (.imm 256) .none).wf = false ∧
    (Instr.shli .always .i8 false (.imm 8) .none).wf = false ∧ (Instr.shri .always .i8 (.imm (-1)) .none).wf = false ∧
    (Instr.cmpiSigned .always .eq .w8 (.imm 256) .none).wf = false ∧
    (Instr.cmpiUnsigned .always .eq .w8 (.imm 256) .none).wf = false ∧ (Instr.switch .always 0 63).wf = false := by decide +kernel

theorem test_wf_conversions : (Instr.cvt .always .i32 .i32 .rne false .none .none).wf = false ∧
    (Instr.cvt .always .f32 .i32 .rne true .none .none).wf = false := by decide +kernel

theorem test_wf_atomics : (Instr.acasw .sys 0 0 0 .none .none).wf = false ∧ (Instr.acasw .dev 0 1 0 .none .none).wf = false ∧
    (Instr.acaswNr .dev 0 1 0).wf = false ∧ (Instr.acasv .op8 .sys 0 0 .none .none).wf = false ∧
    (Instr.acasvNr .op8 .sys 0 0).wf = false := by decide +kernel

theorem test_wf_matrix : (Instr.mrel .always none none).wf = false ∧ (Instr.mma .always 0 0 0 31 1).wf = false ∧
    (Instr.mmag .always 0 0 0 31 1 false).wf = false ∧ (Instr.mscale .always false 0 31 1).wf = false ∧
    (Instr.mred .always .fadd 0 31 1 .none .none).wf = false ∧ (Instr.mst .always .f32 0 none 0 31 1).wf = false ∧
    (Instr.msort .always false false (some 1) 1 0 0).wf = false ∧
    (Instr.mtopk .always 8 false none 0 0 0 .none .none).wf = false := by decide +kernel

/-! ## Values: the spec's own tables of borderline results -/

/-- R152's table of borderline results. -/
theorem test_integer_borders :
    aluAdd .i32 false 0x7FFFFFFF 1 = 0xFFFFFFFF80000000 ∧ aluAdd .i32 true 0x7FFFFFFF 1 = 0x7FFFFFFF ∧
    aluSub .n32 true 3 5 = 0 ∧ aluMulh .i32 0xFFFFFFFFFFFFFFFF 1 = 0xFFFFFFFFFFFFFFFF ∧
    aluMulh .n32 0xFFFFFFFF 0xFFFFFFFF = 0xFFFFFFFE ∧ aluDiv .i32 false 0x80000000 0xFFFFFFFF = 0xFFFFFFFF80000000 ∧
    aluDiv .i32 true 0x80000000 0xFFFFFFFF = 0x7FFFFFFF ∧ aluDiv .i32 false (-7) 0 = 0xFFFFFFFF80000000 ∧
    aluDiv .n16 false 7 0 = 0xFFFF ∧ aluRem .i32 (-7) 2 = 0xFFFFFFFFFFFFFFFF ∧ aluRem .i32 0x80000000 0xFFFFFFFF = 0 ∧
    aluAbs .i8 false 0x80 = 0xFFFFFFFFFFFFFF80 ∧ aluAbs .i8 true 0x80 = 0x7F := by decide +kernel

/-- R155: `shl.i32.sat` of 0x4000_0000 by 1. -/
theorem test_shift_saturates : aluShl .i32 true 0x40000000 1 = 0x7FFFFFFF := by decide +kernel

/-- R86: the SHA-384 standard's digest of the empty string begins 38B0_60A7. -/
theorem test_sha384_empty : sha384 [] / 2 ^ 352 = 0x38B060A7 := by decide +kernel

/-- R123: the check value of CRC-32C over the ASCII bytes of "123456789". -/
theorem test_crc32c : Nat.xor (crcRun 0xFFFFFFFF [0x31, 0x32, 0x33, 0x34, 0x35, 0x36, 0x37, 0x38, 0x39]) 0xFFFFFFFF = 0xE3069283 := by
  decide +kernel

/-! ## One step -/

/-- R165: a step fires the placed `movi.i32 -5` and its latch takes the token. -/
theorem test_step_movi : (match step (State.reset.withFetchWord 32 0x4023F702) with
    | .next t => (t.core 0).latch.map (fun e => (e.2.data, e.2.dst))
    | _ => []) = [(0xFFFFFFFFFFFFFFFB, opKey 2 .R)] := by decide +kernel

/-! ## Witnesses: states and operands that meet the hypotheses of the statements -/
/-- DecodeInvertsEncode. -/
theorem test_met_encode : (Instr.mma .always 2 3 1 0 7).wf = true ∧ isEvent (.mma .always 2 3 1 0 7) = false := by decide +kernel

/-- StepRunsTheDecodedInstruction: a firing that decodes, and an event that need not wait. -/
theorem test_met_step :
    (∃ s : State, ∃ p, s.agenda = .fire (.fab 0 0) 0 :: [] ∧ s.passOf (.fab 0 0) = some p ∧
      codeAt (s.block p.img p.blk) 0 = some ⟨.alu, 0x44200282, none⟩ ∧
      decode ⟨.alu, 0x44200282, none⟩ = .ok (.addi .always .i32 false (.imm 1) (.to .L 2))) ∧
    ∃ s : State, s.agenda = [.event .bootScrubComplete] ∧ s.waitsOn (.event .bootScrubComplete) = false :=
  ⟨⟨{ small .alu 0x44200282 open0 with agenda := [.fire (.fab 0 0) 0] }, open0, by decide +kernel⟩,
   { State.reset with agenda := [.event .bootScrubComplete] }, by decide +kernel⟩

/-- StepsKeepMemoryCanonical: canonical memory that lists a byte, and a step. -/
theorem test_met_canonical : ∃ s t : State, s.memoryOk ∧ step s = .next t :=
  ⟨{ State.reset with mem := [(0, 1)], agenda := [.elapse 1] }, _, by unfold State.memoryOk; decide +kernel, rfl⟩

/-- StepsKeepTablesOrdered: ordered tables with two entries, and a step. -/
theorem test_met_ordered : ∃ s t : State, Ordered s ∧ step s = .next t := by
  refine ⟨{ State.reset with regs := [(1, 1), (2, 1)], agenda := [.elapse 1] }, _, ⟨?_, ?_, ?_, ?_, ?_⟩, rfl⟩ <;>
    simp [keyed, State.reset]

/-- The statements about a firing (IntegerArithmeticResults, BitAndShiftResults, SelectCompareMoveResults,
FloatAndConversionFirings, FlowAndTheSink, SystemInstructions): each input form fires on a thread. -/
theorem test_met_fires : Fires (small .alu 0 open0) [.L, .R] Pred.always.code 5 3 0 ∧ Fires (small .alu 0 open0) [.L] Pred.always.code 5 0 0 ∧
    Fires (small .alu 0 open0) [] Pred.always.code 0 0 0 ∧ Fires (small .alu 0 open0) [.L, .R, .P] 1 5 3 1 ∧
    Fires (small .alu 0 open0) [.L, .R] Pred.pt.code 5 3 1 := by
  unfold Fires; decide +kernel

/-- The same in a program of a control core. -/
theorem test_met_fires_on_control : Fires (control .sys 0 operands) [.L, .R] Pred.always.code 5 3 0 ∧
    Fires (control .sys 0 operands) [.L] Pred.always.code 5 0 0 ∧ Fires (control .sys 0 operands) [] Pred.always.code 0 0 0 := by
  unfold Fires; decide +kernel

theorem on_fabric_small (cls : Cls) (w : Nat) (p : Pass) (h : p.inst = some 0) : OnFabric (small cls w p) 0 0 0 p :=
  ⟨rfl, rfl, h, rfl⟩

/-- WhenInstructionsFire: a thread on the fabric whose ADD is predicated off, and one whose ADD lacks an operand; no earlier configuration
holds its station. -/
theorem test_met_predicated_off :
    OnFabric (small .alu 0 { open0 with opnd := [(1, 5), (2, 3), (3, 0)] }) 0 0 0 { open0 with opnd := [(1, 5), (2, 3), (3, 0)] } ∧
    (small .alu 0 { open0 with opnd := [(1, 5), (2, 3), (3, 0)] }).ready (inputsOf (.add .pt .i32 false .none .none))
      (prOf (.add .pt .i32 false .none .none)) = .off ∧
    (small .alu 0 { inst := some 0 }).ready (inputsOf (.add .always .i32 false .none .none))
      (prOf (.add .always .i32 false .none .none)) = .missing ∧ (small .alu 0 open0).stationHeld (.fab 0 0) open0 0 = false :=
  ⟨on_fabric_small _ _ _ rfl, by decide +kernel⟩

/-- TokensReachTheirInputs: a firing of a control program whose target has no token yet. -/
theorem test_met_sequential : (control .alu 0 operands).cur.agent = .ctl 0 ∧
    (control .alu 0 operands).passOf (.ctl 0) = some { opnd := operands } ∧ Fires (control .alu 0 operands) [.L] 0 5 0 0 ∧
    mget operands (opKey 1 .L) = none := by
  unfold Fires; decide +kernel

/-- LocalFiringsTouchTheirPassOnly: an ADD that fires on the fabric and answers a next state. -/
theorem test_met_local : localFiring (.add .always .i32 false .none .none) = true ∧ OnFabric (small .alu 0 open0) 0 0 0 open0 ∧
    Fires (small .alu 0 open0) (inputsOf (.add .always .i32 false .none .none)) (prOf (.add .always .i32 false .none .none)) 5 3 0 ∧
    ∃ t, exec (.add .always .i32 false .none .none) (small .alu 0 open0) = .next t :=
  ⟨by decide +kernel, on_fabric_small _ _ _ rfl, by unfold Fires; decide +kernel, _, rfl⟩

/-- LiveAndSpecialRegisters: a pass that was admitted with v9 at 7 and group 0 poisoned. -/
theorem test_met_live :
    let s := lone { st := .admitted, pass := some { open0 with live := some ([(9, 7)], [0]) }, poison := [] } .alu 0
    Fires s [] 0 0 0 0 ∧ s.cur.agent = .fab 0 0 ∧ (s.inst 0 0).edges = [] ∧
      (3 : BitVec 6).toNat / 8 ∈ ((took s [] 0).liveView (.fab 0 0)).2 ∧ (9 : BitVec 6).toNat / 8 ∉ ((took s [] 0).liveView (.fab 0 0)).2 := by
  unfold Fires; decide +kernel

/-- CrossLaneReads: a thread whose source is itself, in the snapshot of its round. -/
theorem test_met_cross_lane : ∃ s : State, Fires s [.L, .R] 0 5 0 0 ∧ s.cur.agent = .fab 0 0 ∧
    (∃ x, s.passOf (.fab 0 0) = some x) ∧ s.source 0 0 0 0 = .usable 5 :=
  ⟨(small .alu 0 { open0 with opnd := [(1, 5), (2, 0)] }).setRound 0 0 { snapshot := [0] }, by
    unfold Fires
    refine ⟨by decide +kernel, by decide +kernel, ⟨_, rfl⟩, by decide +kernel⟩⟩

/-- A block of one RRED with its clause marked ROUND. -/
def collectiveState (results : Map (W64 × W64)) (clauses : List Nat) : State :=
  (small .alu 0x74600089 open0).setRound 0 0 { snapshot := [0], clauses, results }

/-- RoundCollectiveResults: a clause that has been computed, with the member's result. -/
theorem test_met_collective : Fires (collectiveState [(0, (8, 8))] [0]) [.L] 0 5 0 0 ∧
    (clauseAt ((collectiveState [(0, (8, 8))] [0]).block 0 0) 0).isSome = true ∧
    0 ∈ ((collectiveState [(0, (8, 8))] [0]).round 0 0).clauses ∧
    mget ((collectiveState [(0, (8, 8))] [0]).round 0 0).results (resKey 0 0) = some (8, 8) := by
  unfold Fires; decide +kernel

/-- StreamNodeResults: a merge of two keys, and a member's computed outputs. -/
theorem test_met_nodes : Merged true [1] [1] [(1, 3)] ∧ Fires (collectiveState [(0, (1, 7))] []) [.L, .R] 0 5 3 0 ∧
    mget ((collectiveState [(0, (1, 7))] []).round 0 0).results (resKey 0 0) = some (1, 7) :=
  ⟨.both 1 [] [] [] (.noA []), by unfold Fires; decide +kernel⟩

/-- FloatSpecialValues: a NaN, infinities of both signs, a zero, a finite negative number. -/
theorem test_met_floats : isNan .f32 0x7FC00000 ∧ isInf .f32 0x7F800000 ∧ isInf .f32 0xFF800000 ∧ isNegative .f32 0xFF800000 ∧
    ¬ isNegative .f32 0x7F800000 ∧ isZero .f32 0 ∧ isFinite .f32 0xBF800000 ∧ ¬ isZero .f32 0xBF800000 ∧ isNegative .f32 0xBF800000 ∧
    numInt .i32 = some .i32 ∧ numInt .n8 = some .n8 := by
  unfold isNan isInf isNegative isZero isFinite; decide +kernel

/-- FlowAndTheSink: a branch output of a BRI at the sink of a thread, to a legal block and to one that is not there. -/
def atSink (b : Branch) : State := small .flow 0 { open0 with outs := [.branch 0 b false] }
theorem test_met_sink : AtSink (atSink (.enter 0)) 0 0 { open0 with outs := [.branch 0 (.enter 0) false] } ∧
    legal (atSink (.enter 0)) 0 0 0 ∧ ¬ legal (atSink (.enter 0)) 0 0 9 :=
  ⟨⟨rfl, rfl, by decide +kernel, by decide +kernel⟩, ⟨by decide, by decide +kernel, fun q h => by
    have : ((atSink (.enter 0)).gang ((atSink (.enter 0)).gangOf 0 0)).polder = none := by decide +kernel
    rw [this] at h; cases h⟩, fun h => absurd h.2.1 (by decide +kernel)⟩
/-- PhaseTwoPerformsInLsidOrder: a thread in phase two with a store and with a NULL. -/
theorem test_met_phase_two : ∃ s : State, ∃ p o, s.threadAgent 0 0 = .fab 0 0 ∧ s.passOf (.fab 0 0) = some p ∧
    s.twoStopped (.fab 0 0) = false ∧ passClosed (s.block p.img p.blk) p = true ∧ nextOp p = some (1, o) ∧ o.null = false ∧
    (∃ i, opInstr (s.block p.img p.blk) o = some i ∧ commits i = true) ∧ List.Pairwise (· < ·) (p.ops.map (·.1)) :=
  ⟨late .mem 0x0468BE00 { idx := 0 }, closed0 { idx := 0 }, { idx := 0 }, by decide +kernel, rfl, by decide +kernel, by decide +kernel, rfl,
    rfl, ⟨.st .always .s8 true 5 15, by decide +kernel⟩, by decide⟩

/-- CommitsEnterTheNextBlock: a pass with every operation performed that branches to block 0 with an LVW of v3; and a thread whose
stack pointer stands at 256. -/
def committing : Pass := { inst := some 0, two := true, sealed := true, branch := some (.enter 0), lvw := [(3, some 7)] }
theorem test_met_commit : ∃ s : State, s.threadAgent 0 0 = .fab 0 0 ∧ s.passOf (.fab 0 0) = some committing ∧
    s.twoStopped (.fab 0 0) = false ∧ passClosed (s.block 0 0) committing = true ∧ nextOp committing = none ∧
    (s.liveFile 0 0).2 = [] ∧ (committing.lvw.map (·.1)).Nodup ∧ s.memoryOk ∧ isRare (s.block (s.imgOf 0 0) 0) = false ∧
    (∀ i, i < 8 → s.homeFree (lineOf (s.slice 0 0 256 + i)) = true) :=
  ⟨lone { st := .commit, pass := some committing } .alu 0, by unfold State.memoryOk; decide +kernel⟩

/-- LoadsIssueOrFault: aligned and misaligned loads of the partition, one that leaves it; no store of a lower LSID stands before it, or has its address. -/
def loadPass (a : W64) : Pass := { inst := some 0, opnd := [(1, a), (2, 9)] }
theorem test_met_load : OnFabric (small .mem 0x00404486 (loadPass 0x1FFF00000000000)) 0 0 0 (loadPass 0x1FFF00000000000) ∧
    Fires (small .mem 0x00404486 (loadPass 0x1FFF00000000000)) [.L] 0 0x1FFF00000000000 0 0 ∧
    (∀ x ∈ [0x1FFF00000000000, 0x1FFF00000000001, 0x1FFF00000001000], ∀ f ∈ [true, false],
      clearRead (small .mem 0x00404486 (loadPass (BitVec.ofNat 64 x))) (.fab 0 0) (loadPass (BitVec.ofNat 64 x)) 2 f false [(x, 4)]) ∧
    ea57 0x1FFF00000000000 0 4 % 4 = 0 ∧
    (small .mem 0x00404486 (loadPass 0x1FFF00000000000)).resolve (.fab 0 0) 0 (ea57 0x1FFF00000000000 0 4) 4 .read false =
      .ok (scratchBase 0) ∧
    ea57 0x1FFF00000000001 0 4 % 4 ≠ 0 ∧
    (small .mem 0x00404486 (loadPass 0x1FFF00000000000)).placedStores (.fab 0 0) (loadPass 0x1FFF00000000000) 2 = [] ∧
    ((small .mem 0x00404486 (loadPass 0x1FFF00000001000)).wgOf 0 0).partSize < ea57 0x1FFF00000001000 0 4 - 0x1FFF00000000000 + 4 :=
  ⟨on_fabric_small _ _ _ rfl, by unfold Fires clearRead; decide +kernel⟩

/-- LoadRepliesDeliver: an outstanding load of four bytes of device memory on the thread's own die, and an outstanding LDV, each the first of its
station. -/
def loadRead : Pass := { inst := some 0, fired := [0], loads := [plainRead 2 0x100 4] }
def loadOut (k : ReqKind) : State :=
  { small .mem 0x00404486 loadRead with
    reqs := [(0, { agent := .fab 0 0, idx := 0, lsid := 2, kind := k, va := 0x100, parts := [{ pa := 0x100, len := 4 }], start := 0 })] }
theorem test_met_reply : ∀ k ∈ [ReqKind.load 4 false 0, ReqKind.ldv 4 false],
    (loadOut k).passOf (.fab 0 0) = some loadRead ∧ (instrAt ((loadOut k).block 0 0) 0).isSome = true ∧
    (mget (loadOut k).reqs 0).isSome = true ∧ loadRead.loads.find? (·.lsid = 2) = some (plainRead 2 0x100 4) ∧
    mget loadRead.got 1 = none ∧ (loadOut k).stopped (.fab 0 0) = false ∧ (loadOut k).latchFree (.fab 0 0) loadRead 0 = true ∧
    (loadOut k).sent (.req 0) = true ∧ ((mget (loadOut k).reqs 0).map ((loadOut k).readBehind 0)) = some false ∧
    (loadOut k).homeFree (lineOf 0x100) = true ∧ (∀ j, j < 4 → (loadOut k).poisonAt (0x100 + j) 1 = false) := by decide +kernel

/-- StoresWaitAndPerform: a store that fires, one to the scratchpad at its LSID, a split one to device memory and a die's scratchpad, whose
release condition holds. -/
theorem test_met_store : Fires (small .mem 0x04000000 (loadPass 0x1FFF00000000000)) [.L, .R] 0 0x1FFF00000000000 9 0 ∧
    (small .mem 0x04000000 (loadPass 0x1FFF00000000000)).resolve (.fab 0 0) 0 0x1FFF00000000000 1 .write false = .ok (scratchBase 0) ∧
    regionOf (scratchBase 0) = .scratch 0 ∧ regionOf 0x100 = .dev 0 ∧ regionOf 0x1000000000000 = .dieScratch 0 ∧
    (∀ q ∈ [[({ pa := scratchBase 0, len := 1 } : Part)], [{ pa := 0x100, len := 4 }, { pa := 0x1000000000000, len := 4 }]],
      AtLsid (late .mem 0x04000000 { idx := 0, r := 9, parts := q }) 1 { idx := 0, r := 9, parts := q } ∧
      (late .mem 0x04000000 { idx := 0, r := 9, parts := q }).releaseMet (.fab 0 0) .dev = true) := by
  refine ⟨by unfold Fires; decide +kernel, by decide +kernel, by decide +kernel, by decide +kernel, by decide +kernel, fun q hq => ⟨⟨rfl, ?_, rfl, rfl⟩, ?_⟩⟩ <;>
    revert q <;> decide +kernel

/-- AtomicValues: sixteen bytes at the location of ACASW. -/
theorem test_met_atomic_values : (List.replicate 16 (0 : Byte)).length = 16 := by decide

/-- AtomicsWaitAndPerform: an AADD that fires; one at its LSID on the scratchpad, and one on an owned device line; one of .sys scope whose remote
address is misaligned, has no window, has one, and at its LSID. -/
def owning (o : Op) : State :=
  let s := late .sync 0x00000000 o
  s.setCore 0 { s.core 0 with alb := [{ line := 2, data := List.replicate 128 0, ver := 5 }] }
theorem test_met_atomic :
    Fires (small .sync 0 (loadPass 0x1FFF00000000000)) [.L, .R] 0 0x1FFF00000000000 9 0 ∧
    (small .sync 0 (loadPass 0x1FFF00000000000)).resolve (.fab 0 0) 0 0x1FFF00000000000 8 .atomic false = .ok (scratchBase 0) ∧
    (late .sync 0 { idx := 0, r := 9, parts := [{ pa := scratchBase 0, len := 8 }] }).releaseMet (.fab 0 0) .dev = true ∧
    (late .sync 0 { idx := 0, r := 9, parts := [{ pa := scratchBase 0, len := 8 }] }).curOp =
      some (1, { idx := 0, r := 9, parts := [{ pa := scratchBase 0, len := 8 }] }) ∧
    (owning { idx := 0, r := 9, parts := [{ pa := 0x100, len := 8 }] }).releaseMet (.fab 0 0) .dev = true ∧
    (owning { idx := 0, r := 9, parts := [{ pa := 0x100, len := 8 }] }).owned 0 (lineOf 0x100) =
      some { line := 2, data := List.replicate 128 0, ver := 5 } ∧
    (owning { idx := 0, r := 9, parts := [{ pa := 0x100, len := 8 }] }).atomicPoison (.aadd .always .i64 .dev 1 0 .none) 0x100 8 = false := by
  unfold Fires; decide +kernel

theorem test_met_remote_atomic :
    (let s := (small .sync 0 (loadPass 0xC000000000000000)).setReg (outReg 0 0) (2 ^ 31)
     (0xC000000000000001 : Nat) % 8 ≠ 0 ∧ 12 ≤ (0xC000000000000000 : Nat) / 2 ^ 60 ∧ (0 : Nat) / 2 ^ 60 < 12 ∧
       s.outbound 0 (s.tenantOf (.fab 0 0)) (0 / 2 ^ 48 % 2 ^ 12) ≠ none ∧ s.outbound 1 (s.tenantOf (.fab 0 0)) 0 = none ∧
       Fires s [.L, .R] 0 0xC000000000000000 9 0) ∧
    AtLsid (late .sync 0 { idx := 0, r := 9 }) 1 { idx := 0, r := 9 } ∧ (late .sync 0 { idx := 0, r := 9 }).releaseMet (.fab 0 0) .sys = true := by
  refine ⟨?_, ⟨?_, ?_, ?_, rfl⟩, ?_⟩ <;> (try unfold Fires) <;> decide +kernel

/-- FencesPrefetchesAndRemoteAccesses: a fence at its LSID, a prefetch that translates, remote addresses with each check. -/
def mapped (p : Pass) : State :=
  let s := small .mem 0 p
  s.setCore 0 { s.core 0 with microTlb := (List.range 16).map (fun k => (k, [{ tenant := 0, va := 0, lg := 16, pa := 0, r := true, w := true, a := true, lease := 0, scratch := false }])),
                              tlb := [{ tenant := 0, va := 0, lg := 16, pa := 0, r := true, w := true, a := true, lease := 0, scratch := false }] }
theorem test_met_fence : (late .sync 0x40308000 { idx := 0 }).curOp = some (1, { idx := 0 }) ∧
    (late .sync 0x40308000 { idx := 0 }).releaseMet (.fab 0 0) .dev = true ∧
    Fires (mapped (loadPass 0x100)) [.L] 0 0x100 0 0 ∧
    (took (mapped (loadPass 0x100)) [.L] 0).prefetchLine (.fab 0 0) 0 0x100 = some 2 ∧
    12 ≤ 0xC000000000000000 / 2 ^ 60 ∧ (mapped (loadPass 0)).outbound 0 0 0 = none ∧
    (∀ x ∈ [0, 0xC000000000000000], clearRead (mapped (loadPass (BitVec.ofNat 64 x))) (.fab 0 0) (loadPass (BitVec.ofNat 64 x)) 2 true true [(x, 4)]) := by
  unfold Fires clearRead; decide +kernel

/-- SynchronisingInstructions: a sluice with an entry, a bound barrier slot, a valid context. -/
def synced : State :=
  let s := small .sync 0x520C0086 open0
  s.setWg 0 0 { s.wg 0 0 with sluices := [(3, { depth := 4, entries := [{ handle := 7 }], allow := 4 })], barriers := [(3, { off := 0 })] }
theorem test_met_sync : Fires synced [] 0 0 0 0 ∧ noRequest synced ∧ (synced.sluice 0 0 3).entries = [] ++ { handle := 7 } :: [] ∧
    (mget (synced.wgOf 0 0).barriers 3).isSome = true ∧ (synced.barrier 0 0 3).isSome = true ∧ OnFabric synced 0 0 0 open0 :=
  ⟨by unfold Fires; decide +kernel, by unfold noRequest; decide +kernel, by decide +kernel, by decide +kernel, by decide +kernel,
   ⟨by decide +kernel, by decide +kernel, rfl, by decide +kernel⟩⟩
/-- SynchronisingInstructions: a QPOP whose block's first clause reserves its entry, with that entry there and without one; and one that reserves as
it fires. -/
def popping (bits : Nat) (es : List SlEntry) : State :=
  let s := { synced with images := [(0, { blocks := [(oneBlock .sync 0x520C0086).set 4 (BitVec.ofNat 32 (Cls.sync.code * 2 ^ 20 + 2 ^ 24 + bits))] })] }
  s.setWg 0 0 { s.wg 0 0 with sluices := [(3, { depth := 4, entries := es, allow := 4 })] }
theorem test_met_pop : popClause ((popping (2 ^ 7 + 3) []).block 0 0) 0 3 = some 0 ∧ popClause ((popping 0 []).block 0 0) 0 3 = none ∧
    (∀ es ∈ [[({ handle := 7, rsv := some 0 } : SlEntry)], []], Fires (popping (2 ^ 7 + 3) es) [] 0 0 0 0 ∧ (popping (2 ^ 7 + 3) es).passOf (popping (2 ^ 7 + 3) es).cur.agent = some open0 ∧
      noRequest (popping (2 ^ 7 + 3) es) ∧ ((popping (2 ^ 7 + 3) es).sluice 0 0 3).entries = es) ∧
    ((popping 0 [{ handle := 7, rsv := some 1 }]).sluice 0 0 3).entries.all (fun e => e.rsv.isSome) = true := by
  unfold Fires noRequest; decide +kernel
/-- SynchronisingInstructions: a watch set with an invalid entry before the one that is checked, and one with overflow. -/
def watching (ov : Bool) : State :=
  (mapped open0).setThread 0 0 { st := .admitted, pass := some open0, watch := [{ line := 7, ver := 1, valid := false }, { line := 2, ver := 3 }], watchOv := ov }
theorem test_met_watch : Fires (watching false) [] 0 0 0 0 ∧ (watching false).watchReady (.fab 0 0) open0 2 = true ∧
    (watching false).readBlocked (.fab 0 0) open0 2 = false ∧
    ((watching false).thread 0 0).watch.filter (·.valid) = [{ line := 2, ver := 3 }] ∧
    (watching false).resolve (.fab 0 0) 0 (2 * 128) 1 .read true = .ok 256 ∧
    ((watching true).thread 0 0).watchOv = true ∧ ((small .sync 0 open0).thread 0 0).watch = [] := by
  unfold Fires; decide +kernel
theorem test_met_contexts : contextValid 0x1000 ∧ contextValid 0x7004 ∧ contextValid 0 ∧ ¬ contextValid 0x8000 := by
  unfold contextValid; decide +kernel

/-- StreamInstructions: a thread at its turn on a window port whose line is usable, and on a radix port without an element. -/
def streaming (kind : Nat) : State :=
  let s := small .sync 0x20000000 open0
  let s := { s with images := [(0, { s.image 0 with streams := [{ port := 0, kind, elem := 8, rank := 2, dx := 1, dy := 0, kib := 8, slot := 0 }] })] }
  s.setWg 0 0 { s.wg 0 0 with windows := [(0, { base := 0, baseSet := true, lines := [(0, { valid := true, expiry := 1000 })] })] }
theorem test_met_streams : Fires (streaming 0) [] 0 0 0 0 ∧ noRequest (streaming 0) ∧ ((streaming 0).portDecl 0 0 0).kind = 0 ∧
    streamTurn ((streaming 0).block 0 0) open0 0 0 = true ∧
    (streaming 0).lineUsable 0 (mgetD (mgetD ((streaming 0).wgOf 0 0).windows 0 {}).lines 0 {}) = true ∧
    ((streaming 2).portDecl 0 0 0).kind = 2 ∧ (streaming 2).radixGet 0 0 0 = none := by
  unfold Fires noRequest; decide +kernel

/-- StreamInstructions: a thread in phase two whose SPUT stands at its window's line; one whose SPUT and SMARK go to its own channel. -/
def putting (kind : Nat) : State :=
  let s := late .mem 0 { idx := 0, va := 0x80, parts := [{ pa := 0x80, len := 8 }] }
  let word (i : Instr) : Nat := (encode i).elim 0 (·.word.toNat)
  let port (n : Nat) : StreamDecl := { port := n, kind, elem := 8, rank := 2, dx := 0, dy := 0, kib := 8, slot := 0 }
  let im : Image := { blocks := [oneBlock .mem (word (.sput .always 0 1)), oneBlock .mem (word (.sget .always 1 .none .none))],
                      streams := [port 0, port 1] }
  let s := { s with images := [(0, im)] }
  s.setWg 0 0 { s.wg 0 0 with windows := [(0, { base := 0, baseSet := true })] }
theorem test_met_stream_performs :
    (∀ kind ∈ [0, 2], (putting kind).curOp = some (1, { idx := 0, va := 0x80, parts := [{ pa := 0x80, len := 8 }] }) ∧
      ((putting kind).portDecl 0 0 0).kind = kind) ∧
    (mgetD ((putting 0).wg 0 0).windows 0 {}).holds (windowBytes ((putting 0).portDecl 0 0 0)) (0x80 / 128) = true ∧
    ((0 : Nat) + 0) % 2 ^ 57 ≤ 0x80 ∧ 0x80 % 128 + 8 ≤ 128 ∧ ((putting 2).receiver 0 0 0).isSome = true := by decide +kernel

/-- A thread at the seal of its round, which is the first of its core; the executing instruction holds these operands. Records 2
and 3 are ready, record 3 with a key page; record 4 is reserved. -/
def sealing (l r : W64) : State :=
  let s := small .mtx 0x18000000000 { inst := some 0, two := true, opnd := [(1, l), (2, r), (3, 1)] }
  let k : ObRec := { st := .ready, granules := 16, rowLen := 64 }
  let s := s.setThread 0 0 { s.thread 0 0 with st := .commit }
  { s.setCore 0 { s.core 0 with seals := [{ round := 0, members := [0] }],
                                obrecs := [(2, k), (3, { k with first := 16, kv := true }), (4, { k with st := .reserved, first := 32 })] } with
    cur := { agent := .fab 0 0, idx := 0, phase := .seal } }

/-- That instruction stands at its seal with the one member, its check passed. -/
def atItsSeal (s : State) (i : Instr) : Bool :=
  s.cur.phase = .seal && (match s.curSeal i with
    | some (x, ms) => ms.length = 1 && (s.planMtx x (fun c => s.mtx c) (s.mtx x.core) i ms).2.all (fun k => decide (k < 1 ∨ 6 < k))
    | none => false)

theorem sealed_of (s : State) (i : Instr) (h : atItsSeal s i = true) : ∃ x e m, Sealed s i x [e] m := by
  simp only [atItsSeal, Bool.and_eq_true, decide_eq_true_eq] at h
  obtain ⟨hp, h⟩ := h
  split at h
  · rename_i x ms hs
    simp only [Bool.and_eq_true, decide_eq_true_eq, List.all_eq_true] at h
    obtain ⟨e, rfl⟩ := List.length_eq_one_iff.mp h.1
    exact ⟨x, e, _, hp, hs, rfl, fun k h1 h6 hk => by have := h.2 k hk; simp at this; omega⟩
  · simp at h

/-- MatrixInstructionsReserve, MzeroWritesZero, MatrixRowOperations, SealsTakeEffectWhole: each matrix instruction at its seal. -/
theorem test_met_seals :
    (∀ i ∈ [Instr.mres .always 5 0 .bf16 0, .mrel .always (some 2) (some 1), .mzero .always 0, .mma .always 2 3 0 0 0,
        .mscale .always true 0 0 0, .mred .always .fadd 0 0 0 .none .none, .msort .always true false (some 1) 0 0 0,
        .mtopk .always 0 false none 0 0 0 .none .none, .mst .always .f32 0 none 0 0 0],
      ∃ x e m, Sealed (sealing 0 0x4000000010) i x [e] m) ∧
    (∃ x e m, Sealed (sealing 0 1) (.mmag .always 2 3 0 0 0 false) x [e] m) ∧
    (∃ x e m, Sealed (sealing 0 1) (.ascore .always false 2 3 0 0) x [e] m) ∧
    (∃ x e m, Sealed (sealing 0 1) (.mld .always .raw 0 4 none) x [e] m) ∧
    (∃ x e m, Sealed (sealing 0 0x100) (.mldKv .always 0 2 none) x [e] m) ∧
    (∃ x e m, Sealed (sealing 0 1) (.amass .always false 0 3 none 0 0) x [e] m) := by
  refine ⟨fun i hi => sealed_of _ _ ?_, sealed_of _ _ ?_, sealed_of _ _ ?_, sealed_of _ _ ?_, sealed_of _ _ ?_, sealed_of _ _ ?_⟩
  · revert i; decide +kernel
  all_goals decide +kernel

/-- MatrixInstructionsReserve: a matrix instruction in phase one of a thread, and of a control program, which has no matrix unit. -/
theorem test_met_matrix_waits :
    (encodeFields (.mzero .always 0)).map (·.cls) = some .mtx ∧ (small .mtx 0 open0).cur.agent.slot ≠ none ∧
    (control .mtx 0 operands).cur.agent.slot = none ∧
    Fires (control .mtx 0 operands) (inputsOf (.mzero .always 0)) (prOf (.mzero .always 0)) 0 3 0 := by
  unfold Fires; decide +kernel

/-- MatrixValues: rows of equal scales, finite products, columns of 32 bits. -/
theorem test_met_matrix_values : isFinite .bf16 0x3F80 ∧ isFinite .f16 0x3C00 ∧ 2 ≤ ({ fmt := 2 } : ObRec).fmt ∧
    (List.replicate (recBlk { fmt := 2 }) 0).length = recBlk { fmt := 2 } ∧ ∀ v ∈ [0x3F800000, 0x7FC00000, 0x80000000], v < 2 ^ 32 := by
  unfold isFinite; decide +kernel

/-- SealsTakeEffectWhole: a seal with nothing of another core whose one check passes, and one whose record is not ready. -/
theorem test_met_seal_executes : ∃ x, (sealing 0 0).sealAt 0 = some x ∧ (sealing 0 0).heldCore 0 = false ∧
    mmagsOf ((sealing 0 0).sealItems x) = [] ∧ x.members = [0] ∧ ((sealing 0 0).thread 0 0).st = .commit ∧
    0 ∉ ((sealing 0 0).core 0).entryWait ∧ Keyed (sealing 0 0) 0 ∧
    (sealing 0 0x4000000010).sealAt 0 = some x ∧ (sealing 0 0x4000000010).heldCore 0 = false ∧ mmagsOf ((sealing 0 0x4000000010).sealItems x) = [] ∧
    (sealing 0 0x4000000010).sealFails x (fun d => (sealing 0 0x4000000010).mtx d) ((sealing 0 0x4000000010).mtx 0) ((sealing 0 0x4000000010).sealItems x) = none :=
  ⟨{ core := 0, members := [0], img := 0, blk := 0, consts := [], wg := 0 }, by unfold Keyed; decide +kernel⟩
theorem test_met_seal_verdicts :
    ((sealing 0 0).sealAt 0).map (fun x => ((sealing 0 0).sealFails x (fun d => (sealing 0 0).mtx d) ((sealing 0 0).mtx 0) ((sealing 0 0).sealItems x)).isSome) =
      some true ∧
    ((sealing 0 0x4000000010).sealAt 0).map (fun x => ((sealing 0 0x4000000010).sealFails x (fun d => (sealing 0 0x4000000010).mtx d)
      ((sealing 0 0x4000000010).mtx 0) ((sealing 0 0x4000000010).sealItems x)).isSome) = some false := by
  decide +kernel

/-- SealsTakeEffectWhole: a matrix store at its LSID with the command that its seal formed, its release condition met. -/
def matrixLate (o : Op) : State :=
  let s := late .mtx 0 o
  s.setThread 0 0 { s.thread 0 0 with pass := some { closed0 o with cmds := [(1, { instr := .mst .always .f32 1 none 0 0 0, agent := .fab 0 0 })] } }
theorem test_met_matrix_command : AtLsid (matrixLate { idx := 0 }) 1 { idx := 0 } ∧
    (matrixLate { idx := 0 }).releaseMet (.fab 0 0) .dev = true ∧
    ((matrixLate { idx := 0 }).passOf (.fab 0 0)).map (fun p => (p.cmds.length, (mget p.cmds 1).isSome)) = some (1, true) ∧
    (∀ ctx ∈ [ctxLoad 0, ctxWriter 0], ((matrixLate { idx := 0 }).context ctx).map (·.issued) = some 0) :=
  ⟨⟨by decide +kernel, by decide +kernel, by decide +kernel, rfl⟩, by decide +kernel, by decide +kernel, by decide +kernel⟩

/-- EngineInstructions: an engine instruction fires on operands in the partition; at its LSID its engine has room, and its descriptor
is readable. -/
theorem test_met_engine_fires :
    OnFabric (small .eng 0 (loadPass 0x1FFF00000000000)) 0 0 0 (loadPass 0x1FFF00000000000) ∧ noRequest (small .eng 0 open0) ∧
    Fires (small .eng 0 open0) [.L] 0 5 0 0 ∧ Fires (small .eng 0 open0) [.L, .R] 0 5 3 0 ∧ ((small .eng 0 open0).consts.getD 0 0).toNat = 0 ∧
    (0 : Nat) < (({ open0 with consts := [16] } : Pass).consts.getD 0 0).toNat ∧ ¬ inPrivateAperture 0x1FFF00000000000 ∧
    inPrivateAperture 0x1FFF10000000000 ∧
    (∀ rt ∈ [Right.read, .write], (small .eng 0 open0).resolve (.fab 0 0) 0 0x1FFF00000000000 1 rt false = .ok (scratchBase 0)) ∧
    (small .eng 0 open0).resolve (.fab 0 0) 0 0x1FFF00000001000 1 .read false = .fault 2 := by
  refine ⟨on_fabric_small _ _ _ rfl, ?_⟩
  unfold noRequest Fires inPrivateAperture; decide +kernel

theorem test_met_engine_performs : ∃ s : State, ∃ o, AtLsid s 1 o ∧ s.releaseMet (.fab 0 0) .dev = true ∧ hasRoom s 3 64 ∧ hasRoom s 4 16 ∧
    hasRoom s 5 16 ∧ s.cur.agent.slot ≠ none ∧ Readable s o 64 64 (scratchBase 0) ∧ Readable s o 32 16 (scratchBase 0) ∧
    s.lineOpen s.cur.agent.die (lineOf (s.lqTail 0)) = true ∧ s.memoryOk := by
  refine ⟨late .eng 0 { idx := 0, l := 0x1FFF00000000000 }, { idx := 0, l := 0x1FFF00000000000 }, ⟨?_, ?_, ?_, ?_⟩, ?_, ?_, ?_, ?_, ?_,
    ?_, ?_, ?_, ?_⟩ <;> (try apply Readable.mk) <;>
    (try unfold hasRoom) <;> (try unfold inPrivateAperture) <;> (try unfold State.memoryOk) <;> decide +kernel

/-- A copy engine of die 0 whose command, issued by the supervisor, has this work left. -/
def copying (k : Cmd) : State :=
  State.reset.setDie 0 { State.reset.die 0 with copy := [(0, { queue := [k], issued := 1 })] }
def copyCmd : Cmd := { instr := .cpy .always .dev 1 none 0 0, l := 0x1000, r := 0x2000, no := 1, agent := .sup 0, running := true }

/-- EngineInstructions: an engine context below the greatest number, and one at it. -/
theorem test_met_numbers : isEngine 0x1000 ∧ ((copying copyCmd).context 0x1000).map (·.issued) = some 1 ∧
    ((State.reset.setDie 0 { State.reset.die 0 with copy := [(0, { issued := 2 ^ 64 - 1 })] }).context 0x1000).map (·.issued) = some (2 ^ 64 - 1) :=
  ⟨⟨0, by decide, .inl ⟨0, by decide, rfl⟩⟩, by decide +kernel, by decide +kernel⟩

theorem eng_ok {x : EngAt} {pa : Nat} (h : (match x with | .ok y => decide (y = pa) | _ => false) = true) : x = .ok pa := by
  cases x <;> simp_all
theorem eng_stop {x : EngAt} {k : Nat} (h : (match x with | .stop y => decide (y = k) | _ => false) = true) : x = .stop k := by
  cases x <;> simp_all

theorem row_ok {x : EngAll} {ps : List Nat} (h : (match x with | .ok y => decide (y = ps) | _ => false) = true) : x = .ok ps := by
  cases x <;> simp_all

theorem works_copying : ∀ op ∈ [EOp.read 0x1000 128, .check 0x1000 128, .write 0x2000 [1], .line 0x2000 [(0, .addSat 1)], .row 0x2040 [1, 2], .tally [1], .drain, .release, .decide 0],
    Works (copying { copyCmd with todo := [op] }) 0x1000 { copyCmd with todo := [op] } := by
  intro op h
  refine ⟨⟨0, by decide, .inl ⟨0, by decide, rfl⟩⟩, ?_, rfl, rfl, ?_⟩ <;> revert op <;> decide +kernel

/-- EnginesWork: a command with a read, a check, a write, an addition, a count, a drain, a release and a decision to come; a read that lies in no
region; a command that has not started, one that is done, one that is stopped. -/
theorem test_met_engines :
    (copying { copyCmd with todo := [.read 0x1000 128] }).engAt 0x1000 { copyCmd with todo := [.read 0x1000 128] } 0x1000 128 .read = .ok 0x1000 ∧
    (copying copyCmd).engResolve 0x1000 copyCmd 0x1000 128 .write = .ok 0x1000 ∧
    (copying copyCmd).engAt 0x1000 copyCmd 0x2000 1 .write = .ok 0x2000 ∧
    (copying copyCmd).engAt 0x1000 copyCmd 0x2000 128 .write = .ok 0x2000 ∧ (copying copyCmd).poisonAt 0x2000 128 = false ∧
    (match (copying copyCmd).engResolve 0x1000 copyCmd 0x2000 128 .read with | .fault _ => true | _ => false) = false ∧
    (copying copyCmd).engRow 0x1000 copyCmd (linePieces 0x2040 2) = .ok [0x2040] ∧
    (copying copyCmd).memoryOk ∧ copyCmd.pending = 0 ∧ ({ copyCmd with pending := 1 } : Cmd).pending ≠ 0 ∧
    (copying copyCmd).cmdReleased 0x1000 copyCmd (cmdScope copyCmd) = true ∧
    (copying copyCmd).cmdReleased 0x1000 { copyCmd with pending := 1 } (cmdScope copyCmd) = false ∧
    (copying copyCmd).engAt 0x1000 copyCmd 0x1FFF00000000000 8 .read = .stop 2 ∧
    (copying { copyCmd with running := false }).headCmd 0x1000 = some { copyCmd with running := false } ∧
    (copying copyCmd).engHeld 0x1000 = false ∧ (copying copyCmd).context 0x1000 = some { queue := [copyCmd], issued := 1 } ∧
    (copying { copyCmd with stopped := true }).context 0x1000 = some { queue := [{ copyCmd with stopped := true }], issued := 1 } := by
  unfold State.memoryOk
  exact ⟨eng_ok (by decide +kernel), by decide +kernel, eng_ok (by decide +kernel), eng_ok (by decide +kernel), by decide +kernel,
    by decide +kernel, row_ok (by decide +kernel),
    by decide +kernel, by decide +kernel, by decide +kernel, by decide +kernel, by decide +kernel, eng_stop (by decide +kernel),
    by decide +kernel, by decide +kernel, by decide +kernel, by decide +kernel⟩

/-- CollectivesAndSpillways: the one participant of a collective, whose descriptor names its die alone. -/
def joinCmd : Cmd :=
  { copyCmd with instr := .coll .always .dev 1 none, todo := [.decide 2], buf := [7, 0, 0, 0], vals := [(2, [2, 0, 1, 5, 6, 1, 0x1000, 0x2000])] }
def joined : State := State.reset.setDie 0 { State.reset.die 0 with coll := { queue := [joinCmd], issued := 1 } }
theorem test_met_collectives : joined.headCmd 0x2000 = some joinCmd ∧ joinCmd.todo = [.decide 2] ∧ joinCmd.stopped = false ∧
    mgetD joinCmd.vals 2 [] = [2, 0, 1, 5, 6, 1, 0x1000, 0x2000] ∧ joined.heldDie 0 = false ∧
    (joined.context 0x2000).map (·.queue) = some [joinCmd] ∧
    (∀ d, d < 8 → d ∉ [0] → joined.headCmd (0x2000 + 0x100 * d) = none) ∧ joined.linked 0 0 = true ∧ (∀ d, d < 8 → (d ∈ [0] ↔ 1 / 2 ^ d % 2 = 1)) := by
  decide +kernel

/-- CollectivesAndSpillways: the switch of a SPLCMP whose record can be written, at its kept version and at another. -/
def switchCmd (v : Nat) : Cmd := { copyCmd with instr := .splcmp .always .dev 1 none, todo := [.decide 30], vals := [(1, [v])] }
def switching (v : Nat) : State := State.reset.setDie 0 { State.reset.die 0 with spill := { queue := [switchCmd v], issued := 1 } }
theorem test_met_switch : ∀ v ∈ [0, 1], (switching v).headCmd 0x3000 = some (switchCmd v) ∧ (switchCmd v).todo = .decide 30 :: [] ∧
    (switchCmd v).stopped = false ∧ (switching v).heldDie 0 = false ∧ (switching v).memoryOk ∧
    (switching v).engAt 0x3000 (switchCmd v) (recVa (switchCmd v)) 32 .write = .ok 0 ∧
    (switching v).engAt 0x3000 (switchCmd v) (recVa (switchCmd v)) 32 .read = .ok 0 ∧
    regionOf 0 = .dev (0 / 2 ^ 37) ∧ ((switching v).sideOf 0).ver = 0 ∧ (mgetD (switchCmd v).vals 1 []).getD 0 0 = v := by
  unfold State.memoryOk
  intro v hv
  refine ⟨?_, ?_, ?_, ?_, ?_, eng_ok ?_, eng_ok ?_, ?_, ?_, ?_⟩ <;> revert v <;> decide +kernel

/-- CollectivesAndSpillways: a pool in device memory with one retired page, at and above its grace value. -/
def retiring (grace : Memory) : State :=
  { State.reset.setDie 0 { State.reset.die 0 with pools := [(64, 0x1000)] } with
    mem := [(0x1019, 0x30), (0x1020, 1), (0x1041, 0x20), (0x1048, 1), (0x1050, 1)] ++ grace }
theorem test_met_retire : ∀ g ∈ [[], [(0x2008, 1)]],
    let s := retiring g
    let x := poolOf (readBytes s.mem 0x1000 128)
    (s.die 0).pools[0]? = some (64, 0x1000) ∧ s.heldDie 0 = false ∧ s.poolAt 0 64 0x1000 128 .read = .ok 0x1000 ∧
    s.poolAt 0 64 0x1000 128 .write = .ok 0x1000 ∧ s.memoryOk ∧ (s.die 0).tlb = [] ∧
    x.retN ≠ 0 ∧ x.freeN ≠ 0 ∧ x.retPushed = x.retired + 1 ∧
    s.poolAt 0 64 ((x.retRing + 16 * (x.retired % x.retN)) % 2 ^ 57) 16 .read = .ok 0x2000 ∧
    s.poolAt 0 64 ((x.freeRing + 4 * (x.pushed % x.freeN)) % 2 ^ 57) 4 .write = .ok 0x3000 ∧
    (s.timeline x.grace < readLE s.mem (0x2000 + 8) 8 ↔ g ≠ []) := by
  unfold State.memoryOk
  intro g hg
  refine ⟨?_, ?_, eng_ok ?_, eng_ok ?_, ?_, ?_, ?_, ?_, ?_, eng_ok ?_, eng_ok ?_, ?_⟩ <;> revert g <;> decide +kernel

/-- SystemInstructions: a thread whose monitor 0 names its tenant and one whose monitor does not; a KSET at its LSID. -/
theorem test_met_system : Fires (small .sys 0 open0) [] 0 0 0 0 ∧ Fires (small .sys 0 open0) [.L] 0 5 0 0 ∧
    (small .sys 0 open0).cur.phase = .one ∧ (small .sys 0 open0).cur.agent.slot = some 0 ∧ (control .sys 0 operands).cur.agent.slot = none ∧
    (let s := (small .sys 0 open0).setReg (blockReg (.fab 0 0) 0x500) (2 ^ 17)
     s.reg (blockReg (.fab 0 0) 0x500) / 2 ^ 17 % 2 = 1 ∧ s.reg (blockReg (.fab 0 0) 0x500) / 2 ^ 18 % 64 = s.tenantOf (.fab 0 0)) ∧
    (small .sys 0 open0).reg (blockReg (.fab 0 0) 0x500) / 2 ^ 17 % 2 = 0 ∧ (5 : W64).getLsbD 0 = true ∧ (4 : W64).getLsbD 0 = false := by
  unfold Fires; decide +kernel
theorem test_met_kset : AtLsid (late .sys 0 { idx := 0, l := 9 }) 1 { idx := 0, l := 9 } ∧ (late .sys 0 { idx := 0, l := 9 }).cur.agent.slot = some 0 :=
  ⟨⟨by decide +kernel, by decide +kernel, by decide +kernel, rfl⟩, by decide +kernel⟩

/-- PrivilegedInstructionsPark and FaultsPark: a thread in its pass with FREEZE about to fire, and one in phase two. -/
theorem test_met_park : MayPark (small .sys 0 open0) (.fab 0 0) 0 0 ∧ noRequest (small .sys 0 open0) ∧
    (∃ f, encodeFields (.freeze .always) = some f ∧ f.cls = .sys ∧ 0x40 ≤ f.op ∧ f.op ≤ 0x4C) ∧
    Fires (small .sys 0 open0) (inputsOf (.freeze .always)) (prOf (.freeze .always)) 5 0 0 ∧
    MayPark (late .sys 0 { idx := 0 }) (.fab 0 0) 0 0 ∧ ((late .sys 0 { idx := 0 }).thread 0 0).pass = some (closed0 { idx := 0 }) ∧
    (late .sys 0 { idx := 0 }).memoryOk := by
  refine ⟨⟨.inl rfl, ?_, ?_, ?_, ?_⟩, ?_, ⟨_, rfl, ?_, ?_, ?_⟩, ?_, ⟨.inl rfl, ?_, ?_, ?_, ?_⟩, ?_, ?_⟩ <;> (try unfold Keyed) <;>
    (try unfold noRequest) <;> (try unfold Fires) <;> (try unfold State.memoryOk) <;> decide +kernel

/-- PrivilegedPrograms: a control program with a software record queued behind an XPATH record, with one held record; registers and
bytes that it may use; a task entry without a descriptor, and a task that has none. -/
def serving : State :=
  let s := control .sys 0 [(1, 0x1000), (2, 1)]
  { s.setCore 0 { s.core 0 with evq := [1, 0x81], evHeld := [2] } with tasks := [(0, (0x1000, { filled := 1 }))] }
theorem test_met_privileged : Fires serving [.L, .R] 0 0x1000 1 0 ∧ Fires serving [.L] 0 0x1000 0 0 ∧ Fires serving [] 0 0 0 0 ∧
    serving.cur.agent = .ctl 0 ∧ (queueOf serving (.ctl 0)).1 = [1] ++ 0x81 :: [] ∧ (1 : Rec).setWidth 8 = (1 : BitVec 8) ∧
    (0x81 : Rec).setWidth 8 ≠ (1 : BitVec 8) ∧ (queueOf serving (.ctl 0)).2 = 2 :: [] ∧ listed (.ctl 0) 0x00D ∧ ¬ listed (.ctl 0) 0x00E ∧
    listed (.sup 0) 0x101 ∧ physical serving 0x1000 32 0x1000 ∧ (∀ va ∈ [0, 2 ^ 33, 2 ^ 32 + 0x1000], (BitVec.ofNat 64 va).toNat = va) ∧
    serving.taskAt 0x1000 = some 0 ∧ mget serving.tasks 0 = some (0x1000, { filled := 1 }) ∧ serving.taskAt 7 = none ∧ serving.freeTask = some 1 := by
  unfold Fires listed physical; decide +kernel

/-- PrivilegedPrograms: a staging area that takes a word, one that has a word and its entry and their check value, and one that is checked; a SIGCHK of
zeros, whose header fails. -/
def stagingState (e : List (Nat × Staging)) : State :=
  let s := control .sys 0 [(1, 0x1000), (2, 0x810)]
  s.setCore 0 { s.core 0 with staging := e }
theorem test_met_configuration : Claims.fieldOf 0x810 18 11 = 1 ∧ Claims.fieldOf 0x810 7 4 = 1 ∧
    (let s := stagingState []
     Fires s [.L, .R] 0 0x1000 (0x810) 0 ∧ physical s 0x1000 4 0x1000 ∧ mget s.fuses 0 ≠ some (0, 1) ∧ mget (s.core 0).insts 0 = none) ∧
    entryOn 1 2 0x0A000000 = true ∧ onEdge 0x0A000000 = false ∧ routed 0x0A000000 0 = false ∧ routed 0x0A000000 1 = false ∧
    (let a : Staging := { words := [0, 0x0A000000], st := .receiving, crc := 0xFFFFFFFF }
     mgetD ((stagingState [(128, a)]).core 0).staging 128 {} = a ∧ a.crc ^^^ 0xFFFFFFFF = (0 : W64).setWidth 32) ∧
    (let a : Staging := { words := [0], st := .checked }
     ∀ e ∈ ((stagingState [(128, a)]).core 0).staging, e.1 % 8 = 0 ∧ e.2.st = .checked) := by
  unfold Fires physical; decide +kernel
theorem test_met_sigchk : (match (stagingState []).ctlRead 0x1000 256 with | .ok h => decide ((headerReason [] h true).isSome = true) | _ => false) = true := by
  decide +kernel

/-- PrivilegedPrograms: register accesses in and outside BAR 0, of a die that a circuit reaches and of one without, holds of a die and of a core,
each form of DRAIN. -/
theorem test_met_registers_and_freezes : (2 ^ 26 ≤ (0x4000000 : W64).toNat) ∧ (0x20 : W64).toNat < 2 ^ 26 ∧ (0x20 : W64).toNat % 8 = 0 ∧
    (0x21 : W64).toNat % 4 ≠ 0 ∧ ((0x183 : W64).toNat < 2 ^ 9 ∧ (0x183 : W64).getLsbD 7 = true ∧ (0x183 : W64).toNat % 128 < 8) ∧
    ((0x17F : W64).toNat < 2 ^ 9 ∧ (0x17F : W64).getLsbD 7 = false) ∧
    (∀ n, n < 4 → (BitVec.ofNat 64 (256 * n + 5)).toNat < 2 ^ 10 ∧ (BitVec.ofNat 64 (256 * n + 5)).getLsbD 7 = false ∧ (256 * n + 5) / 256 = n) ∧
    (∀ o ∈ [0x20, 0x1010000], serving.regReached 0 o = true ∧ serving.regLinked 0 o = true) ∧
    ({ serving with circuits := [1] } : State).regReached 0 0x1010000 = false ∧ ({ serving with circuits := [1] } : State).regLinked 0 0x1010000 = false ∧
    (serving.passOf (.ctl 0)).map (fun p => mget p.got 0) = some none := by decide +kernel

/-- HaltsAndParkCommands: a thread parked by BRK, one parked with partial commit, and one that is not parked. -/
def parked (k : Park) (p : Option Pass) : State :=
  let s := lone { st := .parked, pass := p, park := some k } .alu 0
  { s with gangs := [(0, { members := [{ core := 0, base := 0 }] })],
           cores := [(0, { s.core 0 with threads := [(0, { st := .parked, pass := p, park := some k }), (1, { st := .waiting })],
                                         wgs := [(0, { n := 2 })] })] }
def brkPark : Park := { code := 0x10, sub := 0, partialAt := none, blk := 0, idx := some 0, phase := 1, seq := 0, addr := 0, clock := 0 }
theorem test_met_park_commands :
    (let s := parked brkPark none
     (∀ g ∈ s.gangsOn 0, (s.gang g).frozen = .no) ∧ (s.thread 0 0).st = .parked ∧ (s.thread 0 0).park = some brkPark ∧
       isRare (s.block (s.imgOf 0 0) (s.thread 0 0).blk) = false ∧ freeEntry (s.core 0) ≠ none ∧
       (s.thread 0 1).st ≠ .parked ∧ (s.thread 0 1).st ≠ .exited ∧ (∃ m ∈ (s.gang (s.gangOf 0 0)).members, 1 < (s.wg m.core m.base).n ∧ m = { core := 0, base := 0 }) ∧
       Keyed s 0 ∧ 0 ∉ (s.core 0).entryWait) ∧
    (let k : Park := { brkPark with code := 1, partialAt := some 1, phase := 2 }
     let p := closed0 { idx := 0, performed := true }
     let s := parked k (some p)
     (s.thread 0 0).park = some k ∧ (s.thread 0 0).pass = some p ∧ mget p.ops 1 = some { idx := 0, performed := true } ∧
       readLE s.postedMem (s.imageAddr 0 0 + 0x208) 8 = 0) := by
  unfold Keyed; decide +kernel
/-- HaltsAndParkCommands: one parked with partial commit before its second store, which its image keeps as pending; the image clears its LVW. -/
def resumable : State :=
  let p : Pass := { closed0 {} with lvw := [(3, some 7)], ops := [(1, { performed := true }), (2, { r := 9 })] }
  { parked { brkPark with code := 1, partialAt := some 2, phase := 2 } (some p) with mem := [(0x250, 2)] }
theorem test_met_resumed : ((resumable.thread 0 0).pass.map (fun p => (mget p.lvw 3, (mget p.ops 2).map (·.performed), (mget p.ops 1).map (·.performed)))) =
      some (some (some 7), some false, some true) ∧ flag (readLE resumable.postedMem (resumable.imageAddr 0 0 + 0x200) 8) 3 = false ∧
    readLE resumable.postedMem (resumable.imageAddr 0 0 + 0x210 + 32 * 2) 1 = 2 ∧ ((resumable.thread 0 0).park.map (·.partialAt)) = some (some 2) := by
  decide +kernel

/-- A link still has that message. -/
def unsent (s : State) (m : Nat) : State := { s with links := [(0, { queue := [{ what := .msg m, tenant := 0, size := 1 }] })] }

/-- HomesOwnersAndWindows: a write that has crossed to a free home, one that has not, one whose line a core owns, and one behind an earlier write of its
core to its line. -/
def twoBytes : List (Nat × Byte) := [(0, 9), (127, 8)]
def writing (src : WriteSrc) : State := { State.reset with msgs := [(0, .write src 0 2 twoBytes), (1, .write src 0 2 twoBytes)] }
def storing : WriteSrc := .stores [{ agent := .fab 0 0, lsid := 1 }] []
theorem test_met_home_write : (∀ src ∈ [storing, .posted, .spoiled [{ wg := 0, port := 0, line := 2 }], .engine 0x1000],
      mget (writing src).msgs 0 = some (.write src 0 2 twoBytes) ∧ (writing src).writeBehind 0 src 0 2 twoBytes = false) ∧
    (writing storing).writeBehind 1 storing 0 2 twoBytes = true ∧ (writing storing).unowned 2 = true ∧
    (writing storing).memoryOk ∧ (writing storing).sent (.msg 0) = true ∧ (unsent (writing storing) 0).sent (.msg 0) = false ∧ (writing storing).homeFree 2 = true ∧
    (writing storing).partitionOf (2 * 128) = none ∧ versioned 2 = true ∧
    ({ writing storing with l2 := [(2, { owner := some 5 })] } : State).homeFree 2 = false := by
  unfold State.memoryOk; decide +kernel
theorem test_met_write_bytes : List.Pairwise (fun e f : Nat × Byte => e.1 ≠ f.1) [(0, 9), (127, 8)] ∧
    ∀ e ∈ [((0 : Nat), (9 : Byte)), (127, 8)], e.1 < 128 := by decide

/-- HomesOwnersAndWindows: a completion for a thread with its request, and one for a window line, of a running core and of a held one; a coalescer
entry at 16 cycles and below; a horizon that has passed and one that has not. -/
def coalescing (clk : Nat) : State :=
  let s := small .mem 0 open0
  let s := s.setCore 0 { s.core 0 with coal := [(0, [{ line := 2, opened := 0 }])] }
  { s with dies := [(0, { clk })], reqs := [(4, { agent := .fab 0 0, idx := 0, lsid := 1, kind := .store 1 })],
           msgs := [(0, .done [{ agent := .fab 0 0, lsid := 1, req := 4 }] [] 0 3 0), (1, .done [] [{ wg := 0, port := 0, line := 2 }] 0 3 0)] }
theorem test_met_completions : mget (coalescing 12).msgs 0 = some (.done [{ agent := .fab 0 0, lsid := 1, req := 4 }] [] 0 3 0) ∧
    mget (coalescing 12).msgs 1 = some (.done [] [{ wg := 0, port := 0, line := 2 }] 0 3 0) ∧ mget (coalescing 12).reqs 4 ≠ none ∧
    ((coalescing 12).thread 0 0).st ≠ .exited ∧
    (∀ m ∈ [0, 1], (coalescing 12).sent (.msg m) = true ∧ (unsent (coalescing 12) m).sent (.msg m) = false) ∧ (coalescing 12).heldCore 0 = false ∧
    ((coalescing 12).setReg 0x20 1).heldCore 0 = true ∧ (coalescing 12).coal 0 0 = [] ++ { line := 2, opened := 0 } :: [] ∧
    16 * 5 ≤ 7 * (((coalescing 12).die 0).clk - 0) ∧ 7 * (((coalescing 11).die 0).clk - 0) < 16 * 5 ∧
    ((coalescing 12).thread 0 0).horizon ≤ ((coalescing 12).die 0).clk ∧ ((coalescing 12).thread 0 0).far = [] ∧
    (let s := coalescing 12; let u := s.setThread 0 0 { s.thread 0 0 with horizon := 13 }; (u.die 0).clk < (u.thread 0 0).horizon) := by decide +kernel

/-- HomesOwnersAndWindows: an ownership request, a grant without waiters, recalls of a line that is there, that is not, and that has been asked for anew,
a write-back. -/
def lines (fresh : Bool) : State :=
  let s := State.reset.setCore 0 { State.reset.core 0 with alb := [{ line := 2, data := List.replicate 128 0, ver := 5, fresh }] }
  { s with msgs := [(0, .ownReq 0 9), (1, .grant 0 7 (List.replicate 128 1) 3 4), (2, .recall 0 2), (3, .recall 0 3), (4, .back 0 11 (List.replicate 128 2) 6 true),
                     (5, .ownReq 0 13), (6, .recall 0 13)] }
theorem test_met_lines : (mgetD (lines false).l2 9 {}).owner = none ∧ (lines false).postedOn 9 = false ∧
    (∀ m, m < 7 → (lines false).sent (.msg m) = true ∧ (unsent (lines false) m).sent (.msg m) = false) ∧ (lines false).heldCore 0 = false ∧
    ((lines false).setReg 0x20 1).heldCore 0 = true ∧ (mgetD ({ lines false with l2 := [(9, { owner := some 0 })] } : State).l2 9 {}).owner = some 0 ∧ (lines false).lineWaiters 0 7 = [] ∧ ((lines false).core 0).nrOps = [] ∧
    (∀ e ∈ ((lines false).core 0).alb, e.line ≠ 3) ∧
    ((lines false).core 0).alb = [] ++ { line := 2, data := List.replicate 128 0, ver := 5, fresh := false } :: [] ∧
    ((lines true).core 0).alb = [] ++ { line := 2, data := List.replicate 128 0, ver := 5, fresh := true } :: [] ∧
    (lines false).lineBehind 0 0 9 = false ∧ (lines false).backBehind 4 0 11 = false ∧ (lines false).lineWaiters 0 2 = [] ∧ (List.replicate 128 (2 : Byte)).length = 128 := by decide +kernel
theorem test_met_line_messages : (∀ e ∈ (lines false).msgs, ∀ data ver time modified k, (e.2 ≠ .grant 0 2 data ver time ∧ e.2 ≠ .grant 0 3 data ver time ∧
      e.2 ≠ .recall 0 7 ∧ e.2 ≠ .ownReq 0 3 ∧ e.2 ≠ .back 0 3 data ver modified) ∧ (e.2 ≠ .recall k 9 ∧ e.2 ≠ .back k 9 data ver modified)) ∧
    (∃ e ∈ (lines false).msgs, e.2 = .ownReq 0 13) := by
  simp [lines]

/-- HomesOwnersAndWindows: a fresh line that an atomic of its core waits for. -/
theorem test_met_needed : let s := { late .sync 0 { idx := 0, started := true, parts := [{ pa := 0x100, len := 8 }] } with msgs := [(2, .recall 0 2)] }
    let s := s.setCore 0 { s.core 0 with alb := [{ line := 2, data := List.replicate 128 0, ver := 5, fresh := true }] }
    s.lineWaiters 0 2 ≠ [] ∧ s.heldCore 0 = false ∧ s.sent (.msg 2) = true := by decide +kernel

/-- HomesOwnersAndWindows: a read window port whose base is set, its page in the die TLB, with room for a line; a line whose lease runs, and
one whose lease is over. -/
def filling (clk : Nat) : State :=
  let s := streaming 0
  let s := s.setWg 0 0 { s.wg 0 0 with windows := [(0, { base := 0, baseSet := true, head := 128, lines := [(0, { valid := true, expiry := 1000 })] })] }
  let e : TlbEntry := { tenant := 0, va := 0, lg := 16, pa := 0, r := true, w := true, a := true, lease := 1, scratch := false }
  { s.setCore 0 { s.core 0 with microTlb := (List.range 16).map (fun k => (k, [e])), tlb := [e] } with
    dies := [(0, { clk })], l2 := [(1, { present := true })] }
theorem test_met_window : (streamDecl ((filling 0).image ((filling 0).launch ((filling 0).gang ((filling 0).wg 0 0).gang).seq).img) 0).map (·.kind) = some 0 ∧
    (mgetD ((filling 0).wg 0 0).windows 0 {}).baseSet = true ∧
    portWritten ((filling 0).image ((filling 0).launch ((filling 0).gang ((filling 0).wg 0 0).gang).seq).img) 0 = false ∧
    1 * 128 + 128 ≤ (0 : Nat) + 0 + 1024 * 8 ∧ 1 * 128 ≤ (0 : Nat) + (mgetD ((filling 0).wg 0 0).windows 0 {}).head ∧ (filling 0).lineOpen 0 1 = true ∧ (filling 0).heldCore 0 = false ∧
    mget (mgetD ((filling 0).wg 0 0).windows 0 {}).lines 1 = none ∧ (0 : Nat) + 0 < 1 * 128 + 128 ∧
    ((filling 0).tlbLookup 0 0 0 (1 * 128)).map (fun e => (e.r, e.scratch, (e.pa + 1 * 128 % 2 ^ e.lg) / 128, e.lease)) = some (true, false, 1, 1) ∧
    (filling 0).poisonAt (1 * 128) 128 = false ∧ (filling 0).homeFree 1 = true ∧ versioned 1 = true ∧ (mgetD (filling 0).l2 1 {}).present = true ∧
    (mget (mgetD ((filling 0).wg 0 0).windows 0 {}).lines 0).map (·.valid) = some true ∧ (filling 0).fallback 0 0 = false ∧
    ((filling 999).die 0).clk + 0 < (filling 999).convert 0 0 1000 ∧ ¬ ((filling 1000).die 0).clk + 0 < (filling 1000).convert 0 0 1000 := by decide +kernel

/-- AnswersAndTimeouts: a thread with one outstanding request, on a live port 0; the request is 1000000 ns old, or one less. -/
def asking (k : ReqKind) (clk : Nat) : State :=
  let s := small .mem 0x00404486 loadRead
  { s with reqs := [(0, { agent := .fab 0 0, idx := 0, lsid := 2, kind := k, va := 0x100, start := 0 })], dies := [(0, { clk })],
           regs := [(0x30A0000, 2 ^ 31), (0x30A0008, 1)] }
/-- The same of a remote read at an address, with what its port has received; port 1 is live too. -/
def answered (va : Nat) (b : Option PeerReply) : Req := { agent := .fab 0 0, idx := 0, lsid := 2, kind := .remoteRead 4, va, start := 0, back := b }
def answering (va : Nat) (b : Option PeerReply) : State :=
  { ((asking (.remoteRead 4) 0).setReg 0x30A0100 (2 ^ 31)).setReg 0x30A0108 1 with reqs := [(0, answered va b)] }
theorem test_met_answers :
    (∀ x ∈ [PeerReply.data 5, .refused 2, .poisoned], comesBack (answering 0x100 none) 0 (answered 0x100 none) x x ∧
      comesBack (answering (2 ^ 60) (some x)) 0 (answered (2 ^ 60) (some x)) .none x ∧ answerCrosses (answering (2 ^ 60) none) 0 (answered (2 ^ 60) none) x) ∧
    nothingBack (answering 0x100 none) 0 (answered 0x100 none) .none ∧ nothingBack (answering (2 ^ 61) none) 0 (answered (2 ^ 61) none) (.data 5) ∧
    nothingBack { answering 0x100 none with links := [(0, { queue := [{ what := .req 0, tenant := 0, size := 1 }] })] } 0 (answered 0x100 none) (.data 5) ∧
    (answering 0x100 none).replyOpen (answered 0x100 none) = true ∧
    (asking (.remoteWrite 1) 0).twoStopped (.fab 0 0) = false ∧ MayPark (asking (.remoteWrite 1) 0) (.fab 0 0) 0 0 ∧
    (let s := { late .mem 0 { idx := 0, started := true, waiting := 1 } with reqs := (asking (.remoteWrite 1) 0).reqs }
     opAt s (.fab 0 0) 1 = some { idx := 0, started := true, waiting := 1 }) := by
  unfold comesBack answerCrosses nothingBack
  refine ⟨?_, ?_, ?_, ?_, ?_, ?_, ⟨.inl rfl, ?_, ?_, ?_, ?_⟩, ?_⟩ <;> (try unfold Keyed) <;> (try unfold opAt) <;> (try decide +kernel)
theorem test_met_phase_one : ∀ clk k, inPhaseOne (asking k clk) 0 0 ∧ (asking k clk).thread 0 0 = (asking (.remoteRead 4) 0).thread 0 0 := by
  intro clk k
  refine ⟨fun p h => ?_, rfl⟩
  have e : ((asking k clk).thread 0 0).pass = some loadRead := rfl
  rw [e] at h; cases h; rfl
theorem test_met_reduction_answers : ∃ s : State, ∃ x, mget (s.core 0).nrOps 3 = some x ∧ x.agent.slot ≠ none ∧
    (mget s.reqs 0).map (·.kind) = some (.remoteNr 3) ∧ s.portLive (remotePort 0x100) = true :=
  ⟨let s := asking (.remoteNr 3) 0
   s.setCore 0 { s.core 0 with nrOps := [(3, { agent := .fab 0 0, gang := 0, seq := 0, instr := .aaddNr .always .i64 .dev 1 0, op := { idx := 0 }, tenant := 0 })] },
   { agent := .fab 0 0, gang := 0, seq := 0, instr := .aaddNr .always .i64 .dev 1 0, op := { idx := 0 }, tenant := 0 }, by decide +kernel⟩
theorem test_met_timeouts :
    (asking (.load 4 false 0) 999999).reg (kcReg 0 0x28) = 1000000 ∧
    ((asking (.load 4 false 0) 999999).die 0).clk - 0 < (asking (.load 4 false 0) 999999).reg (kcReg 0 0x28) ∧
    (asking (.load 4 false 0) 1000000).reg (kcReg 0 0x28) ≤ ((asking (.load 4 false 0) 1000000).die 0).clk - 0 ∧
    (asking (.load 4 false 0) 1000000).heldCore 0 = false ∧ ((asking (.load 4 false 0) 0).setReg 0x20 1).heldCore 0 = true ∧
    MayPark (asking (.load 4 false 0) 1000000) (.fab 0 0) 0 0 ∧
    (∃ i tg1 j1 f1, instrAt ((asking (.tlwait 0 1) 1000000).block 0 0) 0 = some i ∧ targetsOf i = [.to f1 j1, tg1]) ∧
    (asking (.probe 0) 1000000).nrAt (.fab 0 0) 2 = false ∧
    (∀ k ∈ [ReqKind.load 4 false 0, .ldv 4 false, .watch 2 3, .stream 0],
      let s : State := { asking .xlate 0 with reqs := [], late := [(0, ({ agent := .fab 0 0, idx := 0, kind := k }, 0))] }
      mget s.reqs 0 = none ∧ mget s.late 0 = some ({ agent := .fab 0 0, idx := 0, kind := k }, 0) ∧ s.heldCore 0 = false) :=
  ⟨by decide +kernel, by decide +kernel, by decide +kernel, by decide +kernel, by decide +kernel,
   ⟨.inl rfl, by decide +kernel, by decide +kernel, by decide +kernel, by unfold Keyed; decide +kernel⟩,
   ⟨.ld .always .s4 false false 2 2 (.to .L 6), .none, 6, .L, by decide +kernel, by decide +kernel⟩, by decide +kernel, by decide +kernel⟩

/-- AnswersAndTimeouts: a reduction's acknowledgement for a thread and for one that is gone, of a running core and of a held one; a visibility probe
whose port is on its die, and one that stands on another; a TLBINV whose writes have landed. -/
theorem test_met_acknowledgements : ∃ s : State, mget s.msgs 0 = some (.nrAck (.fab 0 0) 0 0 0 0 5 0) ∧ s.sent (.msg 0) = true ∧
    s.ackHeld (.fab 0 0) (s.nrHome (.fab 0 0) 0 0 0) = false ∧ (s.setReg 0x20 1).ackHeld (.fab 0 0) (some (.fab 0 0)) = true ∧
    s.nrHome (.fab 0 0) 0 0 0 = some (.fab 0 0) ∧ s.nrHome (.fab 0 0) 0 1 0 = none ∧ s.portLive 0 = true ∧ s.heldCore 0 = false ∧ s.portLive 1 = false ∧
    (∀ e ∈ s.reqs, s.sent (.req e.1) = true ∧ e.2.back = none) ∧ (∃ e ∈ s.reqs, e.2.kind = .probe 0 ∧ (e.2.agent = .fab 0 0 ∨ e.2.agent = .rare 0 0)) ∧
    s.writesLanded { agent := .ctl 0, idx := 0, tenant := 0, lo := 0, hi := 0x10000 } = true :=
  ⟨{ asking (.probe 0) 0 with msgs := [(0, .nrAck (.fab 0 0) 0 0 0 0 5 0)] }, by decide +kernel⟩
theorem test_met_probe_crossing : let s := { answering 0 none with reqs := [(0, { agent := .fab 0 0, idx := 0, lsid := 2, kind := .probe 1, start := 0 })] }
    s.portLive 1 = true ∧ s.heldCore 0 = false ∧ s.sent (.req 0) = true ∧ 1 % 8 ≠ 0 / 16 ∧ keyed s.reqs ∧
    (mget s.reqs 0).map (fun r => (r.kind, r.back)) = some (.probe 1, none) := by
  unfold keyed; decide +kernel

/-- WalksAndThePager: a walk in flight from a root table. -/
def walkingState (m : Memory) (side : Map Side) : State :=
  { State.reset with dies := [(0, { walks := [{ tenant := 0, va := 0, waiters := [] }] })], regs := [(0x4000, 0x4001)], mem := m, side }
theorem test_met_walks :
    (∀ m side, (walkingState m side).reg (0x4000 + 0x20 * 0) = 0x4001) ∧ (0x4001 : Nat).testBit 0 = true ∧ 0x4001 / 2 ^ 14 % 2 ^ 38 * 2 ^ 14 = 0x4000 ∧
    (walkingState [] []).heldDie 0 = false ∧ freeToken ((walkingState [] []).die 0) = some 0 ∧
    Walks (walkingState [] []) 0 0 0x4000 0 .missing ∧
    Walks (walkingState [] [(128, { dp := true })]) 0 0 0x4000 0 (.poison 0x4000) ∧
    Walks (walkingState [(0x4000, 3)] []) 0 0 0x4000 0 .refused ∧
    Walks (walkingState [(0x4000, 1), (0x4001, 0x80), (0x8000, 7)] []) 0 0 0x4000 0 (.leaf 1 7) := by
  refine ⟨fun m side => rfl, by decide, by decide, by decide +kernel, by decide +kernel,
    .invalid _ _ _ rfl (by decide +kernel) (by decide +kernel) (by decide +kernel),
    .poisoned _ _ _ rfl (by decide +kernel) (by decide +kernel), ?_, ?_⟩
  · refine .refused _ _ 0x4000 (by decide) (by decide +kernel) (by decide +kernel) (by decide +kernel) ?_
    rw [show readLE (walkingState [(0x4000, 3)] []).mem 0x4000 8 = 3 by decide +kernel]
    exact .inr (.inr (.inl ⟨rfl, by decide⟩))
  · have e0 : readLE (walkingState [(0x4000, 1), (0x4001, 0x80), (0x8000, 7)] []).mem 0x4000 8 = 0x8001 := by decide +kernel
    have e1 : readLE (walkingState [(0x4000, 1), (0x4001, 0x80), (0x8000, 7)] []).mem 0x8000 8 = 7 := by decide +kernel
    have l : Walks (walkingState [(0x4000, 1), (0x4001, 0x80), (0x8000, 7)] []) 0 0 0x8000 1 (.leaf 1 7) := by
      have h := Walks.leaf (s := walkingState [(0x4000, 1), (0x4001, 0x80), (0x8000, 7)] []) (d := 0) (va := 0) 0x8000 1 0x8000 (by decide) (by decide +kernel)
        (by decide +kernel) (by rw [e1]; decide) (by
          rw [e1]; unfold refusedEntry; dsimp only
          have r : regionOf (7 / 2 ^ 12 % 2 ^ 40 * 2 ^ 12) = .dev 0 := by decide +kernel
          rw [r]
          simp
          decide) (by rw [e1]; decide)
      rw [e1] at h; exact h
    refine .down _ _ 0x4000 _ (by decide) (by decide +kernel) (by decide +kernel) (by rw [e0]; decide) ?_ (by rw [e0]; decide) ?_
    · rw [e0]; unfold refusedEntry; dsimp only
      have r : regionOf (0x8001 / 2 ^ 12 % 2 ^ 40 * 2 ^ 12) = .dev 0 := by decide +kernel
      rw [r]
      simp
      decide
    · rw [e0]; exact l

theorem place_ok {x : LeafAt} {a : Nat} (h : (match x with | .place y => decide (y = a) | _ => false) = true) : x = .place a := by
  cases x <;> simp_all

/-- WalksAndThePager: tables down to an invalid level-4 entry, a backing map of one entry with these bits, and a queue of one free frame. -/
def paging (bits : Byte) (st : PagerStage) : State :=
  { State.reset with
    mem := [(0x1002, 1), (0x100A, 1)] ++ (if bits = 0 then [] else [(0x1010, bits)]) ++
      [(0x4000, 1), (0x4001, 0x80), (0x8000, 1), (0x8001, 0x90), (0x9000, 1), (0x9001, 0xA0), (0xA000, 1), (0xA001, 0xB0), (0xC000, 4)],
    regs := [(0x4000, 0x4001), (0x4008, 0x1000), (0x4010, 1), (dsReg 0 0x430, 0xC000), (dsReg 0 0x438, 2 ^ 31 + 6)],
    dies := [(0, { faults := [(0, { tenant := 0, page := 0x10000, waiters := [], stage := st })], freePushed := 1 })] }
theorem test_met_pager :
    (∀ b ∈ [(0 : Byte), 2, 3], (paging b .queued).memoryOk ∧ (paging b .queued).heldDie 0 = false ∧
      (paging b .queued).reg (0x4008 + 0x20 * 0) / 32 % 2 ^ 52 * 32 = 0x1000 ∧ (paging b .queued).reg (0x4010 + 0x20 * 0) % 2 ^ 24 = 1 ∧
      regionOf 0x1000 = .dev 0 ∧ regionOf (0x1000 + 32 * 1 - 1) = .dev 0 ∧ (paging b .queued).lineOpen 0 (lineOf (0x1000 + 32 * 0)) = true ∧
      mergeWith ((paging b .queued).die 0) 0 { tenant := 0, page := 0x10000, waiters := [] } = none ∧
      readLE (paging b .queued).mem 0x1000 8 = 0x10000 ∧ readLE (paging b .queued).mem 0x1008 8 = 0x10000 ∧
      readLE (paging b .queued).mem 0x1010 2 = b.toNat ∧ readLE (paging b .queued).mem 0x1012 6 = 0 ∧ readLE (paging b .queued).mem 0x1018 8 = 0) ∧
    (paging 0 .queued).leafPlace 0 0 0x10000 = .place 0xB008 ∧ (paging 0 .queued).freeFramesOf 0 ≠ 0 ∧
    readLE (paging 0 .queued).mem ((paging 0 .queued).reg (dsReg 0 0x430) + 4 * (((paging 0 .queued).die 0).freeTaken % (paging 0 .queued).freeRing 0)) 4 = 4 ∧
    (paging 0 .queued).lineOpen 0 (lineOf 0xC000) = true ∧ inRegion (4 * 65536) 65536 = true ∧ State.reset.freeFramesOf 0 = 0 := by
  unfold State.memoryOk
  exact ⟨by decide +kernel, place_ok (by decide +kernel), by decide +kernel⟩

/-- WalksAndThePager: two tokens of one tenant and page. -/
theorem test_met_merge : let f : FaultTok := { no := 2, tenant := 0, page := 0x10000, waiters := [.agent (.fab 0 0) 1 0x10008] }
    let g : FaultTok := { no := 1, tenant := 0, page := 0x10000, waiters := [.agent (.fab 0 0) 0 0x10000] }
    (mergeWith { faults := [(0, g), (1, f)] } 1 f).map (fun e => (e.1, e.2.no)) = some (0, 1) ∧
    mget ({ faults := [(0, g), (1, f)] } : Die).faults 0 = some g ∧ f.stage = .queued := by decide +kernel

/-- WalksAndThePager: a fill into frame 4 that is complete, its level-4 entry still invalid; an escalated token. -/
theorem test_met_fill :
    (let s := paging 0 (.filling 4 0 0xB008 0x4000F none)
     (mget (s.die 0).faults 0).map (·.stage) = some (.filling 4 0 0xB008 0x4000F none) ∧ 0x10000 % 65536 = 0 ∧ s.heldDie 0 = false ∧
       (∀ i, i < 512 → s.lineOpen 0 (512 * 4 + i) = true) ∧ s.lineOpen 0 (0xB008 / 128) = true ∧ 0xB008 % 8 = 0 ∧ 0xB008 < 4 * 65536 ∧
       readLE s.mem 0xB008 8 % 2 = 0) ∧
    (mget ((paging 0 .escalated).die 0).faults 0).map (·.stage) = some .escalated := by decide +kernel

/-- SoftErrorsPoison: a line of device memory, a thread and a row descriptor that reads as a code that is not produced, a clean window line and a line of an atomic line buffer under an error. -/
theorem test_met_soft_errors : versioned (0 / 128) = true ∧ 4 < 0x50 / 16 ^ 1 % 16 ∧ 0x50 % 2 ^ 32 ≠ lvsDescriptor ((filling 0).thread 0 0).regs ∧ ((filling 0).thread 0 (0 / 8 % 8192)).st ≠ .empty ∧
    mget (filling 0).cores 0 ≠ none ∧ mget ((filling 0).core 0).wgs 0 ≠ none ∧
    (mget (mgetD ((filling 0).wg 0 0).windows 0 {}).lines 0).map (fun l => (l.pline, l.dirty)) = some (0 / 128, false) ∧
    mget (lines false).cores 0 ≠ none ∧ ((lines false).core 0).alb.map (·.line) = [0x100 / 128] ∧ (lines false).memoryOk := by
  unfold State.memoryOk; decide +kernel
theorem test_met_soft_errors_ordered : keyed (filling 0).cores ∧ keyed ((filling 0).core 0).wgs ∧ keyed ((filling 0).wg 0 0).windows ∧
    keyed (mgetD ((filling 0).wg 0 0).windows 0 {}).lines ∧ keyed (lines false).cores := by
  unfold keyed; decide +kernel

/-- TokensAndAdmission: a token in a latch for an instruction that waits for its other operand, and for one that it completes; a stale
generation; an input that has its token. -/
def arriving (opnd : Map W64) (gen : Nat) : State :=
  let p : Pass := { inst := some 0, opnd }
  let s := small .alu 0 p
  let s := s.setInst 0 0 { s.inst 0 0 with blk := 0, stations := [], ftab := [(0, { gen, slot := some 0 })], width := 1, frames := 1 }
  s.setCore 0 { s.core 0 with latch := [(0, { slot := 0, frame := 0, gen := 0, data := 7, dst := 1, edge := 0, inst := 0 })] }
theorem test_met_tokens :
    (∀ o ∈ [([] : Map W64), [(2, 3)], [(1, 9), (2, 3)]], ∀ g ∈ [0, 1],
      let s := arriving o g
      (mget (s.core 0).latch (2 * 0 + 0)).map (fun k => (k.dst, k.gen)) = some (1, 0) ∧ s.stopped (.fab 0 0) = false ∧
      edgeEntry (s.image (s.inst 0 0).img) (s.inst 0 0).blk 0 = false ∧
      0 < edgeDepth (s.image (s.inst 0 0).img) (s.inst 0 0).blk (0 / 2) (0 % 2) ∧ mgetD (s.inst 0 0).edges (0 % 1 * 256 + 0) [] = [] ∧
      (s.thread 0 0).pass = some { inst := some 0, opnd := o } ∧ (mgetD (s.inst 0 0).ftab (0 * 1024 + 0) {}).gen = g ∧
      instrAt (s.block 0 0) 0 = some (.add .always .i8 false .none .none)) ∧
    MayPark (arriving [] 1) (.fab 0 0) 0 0 :=
  ⟨by decide +kernel, .inl rfl, by decide +kernel, by decide +kernel, by decide +kernel, by unfold Keyed; decide +kernel⟩

/-- TokensAndAdmission: a token for a stream node, at a tile whose compaction queue is empty, and at one whose queue is full of entries of other
groups. -/
def grouping (full : Bool) : State :=
  let s := arriving [] 0
  let s := { s with images := [(0, { blocks := [oneBlock .mem ((encode (.union .always false .none .none)).elim 0 (·.word.toNat))] })] }
  let g (n : Nat) : Group := { inst := 0, round := n + 1, idx := 0, base := 128 + n }
  let other (n : Nat) : Nat × Thread := (128 + n, { pass := some { inst := some 0, round := n + 1, opnd := [(1, 1)] } })
  if full then s.setCore 0 { s.core 0 with compact := (List.range 16).map (fun n => (n, g n)), threads := (s.core 0).threads ++ (List.range 16).map other } else s
theorem test_met_groups : ∀ full ∈ [true, false], let s := grouping full
    (instrAt (s.block 0 0) 0).any isNode = true ∧ (s.thread 0 0).pass = some { inst := some 0 } ∧ s.stopped (.fab 0 0) = false ∧
    (let tile := tileOf (s.image 0) (s.inst 0 0) 0 0
     (takeGroup (s.core 0) (tile.2 * 16 + tile.1) { inst := 0, round := 0, idx := 0, base := 0 }).isNone = full) := by decide +kernel

/-- TokensAndAdmission: stations that pass on an end-of-stream token: of a lone instruction, and of one that has another consumer. -/
theorem test_met_end_of_stream : ∃ s : State, s.eosReady 0 0 0 0 = some 3 ∧ s.heldCore 0 = false ∧ (s.inst 0 0).retiring = false ∧
    (instrAt (s.block 0 0) 0).isSome = true :=
  ⟨let s := lone { st := .waiting } .alu 0
   s.setInst 0 0 { s.inst 0 0 with eosDue := [(3, [0])] }, by decide +kernel⟩

/-- TokensAndAdmission: a retiring instance of one station, or of eight, that is ready to switch, with no frame held. -/
def retiringInst (width : Nat) : State :=
  let s := lone { st := .waiting } .alu 0
  s.setInst 0 0 { s.inst 0 0 with width, retiring := true }
theorem test_met_switch_token : ∀ width ∈ [1, 8], let s := retiringInst width
    let x := s.inst 0 0
    s.eosReady 0 0 0 0 = none ∧ x.retiring = true ∧ s.heldCore 0 = false ∧ 128 * 0 + 0 ∉ x.switched ∧ 128 * 0 + 0 ∈ stationCodes (s.image x.img) x ∧
    s.switchReady 0 0 0 0 = true ∧ (x.switched.length + 1 = (stationCodes (s.image x.img) x).length ↔ width = 1) ∧ (∀ f ∈ x.ftab, f.2.slot = none) ∧
    (∀ e ∈ (s.core 0).latch, e.2.inst ≠ 0) ∧ x.edges = [] ∧
    (instrAt (s.block x.img x.blk) 0).map targetsOf = some [.none, .none] := by decide +kernel

theorem admit_ok {x : Admit} (h : (match x with | .ok _ _ => true | _ => false) = true) : ∃ u r, x = .ok u r := by
  cases x <;> simp_all
theorem admit_held {x : Admit} {k : HeldCond} (h : (match x with | .held _ y => decide (y = k) | _ => false) = true) : ∃ u, x = .held u k := by
  cases x <;> simp_all

/-- A block whose first clause asks for these conditions. -/
def guarded (bits : Nat) : List W32 := (oneBlock .alu 0).set 4 (BitVec.ofNat 32 (2 ^ 24 + bits))

/-- TokensAndAdmission: a thread whose wait slot 0 names a command that is not complete, a sluice without entries, a barrier at which it has
arrived; and a block that asks for nothing. -/
def waitingThread (bits : Nat) : State :=
  let s := lone { st := .waiting, wait := [(0, { ctx := 0x1000, val := 1 })], arrivals := [(0, 0)] } .alu 0
  let s := { s with images := [(0, { blocks := [guarded bits] })] }
  let s := s.setWg 0 0 { s.wg 0 0 with sluices := [(1, { depth := 4, allow := 0 })], barriers := [(0, { off := 0 })] }
  let s := s.setInst 0 0 { s.inst 0 0 with admitting := some 0 }
  s.setRound 0 0 { snapshot := [0], pending := [0] }
theorem test_met_admission : ((clausesOf (guarded (2 ^ 8))).head?.map (·.hdr)) = some (2 ^ 24 + 2 ^ 8) ∧
    ¬ ((mgetD ((waitingThread (2 ^ 8)).thread 0 0).wait 0 {}).val ≤ (waitingThread (2 ^ 8)).timeline 0x1000) ∧
    ((waitingThread (2 ^ 4)).barrier 0 0 0).map (·.phase) = some 0 ∧ mget ((waitingThread (2 ^ 4)).thread 0 0).arrivals 0 = some 0 ∧
    (waitingThread 0).sendsOf 0 0 (guarded 0) = [] ∧ (waitingThread (2 ^ 5)).lsqClear 0 0 = true ∧
    ({ waitingThread (2 ^ 5) with reqs := [(0, { agent := .fab 0 0, idx := 0, kind := .load 4 false 0 })] } : State).lsqClear 0 0 = false := by decide +kernel

/-- TokensAndAdmission: that thread is the next of its lane; a free frame is there, its conditions hold, or one fails. -/
theorem test_met_thread_admission : (∀ b ∈ [0, 2 ^ 8], let s := waitingThread b
      (s.inst 0 0).admitting = some 0 ∧ (s.round 0 0).pending.filter (fun t => t % (s.inst 0 0).width = 0) = 0 :: [] ∧ 0 ∉ (s.core 0).entryWait ∧
      s.heldCore 0 = false ∧ (s.gang (s.gangOf 0 0)).frozen = .no ∧ (s.thread 0 0).st = .waiting ∧ 0 < (s.inst 0 0).frames ∧
      (mgetD (s.inst 0 0).ftab (0 * 1024 + 0) {}).slot = none ∧ s.laneOpen 0 0 0 = true) ∧
    (∃ u r, (waitingThread 0).admission 0 0 ((waitingThread 0).block 0 0) = .ok u r) ∧
    (∃ u, (waitingThread (2 ^ 8)).admission 0 0 ((waitingThread (2 ^ 8)).block 0 0) = .held u (.timeline 0x1000 1)) ∧ Keyed (waitingThread 0) 0 :=
  ⟨by decide +kernel, admit_ok (by decide +kernel), admit_held (by decide +kernel), by unfold Keyed; decide +kernel⟩

/-- SchedulingDecisions: an entry of one waiting thread, urgent or not, its block resident or not. -/
def deciding (age : Nat) (there : Bool) : State :=
  let s := lone { st := .waiting, age } .alu 0
  let s := s.setCore 0 { s.core 0 with insts := if there then (s.core 0).insts else [], entries := [(0, { urgentSince := if 48 ≤ age then some 0 else none })] }
  { s with images := [(0, { blocks := [oneBlock .alu 0], places := [{ width := 8, fw := 1, fh := 1 }] })] }
theorem test_met_decisions : (deciding 0 true).choose 0 = some (0, {}, false) ∧ (deciding 48 true).choose 0 = some (0, { urgentSince := some 0 }, true) ∧
    State.reset.choose 0 = none ∧ (deciding 0 true).sweepEntries 0 = deciding 0 true ∧ (deciding 0 true).resident 0 {} = some 0 ∧
    (deciding 0 true).heldCore 0 = false ∧ ((deciding 0 true).core 0).cfgReq = none ∧ Keyed (deciding 0 true) 0 ∧
    (∀ y ∈ ((deciding 0 true).core 0).threads, y.2.yieldPending = false) ∧ skipsOk [0, 0, 0, 0] = true := by
  unfold Keyed; decide +kernel

/-- SchedulingDecisions: an entry whose block has no place, and no instance makes room for it: all eight slots are in use by instances that admit. -/
def roomless : State :=
  let s := deciding 0 false
  s.setCore 0 { s.core 0 with insts := (List.range 8).map (fun i => (i, { blk := 5, admitting := some 0 })) }
theorem test_met_roomless : roomless.choose 0 = some (0, {}, false) ∧ roomless.sweepEntries 0 = roomless ∧ roomless.resident 0 {} = none ∧
    roomless.heldCore 0 = false ∧ (roomless.core 0).cfgReq = none ∧ roomless.instancePlace 0 (roomless.image 0) 0 = none ∧
    roomless.roomSoon 0 (roomless.image 0) 0 = false ∧ roomless.victim 0 false = none := by decide +kernel

/-- SchedulingDecisions: a decision that waits for a configuration, with a place for it where its tile takes its words and where it rejects them, with
all eight slots in use by idle instances, by retiring ones, and by ones that admit. -/
def configuring (insts : Map Inst) : State :=
  let s := deciding 0 false
  s.setCore 0 { s.core 0 with cfgReq := some 5, entries := [(0, { snap := some 5 })], insts }
theorem test_met_configuration_load : ((configuring []).core 0).entries.find? (fun e => e.2.snap = some 5) = some (0, { snap := some 5 }) ∧
    ((configuring []).core 0).cc = .idle ∧ (configuring []).rareWaited 0 = false ∧ (configuring []).heldCore 0 = false ∧
    ((configuring []).instancePlace 0 ((configuring []).image 0) 0).map (fun p => (stageAreas 0 p.1 ((configuring []).image 0) { origins := p.2.1 }).all (fun a => a.2.st != .rejected)) =
      some true ∧
    (let im := { (configuring []).image 0 with crcs := [(0, 1)] }
     let s := { configuring [] with images := [(0, im)] }
     (s.instancePlace 0 im 0).map (fun p => (stageAreas 0 p.1 im { origins := p.2.1 }).any (fun a => a.2.st = .rejected)) = some true) ∧
    (let s := configuring ((List.range 8).map (fun i => (i, { retiring := true })))
     s.instancePlace 0 (s.image 0) 0 = none ∧ s.roomSoon 0 (s.image 0) 0 = true) ∧
    (let s := configuring ((List.range 8).map (fun i => (i, { admitting := some 0 })))
     s.instancePlace 0 (s.image 0) 0 = none ∧ s.roomSoon 0 (s.image 0) 0 = false ∧ s.victim 0 false = none) ∧
    (let s := configuring ((List.range 8).map (fun i => (i, { lru := i })))
     s.instancePlace 0 (s.image 0) 0 = none ∧ s.roomSoon 0 (s.image 0) 0 = false ∧ s.victim 0 false = some 0) ∧
    (placeOf ((configuring []).image 0) 0).fw ≠ 0 ∧ ((configuring []).findOrigin 0 ((configuring []).image 0) 0).isSome = true := by decide +kernel

/-- SchedulingDecisions: an idle control core whose oldest record is an XPATH of a thread whose conditions hold, or not. -/
def rareWaiting (bits : Nat) : State :=
  let s := lone { st := .rare, wait := [(0, { ctx := 0x1000, val := 1 })] } .alu 0
  let s := { s with images := [(0, { blocks := [guarded bits] })] }
  s.setCore 0 { s.core 0 with evq := [1] }
theorem test_met_rare : ∀ b ∈ [0, 2 ^ 8], ((rareWaiting b).core 0).cc = .idle ∧ ((rareWaiting b).core 0).evq = [] ++ 1 :: [] ∧ ((rareWaiting b).core 0).evHeld = [] ∧
    (1 : Rec).toNat % 256 = 1 ∧ (1 : Rec).toNat / 2 ^ 48 % 2 ^ 16 = 0 ∧ ((rareWaiting b).gang ((rareWaiting b).gangOf 0 0)).frozen = .no ∧
    ((rareWaiting b).thread 0 0).st = .rare := by decide +kernel
theorem test_met_rare_verdicts : ∀ v : Nat → State, (∀ b, v b = ((rareWaiting b).setCore 0 { (rareWaiting b).core 0 with
      evq := [], evHeld := [], waited := ((rareWaiting b).core 0).waited.filter (· != 0) }).setWindows 0 ((rareWaiting b).base 0 0)) →
    (∃ u r, (v 0).admission 0 0 ((rareWaiting 0).block 0 0) = .ok u r) ∧
    ∃ u, (v (2 ^ 8)).admission 0 0 ((rareWaiting (2 ^ 8)).block 0 0) = .held u (.timeline 0x1000 1) := by
  intro v h
  rw [h, h]
  exact ⟨admit_ok (by decide +kernel), admit_held (by decide +kernel)⟩

/-- SchedulingDecisions: a round with a matrix clause whose one member has its part, ready to seal, and one that another thread has still to enter. -/
def unsealed (parked : Bool) : State :=
  let s := lone { st := .admitted, pass := some { inst := some 0, branch := some .exit, opnd := [(1, 0), (2, 0x4000000010), (3, 1)] } } .mtx 0x18000000000
  let s := s.setThread 0 0 { s.thread 0 0 with pass := (s.thread 0 0).pass.map (fun p => if parked then { p with two := true } else p) }
  s.setRound 0 0 { snapshot := [0] }
theorem test_met_round_seal : (unsealed false).heldCore 0 = false ∧ ((unsealed false).round 0 0).activeSet = [0] ∧ ((unsealed false).round 0 0).pending = [] ∧
    ((unsealed false).inst 0 0).admitting = none ∧ hasMtx ((unsealed false).block 0 0) = true ∧
    ((unsealed false).roundPass 0 0 0).map (fun p =>
      let s := unsealed false
      let ws := s.block 0 0
      let gives := s.mtxFeeds 0 [0] ws 0 p
      !p.two && !p.violated && s.mtxDecided (.fab 0 0) p && s.outputsDone (.fab 0 0) ws p gives && s.readsBack (.fab 0 0) ws p &&
        (lvwTwice p (lvwFeeds ws p ++ gives)).isNone) = some true ∧ ((unsealed false).gang ((unsealed false).gangOf 0 0)).frozen = .no ∧
    ((unsealed true).roundPass 0 0 0).map (fun p => p.two) = some true ∧
    (let s := (unsealed false).setRound 0 0 { snapshot := [0, 5], pending := [5] }
     s.heldCore 0 = false ∧ (s.round 0 0).activeSet ≠ [] ∧ (s.round 0 0).pending ≠ [] ∧ ((unsealed false).setReg 0x20 1).heldCore 0 = true) := by decide +kernel

/-- SchedulingDecisions: a gang of one core whose seal has an MMAG. -/
def gangSealed : State :=
  let w := (encode (.mmag .always 2 3 0 0 0 false)).elim 0 (fun k => k.word.toNat + 2 ^ 32 * (k.ext.elim 0 (·.toNat)))
  { sealing 0 1 with images := [(0, { blocks := [oneBlock .mtx w] })] }
theorem test_met_gang_seal : ((gangSealed.gang 0).members.map (fun m => gangSealed.sealAt m.core)) =
      [{ core := 0, members := [0], img := 0, blk := 0, consts := [], wg := 0 }].map some ∧
    mmagsOf (gangSealed.sealItems { core := 0, members := [0], img := 0, blk := 0, consts := [], wg := 0 }) = [0] ∧
    gangSealed.heldCore 0 = false ∧ (gangSealed.gang 0).members = [{ core := 0, base := 0 }] ∧
    gangSealed.sealFails { core := 0, members := [0], img := 0, blk := 0, consts := [], wg := 0 } (fun d => gangSealed.mtx d) (gangSealed.mtx 0)
      (gangSealed.sealItems { core := 0, members := [0], img := 0, blk := 0, consts := [], wg := 0 }) = none := by decide +kernel

/-! Two signed images of one block that holds an EXIT, built from the tables of R85 to R123; their signatures are by the keys that
stand beside them. -/
def userImage : List Byte :=
  toLE 0x5000000040000000000000200000000014E444B49 32 ++
  toLE 0x72E78E5F65AF45E9178C96718C3C02433512DCF6D0D2249240CD717C91919894 32 ++
  toLE 0x56D0F5A55263C782186039D90E73DF07E59B03F64EA1D0ACBAE71ABCA1171A87 32 ++
  toLE 0x8036FF0C4C6F4871AA249B50F260DFB7CAC18AB3F8402FCA6435428482CBD22D 32 ++
  toLE 0xCAC18AB3F8402FCA6435428482CBD22D56D0F5A55263C782186039D90E73DF07 32 ++
  toLE 0x8036FF0C4C6F4871AA249B50F260DFB7 32 ++
  toLE 0 32 ++
  toLE 0 32 ++
  toLE 0x2000000170000000010000000200000020000001500000000100000001 32 ++
  toLE 0x8000001A000000001000000040000000C000001900000000100000003 32 ++
  toLE 0x1010001000000010000000C000001B0000000010000000B 32 ++
  toLE 0xB7010000000000180000000800000000000000000000000000000100 32 ++
  toLE 0x101010108000000C15000000000000000000000 32 ++
  toLE 0x494FB91B000000000000000000000000000000000000000000000000 32 ++
  toLE 0 32 ++
  toLE 0 32
def userImageKey : Nat × Nat :=
  (0x58FD6D089989764BF6AC068ABAFE88AA1A6856A09F3BCAFB0C25A15B5E3ADE47F33B7459A71F85490C3FDD4336B3241D,
   0x5BC0BFE58DCCE5DF3202E24633884E7BB19D87A36883A543CBF2C9E57CB4852D7E08010E131259ECC2F20972B43EF70D)
def privImage : List Byte :=
  toLE 0x2000000000000000000000200000100014E444B49 32 ++
  toLE 0x87458746FFA2566845AA250B4F3969D505A5A84C8C58004FF442C901C057F65E 32 ++
  toLE 0x2C086B489A41A38EC0185A60FD903331E1BFD12B22FB656FA7189E55B1CF579D 32 ++
  toLE 0x5D1A9F6E41C443A33E6EBC3FB3E8746B67650AE191D796B1D7FDF6289401A395 32 ++
  toLE 0x87458746FFA2566845AA250B4F3969D505A5A84C8C58004FF442C901C057F65E 32 ++
  toLE 0xE1BFD12B22FB656FA7189E55B1CF579D 32 ++
  toLE 0 32 ++
  toLE 0 32 ++
  toLE 0x2000000170000000010000000200000020000001500000000100000001 32 ++
  toLE 0 32 ++
  toLE 0x10100010000000100000000000000000000000000000000 32 ++
  toLE 0xB7010000000000180000000800000000000000000000000000000100 32 ++
  toLE 0x8000000C15000000000000000000000 32 ++
  toLE 0 32 ++
  toLE 0 32 ++
  toLE 0 32
def privImageKey : Nat × Nat :=
  (0x1BF34BFFB597ECB5CD525DACF3CC89F9B2EB03C84274E1A71358ED373254EDF82619A22701013B0FAC0E7C10DE3BFA05,
   0x8B26B2415ADDB149C81D7C802219957F617CD1E4AEFBB9ACD85F84EA00A77635394FF263A6C9B1DE4DBEAC21888FE84A)

/-- ControlJobsAndImages: the privileged image is accepted; the other is no image for a control core. -/
theorem test_images_accepted :
    ((acceptImage [(0, privImageKey)] true privImage).toOption.map (fun im => (im.priv, im.blocks.length))) = some (true, 1) ∧
    headerReason [(0, privImageKey)] userImage true = some .privreq := by
  decide +kernel

theorem sup_ok {x : SupRead} {bs : List Byte} (h : (match x with | .ok y => decide (y = bs) | _ => false) = true) : x = .ok bs := by
  cases x <;> simp_all
theorem at_ok {x : SupAt} {a : Nat} (h : (match x with | .ok y => decide (y = a) | _ => false) = true) : x = .ok a := by
  cases x <;> simp_all
theorem at_bad {x : SupAt} (h : (match x with | .bad => true | _ => false) = true) : x = .bad := by
  cases x <;> simp_all

/-- A descriptor of that many gangs of one thread at the head of queue 0, with its image in device memory. -/
def descriptor (gangs : Nat) : List Byte :=
  toLE (0x20000 + gangs * 2 ^ 128 + 2 ^ 192 + 2 ^ 200 + 2 ^ 208 + 2 ^ 240 + 0x7000 * 2 ^ 256 + 0x40000 * 2 ^ 448) 64
/-- The bytes that are not zero, from an address on. -/
def cells (a : Nat) (bs : List Byte) : Memory := bs.zipIdx.filterMap (fun e => if e.1 = 0 then none else some (a + e.2, e.1))
def queued (gangs : Nat) : State :=
  { State.reset with
    regs := [(lqReg 0 0, 0x10000), (lqReg 0 8, 2 ^ 31), (lqReg 0 0x18, 1), (dsReg 0 0x450, 0x50000000)]
    dies := [(0, { tlb := [{ tenant := 0, va := 0, lg := 21, pa := 0, r := true, w := true, a := true, lease := 0, scratch := false }] })]
    keys := [(4, userImageKey)]
    mem := cells 0x10000 (descriptor gangs) ++ cells 0x20000 userImage }
theorem queued_desc : descOf (readBytes (queued 1).mem 0x10000 64) =
    { image := 0x20000, gangs := 1, w := 1, h := 1, n := 1, dieMask := 1, timeline := 0x7000, completion := 0x40000 } := by decide +kernel

/-- LaunchesAreDispatched: the place of a record, and one that has none; the queue's memory is in its canonical form. -/
theorem test_met_queue : (queued 1).memoryOk ∧ (queued 1).reg (lqReg 0 8) / 2 ^ 4 % 64 = 0 := by
  unfold State.memoryOk; decide +kernel
theorem test_met_record : placed (queued 1) { completion := 0x40000 } (some 0x40000) ∧ placed (queued 1) { completion := 1 } none :=
  ⟨.inl ⟨_, at_ok (by decide +kernel), rfl⟩, .inr ⟨at_bad (by decide +kernel), rfl⟩⟩

theorem accepts {x : Except Rej Image} (p : Image → Bool) (h : (match x with | .ok im => p im | .error _ => false) = true) :
    ∃ im, x = .ok im ∧ p im = true := by
  cases x with
  | ok im => exact ⟨im, rfl, h⟩
  | error _ => simp at h

/-- LaunchesAreDispatched: the descriptor at the head with one gang runs its image; without gangs it is empty, and with too many out of range. -/
def oneGang : Desc := { image := 0x20000, gangs := 1, w := 1, h := 1, n := 1, dieMask := 1, timeline := 0x7000, completion := 0x40000 }
theorem test_met_verdicts : AtHead (queued 1) 0 oneGang ∧ oneGang.stepOneBad = false ∧ oneGang.dieMask / 2 ^ oneGang.die % 2 = 1 ∧
    (∃ im, Verdict (queued 1) oneGang (.ok im)) ∧ Verdict (queued 0) { oneGang with gangs := 0 } (.error { status := .empty }) ∧
    Verdict (queued (2 ^ 32)) { oneGang with gangs := 2 ^ 32 } (.error { status := .range, extra := 5 }) := by
  have alone : ∀ p, p < 64 → (queued 1).headReady p = true → p = 0 := by decide +kernel
  refine ⟨⟨by decide, rfl, by decide +kernel, by decide +kernel, by decide +kernel, by decide +kernel, by decide +kernel, by decide +kernel, fun p hp hr _ => ?_⟩,
    by decide +kernel, by decide +kernel, ?_, .empty rfl, .many (by decide)⟩
  · rw [alone p hp hr]
    exact .inr ⟨rfl, Nat.le_refl _⟩
  obtain ⟨im, hi, hp⟩ := accepts (x := acceptImage [(4, userImageKey)] false userImage)
    (fun im => !im.priv && !(queued 1).stepSevenBad im oneGang && decide (im.argBytes = 0) && decide (im.culverts = []) && decide (im.datas = []) &&
      !(queued 1).launchHeld im oneGang)
    (by decide +kernel)
  simp only [Bool.and_eq_true, Bool.not_eq_true', decide_eq_true_eq] at hp
  obtain ⟨⟨⟨⟨⟨hpriv, hseven⟩, hargs⟩, hcul⟩, hdat⟩, hheld⟩ := hp
  refine ⟨im, .runs (userImage.take 256) im [] (by decide) (by decide) (sup_ok (by decide +kernel)) (by decide +kernel)
    (.inr ⟨by decide +kernel, userImage, sup_ok (by decide +kernel), hi, .inl rfl⟩) hpriv hseven (by decide) ?_ hcul hdat hheld⟩
  rw [hargs]
  exact sup_ok (by decide +kernel)

/-- LaunchesAreDispatched: pushes to an open queue, to a closed one, to a full one, and from an address without a page. -/
theorem test_met_pushes : (let s := (queued 1).setReg 0x010 1
      s.reg (lqReg 0 8) / 2 ^ 31 % 2 = 1 ∧ s.reg 0x010 % 2 = 1 ∧ s.reg (lqReg 0 0x18) % 2 ^ 13 + mgetD s.lqRsv 0 0 < 2 ^ (min (s.reg (lqReg 0 8) % 16) 8 + 4) ∧
      s.lineOpen 0 ((s.reg (lqReg 0 0) + 64 * 1) / 128) = true ∧ s.reg (lqReg 0 0) % 64 = 0 ∧ s.pushes = []) ∧
    State.reset.reg (lqReg 0 8) / 2 ^ 31 % 2 = 0 ∧
    (let s := ((queued 1).setReg 0x010 1).setReg (lqReg 0 0x18) 16
     2 ^ (min (s.reg (lqReg 0 8) % 16) 8 + 4) ≤ s.reg (lqReg 0 0x18) % 2 ^ 13 + mgetD s.lqRsv 0 0) := by decide +kernel
theorem test_met_push_reads : (queued 1).supRead 0 0 0x10000 64 = .ok (descriptor 1) ∧ (queued 1).recordAt { completion := 0x400000, timeline := 0x7000 } ≠ .bad ∧
    (descriptor 1).length = 64 :=
  ⟨sup_ok (by decide +kernel), (fun h => by
    have : (match (queued 1).recordAt { completion := 0x400000, timeline := 0x7000 } with | .bad => true | _ => false) = false := by decide +kernel
    rw [h] at this; cases this), by decide +kernel⟩

/-- TasksMatchAndLaunchesEnd: tokens for a task that waits and for a new one, a second descriptor of a task alone and before a token, a full store, an
entry that has fired with and without an error. -/
def matching (t : Task) (k : TaskTok) : State :=
  { queued 1 with tasks := [(0, (7, t))], dies := [(0, { (queued 1).die 0 with taskq := [k] })] }
theorem test_met_tasks :
    (let s := matching {} { id := 7, slot := 2, val := 5, err := false }
     (∀ e ∈ s.tasks, e.2.2.desc = none) ∧ (s.die 0).taskq = { id := 7, slot := 2, val := 5, err := false } :: [] ∧
       s.tasks.find? (fun e => e.2.1 = 7) = some (0, 7, {}) ∧ s.hostToks = [] ∧ s.timesSeen 0 s.hostTimes = true) ∧
    (let s := { queued 1 with hostToks := [({ id := 7, slot := 2, val := 5, err := false }, [(0, 9)])] }
     s.timesSeen 0 [(0, 9)] = false ∧ s.timesSeen 0 [(0, 0)] = true) ∧
    (let s := matching {} { id := 8, slot := 2, val := 5, err := false }
     (∀ e ∈ s.tasks, e.2.1 ≠ 8) ∧ mget s.tasks 1 = none ∧ ∀ j, j < 1 → mget s.tasks j ≠ none) ∧
    (let t : Task := { desc := some (oneGang, 0), expected := 1 }
     let k : TaskTok := { id := 7, slot := 0, val := 0, err := false, desc := some (oneGang, 0) }
     let s := matching t k
     let u := s.setDie 0 { s.die 0 with taskq := [k, { id := 7, slot := 2, val := 5, err := false }] }
     (s.die 0).taskq = [k] ∧ s.tasks.find? (fun e => e.2.1 = 7) = some (0, 7, t) ∧ s.tasks.length = 1 ∧ k.desc ≠ none ∧ t.desc ≠ none ∧
       (u.die 0).taskq = [k] ++ { id := 7, slot := 2, val := 5, err := false } :: []) ∧
    (∀ err ∈ [true, false], let t : Task := { desc := some (oneGang, 0), error := err }
     let s := matching t { id := 7, slot := 2, val := 5, err := false }
     s.tasks = [] ++ (0, 7, t) :: [] ∧ (t.error = true ∨ ∀ j, j < 8 → t.expected / 2 ^ j % 2 = 1 → t.filled / 2 ^ j % 2 = 1) ∧
       s.reg (dsReg oneGang.die 0x18) % 2 = 1 ∧ oneGang.tval = false) := by decide +kernel
theorem test_met_unfired : ∀ e ∈ (matching {} { id := 7, slot := 2, val := 5, err := false }).tasks,
    (matching {} { id := 7, slot := 2, val := 5, err := false }).fireTask e.1 = matching {} { id := 7, slot := 2, val := 5, err := false } := by
  intro e h
  have : e.1 = 0 := by
    simp [matching] at h
    rw [h]
  rw [this]
  rfl
theorem test_met_full_store : ∀ j, j < 4096 → mget ((List.range 4096).map (fun i => (i, (9, ({} : Task))))) j ≠ none := by
  intro j hj h
  have key : ∀ (n k : Nat), k < n → ∀ b, mget ((List.range' b n).map (fun i => (i, (9, ({} : Task))))) (b + k) ≠ none := by
    intro n
    induction n with
    | zero => intro k hk; omega
    | succ n ih =>
      intro k hk b
      rw [List.range'_succ, List.map_cons]
      rcases k with _ | k
      · simp [mget]
      · have := ih k (by omega) (b + 1)
        simp only [mget]
        rw [if_neg (by simp), show b + (k + 1) = b + 1 + k by omega]
        exact this
  rw [List.range_eq_range'] at h
  exact key 4096 j hj 0 (by simpa using h)

/-- TasksMatchAndLaunchesEnd: a launch all of whose gangs have retired, without a fault and with one; one that still counts a reduction. -/
def ending (l : Launch) : State := { queued 1 with mem := [], launches := [(3, { l with desc := oneGang, retiredBy := [(0, 1)], retired := 1 })] }
theorem test_met_launch_end :
    (∀ l ∈ [({} : Launch), { faultCount := 1, faults := [9] }, { nrOut := [(0, 1)] }], let s := ending l
     s.gangs = [] ∧ (mget s.launches 3).map (fun x => (x.desc, x.retiredBy, x.remote)) = some (oneGang, [(0, 1)], []) ∧
       oneGang.gangs ≤ mgetD [(0, 1)] 0 0 ∧ (s.image 0).culverts = [] ∧ (s.image 0).pipe = false ∧ s.memoryOk) ∧
    (∀ d, d < 8 → (ending {}).passed d 0 [] = true) ∧ (ending {}).streamsEnded 3 = true ∧ (ending {}).storesOut 3 = false ∧
    (mget (ending {}).launches 3).map (fun l => (ending {}).launchReleased 3 l) = some true := by
  unfold State.memoryOk; decide +kernel

/-- LaunchesAreDispatched: the first token of an empty store, and nothing before a token of the host. -/
theorem test_met_launch_events : (let s := { matching {} { id := 7, slot := 2, val := 5, err := false } with tasks := [] }
     s.tasks = [] ∧ s.hostToks = [] ∧ (s.die 0).taskq = { id := 7, slot := 2, val := 5, err := false } :: []) ∧
    State.reset.hostToks = [] ∧ State.reset.timesSeen 0 State.reset.hostTimes = true := by decide +kernel
theorem test_met_end_places : (ending {}).recordAt oneGang = .ok 0x40000 ∧ (ending {}).supAt oneGang.die oneGang.tenant (oneGang.completion + 32) 32 .write = .ok 0x40020 :=
  ⟨at_ok (by decide +kernel), at_ok (by decide +kernel)⟩

/-- GangsArePlacedAndRestored: a launch whose next gang waits, with room on die 0, on no die, and behind a squashed gang. -/
def dispatchedGang (up : Nat) : State :=
  { State.reset with
    images := [(0, { maxN := 8, maxW := 1, maxH := 1, roles := [{ size := 0, entry := 0 }], blocks := [oneBlock .alu 0] })]
    launches := [(0, { desc := { oneGang with n := 8 } })], dispatched := [0]
    regs := (List.range 8).map (fun d => (dsReg d 0x18, up)) }
def firstCand : Cand := { seq := 0, part := 0, mask := 1, w := 1, h := 1, prio := 0 }
theorem test_met_placement : (dispatchedGang 1).gangs = [] ∧ (dispatchedGang 1).candidates 0 = [firstCand] ∧ firstCand.saved = none ∧
    (dispatchedGang 1).findRect 0 1 1 ((dispatchedGang 1).needs firstCand) = some (0, 0) ∧ firstCand.mask / 2 ^ 0 % 2 = 1 ∧
    (dispatchedGang 1).reg (dsReg 0 0x18) % 2 = 1 ∧ (∀ e, e < 8 → (dispatchedGang 0).reg (dsReg e 0x18) % 2 ≠ 1) := by decide +kernel
/-- GangsArePlacedAndRestored: wherever the search begins, that gang's slices fit. -/
theorem test_met_slices : (dispatchedGang 1).slicesFit 0 (8 * roundUp (384 + 0) 128) 1 = true := by
  have h : (fitBelow ((dispatchedGang 1).takenMemory 0) (dieBase 0) 3072 128 (((dispatchedGang 1).takenMemory 0).length + 1)
      (dieBase 0 + devBytes)).isSome = true := by decide +kernel
  obtain ⟨b, hb⟩ := Option.isSome_iff_exists.mp h
  show (match (dispatchedGang 1).takeMemory 0 3072 128 with | some r => State.slicesFit r.1 0 3072 0 | none => false) = true
  simp only [State.takeMemory, hb]
  generalize fitBelow _ _ _ _ _ _ = x
  cases x <;> rfl
/-- GangsArePlacedAndRestored: a gang that fits nowhere, with a smaller one behind it. -/
def behindGang : State :=
  { dispatchedGang 1 with launches := [(0, { desc := { oneGang with n := 8, w := 8, h := 8 } }), (1, { desc := { oneGang with n := 8 } })], dispatched := [0, 1] }
theorem test_met_overtaking : behindGang.candidates 0 = [{ seq := 0, part := 0, mask := 1, w := 8, h := 8, prio := 0 },
      { seq := 1, part := 0, mask := 1, w := 1, h := 1, prio := 0 }] ∧
    (∀ e, e < 8 → behindGang.findRect e 8 8 (behindGang.needs { seq := 0, part := 0, mask := 1, w := 8, h := 8, prio := 0 }) = none) ∧
    behindGang.findRect 0 1 1 (behindGang.needs { seq := 1, part := 0, mask := 1, w := 1, h := 1, prio := 0 }) = some (0, 0) ∧
    mgetD (behindGang.launch 0).overtaken 0 0 = 0 := by decide +kernel
/-- GangsArePlacedAndRestored: a gang of a polder of die 0 behind a gang whose mask excludes it. -/
def polderGang : State :=
  let im : Image := { maxN := 8, maxW := 1, maxH := 1, roles := [{ size := 0, entry := 0 }], blocks := [oneBlock .alu 0] }
  { dispatchedGang 1 with
    images := [(0, im), (1, { im with pipe := true, polders := [{ id := 0, die := 0, first := 0, count := 1, w := 1, h := 1 }] })]
    launches := [(0, { desc := { oneGang with n := 8, dieMask := 2 } }), (1, { desc := { oneGang with n := 8 }, img := 1 })], dispatched := [0, 1] }
theorem test_met_polder : polderGang.candidates 0 = [{ seq := 0, part := 0, mask := 2, w := 1, h := 1, prio := 0 },
      { seq := 1, part := 0, mask := 1, w := 1, h := 1, prio := 0 }] ∧
    polderGang.ofPolder { seq := 1, part := 0, mask := 1, w := 1, h := 1, prio := 0 } = true := by decide +kernel
def restoring : State :=
  let w : SavedWg := { from_ := { core := 0, base := 0 }, wg := { n := 8 }, threads := [(0, { st := .waiting, regs := [(3, 7)] })], scratch := [], scratchBad := [],
                       recs := [], tiles := [], images := [] }
  { dispatchedGang 1 with launches := [(0, { desc := { oneGang with n := 8 }, placed := [(0, 1)] })], gangs := [(0, { seq := 0, die := 0, frozen := .squashing })]
                          dies := [(0, { saved := [{ gang := 0, bytes := 0, wgs := [w], cmds := [] }] })] }
theorem test_met_restore : ∀ c ∈ restoring.candidates 0, (c.saved.map (fun x => (x.1, x.2.gang, x.2.wgs.length))) = some (0, 0, 1) ∧
    c.w * c.h = 1 ∧ restoring.firstDie c = some 0 ∧ restoring.findRect 0 c.w c.h (restoring.needs c) = some (0, 0) ∧
    (∀ w ∈ ((c.saved.map (·.2.wgs)).getD []), w.wg.n = (restoring.launch c.seq).desc.n ∧ ∀ e ∈ w.threads, e.1 < w.wg.n) := by decide +kernel
theorem test_met_restore_one : (restoring.candidates 0).length = 1 ∧ restoring.gangs.map (·.1) = [0] ∧ (restoring.gang 0).members = [] := by decide +kernel

/-- FreezesAndPreemption: a running gang, one being squashed that is ready to be saved, one being drained, a drained one, a held one. -/
def frozenGang (f : FrozenKind) : State := (small .alu 0 open0).setGang 0 { members := [{ core := 0, base := 0 }], frozen := f }
theorem test_met_freezes : (∃ m ∈ ((frozenGang .no).gang 0).members, m.core = 0) ∧ ((frozenGang .no).setReg (kcReg 0 0x10) 5).gangHeld 0 = false ∧
    ((frozenGang .no).setReg 0x20 1).gangHeld 0 = true ∧ ((frozenGang .squashing).gang 0).frozen = .squashing ∧
    ((frozenGang .squashing).gang 0).members ≠ [] ∧ (frozenGang .squashing).gangHeld 0 = false ∧ ((frozenGang .squashing).mmagSeals 0).isEmpty = true ∧
    ((frozenGang .squashing).dropMmags 0).squashQuiet 0 = true ∧ ((frozenGang .squashing).dropMmags 0).squashReleased 0 = true ∧
    (((frozenGang .squashing).setThread 0 0 { horizon := 5 }).dropMmags 0).squashReleased 0 = false := by decide +kernel
theorem test_met_drains : ((frozenGang .draining).gang 0).frozen = .draining ∧
    ((frozenGang .drained).gang 0).frozen = .drained ∧ (frozenGang .draining).gangHeld 0 = false ∧ (∀ t ∈ ((frozenGang .drained).core 0).entryWait, t ≠ t) ∧
    (∀ c, c < 128 → (frozenGang .no).reg (kcReg c 0x10) % 2 = 0) ∧
    (((frozenGang .drained).setReg (kcReg 0 0x10) 15).gang 0).members = [{ core := 0, base := 0 }] ∧
    ((frozenGang .drained).setReg (kcReg 0 0x10) 15).reg (kcReg 0 0x10) / 2 ^ 3 % 2 = 1 := by decide +kernel

/-- FreezesAndPreemption: a round that waits at an MMAG in a gang whose other workgroup has not sealed. -/
def squashedSeal : State := gangSealed.setGang 0 { members := [{ core := 0, base := 0 }, { core := 1, base := 0 }], frozen := .squashing }
theorem test_met_waiting_seal : (squashedSeal.mmagSeals 0).map (fun e => (e.1.core, e.2.1.members, e.2.2)) = [(0, [0], [0])] ∧
    (squashedSeal.thread 0 0).st ≠ .parked ∧ squashedSeal.gangHeld 0 = false := by decide +kernel
theorem test_met_context_room : let s := frozenGang .squashing
    let u := s.setReg (dsReg 0 0x488) (s.contextNeed 0)
    (0 : Nat) % 4096 = 0 ∧ 0 + s.contextNeed 0 ≤ u.reg (dsReg 0 0x488) ∧ (∀ r ∈ u.contextTaken 0, ¬ 0 < r.2) ∧
      (0 < s.contextNeed 0 → ∀ o, ¬ o + s.contextNeed 0 ≤ s.reg (dsReg 0 0x488)) := by
  have r : ∀ (s : State) (n : Nat), (s.setReg (dsReg 0 0x488) n).reg (dsReg 0 0x488) = n := by
    intro s n
    simp [State.reg, State.setReg]
  have z : (frozenGang .squashing).reg (dsReg 0 0x488) = 0 := by decide +kernel
  have t : ∀ s : State, (s.die 0).saved = [] → (∀ g ∈ s.gangs, g.2.drainAt = none) → s.contextTaken 0 = [] := by
    intro s h1 h2
    simp only [State.contextTaken, h1, List.map_nil, List.nil_append]
    exact List.filterMap_eq_nil_iff.mpr (fun a ha => by simp [h2 a (List.mem_of_mem_filter ha)])
  have saved : ((frozenGang .squashing).die 0).saved = [] := by decide +kernel
  have drains : ∀ g ∈ (frozenGang .squashing).gangs, g.2.drainAt = none := by decide +kernel
  refine ⟨rfl, ?_, ?_, fun h o => ?_⟩
  · rw [r]; omega
  · intro e he
    rw [t ((frozenGang .squashing).setReg _ _) saved drains] at he
    simp at he
  · rw [z]; omega

/-- DikewatchAndDieReset: a gang below its limit, and one at it. -/
theorem test_met_dikewatch : (frozenGang .no).reg (kcReg 0 0x20) = 0x1000000 ∧
    (((frozenGang .no).setGang 0 { members := [{ core := 0, base := 0 }], dike := 40 * 0x1000000 }).gang 0).dike = 40 * 0x1000000 ∧
    ((frozenGang .no).gang 0).dike < 40 * 0x1000000 ∧ ((frozenGang .no).gang 0).members = { core := 0, base := 0 } :: [] := by decide +kernel

/-- ControlJobsAndImages: an idle control core with an image and a job, one with a waiting record, one whose entry is not in its image. -/
def jobWaiting (entry : Nat) (evq : List Rec) : State :=
  { State.reset with images := [(0, { priv := true, blocks := [[0]] })], dies := [(0, { ccImage := some 0 })]
                     cores := [(0, { evq })], regs := [(kcReg 0 0x4C0, 0x201), (kcReg 0 0x4C8, entry)] }
theorem test_met_jobs : ((jobWaiting 0 []).core 0).cc = .idle ∧ ((jobWaiting 0 []).die 0).ccImage = some 0 ∧ ((jobWaiting 0 []).die 0).ccNext = none ∧
    (jobWaiting 0 []).rareWaited 0 = false ∧
    (jobWaiting 0 []).reg (kcReg 0 0x4C0) % 2 = 1 ∧ (jobWaiting 0 []).reg (kcReg 0 0x4C8) < ((jobWaiting 0 []).image 0).blocks.length ∧
    ((jobWaiting 1 []).image 0).blocks.length ≤ (jobWaiting 1 []).reg (kcReg 0 0x4C8) ∧ ((jobWaiting 0 [2]).core 0).evq.map (fun r => r.toNat % 256) = [2] ∧
    State.reset.reg (kcReg 0 0x4C0) % 2 = 0 := by decide +kernel
theorem ctl_ok {x : CtlRead} {bs : List Byte} (h : (match x with | .ok y => decide (y = bs) | _ => false) = true) : x = .ok bs := by
  cases x <;> simp_all
theorem test_met_replacement : State.reset.reg (dsReg 0 0x4D8) % 2 = 0 ∧ State.reset.reg (dsReg 0 0x18) % 2 = 1 ∧
    (State.reset.setReg (dsReg 0 0x18) 0).reg (dsReg 0 0x18) % 2 = 0 ∧ (State.reset.setReg (dsReg 0 0x4D8) 1).reg (dsReg 0 0x4D8) % 2 = 1 ∧
    State.reset.ctlRead 0x1000 256 = .ok (List.replicate 256 0) ∧ headerReason State.reset.keys (List.replicate 256 0) true = some .imgmagic ∧
    (State.reset.setDie 0 { ccNext := some 0 }).die 0 = { ccNext := some 0 } ∧ (∀ i, i < 16 → (State.reset.core i).cc ≠ .job) :=
  ⟨by decide +kernel, by decide +kernel, by decide +kernel, by decide +kernel, ctl_ok (by decide +kernel), by decide +kernel, by decide +kernel, by decide +kernel⟩
theorem accepted_priv : ∃ im, acceptImage [(0, privImageKey)] true privImage = .ok im ∧ im.priv = true := by
  have h := test_images_accepted.1
  cases e : acceptImage [(0, privImageKey)] true privImage with
  | ok im => rw [e] at h; exact ⟨im, rfl, by simpa [Except.toOption] using congrArg (Option.map Prod.fst) h⟩
  | error _ => rw [e] at h; simp [Except.toOption] at h
theorem test_met_accepted_read : ∃ im, acceptImage [(0, privImageKey)] true privImage = .ok im ∧ isKept State.reset im :=
  accepted_priv.imp (fun _ h => ⟨h.1, .inl rfl⟩)
def imaged : State := { State.reset with mem := cells 0x1000 privImage, keys := [(0, privImageKey)] }
theorem test_met_replacing : imaged.ctlRead 0x1000 256 = .ok (privImage.take 256) ∧ headerReason imaged.keys (privImage.take 256) true = none ∧
    imaged.accepted (headerOf (privImage.take 256)) = none ∧ imaged.ctlRead 0x1000 (headerOf (privImage.take 256)).len = .ok privImage ∧
    ∃ code sub, imaged.ctlRead (2 ^ 56) 256 = .fault code sub :=
  ⟨ctl_ok (by decide +kernel), by decide +kernel, by decide +kernel, ctl_ok (by decide +kernel), _, _, rfl⟩

theorem rejects {x : Except Rej Image} (h : (match x with | .ok _ => true | .error _ => false) = false) : ∀ im, x ≠ .ok im := by
  intro im e
  subst e
  cases h

/-- ControlJobsAndImages: power-on with a privileged image for the supervisors and for the control cores, signed under key slot 0, and with words that
are no image; the boot scrub after it. -/
theorem test_met_power_on : (∃ im, acceptImage [(0, privImageKey)] true ((wordsOf privImage).flatMap (fun w => toLE w.toNat 4)) = .ok im ∧ im.priv = true) ∧
    (∀ im, acceptImage [(0, privImageKey)] true (([] : List W32).flatMap (fun w => toLE w.toNat 4)) ≠ .ok im) ∧
    (State.reset.setReg 0x5048 1).reg 0x5048 % 2 = 1 ∧ (State.reset.setReg 0x5048 1).reg 0x010 % 2 = 0 :=
  ⟨by rw [show (wordsOf privImage).flatMap (fun w => toLE w.toNat 4) = privImage by decide +kernel]; exact accepted_priv,
   rejects (by decide +kernel), by decide +kernel, by decide +kernel⟩

/-- ClocksAndCircuits: a time of die 1 five ticks after the epoch at the rate −1; stamps that differ by 9 and by 8 ticks, of a pair in fallback and of one
that is not; a good table, one under change and one with a nonzero zero field. -/
theorem test_met_convert : (0 : Nat) ≠ 1 ∧ (-2 ^ 63 : Int) ≤ 5 ∧ (5 : Int) < 2 ^ 63 ∧
    (5 - (((5 : Nat) : Int) - State.reset.reg (clkReg 0 1 0x10))) % 2 ^ 64 = 0 ∧ (-2 ^ 31 : Int) ≤ -1 ∧ (-1 : Int) < 2 ^ 31 ∧
    ((-1 : Int) - (State.reset.setReg (clkReg 0 1 8) 0xFFFFFFFF).reg (clkReg 0 1 8)) % 2 ^ 32 = 0 ∧
    (State.reset.setReg (clkReg 0 1 8) 0xFFFFFFFF).reg (clkReg 0 1 0x10) = State.reset.reg (clkReg 0 1 0x10) := by decide +kernel
theorem test_met_stamps : ((9 : Int) - ((State.reset.convert 0 1 9 : Nat) - ((State.reset.die 0).clk : Int))) % 2 ^ 64 = 0 ∧
    ((8 : Int) - ((State.reset.convert 0 1 8 : Nat) - ((State.reset.die 0).clk : Int))) % 2 ^ 64 = 0 ∧ 8 < (9 : Int).natAbs ∧ ¬ 8 < (8 : Int).natAbs ∧
    State.reset.fallback 0 1 = true ∧ (State.reset.setReg (clkReg 0 1 0x18) 0).fallback 0 1 = false ∧ mgetD (State.reset.die 0).good 1 0 = 0 ∧
    mgetD ((State.reset.setDie 0 { good := [(1, 1)] }).die 0).good 1 0 = 1 := by decide +kernel
theorem byte_step (c : Prop) [Decidable c] (n p q : Nat) : (if c then n + p * q else n) = n + p * (if c then q else 0) := by
  split <;> simp
/-- Byte b of eight wavelengths of the boot table. -/
theorem conn_byte (d j : Nat) : ∀ b, b < 8 → connReset d j / 2 ^ (8 * b) % 256 = if 8 * j + b < 1022 then 8 + (d + 1 + (8 * j + b) / 146) % 8 else 0 := by
  have small : ∀ b, (if 8 * j + b < 1022 then 8 + (d + 1 + (8 * j + b) / 146) % 8 else 0) < 256 := fun b => by split <;> omega
  generalize hx : (fun b => if 8 * j + b < 1022 then 8 + (d + 1 + (8 * j + b) / 146) % 8 else 0) = x
  have e : ∀ b, (if 8 * j + b < 1022 then 8 + (d + 1 + (8 * j + b) / 146) % 8 else 0) = x b := fun b => by rw [← hx]
  simp only [e] at small ⊢
  have sum : connReset d j = x 0 + 2 ^ 8 * x 1 + 2 ^ 16 * x 2 + 2 ^ 24 * x 3 + 2 ^ 32 * x 4 + 2 ^ 40 * x 5 + 2 ^ 48 * x 6 + 2 ^ 56 * x 7 := by
    simp only [connReset, byte_step, e, show List.range 8 = [0, 1, 2, 3, 4, 5, 6, 7] from rfl, List.foldl_cons, List.foldl_nil, Nat.mul_zero, Nat.pow_zero, Nat.one_mul,
      Nat.zero_add, Nat.reduceMul]
  rw [sum]
  have h0 := small 0
  have h1 := small 1
  have h2 := small 2
  have h3 := small 3
  have h4 := small 4
  have h5 := small 5
  have h6 := small 6
  have h7 := small 7
  intro b hb
  rcases (by omega : b = 0 ∨ b = 1 ∨ b = 2 ∨ b = 3 ∨ b = 4 ∨ b = 5 ∨ b = 6 ∨ b = 7) with h | h | h | h | h | h | h | h <;> subst h <;> omega
theorem test_met_boot_table : ∀ d, d < 8 → ∀ w, w < 1024 → State.reset.reg (0x3000000 + 0x400 * d + 8 * (w / 8)) / 2 ^ (8 * (w % 8)) % 256 =
    if w < 1022 then 8 + (d + 1 + w / 146) % 8 else 0 := by
  intro d hd w hw
  have r : State.reset.reg (0x3000000 + 0x400 * d + 8 * (w / 8)) = connReset d (w / 8) := by
    have h1 : (0x3000000 + 0x400 * d + 8 * (w / 8) - 0x3000000) / 0x400 = d := by omega
    have h2 : (0x3000000 + 0x400 * d + 8 * (w / 8)) % 0x400 / 8 = w / 8 := by omega
    show regReset _ = _
    rw [regReset, if_neg (by omega), if_neg (by omega), if_neg (by omega), if_pos (by omega), h1, h2]
  rw [r, conn_byte d (w / 8) (w % 8) (by omega), show 8 * (w / 8) + w % 8 = w by omega]
theorem test_met_good_table : State.reset.reg 0x3002008 % 2 = 0 ∧ ¬ ∃ w, w < 1024 ∧
    ((∃ d, d < 8 ∧ (16 ≤ State.reset.reg (0x3000000 + 0x400 * d + 8 * (w / 8)) / 2 ^ (8 * (w % 8)) % 256 ∨
        State.reset.reg (0x3000000 + 0x400 * d + 8 * (w / 8)) / 2 ^ (8 * (w % 8)) % 256 = 8 + d)) ∨
      ∃ t a b, t < 8 ∧ a < b ∧ b < 8 ∧ State.reset.reg (0x3000000 + 0x400 * a + 8 * (w / 8)) / 2 ^ (8 * (w % 8)) % 256 = 8 + t ∧
        State.reset.reg (0x3000000 + 0x400 * b + 8 * (w / 8)) / 2 ^ (8 * (w % 8)) % 256 = 8 + t) := by
  refine ⟨by decide +kernel, ?_⟩
  rintro ⟨w, hw, ⟨d, hd, h⟩ | ⟨t, a, b, ht, hab, hb, h, h'⟩⟩
  · rw [test_met_boot_table d hd w hw] at h
    split at h <;> omega
  · rw [test_met_boot_table a (by omega) w hw] at h
    rw [test_met_boot_table b hb w hw] at h'
    split at h <;> split at h' <;> omega
theorem test_met_bad_table : (State.reset.setReg 0x3000000 16).reg 0x3002008 % 2 = 0 ∧
    16 ≤ (State.reset.setReg 0x3000000 16).reg (0x3000000 + 0x400 * 0 + 8 * (0 / 8)) / 2 ^ (8 * (0 % 8)) % 256 ∧
    (State.reset.setReg 0x3002008 1).reg 0x3002008 % 2 = 1 := by decide +kernel

/-- QuotesAndPower: a quote that is taken, with its place inside and outside device memory. -/
def quoting (a : Nat) : State := { State.reset with quote := some (List.replicate 192 7), regs := [(0x5030, a), (0x5040, 1)] }
theorem test_met_quote : State.reset.reg 0x5040 % 2 = 0 ∧ (quoting 0).reg 0x5040 % 2 = 1 ∧ (quoting 0).quote = some (List.replicate 192 7) ∧
    regionOf ((quoting 128).reg 0x5030) = .dev 0 ∧ regionOf ((quoting 128).reg 0x5030 + 311) = .dev 0 ∧
    (∀ i, i < 3 → (quoting 128).homeFree ((quoting 128).reg 0x5030 / 128 + i) = true) ∧ (quoting 128).memoryOk ∧
    (List.replicate 192 (7 : Byte)).length = 192 ∧ regionOf ((quoting (2 ^ 60)).reg 0x5030) = .none := by
  unfold State.memoryOk; decide +kernel

/-- QuotesAndPower: tenant 0 is the one that occupies cores; its core runs at step 1; power above the cap, below 95 % of it and in between. -/
def powered : State := (frozenGang .no).setCore 0 { (frozenGang .no).core 0 with throttle := 1 }
theorem test_met_power : powered.reg 0x5100 = 2600 ∧ powered.tenantCores 0 = [0] ∧ (∀ t, t < 64 → t ≠ 0 → powered.tenantCores t = []) ∧
    powered.reg 0x5110 % 256 = 1 ∧ 0 < (powered.core 0).throttle ∧ 100 * 2470 ≤ 95 * 2600 ∧ 95 * 2600 < 100 * 2471 ∧ (2601 : Nat) > 2600 := by decide +kernel
theorem test_met_power_first : let weight (t : Nat) : Nat := powered.reg (0x5110 + 8 * (t / 8)) / 2 ^ (8 * (t % 8)) % 256
    let above (t u : Nat) : Prop := weight u ≠ 0 ∧ (weight t = 0 ∨ (powered.tenantCores u).length * weight t < (powered.tenantCores t).length * weight u)
    let first (ok : Nat → Prop) (beats : Nat → Nat → Prop) (t : Nat) : Prop := t < 64 ∧ ok t ∧
      (∀ u, u < 64 → ok u → ¬ beats u t) ∧ ∀ u, u < t → ok u → beats t u
    first (fun t => powered.tenantCores t ≠ []) above 0 ∧
      first (fun t => ∃ c ∈ powered.tenantCores t, 0 < (powered.core c).throttle) (fun a b => above b a) 0 := by
  have h := test_met_power.2.2.1
  have h0 := test_met_power.2.1
  have ht := test_met_power.2.2.2.2.1
  refine ⟨⟨by omega, by simp [h0], fun u hu ok => ?_, by omega⟩, ⟨by omega, ⟨0, by simp [h0], ht⟩, fun u hu ok => ?_, by omega⟩⟩ <;>
  · have : u = 0 := by
      by_contra hne
      simp [h u hu hne] at ok
    subst this
    omega

/-- PortsServePeers: port 0 is up and open; entry 0 admits tenant 0 to 256 bytes at 0 with its rights; the die's TLB holds the page. -/
def peered (rights : Nat) : State :=
  { State.reset with
    regs := [(0x3008000, 2 ^ 31 + rights * 2 ^ 28 + 7 * 2 ^ 32), (0x3008010, 256), (0x30A0000, 2 ^ 31), (0x30A0008, 1)]
    dies := [(0, { tlb := [{ tenant := 0, va := 0, lg := 16, pa := 0, r := true, w := true, a := true, lease := 1, scratch := false }] })]
    cores := [(0, { alb := [{ line := 0, data := List.replicate 128 3, ver := 5 }] })] }
def peer (off key : Nat) (acc : PeerAccess) : PeerRequest := { source := 0, window := 0, key, off, acc }
def admitted (rights : Nat) : Admission :=
  { tenant := 0, read := rights % 2 = 1, write := rights / 2 % 2 = 1, atomic := rights / 4 % 2 = 1, key := 7, base := 0, len := 256 }
theorem test_met_ports : (peered 7).reg (0x30A0008 + 0x100 * 0) % 2 = 1 ∧ (peered 7).heldDie (0 % 8) = false ∧ (0 : Nat) < 12 ∧
    (peered 7).reg (0x30A0000 + 0x100 * 0) / 2 ^ 31 % 2 = 1 ∧ ((peered 7).setReg 0x30A0000 0).reg (0x30A0000 + 0x100 * 0) / 2 ^ 31 % 2 = 0 ∧
    (∀ off key acc, (peered 0).admissionOf 0 (peer off key acc) = some (admitted 0) ∧ (peered 7).admissionOf 0 (peer off key acc) = some (admitted 7)) ∧
    (peered 7).admissionOf 0 { peer 0 7 (.read 4) with source := 1 } = none ∧ (admitted 7).key = (peer 0 7 (.read 4)).key ∧
    (admitted 7).key ≠ (peer 0 6 (.read 4)).key ∧ (admitted 7).len < 256 + 4 ∧ (admitted 0).read = false ∧ (admitted 7).atomic = true ∧
    (admitted 7).write = true ∧ (admitted 7).read = true ∧ (peer 0 7 .probe).acc = .probe ∧
    (peered 7).timesPassed (mgetD (peered 7).portTimes (1024 * 0 + (peer 0 7 .probe).source % 1024) []) = true ∧
    ({ peered 7 with portTimes := [(0, [(0, 9)])] } : State).timesPassed (mgetD [(0, [(0, 9)])] (1024 * 0 + (peer 0 7 .probe).source % 1024) []) = false ∧ 256 % 256 + 4 ≤ 256 ∧ (0 + 1) % 4 ≠ 0 ∧ keyed (peered 7).portQ ∧ mgetD (peered 7).portQ 0 [] = [] ∧
    (peered 7).memoryOk := by
  refine ⟨by decide +kernel, by decide +kernel, by decide, by decide +kernel, by decide +kernel, fun _ _ _ => ⟨?_, ?_⟩, by decide +kernel, by decide, by decide,
    by decide, by decide, by decide, by decide, by decide, rfl, by decide +kernel, by decide +kernel, by decide, by decide, List.Pairwise.nil, rfl, by unfold State.memoryOk; decide +kernel⟩ <;> rfl
/-- PortsServePeers: a port at which an earlier request of that requester waits, a held die, a disabled port. -/
theorem test_met_port_waits :
    (∃ w ∈ mgetD ({ peered 7 with portQ := [(0, [{ req := peer 0 7 (.read 4), on := true, entry := none }])] } : State).portQ 0 [],
      w.req.source = (peer 8 7 (.read 4)).source) ∧ ((peered 7).setReg 0x20 1).heldDie 0 = true ∧
    decide (((peered 7).setReg 0x30A0000 0).reg (0x30A0000 + 0x100 * 0) / 2 ^ 31 % 2 = 1) = false ∧
    ((peered 7).setCore 0 {}).owned (16 * 0) (8 / 128) = none := by decide +kernel
theorem port_ok {x : PortAt} {q : List (Part × TlbEntry)} (h : (match x with | .ok y => decide (y = q) | _ => false) = true) : x = .ok q := by
  cases x <;> simp_all
theorem port_bad {x : PortAt} {k : Nat} (h : (match x with | .refused y => decide (y = k) | _ => false) = true) : x = .refused k := by
  cases x <;> simp_all
theorem port_wait {x : PortAt} (h : (match x with | .wait _ => true | _ => false) = true) : ∃ v, x = .wait v := by
  cases x <;> simp_all
def peerPage : TlbEntry := { tenant := 0, va := 0, lg := 16, pa := 0, r := true, w := true, a := true, lease := 1, scratch := false }
theorem test_met_port_places : (∀ rt ∈ [Right.read, .write, .atomic], (peered 7).portPieces 0 0 rt (linePieces (0 + 8) 4) = .ok [({ pa := 8, len := 4 }, peerPage)]) ∧
    ((peered 7).setDie 0 { (peered 7).die 0 with tlb := ((peered 7).die 0).tlb.map (fun e => { e with r := false }) }).portPieces 0 0 .read (linePieces 8 4) = .refused 5 ∧
    (∃ v, ((peered 7).setDie 0 {}).portPieces 0 0 .read (linePieces 8 4) = .wait v) ∧
    (peered 7).owned (16 * 0) (8 / 128) = some { line := 0, data := List.replicate 128 3, ver := 5 } ∧ (0 + 8) % 4 = 0 ∧ ([1, 2, 3, 4] : List Byte).length = 4 := by
  refine ⟨fun rt h => port_ok ?_, port_bad (by decide +kernel), port_wait (by decide +kernel), by decide +kernel, by decide, by decide⟩
  revert rt
  decide +kernel

/-- PortsServePeers: the one request on port 0 is a remote read, a write, an atomic, a probe, a reduction; the fault queue of its tenant is closed,
and it is open. -/
theorem test_met_link_loss : (∀ k ∈ [ReqKind.remoteRead 4, .remoteWrite 1, .remoteAtomic 1, .probe 0, .remoteNr 3],
      (mget (asking k 0).reqs 0).map (fun r => (r.onPort 0, r.agent, r.kind)) = some (true, .fab 0 0, k) ∧ (asking k 0).reqs.map (·.1) = [0] ∧ (asking k 0).memoryOk ∧
      MayPark (asking k 0) (.fab 0 0) 0 0 ∧ (asking k 0).nrAt (.fab 0 0) 2 = false ∧ (asking k 0).tenantOf (.fab 0 0) < 64) ∧
    (asking (.remoteRead 4) 0).reg (0x2000 + 8) / 2 ^ 31 % 2 = 0 ∧ ((asking (.remoteRead 4) 0).setReg 0x2008 (2 ^ 31)).reg (0x2000 + 8) / 2 ^ 31 % 2 = 1 := by
  unfold State.memoryOk
  refine ⟨fun k h => ⟨?_, ?_, ?_, ⟨.inl ?_, ?_, ?_, ?_, ?_⟩, ?_, ?_⟩, by decide +kernel, by decide +kernel⟩ <;> (try unfold Keyed) <;> revert k <;> decide +kernel

/-- HostAccessAndTransfers: the aperture at 0, from memory's first byte, and at the top of die 0's device memory; memory with an owner in
the way. -/
theorem test_met_aperture : State.reset.reg 0x30C0000 = 0 ∧ (∀ x, x < 8 → inMemory x = true ∧ State.reset.reaches 0 (x / 128) = true ∧
      State.reset.homeFree (x / 128) = true) ∧ State.reset.memoryOk ∧ (2 ^ 36 - 8) + ([1, 2, 3, 4, 5, 6, 7, 8] : List Byte).length ≤ 2 ^ 36 ∧
    State.reset.aperBase = none ∧ ({ State.reset with l2 := [(0, { owner := some 5 })] } : State).homeFree (0 / 128) = false ∧
    (∀ x, x < 8 → inMemory (2 ^ 60 + x) = false) ∧ (State.reset.setReg 0x30C0000 (2 ^ 60)).reg 0x30C0000 + 0 = 2 ^ 60 := by
  unfold State.memoryOk; decide +kernel

/-- HostAccessAndTransfers: a ring of 16 with one descriptor: outside memory, well formed (128 bytes to the device), of length 0; a halted engine. -/
def ringOf (base : Nat) (m : Memory) : State :=
  { State.reset with mem := m, regs := [(0x30C0100, base), (0x30C0108, 2 ^ 31 + 4), (0x30C0110, 1)] }
theorem test_met_ring : let runs (s : State) : Prop := s.reg 0x30C0108 / 2 ^ 31 % 2 = 1 ∧ s.reg 0x30C0120 / 2 % 2 = 0 ∧ s.xfer = none ∧ s.reg 0x30C0110 ≠ s.reg 0x30C0118
    runs (ringOf 0 []) ∧ inMemory ((ringOf 0 []).reg 0x30C0100) = true ∧ inMemory ((ringOf (2 ^ 60) []).reg 0x30C0100) = false ∧ runs (ringOf (2 ^ 60) []) ∧
    (ringOf 0 []).reaches 0 0 = true ∧ (ringOf 0 []).homeFree 0 = true ∧ (ringOf 0 []).poisonAt 0 32 = false ∧ ¬ 128 ≤ readLE (ringOf 0 []).mem 16 8 ∧
    runs (ringOf 0 [⟨16, 128⟩, ⟨24, 1⟩]) ∧ readLE (ringOf 0 [⟨16, 128⟩, ⟨24, 1⟩]).mem 16 8 = 128 ∧ readLE (ringOf 0 [⟨16, 128⟩, ⟨24, 1⟩]).mem 24 8 = 1 ∧
    readLE (ringOf 0 [⟨16, 128⟩, ⟨24, 1⟩]).mem 0 8 % 128 = 0 ∧ readLE (ringOf 0 [⟨16, 128⟩, ⟨24, 1⟩]).mem 8 8 % 128 = 0 ∧
    ({ ringOf 0 [] with side := [(0, { dp := true })] } : State).poisonAt 0 32 = true ∧
    (State.reset.setReg 0x30C0120 2).reg 0x30C0120 / 2 % 2 = 1 ∧ State.reset.reg 0x30C0120 / 2 % 2 = 0 := by decide +kernel

/-- HostAccessAndTransfers: a transfer of two lines under way, of bytes and of sidecar entries, either way. -/
def transferring (dev : Nat) (toDev side : Bool) (frozen vp : Bool) : State :=
  { State.reset with xfer := some { dev, host := 0, len := 256, toDev, side }, regs := if frozen then [(0x20, 1)] else [],
                     side := if vp then [(0, { vp := true })] else [] }
theorem test_met_transfer : (∀ toDev side, (transferring 0 toDev side true false).xfer = some { dev := 0, host := 0, len := 256, toDev, side }) ∧
    inMemory (0 * 128) = true ∧ versioned 0 = true ∧ inMemory (2 ^ 60 / 128 * 128) = false ∧
    (∀ toDev side, (transferring 0 toDev side true false).reg 0x20 / 2 ^ homeDie 0 % 2 = 1 ∧ (transferring 0 toDev side false false).reg 0x20 / 2 ^ homeDie 0 % 2 = 0 ∧
      (transferring 0 toDev side true false).reaches 0 0 = true ∧ (transferring 0 toDev side true false).homeFree 0 = true ∧
      ((transferring 0 toDev side true false).sideOf 0).vp = false ∧ ((transferring 0 toDev side true true).sideOf 0).vp = true ∧
      (transferring 0 toDev side true false).memoryOk ∧ Memory.wf (transferring 0 toDev side true false).host = true) ∧
    0 + 128 < 256 ∧ 256 ≤ 128 + 128 ∧ 256 ≤ 248 + 8 := by
  unfold State.memoryOk; decide +kernel

/-- RegistersAndTheWindow: register values, and picks of the window: an index that is not there, a closed and an open item of each kind. -/
theorem test_met_register_values : (1 : Nat) < 2 ^ 64 ∧ (1 : Nat) = 2 ^ 0 ∧ 1 % 2 = 1 ∧ 2 / 2 % 2 = 1 ∧ 3 % 4 = 3 ∧ (3 * 2 ^ 13) / 2 ^ 13 % 4 = 3 := by decide
def viewing (sel idx : Nat) (hold : Bool) : State :=
  { State.reset with regs := (if hold then [(dsReg 0 0x10, 1)] else []) ++ [(0x4000000, sel), (0x4000008, idx)]
                     cores := [(0, { threads := [(0, { st := .parked, blk := 3, sp := 64, regs := [(5, 9)] })] })] }
def pickOf (area idx : Nat) : Pick := { area, core := 0, die := 0, idx }
theorem test_met_window_page : 0x1000 ≤ 0x1000 + 8 * 5 ∧ 0x1000 + 8 * 63 + 8 ≤ 0x2000 ∧ (viewing 1 0 false).reg 0x4000000 % 256 = 1 ∧
    (viewing 1 0 false).reg 0x4000008 = 0 ∧ (viewing 1 8192 false).hswValid (pickOf 1 8192) = false ∧ (viewing 1 8191 false).hswValid (pickOf 1 8191) = true ∧
    (viewing 1 1 false).hswValid (pickOf 1 1) = true ∧ (viewing 1 1 false).hswOpen (pickOf 1 1) = false ∧ (viewing 1 0 false).hswOpen (pickOf 1 0) = true ∧
    ((viewing 1 0 false).thread 0 0).st = .parked ∧ 5 / 8 ∉ ((viewing 1 0 false).liveFile 0 0).2 ∧
    (viewing 2 0 false).reg 0x4000000 % 256 = 2 ∧ (viewing 5 255 true).reg 0x4000000 % 256 = 5 ∧ (viewing 5 255 true).heldCore 0 = true ∧
    (∀ i, i < 8 → (viewing 5 255 true).poisonAt (scratchBase 0 + 255 * 4096 + 0 + i) 1 = false) ∧ (viewing 5 255 true).memoryOk := by
  unfold State.memoryOk; decide +kernel
/-- RegistersAndTheWindow: writes of the commit image of a parked thread, of its slice and of a sidecar entry of a held die; an item of a die that no
circuit joins to die 0. -/
def editing (sel idx : Nat) : State :=
  let s := (viewing sel idx false).setReg 0x20 1
  s.setCore 0 { s.core 0 with wgs := [(0, { n := 1, stride := 4096 })] }
theorem test_met_window_writes :
    (∀ a ∈ [0x01, 0x03, 0x04, 0x21], (editing a 0).reg 0x4000000 % 256 = a ∧ (editing a 0).hswOpen (pickOf a 0) = true ∧ (editing a 0).memoryOk ∧
      (editing a 0).linkedBoth 0 (0 / 16) = true ∧ ((editing a 0).thread 0 0).st = .parked ∧ 0 * 4096 + 0 + 8 ≤ ((editing a 0).wgOf 0 0).stride ∧
      (editing a 0).heldDie 0 = true ∧
      ∀ m ∈ [(editing a 0).imageAddr 0 0, (editing a 0).slice 0 0 0, (dieBase 0 / 128 + 512 * 0 + 0) * 128],
        ∀ i, i < 8 → (editing a 0).reaches 0 ((m + i) / 128) = true ∧ (editing a 0).homeFree ((m + i) / 128) = true) ∧
    (let s := { viewing (1 + 16 * 2 ^ 8) 0 false with circuits := [1] }
     s.linkedBoth 0 (16 / 16) = false ∧ s.reg 0x4000000 % 256 < 0x20 ∧ s.hswValid { area := 1, core := 16, die := 0, idx := 0 } = true) ∧
    ({ State.reset with circuits := [1] } : State).linked 0 1 = false ∧ State.reset.linked 0 0 = true := by
  unfold State.memoryOk; decide +kernel

end Sys2Proof.Tests
end

section
/-! PROOF. The results of the integer, bit, address, compare, predicate and move instructions (O7, O8, O9): each
result function of the machine is the number that R151 to R165 state, and a firing sends it. -/

namespace Sys2Proof.Claims
open Sys2Proof.Machine

/-! ## Tokens as integers -/

theorem signedOf_toNat {n : Nat} (x : BitVec n) (w : Nat) : signedOf x.toNat w = (x.setWidth w).toInt := by
  rw [BitVec.toInt_eq_toNat_cond, BitVec.toNat_setWidth, signedOf]
  cases w with
  | zero => simp [Nat.mod_one]
  | succ k =>
    have hpow : 2 ^ (k + 1) = 2 * 2 ^ k := Nat.pow_succ'
    simp only [Nat.add_sub_cancel, hpow, Nat.mul_lt_mul_left Nat.two_pos]

theorem valOf_eq_readInt (ty : IntTy) (x : W64) : valOf ty x = readInt ty x := by
  simp only [valOf, readInt, signedOf_toNat, ← BitVec.toNat_setWidth]

theorem extendTok_eq_finish (ty : IntTy) (y : Int) : extendTok ty y = finish ty false y := by
  have hwrap : wrapTo y ty.width = (BitVec.ofInt ty.width y).toNat := (BitVec.toNat_ofInt y).symm
  simp only [extendTok, finish, hwrap, signedOf_toNat, BitVec.setWidth_eq, BitVec.ofNat_toNat, BitVec.signExtend,
    Bool.false_eq_true, if_false]

theorem tyLo_eq_lowest (ty : IntTy) : tyLo ty = lowest ty := by
  simp only [tyLo, lowest, Nat.cast_pow, Nat.cast_ofNat]

theorem tyHi_eq_highest (ty : IntTy) : tyHi ty = highest ty := by
  simp only [tyHi, highest, Nat.cast_pow, Nat.cast_ofNat]

theorem lowest_le_highest (ty : IntTy) : lowest ty ≤ highest ty := by
  cases ty <;> decide

theorem clampTo_eq_max_min {lo hi : Int} (h : lo ≤ hi) (x : Int) : clampTo lo hi x = max lo (min hi x) := by
  unfold clampTo
  split_ifs <;> omega

theorem xiResult_eq_finish (ty : IntTy) (sat : Bool) (x : Int) : xiResult ty sat x = finish ty sat x := by
  rw [xiResult, extendTok_eq_finish, tyLo_eq_lowest, tyHi_eq_highest, clampTo_eq_max_min (lowest_le_highest ty)]
  rfl

/-- The bounds that every reading of a token under a type meets. -/
theorem readInt_bounds (ty : IntTy) (x : W64) : -2 ^ ty.width ≤ readInt ty x ∧ readInt ty x < 2 ^ ty.width := by
  have hhalf : (2 : Int) ^ (ty.width - 1) ≤ 2 ^ ty.width := pow_le_pow_right₀ (by decide) (Nat.sub_le _ _)
  unfold readInt
  split
  · have hlo := BitVec.le_toInt (x.setWidth ty.width)
    have hhi := BitVec.toInt_lt (x := x.setWidth ty.width)
    omega
  · have hhi : ((x.setWidth ty.width).toNat : Int) < 2 ^ ty.width := by exact_mod_cast (x.setWidth ty.width).isLt
    omega

/-! ## Integer arithmetic (R152) -/

theorem sIntTy_eq_wide (z : SIntTy) : sIntTy z = wide z := by cases z <;> rfl

theorem aluAdd_eq_finish (ty : IntTy) (sat : Bool) (l r : W64) :
    aluAdd ty sat l r = finish ty sat (readInt ty l + readInt ty r) := by
  rw [aluAdd, xiResult_eq_finish, valOf_eq_readInt, valOf_eq_readInt]

theorem aluSub_eq_finish (ty : IntTy) (sat : Bool) (l r : W64) :
    aluSub ty sat l r = finish ty sat (readInt ty l - readInt ty r) := by
  rw [aluSub, xiResult_eq_finish, valOf_eq_readInt, valOf_eq_readInt]

theorem aluMul_eq_finish (ty : IntTy) (sat : Bool) (l r : W64) :
    aluMul ty sat l r = finish ty sat (readInt ty l * readInt ty r) := by
  rw [aluMul, xiResult_eq_finish, valOf_eq_readInt, valOf_eq_readInt]

theorem aluMulh_eq_finish (ty : IntTy) (l r : W64) :
    aluMulh ty l r = finish ty false (Int.fdiv (readInt ty l * readInt ty r) (2 ^ ty.width)) := by
  rw [aluMulh, xiResult_eq_finish, valOf_eq_readInt, valOf_eq_readInt,
    Int.fdiv_eq_ediv_of_nonneg _ (pow_nonneg zero_le_two _)]
  norm_cast

theorem aluDiv_eq_finish (ty : IntTy) (sat : Bool) (l r : W64) :
    aluDiv ty sat l r = finish ty sat (if readInt ty r = 0
      then (if readInt ty l < 0 then lowest ty else highest ty) else Int.tdiv (readInt ty l) (readInt ty r)) := by
  rw [aluDiv, xiResult_eq_finish, valOf_eq_readInt, valOf_eq_readInt, divExact, tyLo_eq_lowest, tyHi_eq_highest]

theorem aluRem_eq_finish (ty : IntTy) (l r : W64) :
    aluRem ty l r = finish ty false (if readInt ty r = 0
      then readInt ty l else readInt ty l - readInt ty r * Int.tdiv (readInt ty l) (readInt ty r)) := by
  rw [aluRem, xiResult_eq_finish, valOf_eq_readInt, valOf_eq_readInt, remExact, Int.tmod_def]

theorem aluMin_eq_finish (ty : IntTy) (l r : W64) :
    aluMin ty l r = finish ty false (if readInt ty l ≤ readInt ty r then readInt ty l else readInt ty r) := by
  rw [aluMin, xiResult_eq_finish, valOf_eq_readInt, valOf_eq_readInt, min_def]

theorem aluMax_eq_finish (ty : IntTy) (l r : W64) :
    aluMax ty l r = finish ty false (if readInt ty l ≤ readInt ty r then readInt ty r else readInt ty l) := by
  rw [aluMax, xiResult_eq_finish, valOf_eq_readInt, valOf_eq_readInt, max_def]

theorem aluAbs_eq_finish (z : SIntTy) (sat : Bool) (l : W64) :
    aluAbs z sat l = finish (wide z) sat (if readInt (wide z) l < 0 then -readInt (wide z) l else readInt (wide z) l) := by
  have habs (a : Int) : (a.natAbs : Int) = if a < 0 then -a else a := by omega
  rw [aluAbs, sIntTy_eq_wide, xiResult_eq_finish, valOf_eq_readInt, habs]

theorem aluNeg_eq_finish (z : SIntTy) (sat : Bool) (l : W64) :
    aluNeg z sat l = finish (wide z) sat (-readInt (wide z) l) := by
  rw [aluNeg, sIntTy_eq_wide, xiResult_eq_finish, valOf_eq_readInt]

/-! ## Shifts (R155) -/

theorem shrExact_eq_fdiv {ty : IntTy} {a : Int} (hlo : -2 ^ ty.width ≤ a) (hhi : a < 2 ^ ty.width) (n : Nat) :
    shrExact ty a n = Int.fdiv a (2 ^ n) := by
  rw [Int.fdiv_eq_ediv_of_nonneg _ (pow_nonneg zero_le_two _), shrExact, Nat.cast_pow, Nat.cast_ofNat]
  by_cases hn : n < ty.width
  · rw [if_pos hn]
  have hpow : (2 : Int) ^ ty.width ≤ 2 ^ n := pow_le_pow_right₀ (by decide) (Nat.le_of_not_lt hn)
  rw [if_neg hn]
  split
  · have hpos : (0 : Int) < 2 ^ n := pow_pos zero_lt_two n
    exact ((Int.ediv_eq_iff_of_pos hpos).2 (by omega)).symm
  · exact (Int.ediv_eq_zero_of_lt (by omega) (by omega)).symm

theorem finish_false_of_dvd {ty : IntTy} {x : Int} (h : 2 ^ ty.width ∣ x) : finish ty false x = finish ty false 0 := by
  have hzero : BitVec.ofInt ty.width x = BitVec.ofInt ty.width 0 := by
    apply BitVec.eq_of_toNat_eq
    rw [BitVec.toNat_ofInt, BitVec.toNat_ofInt, Nat.cast_pow, Nat.cast_ofNat, Int.emod_eq_zero_of_dvd h, Int.zero_emod]
  simp only [finish, Bool.false_eq_true, if_false, hzero]

theorem finish_true_of_le_lowest {ty : IntTy} {x : Int} (h : x ≤ lowest ty) :
    finish ty true x = finish ty true (lowest ty) := by
  have hle := lowest_le_highest ty
  simp only [finish, if_true, min_eq_right (h.trans hle), min_eq_right hle, max_eq_left h, max_self]

theorem finish_true_of_highest_le {ty : IntTy} {x : Int} (h : highest ty ≤ x) :
    finish ty true x = finish ty true (highest ty) := by
  simp only [finish, if_true, min_eq_left h, min_self]

theorem neg_two_pow_le_lowest (ty : IntTy) : -2 ^ ty.width ≤ lowest ty := by cases ty <;> decide

theorem highest_lt_two_pow (ty : IntTy) : highest ty < 2 ^ ty.width := by cases ty <;> decide

theorem xiResult_shlExact (ty : IntTy) (sat : Bool) (a : Int) (n : Nat) :
    xiResult ty sat (shlExact ty sat a n) = finish ty sat (a * 2 ^ n) := by
  rw [xiResult_eq_finish, shlExact, tyLo_eq_lowest, tyHi_eq_highest, Nat.cast_pow, Nat.cast_ofNat]
  by_cases hn : n < ty.width
  · rw [if_pos hn]
  have hpow : (2 : Int) ^ ty.width ≤ 2 ^ n := pow_le_pow_right₀ (by decide) (Nat.le_of_not_lt hn)
  have hpow0 : (0 : Int) ≤ 2 ^ n := pow_nonneg zero_le_two n
  rw [if_neg hn]
  cases sat with
  | false => exact (finish_false_of_dvd (dvd_mul_of_dvd_right (pow_dvd_pow 2 (Nat.le_of_not_lt hn)) a)).symm
  | true =>
    rcases lt_trichotomy a 0 with ha | rfl | ha
    · have hlow : a * 2 ^ n ≤ lowest ty := by
        linarith [neg_two_pow_le_lowest ty, mul_le_mul_of_nonneg_right (show a ≤ -1 by omega) hpow0]
      simp [ha, ha.ne, finish_true_of_le_lowest hlow]
    · simp
    · have hhigh : highest ty ≤ a * 2 ^ n := by
        linarith [highest_lt_two_pow ty, mul_le_mul_of_nonneg_right (show 1 ≤ a by omega) hpow0]
      simp [ha.ne', ha.le.not_gt, finish_true_of_highest_le hhigh]

theorem aluShl_eq_finish (ty : IntTy) (sat : Bool) (l : W64) (n : Nat) :
    aluShl ty sat l n = finish ty sat (readInt ty l * 2 ^ n) := by
  rw [aluShl, xiResult_shlExact, valOf_eq_readInt]

theorem aluShr_eq_finish (ty : IntTy) (l : W64) (n : Nat) :
    aluShr ty l n = finish ty false (Int.fdiv (readInt ty l) (2 ^ n)) := by
  obtain ⟨hlo, hhi⟩ := readInt_bounds ty l
  rw [aluShr, xiResult_eq_finish, valOf_eq_readInt, shrExact_eq_fdiv hlo hhi]

theorem shiftCount_eq_toNat (ty : IntTy) (r : W64) : shiftCount ty r = (r.setWidth ty.width).toNat :=
  (BitVec.toNat_setWidth ty.width r).symm

/-! ## Bits of tokens (R61, R154) -/

theorem getLsbD_tokNat (n i : Nat) : (tokNat n).getLsbD i = (decide (i < 64) && n.testBit i) :=
  BitVec.getLsbD_ofNat 64 n i

theorem getLsbD_cutTok (ty : BitTy) (x : W64) (i : Nat) :
    (cutTok ty x).getLsbD i = (decide (i < bits ty) && x.getLsbD i) := by
  cases ty with
  | b32 =>
    have hmask : (0xFFFFFFFF : W64) = (BitVec.allOnes 32).setWidth 64 := rfl
    simp only [cutTok, bits, hmask, BitVec.getLsbD_and, BitVec.getLsbD_setWidth, BitVec.getLsbD_allOnes]
    by_cases hi : i < 32
    · simp [hi, show i < 64 by omega]
    · simp [hi]
  | b64 =>
    by_cases hi : i < 64
    · simp [cutTok, bits, hi]
    · simp [cutTok, bits, hi, BitVec.getLsbD_of_ge x i (Nat.le_of_not_lt hi)]

theorem bits_le (ty : BitTy) : bits ty ≤ 64 := by cases ty <;> decide

theorem bitWidth_eq_bits (ty : BitTy) : bitWidth ty = bits ty := by cases ty <;> rfl

theorem cutTok_eq_cut (ty : BitTy) (x : W64) : cutTok ty x = cut ty x := by
  cases ty with
  | b32 =>
    refine BitVec.eq_of_getLsbD_eq fun i hi => ?_
    rw [getLsbD_cutTok, cut, BitVec.getLsbD_setWidth, BitVec.getLsbD_setWidth, decide_eq_true hi, Bool.true_and]
    rfl
  | b64 => rfl

/-! ## Rotation (R156) -/

/-- Rotation of a `w`-bit number to the left: the low `n` bits are the high ones of the number. -/
theorem testBit_rotate {a w n : Nat} (ha : a < 2 ^ w) (hn : n ≤ w) (i : Nat) :
    (a * 2 ^ n % 2 ^ w + a / 2 ^ (w - n)).testBit i =
      if i < n then a.testBit (i + (w - n)) else decide (i < w) && a.testBit (i - n) := by
  have hsplit : 2 ^ w = 2 ^ n * 2 ^ (w - n) := by rw [← pow_add, Nat.add_sub_cancel' hn]
  have hlow : a / 2 ^ (w - n) < 2 ^ n := Nat.div_lt_of_lt_mul (by rwa [mul_comm, ← hsplit])
  rw [mul_comm a, hsplit, Nat.mul_mod_mul_left, Nat.testBit_two_pow_mul_add _ hlow, Nat.testBit_div_two_pow,
    Nat.testBit_mod_two_pow]
  by_cases hi : i < n
  · simp [hi]
  · simp [hi, show i - n < w - n ↔ i < w by omega]

theorem getLsbD_aluRot (ty : BitTy) (l r : W64) (i : Nat) :
    (aluRot ty l r).getLsbD i =
      if i < r.toNat % bits ty then l.getLsbD (i + (bits ty - r.toNat % bits ty))
      else decide (i < bits ty) && l.getLsbD (i - r.toNat % bits ty) := by
  have hw : 0 < bits ty := by cases ty <;> decide
  have hn : r.toNat % bits ty < bits ty := Nat.mod_lt _ hw
  have hle := bits_le ty
  simp only [aluRot, bitWidth_eq_bits, getLsbD_tokNat,
    testBit_rotate (Nat.mod_lt l.toNat (Nat.two_pow_pos _)) hn.le, Nat.testBit_mod_two_pow, BitVec.testBit_toNat]
  by_cases hi : i < r.toNat % bits ty
  · simp [hi, show i < 64 by omega, show i + (bits ty - r.toNat % bits ty) < bits ty by omega]
  · by_cases hb : i < bits ty
    · simp [hi, hb, show i < 64 by omega, show i - r.toNat % bits ty < bits ty by omega]
    · simp [hi, hb]

theorem getLsbD_aluRot_add_mod (ty : BitTy) (l r : W64) {j : Nat} (hj : j < bits ty) :
    (aluRot ty l r).getLsbD ((j + r.toNat) % bits ty) = l.getLsbD j := by
  rw [getLsbD_aluRot, ← Nat.add_mod_mod]
  have hn : r.toNat % bits ty < bits ty := Nat.mod_lt _ (by omega)
  generalize r.toNat % bits ty = n at hn ⊢
  by_cases hwrap : j + n < bits ty
  · simp [Nat.mod_eq_of_lt hwrap, hwrap]
  · have hmod : (j + n) % bits ty = j + n - bits ty := by
      rw [Nat.mod_eq_sub_mod (Nat.le_of_not_lt hwrap), Nat.mod_eq_of_lt (by omega)]
    rw [hmod, if_pos (by omega), show j + n - bits ty + (bits ty - n) = j by omega]

theorem getLsbD_aluRot_of_ge (ty : BitTy) (l r : W64) {j : Nat} (hj : bits ty ≤ j) :
    (aluRot ty l r).getLsbD j = false := by
  have hn : r.toNat % bits ty < bits ty := Nat.mod_lt _ (by cases ty <;> decide)
  rw [getLsbD_aluRot, if_neg (by omega), decide_eq_false (by omega), Bool.false_and]

/-! ## Bit fields (R157, R158) -/

theorem bitsOf_toNat (x : W64) (lo n : Nat) : bitsOf x.toNat (lo + n) lo = (x.extractLsb' lo (n + 1)).toNat := by
  rw [BitVec.extractLsb'_toNat, Nat.shiftRight_eq_div_pow, bitsOf]
  congr 2; omega

theorem aluBfx_eq_finish (ty : IntTy) (l r : W64) :
    let pos := (r.extractLsb' 0 7).toNat
    let m := min (r.extractLsb' 8 7).toNat ty.width
    let f := Int.fdiv (readInt ty l) (2 ^ pos) % 2 ^ m
    aluBfx ty l r = finish ty false (if m = 0 then 0 else if ty.signed ∧ 2 ^ (m - 1) ≤ f then f - 2 ^ m else f) := by
  intro pos m f
  have hpos : bitsOf r.toNat 6 0 = pos := bitsOf_toNat r 0 6
  have hlen : min (bitsOf r.toNat 14 8) ty.width = m := congrArg (min · ty.width) (bitsOf_toNat r 8 6)
  have hf : valOf ty l / ((2 ^ pos : Nat) : Int) % ((2 ^ m : Nat) : Int) = f := by
    rw [valOf_eq_readInt, Nat.cast_pow, Nat.cast_pow, Nat.cast_ofNat, ← Int.fdiv_eq_ediv_of_nonneg _ (by positivity)]
  simp only [aluBfx, hpos, hlen, hf, extendTok_eq_finish]
  split
  · cases ty <;> decide
  · simp

/-- A field of `m` bits of `f` stands at `pos` between the bits of `base`. -/
theorem testBit_insert (base f pos m i : Nat) :
    (base / 2 ^ (pos + m) * 2 ^ (pos + m) + f % 2 ^ m * 2 ^ pos + base % 2 ^ pos).testBit i =
      if pos ≤ i ∧ i < pos + m then f.testBit (i - pos) else base.testBit i := by
  have hshape : base / 2 ^ (pos + m) * 2 ^ (pos + m) + f % 2 ^ m * 2 ^ pos + base % 2 ^ pos =
      2 ^ pos * (2 ^ m * (base / 2 ^ (pos + m)) + f % 2 ^ m) + base % 2 ^ pos := by
    rw [pow_add]; ring
  rw [hshape, Nat.testBit_two_pow_mul_add _ (Nat.mod_lt _ (Nat.two_pow_pos _)),
    Nat.testBit_two_pow_mul_add _ (Nat.mod_lt _ (Nat.two_pow_pos _)), Nat.testBit_div_two_pow, Nat.testBit_mod_two_pow,
    Nat.testBit_mod_two_pow]
  by_cases hlow : i < pos
  · simp [hlow, show ¬ pos ≤ i by omega]
  by_cases hmid : i < pos + m
  · simp [hlow, hmid, show pos ≤ i by omega, show i - pos < m by omega]
  · simp [hlow, hmid, show ¬ i - pos < m by omega, show i - pos - m + (pos + m) = i by omega]

/-- BFI's result for an effective length `m`, which is the base alone where `m` is 0. -/
theorem getLsbD_inserted (base f pos m : Nat) {i : Nat} (hi : i < 64) :
    (if m = 0 then tokNat base
      else tokNat (base / 2 ^ (pos + m) * 2 ^ (pos + m) + f % 2 ^ m * 2 ^ pos + base % 2 ^ pos)).getLsbD i =
      if pos ≤ i ∧ i < pos + m then f.testBit (i - pos) else base.testBit i := by
  by_cases hm : m = 0
  · rw [if_pos hm, if_neg (by omega), getLsbD_tokNat, decide_eq_true hi, Bool.true_and]
  · rw [if_neg hm, getLsbD_tokNat, testBit_insert, decide_eq_true hi, Bool.true_and]

theorem getLsbD_aluBfi (ty : BitTy) (l r q : W64) {i : Nat} (hi : i < 64) :
    let pos := (q.extractLsb' 0 7).toNat
    let n := (q.extractLsb' 8 7).toNat
    (aluBfi ty l r q).getLsbD i =
      (decide (i < bits ty) && if pos ≤ i ∧ i < pos + n then l.getLsbD (i - pos) else r.getLsbD i) := by
  intro pos n
  have hpos : bitsOf q.toNat 6 0 = pos := bitsOf_toNat q 0 6
  have hlen : bitsOf q.toNat 14 8 = n := bitsOf_toNat q 8 6
  simp only [aluBfi, bitWidth_eq_bits, hpos, hlen, getLsbD_inserted _ _ _ _ hi, Nat.testBit_mod_two_pow,
    BitVec.testBit_toNat]
  by_cases hb : i < bits ty
  · have hrange : pos ≤ i ∧ i < pos + (if bits ty ≤ pos then 0 else min n (bits ty - pos)) ↔
        pos ≤ i ∧ i < pos + n := by
      split <;> omega
    simp only [hrange, hb, decide_true, Bool.true_and]
  · rw [if_neg (by split <;> omega)]
    simp only [hb, decide_false, Bool.false_and]

/-! ## Bit counts and reversal (R159) -/

theorem popCount_eq_length_filter (x n : Nat) : popCount x n = ((List.range n).filter x.testBit).length := by
  induction n with
  | zero => rfl
  | succ n ih =>
    rw [popCount, ih, List.range_succ, List.filter_append, List.length_append, ← Nat.toNat_testBit, Nat.add_comm]
    cases h : x.testBit n <;> simp [h]

theorem aluPopc_eq_ofNat (ty : BitTy) (l : W64) :
    aluPopc ty l = BitVec.ofNat 64 ((List.range (bits ty)).filter (fun i => l.getLsbD i)).length := by
  rw [aluPopc, bitWidth_eq_bits, popCount_eq_length_filter]
  rfl

theorem aluClz_eq_ofNat (ty : BitTy) (l : W64) : aluClz ty l = BitVec.ofNat 64 (lzCount l.toNat (bits ty)) := by
  rw [aluClz, bitWidth_eq_bits, tokNat]

theorem aluCtz_eq_ofNat (ty : BitTy) (l : W64) : aluCtz ty l = BitVec.ofNat 64 (tzCount l.toNat (bits ty) 0) := by
  rw [aluCtz, bitWidth_eq_bits, tokNat]

theorem lzCount_le (x n : Nat) : lzCount x n ≤ n := by
  induction n with
  | zero => exact Nat.le_refl 0
  | succ n ih =>
    rw [lzCount]
    split <;> omega

theorem lzCount_succ (x n : Nat) : lzCount x (n + 1) = if x.testBit n then 0 else 1 + lzCount x n := by
  simp only [lzCount, Nat.testBit_eq_decide_div_mod_eq, decide_eq_true_eq]

theorem testBit_above_lzCount (x n : Nat) {i : Nat} (hlo : n - lzCount x n ≤ i) (hhi : i < n) : x.testBit i = false := by
  induction n with
  | zero => exact absurd hhi (Nat.not_lt_zero i)
  | succ n ih =>
    have := lzCount_le x n
    rw [lzCount_succ] at hlo
    by_cases hbit : x.testBit n
    · rw [if_pos hbit] at hlo; omega
    · rw [if_neg hbit] at hlo
      rcases Nat.lt_succ_iff_lt_or_eq.1 hhi with h | rfl
      · exact ih (by omega) h
      · exact Bool.eq_false_of_not_eq_true hbit

theorem testBit_at_lzCount (x n : Nat) (h : lzCount x n < n) : x.testBit (n - 1 - lzCount x n) = true := by
  induction n with
  | zero => exact absurd h (Nat.not_lt_zero _)
  | succ n ih =>
    rw [lzCount_succ] at h ⊢
    by_cases hbit : x.testBit n
    · simp [hbit]
    · rw [if_neg hbit] at h ⊢
      rw [show n + 1 - 1 - (1 + lzCount x n) = n - 1 - lzCount x n by omega]
      exact ih (by omega)

theorem tzCount_succ (x n k : Nat) : tzCount x (n + 1) k = if x.testBit k then 0 else 1 + tzCount x n (k + 1) := by
  simp only [tzCount, Nat.testBit_eq_decide_div_mod_eq, decide_eq_true_eq]

theorem tzCount_le (x n k : Nat) : tzCount x n k ≤ n := by
  induction n generalizing k with
  | zero => exact Nat.le_refl 0
  | succ n ih =>
    have := ih (k + 1)
    rw [tzCount_succ]
    split <;> omega

theorem testBit_below_tzCount (x n k : Nat) {i : Nat} (hlo : k ≤ i) (hhi : i < k + tzCount x n k) :
    x.testBit i = false := by
  induction n generalizing k with
  | zero => exact absurd (Nat.lt_of_le_of_lt hlo hhi) (Nat.lt_irrefl k)
  | succ n ih =>
    rw [tzCount_succ] at hhi
    by_cases hbit : x.testBit k
    · rw [if_pos hbit] at hhi; omega
    · rw [if_neg hbit] at hhi
      rcases Nat.eq_or_lt_of_le hlo with rfl | h
      · exact Bool.eq_false_of_not_eq_true hbit
      · exact ih (k + 1) h (by omega)

theorem testBit_at_tzCount (x n k : Nat) (h : tzCount x n k < n) : x.testBit (k + tzCount x n k) = true := by
  induction n generalizing k with
  | zero => exact absurd h (Nat.not_lt_zero _)
  | succ n ih =>
    rw [tzCount_succ] at h ⊢
    by_cases hbit : x.testBit k
    · simp [hbit]
    · rw [if_neg hbit] at h ⊢
      rw [← Nat.add_assoc]
      exact ih (k + 1) (by omega)

/-- What `revBits` has gathered after `n` bits: their reversal, moved up to the top of `w` bits. -/
theorem revBits_eq_shifted (x w n : Nat) (hn : n ≤ w) :
    ∃ y, revBits x w n = 2 ^ (w - n) * y ∧ ∀ i, y.testBit i = (decide (i < n) && x.testBit (n - 1 - i)) := by
  induction n with
  | zero => exact ⟨0, rfl, by simp⟩
  | succ n ih =>
    obtain ⟨y, hy, hbits⟩ := ih (by omega)
    refine ⟨Nat.bit (x.testBit n) y, ?_, fun i => ?_⟩
    · have hpow : 2 ^ (w - n) = 2 ^ (w - (n + 1)) * 2 := by rw [← pow_succ]; congr 1; omega
      rw [revBits, hy, Nat.bit_val, Nat.toNat_testBit, hpow, Nat.sub_sub, Nat.add_comm 1 n]
      ring
    · cases i with
      | zero => rw [Nat.testBit_bit_zero]; simp
      | succ i =>
        rw [Nat.testBit_bit_succ, hbits, show n + 1 - 1 - (i + 1) = n - 1 - i by omega]
        simp only [Nat.add_lt_add_iff_right]

theorem testBit_revBits (x w i : Nat) : (revBits x w w).testBit i = (decide (i < w) && x.testBit (w - 1 - i)) := by
  obtain ⟨y, hy, hbits⟩ := revBits_eq_shifted x w w (Nat.le_refl w)
  rw [hy, Nat.sub_self, pow_zero, Nat.one_mul, hbits]

theorem getLsbD_aluBrev (ty : BitTy) (l : W64) (i : Nat) :
    (aluBrev ty l).getLsbD i = (decide (i < bits ty) && l.getLsbD (bits ty - 1 - i)) := by
  have hle := bits_le ty
  rw [aluBrev, bitWidth_eq_bits, getLsbD_tokNat, testBit_revBits, BitVec.testBit_toNat]
  by_cases hi : i < bits ty
  · simp [hi, show i < 64 by omega]
  · simp [hi]

/-! ## Firings -/

/-- An instruction whose meaning is to fire and send one result sends it where it fires. -/
theorem Fires.exec_eq_sends {s : State} {ins : List Field} {pr : Nat} {l r q v : W64} {i : Instr} {t0 t1 : Target}
    {g : W64 → W64 → W64 → W64} (h : Fires s ins pr l r q)
    (hexec : exec i s = go (s.fire ins pr fun x y z st => st.result t0 t1 (g x y z))) (hv : g l r q = v) :
    exec i s = sends s ins pr t0 t1 v := by
  rw [hexec, State.fire, show s.ready ins pr = .on l r q from h, ← hv]
  rfl

/-! ## The second operand of the I forms -/

theorem iTok_const (s : State) (wide : Bool) (k : Nat) : s.iTok wide (.const k) = constTok s wide k := by
  cases wide with
  | false => exact BitVec.ofNat_toNat 64 (s.consts.getD k 0)
  | true =>
    apply BitVec.eq_of_toNat_eq
    simp only [State.iTok, constTok, constPair, constWord, tokNat, if_true, BitVec.toNat_ofNat, BitVec.toNat_append]
    rw [← Nat.shiftLeft_add_eq_or_of_lt (s.consts.getD k 0).isLt, Nat.shiftLeft_eq, Nat.add_comm, Nat.mul_comm]
    exact Nat.mod_eq_of_lt (by omega)

theorem iTok_eq_bitField (s : State) (ty : BitTy) (f : IField) : s.iTok (ty = .b64) f = bitField s ty f := by
  cases f with
  | imm v => rfl
  | const k => exact iTok_const s _ k

theorem iInt_eq_intField (s : State) (ty : IntTy) (f : IField) : s.iInt ty f = intField s ty f := by
  cases f with
  | imm v => rfl
  | const k => rw [State.iInt, valOf_eq_readInt, iTok_const]; rfl

theorem iCount_eq_countField (s : State) (f : IField) : s.iCount f = countField s f := by
  cases f <;> rfl

/-! ## Compares, selections and predicates -/

theorem condHolds_eq_holds (c : Cond) (a b : Int) : condHolds c a b = holds c a b := by
  cases c with
  | eq => rfl
  | ne => exact Bool.eq_iff_iff.2 (by simp [condHolds, holds])
  | lt | le | gt | ge => rfl

theorem cwBits_eq_cmpBits (w : CWidth) : cwBits w = cmpBits w := by cases w <;> rfl

theorem cmpVal_eq_readCmp (signed : Bool) (w : CWidth) (x : W64) : cmpVal signed w x.toNat = readCmp signed w x := by
  rw [cmpVal, cwBits_eq_cmpBits, signedOf_toNat, ← BitVec.toNat_setWidth, readCmp]

theorem aluCmp_eq (signed : Bool) (c : Cond) (w : CWidth) (l r : W64) :
    aluCmp signed c w l r = if holds c (readCmp signed w l) (readCmp signed w r) then 1 else 0 := by
  rw [aluCmp, predTok, condHolds_eq_holds, cmpVal_eq_readCmp, cmpVal_eq_readCmp]

theorem cmpField_eq (s : State) (signed : Bool) (c : Cond) (w : CWidth) (l : W64) (f : IField) :
    s.cmpField signed c w l f = if holds c (readCmp signed w l) (cmpField s signed w f) then 1 else 0 := by
  cases f with
  | imm v =>
    have hwrap : wrapTo v (cmpBits w) = (BitVec.ofInt (cmpBits w) v).toNat := (BitVec.toNat_ofInt v).symm
    rw [State.cmpField, aluCmpImm, predTok, condHolds_eq_holds, cmpVal_eq_readCmp, cwBits_eq_cmpBits, hwrap]
    rfl
  | const k => rw [State.cmpField, aluCmp_eq, iTok_const]; rfl

theorem aluLea_i32 (sh : Nat) (l r : W64) : aluLea sh .i32 l r = l + ((r.setWidth 32).signExtend 64) <<< sh := by
  rw [aluLea, signedOf_toNat]
  rfl

theorem aluLea_n32 (sh : Nat) (l r : W64) : aluLea sh .n32 l r = l + ((r.setWidth 32).setWidth 64) <<< sh :=
  congrArg (fun x : W64 => l + x <<< sh) (cutTok_eq_cut .b32 r)

theorem predOfTok_eq_getLsbD (x : W64) : predOfTok x = x.getLsbD 0 := by
  rw [predOfTok, ← BitVec.testBit_toNat, Nat.testBit_zero]
  rfl

theorem aluSel_eq_cut (ty : BitTy) (l r q : W64) : aluSel ty l r q = cut ty (if q.getLsbD 0 then l else r) := by
  rw [aluSel, cutTok_eq_cut, ← BitVec.testBit_toNat, Nat.testBit_zero]
  simp only [decide_eq_true_eq]

theorem aluPand_eq (l r : W64) : aluPand l r = if l.getLsbD 0 ∧ r.getLsbD 0 then 1 else 0 := by
  simp only [aluPand, predTok, predOfTok_eq_getLsbD, Bool.and_eq_true]

theorem aluPor_eq (l r : W64) : aluPor l r = if l.getLsbD 0 ∨ r.getLsbD 0 then 1 else 0 := by
  simp only [aluPor, predTok, predOfTok_eq_getLsbD, Bool.or_eq_true]

theorem aluPxor_eq (l r : W64) : aluPxor l r = if l.getLsbD 0 = r.getLsbD 0 then 0 else 1 := by
  simp only [aluPxor, predTok, predOfTok_eq_getLsbD, bne_iff_ne, ne_eq, ite_not]

theorem aluPnot_eq (l : W64) : aluPnot l = if l.getLsbD 0 then 0 else 1 := by
  rw [aluPnot, predTok, predOfTok_eq_getLsbD]
  cases l.getLsbD 0 <;> rfl

/-! ## The statements -/

/-- Settles O7: each form sends its result function, which is `finish` of the exact integer (R151, R152). -/
theorem integerArithmeticResults : Obligations.IntegerArithmeticResults := by
  unfold Obligations.IntegerArithmeticResults
  intro s p ty sat t1 t0 l r q
  refine ⟨fun h => ⟨?add, ?sub, ?mul, ?mulh, ?div, ?rem, ?min, ?max⟩, fun z h => ⟨?abs, ?neg⟩⟩
  case add => exact h.exec_eq_sends rfl (aluAdd_eq_finish ty sat l r)
  case sub => exact h.exec_eq_sends rfl (aluSub_eq_finish ty sat l r)
  case mul => exact h.exec_eq_sends rfl (aluMul_eq_finish ty sat l r)
  case mulh => exact h.exec_eq_sends rfl (aluMulh_eq_finish ty l r)
  case div => exact h.exec_eq_sends rfl (aluDiv_eq_finish ty sat l r)
  case rem => exact h.exec_eq_sends rfl (aluRem_eq_finish ty l r)
  case min => exact h.exec_eq_sends rfl (aluMin_eq_finish ty l r)
  case max => exact h.exec_eq_sends rfl (aluMax_eq_finish ty l r)
  case abs => exact h.exec_eq_sends rfl (aluAbs_eq_finish z sat l)
  case neg => exact h.exec_eq_sends rfl (aluNeg_eq_finish z sat l)

theorem bitwiseResults : BitwiseResults := by
  intro s p ty f t1 t0 l r q
  refine ⟨fun h => ?register, fun h => ?immediate⟩
  case register =>
    refine ⟨aluAnd ty l r, aluOr ty l r, aluXor ty l r, aluAndn ty l r, h.exec_eq_sends rfl rfl, h.exec_eq_sends rfl rfl,
      h.exec_eq_sends rfl rfl, h.exec_eq_sends rfl rfl, fun i hi => ?_⟩
    simp only [aluAnd, aluOr, aluXor, aluAndn, getLsbD_cutTok, BitVec.getLsbD_and, BitVec.getLsbD_or, BitVec.getLsbD_xor,
      BitVec.getLsbD_not, hi, decide_true, Bool.true_and, Bool.and_assoc, and_self]
  case immediate =>
    rw [← iTok_eq_bitField]
    refine ⟨aluAnd ty l _, aluOr ty l _, aluXor ty l _, h.exec_eq_sends rfl rfl, h.exec_eq_sends rfl rfl,
      h.exec_eq_sends rfl rfl, fun i _ => ?_⟩
    simp only [aluAnd, aluOr, aluXor, getLsbD_cutTok, BitVec.getLsbD_and, BitVec.getLsbD_or, BitVec.getLsbD_xor,
      Bool.and_assoc, and_self]

theorem shiftAndRotateResults : ShiftAndRotateResults := by
  intro s p ty sat f bt t1 t0 l r q
  refine ⟨fun h => ?register, fun h => ?immediate⟩
  case register =>
    intro n
    have hn : shiftCount ty r = n := shiftCount_eq_toNat ty r
    refine ⟨?shl, ?shr, aluRot bt l r, h.exec_eq_sends rfl rfl, fun j => getLsbD_aluRot_add_mod bt l r,
      fun j => getLsbD_aluRot_of_ge bt l r⟩
    case shl => exact h.exec_eq_sends rfl (by rw [aluShl_eq_finish, hn])
    case shr => exact h.exec_eq_sends rfl (by rw [aluShr_eq_finish, hn])
  case immediate =>
    intro n
    have hn : s.iCount f = n := iCount_eq_countField s f
    exact ⟨h.exec_eq_sends rfl (by rw [aluShl_eq_finish, hn]), h.exec_eq_sends rfl (by rw [aluShr_eq_finish, hn])⟩

theorem bitFieldResults : BitFieldResults := by
  intro s p ty bt t1 t0 l r q
  refine ⟨fun h => ?bfx, fun h => ?bfi, fun h => ⟨?popc, ?clz, ?ctz, ?brev⟩⟩
  case bfx => exact h.exec_eq_sends rfl (aluBfx_eq_finish ty l r)
  case bfi => exact ⟨aluBfi bt l r q, h.exec_eq_sends rfl rfl, fun i => getLsbD_aluBfi bt l r q⟩
  case popc => exact h.exec_eq_sends rfl (aluPopc_eq_ofNat bt l)
  case clz =>
    refine ⟨lzCount l.toNat (bits bt), h.exec_eq_sends rfl (aluClz_eq_ofNat bt l), lzCount_le _ _, ?_, ?_⟩
    · exact fun i => testBit_above_lzCount l.toNat (bits bt)
    · exact testBit_at_lzCount l.toNat (bits bt)
  case ctz =>
    refine ⟨tzCount l.toNat (bits bt) 0, h.exec_eq_sends rfl (aluCtz_eq_ofNat bt l), tzCount_le _ _ _, ?_, ?_⟩
    · intro i hi
      exact testBit_below_tzCount l.toNat (bits bt) 0 (Nat.zero_le i) (by omega)
    · intro hlt
      simpa only [Nat.zero_add, BitVec.testBit_toNat] using testBit_at_tzCount l.toNat (bits bt) 0 hlt
  case brev => exact ⟨aluBrev bt l, h.exec_eq_sends rfl rfl, getLsbD_aluBrev bt l⟩

/-- Settles O8: the results of R154 to R159, form by form, from their bits and exact integers. -/
theorem bitAndShiftResults : Obligations.BitAndShiftResults :=
  ⟨bitwiseResults, shiftAndRotateResults, bitFieldResults⟩

theorem addressSelectCompareResults : AddressSelectCompareResults := by
  intro s p sh c w f bt t1 t0 l r q
  refine ⟨fun h => ⟨?i32, ?n32, ?i64, ?cmpSigned, ?cmpUnsigned⟩, fun h => ?sel,
    fun h => ⟨?cmpiSigned, ?cmpiUnsigned⟩⟩
  case i32 => exact h.exec_eq_sends rfl (aluLea_i32 sh.toNat l r)
  case n32 => exact h.exec_eq_sends rfl (aluLea_n32 sh.toNat l r)
  case i64 => exact h.exec_eq_sends rfl rfl
  case cmpSigned => exact h.exec_eq_sends rfl (aluCmp_eq true c w l r)
  case cmpUnsigned => exact h.exec_eq_sends rfl (aluCmp_eq false c w l r)
  case sel => exact h.exec_eq_sends rfl (aluSel_eq_cut bt l r q)
  case cmpiSigned => exact h.exec_eq_sends rfl (cmpField_eq s true c w l f)
  case cmpiUnsigned => exact h.exec_eq_sends rfl (cmpField_eq s false c w l f)

theorem predicateMoveConstantResults : PredicateMoveConstantResults := by
  intro s p ty sat bt imm k f t1 t0 l r q
  refine ⟨fun h => ⟨?pand, ?por, ?pxor⟩, fun h => ⟨?pnot, ?mov, ?addi⟩, fun h => ⟨?movi, ?const⟩⟩
  case pand => exact h.exec_eq_sends rfl (aluPand_eq l r)
  case por => exact h.exec_eq_sends rfl (aluPor_eq l r)
  case pxor => exact h.exec_eq_sends rfl (aluPxor_eq l r)
  case pnot => exact h.exec_eq_sends rfl (aluPnot_eq l)
  case mov => exact h.exec_eq_sends rfl rfl
  case addi => exact h.exec_eq_sends rfl (by rw [xiResult_eq_finish, valOf_eq_readInt, iInt_eq_intField])
  case movi => exact h.exec_eq_sends rfl (extendTok_eq_finish ty imm)
  case const => exact h.exec_eq_sends rfl (iTok_const s _ k)

/-- Settles O9: the results of R153 and R160 to R165, both for immediates and for constant words. -/
theorem selectCompareMoveResults : Obligations.SelectCompareMoveResults :=
  ⟨addressSelectCompareResults, predicateMoveConstantResults⟩

end Sys2Proof.Claims
end

section
/-! PROOF. MZERO at its seal (O32, R284). The statement does not ask for memory in canonical form, as others that read
bytes back do (`State.memoryOk`), and a byte that memory lists twice survives a write of zero: so it fails. From
canonical memory every part of it holds (`Sealed.mzero_zeroes_rows`). -/

namespace Sys2Proof.Machine

/-! ## Bytes of one line written: the fields that change -/

@[simp] theorem State.bumpVersion_cores (s : State) (line : Nat) : (s.bumpVersion line).cores = s.cores := by
  unfold State.bumpVersion; split <;> rfl

@[simp] theorem State.bumpVersion_mem (s : State) (line : Nat) : (s.bumpVersion line).mem = s.mem := by
  unfold State.bumpVersion; split <;> rfl

@[simp] theorem State.bumpVersion_poisoned (s : State) (line : Nat) : (s.bumpVersion line).poisoned = s.poisoned := by
  unfold State.bumpVersion; split <;> rfl

@[simp] theorem State.clearPoison_cores (s : State) (a n : Nat) : (s.clearPoison a n).cores = s.cores := by
  unfold State.clearPoison; dsimp only; split <;> rfl

@[simp] theorem State.clearPoison_mem (s : State) (a n : Nat) : (s.clearPoison a n).mem = s.mem := by
  unfold State.clearPoison; dsimp only; split <;> rfl

/-- R296: a write makes sound the tile elements that it covers whole, and no others. -/
theorem State.accumulator_mem_clearPoison (s : State) (a n x : Nat) :
    (SoftUnit.accumulator, x) ∈ (s.clearPoison a n).poisoned ↔
      (SoftUnit.accumulator, x) ∈ s.poisoned ∧ ¬ (a ≤ x ∧ x + 4 ≤ a + n) := by
  have hunits : (s.clearPoison a n).poisoned =
      (s.clearUnits (fun u size => a ≤ u && u + size ≤ a + n) (fun u size => a < u + size && u < a + n)).poisoned := by
    unfold State.clearPoison; dsimp only; split <;> rfl
  simp only [hunits, State.clearUnits, List.mem_filter, Bool.not_eq_true', ← Bool.not_eq_true, Bool.and_eq_true,
    decide_eq_true_eq]

@[simp] theorem State.storeUnit_cores (s : State) (a : Nat) (bs : List Byte) : (s.storeUnit a bs).cores = s.cores := by
  simp [State.storeUnit]

@[simp] theorem State.storeUnit_mem (s : State) (a : Nat) (bs : List Byte) :
    (s.storeUnit a bs).mem = writeBytes s.mem a bs := by
  simp [State.storeUnit]

theorem State.accumulator_mem_storeUnit (s : State) (a x : Nat) (bs : List Byte) :
    (SoftUnit.accumulator, x) ∈ (s.storeUnit a bs).poisoned ↔
      (SoftUnit.accumulator, x) ∈ s.poisoned ∧ ¬ (a ≤ x ∧ x + 4 ≤ a + bs.length) := by
  simp [State.storeUnit, State.accumulator_mem_clearPoison]

/-! ## Zeros in memory -/

/-- Zeros written into canonical memory: their addresses read zero, and what read zero still does. -/
theorem readByte_writeBytes_zeros {m : Memory} {a n x : Nat} (hm : m.wf = true)
    (hx : readByte m x = 0 ∨ a ≤ x ∧ x < a + n) : readByte (writeBytes m a (List.replicate n 0)) x = 0 := by
  by_cases hin : a ≤ x ∧ x < a + n
  · obtain ⟨i, rfl⟩ := Nat.exists_eq_add_of_le hin.1
    rw [readByte_writeBytes_in i hm (by simpa using hin.2)]
    simp
  · rw [readByte_writeBytes_out x (by rw [List.length_replicate]; omega)]
    exact hx.resolve_right hin

/-- The tile element at an address is sound, and its four bytes are zero. -/
def State.zeroElem (s : State) (a : Nat) : Prop :=
  (SoftUnit.accumulator, a) ∉ s.poisoned ∧ ∀ i, i < 4 → readByte s.mem (a + i) = 0

theorem State.acc_eq_zero {s : State} {c tile row col : Nat} (h : s.zeroElem (accAt c tile row col)) :
    s.acc c tile row col = 0 := by
  obtain ⟨hsound, hbytes⟩ := h
  have hread : readLE s.mem (accAt c tile row col) 4 = 0 := by
    have hfirst : readByte s.mem (accAt c tile row col) = 0 := hbytes 0 (by decide)
    simp [readLE, readBytes, leNat, Nat.add_assoc, hfirst, hbytes]
  unfold State.acc
  dsimp only
  split
  · next hpoison =>
    obtain ⟨⟨u, a⟩, hmem, hu⟩ := List.any_eq_true.mp hpoison
    cases u <;> simp at hu
    exact absurd (hu ▸ hmem) hsound
  · exact hread

/-- A whole row of +0. -/
def State.zeroRow (s : State) (c tile row : Nat) : State := s.setAccRow c tile row 0 (List.replicate 256 0)

theorem State.zeroRow_eq_storeUnit (s : State) (c tile row : Nat) :
    s.zeroRow c tile row = s.storeUnit (accAt c tile row 0) (List.replicate 1024 0) := by
  have hbytes : (List.replicate 256 0).flatMap (fun v => toLE v 4) = List.replicate 1024 0 := by decide +kernel
  rw [State.zeroRow, State.setAccRow, hbytes]

/-- A row of zeros keeps an element of zero, and makes each of its own columns one. -/
theorem State.zeroElem_zeroRow {s : State} {c tile row a : Nat} (hm : s.mem.wf = true)
    (ha : s.zeroElem a ∨ accAt c tile row 0 ≤ a ∧ a + 4 ≤ accAt c tile row 0 + 1024) : (s.zeroRow c tile row).zeroElem a := by
  rw [State.zeroRow_eq_storeUnit]
  refine ⟨?sound, fun i hi => ?byte⟩
  case sound =>
    rw [State.accumulator_mem_storeUnit, List.length_replicate]
    exact fun h => h.2 (ha.resolve_left fun hz => hz.1 h.1)
  case byte =>
    rw [State.storeUnit_mem]
    exact readByte_writeBytes_zeros hm (ha.imp (fun hz => hz.2 i hi) (fun hin => ⟨by omega, by omega⟩))

/-! ## Several rows of zeros -/

/-- What MZERO does to the rows of its mask. -/
def State.zeroRows (s : State) (c tile : Nat) (rows : List (Nat × Mtm)) : State :=
  rows.foldl (fun st e => st.zeroRow c tile e.1) s

@[simp] theorem State.zeroRows_nil (s : State) (c tile : Nat) : s.zeroRows c tile [] = s := rfl

@[simp] theorem State.zeroRows_cons (s : State) (c tile : Nat) (e : Nat × Mtm) (rows : List (Nat × Mtm)) :
    s.zeroRows c tile (e :: rows) = (s.zeroRow c tile e.1).zeroRows c tile rows := List.foldl_cons ..

@[simp] theorem State.zeroRows_cores (s : State) (c tile : Nat) (rows : List (Nat × Mtm)) :
    (s.zeroRows c tile rows).cores = s.cores := by
  induction rows generalizing s with
  | nil => rfl
  | cons e rows ih => rw [State.zeroRows_cons, ih, State.zeroRow_eq_storeUnit, State.storeUnit_cores]

theorem State.zeroElem_zeroRows {c tile a : Nat} (rows : List (Nat × Mtm)) {s : State} (hm : s.mem.wf = true)
    (ha : s.zeroElem a ∨ ∃ e ∈ rows, accAt c tile e.1 0 ≤ a ∧ a + 4 ≤ accAt c tile e.1 0 + 1024) :
    (s.zeroRows c tile rows).zeroElem a := by
  induction rows generalizing s with
  | nil => simpa using ha
  | cons e rows ih =>
    have hm' : (s.zeroRow c tile e.1).mem.wf = true := by
      rw [State.zeroRow_eq_storeUnit, State.storeUnit_mem]; exact writeBytes_wf hm
    rw [State.zeroRows_cons]
    refine ih hm' ?_
    obtain hz | ⟨e', he', hin⟩ := ha
    · exact .inl (State.zeroElem_zeroRow hm (.inl hz))
    · obtain rfl | he' := List.mem_cons.mp he'
      · exact .inl (State.zeroElem_zeroRow hm (.inr hin))
      · exact .inr ⟨e', he', hin⟩

theorem State.readByte_zeroRows {c tile a : Nat} (rows : List (Nat × Mtm)) {s : State}
    (ha : ∀ e ∈ rows, a < accAt c tile e.1 0 ∨ accAt c tile e.1 0 + 1024 ≤ a) :
    readByte (s.zeroRows c tile rows).mem a = readByte s.mem a := by
  induction rows generalizing s with
  | nil => rfl
  | cons e rows ih =>
    obtain ⟨he, hrows⟩ := List.forall_mem_cons.mp ha
    rw [State.zeroRows_cons, ih hrows, State.zeroRow_eq_storeUnit, State.storeUnit_mem]
    exact readByte_writeBytes_out a (by rwa [List.length_replicate])

theorem State.sealMzero_eq_atSeal (s : State) (i : Instr) (tile : Nat) :
    s.sealMzero i tile = s.atSeal i fun x ms st => (st.countRows ms).zeroRows x.core tile (rowsOf ms) := by
  simp only [State.sealMzero, State.zeroRows, State.zeroRow]

/-! ## The rows of the mask -/

/-- A member takes the row it names, where no lower slot has it (R272). -/
def ownRow (m : Map Mtm) (x : Mtm) : Map Mtm :=
  if x.r.toNat < 128 && (mget m x.r.toNat).isNone then mput m x.r.toNat x else m

theorem rowsOf_eq_foldl (ms : List Mtm) : rowsOf ms = ms.foldl ownRow [] := rfl

theorem mget_isSome_iff {α : Type} (m : Map α) (k : Nat) : (mget m k).isSome ↔ ∃ e ∈ m, e.1 = k := by
  induction m with
  | nil => simp
  | cons e m ih =>
    obtain ⟨j, v⟩ := e
    by_cases hj : j = k <;> simp [mget, hj, ih]

theorem mget_ownRow_isSome (m : Map Mtm) (x : Mtm) (row : Nat) :
    (mget (ownRow m x) row).isSome ↔ (mget m row).isSome ∨ row < 128 ∧ x.r.toNat = row := by
  unfold ownRow
  split
  · next h =>
    obtain ⟨hlt, -⟩ := Bool.and_eq_true_iff.mp h
    have hlt := of_decide_eq_true hlt
    rw [mget_mput]
    split
    · next hrow => simp [hrow, hlt]
    · next hrow => simp [Ne.symm hrow]
  · next h =>
    refine ⟨.inl, fun hrow => ?_⟩
    obtain hsome | ⟨hlt, rfl⟩ := hrow
    · exact hsome
    · simpa [hlt, ← Option.isSome_iff_ne_none] using h

theorem mget_foldl_ownRow_isSome (ms : List Mtm) (m : Map Mtm) (row : Nat) :
    (mget (ms.foldl ownRow m) row).isSome ↔ (mget m row).isSome ∨ row < 128 ∧ ∃ x ∈ ms, x.r.toNat = row := by
  induction ms generalizing m with
  | nil => simp
  | cons x ms ih =>
    rw [List.foldl_cons, ih, mget_ownRow_isSome, List.exists_mem_cons_iff, or_assoc, ← and_or_left]

theorem mem_rowsOf_iff (ms : List Mtm) (row : Nat) :
    (∃ e ∈ rowsOf ms, e.1 = row) ↔ row < 128 ∧ ∃ x ∈ ms, x.r.toNat = row := by
  rw [← mget_isSome_iff, rowsOf_eq_foldl, mget_foldl_ownRow_isSome]
  simp

/-! ## The tile and the check -/

/-- R280: a tile that the check lets pass is the workgroup's. -/
theorem mget_tileUse_of_pass {m : Mtx} {me t : Nat} (h : 4 ∉ (tileUse m me t).2) :
    mget (tileUse m me t).1.tiles t = some me := by
  unfold tileUse at h ⊢
  split at h
  · next owner ho =>
    have howner : owner = me := by by_contra hne; simp [hne] at h
    exact howner ▸ ho
  · simp

theorem firstSub_eq_none {bad : List Nat} (h : ∀ k, 1 ≤ k → k ≤ 6 → k ∉ bad) : firstSub bad = none := by
  have hcodes : ∀ k ∈ [5, 6, 2, 1, 4, 3], 1 ≤ k ∧ k ≤ 6 := by decide
  rw [firstSub, List.find?_eq_none]
  intro k hk
  simpa using h k (hcodes k hk).1 (hcodes k hk).2

end Sys2Proof.Machine

namespace Sys2Proof.Claims
open Sys2Proof.Machine

theorem mem_maskOf_iff (ms : List Mtm) (row : Nat) :
    (∃ e ∈ maskOf ms, e.1 = row) ↔ row < 128 ∧ ∃ x ∈ ms, x.r.toNat = row := by
  simp only [maskOf, List.mem_filterMap, List.mem_range, Option.map_eq_some_iff]
  constructor
  · rintro ⟨e, ⟨r, hr, x, hx, rfl⟩, rfl⟩
    exact ⟨hr, x, List.mem_of_find?_eq_some hx, by simpa using List.find?_some hx⟩
  · rintro ⟨hrow, x, hx, hxrow⟩
    obtain ⟨y, hy⟩ : ∃ y, ms.find? (fun y => y.r.toNat = row) = some y :=
      Option.isSome_iff_exists.mp (List.find?_isSome.mpr ⟨x, hx, by simpa using hxrow⟩)
    exact ⟨(row, y), ⟨row, hrow, y, hy, rfl⟩, rfl⟩

/-- The model's rows are those of the mask. -/
theorem exists_mem_rowsOf_iff_maskOf (ms : List Mtm) (row : Nat) :
    (∃ e ∈ rowsOf ms, e.1 = row) ↔ ∃ e ∈ maskOf ms, e.1 = row := by
  rw [mem_rowsOf_iff, mem_maskOf_iff]

/-- An instruction at its seal, its check passed, takes its effect on the records and tiles that the check leaves. -/
theorem Sealed.atSeal_eq {s : State} {i : Instr} {x : SealAt} {ms : List Mtm} {m : Mtx} (h : Sealed s i x ms m)
    (f : SealAt → List Mtm → State → State) : s.atSeal i f = f x ms (s.setMtx x.core m) := by
  rw [State.atSeal, h.named]
  dsimp only
  rw [firstSub_eq_none h.passes, h.plan]

theorem Sealed.exec_mzero {s : State} {p : Pred} {tile : BitVec 2} {x : SealAt} {ms : List Mtm} {m : Mtx}
    (h : Sealed s (.mzero p tile) x ms m) :
    exec (.mzero p tile) s =
      .next (((s.setMtx x.core m).countRows ms).zeroRows x.core tile.toNat (rowsOf ms)) := by
  change execMzero p tile s = _
  rw [execMzero, h.phase]
  dsimp only
  rw [State.sealMzero_eq_atSeal, h.atSeal_eq]

theorem Sealed.mzero_holds_tile {s : State} {p : Pred} {tile : BitVec 2} {x : SealAt} {ms : List Mtm} {m : Mtx}
    (h : Sealed s (.mzero p tile) x ms m) : mget m.tiles tile.toNat = some (x.wg / 128) := by
  rw [← h.plan]
  exact mget_tileUse_of_pass (h.passes 4 (by decide) (by decide))

/-- R284 from canonical memory: the workgroup holds the tile, every column of each row of the mask is +0, and no other
byte changes. -/
theorem Sealed.mzero_zeroes_rows {s : State} {p : Pred} {tile : BitVec 2} {x : SealAt} {ms : List Mtm} {m : Mtx}
    (h : Sealed s (.mzero p tile) x ms m) (hm : s.mem.wf = true) :
    ∃ t, exec (.mzero p tile) s = .next t ∧ mget (t.core x.core).tiles tile.toNat = some (x.wg / 128) ∧
      (∀ e ∈ maskOf ms, ∀ j, j < 256 → t.acc x.core tile.toNat e.1 j = 0) ∧
      ∀ a, (∀ e ∈ maskOf ms, a < accAt x.core tile.toNat e.1 0 ∨ accAt x.core tile.toNat e.1 0 + 1024 ≤ a) →
        readByte t.mem a = readByte s.mem a := by
  have hmem : ((s.setMtx x.core m).countRows ms).mem = s.mem := State.count_mem ..
  refine ⟨_, h.exec_mzero, ?tile, fun e he j hj => ?row, fun a ha => ?frame⟩
  case tile =>
    have hcore : (((s.setMtx x.core m).countRows ms).zeroRows x.core tile.toNat (rowsOf ms)).core x.core =
        (s.setMtx x.core m).core x.core := by
      simp only [State.core, State.zeroRows_cores, State.countRows, State.count_cores]
    rw [hcore, State.setMtx, State.core_setCore_same]
    exact h.mzero_holds_tile
  case row =>
    obtain ⟨e', he', hrow⟩ := (exists_mem_rowsOf_iff_maskOf ms e.1).mpr ⟨e, he, rfl⟩
    have hwf : ((s.setMtx x.core m).countRows ms).mem.wf = true := by rw [hmem]; exact hm
    have hin : accAt x.core tile.toNat e'.1 0 ≤ accAt x.core tile.toNat e.1 j ∧
        accAt x.core tile.toNat e.1 j + 4 ≤ accAt x.core tile.toNat e'.1 0 + 1024 := by
      rw [hrow, accAt, accAt]; omega
    exact State.acc_eq_zero (State.zeroElem_zeroRows _ hwf (.inr ⟨e', he', hin⟩))
  case frame =>
    rw [State.readByte_zeroRows _ fun e he => ?_, hmem]
    obtain ⟨e', he', hrow⟩ := (exists_mem_rowsOf_iff_maskOf ms e.1).mp ⟨e, he, rfl⟩
    rw [← hrow]
    exact ha e' he'

/-! ## A tile at its seal, and the memory that refutes the statement -/

/-- MZERO of tile 0 at its seal: its one member, thread 0 of core 0, names row 0. -/
def zeroingRow0 : State where
  cores := [(0, { threads := [(0, { st := .commit, pass := some { inst := some 0, two := true, opnd := [(opKey 0 .R, 0)] } })],
                  wgs := [(0, { n := 1 })], seals := [{ round := 0, members := [0] }] })]
  images := [(0, { blocks := [oneBlock .mtx 0x06000000] })]
  cur := { agent := .fab 0 0, phase := .seal }

def row0Seal : SealAt := { core := 0, members := [0], img := 0, blk := 0, consts := [], wg := 0 }

def row0Member : Mtm := { slot := 0, l := 0, r := 0 }

/-- The members of a seal do not depend on memory. -/
theorem curSeal_mem (s : State) (mem : Memory) (i : Instr) : { s with mem := mem }.curSeal i = s.curSeal i := rfl

theorem zeroingRow0_sealed (mem : Memory) :
    Sealed { zeroingRow0 with mem := mem } (.mzero .always 0) row0Seal [row0Member] { recs := [], tiles := [(0, 0)] } where
  phase := rfl
  named := by
    rw [curSeal_mem]
    decide +kernel
  plan := rfl
  passes _ _ _ := List.not_mem_nil

theorem row0Member_mem_maskOf : (0, row0Member) ∈ maskOf [row0Member] := by decide +kernel

/-- A byte of row 0 that memory lists once is zero after MZERO. -/
theorem mzero_zeroes_byte_listed_once :
    ∃ t, exec (.mzero .always 0) { zeroingRow0 with mem := [(accAt 0 0 0 0, 1)] } = .next t ∧ t.acc 0 0 0 0 = 0 := by
  obtain ⟨t, ht, -, hzero, -⟩ := (zeroingRow0_sealed [(accAt 0 0 0 0, 1)]).mzero_zeroes_rows (by decide)
  exact ⟨t, ht, hzero _ row0Member_mem_maskOf 0 (by decide)⟩

/-- Refutes O32: nothing asks for canonical memory, and where memory lists a byte of row 0 twice, the write of zero drops
one of the two entries, so element (0, 0) then reads 1. -/
theorem not_mzeroWritesZero : ¬ Obligations.MzeroWritesZero := by
  unfold Obligations.MzeroWritesZero
  intro h
  have hsealed := zeroingRow0_sealed [(accAt 0 0 0 0, 1), (accAt 0 0 0 0, 1)]
  obtain ⟨t, ht, -, hzero, -⟩ := h _ _ _ _ _ _ hsealed
  have hone : (match exec (.mzero .always 0) { zeroingRow0 with mem := [(accAt 0 0 0 0, 1), (accAt 0 0 0 0, 1)] } with
      | .next t => t.acc 0 0 0 0
      | _ => 0) = 1 := by decide +kernel
  rw [ht] at hone
  exact absurd (hone.symm.trans (hzero _ row0Member_mem_maskOf 0 (by decide))) (by decide)

end Sys2Proof.Claims
end

section
/-! PROOF. Stream nodes (O16): a node's member takes its outputs once every slot of its group is decided (R311), and
the outputs are the merge of the two key lists (R312) or the selected values moved together or apart (R313). -/

namespace Sys2Proof.Claims
open Sys2Proof.Machine

/-! ## Keys, values and selection of a member -/

/-- A key as the merge compares it: 32 or 64 bits (R312). -/
def nodeKey (w : Bool) (x : W64) : Nat := if w then x.toNat else (x.setWidth 32).toNat

/-- A value as COMPACT and EXPAND deliver it: 32 or 64 bits (R313). -/
def nodeVal (w : Bool) (x : W64) : W64 := if w then x else cut .b32 x

/-- The members whose R operand selects them (R313). -/
def chosen (ms : List (W64 × W64)) : List (W64 × W64) := ms.filter (fun e => e.2.getLsbD 0)

@[simp] theorem chosen_nil : chosen [] = [] := rfl

@[simp] theorem chosen_cons (m : W64 × W64) (ms : List (W64 × W64)) :
    chosen (m :: ms) = if m.2.getLsbD 0 then m :: chosen ms else chosen ms := List.filter_cons

theorem mod_two_pow_eq_nodeKey (w : Bool) (x : W64) : x.toNat % 2 ^ (if w then 64 else 32) = nodeKey w x := by
  cases w with
  | true => exact Nat.mod_eq_of_lt x.isLt
  | false => exact (BitVec.toNat_setWidth 32 x).symm

theorem tokNat_mod_eq_cut (x : W64) : tokNat (x.toNat % 2 ^ 32) = cut .b32 x := by
  rw [← BitVec.toNat_setWidth, tokNat, BitVec.ofNat_toNat, cut]

theorem filter_predOfTok_eq_chosen (ms : List (W64 × W64)) : ms.filter (fun e => predOfTok e.2) = chosen ms := by
  simp only [chosen, predOfTok_eq_getLsbD]

/-! ## The merge of ISECT and UNION (R312) -/

/-- A merge by the steps of R312 is what `mergeKeys` computes, given fuel for one step per key. -/
theorem mergeKeys_of_merged {union : Bool} {xs bs : List Nat} {out : List (Nat × Nat)} (h : Merged union xs bs out)
    {fuel : Nat} (hfuel : xs.length + bs.length < fuel) : mergeKeys union fuel xs bs = out := by
  induction fuel generalizing xs bs out with
  | zero => exact absurd hfuel (Nat.not_lt_zero _)
  | succ fuel ih =>
    cases h with
    | noA => rfl
    | noB => cases xs <;> simp [mergeKeys]
    | onlyA a b xs bs out hab hrest =>
      rw [mergeKeys, if_pos hab, ih hrest (by simp only [List.length_cons] at hfuel ⊢; omega)]
    | onlyB a b xs bs out hba hrest =>
      rw [mergeKeys, if_neg hba.not_gt, if_pos hba, ih hrest (by simp only [List.length_cons] at hfuel ⊢; omega)]
    | both a xs bs out hrest =>
      rw [mergeKeys, if_neg (lt_irrefl a), if_neg (lt_irrefl a),
        ih hrest (by simp only [List.length_cons] at hfuel; omega)]

/-- Member `j` takes element `j` of the merge, the last member marked where more elements follow (R312). -/
theorem getElem?_mergeOut {union w : Bool} {ms : List (W64 × W64)} {out : List (Nat × Nat)} {j : Nat} (hj : j < ms.length)
    (h : Merged union (ms.map (fun e => nodeKey w e.1)) (ms.map (fun e => nodeKey w e.2)) out) :
    (mergeOut union w ms)[j]? =
      some (match out[j]? with
        | some (k, f) => (BitVec.ofNat 64 k, BitVec.ofNat 64 (f + 4 + if ms.length < out.length ∧ j + 1 = ms.length then 8 else 0))
        | none => (0, 0)) := by
  have hmerge : mergeKeys union (2 * ms.length + 1) (ms.map (fun e => nodeKey w e.1)) (ms.map (fun e => nodeKey w e.2)) = out :=
    mergeKeys_of_merged h (by simp only [List.length_map]; omega)
  simp only [mergeOut, mod_two_pow_eq_nodeKey, hmerge, List.getElem?_map, List.getElem?_range hj, Option.map_some,
    Bool.and_eq_true, decide_eq_true_eq, Option.some.injEq]
  cases hout : out[j]? with
  | some x => rfl
  | none =>
    have hlast : ¬(ms.length < out.length ∧ j + 1 = ms.length) := by
      have := List.getElem?_eq_none_iff.mp hout
      omega
    rw [if_neg hlast]
    rfl

/-! ## COMPACT and EXPAND (R313) -/

theorem getElem?_compactOut (w : Bool) (ms : List (W64 × W64)) {j : Nat} (hj : j < ms.length) :
    (compactOut w ms)[j]? =
      match ((chosen ms).map (·.1))[j]? with
      | some v => some (nodeVal w v, 1)
      | none => (ms[j]?).map (fun e => (nodeVal w e.1, 0)) := by
  simp only [compactOut, tokNat_mod_eq_cut, filter_predOfTok_eq_chosen, List.getElem?_map, List.getElem?_zipIdx,
    List.getElem?_eq_getElem hj, Option.map_some, Nat.zero_add]
  cases (chosen ms)[j]? <;> rfl

/-- Member `j` of the members that follow `k` selected ones takes, where it is selected, the value numbered by the
selected members before it. -/
theorem getElem?_expandFrom (w : Bool) (vs : List W64) (k : Nat) (ms : List (W64 × W64)) (j : Nat) :
    (expandFrom w vs k ms)[j]? = (ms[j]?).map (fun e =>
      if e.2.getLsbD 0 then (nodeVal w (vs.getD (k + (chosen (ms.take j)).length) 0), 1) else (nodeVal w e.1, 0)) := by
  induction ms generalizing k j with
  | nil => rfl
  | cons m ms ih =>
    rw [expandFrom, predOfTok_eq_getLsbD]
    simp only [tokNat_mod_eq_cut]
    cases hm : m.2.getLsbD 0 with
    | false =>
      rw [if_neg Bool.false_ne_true]
      cases j with
      | zero => simp only [List.getElem?_cons_zero, Option.map_some, hm]; rfl
      | succ j => simp only [List.getElem?_cons_succ, List.take_succ_cons, chosen_cons, hm, ih, Bool.false_eq_true, if_false]
    | true =>
      rw [if_pos rfl]
      cases j with
      | zero => simp only [List.getElem?_cons_zero, Option.map_some, hm]; rfl
      | succ j =>
        simp only [List.getElem?_cons_succ, List.take_succ_cons, chosen_cons, hm, ih, if_true, List.length_cons,
          Nat.add_assoc, Nat.add_comm 1]

theorem streamNodeValues : StreamNodeValues := by
  intro union w ms j hj
  refine ⟨fun out h => getElem?_mergeOut hj h, getElem?_compactOut w ms hj, fun e he => ⟨fun hsel => ?_, fun hsel => ?_⟩⟩
  all_goals
    rw [expandOut, getElem?_expandFrom, he, Option.map_some, hsel, Nat.zero_add]
    rfl

/-! ## When a stream node delivers (R311) -/

theorem exec_eq_fireNode {s : State} {p : Pred} {w : Bool} {t1 t0 : Target}
    {e : Instr × (List (W64 × W64) → List (W64 × W64))} (he : e ∈ nodes p w t1 t0) :
    exec e.1 s = .next (s.fireNode p.code t0 t1 e.2) := by
  simp only [nodes, List.mem_cons, List.not_mem_nil, or_false] at he
  obtain rfl | rfl | rfl | rfl := he <;> rfl

/-- A round with the outputs of the executing node for the members of a lane group (R311). -/
def groupComputed (s : State) (c rk pr t w : Nat) (f : List (W64 × W64) → List (W64 × W64)) : State :=
  let ms := groupMembers s c rk pr t w
  let rd := s.round c rk
  s.setRound c rk { rd with
    results := (ms.zip (f (ms.map (·.2)))).foldl (fun m y => mput m (resKey s.cur.idx y.1.1) y.2) rd.results }

section FireNode
variable {s : State} {pr c t : Nat} {l r q : W64} {x : Pass} {t0 t1 : Target} {f : List (W64 × W64) → List (W64 × W64)}

theorem fireNode_of_result (h : Fires s [.L, .R] pr l r q) (ha : s.cur.agent = .fab c t)
    (hp : s.passOf (.fab c t) = some x) {v : W64 × W64}
    (hv : mget (s.round c x.round).results (resKey s.cur.idx t) = some v) :
    s.fireNode pr t0 t1 f = (took s [.L, .R] pr).emit t0 t1 v.1 v.2 := by
  rw [Fires] at h
  simp only [State.fireNode, h, ha, hp, hv, took]

/-- Some slot of the group is undecided. -/
theorem fireNode_of_undecided (h : Fires s [.L, .R] pr l r q) (ha : s.cur.agent = .fab c t)
    (hp : s.passOf (.fab c t) = some x) (hv : mget (s.round c x.round).results (resKey s.cur.idx t) = none) {j : Nat}
    (hj : j < x.width) (hslot : s.nodeMember c x.round s.cur.idx pr (t - t % x.width + j) = none) :
    s.fireNode pr t0 t1 f = s := by
  rw [Fires] at h
  have hany : ∃ j < x.width, s.nodeMember c x.round s.cur.idx pr (t - t % x.width + j) = none := ⟨j, hj, hslot⟩
  simp [State.fireNode, h, ha, hp, hv, hany]

/-- Every slot of the group is decided, and the executing member finds its outputs among those computed. -/
theorem fireNode_of_decided (h : Fires s [.L, .R] pr l r q) (ha : s.cur.agent = .fab c t)
    (hp : s.passOf (.fab c t) = some x) (hv : mget (s.round c x.round).results (resKey s.cur.idx t) = none)
    (hslots : ∀ j, j < x.width → s.nodeMember c x.round s.cur.idx pr (t - t % x.width + j) ≠ none) {v : W64 × W64}
    (hcomputed : mget ((groupComputed s c x.round pr t x.width f).round c x.round).results (resKey s.cur.idx t) = some v) :
    s.fireNode pr t0 t1 f = (took (groupComputed s c x.round pr t x.width f) [.L, .R] pr).emit t0 t1 v.1 v.2 := by
  rw [Fires] at h
  have hall : ¬∃ j < x.width, s.nodeMember c x.round s.cur.idx pr (t - t % x.width + j) = none :=
    fun ⟨j, hj, hslot⟩ => hslots j hj hslot
  rw [State.fireNode, h]
  simp only [ha, hp, hv]
  rw [if_neg (by simpa using hall), List.filterMap_map]
  change (match mget ((groupComputed s c x.round pr t x.width f).round c x.round).results (resKey s.cur.idx t) with
    | some v => (took (groupComputed s c x.round pr t x.width f) [.L, .R] pr).emit t0 t1 v.1 v.2
    | none => groupComputed s c x.round pr t x.width f) = _
  rw [hcomputed]

theorem fireNode_off_fabric (h : Fires s [.L, .R] pr l r q) (ha : ∀ c t, s.cur.agent ≠ .fab c t) {v : W64 × W64}
    (hv : f [(l, r)] = [v]) : s.fireNode pr t0 t1 f = (took s [.L, .R] pr).emit t0 t1 v.1 v.2 := by
  rw [Fires] at h
  cases hagent : s.cur.agent with
  | fab c t => exact absurd hagent (ha c t)
  | _ => simp only [State.fireNode, h, hagent, hv, took]

end FireNode

theorem streamNodes : StreamNodes := by
  intro s p w t1 t0 l r q h e he
  rw [exec_eq_fireNode he]
  refine ⟨fun c t x ha hp => ⟨fun v hv => ?result, fun hv hslots v hcomputed => ?decided, fun hv j hj hslot => ?undecided⟩,
    fun ha v hv => ?offFabric⟩
  case result => exact congrArg Host.Outcome.next (fireNode_of_result h ha hp hv)
  case decided => exact congrArg Host.Outcome.next (fireNode_of_decided h ha hp hv hslots hcomputed)
  case undecided => exact congrArg Host.Outcome.next (fireNode_of_undecided h ha hp hv hj hslot)
  case offFabric => exact congrArg Host.Outcome.next (fireNode_off_fabric h ha hv)

/-- Settles O16: a firing of a stream node takes, computes or waits (R311), and the outputs are those of R312 and
R313. -/
theorem streamNodeResults : Obligations.StreamNodeResults := ⟨streamNodes, streamNodeValues⟩

end Sys2Proof.Claims
end
